-- ==== Sys2Proof/Word.lean ====
section
/-!
DEFINITION. Words, vectors, values and finite maps: the types every other file of the model uses.
-/

namespace Sys2Proof

/-- A byte (R1). -/
abbrev Byte := BitVec 8

/-- A 64-bit scalar (R71). -/
abbrev Word := BitVec 64

/-- The 32-bit lane of a vector (R71). -/
abbrev Lane := BitVec 32

/-- Sixteen 32-bit lanes, lane 0 in the low bits; also one 64-byte flit, tile slot or granule, byte 0 in the low bits (R1, R71, R241, R320). -/
abbrev Row := BitVec 512

/-- A finite map kept as a list of key and value pairs; a key that is not listed has the map's default value. -/
abbrev FMap (α : Type) := List (Nat × α)

/-- What a move carries before poison: a scalar, or sixteen lanes with a valid mask (R71). -/
inductive Datum where
  | scalar (w : Word)
  | vec (lanes : Row) (mask : BitVec 16)
  deriving DecidableEq, Repr

/-- A value in a register or port with its poison mark (R71, R125). -/
structure Value where
  d : Datum
  poison : Bool
  deriving DecidableEq, Repr

/-- A clean scalar. -/
def Value.ofWord (w : Word) : Value := ⟨.scalar w, false⟩

end Sys2Proof
end

