-- ==== Sys2Proof/Config.lean ====
section
/-!
DEFINITION. The values the manual leaves open, as constants with no body: nothing in Lean can compute them, so a
claim that holds of the model holds whatever they are. Each is named in the assumption log.
-/

namespace Sys2Proof

/-- Extra cycles that a flit waits in routers under load; the argument is the state's counter of free values
(R192, R248 give the empty-fabric sum only). UNVERIFIED, log entry 6. -/
opaque Config.fabricWait : Nat → Nat

/-- Cycles between two entry reads of a page walk; R149 bounds a local walk by 2,000 cycles only. Log entry 8. -/
opaque Config.walkStep : Nat → Nat

/-- Cycles the service actor takes over a message; its code is not given (R212). Log entry 4. -/
opaque Config.serviceTime : Nat → Nat

/-- The watchdog exponent of a handler entry of the service actor, which the manual does not give (R38). Log entry 4. -/
opaque Config.serviceWdog : Nat → Nat

/-- Cycles a message takes from a spillway back to the inbox (R44 gives no figure). Log entry 8. -/
opaque Config.spillTime : Nat → Nat

/-- Cycles beyond the floor of a bounded latency: ls atomics 3 to 7, ACRT at most 64, sg answers at least 8 (R79).
Log entry 8. -/
opaque Config.latency : Nat → Nat

/-- The FP32 result of keystone function `fn` on an operand for which R115 gives only an error bound. The value
depends on the operand alone, as R115 says, and counts where it lies within the bound. Log entry 7. -/
opaque Config.keystone : (fn : Nat) → Lane → Lane

/-- The Ed448 identity key that a module derives from its fused secret (R265). Log entry 9. -/
opaque Config.identityKey : (mod : Nat) → List Byte

/-- The flash image of a boot stage, 1 to 3 (R264). Log entry 9. -/
opaque Config.stageImage : (mod stage : Nat) → List Byte

/-- The signature of a boot stage in flash (R264). Log entry 9. -/
opaque Config.stageSignature : (mod stage : Nat) → List Byte

/-- The public key of stage 1 in flash (R264). Log entry 9. -/
opaque Config.firstKey : (mod : Nat) → List Byte

/-- The digest of that key fused into the approach die (R264). Log entry 9. -/
opaque Config.fusedDigest : (mod : Nat) → List Byte

/-- The key of the next stage that an image carries; where in the image it stands is not given (R264). Log entry 9. -/
opaque Config.carriedKey : (image : List Byte) → List Byte

/-- The lanes of a port that the fuse repair map replaces, and those that training finds bad (R264, R266). Log entry 9. -/
opaque Config.badLanes : (mod port : Nat) → List Nat

/-- The pseudo-channels of a stack that the fuse repair map replaces, and those that training finds bad (R264, R266). Log entry 9. -/
opaque Config.badChannels : (mod stack : Nat) → List Nat

/-- The abutment of a span edge that the fuse repair map replaces (R15, R266). Log entry 9. -/
opaque Config.fuseAbut : (mod edge : Nat) → Option Nat

/-- The module's serial number (R265). Log entry 9. -/
opaque Config.serial : (mod : Nat) → Word

/-- What a sensor reads: power, current and temperatures, by sensor and counter of free values (R268, R269).
Log entry 9. -/
opaque Config.sensor : Nat → Nat → Word

/-- A chunk of the scan image of a module, as it was frozen in a cycle; the manual leaves its layout to its chunk 0 (R270). Log entry 9. -/
opaque Config.scanByte : (mod cycle chunk offset : Nat) → Byte

/-- The root word that service code writes on the piers of a job (R146); its code is not given. Log entry 4. -/
opaque Config.jobRoot : (job : Nat) → Word

/-- The event code of a report to the host for which the manual names none (R202, R249, R268). Log entry 9. -/
opaque Config.reportCode : (what : Nat) → Nat

/-- Where the host has put the save area of a partition for a half-span, as the number of its 64 MiB in the stack (R226): module,
partition, half-span. Log entry 5. -/
opaque Config.saveArea : Nat → Nat → Nat → Nat

/-- The header bytes in the data of a frame that says an injected message was refused (R398). Log entry 5. -/
opaque Config.frameByte : (fresh offset : Nat) → Byte

/-- Which of two orders or values the manual leaves to timing (R176). Log entry 8. -/
opaque Config.choice : Nat → Bool

end Sys2Proof
end

