-- ==== Sys2Proof/Syntax.lean ====
section
/-!
DEFINITION. The steps of the part, one constructor of `Instr` per row of the opcode table: the triggers and moves of
a bundle slot with their operand fields (R85 to R97), and the device events with what each event carries.
-/

namespace Sys2Proof

/-- The fifteen result ports of R74. -/
inductive ResSel where
  | ctR | iaR | ibR | imR | imH | lsR | lsH | gmR | gmH | vxR | kfR | msR | slR | sgS | syR
  deriving DecidableEq, Repr

/-- The eighteen operand ports of R74. -/
inductive OpSel where
  | iaA | iaB | ibA | ibB | imA | imB | lsA | lsB | gmA | gmB | vxA | vxB | mxA | mxB | msA | slA | slB | syA
  deriving DecidableEq, Repr

/-- The source of a move (R86). -/
inductive Source where
  | imm (i : BitVec 10)
  | x (r : BitVec 5)
  | v (r : BitVec 5)
  | c (r : BitVec 3)
  | p (i : Fin 6)
  | hdr (i : BitVec 3)
  | limm
  | res (r : ResSel)
  deriving DecidableEq, Repr

/-- The destination of a move that is not a trigger (R87). -/
inductive MoveDest where
  | x (r : BitVec 5)
  | v (r : BitVec 5)
  | c (r : BitVec 3)
  | q (i : Fin 6)
  | port (o : OpSel)
  deriving DecidableEq, Repr

/-- The guard and the source of a slot (R85). -/
structure Mv where
  inv : Bool
  g : BitVec 3
  src : Source
  deriving DecidableEq, Repr

/-- The two integer units (R93). -/
inductive Alu where
  | ia | ib
  deriving DecidableEq, Repr

/-- FENCE scopes (R92, R165). -/
inductive Scope where
  | pier | span | mod | sys
  deriving DecidableEq, Repr

/-- vx element types (R96). -/
inductive VT where
  | i32 | f32 | bf16 | f16 | cf32
  deriving DecidableEq, Repr

/-- Rounding modes (R96, R108). -/
inductive RMode where
  | rne | rz | sr | rd | ru
  deriving DecidableEq, Repr

/-- Atomic operations (R281). -/
inductive AtOp where
  | add | and | or | xor | min | max | minU | maxU | xchg | fadd
  deriving DecidableEq, Repr

/-- gm ordering suffixes (R95). -/
inductive Ord4 where
  | plain | acq | rel | ar
  deriving DecidableEq, Repr

/-- A message: the header fields of R243, the six payload words and their poison marks (R242). -/
structure Msg where
  dmod : BitVec 12 := 0
  dpier : BitVec 10 := 0
  dact : BitVec 6 := 0
  cls : BitVec 5 := 0
  prio : BitVec 2 := 0
  kind : BitVec 3 := 0
  smod : BitVec 12 := 0
  spier : BitVec 10 := 0
  sact : BitVec 6 := 0
  seq : BitVec 16 := 0
  tag : BitVec 16 := 0
  job : BitVec 12 := 0
  graph : BitVec 12 := 0
  words : BitVec 3 := 0
  flags : BitVec 3 := 0
  pay : List Word := []
  poison : BitVec 6 := 0
  deriving DecidableEq, Repr

/-- Where an acknowledgement goes: an outbox entry of a pier, an entry of a module's inject outbox, a copy of a
multicast message, or a flit of a stream context (R242, R245). -/
inductive AckTo where
  | outbox (pk tok : Nat)
  | inject (mod tok : Nat)
  | copy (mod tok idx : Nat)
  | flit (mod abut sid idx : Nat)
  | nobody
  deriving DecidableEq, Repr

/-- A sluice-add message (R244): target, form, member number, signed add, cancelled mark of a completion (R66). -/
structure SlAdd where
  mod : Nat
  pier : Nat
  job : BitVec 12
  sl : BitVec 9
  form : BitVec 2
  member : BitVec 6
  add : BitVec 32
  cancelled : Bool
  frm : AckTo
  graph : Option (BitVec 12) := none
  deriving DecidableEq, Repr

/-- A gm request as it travels (R247): who issued it, the opcode, the address before and after translation, the
values it carries. -/
structure GmReq where
  pk : Nat
  strand : Nat
  entry : Nat
  tok : Nat
  op : BitVec 8
  va : Word
  mod : Nat
  loc : Nat
  dom : BitVec 2
  val : Value
  exp : Value
  job : BitVec 12
  deriving DecidableEq, Repr

/-- The answer to a gm request (R247): status of R245, the old or loaded value, the CAS success word. -/
structure GmAns where
  req : GmReq
  status : BitVec 3
  lost : Bool
  r : Value
  h : Value
  deriving DecidableEq, Repr

/-- How a page walk ends (R149). -/
inductive WalkOut where
  | ok (leaf : Word) (level : Nat)
  | notPresent
  | permission
  | fail
  | poison
  deriving DecidableEq, Repr

/-- A stream command with the identity of its trigger (R253, R351, R219 for the record's fields). -/
structure StreamCmd where
  pk : Nat
  lp : Nat
  strand : Nat
  entry : Nat
  tok : Nat
  actor : Nat
  runid : BitVec 32
  bundle : BitVec 12
  move : BitVec 32
  kind : BitVec 3
  q0 : Word
  q1 : Word
  q2 : Word
  q3 : Word
  q4 : Word
  q5 : Word
  t : Word
  slot : BitVec 2 := 0
  deriving DecidableEq, Repr

/-- One data flit, weight-store flit, exchange flit or scratchpad read of a stream (R242, R256). -/
structure Flit where
  mod : Nat
  abut : Nat
  sid : Nat
  idx : Nat
  off : Nat
  nb : Nat
  data : Row
  poison : Bool
  add : Bool
  deriving DecidableEq, Repr

/-- A fault record on its way to its actor's pier (R206 to R208). -/
structure Deferred where
  pk : Nat
  lp : Nat
  actor : Nat
  strand : Nat
  runid : BitVec 32
  bundle : BitVec 12
  code : BitVec 16
  unit : BitVec 5
  slot : BitVec 2
  w2 : Word
  w3 : Word
  w5 : Word
  notResident : Bool
  deriving DecidableEq, Repr

/-- The request of a TLBI (R157) and the pier that triggered it. -/
structure TlbiReq where
  pk : Nat
  a : Word
  t : Word
  strand : Nat := 0
  runid : BitVec 32 := 0
  bundle : BitVec 12 := 0
  tok : Nat := 0
  deriving DecidableEq, Repr

/-- How a frame travels on the Ethernet port (R259): directly with an EtherType, or in UDP over IPv4 or IPv6 to a port. -/
inductive Encap where
  | ether (type : BitVec 16)
  | udp4 (port : BitVec 16)
  | udp6 (port : BitVec 16)
  deriving DecidableEq, Repr

/-- An Adeif frame from the host (R259, R260): its header fields, its data, and how it came. -/
structure Frame where
  seq : BitVec 32
  ack : BitVec 32
  job : BitVec 12
  flags : BitVec 16
  addr : Word
  operand : Word
  data : List Byte
  version : BitVec 8 := 1
  length : Nat := data.length
  encap : Encap := .ether 0x88B5
  deriving DecidableEq, Repr

/-- A `.graph` line (R101): graph, module and pier of its completion sluice, sluice, target, phase. -/
structure GraphLine where
  graph : BitVec 12
  mod : Nat
  pier : Nat
  sluice : Nat
  target : BitVec 32
  phase : Nat
  deriving DecidableEq, Repr

/-- An `.actor` with its `.region`, `.weir`, `.spill` and `.handler` lines (R101): the words of R34 and the
handler entries of R37. -/
structure ActorLine where
  mod : Nat
  pier : Nat
  actor : Nat
  rgnbase : Word
  rgnlim : Word
  weir : Word
  spill : Word
  fault : Word
  graph : Word
  handlers : List Word
  deriving DecidableEq, Repr

/-- A `.sluice` line on one pier (R101). -/
structure SluiceLine where
  mod : Nat
  pier : Nat
  sluice : Nat
  action : Word
  count : BitVec 32
  target : BitVec 32
  deriving DecidableEq, Repr

/-- The sections of a job image after assembly (R101, R102). Scratchpad, weight-store and code sections are placed
on one pier each; hbm sections carry a virtual address; `mods` are the modules of its pier lists. -/
structure JobImage where
  job : BitVec 12 := 0
  homeMod : Nat := 0
  homePier : Nat := 0
  sluice : Nat := 511
  phases : Nat := 0
  graphs : List GraphLine := []
  code : List (Nat × Nat × Nat × BitVec 128) := []
  spad : List (Nat × Nat × Nat × List Byte) := []
  wst : List (Nat × Nat × Nat × List Byte) := []
  hbm : List (Word × List Byte) := []
  actors : List ActorLine := []
  sluices : List SluiceLine := []
  folds : List Nat := [1]
  mods : List Nat := []
  deriving DecidableEq, Repr

/-- A step of the part. The first constructors are what a slot of a bundle decodes to (R85 to R97); the rest are the
events of the table, each with what it carries. `pk` names a pier context, `st` a strand, `m` the move. -/
inductive Instr where
  -- ct (R92)
  | jmp (m : Mv)
  | jal (m : Mv)
  | done (m : Mv)
  | trap (m : Mv)
  | brk (m : Mv)
  | fenceFull (m : Mv) (sc : Scope)
  | fenceAcq (m : Mv) (sc : Scope)
  | fenceRel (m : Mv) (sc : Scope)
  | fenceEng (m : Mv) (sc : Scope)
  -- ia, ib (R93)
  | add (m : Mv) (u : Alu)
  | sub (m : Mv) (u : Alu)
  | and (m : Mv) (u : Alu)
  | or (m : Mv) (u : Alu)
  | xor (m : Mv) (u : Alu)
  | andn (m : Mv) (u : Alu)
  | shl (m : Mv) (u : Alu)
  | shr (m : Mv) (u : Alu)
  | sra (m : Mv) (u : Alu)
  | rol (m : Mv) (u : Alu)
  | min (m : Mv) (u : Alu)
  | minU (m : Mv) (u : Alu)
  | max (m : Mv) (u : Alu)
  | maxU (m : Mv) (u : Alu)
  | eq (m : Mv) (u : Alu)
  | ne (m : Mv) (u : Alu)
  | lt (m : Mv) (u : Alu)
  | ltU (m : Mv) (u : Alu)
  | le (m : Mv) (u : Alu)
  | leU (m : Mv) (u : Alu)
  | clz (m : Mv) (u : Alu)
  | ctz (m : Mv) (u : Alu)
  | popc (m : Mv) (u : Alu)
  | brev (m : Mv) (u : Alu)
  | bdep (m : Mv) (u : Alu)
  | bext (m : Mv) (u : Alu)
  | sext (m : Mv) (u : Alu)
  | zext (m : Mv) (u : Alu)
  | sel (m : Mv) (u : Alu)
  -- im (R94)
  | mul (m : Mv)
  | mulh (m : Mv)
  | mulhU (m : Mv)
  | mad (m : Mv)
  | div (m : Mv)
  | divU (m : Mv)
  | rem (m : Mv)
  | remU (m : Mv)
  | divideComplete (pk st tok : Nat)
  -- ls and gm (R95)
  | ldl (m : Mv) (f : BitVec 3)
  | stl (m : Mv) (z : BitVec 2)
  | vldl (m : Mv)
  | vstl (m : Mv)
  | atl (m : Mv) (op : AtOp) (w : Bool)
  | casl (m : Mv) (w : Bool)
  | ldg (m : Mv) (f : BitVec 3)
  | ldgAcq (m : Mv) (f : BitVec 3)
  | stg (m : Mv) (z : BitVec 2)
  | stgRel (m : Mv) (z : BitVec 2)
  | vldg (m : Mv)
  | vldgAcq (m : Mv)
  | vstg (m : Mv)
  | vstgRel (m : Mv)
  | atg (m : Mv) (op : AtOp) (w : Bool) (o : Ord4)
  | casg (m : Mv) (w : Bool) (o : Ord4)
  -- vx (R96)
  | vadd (m : Mv) (t : VT)
  | vsub (m : Mv) (t : VT)
  | vmul (m : Mv) (t : VT)
  | vfma (m : Mv) (t : VT)
  | vmin (m : Mv) (t : VT)
  | vmax (m : Mv) (t : VT)
  | vabs (m : Mv) (t : VT)
  | vneg (m : Mv) (t : VT)
  | vceq (m : Mv) (t : VT)
  | vclt (m : Mv) (t : VT)
  | vcle (m : Mv) (t : VT)
  | vsel (m : Mv) (t : VT)
  | vand (m : Mv)
  | vor (m : Mv)
  | vxor (m : Mv)
  | vshl (m : Mv)
  | vshr (m : Mv)
  | vcvt (m : Mv) (r : RMode)
  | vshuf (m : Mv) (t : VT)
  | vrsum (m : Mv) (t : VT)
  | vrmax (m : Mv) (t : VT)
  | vrmaxMin (m : Mv) (t : VT)
  | vbcast (m : Mv) (t : VT)
  | vext (m : Mv) (t : VT)
  | vmask (m : Mv)
  | viota (m : Mv)
  | vcmul (m : Mv)
  | vcmulConj (m : Mv)
  -- mx (R97)
  | mcfg (m : Mv)
  | mld (m : Mv)
  | mldw (m : Mv)
  | mstRaw (m : Mv)
  | mstBf16 (m : Mv)
  | mstF32 (m : Mv)
  | mzero (m : Mv)
  | mma (m : Mv)
  | mmas (m : Mv)
  | mmaf (m : Mv)
  | cmma (m : Mv)
  | matrixEntryExecute (pk : Nat)
  -- kf (R97)
  | kexp (m : Mv) (bf : Bool)
  | kexp2 (m : Mv) (bf : Bool)
  | klog (m : Mv) (bf : Bool)
  | klog2 (m : Mv) (bf : Bool)
  | krcp (m : Mv) (bf : Bool)
  | krsq (m : Mv) (bf : Bool)
  | ksqrt (m : Mv) (bf : Bool)
  | ksin (m : Mv) (bf : Bool)
  | kcos (m : Mv) (bf : Bool)
  | ktanh (m : Mv) (bf : Bool)
  | ksigm (m : Mv) (bf : Bool)
  | kerf (m : Mv) (bf : Bool)
  | keystoneAccept (mod k : Nat)
  | keystoneResult (pk st entry tok : Nat) (v : Value)
  -- ms (R97)
  | send (m : Mv)
  | sendRed (m : Mv)
  | reply (m : Mv)
  | fwd (m : Mv)
  | mcast (m : Mv)
  | mstat (m : Mv)
  -- sl (R97)
  | sarm (m : Mv)
  | sset (m : Mv)
  | sadd (m : Mv)
  | sradd (m : Mv)
  | sarv (m : Mv)
  | swait (m : Mv)
  | swaitPh (m : Mv)
  | sget (m : Mv)
  -- sg (R97)
  | sread (m : Mv)
  | swrite (m : Mv)
  | sgath (m : Mv)
  | sscat (m : Mv)
  | sseg (m : Mv)
  | sxch (m : Mv)
  | swld (m : Mv)
  | scanc (m : Mv)
  -- sy (R97)
  | crd (m : Mv)
  | cwr (m : Mv)
  | writeWindow (m : Mv)
  | writeWeir (m : Mv)
  | writeSeed (m : Mv)
  | writeSched (m : Mv)
  | writeXlroot (m : Mv)
  | acrt (m : Mv)
  | aret (m : Mv)
  | gdone (m : Mv)
  | gcncl (m : Mv)
  | tlbi (m : Mv)
  -- moves
  | move (m : Mv) (d : MoveDest)
  | nop
  -- messages and runs
  | messageAdmission (g : Msg) (frm : AckTo)
  | spillwayReturn (pk actor : Nat)
  | dispatch (pk : Nat)
  | runEnd (pk st : Nat)
  | actorLockRelease (pk actor : Nat)
  | actorRetireComplete (pk actor : Nat)
  | watchdogExpiry (pk st : Nat)
  | outboxResend (e : AckTo)
  | acknowledgement (e : AckTo) (status : BitVec 3)
  -- sluices
  | sluiceAddArrival (a : SlAdd)
  | sluiceRecheck (pk sl : Nat)
  | barrierArriveArrival (a : SlAdd)
  | phaseNoticeArrival (a : SlAdd)
  -- gm, translation and atomics
  | gmTranslationDone (pk st entry tok : Nat) (o : WalkOut)
  | gmReply (a : GmAns)
  | apertureAccess (r : GmReq)
  | hbmAccess (r : GmReq)
  | ingressAtomic (r : GmReq)
  | leaseExpiry (mod line tok : Nat)
  | leaseRecall (mod line : Nat)
  | pageWalk (w : Nat)
  | walkMovingRetry (w : Nat)
  | dirtyLogMerge (pk : Nat)
  | invalidationAgent (mod span : Nat)
  | invalidationPier (mod span lp : Nat)
  | invalidationAbutment (mod abut : Nat)
  | invalidationComplete (mod span : Nat)
  | tlbiResend (mod span : Nat) (r : TlbiReq)
  -- streams
  | streamCommandAccept (mod abut : Nat) (c : StreamCmd)
  | streamCommandResend (mod abut : Nat) (c : StreamCmd)
  | streamOpen (mod abut sid : Nat)
  | streamOpenRetry (mod abut sid : Nat)
  | streamTurn (mod abut : Nat)
  | dataFlitArrival (f : Flit)
  | flitResend (f : Flit)
  | weightFlitArrival (f : Flit)
  | scratchpadReadRequest (f : Flit)
  | streamIncrement (mod abut sid : Nat) (cmd : StreamCmd)
  | sxchPair (mod abut sid : Nat)
  | sxchWindowGrant (mod abut sid : Nat)
  -- groups
  | multicastCopy (mod tok idx : Nat)
  | laggardDetach (mod tok idx : Nat)
  | reductionContribution (g : Msg) (frm : AckTo)
  -- job controller
  | gdoneForward (mod pk : Nat) (graph : BitVec 12) (add : BitVec 32) (frm : AckTo)
  | cancel (mod job level id : Nat)
  | cancelAtPier (pk job level id : Nat)
  | flushMarker (mod tok : Nat)
  | cancelEnd (mod : Nat)
  | phaseOpen (mod job phase : Nat)
  | partitionHalt (mod part hs : Nat)
  | haltAtPier (pk : Nat)
  | haltAtAbutment (mod part abut : Nat)
  | haltAck (mod part who : Nat)
  | saveLimitExpiry (pk : Nat)
  | shadowSwap (mod hs part : Nat)
  | streamContextLoad (mod abut part : Nat)
  | partitionEvict (mod part hs : Nat)
  | partitionRestore (mod part hs : Nat)
  | parkedRunRestore (pk : Nat)
  | gangSliceStart (mod slice : Nat)
  | holdBroadcast (mod job : Nat) (on : Bool)
  | healthProbe (mod : Nat)
  | hungPier (pk : Nat)
  | deferredFaultReport (d : Deferred)
  -- service commands (R212)
  | createActor (pk : Nat) (g : Msg)
  | resume (pk : Nat) (g : Msg)
  | drop (pk : Nat) (g : Msg)
  | evictActor (pk : Nat) (g : Msg)
  | evictWaitTimeout (pk : Nat) (g : Msg)
  | restoreActor (pk : Nat) (g : Msg)
  | streamResume (pk : Nat) (g : Msg)
  | streamStop (pk : Nat) (g : Msg)
  | harvest (pk : Nat) (g : Msg)
  | harvestComplete (mod span : Nat)
  | phaseBegin (pk : Nat) (g : Msg)
  | reservedServiceCommand (pk : Nat) (g : Msg)
  | serviceForwardToHost (pk : Nat) (g : Msg)
  | faultRecordForward (pk : Nat) (g : Msg)
  -- host frames (R260 to R262)
  | jobLoaderRun (mod job : Nat)
  | frameResendTimeout (mod : Nat)
  -- Veiviush (R263 to R272)
  | attestationSigned (mod tok : Nat)
  | powerMeasure (mod : Nat)
  | replayDivergence (pk : Nat)
  | portDown (mod port : Nat)
  | bringUp (mod : Nat)
  | matrixEntryComplete (pk : Nat)
  | resultPortWrite (pk st unit tok : Nat)
  | bankRefresh (mod bank : Nat)
  | exchangeFlitArrival (f : Flit)
  | portRetrainComplete (mod port : Nat)
  | timeBaseFlit (mod : Nat) (v : Word)
  -- inputs from outside the module (the last constructors: compiled code builds none of these)
  | frameJobLoad (mod : Nat) (f : Frame) (img : JobImage) (last : Bool)
  | framePut (mod : Nat) (f : Frame)
  | frameGet (mod : Nat) (f : Frame)
  | frameMessageInject (mod : Nat) (f : Frame)
  | frameSequenceQuery (mod : Nat) (f : Frame)
  | frameSequenceAnswer (mod : Nat) (f : Frame)
  | frameAckOnly (mod : Nat) (f : Frame)
  | statusGet (mod : Nat) (f : Frame)
  | attestationNonce (mod : Nat) (f : Frame)
  | attestationReportGet (mod : Nat) (f : Frame)
  | powerCapWrite (mod : Nat) (f : Frame)
  | telemetryGet (mod : Nat) (f : Frame)
  | freeze (mod : Nat) (f : Frame)
  | scanReadoutGet (mod : Nat) (f : Frame)
  | rrOff (mod : Nat) (f : Frame)
  | rrRecord (mod : Nat) (f : Frame)
  | rrReplay (mod : Nat) (f : Frame)
  | uncorrectableError (mod kind unit off : Nat)
  | correctedError (mod kind : Nat)
  | torusLaneFailure (mod port lane : Nat)
  | placementTableWrite (mod part : Nat) (job : BitVec 12) (halfspans : BitVec 8) (tbl : FMap (BitVec 32))
  | groupEntryWrite (mod id : Nat) (hdr : Word) (members : List (BitVec 28))
  | gangScheduleWrite (mod : Nat) (o : Word) (p : BitVec 32) (slices : FMap Word)
  | debugHalt (mod site : Nat)
  | debugRelease (mod site : Nat)
  | overtemp (mod die : Nat) (t : Word)
  | spareHbmPc (mod stack pc : Nat)
  | spareAbutment (mod abut : Nat)
  | spareTorusLane (mod port lane : Nat)
  | sparePierRow (mod span row : Nat)
  deriving DecidableEq, Repr

end Sys2Proof
end

