-- ==== Sys2Proof/Machine/State.lean ====
section
/-!
DEFINITION. The state of the machine as plain data: modules, sites, pier contexts, strands, actors, sluices, queues
and the calendar of what is under way; the state right after reset; why a step can stop.
-/

namespace Sys2Proof.Machine

/-- A step that gives no next state. -/
inductive Fault where
  /-- Raised by the fetch of a bundle from a poisoned granule of the code store: R125 records poison there, and no rule
  says what a fetch of it does. Safe: the model stops where the hardware may go on. -/
  | poisonedFetch
  deriving DecidableEq, Repr

/-- A step the model gives no meaning. -/
inductive Refusal where
  /-- Raised by an arm of exec whose instruction has no meaning yet. Safe: nothing is claimed about it. -/
  | notModelled (mnemonic : String)
  deriving DecidableEq, Repr

/-- A result port (R76): empty, waiting for the operation named by `tok`, or holding a value. -/
inductive ResPort where
  | empty
  | pending (tok : Nat)
  | full (v : Value)
  deriving DecidableEq, Repr

/-- What holds a strand after its bundle has issued (R50, R347, R346); a blocked SARV keeps its bundle, move and slot for a record. -/
inductive Wait where
  | none
  | sluice (n : Nat) (target : BitVec 32)
  | phase (n : Nat) (ph : BitVec 2)
  | sarv (n : Nat) (bundle : BitVec 12) (move : Word) (slot : BitVec 2)
  deriving DecidableEq, Repr

/-- The run on a strand (R51, R185, R202, R211): none, live, frozen by a fault, waiting in the parked area, or a run of the
service actor, whose code the manual does not give and whose work the service steps do (R212, log entry 4). -/
inductive RunStatus where
  | free | running | frozen | parked | native
  deriving DecidableEq, Repr

/-- What an in-flight entry stands for (R81). -/
inductive InfKind where
  | gm | kf | div | sg
  deriving DecidableEq, Repr

/-- An entry of the in-flight record (R81, R151, R208): its operation, the trigger that made it, the captured request. -/
structure Inflight where
  kind : InfKind
  tok : Nat
  issued : Bool
  bundle : BitVec 12
  move : BitVec 32
  tlow : BitVec 32
  req : GmReq
  slot : BitVec 2 := 0
  deriving DecidableEq, Repr

/-- A result that is computed and lands at a known cycle (R79): unit number, r and h, or an actor to create (R276);
`seed` marks an operation that used cw.seed (R296); `sample` the sluice and item an SGET reads at the end of its cycle
(R348). -/
structure Pending where
  tok : Nat
  unit : Nat
  r : Option Value
  h : Option Value
  create : Option (List Word)
  seed : Bool
  sample : Option (Nat × Nat)
  deriving DecidableEq, Repr

/-- A sluice operation or stream command that its bundle has triggered and that is made later (R77, R152, R169). -/
inductive OwedOp where
  | sarm (n : Nat) (t : Word)
  | sset (n : Nat) (a t : Word)
  | sadd (n : Nat) (v : BitVec 32)
  | stream (abut : Nat) (c : StreamCmd)
  deriving DecidableEq, Repr

/-- A trigger that covers gm requests of its own bundle and waits for them in its bundle, with what a record of it names: bundle, move word
and slot. -/
structure Owed where
  op : OwedOp
  bundle : BitVec 12
  move : Word
  slot : BitVec 2
  deriving DecidableEq, Repr

/-- What a discarded run has triggered and not made yet (R215): the run, the gm requests of its bundle that it covers, the trigger. -/
structure OwedLeft where
  strand : Nat
  lp : Nat
  actor : Nat
  runid : BitVec 32
  toks : List Nat
  what : Owed
  deriving DecidableEq, Repr

/-- A strand (R69, R72, R82, R224). `start` counts the cycles until its first bundle may issue (R186); `owed` lists triggers of
the last bundle that wait for its gm requests; `tries` counts how often the work of a service run met an entry of the tables that was
being moved (R149); `parkAt` is the place of a parked run in the parked area (R231). -/
structure Strand where
  status : RunStatus := .free
  service : Bool := false
  wait : Wait := .none
  owed : List Owed := []
  donePending : Bool := false
  pc : BitVec 12 := 0
  stop : BitVec 12 := 0
  x : FMap Value := []
  v : FMap Value := []
  c : FMap Bool := []
  q : FMap Value := []
  p : FMap Value := []
  hdr : Msg := {}
  op : FMap (Option Value) := []
  res : FMap ResPort := []
  inf : FMap (Option Inflight) := []
  pend : List Pending := []
  actor : BitVec 6 := 0
  lp : BitVec 10 := 0
  runid : BitVec 32 := 0
  seed : BitVec 32 := 1
  cycles : Word := 0
  wexp : Nat := 10
  wd : Nat := 0
  start : Nat := 0
  tries : Nat := 0
  parkAt : Nat := 0
  deriving DecidableEq, Repr

/-- The states of R53, and the time between the end of a run and the release of its lock (R172). -/
inductive ActorSt where
  | free | idle | running | frozen | evicted
  deriving DecidableEq, Repr

/-- A cancel in force at a pier (R67): level and id. -/
structure CancelMark where
  job : Nat
  level : Nat
  id : Nat
  deriving DecidableEq, Repr

/-- An inbox slot in use (R42, R181): the message, when it was first admitted, whether it is in the service reserve,
whether it is an urgent notice that keeps its flag (R40); `back` while it returns from the spillway and is in no queue yet (R44). -/
structure Slot where
  msg : Msg
  admitted : Nat
  since : Nat
  reserve : Bool
  urgent : Bool
  back : Bool := false
  deriving DecidableEq, Repr

/-- An actor (R33, R34, R53, R338). `retiring` is set by ARET (R280); `ending` holds while the lock of an ended run
waits for its accesses (R172); `lp` is its logical pier; `ringTail` counts the messages written to its spillway, `transit` those that return from it;
`saved` is what an eviction keeps; `owed` the cancels that wait for its restore (R68); `evicting` the evict command that
waits for its engine work (R216). -/
structure Actor where
  st : ActorSt := .free
  retiring : Bool := false
  ending : Bool := false
  lp : BitVec 10 := 0
  rgnbase : Word := 0
  rgnlim : Word := 0
  weir : BitVec 9 := 16
  spill : Word := 0
  fault : Word := 0
  graph : BitVec 12 := 0
  seq : BitVec 16 := 0
  spilled : List (Msg × Nat) := []
  ringTail : Nat := 0
  transit : Nat := 0
  saved : Option (Strand × List Slot × Bool) := none
  owed : List CancelMark := []
  evicting : Option Msg := none
  deriving DecidableEq, Repr

/-- The order stream of an outbox entry (R45): sender actor and destination. -/
inductive StreamKey where
  | toActor (sender : Nat) (dst : BitVec 28)
  | toPier (sender : Nat) (mod pier : Nat)
  | toGroup (sender : Nat) (mod group : Nat)
  | toController (sender : Nat)
  deriving DecidableEq, Repr

/-- What an outbox entry sends (R45, R244). -/
inductive OutBody where
  | msg (g : Msg)
  | add (a : SlAdd)
  | gdone (graph : BitVec 12) (add : BitVec 32)
  | mcast (group : Nat) (g : Msg)
  | reduce (group : Nat) (g : Msg)
  deriving DecidableEq, Repr

/-- An outbox entry (R45): `sent` while an answer is awaited, `retry` after a refusal, `refused` once refused; the rest
names the trigger for a deferred record (R47, R63). `after` names the gm requests of the same bundle, which it covers
(R152, R169). -/
structure OutEntry where
  tok : Nat
  key : StreamKey
  body : OutBody
  sent : Bool
  retry : Bool
  refused : Bool
  actor : Nat
  runid : BitVec 32
  bundle : BitVec 12
  strand : Nat
  move : Word
  w3 : Word
  unit : BitVec 5
  slot : BitVec 2 := 0
  after : List Nat := []
  deriving DecidableEq, Repr

/-- A sluice (R57, R58, R61). `leads` is the lead of each member of a home; `owed` counts the notices of each member
that wait for an outbox entry; `memberPk` the pier each member last arrived from; `firedAt` is the cycle of the last firing and `again` asks for the check of the next
cycle (R59). -/
structure Sluice where
  count : BitVec 32 := 0
  target : BitVec 32 := 0
  phase : BitVec 2 := 0
  armed : Bool := false
  action : Word := 0
  leads : List Nat := []
  owed : FMap Nat := []
  memberPk : FMap Nat := []
  firedAt : Option Nat := none
  again : Bool := false
  deriving DecidableEq, Repr

/-- The operations of the matrix queue (R319). -/
inductive MOp where
  | mcfg | mld | mldw | mstRaw | mstBf16 | mstF32 | mzero | mma | mmas | mmaf | cmma
  deriving DecidableEq, Repr

/-- A matrix-queue entry (R219, R319): its operation, captured values, trigger and release. -/
structure MEntry where
  tok : Nat
  op : MOp
  t : Word
  a : Word
  released : Bool
  at_ : Nat
  actor : BitVec 6
  lp : BitVec 10
  strand : Nat
  runid : BitVec 32
  bundle : BitVec 12
  move : BitVec 32
  slot : BitVec 2 := 0
  deriving DecidableEq, Repr

/-- A release credit (R60): the actor and its key; `none` matches any key. -/
structure Credit where
  actor : Nat
  key : Option (BitVec 9)
  deriving DecidableEq, Repr

/-- A stream handle granted by a pier (R255): the stream, its actor, sluices and ring. -/
structure Handle where
  mod : Nat
  abut : Nat
  sid : Nat
  job : BitVec 12
  q1 : Word
  ring : Nat
  deriving DecidableEq, Repr

/-- A gm request issued by a run that has ended or was dropped and is not yet performed (R151, R172). -/
structure Late where
  tok : Nat
  actor : Nat
  lp : Nat
  strand : Nat
  runid : BitVec 32
  bundle : BitVec 12
  move : BitVec 32
  tlow : BitVec 32
  va : Word
  slot : BitVec 2 := 0
  deriving DecidableEq, Repr

/-- The context of a partition on a carrier pier (R223 to R225), with what the pier holds about it while it runs. `haltCount`
is the cycle a halt reached it; `wasBusy` lists the strands that held a run at the start of the cycle; `mergeTries` counts how often the oldest entry of the dirty
log met a node that was being moved; `creating` holds the records of actors that runs which have ended still create: operation, logical
pier and words (R276); `owedLeft` what discarded runs have triggered and not made yet (R215); the `rr` fields are the trace of R271 and R272, `rrTries` and `rrRetry` how often its next entry was found
behind one of the tables that is being moved and when it is looked at again (R149); `restart` lists the actors lost with a hung
pier, whose records wait for the partition's return (R235). -/
structure Pier where
  strands : FMap Strand := []
  actors : FMap Actor := []
  handlers : FMap Word := []
  inbox : List Slot := []
  outbox : List OutEntry := []
  sluices : FMap Sluice := []
  credits : List Credit := []
  mq : List MEntry := []
  mrun : Option Nat := none
  mstep : Nat := 0
  tileCfg : FMap Word := []
  claims : FMap (Option Nat) := []
  wins : FMap Word := []
  jobStrands : BitVec 3 := 7
  age : BitVec 6 := 16
  ptrs : FMap Nat := []
  dispatches : BitVec 32 := 0
  lastIssue : Nat := 7
  wasBusy : List Nat := []
  code : FMap (BitVec 128) := []
  codePoison : FMap Bool := []
  spad : FMap Byte := []
  spadPoison : FMap Bool := []
  xlroot : Word := 0
  dlogHead : BitVec 8 := 0
  dlogCount : Nat := 0
  mergeTries : Nat := 0
  laglim : BitVec 32 := 65536
  savelim : BitVec 32 := 32768
  hold : Bool := false
  debugHalted : Bool := false
  /-- What Veiviush has written to strand frames since the debug halt, by strand: an input from outside (R233; log entry 51). -/
  debugFrames : FMap (List Byte) := []
  halting : Bool := false
  haltCount : Nat := 0
  fenced : Bool := false
  lost : Bool := false
  handles : FMap (Option Handle) := []
  divBusy : Option Nat := none
  creating : List (Nat × Nat × List Word) := []
  late : List Late := []
  owedLeft : List OwedLeft := []
  cancels : List CancelMark := []
  pathLast : FMap Nat := []
  rrFull : Bool := false
  rrNext : Nat := 0
  rrSince : Nat := 0
  rrTries : Nat := 0
  rrRetry : Nat := 0
  rrFree : Bool := false
  restart : List (Nat × Nat × Word × BitVec 12) := []
  deriving DecidableEq, Repr

/-- A tile register or accumulator (R320, R117): slots of 64 bytes, poison of each row of a tile or each 32-bit
element of an accumulator, and the current bit (R227). -/
structure Tile where
  rows : FMap Row := []
  poison : FMap Bool := []
  current : Bool := false
  deriving DecidableEq, Repr

/-- A cached translation (R150, R155): job, first address of the page, level of the leaf, whether it is one of a 2 MiB
group, the leaf, the dirty state. -/
structure TEntry where
  job : BitVec 12
  base : Nat
  size : Nat
  leaf : Word
  dirty : Bool
  deriving DecidableEq, Repr

/-- What belongs to a physical site and not to a partition (R141, R227, R150). Tiles are 0 to 15, accumulators 16 to
19. -/
structure Site where
  slice : FMap Byte := []
  slicePoison : FMap Bool := []
  status : Word := 0
  tiles : FMap Tile := []
  tcache : List TEntry := []
  deriving DecidableEq, Repr

/-- Where a stream context stands (R153, R255, R258). -/
inductive StPhase where
  | opening | active | paused | pairing | ending
  deriving DecidableEq, Repr

/-- Why a stream stops: the words of its record, and the flit or segment (R208, R220). -/
structure StreamStop where
  code : Nat
  w2 : Word
  w3 : Word
  pos : Nat
  deriving DecidableEq, Repr

/-- A stream context (R17, R254 to R258). `total` is F; `next` the next flit to send or to ask for; every flit below `low`
is acknowledged or written, `acked` lists those above it, `unacked` those sent and not answered; `landed` counts the flits
that landed; `adds` the increments owed as messages, `inc` the flit whose writing makes the next one; `extents` the
translated pages, `walk` the walk under way, `walked` the pages whose walks failed, not yet acted on; `ahead` the first flit
whose pages are not all translated, `missAt` the flit that a paused stream holds for a page that is not present; `line` the line of a table or
record asked for and when it is there; `scan` the next flit whose bytes are asked for, `cross` when that request reaches their homes, `wcross` when a flit to be written does;
`part` the bytes of the flit in hand; `resend` the refused flits that wait to be sent again, `held` those of them for which the
stream is held (R222), `addsBack` the refused increments; `openOut` while an open message is unanswered;
`ext` the extension record; `segs` the segments read, as first flit, first row and rows, with `segIdx` words of the table
read, the last of them `segPrev`, `segTotal` flits, and `segBad` why the table ends early; `stop` why it stops; `cancels` the SCANC
triggers that wait for its end. For an SXCH: `peer` the partner's context, `rtotal` the flits to receive, `rd` the next
flit to read, `claimed` the chunks with room in both abutments' exchange buffers (R17), the last of them only asked for while `asking` holds, `window` the chunks the partner has granted,
`granted` those granted to it, `wlow` and `wset` the received
flits written, `xbuf` the outgoing data. `buffer` holds data that waits to be written. -/
structure Stream where
  sid : Nat
  cmd : StreamCmd
  phase : StPhase
  handle : Option Nat := none
  total : Nat := 0
  next : Nat := 0
  low : Nat := 0
  acked : List Nat := []
  landed : Nat := 0
  unacked : List Nat := []
  adds : Nat := 0
  inc : Nat := 0
  extents : List TEntry := []
  walk : Option Nat := none
  walked : List (Word × WalkOut) := []
  scan : Nat := 0
  ahead : Nat := 0
  missAt : Option Nat := none
  line : Option (Nat × Nat) := none
  cross : FMap Nat := []
  wcross : FMap Nat := []
  resend : List Nat := []
  held : List Nat := []
  addsBack : Nat := 0
  openOut : Bool := false
  part : List Byte := []
  partBad : Bool := false
  ext : Option (List Word) := none
  segs : List (Nat × Nat × Nat) := []
  segIdx : Nat := 0
  segPrev : Word := 0
  segTotal : Nat := 0
  segBad : Option StreamStop := none
  answered : Bool := false
  stop : Option StreamStop := none
  cancels : List (Nat × Nat × Nat) := []
  peer : Option Nat := none
  rtotal : Nat := 0
  rd : Nat := 0
  claimed : Nat := 0
  asking : Bool := false
  window : Nat := 0
  granted : Nat := 0
  wlow : Nat := 0
  wset : List Nat := []
  xbuf : FMap (Row × Bool) := []
  buffer : List (Nat × Row × Bool) := []
  deriving DecidableEq, Repr

/-- An abutment (R17, R191): its contexts by number, its command queue, the context served last (15 before the first turn: DESIGN
CHOICE, log entry 2, since R191 gives no reset value) and the flits left of its turn, the partitions it is halted for, what it has saved for
each: streams, and queued commands with their places in the save area. -/
structure Abut where
  ctxs : FMap (Option Stream) := []
  queue : List StreamCmd := []
  last : Nat := 15
  left : Nat := 0
  haltedFor : List Nat := []
  savedCtxs : List (Nat × Stream) := []
  savedQueue : List (Nat × Nat × StreamCmd) := []
  deriving DecidableEq, Repr

/-- Who a page walk is for (R149, R151, R153, R261). -/
inductive WalkFor where
  | gm (pk st entry tok : Nat)
  | stream (mod abut sid : Nat)
  deriving DecidableEq, Repr

/-- A page walk in progress (R146 to R149): the address, what the access needs, the node to read next. -/
structure Walk where
  who : WalkFor
  job : BitVec 12
  va : Word
  need : BitVec 3
  level : Nat
  mod : Nat
  node : Nat
  dom : BitVec 2
  retries : Nat
  deriving DecidableEq, Repr

/-- A request waiting at a keystone (R190). -/
structure KReq where
  pk : Nat
  strand : Nat
  entry : Nat
  tok : Nat
  fn : Nat
  bf : Bool
  v : Value
  deriving DecidableEq, Repr

/-- A keystone (R19, R190): waiting requests in order of arrival, the logical row served last, 15 before the first acceptance
(DESIGN CHOICE, log entry 2: R190 gives no reset value). -/
structure Keystone where
  reqs : List KReq := []
  last : Nat := 15
  deriving DecidableEq, Repr

/-- An invalidation at an agent (R158): the request, the sites and abutments that have not acknowledged. -/
structure Inval where
  req : TlbiReq
  sites : List Nat
  abuts : List Nat
  deriving DecidableEq, Repr

/-- A span agent (R21, R158, R363): second-level cache, request queue, invalidation under way, the requests it
originated with the number of agents that have not completed them, harvests waiting. -/
structure Agent where
  cache : List TEntry := []
  queue : List TlbiReq := []
  cur : Option Inval := none
  origin : List (TlbiReq × Nat) := []
  harvests : List (Nat × Msg × FMap Nat) := []
  deriving DecidableEq, Repr

/-- A group entry (R250). `detached` lists the members whose branch from this module is detached, `lag` the cycles counted for
each branch (R237). -/
structure Group where
  hdr : Word := 0
  members : List (BitVec 28) := []
  detached : List Nat := []
  lag : FMap Nat := []
  deriving DecidableEq, Repr

/-- A multicast message under way (R251, R318): the copies not yet admitted, for which its outbox entry is held; those of them
refused that wait to be sent again; those held back by a full window of their branch; and the copies that go to the spillways of
detached members, which hold no entry (R237); `src` is the outbox entry as it was, for the records of its sender (R47). -/
structure MCopy where
  tok : Nat
  pk : Nat
  entry : Nat
  group : Nat
  msg : Msg
  left : List Nat
  refused : List Nat := []
  waiting : List Nat := []
  unicast : List Nat := []
  src : Option OutEntry := none
  deriving DecidableEq, Repr

/-- A reduction round of a group (R252): its number, the contribution of each member slot, and those for the next round; `merged`
counts the contributions of each slot that have reached the root's module. -/
structure Round where
  number : Nat := 0
  got : FMap (Option Msg) := []
  later : FMap (Option Msg) := []
  merged : FMap Nat := []
  deriving DecidableEq, Repr

/-- A job as its controllers know it (R101, R102, R305, R139, R218). `next` is an image received and not loaded yet; `inPhase` while a phase is open, on every module
not in `waitOpen`; `nextPhase` the phase that may open next; `beginReq` the phase-begin that waits (R140); `ended` once the job sluice has fired; `recv` the bytes of the image's sections received
so far; `tries` how often its loader met an entry of the tables that was being moved (R149). -/
structure Job where
  img : JobImage := {}
  next : JobImage := {}
  loaded : Bool := false
  inPhase : Bool := false
  nextPhase : Nat := 0
  waitOpen : List Nat := []
  beginReq : Option (Nat × Msg) := none
  ended : Bool := false
  recv : FMap Byte := []
  tries : Nat := 0
  deriving DecidableEq, Repr

/-- Where a partition's contexts of a half-span are held (R197, R228, R229). -/
inductive Loc where
  | none | piers | shadow | saved
  deriving DecidableEq, Repr

/-- A partition of a module (R195, R197): its job, its placement table, its half-spans and where each one's contexts
are. -/
structure Part where
  job : BitVec 12 := 0
  inUse : Bool := false
  table : FMap (BitVec 32) := []
  halfspans : BitVec 8 := 0
  loc : FMap Loc := []
  savedTable : FMap (BitVec 32) := []
  deriving DecidableEq, Repr

/-- What follows a halt (R205, R235, R266): nothing, the return of what was halted, steps after a number of cycles, or a
spare applied before the return. -/
inductive HaltNext where
  | stay
  | back
  | steps (l : List (Nat × Instr))
  | row (span row : Nat)
  | abut (a : Nat)
  | channel (stack pc : Nat)
  deriving DecidableEq, Repr

/-- A halt under way (R221): the partitions with their half-spans, the piers (by carrier) and abutments (1,024 on) that
have not acknowledged, its first cycle, what follows. -/
structure Halt where
  parts : List (Nat × List Nat)
  waiting : List (Nat × Nat)
  start : Nat
  next : HaltNext
  deriving DecidableEq, Repr

/-- A cancel at a job controller (R67, R235): its level, its first cycle, the acknowledgements and markers not yet received. -/
structure CancelRun where
  job : Nat
  level : Nat
  id : Nat
  piers : List Nat
  markers : Nat
  start : Nat := 0
  deriving DecidableEq, Repr

/-- A frame to the host (R259 to R261, R397, R399): `ack` and `encap` are those of the moment it is sent. -/
structure OutFrame where
  type : BitVec 8
  seq : BitVec 32
  job : BitVec 12
  flags : BitVec 16
  addr : Word
  operand : Word
  data : List Byte
  ack : BitVec 32 := 0
  encap : Encap := .ether 0x88B5
  deriving DecidableEq, Repr

/-- An entry of the inject outbox (R398). -/
structure InjEntry where
  tok : Nat
  msg : Msg
  frame : BitVec 32
  sent : Bool
  retry : Bool
  deriving DecidableEq, Repr

/-- A frame received and not acted on yet (R149, R266, R398): its type, the image it completes where it carries the last
section of one, its retries on moving entries (1 once the loader of its image runs), the cycle of the next one, and whether its flits have left. -/
structure WaitFrame where
  type : Nat
  frame : Frame
  img : Option JobImage := none
  retries : Nat := 0
  at_ : Nat := 0
  away : Bool := false
  deriving DecidableEq, Repr

/-- The host port (R262, R398): the next frame expected and its waiting frames, the next number to send, the frames not
acknowledged, everything sent, the cycle of the last acknowledgement that advanced, the inject outbox. `etherType` and `udpPort` are what
Adeif frames come by, `encap` how the host's last one came, `dropped` the frames of other types or ports (R259). -/
structure HostPort where
  expected : BitVec 32 := 0
  nextSeq : BitVec 32 := 0
  unacked : List OutFrame := []
  wire : List OutFrame := []
  lastAdvance : Nat := 0
  ackedTo : BitVec 32 := 0
  inject : List InjEntry := []
  waiting : List WaitFrame := []
  etherType : BitVec 16 := 0x88B5
  udpPort : BitVec 16 := 51000
  encap : Encap := .ether 0x88B5
  dropped : Word := 0
  deriving DecidableEq, Repr

/-- A torus port (R249, R266): the lanes that have failed and were replaced by spares, the lanes that are out, whether
it is retraining, and until when. -/
structure Port where
  spared : List Nat := []
  failed : List Nat := []
  retraining : Bool := false
  retrainEnd : Nat := 0
  down : Bool := false
  deriving DecidableEq, Repr

/-- Veiviush (R263 to R272). `frozenAt` is the cycle of its freeze; `spareQueue` holds the spares, by kind and unit word, that wait while another is applied (R266); `throttleAt` is the cycle from which throttled cycles are not counted yet; `nextProbe` is 0 while no probe
runs; `badFlits` counts the flits of reserved kinds that links have reported (R242). -/
structure Veiv where
  stage : BitVec 3 := 0
  recovery : Bool := false
  frozen : Bool := false
  frozenAt : Nat := 0
  mreg : List Byte := []
  digests : List (List Byte) := []
  nonce : List Byte := []
  report : Option (List Byte) := none
  reportTok : Nat := 0
  cap : Nat := 1800
  throttle : Nat := 0
  samples : List Word := []
  telemetry : List Word := []
  corrected : FMap Nat := []
  uncorrected : FMap Nat := []
  throttled : Nat := 0
  throttleAt : Nat := 0
  hot : FMap Bool := []
  pierSpared : FMap (Option Nat) := []
  abutSpared : FMap (Option Nat) := []
  pcSpared : FMap (List Nat) := []
  spareQueue : List (Nat × Word) := []
  rrMode : BitVec 2 := 0
  rrJob : BitVec 12 := 0
  rrBase : Word := 0
  rrAt : Nat := 0
  nextProbe : Nat := 0
  badFlits : Nat := 0
  deriving DecidableEq, Repr

/-- A module (R10 to R24). `tbStep` is what the next cycle adds to tb (R203). Of a gang schedule (R204): `gangBusy` lists the half-spans being switched, `gangQueue` the slices
that wait, `gangLate` the start of the switch under way and its limit; `cancels` wait for the cancel under way (R304);
`holds` lists the jobs under a job-wide hold (R233). -/
structure Module where
  present : Bool := false
  hbm : FMap Byte := []
  hbmPoison : FMap Bool := []
  abuts : FMap Abut := []
  agents : FMap Agent := []
  keystones : FMap Keystone := []
  leases : List (Nat × Nat) := []
  groups : FMap Group := []
  rounds : FMap Round := []
  copies : List MCopy := []
  parts : FMap Part := []
  siteMap : FMap (Option Nat) := []
  tb : Word := 0
  tbCorrected : Nat := 0
  tbStep : Nat := 1
  cyc : Word := 0
  gangO : Word := 0
  gangP : BitVec 32 := 0
  gang : FMap Word := []
  gangLate : Option (Nat × Nat) := none
  gangBusy : List Nat := []
  gangQueue : List Nat := []
  halts : List Halt := []
  cancels : List CancelMark := []
  cancelRun : Option CancelRun := none
  holds : List Nat := []
  ports : FMap Port := []
  veiv : Veiv := {}
  host : HostPort := {}
  deriving DecidableEq, Repr

/-- What a fault record says beyond the identity of its run (R206 to R209). -/
structure FaultInfo where
  code : BitVec 16
  slot : BitVec 2
  unit : BitVec 5
  w2 : Word
  w3 : Word
  brk : Bool
  deferred : Bool := false
  notRes : Bool := false
  deriving DecidableEq, Repr

/-- The bundle being issued (R77 to R80, R89): who issues it, the slot in hand, the slots and the long immediate, the
strand as the previous bundle left it, the entries of the outbox then, whether some condition of R80 holds it, the fault of the lowest failing slot. -/
structure Issue where
  pk : Nat := 0
  strand : Nat := 0
  addr : BitVec 12 := 0
  slot : BitVec 2 := 0
  slots : List (BitVec 30) := []
  limm : Word := 0
  pre : Strand := {}
  out : Nat := 0
  held : Bool := false
  fault : Option FaultInfo := none
  deriving DecidableEq, Repr

/-- A piece of work of the present cycle: a step of the table, or the issue of a bundle on a pier (R188). -/
inductive Work where
  | ev (i : Instr)
  | issue (pk : Nat)
  deriving DecidableEq, Repr

/-- The machine: a torus of modules (R24, R249). `cycle` is the cycle being simulated (R2); `agenda` the work left in
it; `cal` what is under way with the cycle each thing falls due, flits in flight and outside inputs included; `fresh`
counts the free values taken; `tok` names operations in flight. -/
structure State where
  cycle : Nat
  agenda : List Work
  cal : List (Nat × Instr)
  issue : Issue
  fresh : Nat
  tok : Nat
  torus : Nat × Nat × Nat
  mods : FMap Module
  piers : FMap Pier
  sites : FMap Site
  jobs : FMap Job
  walks : FMap (Option Walk)
  deriving DecidableEq, Repr

/-- The machine right after reset: one module, number 0, whose bring-up is its first step (R264); nothing is loaded and
no memory is written. DESIGN CHOICE, log entries 1 to 3 and 10: the values the manual does not give. -/
def State.reset : State :=
  { cycle := 0, agenda := [.ev (.bringUp 0)], cal := [], issue := {}, fresh := 0, tok := 0, torus := (1, 1, 1),
    mods := [(0, { present := true })], piers := [], sites := [], jobs := [], walks := [] }

end Sys2Proof.Machine
end

