-- ==== Sys2Proof/Machine/Maps.lean ====
section
/-!
DEFINITION. Finite maps, the byte memories and the bit-field helpers the rest of the machine is written with.
-/

namespace Sys2Proof.Machine

/-- What a map holds at a key; `d` where the key is not listed. -/
def fget {α : Type} : FMap α → Nat → α → α
  | [], _, d => d
  | p :: m, k, d => if p.1 = k then p.2 else fget m k d

/-- The map with a key set, the keys kept in rising order. -/
def fset {α : Type} : FMap α → Nat → α → FMap α
  | [], k, v => [(k, v)]
  | p :: m, k, v => if k < p.1 then (k, v) :: p :: m else if p.1 = k then (k, v) :: m else p :: fset m k v

/-- The map with a key taken out. -/
def fdel {α : Type} (m : FMap α) (k : Nat) : FMap α := m.filter (fun p => !(p.1 == k))

/-- The map with a function applied at a key. -/
def fadj {α : Type} (m : FMap α) (k : Nat) (d : α) (f : α → α) : FMap α := fset m k (f (fget m k d))

/-- Strictly rising keys. -/
def rising {α : Type} : FMap α → Bool
  | [] => true
  | p :: m => (match m with | [] => true | q :: _ => decide (p.1 < q.1)) && rising m

/-- The canonical form of a byte memory: strictly rising addresses, no byte listed that equals what an unlisted address
reads as (0, log entry 1). -/
def Memory.wf (m : FMap Byte) : Bool := rising m && m.all (fun p => p.2 != 0)

/-- The byte at an address. -/
def mget (m : FMap Byte) (a : Nat) : Byte := fget m a 0

/-- A byte written; writing 0 takes the entry out. -/
def mset (m : FMap Byte) (a : Nat) (b : Byte) : FMap Byte := if b = 0 then fdel m a else fset m a b

/-- `n` bytes from an address as a number, lowest address least significant (R1). -/
def mread (m : FMap Byte) (a : Nat) : Nat → Nat
  | 0 => 0
  | n + 1 => (mget m a).toNat + 256 * mread m (a + 1) n

/-- `n` bytes of a number written from an address (R1). -/
def mwrite (m : FMap Byte) (a : Nat) : Nat → Nat → FMap Byte
  | 0, _ => m
  | n + 1, v => mwrite (mset m a (BitVec.ofNat 8 v)) (a + 1) n (v / 256)

/-- A list of bytes written from an address. -/
def mwriteList (m : FMap Byte) (a : Nat) : List Byte → FMap Byte
  | [] => m
  | b :: l => mwriteList (mset m a b) (a + 1) l

/-- The list of `n` bytes from an address. -/
def mreadList (m : FMap Byte) (a : Nat) (n : Nat) : List Byte := (List.range n).map fun i => mget m (a + i)

/-- Bytes as a number, the first least significant (R1). -/
def natOfBytes (l : List Byte) : Nat := l.foldr (fun b n => b.toNat + 256 * n) 0

/-- A word read from memory. -/
def mword (m : FMap Byte) (a : Nat) : Word := BitVec.ofNat 64 (mread m a 8)

/-- The poison of the 64-byte granule that holds an address (R125). -/
def pget (m : FMap Bool) (a : Nat) : Bool := fget m (a / 64) false

/-- The poison of a granule set. -/
def pset (m : FMap Bool) (a : Nat) (b : Bool) : FMap Bool := if b then fset m (a / 64) true else fdel m (a / 64)

/-- Poison after a write of `n` bytes at an address inside one granule (R126): a poisoned value poisons the granule, a
clean write of all 64 bytes clears it, a narrower clean write leaves it. -/
def pstore (m : FMap Bool) (a n : Nat) (poison : Bool) : FMap Bool :=
  if poison then pset m a true else if n = 64 then pset m a false else m

/-- Bits [lo + n - 1 : lo] of a word as a number (R1). -/
def bits (w : Word) (lo n : Nat) : Nat := w.toNat / 2 ^ lo % 2 ^ n

/-- A field written into a word. -/
def setBits (w : Word) (lo n v : Nat) : Word :=
  BitVec.ofNat 64 (w.toNat % 2 ^ lo + (v % 2 ^ n) * 2 ^ lo + w.toNat / 2 ^ (lo + n) * 2 ^ (lo + n))

/-- One bit of a word. -/
def bitAt (w : Word) (i : Nat) : Bool := w.toNat / 2 ^ i % 2 == 1

/-- 1 or 0. -/
def b2n (b : Bool) : Nat := if b then 1 else 0

/-- A word that is 1 or 0. -/
def boolWord (b : Bool) : Word := if b then 1 else 0

/-- Lane `i` of a row (R71). -/
def laneOf (r : Row) (i : Nat) : Lane := BitVec.ofNat 32 (r.toNat / 2 ^ (32 * i))

/-- A row from its lanes, lane 0 first. -/
def natOfLanes : List Lane → Nat
  | [] => 0
  | l :: ls => l.toNat + 2 ^ 32 * natOfLanes ls

/-- A row whose lane `i` is `f i`. -/
def rowOf (f : Nat → Lane) : Row := BitVec.ofNat 512 (natOfLanes ((List.range 16).map f))

/-- A number from its bits, bit 0 first. -/
def natOfBits : List Bool → Nat
  | [] => 0
  | b :: bs => b2n b + 2 * natOfBits bs

/-- A mask whose bit `i` is `f i`. -/
def maskOf (f : Nat → Bool) : BitVec 16 := BitVec.ofNat 16 (natOfBits ((List.range 16).map f))

/-- The low `n` bytes of a row as 64-bit words are not needed apart from this: word `i` of a row. -/
def rowWord (r : Row) (i : Nat) : Word := BitVec.ofNat 64 (r.toNat / 2 ^ (64 * i))

/-- A signed number taken into a word. -/
def wordOfInt (i : Int) : Word := BitVec.ofInt 64 i

/-- The largest of a list, 0 for none. -/
def maxList (l : List Nat) : Nat := l.foldl max 0

/-- A list with its element `i` replaced. -/
def lset {α : Type} (l : List α) (i : Nat) (v : α) : List α := l.set i v

/-- A list element, or a default. -/
def lgetD {α : Type} (l : List α) (i : Nat) (d : α) : α := (l[i]?).getD d

/-! Values (R71). -/

/-- The scalar that a datum supplies (R71): lanes 1 and 0 of a vector. -/
def Datum.toScalar : Datum → Word
  | .scalar w => w
  | .vec r _ => BitVec.ofNat 64 r.toNat

/-- The lanes that a datum supplies (R71). -/
def Datum.toLanes : Datum → Row
  | .scalar w => BitVec.ofNat 512 w.toNat
  | .vec r _ => r

/-- The valid mask that a datum supplies (R71). -/
def Datum.toMask : Datum → BitVec 16
  | .scalar _ => 3
  | .vec _ m => m

/-- The scalar of a value. -/
def vsc (v : Value) : Word := Datum.toScalar v.d

/-- The lanes of a value. -/
def vlanes (v : Value) : Row := Datum.toLanes v.d

/-- The mask of a value. -/
def vmaskOf (v : Value) : BitVec 16 := Datum.toMask v.d

/-- A clean zero. -/
def Value.zero : Value := Value.ofWord 0

/-- A value as x and q destinations hold it (R71). -/
def toScalarValue (v : Value) : Value := ⟨.scalar (vsc v), v.poison⟩

/-- A value as v destinations hold it (R71). -/
def toVecValue (v : Value) : Value := ⟨.vec (vlanes v) (vmaskOf v), v.poison⟩

/-- What v0 to v31 hold at the start of a run: zero with all lanes valid (R48). -/
def vecZero : Value := ⟨.vec 0 0xFFFF, false⟩

/-! Messages (R243). -/

/-- The 128-bit header of a message (R243). -/
def msgHeader (g : Msg) : BitVec 128 :=
  g.dmod ++ g.dpier ++ g.dact ++ g.cls ++ g.prio ++ g.kind ++ g.smod ++ g.spier ++ g.sact ++ g.seq ++ g.tag ++ g.job
    ++ g.graph ++ g.words ++ g.flags

/-- Header bits [127:64]. -/
def msgHi (g : Msg) : Word := (msgHeader g).extractLsb' 64 64

/-- Header bits [63:0]. -/
def msgLo (g : Msg) : Word := (msgHeader g).extractLsb' 0 64

/-- Payload word `i`; words beyond the length read zero (R48). -/
def payWord (g : Msg) (i : Nat) : Word := if i < g.words.toNat then lgetD g.pay i 0 else 0

/-- The address word of R32. -/
def addrWord (mod pier actor : Nat) : BitVec 28 :=
  (BitVec.ofNat 12 mod) ++ (BitVec.ofNat 10 pier) ++ (BitVec.ofNat 6 actor)

/-- Destination address word of a message. -/
def msgDst (g : Msg) : BitVec 28 := g.dmod ++ g.dpier ++ g.dact

/-- Source address word of a message. -/
def msgSrc (g : Msg) : BitVec 28 := g.smod ++ g.spier ++ g.sact

/-- Module, pier and actor of an address word (R32). -/
def awMod (a : BitVec 28) : Nat := a.toNat / 2 ^ 16

/-- The pier of an address word. -/
def awPier (a : BitVec 28) : Nat := a.toNat / 2 ^ 6 % 1024

/-- The actor of an address word. -/
def awActor (a : BitVec 28) : Nat := a.toNat % 64

/-- A message read back from its header and payload. -/
def msgOfHeader (h : BitVec 128) (pay : List Word) : Msg :=
  { dmod := h.extractLsb' 116 12, dpier := h.extractLsb' 106 10, dact := h.extractLsb' 100 6, cls := h.extractLsb' 95 5,
    prio := h.extractLsb' 93 2, kind := h.extractLsb' 90 3, smod := h.extractLsb' 78 12, spier := h.extractLsb' 68 10,
    sact := h.extractLsb' 62 6, seq := h.extractLsb' 46 16, tag := h.extractLsb' 30 16, job := h.extractLsb' 18 12,
    graph := h.extractLsb' 6 12, words := h.extractLsb' 3 3, flags := h.extractLsb' 0 3, pay := pay }

end Sys2Proof.Machine
end

