-- ==== Sys2Proof/Machine/Crypto.lean ====
section
/-!
DEFINITION. SHAKE256 as FIPS 202 defines it and pure Ed448 with an empty context as RFC 8032 defines it, the two functions that bring-up
and attestation name (R264, R265).
-/

namespace Sys2Proof.Machine

/-! SHAKE256 (FIPS 202). The state is 25 lanes of 64 bits, lane x + 5y. -/

/-- A lane of the state. -/
def lane64 (a : List Word) (x y : Nat) : Word := lgetD a (x % 5 + 5 * (y % 5)) 0

/-- A state from its lanes. -/
def lanesOf (f : Nat → Nat → Word) : List Word := (List.range 25).map fun i => f (i % 5) (i / 5)

/-- Step theta. -/
def keccakTheta (a : List Word) : List Word :=
  let c (x : Nat) : Word := lane64 a x 0 ^^^ lane64 a x 1 ^^^ lane64 a x 2 ^^^ lane64 a x 3 ^^^ lane64 a x 4
  let cs := (List.range 5).map c
  let d (x : Nat) : Word := lgetD cs ((x + 4) % 5) 0 ^^^ (lgetD cs ((x + 1) % 5) 0).rotateLeft 1
  let ds := (List.range 5).map d
  lanesOf fun x y => lane64 a x y ^^^ lgetD ds x 0

/-- The walk of step rho: after `t` moves from lane (1, 0), each to (y, 2x + 3y), whether it stands on a lane, and how far that lane
rotates: the triangular number of t + 1. -/
def keccakRotFrom (x y : Nat) : Nat → Nat → Nat → Nat → Nat
  | 0, _, _, _ => 0
  | n + 1, u, v, t => if u = x ∧ v = y then (t + 1) * (t + 2) / 2 % 64 else keccakRotFrom x y n v ((2 * u + 3 * v) % 5) (t + 1)

/-- The rotation of lane (x, y) in step rho; lane (0, 0) stays. -/
def keccakRot (x y : Nat) : Nat := keccakRotFrom x y 24 1 0 0

/-- Steps rho and pi: lane (y, 2x + 3y) takes lane (x, y) rotated. -/
def keccakRhoPi (a : List Word) : List Word :=
  lanesOf fun x y =>
    let u := (x + 3 * y) % 5
    (lane64 a u x).rotateLeft (keccakRot u (x % 5))

/-- Step chi. -/
def keccakChi (a : List Word) : List Word :=
  lanesOf fun x y => lane64 a x y ^^^ ((~~~ lane64 a (x + 1) y) &&& lane64 a (x + 2) y)

/-- The shift register of step iota after `t` moves: eight bits fed back by the polynomial 1 + x^4 + x^5 + x^6 + x^8. -/
def keccakLfsr : Nat → Nat
  | 0 => 1
  | t + 1 =>
    let r := 2 * keccakLfsr t
    if r < 256 then r else (r - 256) ^^^ 0x71

/-- The constant of step iota in a round: bit 2^j − 1 of the lane is the output of the register after j + 7 moves per round. -/
def keccakRc (round : Nat) : Word :=
  BitVec.ofNat 64 ((List.range 7).foldl (fun n j => n + keccakLfsr ((j + 7 * round) % 255) % 2 * 2 ^ (2 ^ j - 1)) 0)

/-- A round: the five steps. -/
def keccakRound (a : List Word) (round : Nat) : List Word :=
  match keccakChi (keccakRhoPi (keccakTheta a)) with
  | [] => []
  | w :: l => (w ^^^ keccakRc round) :: l

/-- The permutation Keccak-f of 1,600 bits: 24 rounds. -/
def keccakF (a : List Word) : List Word := (List.range 24).foldl keccakRound a

/-- The bytes of SHAKE256 go into and come out of the state 136 at a time. -/
def shakeRate : Nat := 136

/-- A message padded to whole blocks: the suffix 1111, then 1, zeros and 1. -/
def shakePad (l : List Byte) : List Byte :=
  let n := shakeRate - l.length % shakeRate
  if n = 1 then l ++ [0x9F] else l ++ 0x1F :: (List.replicate (n - 2) 0 ++ [0x80])

/-- A block taken into the state. -/
def shakeAbsorb (a : List Word) (l : List Byte) : List Word :=
  let w (i : Nat) : Word := BitVec.ofNat 64 (((l.drop (8 * i)).take 8).foldr (fun b n => b.toNat + 256 * n) 0)
  keccakF ((List.range 25).map fun i => if i < 17 then lgetD a i 0 ^^^ w i else lgetD a i 0)

/-- Every block of a message taken in. -/
def shakeAbsorbAll : Nat → List Word → List Byte → List Word
  | 0, a, _ => a
  | n + 1, a, l => shakeAbsorbAll n (shakeAbsorb a (l.take shakeRate)) (l.drop shakeRate)

/-- The bytes of a number, lowest first. -/
def leBytes : Nat → Nat → List Byte
  | 0, _ => []
  | n + 1, v => BitVec.ofNat 8 v :: leBytes n (v / 256)

/-- A number of blocks taken out of the state. -/
def shakeSqueeze : Nat → List Word → List Byte
  | 0, _ => []
  | n + 1, a => (a.take 17).flatMap (fun w => leBytes 8 w.toNat) ++ shakeSqueeze n (keccakF a)

/-- SHAKE256 of a message with a digest of `n` bytes (R264). -/
def shake256 (l : List Byte) (n : Nat) : List Byte :=
  let p := shakePad l
  (shakeSqueeze (n / shakeRate + 1) (shakeAbsorbAll (p.length / shakeRate) (List.replicate 25 0) p)).take n

/-! The curve of Ed448 (RFC 8032, 5.2): x² + y² = 1 + d x² y² over the field of p = 2^448 − 2^224 − 1. -/

/-- The field prime. -/
def edP : Nat := 2 ^ 448 - 2 ^ 224 - 1
/-- The curve constant, −39081. -/
def edD : Nat := edP - 39081
/-- The order of the base point. -/
def edL : Nat := 2 ^ 446 - 13818066809895115352007386748515426880336692474882178609894547503885

/-- A point X : Y : Z. -/
structure EdPoint where
  x : Nat
  y : Nat
  z : Nat
  deriving DecidableEq, Repr

/-- The base point. -/
def edBase : EdPoint :=
  { x := 224580040295924300187604334099896036246789641632564134246125461686950415467406032909029192869357953282578032075146446173674602635247710
    y := 298819210078481492676017930443930673437544040154080242095928241372331506189835876003536878655418784733982303233503462500531545062832660
    z := 1 }

/-- The neutral point. -/
def edZero : EdPoint := { x := 0, y := 1, z := 1 }

/-- The sum of two points; the same formula doubles. -/
def edAdd (p q : EdPoint) : EdPoint :=
  let a := p.z * q.z % edP
  let b := a * a % edP
  let c := p.x * q.x % edP
  let d := p.y * q.y % edP
  let e := edD * (c * d % edP) % edP
  let f := (b + edP - e) % edP
  let g := (b + e) % edP
  let h := (p.x + p.y) * (q.x + q.y) % edP
  { x := a * f % edP * ((h + 2 * edP - c - d) % edP) % edP, y := a * g % edP * ((d + edP - c) % edP) % edP, z := f * g % edP }

/-- A multiple of a point: bits of the factor from the lowest, `n` of them. -/
def edMul : Nat → Nat → EdPoint → EdPoint
  | 0, _, _ => edZero
  | n + 1, k, p =>
    let r := edMul n (k / 2) (edAdd p p)
    if k % 2 = 1 then edAdd p r else r

/-- A power in the field, by the bits of the exponent. -/
def edPow : Nat → Nat → Nat → Nat
  | 0, _, _ => 1
  | n + 1, a, e =>
    let r := edPow n (a * a % edP) (e / 2)
    if e % 2 = 1 then a * r % edP else r

/-- The inverse in the field. -/
def edInv (a : Nat) : Nat := edPow 448 a (edP - 2)

/-- Whether two points are the same. -/
def edEq (p q : EdPoint) : Bool := p.x * q.z % edP == q.x * p.z % edP && p.y * q.z % edP == q.y * p.z % edP

/-- A point in 57 bytes: y, and the lowest bit of x as the highest bit. -/
def edEncode (p : EdPoint) : List Byte :=
  let i := edInv p.z
  leBytes 57 (p.y * i % edP + p.x * i % edP % 2 * 2 ^ 455)

/-- The point that 57 bytes encode, if any. -/
def edDecode (l : List Byte) : Option EdPoint :=
  let v := natOfBytes l
  let y := v % 2 ^ 455
  let sign := v / 2 ^ 455 % 2
  if l.length ≠ 57 ∨ edP ≤ y then none
  else
    let u := (y * y + edP - 1) % edP
    let w := (edD * (y * y % edP) + edP - 1) % edP
    let u3 := u * u % edP * u % edP
    let w3 := w * w % edP * w % edP
    let x := u3 * w % edP * edPow 448 (u3 * u % edP * u % edP * w3 % edP) ((edP - 3) / 4) % edP
    if w * x % edP * x % edP ≠ u ∨ (x = 0 ∧ sign = 1) then none
    else some { x := if x % 2 = sign then x else edP - x, y := y, z := 1 }

/-! Pure Ed448 with an empty context (RFC 8032, 5.2.5 to 5.2.7). -/

/-- The prefix of every hash: the octets of SigEd448, flag 0, an empty context. -/
def edDom : List Byte := [0x53, 0x69, 0x67, 0x45, 0x64, 0x34, 0x34, 0x38, 0, 0]

/-- The secret scalar of a private key. -/
def edScalar (key : List Byte) : Nat :=
  let v := natOfBytes ((shake256 key 114).take 57)
  v % 2 ^ 447 / 4 * 4 + 2 ^ 447

/-- The 57-byte public key of a private key. -/
def ed448Public (key : List Byte) : List Byte := edEncode (edMul 448 (edScalar key) edBase)

/-- The 114-byte signature of a message under a private key. -/
def ed448Sign (key msg : List Byte) : List Byte :=
  let s := edScalar key
  let pub := ed448Public key
  let r := natOfBytes (shake256 (edDom ++ (shake256 key 114).drop 57 ++ msg) 114) % edL
  let rp := edEncode (edMul 448 r edBase)
  let k := natOfBytes (shake256 (edDom ++ rp ++ pub ++ msg) 114) % edL
  rp ++ leBytes 57 ((r + k * s) % edL)

/-- Whether a signature of a message verifies under a public key. -/
def ed448Verify (pub msg sig : List Byte) : Bool :=
  let rb := sig.take 57
  let s := natOfBytes (sig.drop 57)
  match edDecode pub, edDecode rb with
  | some a, some r =>
    let k := natOfBytes (shake256 (edDom ++ rb ++ pub ++ msg) 114) % edL
    sig.length == 114 && decide (s < edL) &&
      edEq (edMul 3 4 (edMul 448 s edBase)) (edMul 3 4 (edAdd r (edMul 448 k a)))
  | _, _ => false

end Sys2Proof.Machine
end

