-- ==== Sys2Proof/Machine/Flags.lean ====
section
/-!
DEFINITION. The machine has no flags register: conditions are guard bits and 0 or 1 results. Comparisons and the bit
functions of the integer units (R277 to R279, R313, R334, R377).
-/

namespace Sys2Proof.Machine

/-- Signed comparison (R313). -/
def ltS (a t : Word) : Bool := decide (a.toInt < t.toInt)
/-- Unsigned comparison (R313). -/
def ltU (a t : Word) : Bool := decide (a.toNat < t.toNat)

/-- Zero bits above the highest set bit; 64 for 0 (R278). -/
def clz (t : Word) : Word := BitVec.ofNat 64 (if t = 0 then 64 else 63 - t.toNat.log2)
/-- Zero bits below the lowest set bit; 64 for 0 (R278). -/
def ctz (t : Word) : Word := BitVec.ofNat 64 (((List.range 64).find? (bitAt t)).getD 64)
/-- Set bits (R334). -/
def popc (t : Word) : Word := BitVec.ofNat 64 ((List.range 64).filter (bitAt t)).length
/-- A word from a function on its bit numbers. -/
def wordOfBits (f : Nat → Bool) : Word := BitVec.ofNat 64 (natOfBits ((List.range 64).map f))
/-- The bits in reverse (R278). -/
def brev (t : Word) : Word := wordOfBits fun i => bitAt t (63 - i)
/-- Set bits of a mask below a position. -/
def onesBelow (t : Word) (i : Nat) : Nat := ((List.range i).filter (bitAt t)).length
/-- Bits deposited at the set bits of a mask (R279). -/
def bdep (a t : Word) : Word := wordOfBits fun i => bitAt t i && bitAt a (onesBelow t i)
/-- The numbers of the set bits of a mask, lowest first. -/
def onesOf (t : Word) : List Nat := (List.range 64).filter (bitAt t)
/-- Bits gathered from the set bits of a mask (R279). -/
def bext (a t : Word) : Word := BitVec.ofNat 64 (natOfBits ((onesOf t).map (bitAt a)))
/-- Sign extension from bit s = T[5:0] (R334). -/
def sextFrom (a t : Word) : Word := let s := t.toNat % 64; wordOfBits fun i => if i ≤ s then bitAt a i else bitAt a s
/-- Zero extension from bit s = T[5:0] (R377). -/
def zextFrom (a t : Word) : Word := let s := t.toNat % 64; wordOfBits fun i => decide (i ≤ s) && bitAt a i
/-- Rotation left by T[5:0] (R334). -/
def rol (a t : Word) : Word := a.rotateLeft (t.toNat % 64)
/-- Shifts by T[5:0] (R334). -/
def shl (a t : Word) : Word := a <<< (t.toNat % 64)
/-- Logical shift right by T[5:0] (R334). -/
def shr (a t : Word) : Word := a >>> (t.toNat % 64)
/-- Arithmetic shift right by T[5:0] (R334). -/
def sra (a t : Word) : Word := a.sshiftRight (t.toNat % 64)

/-- The quotient of a divide (R297). -/
def quot (signed : Bool) (a t : Word) : Word :=
  if t = 0 then BitVec.allOnes 64
  else if signed then wordOfInt (Int.tdiv a.toInt t.toInt) else BitVec.ofNat 64 (a.toNat / t.toNat)
/-- The remainder of a divide (R297). -/
def remn (signed : Bool) (a t : Word) : Word :=
  if t = 0 then a
  else if signed then wordOfInt (Int.tmod a.toInt t.toInt) else BitVec.ofNat 64 (a.toNat % t.toNat)
/-- Bit length of a number. -/
def bitLen (n : Nat) : Nat := if n = 0 then 0 else n.log2 + 1
/-- The latency of a divide (R298). -/
def divLatency (signed : Bool) (a t : Word) : Nat :=
  if t = 0 then 6 else 6 + (bitLen (if signed then a.toInt.natAbs else a.toNat) + 1) / 2

/-- The high half of the signed product (R315). -/
def mulHigh (a t : Word) : Word := wordOfInt (Int.fdiv (a.toInt * t.toInt) (2 ^ 64))
/-- The high half of the unsigned product (R315). -/
def mulHighU (a t : Word) : Word := BitVec.ofNat 64 (a.toNat * t.toNat / 2 ^ 64)

end Sys2Proof.Machine
end

