-- ==== Sys2Proof/WellFormed.lean ====
section
/-!
DEFINITION. Which steps are well formed: the slot forms the encoding tables give (R85 to R97), and events whose numbers
lie in the ranges the manual gives.
-/

namespace Sys2Proof

/-- Guard field 0b1000, inverted c0, is no slot (R85). -/
def Mv.wf (m : Mv) : Bool := !(m.inv && m.g == 0)

/-- fadd has no 64-bit form (R95, R281). -/
def AtOp.wf (op : AtOp) (w : Bool) : Bool := w || op != .fadd

/-- The types of the operations that take no complex form (R366, R367, R374). -/
def VT.noComplex (t : VT) : Bool := t != .cf32

/-- The slot that moves x0 to x0 under c0 is the NOP and no MOVE (R85, R335). -/
def Mv.notNop (m : Mv) (d : MoveDest) : Bool :=
  !(!m.inv && m.g == 0 && m.src == .x 0 && d == .x 0)

/-- Whether a step has a form the manual gives it. -/
def Instr.wf : Instr → Bool
  | .jmp m | .jal m | .done m | .trap m | .brk m => m.wf
  | .fenceFull m _ | .fenceAcq m _ | .fenceRel m _ | .fenceEng m _ => m.wf
  | .add m _ | .sub m _ | .and m _ | .or m _ | .xor m _ | .andn m _ | .shl m _ | .shr m _ | .sra m _ | .rol m _
  | .min m _ | .minU m _ | .max m _ | .maxU m _ | .eq m _ | .ne m _ | .lt m _ | .ltU m _ | .le m _ | .leU m _
  | .clz m _ | .ctz m _ | .popc m _ | .brev m _ | .bdep m _ | .bext m _ | .sext m _ | .zext m _ | .sel m _ => m.wf
  | .mul m | .mulh m | .mulhU m | .mad m | .div m | .divU m | .rem m | .remU m => m.wf
  | .ldl m _ | .stl m _ | .vldl m | .vstl m | .casl m _ => m.wf
  | .atl m op w => m.wf && op.wf w
  | .ldg m _ | .ldgAcq m _ | .stg m _ | .stgRel m _ | .vldg m | .vldgAcq m | .vstg m | .vstgRel m | .casg m _ _ => m.wf
  | .atg m op w _ => m.wf && op.wf w
  | .vadd m _ | .vsub m _ | .vneg m _ | .vceq m _ | .vsel m _ | .vshuf m _ | .vrsum m _ | .vbcast m _ | .vext m _ => m.wf
  | .vmul m t | .vfma m t | .vmin m t | .vmax m t | .vabs m t | .vclt m t | .vcle m t | .vrmax m t | .vrmaxMin m t =>
    m.wf && t.noComplex
  | .vand m | .vor m | .vxor m | .vshl m | .vshr m | .vcvt m _ | .vmask m | .viota m | .vcmul m | .vcmulConj m => m.wf
  | .mcfg m | .mld m | .mldw m | .mstRaw m | .mstBf16 m | .mstF32 m | .mzero m | .mma m | .mmas m | .mmaf m | .cmma m => m.wf
  | .kexp m _ | .kexp2 m _ | .klog m _ | .klog2 m _ | .krcp m _ | .krsq m _ | .ksqrt m _ | .ksin m _ | .kcos m _
  | .ktanh m _ | .ksigm m _ | .kerf m _ => m.wf
  | .send m | .sendRed m | .reply m | .fwd m | .mcast m | .mstat m => m.wf
  | .sarm m | .sset m | .sadd m | .sradd m | .sarv m | .swait m | .swaitPh m | .sget m => m.wf
  | .sread m | .swrite m | .sgath m | .sscat m | .sseg m | .sxch m | .swld m | .scanc m => m.wf
  | .crd m | .cwr m | .writeWindow m | .writeWeir m | .writeSeed m | .writeSched m | .writeXlroot m | .acrt m | .aret m
  | .gdone m | .gcncl m | .tlbi m => m.wf
  | .move m d => m.wf && m.notNop d
  | .nop => true
  | .divideComplete _ st _ | .runEnd _ st | .watchdogExpiry _ st | .resultPortWrite _ st _ _ => st < 8
  | .keystoneResult _ st entry _ _ | .gmTranslationDone _ st entry _ _ => st < 8 && entry < 16
  | .keystoneAccept _ k => k < 64
  | .spillwayReturn _ a | .actorLockRelease _ a | .actorRetireComplete _ a => a < 64
  | .sluiceRecheck _ sl => sl < 512
  | .invalidationAgent _ sp | .invalidationPier _ sp _ | .invalidationComplete _ sp | .tlbiResend _ sp _
  | .harvestComplete _ sp => sp < 4
  | .invalidationAbutment _ a | .streamCommandAccept _ a _ | .streamCommandResend _ a _ | .streamOpen _ a _
  | .streamOpenRetry _ a _ | .streamTurn _ a | .streamIncrement _ a _ _ | .sxchPair _ a _ | .sxchWindowGrant _ a _
  | .haltAtAbutment _ _ a | .streamContextLoad _ a _ | .spareAbutment _ a => a < 128
  | .partitionHalt _ p hs | .shadowSwap _ hs p | .partitionEvict _ p hs | .partitionRestore _ p hs => p < 8 && hs < 8
  | .gangSliceStart _ sl => sl < 16
  | .sparePierRow _ sp row => sp < 4 && row < 16
  | .spareTorusLane _ p l | .torusLaneFailure _ p l => p < 6 && l < 18
  | .spareHbmPc _ sk pc => sk < 8 && pc < 128
  | .bankRefresh _ b => b < 8
  | .groupEntryWrite _ id _ _ => id < 256
  | _ => true

/-- Whether a step is what a slot of a bundle can stand for: every trigger, MOVE and NOP. The five rows that name the
writes of single control words share the word of CWR and are not slots of their own (log entry 12). -/
def Instr.slotForm : Instr → Bool
  | .jmp _ | .jal _ | .done _ | .trap _ | .brk _ | .fenceFull _ _ | .fenceAcq _ _ | .fenceRel _ _ | .fenceEng _ _ => true
  | .add _ _ | .sub _ _ | .and _ _ | .or _ _ | .xor _ _ | .andn _ _ | .shl _ _ | .shr _ _ | .sra _ _ | .rol _ _
  | .min _ _ | .minU _ _ | .max _ _ | .maxU _ _ | .eq _ _ | .ne _ _ | .lt _ _ | .ltU _ _ | .le _ _ | .leU _ _
  | .clz _ _ | .ctz _ _ | .popc _ _ | .brev _ _ | .bdep _ _ | .bext _ _ | .sext _ _ | .zext _ _ | .sel _ _ => true
  | .mul _ | .mulh _ | .mulhU _ | .mad _ | .div _ | .divU _ | .rem _ | .remU _ => true
  | .ldl _ _ | .stl _ _ | .vldl _ | .vstl _ | .atl _ _ _ | .casl _ _ | .ldg _ _ | .ldgAcq _ _ | .stg _ _ | .stgRel _ _
  | .vldg _ | .vldgAcq _ | .vstg _ | .vstgRel _ | .atg _ _ _ _ | .casg _ _ _ => true
  | .vadd _ _ | .vsub _ _ | .vmul _ _ | .vfma _ _ | .vmin _ _ | .vmax _ _ | .vabs _ _ | .vneg _ _ | .vceq _ _ | .vclt _ _
  | .vcle _ _ | .vsel _ _ | .vand _ | .vor _ | .vxor _ | .vshl _ | .vshr _ | .vcvt _ _ | .vshuf _ _ | .vrsum _ _
  | .vrmax _ _ | .vrmaxMin _ _ | .vbcast _ _ | .vext _ _ | .vmask _ | .viota _ | .vcmul _ | .vcmulConj _ => true
  | .mcfg _ | .mld _ | .mldw _ | .mstRaw _ | .mstBf16 _ | .mstF32 _ | .mzero _ | .mma _ | .mmas _ | .mmaf _ | .cmma _ => true
  | .kexp _ _ | .kexp2 _ _ | .klog _ _ | .klog2 _ _ | .krcp _ _ | .krsq _ _ | .ksqrt _ _ | .ksin _ _ | .kcos _ _
  | .ktanh _ _ | .ksigm _ _ | .kerf _ _ => true
  | .send _ | .sendRed _ | .reply _ | .fwd _ | .mcast _ | .mstat _ => true
  | .sarm _ | .sset _ | .sadd _ | .sradd _ | .sarv _ | .swait _ | .swaitPh _ | .sget _ => true
  | .sread _ | .swrite _ | .sgath _ | .sscat _ | .sseg _ | .sxch _ | .swld _ | .scanc _ => true
  | .crd _ | .cwr _ | .acrt _ | .aret _ | .gdone _ | .gcncl _ | .tlbi _ => true
  | .move _ _ | .nop => true
  | _ => false

end Sys2Proof
end

