-- ==== Sys2Proof/Decode.lean ====
section
/-!
DEFINITION. The decoder of a bundle (R84 to R97), total on any bytes and rejecting by name, and after it the encoder of
a slot, written from the same tables.
-/

namespace Sys2Proof

/-- Why a bundle or a slot has no meaning: a bundle illegal under R88; an illegal source or destination with the field
(R89 step 1); an unassigned opcode, a reserved unit or an illegal type with the opcode (R89 step 2). -/
inductive DecodeError where
  | illegalBundle
  | illegalSource (field : BitVec 11)
  | illegalDest (field : BitVec 15)
  | illegalOp (opcode : BitVec 8)
  | truncated
  deriving DecidableEq, Repr

/-- Bits [hi:lo] of a number as a Nat: `n` bits from bit `lo` (R1). -/
def bitsOf {w : Nat} (x : BitVec w) (lo n : Nat) : Nat := x.toNat / 2 ^ lo % 2 ^ n

/-- The result port of index k of a unit (R74, R86). -/
def resOfIndex : Nat → Option ResSel
  | 0x080 => some .ctR | 0x084 => some .iaR | 0x088 => some .ibR | 0x08C => some .imR | 0x08D => some .imH
  | 0x090 => some .lsR | 0x091 => some .lsH | 0x094 => some .gmR | 0x095 => some .gmH | 0x098 => some .vxR
  | 0x0A0 => some .kfR | 0x0A4 => some .msR | 0x0A8 => some .slR | 0x0AE => some .sgS | 0x0B0 => some .syR
  | _ => none

/-- The selector of a result port (R86): 0x080 + 4u + k with k 0 for r, 1 for h, 2 for s. -/
def ResSel.index : ResSel → Nat
  | .ctR => 0x080 | .iaR => 0x084 | .ibR => 0x088 | .imR => 0x08C | .imH => 0x08D | .lsR => 0x090 | .lsH => 0x091
  | .gmR => 0x094 | .gmH => 0x095 | .vxR => 0x098 | .kfR => 0x0A0 | .msR => 0x0A4 | .slR => 0x0A8 | .sgS => 0x0AE
  | .syR => 0x0B0

/-- The operand port of an index (R74, R87). -/
def opOfIndex : Nat → Option OpSel
  | 0x084 => some .iaA | 0x085 => some .iaB | 0x088 => some .ibA | 0x089 => some .ibB | 0x08C => some .imA | 0x08D => some .imB
  | 0x090 => some .lsA | 0x091 => some .lsB | 0x094 => some .gmA | 0x095 => some .gmB | 0x098 => some .vxA | 0x099 => some .vxB
  | 0x09C => some .mxA | 0x09D => some .mxB | 0x0A4 => some .msA | 0x0A8 => some .slA | 0x0A9 => some .slB | 0x0B0 => some .syA
  | _ => none

/-- The index of an operand port (R87): 0x080 + 4u + k. -/
def OpSel.index : OpSel → Nat
  | .iaA => 0x084 | .iaB => 0x085 | .ibA => 0x088 | .ibB => 0x089 | .imA => 0x08C | .imB => 0x08D | .lsA => 0x090
  | .lsB => 0x091 | .gmA => 0x094 | .gmB => 0x095 | .vxA => 0x098 | .vxB => 0x099 | .mxA => 0x09C | .mxB => 0x09D
  | .msA => 0x0A4 | .slA => 0x0A8 | .slB => 0x0A9 | .syA => 0x0B0

/-- The source field (R86); a long immediate only where the bundle's kind has one. -/
def decodeSource (wide : Bool) (f : BitVec 11) : Except DecodeError Source :=
  let n := f.toNat
  if n ≥ 0x400 then .ok (.imm (BitVec.ofNat 10 n))
  else if n < 0x20 then .ok (.x (BitVec.ofNat 5 n))
  else if n < 0x40 then .ok (.v (BitVec.ofNat 5 n))
  else if n < 0x48 then .ok (.c (BitVec.ofNat 3 n))
  else if h : 0x48 ≤ n ∧ n < 0x4E then .ok (.p ⟨n - 0x48, by omega⟩)
  else if 0x50 ≤ n ∧ n < 0x58 then .ok (.hdr (BitVec.ofNat 3 n))
  else if n = 0x60 then (if wide then .ok .limm else .error (.illegalSource f))
  else match resOfIndex n with
    | some r => .ok (.res r)
    | none => .error (.illegalSource f)

/-- The source field of a source (R86). -/
def Source.field : Source → BitVec 11
  | .imm i => BitVec.ofNat 11 (0x400 + i.toNat)
  | .x r => BitVec.ofNat 11 r.toNat
  | .v r => BitVec.ofNat 11 (0x20 + r.toNat)
  | .c r => BitVec.ofNat 11 (0x40 + r.toNat)
  | .p i => BitVec.ofNat 11 (0x48 + i.val)
  | .hdr i => BitVec.ofNat 11 (0x50 + i.toNat)
  | .limm => 0x60
  | .res r => BitVec.ofNat 11 r.index

/-- A destination index with [14:13] = 00 (R87). -/
def decodeDest (n : Nat) : Option MoveDest :=
  if n < 0x20 then some (.x (BitVec.ofNat 5 n))
  else if n < 0x40 then some (.v (BitVec.ofNat 5 n))
  else if n < 0x48 then some (.c (BitVec.ofNat 3 n))
  else if h : 0x48 ≤ n ∧ n < 0x4E then some (.q ⟨n - 0x48, by omega⟩)
  else (opOfIndex n).map .port

/-- The destination field of a move (R87). -/
def MoveDest.field : MoveDest → BitVec 15
  | .x r => BitVec.ofNat 15 r.toNat
  | .v r => BitVec.ofNat 15 (0x20 + r.toNat)
  | .c r => BitVec.ofNat 15 (0x40 + r.toNat)
  | .q i => BitVec.ofNat 15 (0x48 + i.val)
  | .port o => BitVec.ofNat 15 o.index

/-- The fence scope of opcode bits [1:0] (R92). -/
def scopeOf (n : Nat) : Scope :=
  match n % 4 with | 0 => .pier | 1 => .span | 2 => .mod | _ => .sys

/-- The code of a scope (R165). -/
def Scope.code : Scope → Nat
  | .pier => 0 | .span => 1 | .mod => 2 | .sys => 3

/-- ct opcodes (R92). -/
def decodeCt (m : Mv) (op : Nat) : Option Instr :=
  match op with
  | 0 => some (.jmp m) | 1 => some (.jal m) | 2 => some (.done m) | 3 => some (.trap m) | 4 => some (.brk m)
  | _ =>
    if op < 0x10 ∨ 0x1F < op then none
    else match op / 4 % 4 with
      | 0 => some (.fenceFull m (scopeOf op))
      | 1 => some (.fenceAcq m (scopeOf op))
      | 2 => some (.fenceRel m (scopeOf op))
      | _ => some (.fenceEng m (scopeOf op))

/-- ia and ib opcodes (R93). -/
def decodeAlu (m : Mv) (u : Alu) (op : Nat) : Option Instr :=
  match op with
  | 0x00 => some (.add m u) | 0x01 => some (.sub m u) | 0x02 => some (.and m u) | 0x03 => some (.or m u)
  | 0x04 => some (.xor m u) | 0x05 => some (.andn m u) | 0x06 => some (.shl m u) | 0x07 => some (.shr m u)
  | 0x08 => some (.sra m u) | 0x09 => some (.rol m u) | 0x0A => some (.min m u) | 0x0B => some (.minU m u)
  | 0x0C => some (.max m u) | 0x0D => some (.maxU m u) | 0x10 => some (.eq m u) | 0x11 => some (.ne m u)
  | 0x12 => some (.lt m u) | 0x13 => some (.ltU m u) | 0x14 => some (.le m u) | 0x15 => some (.leU m u)
  | 0x18 => some (.clz m u) | 0x19 => some (.ctz m u) | 0x1A => some (.popc m u) | 0x1B => some (.brev m u)
  | 0x1C => some (.bdep m u) | 0x1D => some (.bext m u) | 0x1E => some (.sext m u) | 0x1F => some (.zext m u)
  | 0x20 => some (.sel m u) | _ => none

/-- im opcodes (R94). -/
def decodeIm (m : Mv) (op : Nat) : Option Instr :=
  match op with
  | 0 => some (.mul m) | 1 => some (.mulh m) | 2 => some (.mulhU m) | 3 => some (.div m) | 4 => some (.divU m)
  | 5 => some (.rem m) | 6 => some (.remU m) | 7 => some (.mad m) | _ => none

/-- The atomic operation of a code, 0 to 9 (R95, R281). -/
def atOpOf : Nat → Option AtOp
  | 0 => some .add | 1 => some .and | 2 => some .or | 3 => some .xor | 4 => some .min | 5 => some .max | 6 => some .minU
  | 7 => some .maxU | 8 => some .xchg | 9 => some .fadd | _ => none

/-- The code of an atomic operation (R281). -/
def AtOp.code : AtOp → Nat
  | .add => 0 | .and => 1 | .or => 2 | .xor => 3 | .min => 4 | .max => 5 | .minU => 6 | .maxU => 7 | .xchg => 8 | .fadd => 9

/-- The ordering of opcode bits [7:6] (R95). -/
def ordOf (n : Nat) : Ord4 :=
  match n % 4 with | 0 => .plain | 1 => .acq | 2 => .rel | _ => .ar

/-- The code of an ordering (R95). -/
def Ord4.code : Ord4 → Nat
  | .plain => 0 | .acq => 1 | .rel => 2 | .ar => 3

/-- ls opcodes (R95). -/
def decodeLs (m : Mv) (op : Nat) : Option Instr :=
  if op < 0x08 then some (.ldl m (BitVec.ofNat 3 op))
  else if op < 0x0C then some (.stl m (BitVec.ofNat 2 op))
  else if op = 0x10 then some (.vldl m)
  else if op = 0x11 then some (.vstl m)
  else if 0x20 ≤ op ∧ op < 0x40 then
    (if op % 16 = 10 then some (.casl m (op / 16 % 2 = 1))
     else match atOpOf (op % 16) with
       | some a => if a.wf (op / 16 % 2 = 1) then some (.atl m a (op / 16 % 2 = 1)) else none
       | none => none)
  else none

/-- gm opcodes (R95). -/
def decodeGm (m : Mv) (op : Nat) : Option Instr :=
  let lo := op % 64
  let o := ordOf (op / 64)
  if lo < 0x08 then
    (match o with
     | .plain => some (.ldg m (BitVec.ofNat 3 lo)) | .acq => some (.ldgAcq m (BitVec.ofNat 3 lo)) | .rel => none | .ar => none)
  else if lo < 0x0C then
    (match o with
     | .plain => some (.stg m (BitVec.ofNat 2 lo)) | .rel => some (.stgRel m (BitVec.ofNat 2 lo)) | .acq => none | .ar => none)
  else if lo = 0x10 then
    (match o with | .plain => some (.vldg m) | .acq => some (.vldgAcq m) | .rel => none | .ar => none)
  else if lo = 0x11 then
    (match o with | .plain => some (.vstg m) | .rel => some (.vstgRel m) | .acq => none | .ar => none)
  else if 0x20 ≤ lo then
    (if lo % 16 = 10 then some (.casg m (lo / 16 % 2 = 1) o)
     else match atOpOf (lo % 16) with
       | some a => if a.wf (lo / 16 % 2 = 1) then some (.atg m a (lo / 16 % 2 = 1) o) else none
       | none => none)
  else none

/-- The element type of opcode bits [2:0] (R96). -/
def vtOf : Nat → Option VT
  | 0 => some .i32 | 1 => some .f32 | 2 => some .bf16 | 3 => some .f16 | 4 => some .cf32 | _ => none

/-- The code of an element type (R96). -/
def VT.code : VT → Nat
  | .i32 => 0 | .f32 => 1 | .bf16 => 2 | .f16 => 3 | .cf32 => 4

/-- The rounding suffix of VCVT (R96). -/
def rmodeOf : Nat → Option RMode
  | 0 => some .rne | 1 => some .rz | 2 => some .sr | 3 => some .rd | 4 => some .ru | _ => none

/-- The code of a rounding mode (R96). -/
def RMode.code : RMode → Nat
  | .rne => 0 | .rz => 1 | .sr => 2 | .rd => 3 | .ru => 4

/-- vx opcodes: the operation in [7:3], the type in [2:0], with the types each entry lists (R96, R366 to R374). -/
def decodeVx (m : Mv) (op : Nat) : Option Instr :=
  match vtOf (op % 8) with
  | none => none
  | some t =>
    let real (i : Instr) : Option Instr := if t.noComplex then some i else none
    let int (i : Instr) : Option Instr := if t = .i32 then some i else none
    let cplx (i : Instr) : Option Instr := if t = .cf32 then some i else none
    match op / 8 with
    | 0 => some (.vadd m t) | 1 => some (.vsub m t) | 2 => real (.vmul m t) | 3 => real (.vfma m t)
    | 4 => real (.vmin m t) | 5 => real (.vmax m t) | 6 => real (.vabs m t) | 7 => some (.vneg m t)
    | 8 => some (.vceq m t) | 9 => real (.vclt m t) | 10 => real (.vcle m t) | 11 => some (.vsel m t)
    | 12 => int (.vand m) | 13 => int (.vor m) | 14 => int (.vxor m) | 15 => int (.vshl m) | 16 => int (.vshr m)
    | 17 => (rmodeOf (op % 8)).map (.vcvt m) | 18 => some (.vshuf m t) | 19 => some (.vrsum m t)
    | 20 => real (.vrmax m t) | 21 => real (.vrmaxMin m t) | 22 => some (.vbcast m t) | 23 => some (.vext m t)
    | 24 => int (.vmask m) | 25 => int (.viota m) | 26 => cplx (.vcmul m) | 27 => cplx (.vcmulConj m)
    | _ => none

/-- mx opcodes (R97). -/
def decodeMx (m : Mv) (op : Nat) : Option Instr :=
  match op with
  | 0x01 => some (.mcfg m) | 0x02 => some (.mld m) | 0x03 => some (.mldw m) | 0x04 => some (.mstRaw m)
  | 0x05 => some (.mstBf16 m) | 0x06 => some (.mstF32 m) | 0x08 => some (.mzero m) | 0x10 => some (.mma m)
  | 0x11 => some (.mmas m) | 0x12 => some (.mmaf m) | 0x13 => some (.cmma m) | _ => none

/-- kf opcodes; bit 7 selects BF16 pairs (R97, R307). -/
def decodeKf (m : Mv) (op : Nat) : Option Instr :=
  let bf : Bool := 128 ≤ op
  match op % 128 with
  | 0 => some (.kexp m bf) | 1 => some (.kexp2 m bf) | 2 => some (.klog m bf) | 3 => some (.klog2 m bf)
  | 4 => some (.krcp m bf) | 5 => some (.krsq m bf) | 6 => some (.ksqrt m bf) | 7 => some (.ksin m bf)
  | 8 => some (.kcos m bf) | 9 => some (.ktanh m bf) | 10 => some (.ksigm m bf) | 11 => some (.kerf m bf)
  | _ => none

/-- ms opcodes (R97). -/
def decodeMs (m : Mv) (op : Nat) : Option Instr :=
  match op with
  | 0 => some (.send m) | 1 => some (.sendRed m) | 2 => some (.reply m) | 3 => some (.fwd m) | 4 => some (.mcast m)
  | 5 => some (.mstat m) | _ => none

/-- sl opcodes (R97). -/
def decodeSl (m : Mv) (op : Nat) : Option Instr :=
  match op with
  | 0 => some (.sarm m) | 1 => some (.sset m) | 2 => some (.sadd m) | 3 => some (.sradd m) | 4 => some (.sarv m)
  | 5 => some (.swait m) | 6 => some (.swaitPh m) | 7 => some (.sget m) | _ => none

/-- sg opcodes (R97). -/
def decodeSg (m : Mv) (op : Nat) : Option Instr :=
  match op with
  | 0 => some (.sread m) | 1 => some (.swrite m) | 2 => some (.sgath m) | 3 => some (.sscat m) | 4 => some (.sseg m)
  | 5 => some (.sxch m) | 6 => some (.swld m) | 7 => some (.scanc m) | _ => none

/-- sy opcodes (R97). -/
def decodeSy (m : Mv) (op : Nat) : Option Instr :=
  match op with
  | 0 => some (.crd m) | 1 => some (.cwr m) | 2 => some (.acrt m) | 3 => some (.aret m) | 4 => some (.gdone m)
  | 5 => some (.gcncl m) | 6 => some (.tlbi m) | _ => none

/-- A trigger: the unit and the opcode (R87, R91). -/
def decodeTrigger (m : Mv) (unit op : Nat) : Option Instr :=
  match unit with
  | 0 => decodeCt m op | 1 => decodeAlu m .ia op | 2 => decodeAlu m .ib op | 3 => decodeIm m op | 4 => decodeLs m op
  | 5 => decodeGm m op | 6 => decodeVx m op | 7 => decodeMx m op | 8 => decodeKf m op | 9 => decodeMs m op
  | 10 => decodeSl m op | 11 => decodeSg m op | 12 => decodeSy m op | _ => none

/-- One slot (R85 to R87), by steps 1 and 2 of R89. -/
def decodeSlot (wide : Bool) (s : BitVec 30) : Except DecodeError Instr :=
  if s = 0 then .ok .nop
  else
    match decodeSource wide (BitVec.ofNat 11 (bitsOf s 15 11)) with
    | .error e => .error e
    | .ok src =>
      let m : Mv := ⟨bitsOf s 29 1 = 1, BitVec.ofNat 3 (bitsOf s 26 3), src⟩
      match bitsOf s 13 2 with
      | 0 => match decodeDest (bitsOf s 0 13) with
        | some d => .ok (.move m d)
        | none => .error (.illegalDest (BitVec.ofNat 15 (bitsOf s 0 15)))
      | 1 => match decodeTrigger m (bitsOf s 8 5) (bitsOf s 0 8) with
        | some i => .ok i
        | none => .error (.illegalOp (BitVec.ofNat 8 (bitsOf s 0 8)))
      | _ => .error (.illegalDest (BitVec.ofNat 15 (bitsOf s 0 15)))

/-- The slots of a bundle and its long immediate (R84, R314); none for kind 11 or a reserved bit that is set. -/
def splitBundle (b : BitVec 128) : Option (List (BitVec 30) × Option Word) :=
  let s (lo : Nat) : BitVec 30 := BitVec.ofNat 30 (bitsOf b lo 30)
  match bitsOf b 126 2 with
  | 0 => if bitsOf b 120 6 = 0 then some ([s 90, s 60, s 30, s 0], none) else none
  | 1 => if bitsOf b 122 4 = 0 then some ([s 92, s 62, s 32], some ((BitVec.ofNat 32 (bitsOf b 0 32)).signExtend 64)) else none
  | 2 => if bitsOf b 124 2 = 0 then some ([s 94, s 64], some (BitVec.ofNat 64 (bitsOf b 0 64))) else none
  | _ => none

/-- The destinations that two slots of a bundle may not share, as keys: an index other than x0 and c0, or a unit
(R88). -/
def slotClaim (s : BitVec 30) : Option Nat :=
  match bitsOf s 13 2 with
  | 0 => if bitsOf s 0 13 = 0 ∨ bitsOf s 0 13 = 0x40 then none else some (bitsOf s 0 13)
  | 1 => some (0x2000 + bitsOf s 8 5)
  | _ => none

/-- No key stands twice in a list. -/
def noRepeat : List Nat → Bool
  | [] => true
  | a :: l => !l.contains a && noRepeat l

/-- The checks of R88 on the slots: no guard field 0b1000, no destination and no unit named twice. -/
def slotsLegal (l : List (BitVec 30)) : Bool :=
  l.all (fun s => !(bitsOf s 26 4 = 8)) && noRepeat (l.filterMap slotClaim)

/-- A bundle that passes R88: its slots and its long immediate. -/
def decodeBundle (b : BitVec 128) : Except DecodeError (List (BitVec 30) × Option Word) :=
  match splitBundle b with
  | none => .error .illegalBundle
  | some p => if slotsLegal p.1 then .ok p else .error .illegalBundle

/-- The 128-bit bundle in sixteen bytes, lowest address first (R1, R84). -/
def bundleOfBytes : List Byte → Nat
  | [] => 0
  | b :: l => b.toNat + 256 * bundleOfBytes l

/-- The instructions of the bundle in the first sixteen bytes, in slot order. -/
def decodeBytes (bs : List Byte) : Except DecodeError (List Instr) :=
  if bs.length < 16 then .error .truncated
  else match decodeBundle (BitVec.ofNat 128 (bundleOfBytes (bs.take 16))) with
    | .error e => .error e
    | .ok p => p.1.mapM (decodeSlot p.2.isSome)

/-- The bytes of a number, lowest first. -/
def bytesOfNat : (n : Nat) → Nat → List Byte
  | 0, _ => []
  | n + 1, w => BitVec.ofNat 8 w :: bytesOfNat n (w / 256)

/-- The instruction read from the bundle whose bits are `w`: the first of its slots that is not a NOP, or NOP. The table
gives the rows no bits, so a row's word is a bundle (R84) with every bit above `nbits` zero. -/
def decodeTableWord (nbits w : Nat) : Option Instr :=
  if nbits > 128 then none
  else match decodeBytes (bytesOfNat 16 (w % 2 ^ nbits)) with
    | .error _ => none
    | .ok l => some ((l.find? (fun i => i != .nop)).getD .nop)

/-! The encoder (R85 to R97). -/

/-- The destination field of a trigger: 0x2000 + unit × 0x100 + opcode (R87, R273). -/
def trigField (unit op : Nat) : BitVec 15 := BitVec.ofNat 15 (0x2000 + unit * 0x100 + op)

/-- The unit number of ia and ib (R74). -/
def Alu.unit : Alu → Nat
  | .ia => 1 | .ib => 2

/-- The move and the destination field of a slot form. -/
def Instr.fields : Instr → Option (Mv × BitVec 15)
  | .jmp m => some (m, trigField 0 0) | .jal m => some (m, trigField 0 1) | .done m => some (m, trigField 0 2)
  | .trap m => some (m, trigField 0 3) | .brk m => some (m, trigField 0 4)
  | .fenceFull m sc => some (m, trigField 0 (0x10 + sc.code)) | .fenceAcq m sc => some (m, trigField 0 (0x14 + sc.code))
  | .fenceRel m sc => some (m, trigField 0 (0x18 + sc.code)) | .fenceEng m sc => some (m, trigField 0 (0x1C + sc.code))
  | .add m u => some (m, trigField u.unit 0x00) | .sub m u => some (m, trigField u.unit 0x01)
  | .and m u => some (m, trigField u.unit 0x02) | .or m u => some (m, trigField u.unit 0x03)
  | .xor m u => some (m, trigField u.unit 0x04) | .andn m u => some (m, trigField u.unit 0x05)
  | .shl m u => some (m, trigField u.unit 0x06) | .shr m u => some (m, trigField u.unit 0x07)
  | .sra m u => some (m, trigField u.unit 0x08) | .rol m u => some (m, trigField u.unit 0x09)
  | .min m u => some (m, trigField u.unit 0x0A) | .minU m u => some (m, trigField u.unit 0x0B)
  | .max m u => some (m, trigField u.unit 0x0C) | .maxU m u => some (m, trigField u.unit 0x0D)
  | .eq m u => some (m, trigField u.unit 0x10) | .ne m u => some (m, trigField u.unit 0x11)
  | .lt m u => some (m, trigField u.unit 0x12) | .ltU m u => some (m, trigField u.unit 0x13)
  | .le m u => some (m, trigField u.unit 0x14) | .leU m u => some (m, trigField u.unit 0x15)
  | .clz m u => some (m, trigField u.unit 0x18) | .ctz m u => some (m, trigField u.unit 0x19)
  | .popc m u => some (m, trigField u.unit 0x1A) | .brev m u => some (m, trigField u.unit 0x1B)
  | .bdep m u => some (m, trigField u.unit 0x1C) | .bext m u => some (m, trigField u.unit 0x1D)
  | .sext m u => some (m, trigField u.unit 0x1E) | .zext m u => some (m, trigField u.unit 0x1F)
  | .sel m u => some (m, trigField u.unit 0x20)
  | .mul m => some (m, trigField 3 0) | .mulh m => some (m, trigField 3 1) | .mulhU m => some (m, trigField 3 2)
  | .div m => some (m, trigField 3 3) | .divU m => some (m, trigField 3 4) | .rem m => some (m, trigField 3 5)
  | .remU m => some (m, trigField 3 6) | .mad m => some (m, trigField 3 7)
  | .ldl m f => some (m, trigField 4 f.toNat) | .stl m z => some (m, trigField 4 (8 + z.toNat))
  | .vldl m => some (m, trigField 4 0x10) | .vstl m => some (m, trigField 4 0x11)
  | .atl m op w => some (m, trigField 4 (0x20 + (if w then 0x10 else 0) + op.code))
  | .casl m w => some (m, trigField 4 (0x2A + (if w then 0x10 else 0)))
  | .ldg m f => some (m, trigField 5 f.toNat) | .ldgAcq m f => some (m, trigField 5 (0x40 + f.toNat))
  | .stg m z => some (m, trigField 5 (8 + z.toNat)) | .stgRel m z => some (m, trigField 5 (0x88 + z.toNat))
  | .vldg m => some (m, trigField 5 0x10) | .vldgAcq m => some (m, trigField 5 0x50)
  | .vstg m => some (m, trigField 5 0x11) | .vstgRel m => some (m, trigField 5 0x91)
  | .atg m op w o => some (m, trigField 5 (0x40 * o.code + 0x20 + (if w then 0x10 else 0) + op.code))
  | .casg m w o => some (m, trigField 5 (0x40 * o.code + 0x2A + (if w then 0x10 else 0)))
  | .vadd m t => some (m, trigField 6 (8 * 0 + t.code)) | .vsub m t => some (m, trigField 6 (8 * 1 + t.code))
  | .vmul m t => some (m, trigField 6 (8 * 2 + t.code)) | .vfma m t => some (m, trigField 6 (8 * 3 + t.code))
  | .vmin m t => some (m, trigField 6 (8 * 4 + t.code)) | .vmax m t => some (m, trigField 6 (8 * 5 + t.code))
  | .vabs m t => some (m, trigField 6 (8 * 6 + t.code)) | .vneg m t => some (m, trigField 6 (8 * 7 + t.code))
  | .vceq m t => some (m, trigField 6 (8 * 8 + t.code)) | .vclt m t => some (m, trigField 6 (8 * 9 + t.code))
  | .vcle m t => some (m, trigField 6 (8 * 10 + t.code)) | .vsel m t => some (m, trigField 6 (8 * 11 + t.code))
  | .vand m => some (m, trigField 6 0x60) | .vor m => some (m, trigField 6 0x68) | .vxor m => some (m, trigField 6 0x70)
  | .vshl m => some (m, trigField 6 0x78) | .vshr m => some (m, trigField 6 0x80)
  | .vcvt m r => some (m, trigField 6 (8 * 17 + r.code)) | .vshuf m t => some (m, trigField 6 (8 * 18 + t.code))
  | .vrsum m t => some (m, trigField 6 (8 * 19 + t.code)) | .vrmax m t => some (m, trigField 6 (8 * 20 + t.code))
  | .vrmaxMin m t => some (m, trigField 6 (8 * 21 + t.code)) | .vbcast m t => some (m, trigField 6 (8 * 22 + t.code))
  | .vext m t => some (m, trigField 6 (8 * 23 + t.code)) | .vmask m => some (m, trigField 6 0xC0)
  | .viota m => some (m, trigField 6 0xC8) | .vcmul m => some (m, trigField 6 0xD4) | .vcmulConj m => some (m, trigField 6 0xDC)
  | .mcfg m => some (m, trigField 7 0x01) | .mld m => some (m, trigField 7 0x02) | .mldw m => some (m, trigField 7 0x03)
  | .mstRaw m => some (m, trigField 7 0x04) | .mstBf16 m => some (m, trigField 7 0x05) | .mstF32 m => some (m, trigField 7 0x06)
  | .mzero m => some (m, trigField 7 0x08) | .mma m => some (m, trigField 7 0x10) | .mmas m => some (m, trigField 7 0x11)
  | .mmaf m => some (m, trigField 7 0x12) | .cmma m => some (m, trigField 7 0x13)
  | .kexp m b => some (m, trigField 8 (0 + (if b then 128 else 0))) | .kexp2 m b => some (m, trigField 8 (1 + (if b then 128 else 0)))
  | .klog m b => some (m, trigField 8 (2 + (if b then 128 else 0))) | .klog2 m b => some (m, trigField 8 (3 + (if b then 128 else 0)))
  | .krcp m b => some (m, trigField 8 (4 + (if b then 128 else 0))) | .krsq m b => some (m, trigField 8 (5 + (if b then 128 else 0)))
  | .ksqrt m b => some (m, trigField 8 (6 + (if b then 128 else 0))) | .ksin m b => some (m, trigField 8 (7 + (if b then 128 else 0)))
  | .kcos m b => some (m, trigField 8 (8 + (if b then 128 else 0))) | .ktanh m b => some (m, trigField 8 (9 + (if b then 128 else 0)))
  | .ksigm m b => some (m, trigField 8 (10 + (if b then 128 else 0))) | .kerf m b => some (m, trigField 8 (11 + (if b then 128 else 0)))
  | .send m => some (m, trigField 9 0) | .sendRed m => some (m, trigField 9 1) | .reply m => some (m, trigField 9 2)
  | .fwd m => some (m, trigField 9 3) | .mcast m => some (m, trigField 9 4) | .mstat m => some (m, trigField 9 5)
  | .sarm m => some (m, trigField 10 0) | .sset m => some (m, trigField 10 1) | .sadd m => some (m, trigField 10 2)
  | .sradd m => some (m, trigField 10 3) | .sarv m => some (m, trigField 10 4) | .swait m => some (m, trigField 10 5)
  | .swaitPh m => some (m, trigField 10 6) | .sget m => some (m, trigField 10 7)
  | .sread m => some (m, trigField 11 0) | .swrite m => some (m, trigField 11 1) | .sgath m => some (m, trigField 11 2)
  | .sscat m => some (m, trigField 11 3) | .sseg m => some (m, trigField 11 4) | .sxch m => some (m, trigField 11 5)
  | .swld m => some (m, trigField 11 6) | .scanc m => some (m, trigField 11 7)
  | .crd m => some (m, trigField 12 0) | .cwr m => some (m, trigField 12 1) | .acrt m => some (m, trigField 12 2)
  | .aret m => some (m, trigField 12 3) | .gdone m => some (m, trigField 12 4) | .gcncl m => some (m, trigField 12 5)
  | .tlbi m => some (m, trigField 12 6)
  | .writeWindow m | .writeWeir m | .writeSeed m | .writeSched m | .writeXlroot m => some (m, trigField 12 1)
  | .move m d => some (m, d.field)
  | _ => none

/-- A slot from its fields (R85). -/
def packSlot (m : Mv) (dest : BitVec 15) : BitVec 30 :=
  BitVec.ofNat 30 ((if m.inv then 2 ^ 29 else 0) + m.g.toNat * 2 ^ 26 + m.src.field.toNat * 2 ^ 15 + dest.toNat)

/-- The slot of an instruction (R85); none for an event. -/
def encode (i : Instr) : Option (BitVec 30) :=
  match i with
  | .nop => some 0
  | i => i.fields.map fun p => packSlot p.1 p.2

/-- A bundle of kind 00 with one slot in slot 3 and NOPs elsewhere (R84). -/
def oneSlotBundle (s : BitVec 30) : BitVec 128 := BitVec.ofNat 128 s.toNat

end Sys2Proof
end

