-- ==== Sys2Proof/Machine/Ops.lean ====
section
/-!
DEFINITION. The named operations over the state: accessors, placement, the calendar, the outbox, taking a fault and
returning from one, sluices and the release of matrix entries.
-/

namespace Sys2Proof.Machine

/-! Accessors. A pier context is named by module, partition and the logical pier of its carrier (R195, R198). -/

/-- The key of a pier context. -/
def pkOf (mod part lp : Nat) : Nat := (mod * 8 + part) * 1024 + lp
/-- The module of a pier context. -/
def pkMod (pk : Nat) : Nat := pk / 8192
/-- The partition of a pier context. -/
def pkPart (pk : Nat) : Nat := pk / 1024 % 8
/-- The carrier's logical pier of a pier context. -/
def pkLp (pk : Nat) : Nat := pk % 1024

/-- A module. -/
def getMod (s : State) (m : Nat) : Module := fget s.mods m {}
/-- A module written. -/
def setMod (s : State) (m : Nat) (x : Module) : State := { s with mods := fset s.mods m x }
/-- A module changed. -/
def adjMod (s : State) (m : Nat) (f : Module → Module) : State := setMod s m (f (getMod s m))
/-- A pier context. -/
def getPier (s : State) (pk : Nat) : Pier := fget s.piers pk {}
/-- A pier context written. -/
def setPier (s : State) (pk : Nat) (p : Pier) : State := { s with piers := fset s.piers pk p }
/-- A pier context changed. -/
def adjPier (s : State) (pk : Nat) (f : Pier → Pier) : State := setPier s pk (f (getPier s pk))
/-- A physical site. -/
def getSite (s : State) (k : Nat) : Site := fget s.sites k {}
/-- A physical site changed. -/
def adjSite (s : State) (k : Nat) (f : Site → Site) : State := { s with sites := fset s.sites k (f (getSite s k)) }
/-- A strand of a pier. -/
def pierStrand (p : Pier) (st : Nat) : Strand := fget p.strands st {}
/-- A strand. -/
def getStrand (s : State) (pk st : Nat) : Strand := pierStrand (getPier s pk) st
/-- A strand written. -/
def setStrand (s : State) (pk st : Nat) (x : Strand) : State :=
  adjPier s pk fun p => { p with strands := fset p.strands st x }
/-- A strand changed. -/
def adjStrand (s : State) (pk st : Nat) (f : Strand → Strand) : State := setStrand s pk st (f (getStrand s pk st))
/-- An actor of a pier. -/
def pierActor (p : Pier) (a : Nat) : Actor := fget p.actors a {}
/-- An actor. -/
def getActor (s : State) (pk a : Nat) : Actor := pierActor (getPier s pk) a
/-- An actor changed. -/
def adjActor (s : State) (pk a : Nat) (f : Actor → Actor) : State :=
  adjPier s pk fun p => { p with actors := fset p.actors a (f (pierActor p a)) }
/-- A sluice of a pier. -/
def pierSluice (p : Pier) (n : Nat) : Sluice := fget p.sluices n {}
/-- A sluice. -/
def getSluice (s : State) (pk n : Nat) : Sluice := pierSluice (getPier s pk) n
/-- A sluice written. -/
def setSluice (s : State) (pk n : Nat) (x : Sluice) : State := adjPier s pk fun p => { p with sluices := fset p.sluices n x }
/-- A partition of a module. -/
def getPart (s : State) (m p : Nat) : Part := fget (getMod s m).parts p {}
/-- A partition changed. -/
def adjPart (s : State) (m p : Nat) (f : Part → Part) : State :=
  adjMod s m fun x => { x with parts := fset x.parts p (f (fget x.parts p {})) }
/-- An abutment. -/
def getAbut (s : State) (m a : Nat) : Abut := fget (getMod s m).abuts a {}
/-- An abutment changed. -/
def adjAbut (s : State) (m a : Nat) (f : Abut → Abut) : State :=
  adjMod s m fun x => { x with abuts := fset x.abuts a (f (fget x.abuts a {})) }
/-- A span agent. -/
def getAgent (s : State) (m sp : Nat) : Agent := fget (getMod s m).agents sp {}
/-- A span agent changed. -/
def adjAgent (s : State) (m sp : Nat) (f : Agent → Agent) : State :=
  adjMod s m fun x => { x with agents := fset x.agents sp (f (fget x.agents sp {})) }
/-- A job. -/
def getJob (s : State) (j : Nat) : Job := fget s.jobs j {}
/-- A job changed. -/
def adjJob (s : State) (j : Nat) (f : Job → Job) : State := { s with jobs := fset s.jobs j (f (getJob s j)) }
/-- Veiviush changed. -/
def adjVeiv (s : State) (m : Nat) (f : Veiv → Veiv) : State := adjMod s m fun x => { x with veiv := f x.veiv }
/-- A host port changed. -/
def adjHost (s : State) (m : Nat) (f : HostPort → HostPort) : State := adjMod s m fun x => { x with host := f x.host }

/-! Placement (R194 to R199). -/

/-- An entry nothing has written: not valid, carrier and site its own index (R195). -/
def blankEntry (lp : Nat) : BitVec 32 := BitVec.ofNat 32 (lp % 1024 * 2 ^ 10 + lp % 1024)
/-- The placement entry of a logical pier in a partition (R195). -/
def entryOf (s : State) (m p lp : Nat) : BitVec 32 := fget (getPart s m p).table lp (blankEntry lp)
/-- Entry bit [31]. -/
def teValid (e : BitVec 32) : Bool := e.toNat / 2 ^ 31 == 1
/-- The fold factor of an entry. -/
def teFold (e : BitVec 32) : Nat := 2 ^ (e.toNat / 2 ^ 29 % 4)
/-- The slot of an entry. -/
def teSlot (e : BitVec 32) : Nat := e.toNat / 2 ^ 27 % 4
/-- The carrier of an entry. -/
def teCarrier (e : BitVec 32) : Nat := e.toNat / 2 ^ 10 % 1024
/-- The site of an entry. -/
def teSite (e : BitVec 32) : Nat := e.toNat % 1024
/-- The pier context that carries a logical pier, where the partition's table holds it. -/
def carrierPk (s : State) (m p lp : Nat) : Option Nat :=
  let e := entryOf s m p lp
  if teValid e then some (pkOf m p (teCarrier e)) else none
/-- The site of a pier context. -/
def siteOf (s : State) (pk : Nat) : Nat := teSite (entryOf s (pkMod pk) (pkPart pk) (pkLp pk))
/-- The key of a physical site. -/
def siteKey (s : State) (pk : Nat) : Nat := pkMod pk * 1024 + siteOf s pk
/-- The half-span of a site (R197). -/
def siteHs (site : Nat) : Nat := site / 256 * 2 + site % 256 / 128
/-- Where the contexts of a pier are. -/
def pierLoc (s : State) (pk : Nat) : Loc := fget (getPart s (pkMod pk) (pkPart pk)).loc (siteHs (siteOf s pk)) .none
/-- Whether a pier's partition is resident on its site and not halting there (R222). -/
def residentOpen (s : State) (pk : Nat) : Bool :=
  pierLoc s pk == .piers && !(getPier s pk).halting
/-- The partition of a module that holds a job. -/
def partOfJob (s : State) (m : Nat) (j : BitVec 12) : Option Nat :=
  (List.range 8).find? fun p => (getPart s m p).inUse && (getPart s m p).job == j
/-- The pier context that an address of a job reaches (R196). -/
def pkOfAddr (s : State) (m lp : Nat) (j : BitVec 12) : Option Nat :=
  match partOfJob s m j with
  | none => none
  | some p => carrierPk s m p lp
/-- The job of a pier context. -/
def jobOf (s : State) (pk : Nat) : BitVec 12 := (getPart s (pkMod pk) (pkPart pk)).job
/-- The logical piers that a carrier carries. -/
def lpsOf (s : State) (pk : Nat) : List Nat :=
  (List.range 1024).filter fun l => carrierPk s (pkMod pk) (pkPart pk) l == some pk
/-- The carrier piers of a partition on a set of half-spans. -/
def piersOf (s : State) (m p : Nat) (hs : Nat → Bool) : List Nat :=
  ((getPart s m p).table.filter fun e => teValid e.2 && teCarrier e.2 == e.1 && hs (siteHs (teSite e.2))).map
    fun e => pkOf m p e.1
/-- The physical pier of a site: span × 272 + physical row × 16 + column (R72, R194). -/
def physicalOf (s : State) (pk : Nat) : Nat :=
  let site := siteOf s pk
  let row := (fget (getMod s (pkMod pk)).siteMap (site / 16) none).getD (site / 16 % 16)
  site / 256 * 272 + row * 16 + site % 16

/-! The calendar and the fabric (R241 to R249). -/

/-- A step put in the calendar. -/
def schedule (s : State) (due : Nat) (i : Instr) : State := { s with cal := s.cal ++ [(due, i)] }
/-- A step of the present cycle, after what is already in it. -/
def nowDo (s : State) (i : Instr) : State := { s with agenda := s.agenda ++ [.ev i] }
/-- A fresh name for an operation. -/
def newTok (s : State) : Nat × State := (s.tok, { s with tok := s.tok + 1 })
/-- The counter of free values moved on. -/
def tick1 (s : State) : State := { s with fresh := s.fresh + 1 }

/-- A place where a flit starts or ends (R241): a site, an abutment, the approach die. -/
inductive Place where
  | site (n : Nat)
  | abut (a : Nat)
  | die
  deriving DecidableEq, Repr

/-- The router of a place in the 32 by 32 mesh (R11, R248); none for the approach die. -/
def routerOf : Place → Option (Nat × Nat)
  | .site n => some (n / 256 % 2 * 16 + n % 16, n / 512 * 16 + n / 16 % 16)
  | .abut a => some (a / 32 % 2 * 16 + a % 16, a / 64 * 16 + (if a / 16 % 2 = 0 then 0 else 15))
  | .die => none

/-- The distance of two numbers. -/
def dist (a b : Nat) : Nat := (a - b) + (b - a)

/-- Cycles from a router to the approach die on its own row, the crossing of the die not counted (R246, R248). -/
def toDie (r : Option (Nat × Nat)) : Nat :=
  match r with
  | none => 0
  | some (x, _) => 2 * (31 - x) + (if x < 16 then 6 else 0)

/-- Cycles between two places of one module in an empty fabric (R248). -/
def meshLatency (a b : Place) : Nat :=
  match routerOf a, routerOf b with
  | some (x, y), some (x', y') =>
    if x = x' ∧ y = y' then 1
    else 2 * (dist x x' + dist y y') + (if x / 16 = x' / 16 then 0 else 6) + (if y / 16 = y' / 16 then 0 else 6)
  | none, none => 1
  | r, none => toDie r + 24
  | none, r => toDie r + 24

/-- The coordinates of a module (R24). -/
def modXyz (m : Nat) : Nat × Nat × Nat := (m % 16, m / 16 % 16, m / 256)

/-- One ring of the torus: the hops to travel, and whether in the + direction (R249). -/
def ringRoute (size a b : Nat) : Nat × Bool :=
  let d := (b + size - a) % size
  if d ≤ size - d then (d, true) else (size - d, false)

/-- The torus hops between two modules (R249). -/
def torusHops (t : Nat × Nat × Nat) (a b : Nat) : Nat :=
  let (ax, ay, az) := modXyz a
  let (bx, by_, bz) := modXyz b
  (ringRoute t.1 ax bx).1 + (ringRoute t.2.1 ay by_).1 + (ringRoute t.2.2 az bz).1

/-- Whether a port of a module is down: ports 0 to 5 are +X, −X, +Y, −Y, +Z, −Z (R249). -/
def portShut (s : State) (m port : Nat) : Bool := (fget (getMod s m).ports port {}).down

/-- A module moved along one dimension. -/
def moveX (t : Nat × Nat × Nat) (up : Bool) (m : Nat) : Nat :=
  m / 16 * 16 + (if up then (m % 16 + 1) % t.1 else (m % 16 + t.1 - 1) % t.1)
/-- A module moved along Y. -/
def moveY (t : Nat × Nat × Nat) (up : Bool) (m : Nat) : Nat :=
  m / 256 * 256 + (if up then (m / 16 % 16 + 1) % t.2.1 else (m / 16 % 16 + t.2.1 - 1) % t.2.1) * 16 + m % 16
/-- A module moved along Z. -/
def moveZ (t : Nat × Nat × Nat) (up : Bool) (m : Nat) : Nat :=
  (if up then (m / 256 + 1) % t.2.2 else (m / 256 + t.2.2 - 1) % t.2.2) * 256 + m % 256

/-- The ports that `n` hops along a dimension cross, on both sides of each hop, as module and port. -/
def ringPorts (port : Nat) (step : Nat → Nat) : Nat → Nat → List (Nat × Nat)
  | 0, _ => []
  | n + 1, m => (m, port) :: (step m, port / 2 * 2 + (1 - port % 2)) :: ringPorts port step n (step m)

/-- The ports that the route from a module to another crosses: X, then Y, then Z (R192, R249). -/
def routePorts (s : State) (a b : Nat) : List (Nat × Nat) :=
  let t := s.torus
  let (ax, ay, az) := modXyz a
  let (bx, by_, bz) := modXyz b
  let rx := ringRoute t.1 ax bx
  let ry := ringRoute t.2.1 ay by_
  let rz := ringRoute t.2.2 az bz
  ringPorts (if rx.2 then 0 else 1) (moveX t rx.2) rx.1 a ++
    ringPorts (if ry.2 then 2 else 3) (moveY t ry.2) ry.1 (a / 16 * 16 + bx) ++
    ringPorts (if rz.2 then 4 else 5) (moveZ t rz.2) rz.1 (a / 256 * 256 + by_ * 16 + bx)

/-- Whether the coordinates of a module lie in the torus (R249). -/
def inTorus (s : State) (m : Nat) : Bool :=
  let (x, y, z) := modXyz m
  decide (x < s.torus.1) && decide (y < s.torus.2.1) && decide (z < s.torus.2.2)

/-- Whether a module can be reached: it and every module on the way are present, and the route crosses no port that is down (R192,
R249). -/
def reachable (s : State) (a b : Nat) : Bool :=
  (getMod s b).present && (a == b || (inTorus s b && (routePorts s a b).all fun p => (getMod s p.1).present && !portShut s p.1 p.2))

/-- Whether a module's clocks run (R270). -/
def clocked (s : State) (m : Nat) : Bool := !(getMod s m).veiv.frozen

/-- The modules whose routers a flit between two modules passes without ending there. -/
def modsBetween (s : State) (a b : Nat) : List Nat :=
  if a = b then [] else ((routePorts s a b).map (·.1)).eraseDups.filter fun m => m != a && m != b

/-- Whether a port has a link: a dimension of size 1 leaves its two ports untrained (R249). -/
def portLinked (s : State) (port : Nat) : Bool :=
  (match port / 2 with | 0 => s.torus.1 | 1 => s.torus.2.1 | _ => s.torus.2.2) != 1

/-- The cycles that a flit waits in the sending buffers for ports of its route that retrain (R266). -/
def retrainWait (s : State) (a b : Nat) : Nat :=
  if a = b then 0
  else
    maxList ((routePorts s a b).map fun p =>
      let x : Port := fget (getMod s p.1).ports p.2 {}
      if x.retraining then x.retrainEnd - s.cycle else 0)

/-- Cycles between two places of the torus (R248): each approach die passed costs its crossing (log entry 6), and a port that
retrains holds the flit until it has (R266). -/
def latency (s : State) (m : Nat) (a : Place) (m' : Nat) (b : Place) : Nat :=
  if m = m' then meshLatency a b
  else
    let h := torusHops s.torus m m'
    toDie (routerOf a) + toDie (routerOf b) + 24 * (h + 1) + 150 * h + retrainWait s m m'

/-- A flit under way: it arrives after the empty-fabric latency and a wait that the manual leaves to the load; inside
one router it arrives 1 cycle later (R248, log entry 6). -/
def launch (s : State) (lat : Nat) (i : Instr) : State :=
  if lat = 1 then schedule s (s.cycle + 1) i
  else tick1 (schedule s (s.cycle + lat + Config.fabricWait s.fresh) i)

/-- A flit of a pier that stays behind the pier's earlier flits to the same end of the path. -/
def launchOn (s : State) (pk key lat : Nat) (i : Instr) : State :=
  let w := if lat = 1 then 0 else Config.fabricWait s.fresh
  let due := max (s.cycle + lat + w) (fget (getPier s pk).pathLast key 0)
  schedule (adjPier (tick1 s) pk fun p => { p with pathLast := fset p.pathLast key due }) due i

/-- The place of a pier. -/
def placeOf (s : State) (pk : Nat) : Place := .site (siteOf s pk)

/-- Where an answer goes back to. -/
def ackPlace (s : State) : AckTo → Option (Nat × Place)
  | .outbox pk _ => some (pkMod pk, placeOf s pk)
  | .inject m _ => some (m, .die)
  | .copy m _ _ => some (m, .die)
  | .flit m a _ _ => some (m, .abut a)
  | .nobody => none

/-- An answer on the reply network (R245). -/
def answer (s : State) (m : Nat) (pl : Place) (e : AckTo) (status : BitVec 3) : State :=
  match ackPlace s e with
  | none => s
  | some (m', pl') => launch s (latency s m pl m' pl') (.acknowledgement e status)

/-! The outbox (R45). -/

/-- Whether an actor address is a member of a group of a module. -/
def groupHas (s : State) (m g : Nat) (a : BitVec 28) : Bool := (fget (getMod s m).groups g {}).members.contains a

/-- Whether two groups share a member. -/
def groupsMeet (s : State) (m g m' g' : Nat) : Bool := (fget (getMod s m).groups g {}).members.any (groupHas s m' g')

/-- Whether two order streams are one, an MCAST belonging to the stream of each member (R45). -/
def sameStream (s : State) : StreamKey → StreamKey → Bool
  | .toActor a d, .toActor b e => a == b && d == e
  | .toActor a d, .toGroup b m g => a == b && groupHas s m g d
  | .toGroup b m g, .toActor a d => a == b && groupHas s m g d
  | .toGroup a m g, .toGroup b m' g' => a == b && ((m == m' && g == g') || groupsMeet s m g m' g')
  | .toPier a m p, .toPier b m' p' => a == b && m == m' && p == p'
  | .toController a, .toController b => a == b
  | _, _ => false

/-- The outbox holds 64 entries; device entries beyond them wait their turn behind (R45, log entry 14). -/
def outFull (p : Pier) : Bool := 64 ≤ p.outbox.length

/-- Where a message to an address of a job goes. -/
def destPlace (s : State) (m lp : Nat) (j : BitVec 12) : Place :=
  match pkOfAddr s m lp j with
  | some pk => placeOf s pk
  | none => .die

/-- The flits in the window of a branch of a group's tree: the copies sent to a member and not yet accepted (R251). -/
def branchLoad (s : State) (m g i : Nat) : Nat :=
  (getMod s m).copies.countP fun c => c.group == g && c.left.contains i && !c.waiting.contains i

/-- A copy leaves for member `i` of its group (R251). A branch that is detached sends its copies in their order (R237). -/
def launchCopy (s : State) (c : MCopy) (i : Nat) : State :=
  let m := pkMod c.pk
  let a := lgetD (fget (getMod s m).groups c.group {}).members i 0
  let m' := awMod a
  let lat := latency s m (placeOf s c.pk) m' (destPlace s m' (awPier a) c.msg.job)
  if c.unicast.contains i then launchOn s c.pk (2 ^ 27 + c.group * 2 ^ 16 + i) lat (.multicastCopy m c.tok i)
  else launch s lat (.multicastCopy m c.tok i)

/-- The copies of a multicast message leave (R237, R251, R318): one for a detached member holds no entry, one whose branch has 64
flits unaccepted waits at the branch point. -/
def startCopies (s : State) (pk gr : Nat) (e : Nat) (g : Msg) (x : Group) : State :=
  let m := pkMod pk
  let all := List.range x.members.length
  let on := all.filter fun i => !x.detached.contains i
  let c : MCopy :=
    { tok := s.tok, pk, entry := e, group := gr, msg := g, left := on, waiting := on.filter fun i => 64 ≤ branchLoad s m gr i,
      unicast := all.filter fun i => x.detached.contains i, src := (getPier s pk).outbox.find? fun f => f.tok == e }
  let s1 := adjMod { s with tok := s.tok + 1 } m fun y => { y with copies := y.copies ++ [c] }
  let s2 := (all.filter fun i => !c.waiting.contains i).foldl (fun s i => launchCopy s c i) s1
  if on = [] then launch s2 1 (.acknowledgement (.outbox pk e) 0) else s2

/-- The step that an outbox entry sends on its way, and its module and place of arrival. -/
def sendEntry (s : State) (pk : Nat) (e : OutEntry) : State :=
  let m := pkMod pk
  let here := placeOf s pk
  let back := AckTo.outbox pk e.tok
  match e.body with
  | .msg g =>
    let m' := g.dmod.toNat
    if reachable s m m' then launchOn s pk (m' * 1024 + g.dpier.toNat) (latency s m here m' (destPlace s m' g.dpier.toNat g.job))
      (.messageAdmission g back)
    else answer s m .die back 7
  | .add a =>
    if reachable s m a.mod then
      let b := { a with frm := back }
      launchOn s pk (a.mod * 1024 + a.pier) (latency s m here a.mod (destPlace s a.mod a.pier a.job))
        (if a.form = 1 then .barrierArriveArrival b else if a.form = 2 then .phaseNoticeArrival b else .sluiceAddArrival b)
    else answer s m .die back 7
  | .gdone gr v => launchOn s pk (m * 1024 + 2 ^ 22) (latency s m here m .die) (.gdoneForward m pk gr v back)
  | .mcast gr g =>
    let x := fget (getMod s m).groups gr {}
    if bitAt x.hdr 63 && (x.hdr.toNat / 2 ^ 38 % 4096 == g.job.toNat) && x.hdr.toNat / 2 ^ 60 % 8 == 0 && x.members.length > 0 then
      startCopies s pk gr e.tok g x
    else answer s m .die back 2
  | .reduce _ g => launchOn s pk (m * 1024 + 2 ^ 22 + 1) (latency s m here m .die) (.reductionContribution g back)

/-- Whether an operation of a run holds an in-flight entry. -/
def infHas (x : Strand) (tok : Nat) : Bool := x.inf.any fun e => match e.2 with | some i => i.tok == tok | none => false

/-- Whether a gm request of a pier is not acknowledged yet, on whatever strand its run is, parked, or saved with an evicted actor (R151,
R216, R231). -/
def gmOpen (p : Pier) (tok : Nat) : Bool :=
  p.strands.any (fun x => infHas x.2 tok) || p.late.any (·.tok == tok) ||
    p.actors.any fun a => match a.2.saved with | some v => infHas v.1 tok | none => false

/-- The entries of the outbox that may leave: among the first 64, not sent, not waiting for a resend, behind no entry of
their order stream (R45), and covering no request that is not acknowledged (R152). -/
def mayLeave (s : State) (pk : Nat) (earlier : List OutEntry) (e : OutEntry) : Bool :=
  !e.sent && !e.retry && earlier.all (fun f => !sameStream s f.key e.key) &&
    e.after.all fun t => !gmOpen (getPier s pk) t

/-- Every entry that may leave is sent. -/
def pumpList (s : State) (pk : Nat) : List OutEntry → List OutEntry → State
  | _, [] => s
  | done, e :: l =>
    if mayLeave s pk done e then
      let s1 := adjPier s pk fun p =>
        { p with outbox := p.outbox.map fun f => if f.tok = e.tok then { f with sent := true } else f }
      pumpList (sendEntry s1 pk e) pk (done ++ [{ e with sent := true }]) l
    else pumpList s pk (done ++ [e]) l

/-- The outbox of a resident pier sends what may leave. -/
def pumpOutbox (s : State) (pk : Nat) : State :=
  if residentOpen s pk then pumpList s pk [] ((getPier s pk).outbox.take 64) else s

/-- An entry joins the outbox. -/
def enqueue (s : State) (pk : Nat) (key : StreamKey) (body : OutBody) (actor : Nat) (runid : BitVec 32) (bundle : BitVec 12)
    (strand : Nat) (move w3 : Word) (unit : BitVec 5) (slot : BitVec 2 := 0) (after : List Nat := []) : State :=
  let e : OutEntry :=
    { tok := s.tok, key, body, sent := false, retry := false, refused := false, actor, runid, bundle, strand, move, w3, unit,
      slot, after }
  pumpOutbox (adjPier { s with tok := s.tok + 1 } pk fun p => { p with outbox := p.outbox ++ [e] }) pk

/-- A device message: its sender is the pier's actor 63 (R46). -/
def deviceMsg (s : State) (pk lp : Nat) (dst : BitVec 28) (cls prio kind : Nat) (graph : BitVec 12) (words : Nat)
    (pay : List Word) (flags : BitVec 3) : Msg :=
  { dmod := BitVec.ofNat 12 (awMod dst), dpier := BitVec.ofNat 10 (awPier dst), dact := BitVec.ofNat 6 (awActor dst),
    cls := BitVec.ofNat 5 cls, prio := BitVec.ofNat 2 prio, kind := BitVec.ofNat 3 kind, smod := BitVec.ofNat 12 (pkMod pk),
    spier := BitVec.ofNat 10 lp, sact := 63, seq := (getActor s pk 63).seq, tag := 0, job := jobOf s pk, graph,
    words := BitVec.ofNat 3 words, flags, pay, poison := 0 }

/-- A device message joins the outbox and takes the next sequence number of actor 63 (R46, R243). -/
def sendDevice (s : State) (pk lp : Nat) (dst : BitVec 28) (cls prio kind : Nat) (graph : BitVec 12) (words : Nat)
    (pay : List Word) (flags : BitVec 3) (actor : Nat) (move w3 : Word) (unit : BitVec 5) : State :=
  let g := deviceMsg s pk lp dst cls prio kind graph words pay flags
  let s1 := adjActor s pk 63 fun a => { a with seq := a.seq + 1 }
  enqueue s1 pk (.toActor 63 dst) (.msg g) actor 0 0 0 move w3 unit

/-! Fault records and taking a fault (R206 to R211). -/

/-- Word w0 of a record (R207). -/
def faultW0 (code : Nat) (unit slot : Nat) (notRes deferred frozen redirected brk : Bool) : Word :=
  BitVec.ofNat 64 (code % 65536 + unit % 32 * 2 ^ 16 + slot % 4 * 2 ^ 21 + b2n notRes * 2 ^ 23 + b2n deferred * 2 ^ 24
    + b2n frozen * 2 ^ 25 + b2n redirected * 2 ^ 26 + b2n brk * 2 ^ 27)

/-- Word w1 of a record (R208). -/
def faultW1 (bundle : BitVec 12) (runid : BitVec 32) : Word := BitVec.ofNat 64 (bundle.toNat * 2 ^ 32 + runid.toNat)

/-- Word w4 of a record (R208). -/
def faultW4 (s : State) (pk lp actor strand : Nat) : Word :=
  BitVec.ofNat 64 (pkMod pk % 4096 * 2 ^ 30 + actor % 64 * 2 ^ 24 + strand % 8 * 2 ^ 21 + physicalOf s pk % 2048 * 2 ^ 10
    + lp % 1024)

/-- Word w5 of a record for a run (R208). -/
def faultW5 (x : Strand) : Word :=
  let f (want : Bool) (i : Nat) : Bool :=
    match fget x.inf i none with | some e => e.issued == want | none => false
  BitVec.ofNat 64 ((maskOf (f true)).toNat * 2 ^ 16 + (maskOf (f false)).toNat)

/-- w5 of a record about a run that may have ended (R209). -/
def liveW5 (s : State) (pk strand : Nat) (runid : BitVec 32) : Word :=
  let x := getStrand s pk strand
  if x.runid = runid ∧ x.status ≠ .free then faultW5 x else 0

/-- A record sent to the fault actor of an actor, or with redirected set to actor 63 of its pier (R210). -/
def sendRecord (s : State) (pk lp actor : Nat) (w0 w1 w2 w3 w4 w5 : Word) : State :=
  let a := getActor s pk actor
  let self := addrWord (pkMod pk) lp actor
  let to_ : BitVec 28 := a.fault.extractLsb' 0 28
  let redir := !(bitAt a.fault 28) || to_ == self
  let w0' := if redir then setBits w0 26 1 1 else w0
  let dst := if redir then addrWord (pkMod pk) lp 63 else to_
  sendDevice s pk lp dst 31 3 5 a.graph 6 [w0', w1, w2, w3, w4, w5] 0 actor w2 w3 0

/-- What a strand still waits for once its run is frozen: the fault of a matrix entry takes it out of an SWAIT (R219); any
other wait goes on (R211, R347). -/
def frozenWait (deferred : Bool) : Wait → Wait
  | .sluice n t => if deferred then .none else .sluice n t
  | .phase n ph => if deferred then .none else .phase n ph
  | .sarv n b w i => .sarv n b w i
  | .none => .none

/-- TAKING A FAULT, the one way a run is frozen (R53, R206 to R211): the strand stops at its stop bundle and keeps its
state, the actor is frozen, and the record goes to the fault actor. A fault of a run of the service actor is Veiviush's
to handle as a hung pier (R210). -/
def takeFault (s : State) (pk st : Nat) (f : FaultInfo) (bundle stop : BitVec 12) : State :=
  let x := getStrand s pk st
  let a := x.actor.toNat
  let s1 := adjStrand s pk st fun y => { y with status := .frozen, stop := stop, wait := frozenWait f.deferred y.wait }
  let s2 := adjActor s1 pk a fun y => { y with st := .frozen }
  if x.service then nowDo s2 (.hungPier pk)
  else
    let w5 : Word := if f.code = 0x0E ∨ 0x15 ≤ f.code.toNat then 0 else faultW5 x
    sendRecord s2 pk x.lp.toNat a (faultW0 f.code.toNat f.unit.toNat f.slot.toNat f.notRes f.deferred true false f.brk)
      (faultW1 bundle x.runid) f.w2 f.w3 (faultW4 s pk x.lp.toNat a st) w5

/-- RETURNING FROM A FAULT (R214): the run goes on at a bundle, its watchdog starts again, the actor is running. -/
def returnFault (s : State) (pk st : Nat) (pc : BitVec 12) : State :=
  let a := (getStrand s pk st).actor.toNat
  let s1 := adjStrand s pk st fun y => { y with status := .running, pc := pc, wd := 0 }
  adjActor s1 pk a fun y => { y with st := .running }

/-- A deferred record (R206 to R208, R220): nothing is frozen. -/
def sendDeferred (s : State) (d : Deferred) : State :=
  let pk := (carrierPk s (pkMod d.pk) (pkPart d.pk) d.lp).getD d.pk
  sendRecord s pk d.lp d.actor (faultW0 d.code.toNat d.unit.toNat d.slot.toNat d.notResident true false false false)
    (faultW1 d.bundle d.runid) d.w2 d.w3 (faultW4 s pk d.lp d.actor d.strand) d.w5

/-- The logical pier of an actor of a carrier: the carrier's own for an index that is free and for the service actor (R199). -/
def actorLp (s : State) (pk a : Nat) : Nat :=
  let x := getActor s pk a
  if a = 63 ∨ x.st = .free then pkLp pk else x.lp.toNat

/-- A record of a fault at a sluice, to actor 63 of the pier with redirected set (R60, R61); it names the actor of the action
word, with its logical pier and its graph (R199, R206). R209 lists it as deferred for a message of kind 011 and not for a post
(log entry 16). -/
def sendSluiceRecord (s : State) (pk : Nat) (action : Word) (n : Nat) (deferred : Bool) : State :=
  let a := if action = 0 then 63 else bits action 54 6
  let lp := actorLp s pk a
  sendDevice s pk lp (addrWord (pkMod pk) lp 63) 31 3 5 (getActor s pk a).graph 6
    [faultW0 0x10 0 0 false deferred false true false, 0, action, BitVec.ofNat 64 n, faultW4 s pk lp a 0, 0] 0 63 action
    (BitVec.ofNat 64 n) 0

/-! Frames to the host (R260 to R262). -/

/-- A frame as it is sent: with the acknowledge number of the moment, in the encapsulation the host used (R259, R260). -/
def onWire (h : HostPort) (f : OutFrame) : OutFrame := { f with ack := h.ackedTo, encap := h.encap }

/-- A frame to the host; at most 1,024 are on their way unacknowledged (R262). -/
def sendFrame (s : State) (m : Nat) (type : BitVec 8) (job : BitVec 12) (flags : BitVec 16) (addr operand : Word)
    (data : List Byte) : State :=
  adjHost s m fun h =>
    let f : OutFrame := { type, seq := h.nextSeq, job, flags, addr, operand, data }
    { h with nextSeq := h.nextSeq + 1, unacked := h.unacked ++ [f],
             lastAdvance := if h.unacked = [] then s.cycle else h.lastAdvance,
             wire := if h.unacked.length < 1024 then h.wire ++ [onWire h f] else h.wire }

/-- An event frame (R261, R399). -/
def sendEvent (s : State) (m : Nat) (code : Nat) (job : BitVec 12) (data : List Byte) : State :=
  sendFrame s m 5 job 0 0 (BitVec.ofNat 64 code) data

/-- The bytes of a word, lowest first (R1). -/
def wordBytes (w : Word) : List Byte := bytesOfNat 8 w.toNat

/-- The 64 bytes of a message: header and payload (R242). -/
def msgBytes (g : Msg) : List Byte :=
  bytesOfNat 16 (msgHeader g).toNat ++ ((List.range 6).map fun i => wordBytes (payWord g i)).flatten

/-! Sluices (R57 to R63). -/

/-- The mode of an action word (R58): 0 off, 1 counter, 2 barrier home, 3 barrier member. -/
def slMode (x : Sluice) : Nat := bits x.action 62 2

/-- The release of the oldest unreleased staged entry of an actor with a key, or a credit (R60); true where the credit
store is full. -/
def mqRelease (p : Pier) (cycle actor : Nat) (key : Option (BitVec 9)) : Pier × Bool :=
  let hit (e : MEntry) : Bool := !e.released && e.actor.toNat == actor &&
    (match key with | none => true | some k => BitVec.extractLsb' 10 9 e.t == k)
  match p.mq.find? hit with
  | some e => ({ p with mq := p.mq.map fun f => if f.tok = e.tok then { f with released := true, at_ := cycle } else f }, false)
  | none =>
    if p.credits.length < 16 then ({ p with credits := p.credits ++ [⟨actor, key⟩] }, false) else (p, true)

/-- The post of a firing (R60); `cancelled` is p0[31] (R66). -/
def slPost (s : State) (pk n : Nat) (action : Word) (phase : BitVec 2) (count : BitVec 32) (cancelled : Bool) : State :=
  let a := bits action 54 6
  let act := getActor s pk a
  let lp := actorLp s pk a
  let p0 := BitVec.ofNat 64 (n + phase.toNat * 2 ^ 16 + b2n cancelled * 2 ^ 31)
  sendDevice s pk lp (addrWord (pkMod pk) lp a) (bits action 49 5) (bits action 47 2) 0 act.graph 2
    [p0, BitVec.ofNat 64 count.toNat] 0 63 action (BitVec.ofNat 64 n) 10

/-- The trigger behind an update of a sluice, for the record of a release credit that is discarded (R220); all zero where
the update has no bundle. -/
structure Cause where
  strand : Nat := 0
  runid : BitVec 32 := 0
  bundle : BitVec 12 := 0

/-- The trigger of the bundle in hand. -/
def causeHere (s : State) : Cause :=
  { strand := s.issue.strand, runid := (getStrand s s.issue.pk s.issue.strand).runid, bundle := s.issue.addr }

/-- The trigger that made an outbox entry, as long as the entry is held. -/
def causeOf (s : State) : AckTo → Cause
  | .outbox pk tok =>
    match (getPier s pk).outbox.find? fun e => e.tok == tok with
    | some e => { strand := e.strand, runid := e.runid, bundle := e.bundle }
    | none => {}
  | _ => {}

/-- The release of a firing (R60). -/
def slRelease (s : State) (pk n : Nat) (action : Word) (key : Option (BitVec 9)) (c : Cause := {}) : State :=
  let a := bits action 54 6
  let r := mqRelease (getPier s pk) s.cycle a key
  if r.2 then
    let d : Deferred :=
      { pk, lp := actorLp s pk a, actor := a, strand := c.strand, runid := c.runid, bundle := c.bundle,
        code := 0x10, unit := 0, slot := 0, w2 := 0, w3 := BitVec.ofNat 64 n, w5 := liveW5 s pk c.strand c.runid, notResident := false }
    nowDo s (.deferredFaultReport d)
  else setPier s pk r.1

/-- The action of a firing or of a phase completion (R60). -/
def slAction (s : State) (pk n : Nat) (action : Word) (phase : BitVec 2) (count : BitVec 32) (cancelled : Bool)
    (c : Cause := {}) : State :=
  let s1 := if bitAt action 60 then slPost s pk n action phase count cancelled else s
  if bitAt action 61 then
    slRelease s1 pk n action (if bits action 62 2 = 1 then some (action.extractLsb' 32 9) else none) c
  else s1

/-- The link entry of a service sluice (R65). -/
def linkOf (p : Pier) (n : Nat) : Word := if 496 ≤ n then mword p.spad (0x3FF00 + 8 * (n - 496)) else 0

/-- The sluice whose number link entries of the next level down name as their parent: of a phase, next to the job sluice (R101,
R102). -/
def phaseSluice (s : State) (job id : Nat) : Nat × Nat × Nat :=
  let img := (getJob s job).img
  (img.homeMod, img.homePier, img.sluice - 1 - id)

/-- Whether a link entry is that of a graph whose parent is a sluice (R65). -/
def linkUnder (l : Word) (g : Nat) (up : Nat × Nat × Nat) : Bool :=
  bitAt l 63 && bits l 61 2 == 0 && bits l 48 12 == g && (bits l 29 12, bits l 19 10, bits l 10 9) == up

/-- The graphs of a level of a job (R67): of a phase those whose link entries name its sluice as parent; a graph that the job's table does
not hold is an empty level (R55, R304). -/
def graphIn (s : State) (job level id g : Nat) : Bool :=
  match level with
  | 0 => g == id && (getJob s job).img.graphs.any fun l => l.graph.toNat == g
  | 1 =>
    id < (getJob s job).img.phases && s.piers.any fun e => (jobOf s e.1).toNat == job &&
      (List.range 16).any fun i => linkUnder (linkOf e.2 (496 + i)) g (phaseSluice s job id)
  | _ => true

/-- Whether a sluice-add message belongs to a cancelled level (R67); adds of GDONE and of completion sluices do not (R68), and a phase
notice concerns no actor's graph. -/
def addBelongs (s : State) (c : CancelMark) (a : SlAdd) : Bool :=
  a.job.toNat == c.job && match a.graph with
    | some g => graphIn s c.job c.level c.id g.toNat
    | none => a.form == 2 && decide (2 ≤ c.level)

/-- The link entry of a service sluice written. -/
def setLink (s : State) (pk n : Nat) (w : Word) : State :=
  adjPier s pk fun p => { p with spad := mwrite p.spad (0x3FF00 + 8 * (n - 496)) 8 w.toNat }

/-- What the firing of a completion sluice adds (R64, R66): one to the parent, with the cancelled bit; the end of a phase;
the end of a job, which the host hears of. -/
def slComplete (s : State) (pk : Nat) (link : Word) (count : BitVec 32) : State :=
  let level := bits link 61 2
  let canc := bitAt link 60
  let job := jobOf s pk
  let s1 := if level = 1 then adjJob s job.toNat fun j => { j with inPhase := false, nextPhase := bits link 48 12 + 1 } else s
  if level = 2 then
    let s2 := adjJob s1 job.toNat fun j => { j with ended := true }
    sendEvent s2 (pkMod pk) 1 job (wordBytes (BitVec.ofNat 64 count.toNat) ++ wordBytes (boolWord canc))
  else
    let pm := bits link 29 12
    let pp := bits link 19 10
    let a : SlAdd := { mod := pm, pier := pp, job := job, sl := BitVec.ofNat 9 (bits link 10 9), form := 0, member := 0,
                       add := 1, cancelled := canc, frm := .nobody }
    enqueue s1 pk (.toPier 63 pm pp) (.add a) 63 0 0 0 0 (BitVec.ofNat 64 (bits link 10 9)) 10

/-- Whether a wait of a strand is over (R62). -/
def waitOver (x : Sluice) : Wait → Bool
  | .none => true
  | .sluice _ t => decide ((x.count - t).toNat < 2 ^ 31)
  | .phase _ ph => x.phase == ph
  | .sarv _ _ _ _ => false

/-- The sluice a wait is for. -/
def waitSluice : Wait → Option Nat
  | .none => none
  | .sluice n _ => some n
  | .phase n _ => some n
  | .sarv n _ _ _ => some n

/-- The waits of a pier's strands at the end of a cycle, after every update of it (R62): a wait whose condition holds is over.
A strand that waits in SARV is left to the sluice's own operation. -/
def endWaits (p : Pier) : Pier :=
  { p with
    strands := p.strands.map fun e =>
      match waitSluice e.2.wait with
      | some n => if waitOver (pierSluice p n) e.2.wait = true then (e.1, { e.2 with wait := .none }) else e
      | none => e }

/-- A sluice fires (R59, R60, R66). -/
def slFire (s : State) (pk n : Nat) (c : Cause := {}) : State :=
  let x := getSluice s pk n
  let rearm : BitVec 32 := x.action.extractLsb' 0 32
  let y := { x with phase := x.phase + 1, firedAt := some s.cycle, again := true, armed := !(rearm == 0), target := x.target + rearm }
  let link := linkOf (getPier s pk) n
  let s1 := slAction (setSluice s pk n y) pk n x.action y.phase x.count (bitAt link 63 && bitAt link 60) c
  if bitAt link 63 then slComplete s1 pk link x.count else s1

/-- The check of R59 after an update of a sluice. -/
def slCheck (s : State) (pk n : Nat) (c : Cause := {}) : State :=
  let x := getSluice s pk n
  if slMode x = 1 ∧ x.armed = true ∧ (x.count - x.target).toNat < 2 ^ 31 then
    if x.firedAt = some s.cycle then setSluice s pk n { x with again := true } else slFire s pk n c
  else setSluice s pk n { x with again := false }

/-- An update of a sluice: the change and the check of R59 (R63). -/
def slUpdate (s : State) (pk n : Nat) (f : Sluice → Sluice) (c : Cause := {}) : State :=
  slCheck (setSluice s pk n (f (getSluice s pk n))) pk n c

/-- An add to a counter sluice (R59, R345). -/
def slAdd (s : State) (pk n : Nat) (v : BitVec 32) (c : Cause := {}) : State :=
  slUpdate s pk n (fun x => { x with count := x.count + v }) c

/-- The lead of a member as its own sluice shows it (R61). -/
def slLead (x : Sluice) : Nat := (x.count.toNat % 4 + 4 - x.phase.toNat) % 4

/-- The leads held on a pier (R225). -/
def leadsUsed (p : Pier) : Nat := (p.sluices.map fun e => e.2.leads.length).foldl (· + ·) 0

/-- The phase notices of a home that wait for an outbox entry are entered while there is room (R61). -/
def enterNotices (s : State) (pk n : Nat) : List Nat → State
  | [] => s
  | j :: l =>
    let x := getSluice s pk n
    let owed := fget x.owed j 0
    if owed = 0 ∨ outFull (getPier s pk) = true then enterNotices s pk n l
    else
      let to_ := fget x.memberPk j pk
      let a : SlAdd := { mod := pkMod pk, pier := pkLp to_, job := jobOf s pk, sl := BitVec.ofNat 9 n, form := 2,
                         member := BitVec.ofNat 6 j, add := 0, cancelled := false, frm := .nobody }
      let s1 := setSluice s pk n { x with owed := fset x.owed j (owed - 1) }
      enterNotices (enqueue s1 pk (.toPier 63 (pkMod pk) (pkLp to_)) (.add a) 63 0 0 0 x.action (BitVec.ofNat 64 n) 10) pk n l

/-- Notices owed by every home of a pier. -/
def enterAllNotices (s : State) (pk : Nat) : List Nat → State
  | [] => s
  | n :: l =>
    let x := getSluice s pk n
    enterAllNotices (if x.leads = [] then s else enterNotices s pk n ((List.range x.leads.length) ++ (List.range x.leads.length))) pk l

/-- The completion of a barrier phase at the home (R61). -/
def homeCheck (s : State) (pk n : Nat) (c : Cause := {}) : State :=
  let x := getSluice s pk n
  if x.leads ≠ [] ∧ x.leads.all (fun l => 1 ≤ l) = true then
    let me := bits x.action 26 6
    let owed := (List.range x.leads.length).foldl (fun o j => if j = me then o else fset o j (fget o j 0 + 1)) x.owed
    let y := { x with leads := x.leads.map (· - 1), phase := x.phase + 1, owed := owed }
    let s1 := setSluice s pk n y
    let s2 := slAction s1 pk n x.action y.phase x.count false c
    enterNotices s2 pk n (List.range x.leads.length)
  else s

/-- An arrive made at the home for a member (R61). A lead has two bits (R57), so that one of 3, which no arrive of a member below it
finds, goes to 0: DESIGN CHOICE, log entry 79. -/
def homeArrive (s : State) (pk n member frm : Nat) (c : Cause := {}) : State :=
  let x := getSluice s pk n
  let y := { x with leads := lset x.leads member ((lgetD x.leads member 0 + 1) % 4), memberPk := fset x.memberPk member frm }
  homeCheck (setSluice s pk n y) pk n c

/-- The strand of a SARV arrives (R61, R346): at the home itself, or by an arrive that leaves through the outbox. -/
def sarvArrive (s : State) (pk st n : Nat) (bundle : BitVec 12) (move : Word) (slot : BitVec 2)
    (after : List Nat := []) : State :=
  let x := getSluice s pk n
  let me := bits x.action 26 6
  let s1 := setSluice s pk n { x with count := x.count + 1 }
  if slMode x = 2 then homeArrive s1 pk n me pk { strand := st, runid := (getStrand s pk st).runid, bundle }
  else
    let y := getStrand s pk st
    let home := bits x.action 32 10
    let a : SlAdd := { mod := pkMod pk, pier := home, job := jobOf s pk, sl := BitVec.ofNat 9 n, form := 1,
                       member := BitVec.ofNat 6 me, add := 0, cancelled := false, frm := .nobody,
                       graph := some (getActor s pk y.actor.toNat).graph }
    enqueue s1 pk (.toPier y.actor.toNat (pkMod pk) home) (.add a) y.actor.toNat y.runid bundle st move (BitVec.ofNat 64 n) 10 slot after

/-- The phase whose completion covers an arrive (R61, R346). -/
def sarvPhase (x : Sluice) : Word := BitVec.ofNat 64 ((x.phase.toNat + slLead x + 1) % 4)

/-- Where the home of a gm request lies once it is issued: module, span (R164). A request to HBM by `loc` is homed at the
abutment of its block; one through an aperture at its target pier. -/
def homeOf (r : GmReq) : Nat × Nat :=
  if bitAt r.va 55 then (bits r.va 43 12, bits r.va 33 10 / 256)
  else (r.mod, match r.dom.toNat with
    | 0 => r.loc / 2 ^ 37 % 4
    | 1 => r.loc / 2 ^ 8 % 4
    | _ => r.loc / 2 ^ 37 % 4)

/-- Whether a request's home lies in a scope of a logical pier of a module (R165). -/
def inScopeOf (m lp : Nat) (sc : Scope) (e : Inflight) : Bool :=
  let h := homeOf e.req
  match sc with
  | .sys => true
  | .mod => h.1 == m
  | .span => h.1 == m && h.2 == lp / 256
  | .pier => bitAt e.req.va 55 && h.1 == m && bits e.req.va 33 10 == lp

/-- The scope of an arrive of a run on a logical pier (R169): span scope at the home itself, else the scope enclosing member and
home. -/
def sarvScopeAt (lp : Nat) (x : Sluice) : Scope :=
  if slMode x = 2 then .span else if bits x.action 32 10 / 256 = lp / 256 then .span else .mod

/-- Whether an arrive of a strand still covers a gm access that is not performed (R152, R169): SARV waits for those whose home
lies in its scope and for those that await translation. -/
def arriveCovers (pk : Nat) (y : Strand) (x : Sluice) : Bool :=
  y.inf.any fun e =>
    match e.2 with
    | some i => i.kind == .gm && (!i.issued || inScopeOf (pkMod pk) y.lp.toNat (sarvScopeAt y.lp.toNat x) i)
    | none => false

/-- A blocked SARV checks again (R61): a fault where its sluice has left the barrier modes, its arrive once its lead is
below 3. DESIGN CHOICE, log entry 80: where the run is frozen already the SARV ends without a second fault and without a result. -/
def sarvRetry (s : State) (pk n st : Nat) : State :=
  let y := getStrand s pk st
  let x := getSluice s pk n
  match y.wait with
  | .sarv n' b w i =>
    if n' = n ∧ (y.status = .running ∨ y.status = .frozen) then
      if slMode x < 2 then
        let f : FaultInfo := { code := 0x10, slot := i, unit := 10, w2 := w, w3 := BitVec.ofNat 64 n, brk := false }
        let s1 := adjStrand s pk st fun z =>
          { z with
            wait := .none
            res := fdel z.res 0x0A8
            pend := z.pend.filter fun p => !(p.unit == 10 && p.r.isNone && p.sample.isNone) }
        if y.status = .running then takeFault s1 pk st f b y.pc else s1
      else if slLead x = 3 ∨ (slMode x = 3 ∧ outFull (getPier s pk) = true) ∨ arriveCovers pk y x = true then s
      else
        let v := Value.ofWord (sarvPhase x)
        let s1 := adjStrand s pk st fun z =>
          { z with wait := .none, pend := z.pend.map fun p => if p.unit = 10 ∧ p.r = none ∧ p.sample = none then { p with r := some v } else p }
        let s2 := match y.pend.find? (fun p => p.unit == 10 && p.r == none && p.sample == none) with
          | some p => schedule s1 (s.cycle + 2) (.resultPortWrite pk st 10 p.tok)
          | none => s1
        sarvArrive s2 pk st n b w i
    else s
  | _ => s

/-- Every strand blocked in SARV on a sluice checks again. -/
def sarvWake (s : State) (pk n : Nat) : State :=
  ((List.range 64).map (· % 8)).foldl (fun s st => sarvRetry s pk n st) s

/-- After an update of a sluice every strand blocked in SARV on it checks again (R61); an SWAIT checks at the end of the cycle
(R62). -/
def slSettle (s : State) (pk n : Nat) : State := sarvWake s pk n

/-- An add of an engine or an arrival to a sluice; misuse where the sluice is in no counter mode (R63). -/
def slAddAt (s : State) (pk n : Nat) (v : BitVec 32) (c : Cause := {}) : Option State :=
  if slMode (getSluice s pk n) = 1 then some (sarvWake (slAdd s pk n v c) pk n) else none

end Sys2Proof.Machine
end

