-- ==== Sys2Proof/Machine/Operands.lean ====
section
/-!
DEFINITION. The operand forms: guards, sources, destinations, operand and result ports, and the one way a trigger goes
through the checks of R80 and R89 (R69 to R83, R128).
-/

namespace Sys2Proof.Machine

/-- The strand of the bundle being issued, as the moves and triggers before have left it. -/
def curStrand (s : State) : Strand := getStrand s s.issue.pk s.issue.strand
/-- The strand of the bundle being issued changed. -/
def adjCur (s : State) (f : Strand → Strand) : State := adjStrand s s.issue.pk s.issue.strand f
/-- The pier of the bundle being issued. -/
def curPier (s : State) : Pier := getPier s s.issue.pk
/-- The pier of the bundle being issued changed. -/
def adjCurPier (s : State) (f : Pier → Pier) : State := adjPier s s.issue.pk f
/-- The actor index of the run. -/
def curActorIx (s : State) : Nat := (curStrand s).actor.toNat
/-- The actor of the run. -/
def curActor (s : State) : Actor := getActor s s.issue.pk (curActorIx s)
/-- The logical pier of the run. -/
def curLp (s : State) : Nat := (curStrand s).lp.toNat
/-- Whether the run is the service actor's (R5, R73). -/
def curService (s : State) : Bool := (curStrand s).service

/-- A general register; x0 reads zero (R69). -/
def readX (x : Strand) (r : Nat) : Value := if r = 0 then Value.zero else fget x.x r Value.zero
/-- A vector register. -/
def readV (x : Strand) (r : Nat) : Value := fget x.v r vecZero
/-- A guard bit; c0 reads 1 (R69). -/
def readC (x : Strand) (r : Nat) : Bool := if r = 0 then true else fget x.c r false
/-- A q-word. -/
def readQ (x : Strand) (i : Nat) : Value := fget x.q i Value.zero
/-- A p-word. -/
def readP (x : Strand) (i : Nat) : Value := fget x.p i Value.zero
/-- An operand port: none while it is unwritten in this run (R75). -/
def opPort (x : Strand) (o : OpSel) : Option Value := fget x.op o.index none
/-- A result port (R76). -/
def resPort (x : Strand) (i : Nat) : ResPort := fget x.res i .empty

/-- A general register written; a write to x0 is discarded (R69). -/
def writeX (x : Strand) (r : Nat) (v : Value) : Strand := if r = 0 then x else { x with x := fset x.x r (toScalarValue v) }
/-- A guard bit written; a write to c0 is discarded (R69, R71). -/
def writeC (x : Strand) (r : Nat) (v : Value) : Strand := if r = 0 then x else { x with c := fset x.c r (bitAt (vsc v) 0) }

/-- What a source gives: its value, a wait for a result, or a read of an empty port (R76). -/
inductive Read where
  | value (v : Value)
  | waits
  | emptyPort (sel : Nat)
  deriving DecidableEq, Repr

/-- The header sources (R70). -/
def readHdr (s : State) (x : Strand) (i : Nat) : Word :=
  match i with
  | 0 => BitVec.ofNat 64 (msgSrc x.hdr).toNat
  | 1 => BitVec.ofNat 64 x.hdr.cls.toNat
  | 2 => BitVec.ofNat 64 x.hdr.seq.toNat
  | 3 => BitVec.ofNat 64 x.hdr.tag.toNat
  | 4 => BitVec.ofNat 64 x.hdr.job.toNat
  | 5 => BitVec.ofNat 64 x.hdr.graph.toNat
  | 6 => BitVec.ofNat 64 x.hdr.words.toNat
  | _ => (getMod s (pkMod s.issue.pk)).cyc

/-- A source read with the values left by the previous bundle (R77 step 1, R86). -/
def readSource (s : State) (src : Source) : Read :=
  let x := s.issue.pre
  match src with
  | .imm i => .value (Value.ofWord (i.signExtend 64))
  | .x r => .value (readX x r.toNat)
  | .v r => .value (readV x r.toNat)
  | .c r => .value (Value.ofWord (boolWord (readC x r.toNat)))
  | .p i => .value (readP x i.val)
  | .hdr i => .value (Value.ofWord (readHdr s x i.toNat))
  | .limm => .value (Value.ofWord s.issue.limm)
  | .res r =>
    match resPort x r.index with
    | .empty => .emptyPort r.index
    | .pending _ => .waits
    | .full v => .value v

/-- Whether the guard of a slot is true (R78, R85). -/
def guardOn (s : State) (m : Mv) : Bool := readC s.issue.pre m.g.toNat != m.inv

/-- Some condition of R80 holds the bundle. -/
def markHeld (s : State) : State := { s with issue := { s.issue with held := true } }

/-- The fault of the lower slot stands (R89). -/
def noteFault (s : State) (f : FaultInfo) : State :=
  let g : FaultInfo :=
    match s.issue.fault with
    | none => f
    | some e => if e.slot.toNat < f.slot.toNat then e else f
  { s with issue := { s.issue with fault := some g } }

/-- The move of the slot in hand and the low half of a value: w2 of most records (R208). -/
def moveWord (s : State) (v : Value) : Word :=
  BitVec.ofNat 64 ((lgetD s.issue.slots s.issue.slot.toNat 0).toNat * 2 ^ 32 + (vsc v).toNat % 2 ^ 32)

/-- The move of the slot in hand. -/
def moveOf (s : State) : BitVec 32 := BitVec.ofNat 32 (lgetD s.issue.slots s.issue.slot.toNat 0).toNat

/-- A fault at the bundle (R90, R209): the run is frozen at the bundle, and the fault is noted for the issue, which undoes
whatever else the bundle did. -/
def raise (s : State) (unit code : Nat) (w2 w3 : Word) : State :=
  let f : FaultInfo := { code := BitVec.ofNat 16 code, slot := s.issue.slot, unit := BitVec.ofNat 5 unit, w2, w3, brk := false }
  takeFault (noteFault s f) s.issue.pk s.issue.strand f s.issue.addr s.issue.addr

/-- The result ports of a unit become empty when a trigger of it issues (R76, R79). -/
def clearUnit (x : Strand) (u : Nat) : Strand := { x with res := x.res.filter fun e => !(e.1 / 4 == 0x20 + u) }

/-- A result readable from the next bundle on (L = 1, R79). -/
def setResult (s : State) (idx : Nat) (v : Value) : State := adjCur s fun x => { x with res := fset x.res idx (.full v) }

/-- The selector of port `k` of a unit: 0x080 + 4u + k (R86). -/
def portIx (u k : Nat) : Nat := 0x080 + 4 * u + k

/-- A result port that waits for an operation, where it writes one. -/
def pendPort (x : Strand) (idx tok : Nat) (w : Bool) : Strand := if w then { x with res := fset x.res idx (.pending tok) } else x

/-- A result of fixed latency: the ports wait, and the value lands `lat` cycles on (R79). -/
def pendResult (s : State) (u lat : Nat) (r h : Option Value) (seed : Bool) (create : Option (List Word)) : State :=
  let t := s.tok
  let p : Pending := { tok := t, unit := u, r, h, create, seed, sample := none }
  let s1 := adjCur { s with tok := t + 1 } fun x =>
    { pendPort (pendPort x (portIx u 0) t (r.isSome || create.isSome)) (portIx u 1) t h.isSome with pend := x.pend ++ [p] }
  schedule s1 (s.cycle + lat) (.resultPortWrite s.issue.pk s.issue.strand u t)

/-- A value lands in a port that still waits for its operation (R76). -/
def landPort (x : Strand) (idx tok : Nat) (v : Option Value) : Strand :=
  match v with
  | none => x
  | some v => if resPort x idx = .pending tok then { x with res := fset x.res idx (.full v) } else x

/-- The lowest-numbered free in-flight entry (R81). -/
def freeEntry (x : Strand) : Option Nat := (List.range 16).find? fun i => (fget x.inf i none).isNone

/-- An in-flight entry freed (R81). -/
def dropEntry (x : Strand) (i : Nat) : Strand := { x with inf := fdel x.inf i }

/-- The in-flight entries of a strand. -/
def entriesOf (x : Strand) : List Inflight := x.inf.filterMap (·.2)

/-- How a trigger's own checks and effect end: a fault with its code and w3, or the next state. -/
inductive Trig where
  | fault (code : Nat) (w3 : Word)
  | ok (s : State)

/-- What a trigger needs: its unit, the operand ports it needs, and which of the trigger value and the ports steer the
device, so that poison in them is consumed (R75, R128). -/
structure Need where
  unit : Nat
  a : Option OpSel := none
  b : Option OpSel := none
  steerT : Bool := false
  steerA : Bool := false
  steerB : Bool := false

/-- A needed port that has not been written in this run (R75). -/
def missing (x : Strand) (o : Option OpSel) : Option OpSel :=
  match o with
  | none => none
  | some o => if (opPort x o).isNone then some o else none

/-- The value of a needed port. -/
def needed (x : Strand) (o : Option OpSel) : Value :=
  match o with
  | none => Value.zero
  | some o => (opPort x o).getD Value.zero

/-- Steps 4 to 6 of R89 for a trigger, in their order. The body gets the state with the unit's result ports empty. -/
def checked (s : State) (k : Need) (t : Value) (body : State → Value → Value → Value → Trig) : Trig :=
  let x := curStrand s
  let a := needed x k.a
  let b := needed x k.b
  if (k.steerT && t.poison) || (k.steerA && a.poison) || (k.steerB && b.poison) then .fault 0x0C 0
  else
    match missing x k.a with
    | some o => .fault 0x05 (BitVec.ofNat 64 o.index)
    | none =>
      match missing x k.b with
      | some o => .fault 0x05 (BitVec.ofNat 64 o.index)
      | none => body (adjCur s fun x => clearUnit x k.unit) t a b

/-- A trigger (R78, R80, R89): nothing under a false guard; held while its source or its unit is not ready; a fault
where a check fails; otherwise its effect. `hold` sees the trigger value and ports a and b. -/
def runTrigger (s : State) (m : Mv) (k : Need) (hold : State → Value → Value → Value → Bool)
    (body : State → Value → Value → Value → Trig) : State :=
  if guardOn s m = false then s
  else
    match readSource s m.src with
    | .waits => markHeld s
    | .emptyPort sel =>
      let x := curStrand s
      let s1 := raise s k.unit 0x04 (moveWord s Value.zero) (BitVec.ofNat 64 sel)
      if hold s Value.zero (needed x k.a) (needed x k.b) then markHeld s1 else s1
    | .value t =>
      let x := curStrand s
      let held := hold s t (needed x k.a) (needed x k.b)
      match checked s k t body with
      | .fault code w3 =>
        let s1 := raise s k.unit code (moveWord s t) w3
        if held then markHeld s1 else s1
      | .ok s1 => if held then markHeld s else s1

/-- No condition beyond the source holds the trigger. -/
def noHold : State → Value → Value → Value → Bool := fun _ _ _ _ => false

/-- The destination of a move written (R71, R87). -/
def writeDest (x : Strand) (d : MoveDest) (v : Value) : Strand :=
  match d with
  | .x r => writeX x r.toNat v
  | .v r => { x with v := fset x.v r.toNat (toVecValue v) }
  | .c r => writeC x r.toNat v
  | .q i => { x with q := fset x.q i.val (toScalarValue v) }
  | .port o => { x with op := fset x.op o.index (some v) }

/-- Whether a destination is a guard bit that a write reaches: R71 names c1 to c7. DESIGN CHOICE, log entry 67: a poisoned value
moved into c0, whose writes are discarded (R69), raises no fault. -/
def isGuard (d : MoveDest) : Bool :=
  match d with
  | .c r => r != 0
  | _ => false

/-- A move (R71, R77, R78): under a true guard it copies its source to its destination. -/
def runMove (s : State) (m : Mv) (d : MoveDest) : State :=
  if guardOn s m = false then s
  else
    match readSource s m.src with
    | .waits => markHeld s
    | .emptyPort sel => raise s 0 0x04 (moveWord s Value.zero) (BitVec.ofNat 64 sel)
    | .value v => if isGuard d && v.poison then raise s 0 0x0C (moveWord s v) 0 else adjCur s fun x => writeDest x d v

/-- Ordinary outcome of a meaning. -/
abbrev Out := Host.Outcome State Fault Refusal

/-- A meaning that gives a next state. -/
def go (s : State) : Out := .next s

/-- The configuration word of a tile register of a pier (R321). -/
def tileWord (p : Pier) (i : Nat) : Word := fget p.tileCfg i 0
/-- Bytes of an element by format code (R320); the E2M1 column field counts bytes. -/
def tileBytes (f : Nat) : Nat := if f ≤ 1 then 2 else if f = 6 then 4 else if f = 7 then 8 else 1
/-- Row bytes RB of a configured tile (R320). -/
def rowBytes (w : Word) : Nat := (bits w 10 6 + 1) * tileBytes (bits w 0 4)
/-- Rows of a configured tile (R321). -/
def tileRows (w : Word) : Nat := bits w 4 6 + 1
/-- Slots, and so 64-byte steps, of a row (R320). -/
def rowSlots (rb : Nat) : Nat := max 1 (rb / 64)

/-- Cycles of a matrix entry (R117, R189, R319): one for each row step of MLD, MLDW, MST and MZERO. -/
def mxSteps (p : Pier) (e : MEntry) : Nat :=
  let w := tileWord p (bits e.t 0 4)
  match e.op with
  | .mcfg => 1
  | .mld | .mldw => tileRows w * rowSlots (rowBytes w)
  | .mstRaw => if bits e.t 0 5 < 16 then tileRows w * rowSlots (rowBytes w) else 64
  | .mstBf16 => 32
  | .mstF32 => 64
  | .mzero => 64
  | .mma | .mmas => 32
  | .mmaf | .cmma => 128

/-- Whether a matrix entry ends in this cycle, with its last step or as one of a single step (R189, R319, R328). -/
def mxEnds (p : Pier) (cycle : Nat) (e : MEntry) : Bool :=
  match p.mrun with
  | some t => t == e.tok && decide (mxSteps p e ≤ p.mstep + 1)
  | none => p.mq.head? == some e && e.released && decide (e.at_ < cycle) && decide (mxSteps p e ≤ 1)

/-- Whether a bundle in hand triggers ls, whose accesses come ahead of the matrix port's in a cycle (R131). -/
def bundleHasLs (s : State) : Bool := s.issue.slots.any fun b => bitsOf b 13 2 == 1 && bitsOf b 8 5 == 4

/-- Whether a stream command is one of a run: a run keeps its run id and its logical pier wherever it goes (R198, R202, R231). -/
def cmdOfRun (s : State) (pk : Nat) (x : Strand) (c : StreamCmd) : Bool :=
  pkMod c.pk == pkMod pk && jobOf s c.pk == jobOf s pk && c.lp == x.lp.toNat && c.runid == x.runid && c.actor == x.actor.toNat

/-- The engine work of a run that FENCE.eng waits for (R168): its matrix entries, the one that ends in this cycle apart (R328) unless the
bundle has local accesses, which would come ahead of the entry's last step (R131), and its streams and commands, those that a halt has saved included (R178). -/
def engineBusy (s : State) : Bool :=
  let x := curStrand s
  let pk := s.issue.pk
  (curPier s).mq.any (fun e => e.lp == x.lp && e.actor == x.actor && e.runid == x.runid &&
    (bundleHasLs s || !mxEnds (curPier s) s.cycle e)) ||
  (entriesOf x).any (fun e => e.kind == .sg) ||
  (getMod s (pkMod pk)).abuts.any fun a =>
    a.2.ctxs.any (fun c => match c.2 with | none => false | some t => cmdOfRun s pk x t.cmd) ||
    a.2.queue.any (cmdOfRun s pk x) || a.2.savedCtxs.any (fun c => cmdOfRun s pk x c.2.cmd) ||
    a.2.savedQueue.any fun c => cmdOfRun s pk x c.2.2

/-- Whether the opcode of a gm entry is a store: no result (R95). -/
def gmIsStore (op : BitVec 8) : Bool := let l := op.toNat % 64; (8 ≤ l && l < 12) || l = 0x11

/-- The opcode's ordering is a release (R95, R167). -/
def gmIsRel (op : BitVec 8) : Bool := 2 ≤ op.toNat / 64
/-- The opcode's ordering is an acquire (R95, R167). -/
def gmIsAcq (op : BitVec 8) : Bool := op.toNat / 64 % 2 = 1

/-- Whether a request's home lies in a scope of the executing pier (R165). -/
def inScope (s : State) (sc : Scope) (e : Inflight) : Bool := inScopeOf (pkMod s.issue.pk) (curLp s) sc e

/-- The gm entries that the strand had in flight when the bundle was offered (R80, R152; log entry 15). -/
def gmEntries (s : State) : List Inflight := (entriesOf s.issue.pre).filter fun e => e.kind == .gm

/-- The gm requests that the bundle in hand has made. -/
def gmHere (s : State) : List Nat :=
  ((entriesOf (curStrand s)).filter fun e => e.kind == .gm && (gmEntries s).all fun f => f.tok != e.tok).map (·.tok)

/-- Whether the bundle in hand has made a gm request whose home lies in a scope; one that awaits translation has a home not
known yet. -/
def gmHereIn (s : State) (sc : Scope) : Bool :=
  (entriesOf (curStrand s)).any fun e => (gmHere s).contains e.tok && (!e.issued || inScope s sc e)

/-- A gm request of the strand awaits translation (R152). -/
def gmAwaiting (s : State) : Bool := (gmEntries s).any fun e => !e.issued

/-- The hold of R152 on messages, SRADD, GDONE and stream commands: any earlier gm request unacknowledged. -/
def holdRelease (s : State) : Bool := (gmEntries s).length > 0

/-- The waits of a FENCE (R152, R168). An issued acquire holds later gm accesses instead (R167). -/
def fenceHeld (s : State) (kind : Nat) (sc : Scope) : Bool :=
  gmAwaiting s ||
  (gmEntries s).any (fun e => inScope s sc e && (kind ≠ 1 || !gmIsStore e.req.op)) ||
  (kind == 3 && engineBusy s)

/-- An earlier acquire of the strand is not performed yet (R166 row 4, R167). -/
def acqPending (s : State) : Bool := (gmEntries s).any fun e => gmIsAcq e.req.op

/-- The actor whose region an access is checked against; the service actor's region is the whole scratchpad (R36). -/
def regionActor (s : State) (pk a : Nat) : Actor :=
  if a = 63 then { getActor s pk a with rgnbase := 0, rgnlim := 0x40000 } else getActor s pk a

/-- The region check of R36: bytes [o, o+n) inside the actor's region. -/
def inRegion (a : Actor) (o n : Nat) : Bool :=
  let lo := bits a.rgnbase 6 13 * 64
  let hi := bits a.rgnlim 6 13 * 64
  decide (lo ≤ o ∧ o + n ≤ hi)

end Sys2Proof.Machine
end

