-- ==== Sys2Proof/Machine/Int.lean ====
section
/-!
DEFINITION. The meanings of ct, ia, ib and im, of MOVE and NOP, and the landing of results (R277 to R279, R285, R297 to
R300, R306, R313 to R316, R329, R334 to R336, R364, R377).
-/

namespace Sys2Proof.Machine

/-! Moves. -/

/-- MOVE (R329). -/
def execMove (m : Mv) (d : MoveDest) (s : State) : Out := go (runMove s m d)
/-- NOP (R335). -/
def execNop (s : State) : Out := go s

/-! ct. -/

/-- Port a of an integer unit. -/
def aluA : Alu → OpSel
  | .ia => .iaA
  | .ib => .ibA
/-- Port b of an integer unit. -/
def aluB : Alu → OpSel
  | .ia => .iaB
  | .ib => .ibB

/-- The bundle after this one is at an address (R306). -/
def setPc (s : State) (pc : BitVec 12) : State := adjCur s fun x => { x with pc := pc }

/-- What ct triggers need: every trigger value of ct steers (R128). -/
def needCt : Need := { unit := 0, steerT := true }

/-- JMP (R306). -/
def execJmp (m : Mv) (s : State) : Out :=
  go (runTrigger s m needCt noHold fun s t _ _ => .ok (setPc s (BitVec.ofNat 12 (vsc t).toNat)))

/-- JAL (R306). -/
def execJal (m : Mv) (s : State) : Out :=
  go (runTrigger s m needCt noHold fun s t _ _ =>
    .ok (setResult (setPc s (BitVec.ofNat 12 (vsc t).toNat)) (portIx 0 0)
      (Value.ofWord (BitVec.ofNat 64 (s.issue.addr + 1).toNat))))

/-- DONE: the run ends once its results and translations are in (R299). -/
def execDone (m : Mv) (s : State) : Out :=
  go (runTrigger s m needCt noHold fun s _ _ _ => .ok (adjCur s fun x => { x with donePending := true }))

/-- TRAP and BRK: the run stops behind the bundle with a record of code 0x14 (R211, R285, R364). -/
def softTrap (brk : Bool) (s : State) (t : Value) : State :=
  let f : FaultInfo := { code := 0x14, slot := s.issue.slot, unit := 0, w2 := moveWord s t, w3 := vsc t, brk := brk }
  takeFault s s.issue.pk s.issue.strand f s.issue.addr (s.issue.addr + 1)

/-- TRAP (R364). -/
def execTrap (m : Mv) (s : State) : Out := go (runTrigger s m needCt noHold fun s t _ _ => .ok (softTrap false s t))
/-- BRK (R285). -/
def execBrk (m : Mv) (s : State) : Out := go (runTrigger s m needCt noHold fun s t _ _ => .ok (softTrap true s t))

/-- FENCE: it issues once its waits are met and then has no further effect (R168). -/
def runFence (s : State) (m : Mv) (kind : Nat) (sc : Scope) : State :=
  runTrigger s m needCt (fun s _ _ _ => fenceHeld s kind sc) fun s _ _ _ => .ok s

/-- FENCE.full (R168). -/
def execFenceFull (m : Mv) (sc : Scope) (s : State) : Out := go (runFence s m 0 sc)
/-- FENCE.acq (R168). -/
def execFenceAcq (m : Mv) (sc : Scope) (s : State) : Out := go (runFence s m 1 sc)
/-- FENCE.rel (R168). -/
def execFenceRel (m : Mv) (sc : Scope) (s : State) : Out := go (runFence s m 2 sc)
/-- FENCE.eng (R168). -/
def execFenceEng (m : Mv) (sc : Scope) (s : State) : Out := go (runFence s m 3 sc)

/-! ia and ib (R277): 64-bit scalars, latency 1, poison of any value used. -/

/-- A two-operand operation: port a and T. -/
def runAlu2 (s : State) (m : Mv) (u : Alu) (f : Word → Word → Word) : State :=
  runTrigger s m { unit := u.unit, a := some (aluA u) } noHold fun s t a _ =>
    .ok (setResult s (portIx u.unit 0) ⟨.scalar (f (vsc a) (vsc t)), a.poison || t.poison⟩)

/-- A one-operand operation: T alone. -/
def runAlu1 (s : State) (m : Mv) (u : Alu) (f : Word → Word) : State :=
  runTrigger s m { unit := u.unit } noHold fun s t _ _ =>
    .ok (setResult s (portIx u.unit 0) ⟨.scalar (f (vsc t)), t.poison⟩)

/-- ADD: wrap64(A + T) (R278). -/
def execAdd (m : Mv) (u : Alu) (s : State) : Out := go (runAlu2 s m u fun a t => a + t)
/-- SUB: wrap64(A − T) (R334). -/
def execSub (m : Mv) (u : Alu) (s : State) : Out := go (runAlu2 s m u fun a t => a - t)
/-- AND: A and T (R278). -/
def execAnd (m : Mv) (u : Alu) (s : State) : Out := go (runAlu2 s m u fun a t => a &&& t)
/-- OR: A or T (R334). -/
def execOr (m : Mv) (u : Alu) (s : State) : Out := go (runAlu2 s m u fun a t => a ||| t)
/-- XOR: A xor T (R377). -/
def execXor (m : Mv) (u : Alu) (s : State) : Out := go (runAlu2 s m u fun a t => a ^^^ t)
/-- ANDN: A and not T (R278). -/
def execAndn (m : Mv) (u : Alu) (s : State) : Out := go (runAlu2 s m u fun a t => a &&& ~~~t)
/-- SHL: A × 2^s (R334). -/
def execShl (m : Mv) (u : Alu) (s : State) : Out := go (runAlu2 s m u fun a t => shl a t)
/-- SHR: A ÷ 2^s unsigned (R334). -/
def execShr (m : Mv) (u : Alu) (s : State) : Out := go (runAlu2 s m u fun a t => shr a t)
/-- SRA: A ÷ 2^s signed (R334). -/
def execSra (m : Mv) (u : Alu) (s : State) : Out := go (runAlu2 s m u fun a t => sra a t)
/-- ROL: rotation left (R334). -/
def execRol (m : Mv) (u : Alu) (s : State) : Out := go (runAlu2 s m u fun a t => rol a t)
/-- MIN: the lesser, signed (R313). -/
def execMin (m : Mv) (u : Alu) (s : State) : Out := go (runAlu2 s m u fun a t => if ltS t a then t else a)
/-- MIN.u: the lesser, unsigned (R313). -/
def execMinU (m : Mv) (u : Alu) (s : State) : Out := go (runAlu2 s m u fun a t => if ltU t a then t else a)
/-- MAX: the greater, signed (R313). -/
def execMax (m : Mv) (u : Alu) (s : State) : Out := go (runAlu2 s m u fun a t => if ltS a t then t else a)
/-- MAX.u: the greater, unsigned (R313). -/
def execMaxU (m : Mv) (u : Alu) (s : State) : Out := go (runAlu2 s m u fun a t => if ltU a t then t else a)
/-- EQ: 1 if equal (R278). -/
def execEq (m : Mv) (u : Alu) (s : State) : Out := go (runAlu2 s m u fun a t => boolWord (a == t))
/-- NE: 1 if different (R334). -/
def execNe (m : Mv) (u : Alu) (s : State) : Out := go (runAlu2 s m u fun a t => boolWord (a != t))
/-- LT: 1 if A < T signed (R313). -/
def execLt (m : Mv) (u : Alu) (s : State) : Out := go (runAlu2 s m u fun a t => boolWord (ltS a t))
/-- LT.u: 1 if A < T unsigned (R313). -/
def execLtU (m : Mv) (u : Alu) (s : State) : Out := go (runAlu2 s m u fun a t => boolWord (ltU a t))
/-- LE: 1 if A ≤ T signed (R313). -/
def execLe (m : Mv) (u : Alu) (s : State) : Out := go (runAlu2 s m u fun a t => boolWord (!ltS t a))
/-- LE.u: 1 if A ≤ T unsigned (R313). -/
def execLeU (m : Mv) (u : Alu) (s : State) : Out := go (runAlu2 s m u fun a t => boolWord (!ltU t a))
/-- BDEP: bit deposit (R279). -/
def execBdep (m : Mv) (u : Alu) (s : State) : Out := go (runAlu2 s m u fun a t => bdep a t)
/-- BEXT: bit extract (R279). -/
def execBext (m : Mv) (u : Alu) (s : State) : Out := go (runAlu2 s m u fun a t => bext a t)
/-- SEXT: sign extension (R334). -/
def execSext (m : Mv) (u : Alu) (s : State) : Out := go (runAlu2 s m u fun a t => sextFrom a t)
/-- ZEXT: zero extension (R377). -/
def execZext (m : Mv) (u : Alu) (s : State) : Out := go (runAlu2 s m u fun a t => zextFrom a t)
/-- CLZ: leading zeros (R278). -/
def execClz (m : Mv) (u : Alu) (s : State) : Out := go (runAlu1 s m u fun t => clz t)
/-- CTZ: trailing zeros (R278). -/
def execCtz (m : Mv) (u : Alu) (s : State) : Out := go (runAlu1 s m u fun t => ctz t)
/-- POPC: set bits (R334). -/
def execPopc (m : Mv) (u : Alu) (s : State) : Out := go (runAlu1 s m u fun t => popc t)
/-- BREV: bits reversed (R278). -/
def execBrev (m : Mv) (u : Alu) (s : State) : Out := go (runAlu1 s m u fun t => brev t)
/-- SEL: A if T is not 0, else B; poisoned when any of the three is (R334). -/
def execSel (m : Mv) (u : Alu) (s : State) : Out :=
  go (runTrigger s m { unit := u.unit, a := some (aluA u), b := some (aluB u) } noHold fun s t a b =>
    .ok (setResult s (portIx u.unit 0)
      ⟨.scalar (if vsc t ≠ 0 then vsc a else vsc b), a.poison || b.poison || t.poison⟩))

/-! im (R297, R298, R315, R316, R336). -/

/-- A multiply of port a and T: im.r after 3 cycles. -/
def runMul (s : State) (m : Mv) (f : Word → Word → Word) : State :=
  runTrigger s m { unit := 3, a := some .imA } noHold fun s t a _ =>
    .ok (pendResult s 3 3 (some ⟨.scalar (f (vsc a) (vsc t)), a.poison || t.poison⟩) none false none)

/-- MUL (R315). -/
def execMul (m : Mv) (s : State) : Out := go (runMul s m fun a t => a * t)
/-- MULH (R315). -/
def execMulh (m : Mv) (s : State) : Out := go (runMul s m mulHigh)
/-- MULH.u (R315). -/
def execMulhU (m : Mv) (s : State) : Out := go (runMul s m mulHighU)
/-- MAD: A × B + T (R315). -/
def execMad (m : Mv) (s : State) : Out :=
  go (runTrigger s m { unit := 3, a := some .imA, b := some .imB } noHold fun s t a b =>
    .ok (pendResult s 3 3 (some ⟨.scalar (vsc a * vsc b + vsc t), a.poison || b.poison || t.poison⟩) none false none))

/-- A divide waits for the pier's divider and a free in-flight entry (R80, R81, R298). -/
def divHeld (s : State) (_ _ _ : Value) : Bool := (curPier s).divBusy.isSome || (freeEntry (curStrand s)).isNone

/-- A request that stands in an in-flight entry that carries no gm access. -/
def noReq : GmReq :=
  { pk := 0, strand := 0, entry := 0, tok := 0, op := 0, va := 0, mod := 0, loc := 0, dom := 0, val := Value.zero,
    exp := Value.zero, job := 0 }

/-- A divide: quotient and remainder land together after the latency of R298; the entry is held until then. -/
def runDivide (s : State) (m : Mv) (signed remFirst : Bool) : State :=
  runTrigger s m { unit := 3, a := some .imA } divHeld fun s t a _ =>
    let q : Value := ⟨.scalar (quot signed (vsc a) (vsc t)), a.poison || t.poison⟩
    let r : Value := ⟨.scalar (remn signed (vsc a) (vsc t)), a.poison || t.poison⟩
    let tok := s.tok
    let i := (freeEntry (curStrand s)).getD 0
    let e : Inflight :=
      { kind := .div, tok, issued := true, bundle := s.issue.addr, move := moveOf s,
        tlow := BitVec.ofNat 32 (vsc t).toNat, req := noReq, slot := s.issue.slot }
    let p : Pending := { tok, unit := 3, r := some (if remFirst then r else q), h := some (if remFirst then q else r), create := none, seed := false, sample := none }
    let s1 := adjCur { s with tok := tok + 1 } fun x =>
      { pendPort (pendPort x (portIx 3 0) tok true) (portIx 3 1) tok true with pend := x.pend ++ [p], inf := fset x.inf i (some e) }
    let s2 := adjCurPier s1 fun p => { p with divBusy := some tok }
    .ok (schedule s2 (s.cycle + divLatency signed (vsc a) (vsc t)) (.divideComplete s.issue.pk s.issue.strand tok))

/-- DIV (R297). -/
def execDiv (m : Mv) (s : State) : Out := go (runDivide s m true false)
/-- DIV.u (R297). -/
def execDivU (m : Mv) (s : State) : Out := go (runDivide s m false false)
/-- REM (R336). -/
def execRem (m : Mv) (s : State) : Out := go (runDivide s m true true)
/-- REM.u (R336). -/
def execRemU (m : Mv) (s : State) : Out := go (runDivide s m false true)

/-- The results of an operation land in the ports that still wait for it, and its entry goes (R76, R79, R81). -/
def landResults (x : Strand) (tok : Nat) : Strand :=
  match x.pend.find? (fun p => p.tok == tok) with
  | none => x
  | some p =>
    let y := landPort (landPort x (portIx p.unit (if p.unit = 11 then 2 else 0)) tok p.r) (portIx p.unit 1) tok p.h
    { y with
      pend := x.pend.filter fun q => !(q.tok == tok)
      inf := x.inf.filter fun e => match e.2 with | some f => !(f.tok == tok) | none => true }

/-- A divide completes: the divider is free and the results land (R297, R298, R316). -/
def execDivideComplete (pk st tok : Nat) (s : State) : Out :=
  let s1 := adjPier s pk fun p => if p.divBusy = some tok then { p with divBusy := none } else p
  go (adjStrand s1 pk st fun x => landResults x tok)

end Sys2Proof.Machine
end

