-- ==== Sys2Proof/Machine/Float.lean ====
section
/-!
DEFINITION. The number formats, exact arithmetic and rounding (R103 to R116, R122, R123): a floating value is a sign, a
whole mantissa and a power of two, so that every sum and product is exact until the one rounding its rule gives it.
-/

namespace Sys2Proof.Machine

/-- A binary format of R104. `inf` says whether it has infinities; `maxBits` is its largest finite magnitude. -/
structure Fmt where
  ebits : Nat
  fbits : Nat
  bias : Nat
  inf : Bool
  maxBits : Nat
  nanBits : Nat
  deriving DecidableEq, Repr

/-- BF16 (R104). -/
def fmtBf16 : Fmt := ⟨8, 7, 127, true, 0x7F7F, 0x7FC0⟩
/-- FP16 (R104). -/
def fmtFp16 : Fmt := ⟨5, 10, 15, true, 0x7BFF, 0x7E00⟩
/-- FP8 E4M3 (R104). -/
def fmtE4m3 : Fmt := ⟨4, 3, 7, false, 0x7E, 0x7F⟩
/-- FP8 E5M2 (R104). -/
def fmtE5m2 : Fmt := ⟨5, 2, 15, true, 0x7B, 0x7E⟩
/-- FP4 E2M1 (R104): a NaN becomes +0 (R112). -/
def fmtE2m1 : Fmt := ⟨2, 1, 1, false, 0x7, 0x0⟩
/-- FP32 (R104). -/
def fmtFp32 : Fmt := ⟨8, 23, 127, true, 0x7F7FFFFF, 0x7FC00000⟩

/-- A floating value: NaN, an infinity, or ± m × 2^e. -/
inductive FV where
  | nan
  | inf (neg : Bool)
  | fin (neg : Bool) (m : Nat) (e : Int)
  deriving DecidableEq, Repr

/-- The value of a bit pattern (R104). -/
def fvOf (f : Fmt) (b : Nat) : FV :=
  let mag := b % 2 ^ (f.ebits + f.fbits)
  let neg := b / 2 ^ (f.ebits + f.fbits) % 2 == 1
  let ex := mag / 2 ^ f.fbits
  let fr := mag % 2 ^ f.fbits
  if f.maxBits < mag then (if f.inf && fr == 0 then .inf neg else .nan)
  else if ex = 0 then .fin neg fr (1 - (f.bias : Int) - f.fbits)
  else .fin neg (2 ^ f.fbits + fr) ((ex : Int) - f.bias - f.fbits)

/-- The sign bit of a format. -/
def signBit (f : Fmt) (neg : Bool) : Nat := if neg then 2 ^ (f.ebits + f.fbits) else 0

/-- The NaN of a format; E4M3 and the others have one canonical pattern (R111, R112). -/
def nanOf (f : Fmt) : Nat := f.nanBits
/-- What an infinity becomes in a format (R112). -/
def infOf (f : Fmt) (neg : Bool) : Nat := signBit f neg + (if f.inf then f.maxBits + 1 else f.maxBits)

/-- The number of bits of a mantissa. -/
def mantLen (m : Nat) : Nat := if m = 0 then 0 else m.log2 + 1

/-- Whether the magnitude goes up to the next value (R108, R110): `n` the lower value, `rem` of `2^sh` above it. -/
def roundsUp (r : RMode) (neg : Bool) (n rem sh s16 : Nat) : Bool :=
  if rem = 0 then false
  else
    match r with
    | .rne => 2 ^ sh < 2 * rem || (2 * rem == 2 ^ sh && n % 2 == 1)
    | .rz => false
    | .rd => neg
    | .ru => !neg
    | .sr => 2 ^ 16 ≤ rem * 2 ^ 16 / 2 ^ sh + s16

/-- The exponent of the last place of a format at |m × 2^e| (R110). -/
def ulpExp (f : Fmt) (m : Nat) (e : Int) : Int :=
  max ((mantLen m : Int) - 1 + e) (1 - (f.bias : Int)) - f.fbits

/-- Rounding of a magnitude to a multiple of 2^q. -/
def roundAt (r : RMode) (neg : Bool) (m : Nat) (e q : Int) (s16 : Nat) : Nat :=
  if q ≤ e then m * 2 ^ (e - q).toNat
  else
    let sh := (q - e).toNat
    let n := m / 2 ^ sh
    if roundsUp r neg n (m % 2 ^ sh) sh s16 then n + 1 else n

/-- What a magnitude beyond the largest finite value becomes (R109). -/
def overflowOf (f : Fmt) (r : RMode) (neg : Bool) : Nat :=
  if f.inf = false then signBit f neg + f.maxBits
  else
    match r with
    | .rne | .sr => infOf f neg
    | .rz => signBit f neg + f.maxBits
    | .rd => if neg then infOf f neg else f.maxBits
    | .ru => if neg then signBit f neg + f.maxBits else infOf f neg

/-- An exact value rounded to a format (R108 to R112). -/
def roundTo (f : Fmt) (r : RMode) (s16 : Nat) (v : FV) : Nat :=
  match v with
  | .nan => nanOf f
  | .inf neg => infOf f neg
  | .fin neg m e =>
    if m = 0 then signBit f neg
    else
      let q := ulpExp f m e
      let mag := (q + f.fbits + f.bias - 1).toNat * 2 ^ f.fbits + roundAt r neg m e q s16
      if f.maxBits < mag then overflowOf f r neg else signBit f neg + mag

/-- RNE rounding. -/
def rne (f : Fmt) (v : FV) : Nat := roundTo f .rne 0 v

/-- ± m × 2^e as a multiple of 2^q, q ≤ e. -/
def scaled (neg : Bool) (m : Nat) (e q : Int) : Int :=
  let n : Int := ((m * 2 ^ (e - q).toNat : Nat) : Int)
  if neg then -n else n

/-- An exact sum (R111: opposite signs cancel to +0). -/
def fvAdd (a b : FV) : FV :=
  match a, b with
  | .nan, _ => .nan
  | _, .nan => .nan
  | .inf x, .inf y => if x = y then .inf x else .nan
  | .inf x, _ => .inf x
  | _, .inf y => .inf y
  | .fin x m e, .fin y n g =>
    let q := min e g
    let t := scaled x m e q + scaled y n g q
    if t = 0 then .fin (x && y) 0 q else .fin (decide (t < 0)) t.natAbs q

/-- The value with its sign turned. -/
def fvNeg : FV → FV
  | .nan => .nan
  | .inf x => .inf (!x)
  | .fin x m e => .fin (!x) m e

/-- An exact product. -/
def fvMul (a b : FV) : FV :=
  match a, b with
  | .nan, _ => .nan
  | _, .nan => .nan
  | .inf x, .inf y => .inf (x != y)
  | .inf x, .fin y n _ => if n = 0 then .nan else .inf (x != y)
  | .fin x m _, .inf y => if m = 0 then .nan else .inf (x != y)
  | .fin x m e, .fin y n g => .fin (x != y) (m * n) (e + g)

/-- Whether a value is a zero. -/
def fvZero : FV → Bool
  | .fin _ 0 _ => true
  | _ => false

/-- Whether a value is a negative zero. -/
def fvNegZero : FV → Bool
  | .fin true 0 _ => true
  | _ => false

/-- Whether a value is NaN. -/
def fvNan : FV → Bool
  | .nan => true
  | _ => false

/-- Whether a value is finite. -/
def fvFinite : FV → Bool
  | .fin _ _ _ => true
  | _ => false

/-- a < b for values that are no NaN; zeros equal (R111). -/
def fvLt (a b : FV) : Bool :=
  match a, b with
  | .nan, _ => false
  | _, .nan => false
  | .inf x, .inf y => x && !y
  | .inf x, _ => x
  | _, .inf y => !y
  | .fin x m e, .fin y n g => let q := min e g; decide (scaled x m e q < scaled y n g q)

/-- Equality of values (R111). -/
def fvEq (a b : FV) : Bool := !fvNan a && !fvNan b && !fvLt a b && !fvLt b a

/-- Whether a value's sign is negative. -/
def fvSign : FV → Bool
  | .nan => false
  | .inf x => x
  | .fin x _ _ => x

/-- a below b with −0 below +0 (R111). -/
def fvBelow (a b : FV) : Bool := fvLt a b || (!fvLt b a && fvSign a && !fvSign b)

/-- Floating minimum or maximum on bit patterns (R111). -/
def minMaxBits (f : Fmt) (max : Bool) (a b : Nat) : Nat :=
  let x := fvOf f a
  let y := fvOf f b
  if fvNan x || fvNan y then nanOf f
  else if max then (if fvBelow x y then b else a) else (if fvBelow y x then b else a)

/-- An FP32 sum rounded once in RNE on bit patterns (R113, R124). -/
def addF32 (a b : Nat) : Nat := rne fmtFp32 (fvAdd (fvOf fmtFp32 a) (fvOf fmtFp32 b))

/-- A value rounded to an integer between bounds (R108, R109, R112): NaN gives 0. -/
def roundInt (lo hi : Int) (r : RMode) (s16 : Nat) (v : FV) : Int :=
  match v with
  | .nan => 0
  | .inf neg => if neg then lo else hi
  | .fin neg m e =>
    let n : Int := ((roundAt r neg m e 0 s16 : Nat) : Int)
    max lo (min hi (if neg then -n else n))

/-- An integer as a value. -/
def fvOfInt (i : Int) : FV := .fin (decide (i < 0)) i.natAbs 0

/-- A power of two from an E8M0 byte (R104, R112). -/
def fvOfE8m0 (b : Nat) : FV := if b = 255 then .nan else .fin false 1 ((b : Int) - 127)

/-- A value rounded to E8M0 (R112): a format with no fraction bits, the sign ignored. -/
def roundE8m0 (r : RMode) (s16 : Nat) (v : FV) : Nat :=
  match v with
  | .nan => 255
  | .inf _ => 255
  | .fin neg m e =>
    if m = 0 then 0
    else
      let top : Int := (mantLen m : Int) - 1
      let rem := m - 2 ^ top.toNat
      -- lower power 2^(top+e); the exponent field is top + e + 127; a tie takes the even field
      let fld : Int := top + e + 127
      let up := roundsUp r (neg && false) (if fld % 2 = 0 then 0 else 1) rem top.toNat s16
      let k := if up then fld + 1 else fld
      if k < 0 then 0 else if 254 < k then 254 else k.toNat

/-- One step of the stochastic generator (R110). -/
def xorshift (s : BitVec 32) : BitVec 32 :=
  let a := s ^^^ (s <<< 13)
  let b := a ^^^ (a >>> 17)
  b ^^^ (b <<< 5)

/-- The integer square root by bits from `2^k` down. -/
def isqrtFrom (n : Nat) : Nat → Nat → Nat
  | 0, r => if (r + 1) * (r + 1) ≤ n then r + 1 else r
  | k + 1, r => isqrtFrom n k (if (r + 2 ^ (k + 1)) * (r + 2 ^ (k + 1)) ≤ n then r + 2 ^ (k + 1) else r)

/-- The integer square root. -/
def isqrt (n : Nat) : Nat := isqrtFrom n (mantLen n / 2 + 1) 0

/-- 1 / x for a finite x that is not zero, exact to far beyond FP32 with a sticky last bit (R115). -/
def fvRecip (neg : Bool) (m : Nat) (e : Int) : FV :=
  let k := mantLen m + 64
  .fin neg (2 * (2 ^ k / m) + (if 2 ^ k % m = 0 then 0 else 1)) (-(k : Int) - e - 1)

/-- √(m × 2^e) with a sticky last bit (R115). -/
def fvSqrt (m : Nat) (e : Int) : FV :=
  let m' := if e % 2 = 0 then m else 2 * m
  let e' := if e % 2 = 0 then e else e - 1
  let n := m' * 2 ^ 128
  let q := isqrt n
  .fin false (2 * q + (if q * q = n then 0 else 1)) (e' / 2 - 64 - 1)

/-- 1 / √(m × 2^e) with a sticky last bit (R115). -/
def fvRsqrt (m : Nat) (e : Int) : FV :=
  let m' := if e % 2 = 0 then m else 2 * m
  let e' := if e % 2 = 0 then e else e - 1
  let k := mantLen m' + 64
  let q := isqrt (2 ^ (2 * k) / m')
  .fin false (2 * q + (if q * q * m' = 2 ^ (2 * k) then 0 else 1)) (-(k : Int) - e' / 2 - 1)

/-! The fixed trees of R114 and R122. -/

/-- One level of a pairwise tree; absent nodes pass their sibling on. -/
def treeLevel {α : Type} (f : α → α → α) : List (Option α) → List (Option α)
  | [] => []
  | [a] => [a]
  | a :: b :: l =>
    (match a, b with
     | some x, some y => some (f x y)
     | some x, none => some x
     | none, y => y) :: treeLevel f l

/-- The root of a pairwise tree of at most 2^n leaves. -/
def treeRoot {α : Type} (f : α → α → α) : Nat → List (Option α) → Option α
  | 0, l => (l.head?).join
  | n + 1, l => treeRoot f n (treeLevel f l)

/-- The rank of a score for top-k (R123): NaN lowest, then by value, −0 below +0. -/
def scoreAbove (a b : Nat) : Bool :=
  let x := fvOf fmtFp32 a
  let y := fvOf fmtFp32 b
  if fvNan x then false else if fvNan y then true else fvBelow y x

/-- Whether an entry (score in the low word, id in the high word) ranks before another (R123). DESIGN CHOICE, log entry 75: two NaNs with
different bits are ranked as equal scores are, by their ids. -/
def ranksBefore (a b : Word) : Bool :=
  let sa := a.toNat % 2 ^ 32
  let sb := b.toNat % 2 ^ 32
  if sa = sb then decide (a.toNat / 2 ^ 32 < b.toNat / 2 ^ 32)
  else if scoreAbove sa sb then true
  else if scoreAbove sb sa then false
  else decide (a.toNat / 2 ^ 32 < b.toNat / 2 ^ 32)

/-- An entry put in ranked order. -/
def insertRanked (a : Word) : List Word → List Word
  | [] => [a]
  | b :: l => if ranksBefore a b then a :: b :: l else b :: insertRanked a l

/-- The best `k` entries in ranked order (R123). -/
def topK (k : Nat) (l : List Word) : List Word := (l.foldl (fun acc a => insertRanked a acc) []).take k

end Sys2Proof.Machine
end

