-- ==== Sys2Proof/Machine/Ls.lean ====
section
/-!
DEFINITION. The meanings of ls (R36, R126, R131, R132, R281 to R283, R286, R287, R310, R311, R359, R360, R375, R376), and
the memory operations that aperture accesses share with it.
-/

namespace Sys2Proof.Machine

/-- Whether an offset lies in the slice status word, which belongs to the slice (R130, R141). -/
def inStatus (a : Nat) : Bool := a / 8 == 0x3FF80 / 8

/-- Bytes of a pier's scratchpad (R130, R141). -/
def spadRead (s : State) (pk a n : Nat) : Nat :=
  let st := (getSite s (siteKey s pk)).status.toNat
  if inStatus a then
    (if n ≤ 8 then st / 2 ^ (8 * (a % 8)) % 2 ^ (8 * n) else mread (getPier s pk).spad (a + 8) (n - 8) * 2 ^ 64 + st)
  else mread (getPier s pk).spad a n

/-- Whether the granule of an offset is poisoned. -/
def spadPoisoned (s : State) (pk a : Nat) : Bool := pget (getPier s pk).spadPoison a

/-- The bits that are kept of the 8-byte word of an offset: all, but for the reserved ones of a dirty-log entry, of a link entry and of the
slice status word, which are not written and read as zero (R5, R65, R141, R155). -/
def svcMask (a : Nat) : Nat :=
  if inStatus a then 0xC000000000000FFF
  else if 0x3FF00 ≤ a ∧ a < 0x3FF80 then 0xFFFF01FFFFFFFC00
  else if 0x3F000 ≤ a ∧ a < 0x3F800 then 0xEFFF007FFFFFFFFF
  else 0xFFFFFFFFFFFFFFFF

/-- What is kept of `n` bytes written at an offset (R5). -/
def svcKeep (a n v : Nat) : Nat :=
  if a + n ≤ 0x3F000 then v
  else if n ≤ 8 then v &&& (svcMask a / 2 ^ (8 * (a % 8)))
  else (List.range ((n + 7) / 8)).foldr (fun i k => ((v / 2 ^ (64 * i) % 2 ^ 64) &&& svcMask (a + 8 * i)) + 2 ^ 64 * k) 0

/-- Bytes of a pier's scratchpad written as one access, with the change of the poison marks; those of the status word go to
the site (R130, R141). -/
def spadPut (s : State) (pk a n v : Nat) (g : FMap Bool → FMap Bool) : State :=
  let w := svcKeep a n v
  if inStatus a then
    adjPier (adjSite s (siteKey s pk) fun x => { x with status := setBits x.status (8 * (a % 8)) (8 * n) w }) pk fun p =>
      { p with
        spad := if n ≤ 8 then p.spad else mwrite p.spad (a + 8) (n - 8) (w / 2 ^ 64)
        spadPoison := g p.spadPoison }
  else adjPier s pk fun p => { p with spad := mwrite p.spad a n w, spadPoison := g p.spadPoison }

/-- Bytes of a pier's scratchpad written as one access, with their poison (R126). -/
def spadWrite (s : State) (pk a n v : Nat) (poison : Bool) : State := spadPut s pk a n v fun m => pstore m a n poison

/-- The valid lanes of a vector written over 64 bytes (R375). -/
def laneMerge (old new : Nat) (mask : BitVec 16) : Nat :=
  (rowOf fun i => if mask.toNat / 2 ^ i % 2 = 1 then laneOf (BitVec.ofNat 512 new) i else laneOf (BitVec.ofNat 512 old) i).toNat

/-- A vector store (R375, R376): nothing is written where no lane is valid; only a full clean store clears poison. -/
def spadWriteVec (s : State) (pk a : Nat) (row : Row) (mask : BitVec 16) (poison : Bool) : State :=
  if mask = 0 then s
  else
    spadPut s pk a 64 (laneMerge (spadRead s pk a 64) row.toNat mask) fun m =>
      pstore m a (if mask = 0xFFFF then 64 else 4) poison

/-- Bytes of a size code: 1, 2, 4, 8 (R95). -/
def sizeBytes (z : Nat) : Nat := 2 ^ (z % 4)

/-- A loaded value extended to 64 bits (R310): form bit 2 is zero extension. -/
def extendLoad (f : BitVec 3) (v : Nat) : Word :=
  let n := 8 * sizeBytes f.toNat
  if f.toNat < 4 then
    BitVec.ofInt 64 (if v % 2 ^ n < 2 ^ (n - 1) then ((v % 2 ^ n : Nat) : Int) else ((v % 2 ^ n : Nat) : Int) - ((2 ^ n : Nat) : Int))
  else BitVec.ofNat 64 (v % 2 ^ n)

/-- The new value of an atomic operation on `n` bits (R124, R281). -/
def atomNew (op : AtOp) (n old t : Nat) : Nat :=
  let o := old % 2 ^ n
  let v := t % 2 ^ n
  let sg (x : Nat) : Int := if x < 2 ^ (n - 1) then (x : Int) else (x : Int) - ((2 ^ n : Nat) : Int)
  match op with
  | .add => (o + v) % 2 ^ n
  | .and => o &&& v
  | .or => o ||| v
  | .xor => o ^^^ v
  | .min => if sg v < sg o then v else o
  | .max => if sg o < sg v then v else o
  | .minU => min o v
  | .maxU => max o v
  | .xchg => v
  | .fadd => addF32 o v

/-- Bytes of an atomic: .w is 4 (R281). -/
def atBytes (w : Bool) : Nat := if w then 4 else 8

/-- What an atomic or a CAS leaves in its bytes, whether its granule is poisoned, and what it returns (R126, R282, R287). -/
structure AtRes where
  new : Nat
  poison : Bool
  r : Value
  h : Value

/-- An atomic on bytes that hold `old` (R282). -/
def atomDo (op : AtOp) (w : Bool) (old : Nat) (pz : Bool) (t : Value) : AtRes :=
  let n := 8 * atBytes w
  { new := atomNew op n old (vsc t).toNat, poison := pz || t.poison,
    r := ⟨.scalar (BitVec.ofNat 64 (old % 2 ^ n)), pz⟩, h := Value.zero }

/-- A compare and swap on bytes that hold `old` (R287). -/
def casDo (w : Bool) (old : Nat) (pz : Bool) (t b : Value) : AtRes :=
  let n := 8 * atBytes w
  let hit := old % 2 ^ n == (vsc b).toNat % 2 ^ n
  { new := if hit then (vsc t).toNat % 2 ^ n else old % 2 ^ n, poison := pz || t.poison || b.poison,
    r := ⟨.scalar (BitVec.ofNat 64 (old % 2 ^ n)), pz⟩, h := ⟨.scalar (boolWord hit), pz || b.poison⟩ }

/-- An atomic's result written to a pier's scratchpad: the granule is poisoned or stays as it is (R126). -/
def spadAtom (s : State) (pk a n : Nat) (x : AtRes) : State :=
  spadPut s pk a n x.new fun m => if x.poison then pset m a true else m

/-- The checks of ls: alignment, then the region (R36, R132); w3 is the address. -/
def lsChecked (s : State) (addr : Word) (n : Nat) (k : Trig) : Trig :=
  if addr.toNat % n ≠ 0 then .fault 0x07 addr
  else if inRegion (regionActor s s.issue.pk (curActorIx s)) addr.toNat n = false then .fault 0x06 addr
  else k

/-- An earlier acquire holds ls accesses until it is performed (R167). -/
def lsHeld (s : State) (_ _ _ : Value) : Bool := acqPending s

/-- LDL (R310, R311). -/
def execLdl (m : Mv) (f : BitVec 3) (s : State) : Out :=
  go (runTrigger s m { unit := 4, a := some .lsA, steerT := true, steerA := true } lsHeld fun s t a _ =>
    let addr := vsc a + vsc t
    lsChecked s addr (sizeBytes f.toNat)
      (.ok (pendResult s 4 3 (some ⟨.scalar (extendLoad f (spadRead s s.issue.pk addr.toNat (sizeBytes f.toNat))),
        spadPoisoned s s.issue.pk addr.toNat⟩) none false none)))

/-- STL (R359, R360). -/
def execStl (m : Mv) (z : BitVec 2) (s : State) : Out :=
  go (runTrigger s m { unit := 4, a := some .lsA, steerA := true } lsHeld fun s t a _ =>
    let n := sizeBytes z.toNat
    lsChecked s (vsc a) n (.ok (spadWrite s s.issue.pk (vsc a).toNat n ((vsc t).toNat % 2 ^ (8 * n)) t.poison)))

/-- VLDL (R375). -/
def execVldl (m : Mv) (s : State) : Out :=
  go (runTrigger s m { unit := 4, a := some .lsA, steerT := true, steerA := true } lsHeld fun s t a _ =>
    let addr := vsc a + vsc t
    lsChecked s addr 64
      (.ok (pendResult s 4 3 (some ⟨.vec (BitVec.ofNat 512 (spadRead s s.issue.pk addr.toNat 64)) 0xFFFF,
        spadPoisoned s s.issue.pk addr.toNat⟩) none false none)))

/-- VSTL (R375). -/
def execVstl (m : Mv) (s : State) : Out :=
  go (runTrigger s m { unit := 4, a := some .lsA, steerA := true } lsHeld fun s t a _ =>
    lsChecked s (vsc a) 64 (.ok (spadWriteVec s s.issue.pk (vsc a).toNat (vlanes t) (vmaskOf t) t.poison)))

/-- Whether an aperture atomic arrives at the pier in this cycle. -/
def atomArrives (s : State) : Bool :=
  s.agenda.any fun w =>
    match w with
    | .ev (.apertureAccess r) => decide (32 ≤ r.op.toNat % 64) && (bits r.va 33 10 == pkLp s.issue.pk) && (bits r.va 43 12 == pkMod s.issue.pk)
    | _ => false

/-- The latency of a local atomic: 3, and a free value up to 7 while the pipeline also takes arriving requests
(R79, log entry 8). -/
def atomLatency (s : State) : Nat := if atomArrives s then 3 + Config.latency s.fresh % 5 else 3

/-- The result of a local atomic. -/
def atomResult (s : State) (r h : Option Value) : State :=
  pendResult (if atomArrives s then tick1 s else s) 4 (atomLatency s) r h false none

/-- ATL (R281 to R283). -/
def execAtl (m : Mv) (op : AtOp) (w : Bool) (s : State) : Out :=
  go (runTrigger s m { unit := 4, a := some .lsA, steerA := true } lsHeld fun s t a _ =>
    let n := atBytes w
    lsChecked s (vsc a) n
      (let x := atomDo op w (spadRead s s.issue.pk (vsc a).toNat n) (spadPoisoned s s.issue.pk (vsc a).toNat) t
       .ok (atomResult (spadAtom s s.issue.pk (vsc a).toNat n x) (some x.r) none)))

/-- CASL (R286, R287). -/
def execCasl (m : Mv) (w : Bool) (s : State) : Out :=
  go (runTrigger s m { unit := 4, a := some .lsA, b := some .lsB, steerA := true } lsHeld fun s t a b =>
    let n := atBytes w
    lsChecked s (vsc a) n
      (let x := casDo w (spadRead s s.issue.pk (vsc a).toNat n) (spadPoisoned s s.issue.pk (vsc a).toNat) t b
       .ok (atomResult (spadAtom s s.issue.pk (vsc a).toNat n x) (some x.r) (some x.h))))

end Sys2Proof.Machine
end

