-- ==== Sys2Proof/Machine/Xlate.lean ====
section
/-!
DEFINITION. HBM and translation: where a local address lies, the page tables, one step of a walk and whole walks
(R142 to R150, R155, R156).
-/

namespace Sys2Proof.Machine

/-- The DRAM byte of a local address under an interleave domain (R144): (stack × 128 + pseudo-channel) × 2^29 + D. -/
def dramLoc (dom : Nat) (l : Nat) : Nat :=
  match dom with
  | 0 => ((l / 2 ^ 37 % 4 * 2 + l / 2 ^ 8 % 2) * 128 + l / 2 ^ 9 % 128) * 2 ^ 29 + l / 2 ^ 16 % 2 ^ 21 * 256 + l % 256
  | 1 => ((l / 2 ^ 8 % 4 * 2 + l / 2 ^ 10 % 2) * 128 + l / 2 ^ 11 % 128) * 2 ^ 29 + l / 2 ^ 18 % 2 ^ 21 * 256 + l % 256
  | _ => (l / 2 ^ 36 % 8 * 128 + l / 2 ^ 8 % 128) * 2 ^ 29 + l / 2 ^ 15 % 2 ^ 21 * 256 + l % 256

/-- The abutment that owns a DRAM byte (R15, R16). -/
def abutOf (d : Nat) : Nat :=
  let stack := d / 2 ^ 36
  stack / 2 * 32 + stack % 2 * 16 + d / 2 ^ 29 % 128 / 8

/-- Bytes of HBM inside one 256-byte block. -/
def hbmRead (s : State) (m dom l n : Nat) : Nat := mread (getMod s m).hbm (dramLoc dom l) n

/-- Whether the granule of an HBM byte is poisoned (R125). -/
def hbmPoisoned (s : State) (m dom l : Nat) : Bool := pget (getMod s m).hbmPoison (dramLoc dom l)

/-- The lease of the line of a DRAM byte ended by an access from elsewhere; the line is written back (R161). -/
def endLease (s : State) (m loc : Nat) : State :=
  if (getMod s m).leases.any (fun l => l.1 == loc / 64) then
    adjMod s m fun x => { x with leases := x.leases.filter fun l => !(l.1 == loc / 64) }
  else s

/-- Bytes of HBM inside one 64-byte granule written as one access (R126, R161). -/
def hbmWrite (s : State) (m dom l n v : Nat) (poison : Bool) : State :=
  adjMod (endLease s m (dramLoc dom l)) m fun x =>
    { x with hbm := mwrite x.hbm (dramLoc dom l) n v, hbmPoison := pstore x.hbmPoison (dramLoc dom l) n poison }

/-- Bits set in a table entry, an atomic OR at its home (R147, R161). -/
def hbmOr (s : State) (m dom l : Nat) (bit : Nat) : State :=
  adjMod (endLease s m (dramLoc dom l)) m fun x =>
    { x with hbm := mwrite x.hbm (dramLoc dom l) 8 (mread x.hbm (dramLoc dom l) 8 ||| 2 ^ bit) }

/-- The index of an address at a level of the tables (R146). -/
def levelIndex (va : Word) (level : Nat) : Nat := if level = 3 then bits va 46 9 else bits va (16 + 10 * level) 10

/-- Bytes of the page of a leaf (R148). -/
def pageSize (leaf : Word) (level : Nat) : Nat :=
  match level with
  | 0 => if bitAt leaf 59 then 2 ^ 21 else 2 ^ 16
  | 1 => 2 ^ 26
  | _ => 2 ^ 36

/-- The local address of a leaf's page (R147, R148): a group page starts with frame [4:0] cleared. -/
def pageBase (leaf : Word) (level : Nat) : Nat :=
  let f := bits leaf 12 24
  (if level = 0 ∧ bitAt leaf 59 then f / 32 * 32 else f) * 2 ^ 16

/-- Whether a leaf's frame is aligned to its page (R148). -/
def frameAligned (leaf : Word) (level : Nat) : Bool :=
  match level with
  | 0 => true
  | 1 => bits leaf 12 24 % 2 ^ 10 == 0
  | _ => bits leaf 12 24 % 2 ^ 20 == 0

/-- Whether a leaf grants what an access needs: bit 2 read, bit 1 write, bit 0 atomic, as bits [62:60] (R147, R160). -/
def grants (leaf : Word) (need : BitVec 3) : Bool := leaf.extractLsb' 60 3 &&& need == need

/-- A table node: module, domain, local address. -/
structure Node where
  mod : Nat
  dom : Nat
  loc : Nat
  deriving DecidableEq, Repr

/-- One step of a walk (R149): a node to read next, a leaf with the place of its entry, an end, or a moving entry. -/
inductive WStep where
  | next (n : Node)
  | leaf (e : Word) (at_ : Node)
  | ends (o : WalkOut)
  | moving
  deriving DecidableEq, Repr

/-- The entry of an address in a node. -/
def entryAt (n : Node) (va : Word) (level : Nat) : Node := { n with loc := n.loc + 8 * levelIndex va level }

/-- The local address of a byte under a leaf. -/
def physOf (leaf : Word) (level : Nat) (va : Word) : Nat := pageBase leaf level + va.toNat % pageSize leaf level

/-- One entry read and judged by the first matching row of R149, a local address beyond HBM by R143; `from_` is the module that walks. -/
def walkEntry (s : State) (from_ : Nat) (n : Node) (level : Nat) (va : Word) (need : BitVec 3) : WStep :=
  let a := entryAt n va level
  if reachable s from_ n.mod = false ∨ 2 ^ 39 ≤ a.loc ∨ n.dom = 3 then .ends .fail
  else if hbmPoisoned s n.mod n.dom a.loc then .ends .poison
  else
    let e : Word := BitVec.ofNat 64 (hbmRead s n.mod n.dom a.loc 8)
    let isLeaf := level == 0 || (bitAt e 53 && level != 3)
    if bitAt e 63 ∧ reachable s from_ (bits e 36 12) = false ∧ bitAt e 54 then .ends .fail
    else if bitAt e 54 then .moving
    else if bitAt e 63 = false then .ends .notPresent
    else if bits e 55 2 = 3 ∨ bits e 48 5 ≠ 0 ∨ (level = 3 ∧ bitAt e 53) ∨ (isLeaf ∧ frameAligned e level = false) then .ends .fail
    else if isLeaf then
      (if reachable s from_ (bits e 36 12) = false then .ends .fail
       else if grants e need = false then .ends .permission
       else if 2 ^ 39 ≤ physOf e level va then .ends .fail
       else .leaf e a)
    else .next { mod := bits e 36 12, dom := bits e 55 2, loc := bits e 9 27 * 2 ^ 13 }

/-- The root of a pier's tables (R146): none where the word is not valid. -/
def rootNode (x : Word) : Option Node :=
  if bitAt x 63 then some { mod := bits x 36 12, dom := 0, loc := bits x 9 27 * 2 ^ 13 } else none

/-- Whole walks, for the agents and engines whose walk the manual gives no steps of their own. -/
inductive Walked where
  | leaf (e : Word) (level : Nat) (at_ : Node)
  | ends (o : WalkOut)
  | moving
  deriving DecidableEq, Repr

/-- A walk from a node down. -/
def walkFrom (s : State) (from_ : Nat) (va : Word) (need : BitVec 3) : Nat → Node → Walked
  | 0, n =>
    match walkEntry s from_ n 0 va need with
    | .leaf e a => .leaf e 0 a
    | .ends o => .ends o
    | .moving => .moving
    | .next _ => .ends .fail
  | l + 1, n =>
    match walkEntry s from_ n (l + 1) va need with
    | .leaf e a => .leaf e (l + 1) a
    | .ends o => .ends o
    | .moving => .moving
    | .next n' => walkFrom s from_ va need l n'

/-- A whole walk of an address through a root word. -/
def walkAll (s : State) (from_ : Nat) (root : Word) (va : Word) (need : BitVec 3) : Walked :=
  match rootNode root with
  | none => .ends .fail
  | some n => walkFrom s from_ va need 3 n

/-- The fault code of a walk outcome (R149). -/
def walkCode : WalkOut → Nat
  | .ok _ _ => 0
  | .notPresent => 0x09
  | .permission => 0x0A
  | .fail => 0x0B
  | .poison => 0x0C

/-- A cached translation made from a leaf (R150). -/
def tentryOf (job : BitVec 12) (va leaf : Word) (level : Nat) : TEntry :=
  { job, base := va.toNat / pageSize leaf level * pageSize leaf level, size := pageSize leaf level, leaf,
    dirty := bitAt leaf 57 }

/-- The cached entry that holds an address of a job. -/
def cacheFind (l : List TEntry) (job : BitVec 12) (va : Word) : Option TEntry :=
  l.find? fun e => e.job == job && decide (e.base ≤ va.toNat ∧ va.toNat < e.base + e.size)

/-- The level of a cached page. -/
def sizeLevel (n : Nat) : Nat := if n = 2 ^ 26 then 1 else if n = 2 ^ 36 then 2 else 0

/-- The size code of a page in the dirty log and in TLBI (R155, R157). -/
def sizeCode (n : Nat) : Nat := if n = 2 ^ 16 then 0 else if n = 2 ^ 21 then 1 else if n = 2 ^ 26 then 2 else 3

/-- The bytes of a size code. -/
def codeSize (c : Nat) : Nat := match c with | 0 => 2 ^ 16 | 1 => 2 ^ 21 | 2 => 2 ^ 26 | _ => 2 ^ 36

/-- An entry of the dirty log (R155). -/
def dlogEntry (job : BitVec 12) (e : TEntry) : Word :=
  BitVec.ofNat 64 (2 ^ 63 + sizeCode e.size * 2 ^ 61 + job.toNat * 2 ^ 48 + e.base / 2 ^ 16 % 2 ^ 39)

/-- An entry appended to a pier's dirty log, and the cached entry no longer clean (R155). -/
def dlogAppend (s : State) (pk : Nat) (e : TEntry) : State :=
  let s1 := adjPier s pk fun p =>
    let i := (p.dlogHead.toNat + p.dlogCount) % 256
    { p with spad := mwrite p.spad (0x3F000 + 8 * i) 8 (dlogEntry (jobOf s pk) e).toNat, dlogCount := p.dlogCount + 1 }
  let s2 := adjSite s1 (siteKey s pk) fun x =>
    { x with tcache := x.tcache.map fun f => if f = e then { f with dirty := true } else f }
  if (getPier s2 pk).dlogCount = 128 then schedule s2 (s2.cycle + 1) (.dirtyLogMerge pk) else s2

/-- Where the leaf of a logged page lies: an entry that is being moved is still the place of its dirty bit, a node that is being
moved is waited for, and there may be no leaf (R154, R156, R159). -/
inductive MergeAt where
  | leaf (n : Node)
  | waits
  | gone
  deriving DecidableEq, Repr

/-- The walk of a merge from a node down. -/
def mergeFrom (s : State) (from_ : Nat) (va : Word) : Nat → Node → MergeAt
  | 0, n =>
    match walkEntry s from_ n 0 va 0 with
    | .leaf _ a => .leaf a
    | .moving => .leaf (entryAt n va 0)
    | _ => .gone
  | l + 1, n =>
    match walkEntry s from_ n (l + 1) va 0 with
    | .leaf _ a => .leaf a
    | .moving =>
      let a := entryAt n va (l + 1)
      if l ≠ 2 ∧ hbmRead s a.mod a.dom a.loc 8 / 2 ^ 53 % 2 = 1 then .leaf a else .waits
    | .next n' => mergeFrom s from_ va l n'
    | .ends _ => .gone

/-- The address of the page of a dirty-log entry (R155). -/
def loggedVa (e : Word) : Word := BitVec.ofNat 64 (bits e 0 39 * 2 ^ 16)

/-- Where the oldest entry of a pier's dirty log is merged. -/
def mergeHead (s : State) (pk : Nat) : MergeAt :=
  let p := getPier s pk
  match rootNode p.xlroot with
  | none => .gone
  | some n => mergeFrom s (pkMod pk) (loggedVa (mword p.spad (0x3F000 + 8 * p.dlogHead.toNat))) 3 n

/-- Whether the oldest entry of a pier's dirty log waits for a node that is being moved; a walk tries that 16 times (R149). -/
def mergeWaits (s : State) (pk : Nat) : Bool :=
  decide (0 < (getPier s pk).dlogCount) && mergeHead s pk == .waits && decide ((getPier s pk).mergeTries < 16)

/-- One entry of the dirty log merged (R156): the leaf's dirty bit is set, the entry's valid bit cleared, the head
advanced. -/
def dlogMergeOne (s : State) (pk : Nat) : State :=
  let p := getPier s pk
  if p.dlogCount = 0 then s
  else
    let a := 0x3F000 + 8 * p.dlogHead.toNat
    let e := mword p.spad a
    let s1 := match mergeHead s pk with
      | .leaf n => hbmOr s n.mod n.dom n.loc 57
      | _ => s
    adjPier s1 pk fun q =>
      { q with spad := mwrite q.spad a 8 (e.toNat % 2 ^ 63), dlogHead := q.dlogHead + 1, dlogCount := q.dlogCount - 1, mergeTries := 0 }

/-- Whether a merge of a pier's log is in the calendar. -/
def isMerge (pk : Nat) (e : Nat × Instr) : Bool := match e.2 with | .dirtyLogMerge q => q == pk | _ => false

/-- A number of entries merged, up to one that waits; that one is tried again (R149, R156). -/
def dlogMerge (s : State) (pk : Nat) : Nat → State
  | 0 => s
  | n + 1 =>
    if mergeWaits s pk then (if s.cal.any (isMerge pk) then s else schedule s (s.cycle + 4096) (.dirtyLogMerge pk))
    else dlogMerge (dlogMergeOne s pk) pk n

/-- A span agent merges a pier's dirty log (R156). -/
def execDirtyLogMerge (pk : Nat) (s : State) : Out :=
  let s1 := if mergeWaits s pk then adjPier s pk fun p => { p with mergeTries := p.mergeTries + 1 } else s
  go (dlogMerge s1 pk (getPier s pk).dlogCount)

/-! Byte ranges by virtual address, for the agents and engines that move more than one access. -/

/-- The first addresses of the 64 KiB pieces that a range touches, each one no page crosses. -/
def pieces (va : Word) (n : Nat) : List Word :=
  (List.range ((va.toNat % 65536 + n + 65535) / 65536)).map fun i =>
    if i = 0 then va else BitVec.ofNat 64 ((va.toNat / 65536 + i) * 65536)

/-- The walks of a range: the first piece that ends in no leaf, with what ends it. -/
def hostWalk (s : State) (m : Nat) (root : Word) (need : BitVec 3) (l : List Word) : Option (Word × Walked) :=
  l.findSome? fun va =>
    match walkAll s m root va need with
    | .leaf e lv _ => if 2 ^ 39 ≤ physOf e lv va ∨ reachable s m (bits e 36 12) = false then some (va, .ends .fail) else none
    | w => some (va, w)

/-- Whether the walks of a range wait for an entry that is being moved (R149). -/
def vaMoving (s : State) (m : Nat) (root va : Word) (need : BitVec 3) (n : Nat) : Bool :=
  match hostWalk s m root need (pieces va n) with
  | some (_, .moving) => true
  | _ => false

/-- The leases of the lines of a range that is read end (R161). -/
def vaTouch (s : State) (m : Nat) (root va : Word) (n : Nat) : State :=
  (List.range ((va.toNat % 64 + n + 63) / 64)).foldl (fun s i =>
    let a : Word := BitVec.ofNat 64 ((va.toNat / 64 + i) * 64)
    match walkAll s m root a 0 with
    | .leaf e lv _ => endLease s (bits e 36 12) (dramLoc (bits e 55 2) (physOf e lv a))
    | _ => s) s

/-- The bytes of `n` addresses from a virtual address, or the outcome and address at which the walk fails. A poisoned
byte reads with its mark. -/
def vaRead (s : State) (from_ : Nat) (root : Word) (va : Word) : Nat → Except (WalkOut × Word) (List (Byte × Bool))
  | 0 => .ok []
  | n + 1 =>
    match walkAll s from_ root va 4 with
    | .leaf e lv _ =>
      let l := physOf e lv va
      let m := bits e 36 12
      if 2 ^ 39 ≤ l ∨ reachable s from_ m = false then .error (.fail, va)
      else
        match vaRead s from_ root (va + 1) n with
        | .error x => .error x
        | .ok r => .ok ((BitVec.ofNat 8 (hbmRead s m (bits e 55 2) l 1), hbmPoisoned s m (bits e 55 2) l) :: r)
    | .ends o => .error (o, va)
    | .moving => .error (.fail, va)

/-- The first page of `n` addresses from a virtual address that does not grant what is needed, with its outcome. -/
def vaWritable (s : State) (from_ : Nat) (root : Word) (va : Word) (need : BitVec 3) (n : Nat) : Option (WalkOut × Word) :=
  if n = 0 then none
  else
    match hostWalk s from_ root need (pieces va n) with
    | some (v, .ends o) => some (o, v)
    | some (v, _) => some (.fail, v)
    | none => none

/-- One byte written by virtual address where it is mapped; who writes has been granted the right. -/
def vaPoke (s : State) (from_ : Nat) (root : Word) (va : Word) (b : Byte) (poison : Bool) : State :=
  match walkAll s from_ root va 0 with
  | .leaf e lv _ =>
    let l := physOf e lv va
    if 2 ^ 39 ≤ l then s else hbmWrite s (bits e 36 12) (bits e 55 2) l 1 b.toNat poison
  | _ => s

/-- Bytes written by virtual address. -/
def vaWrite (s : State) (from_ : Nat) (root : Word) (va : Word) : List Byte → State
  | [] => s
  | b :: l => vaWrite (vaPoke s from_ root va b false) from_ root (va + 1) l

/-- The poison of each granule that a write covers in full is cleared (R126, R162). -/
def vaClear (s : State) (from_ : Nat) (root : Word) (va : Word) : Nat → State
  | 0 => s
  | n + 1 =>
    let s1 :=
      if va.toNat % 64 = 0 ∧ 64 ≤ n + 1 then
        match walkAll s from_ root va 0 with
        | .leaf e lv _ => adjMod s (bits e 36 12) fun x => { x with hbmPoison := pset x.hbmPoison (dramLoc (bits e 55 2) (physOf e lv va)) false }
        | _ => s
      else s
    vaClear s1 from_ root (va + 1) n

end Sys2Proof.Machine
end

