-- ==== Sys2Proof/Machine/Gm.lean ====
section
/-!
DEFINITION. The meanings of gm and of what it sets going: translation, page walks, accesses at the abutments, at the ingress
atomic cache and through apertures, and their answers (R135 to R138, R141 to R161, R247, R281 to R287, R310, R312,
R359, R361, R375, R376).
-/

namespace Sys2Proof.Machine

/-! Issue. -/

/-- The parts of a gm opcode (R95): a load, a store, or a read-modify-write, and its bytes. -/
def gmBytes (op : BitVec 8) : Nat :=
  let l := op.toNat % 64
  if l < 12 then sizeBytes l else if l < 32 then 64 else if 16 ≤ l % 32 then 4 else 8

/-- A load: a result and nothing written (R95). -/
def gmIsLoad (op : BitVec 8) : Bool := let l := op.toNat % 64; decide (l < 8) || l == 0x10

/-- An atomic or a CAS (R95). -/
def gmIsAtomic (op : BitVec 8) : Bool := decide (32 ≤ op.toNat % 64)

/-- A CAS (R95). -/
def gmIsCas (op : BitVec 8) : Bool := gmIsAtomic op && op.toNat % 16 == 10

/-- What a request needs of a leaf: read, write, or all three (R147, R160). -/
def gmNeed (op : BitVec 8) : BitVec 3 := if gmIsLoad op then 4 else if gmIsStore op then 2 else 7

/-- Whether an address goes through an aperture (R136). -/
def isAperture (va : Word) : Bool := bitAt va 55

/-- The aperture checks of R136: the kind, and the offset within it. -/
def apertureOk (op : BitVec 8) (va : Word) : Bool :=
  let k := bits va 30 3
  let o := bits va 0 30
  if k = 0 then decide (o ≤ 0x3FFFF) else k == 2 && gmIsLoad op && decide (o ≤ 0xFFFFF)

/-- The checks of a gm trigger, in the order of R284, R312 and R361. -/
def gmChecked (op : BitVec 8) (va : Word) (k : Trig) : Trig :=
  if bits va 56 8 ≠ 0 then .fault 0x09 va
  else if va.toNat % gmBytes op ≠ 0 then .fault 0x07 va
  else if isAperture va ∧ apertureOk op va = false then .fault 0x08 va
  else k

/-- Whether two accesses name overlapping bytes through the same form of address (R166 row 2). -/
def bytesMeet (op : BitVec 8) (va : Word) (op' : BitVec 8) (va' : Word) : Bool :=
  isAperture va == isAperture va' && decide (va.toNat < va'.toNat + gmBytes op' ∧ va'.toNat < va.toNat + gmBytes op)

/-- What holds a gm request (R80, R81, R152, R166): no free entry, an acquire not performed, an awaiting request to the same
64 KiB, an ordered request behind one that awaits, a release behind one not acknowledged; and an aperture request behind one to its bytes, which its
target may refuse, so that a later one is not performed first (R166 row 2: DESIGN CHOICE, log entry 81). -/
def gmHeld (op : BitVec 8) (va : Word) (s : State) : Bool :=
  (freeEntry (curStrand s)).isNone || acqPending s ||
    (gmEntries s).any (fun e => !e.issued && e.req.va.toNat / 2 ^ 16 == va.toNat / 2 ^ 16) ||
    (isAperture va && (gmEntries s).any fun e => bytesMeet e.req.op e.req.va op va) || ((gmIsAcq op || gmIsRel op) && gmAwaiting s) || (gmIsRel op && holdRelease s)

/-- The answer of a fabric that cannot reach a module (R136, R245). -/
def absentAnswer (r : GmReq) : GmAns := { req := r, status := 7, lost := false, r := Value.zero, h := Value.zero }

/-- An aperture request leaves (R247). -/
def launchAperture (s : State) (r : GmReq) : State :=
  let m := pkMod r.pk
  let m' := bits r.va 43 12
  let lp := bits r.va 33 10
  if reachable s m m' then
    launch s (latency s m (placeOf s r.pk) m' (destPlace s m' lp r.job)) (.apertureAccess r)
  else launch s (latency s m (placeOf s r.pk) m .die) (.gmReply (absentAnswer r))

/-- A translated request leaves for the home that R160 gives. -/
def launchPaged (s : State) (r : GmReq) : State :=
  let m := pkMod r.pk
  let a := abutOf (dramLoc r.dom.toNat r.loc)
  if gmIsAtomic r.op && r.mod != m then
    launch s (latency s m (placeOf s r.pk) r.mod .die) (.ingressAtomic r)
  else launch s (latency s m (placeOf s r.pk) r.mod (.abut a)) (.hbmAccess r)

/-- The span agent of a pier. -/
def spanOf (s : State) (pk : Nat) : Nat := siteOf s pk / 256

/-- The second-level cache of a pier's agent. -/
def agentCache (s : State) (pk : Nat) : List TEntry := (getAgent s (pkMod pk) (spanOf s pk)).cache

/-- A translation put into a pier's cache of 384 entries (R150). -/
def pierCache (s : State) (pk : Nat) (e : TEntry) : State :=
  adjSite s (siteKey s pk) fun x => { x with tcache := (e :: x.tcache.filter fun f => !(f.job == e.job && f.base == e.base && f.size == e.size)).take 384 }

/-- A translation put into an agent's cache of 8,192 entries (R150). -/
def agentAdd (s : State) (pk : Nat) (e : TEntry) : State :=
  adjAgent s (pkMod pk) (spanOf s pk) fun x =>
    { x with cache := (e :: x.cache.filter fun f => !(f.job == e.job && f.base == e.base && f.size == e.size)).take 8192 }

/-- The module a walk is made for. -/
def walkHome : WalkFor → Nat
  | .gm pk _ _ _ => pkMod pk
  | .stream m _ _ => m

/-- Where a walk is made: the span agent has no place of its own in the rules, its requester's stands for it (log entry 8). -/
def walkPlace (s : State) : WalkFor → Place
  | .gm pk _ _ _ => placeOf s pk
  | .stream _ a _ => .abut a

/-- The cycles to read the entry of an address in a node of another module: one fabric round trip more, to the entry's home (R22,
R149). -/
def walkTrip (s : State) (who : WalkFor) (n : Node) (va : Word) (level : Nat) : Nat :=
  if walkHome who = n.mod then 0
  else 2 * latency s (walkHome who) (walkPlace s who) n.mod (.abut (abutOf (dramLoc n.dom (entryAt n va level).loc)))

/-- A name for a walk. -/
def newWalk (s : State) (w : Walk) : State :=
  schedule { s with walks := fset s.walks s.tok (some w), tok := s.tok + 1, fresh := s.fresh + 1 }
    (s.cycle + 1 + Config.walkStep s.fresh % 499 + walkTrip s w.who { mod := w.mod, dom := w.dom.toNat, loc := w.node } w.va w.level) (.pageWalk s.tok)

/-- A request is offered for translation (R150, R151): the pier's cache, the agent's, a walk. A root that is not valid fails
every paged access (R155). -/
def startTranslation (s : State) (pk st entry : Nat) (e : Inflight) : State :=
  let job := jobOf s pk
  match rootNode (getPier s pk).xlroot with
  | none => nowDo s (.gmTranslationDone pk st entry e.tok .fail)
  | some n =>
    match cacheFind (getSite s (siteKey s pk)).tcache job e.req.va with
    | some c => nowDo s (.gmTranslationDone pk st entry e.tok (.ok c.leaf (sizeLevel c.size)))
    | none =>
      match cacheFind (agentCache s pk) job e.req.va with
      | some c =>
        tick1 (schedule (pierCache s pk c) (s.cycle + Config.walkStep s.fresh % 31)
          (.gmTranslationDone pk st entry e.tok (.ok c.leaf (sizeLevel c.size))))
      | none =>
        newWalk s { who := .gm pk st entry e.tok, job, va := e.req.va, need := gmNeed e.req.op, level := 3, mod := n.mod,
                    node := n.loc, dom := BitVec.ofNat 2 n.dom, retries := 0 }

/-- An entry's request goes on its way: through the aperture at once, else to be translated (R151). -/
def startEntry (s : State) (pk st i : Nat) (e : Inflight) : State :=
  if isAperture e.req.va then
    launchAperture (adjStrand s pk st fun x => { x with inf := fset x.inf i (some { e with issued := true }) }) e.req
  else startTranslation s pk st i e

/-- The awaiting gm entries of a strand in the order of their triggers (R151). -/
def awaitingOf (x : Strand) : List (Nat × Inflight) :=
  (x.inf.filterMap fun p =>
    match p.2 with
    | some e => if e.kind = .gm ∧ e.issued = false then some (p.1, e) else none
    | none => none).mergeSort fun a b => a.2.tok ≤ b.2.tok

/-- Every awaiting request of a run is translated and issued again (R151, R214). -/
def replayAwaiting (s : State) (pk st : Nat) : State :=
  (awaitingOf (getStrand s pk st)).foldl (fun s p => startEntry s pk st p.1 p.2) s

/-- The effect of a gm trigger: it takes an entry, its result ports wait, its request starts (R81, R151). -/
def gmStart (s : State) (op : BitVec 8) (va : Word) (t b : Value) : State :=
  let pk := s.issue.pk
  let st := s.issue.strand
  let tok := s.tok
  let i := (freeEntry (curStrand s)).getD 0
  let r : GmReq :=
    { pk, strand := st, entry := i, tok, op, va, mod := 0, loc := 0, dom := 0, val := t, exp := b, job := jobOf s pk }
  let e : Inflight :=
    { kind := .gm, tok, issued := false, bundle := s.issue.addr, move := moveOf s, tlow := BitVec.ofNat 32 (vsc t).toNat,
      req := r, slot := s.issue.slot }
  let s1 := adjCur { s with tok := tok + 1 } fun x =>
    { pendPort (pendPort x (portIx 5 0) tok (!gmIsStore op)) (portIx 5 1) tok (gmIsCas op) with inf := fset x.inf i (some e) }
  startEntry s1 pk st i e

/-- A gm trigger: loads add T to port a, the others take T as their value (R95, R281 to R287, R310, R359, R375). -/
def runGm (s : State) (m : Mv) (op : BitVec 8) : State :=
  let va (t a : Value) : Word := if gmIsLoad op then vsc a + vsc t else vsc a
  runTrigger s m { unit := 5, a := some .gmA, b := if gmIsCas op then some .gmB else none, steerT := gmIsLoad op, steerA := true }
    (fun s t a _ => gmHeld op (va t a) s)
    fun s t a b => gmChecked op (va t a) (.ok (gmStart s op (va t a) t b))

/-- LDG (R310, R312). -/
def execLdg (m : Mv) (f : BitVec 3) (s : State) : Out := go (runGm s m (BitVec.ofNat 8 f.toNat))
/-- LDG.acq (R310, R312). -/
def execLdgAcq (m : Mv) (f : BitVec 3) (s : State) : Out := go (runGm s m (BitVec.ofNat 8 (0x40 + f.toNat)))
/-- STG (R359, R361). -/
def execStg (m : Mv) (z : BitVec 2) (s : State) : Out := go (runGm s m (BitVec.ofNat 8 (8 + z.toNat)))
/-- STG.rel (R359, R361). -/
def execStgRel (m : Mv) (z : BitVec 2) (s : State) : Out := go (runGm s m (BitVec.ofNat 8 (0x88 + z.toNat)))
/-- VLDG (R375, R376). -/
def execVldg (m : Mv) (s : State) : Out := go (runGm s m 0x10)
/-- VLDG.acq (R375, R376). -/
def execVldgAcq (m : Mv) (s : State) : Out := go (runGm s m 0x50)
/-- VSTG (R375, R376). -/
def execVstg (m : Mv) (s : State) : Out := go (runGm s m 0x11)
/-- VSTG.rel (R375, R376). -/
def execVstgRel (m : Mv) (s : State) : Out := go (runGm s m 0x91)
/-- ATG (R281, R282, R284). -/
def execAtg (m : Mv) (op : AtOp) (w : Bool) (o : Ord4) (s : State) : Out :=
  go (runGm s m (BitVec.ofNat 8 (0x40 * o.code + 0x20 + (if w then 0x10 else 0) + op.code)))
/-- CASG (R286, R287). -/
def execCasg (m : Mv) (w : Bool) (o : Ord4) (s : State) : Out :=
  go (runGm s m (BitVec.ofNat 8 (0x40 * o.code + 0x2A + (if w then 0x10 else 0))))

/-! Translation (R149 to R151, R155). -/

/-- w2 of a record for an entry: the move, and the low half of the trigger value (R208). -/
def entryMove (move tlow : BitVec 32) : Word := BitVec.ofNat 64 (move.toNat * 2 ^ 32 + tlow.toNat)

/-- A fault of a live run at the boundary, for a request that stays awaiting (R151, R209). -/
def gmFault (s : State) (pk st i : Nat) (e : Inflight) (code : Nat) (notRes : Bool) : State :=
  let ctx := code == 0x17
  let f : FaultInfo :=
    { code := BitVec.ofNat 16 code, slot := if ctx then 0 else e.slot, unit := 5, w2 := if ctx then 0 else entryMove e.move e.tlow,
      w3 := if ctx then BitVec.ofNat 64 (bits e.req.va 0 30) else e.req.va, brk := false, notRes := notRes }
  let s1 := adjStrand s pk st fun x => { x with inf := fset x.inf i (some { e with issued := false }) }
  takeFault s1 pk st f e.bundle (getStrand s pk st).pc

/-- The entry of a strand that a request names. -/
def findEntry (s : State) (pk st i tok : Nat) : Option Inflight :=
  match fget (getStrand s pk st).inf i none with
  | some e => if e.tok = tok then some e else none
  | none => none

/-- A store or atomic to a clean page waits for room in the dirty log (R155, R156). -/
def dlogFull (s : State) (pk : Nat) (c : TEntry) (op : BitVec 8) : Bool :=
  !gmIsLoad op && !c.dirty && decide (256 ≤ (getPier s pk).dlogCount)

/-- A request issued under a cached translation (R151, R155). -/
def issueEntry (s : State) (pk st i : Nat) (e : Inflight) (c : TEntry) : State :=
  let lv := sizeLevel c.size
  let r := { e.req with mod := bits c.leaf 36 12, loc := physOf c.leaf lv e.req.va, dom := c.leaf.extractLsb' 55 2 }
  let s1 := if !gmIsLoad e.req.op && !c.dirty then dlogAppend s pk c else s
  launchPaged (adjStrand s1 pk st fun x => { x with inf := fset x.inf i (some { e with issued := true, req := r }) }) r

/-- A translation comes to a gm request (R149, R151). Nothing happens where the run is frozen, suspended or gone: its
request stays awaiting and is replayed. -/
def execGmTranslationDone (pk st entry tok : Nat) (o : WalkOut) (s : State) : Out :=
  go (match findEntry s pk st entry tok with
    | none => s
    | some e =>
      if e.issued ∨ (getStrand s pk st).status ≠ .running ∨ residentOpen s pk = false then s
      else
        match o with
        | .ok leaf lv =>
          match cacheFind (getSite s (siteKey s pk)).tcache (jobOf s pk) e.req.va with
          | none => startTranslation s pk st entry e
          | some c =>
            if grants c.leaf (gmNeed e.req.op) = false then gmFault s pk st entry e 0x0A false
            else if 2 ^ 39 ≤ physOf leaf lv e.req.va ∨ reachable s (pkMod pk) (bits c.leaf 36 12) = false then
              gmFault s pk st entry e 0x0B false
            else if dlogFull s pk c e.req.op then schedule s (s.cycle + 1) (.gmTranslationDone pk st entry tok o)
            else issueEntry s pk st entry e c
        | o => gmFault s pk st entry e (walkCode o) false)

/-- A stream context of an abutment. -/
def getCtx (s : State) (m a sid : Nat) : Option Stream := fget (getAbut s m a).ctxs sid none

/-- A stream context written. -/
def setCtx (s : State) (m a : Nat) (t : Stream) : State := adjAbut s m a fun x => { x with ctxs := fset x.ctxs t.sid (some t) }

/-- The root of the pier a walk is made for; a stream's is that of the pier that triggered it (R146). -/
def walkRoot (s : State) : WalkFor → Option Node
  | .gm pk _ _ _ => rootNode (getPier s pk).xlroot
  | .stream m a sid =>
    match getCtx s m a sid with
    | some t => rootNode (getPier s t.cmd.pk).xlroot
    | none => none

/-- The module and span of the agent that makes a walk. -/
def walkAgent (s : State) : WalkFor → Nat × Nat
  | .gm pk _ _ _ => (pkMod pk, spanOf s pk)
  | .stream m a _ => (m, a / 32)

/-- Whether an invalidation runs at the agent of a walk, which starts again after it (R158 step 1). -/
def walkHeld (s : State) (w : Walk) : Bool :=
  (getAgent s (walkAgent s w.who).1 (walkAgent s w.who).2).cur.isSome

/-- A walk that is to start from the root again. -/
def walkAfresh (s : State) (k : Walk) : Walk :=
  match walkRoot s k.who with
  | some n => { k with level := 3, mod := n.mod, node := n.loc, dom := BitVec.ofNat 2 n.dom }
  | none => k

/-- The walks in progress at an agent are discarded; they start again from the root (R158 step 1). -/
def restartWalks (s : State) (m sp : Nat) : State :=
  { s with walks := s.walks.map fun w => (w.1, w.2.map fun k => if walkAgent s k.who = (m, sp) then walkAfresh s k else k) }

/-- The end of a walk reaches its requester, with the translation in both caches where there is one (R150). -/
def walkEnds (s : State) (w : Nat) (k : Walk) (o : WalkOut) : State :=
  let s1 := { s with walks := fdel s.walks w }
  match k.who with
  | .gm pk st entry tok =>
    match o with
    | .ok leaf lv =>
      let c := tentryOf k.job k.va leaf lv
      nowDo (pierCache (agentAdd s1 pk c) pk c) (.gmTranslationDone pk st entry tok o)
    | o => nowDo s1 (.gmTranslationDone pk st entry tok o)
  | .stream m a sid =>
    match getCtx s1 m a sid with
    | none => s1
    | some t =>
      if t.walk ≠ some w then s1
      else
        match o with
        | .ok leaf lv =>
          let c := { tentryOf k.job k.va leaf lv with dirty := k.need != 4 }
          setCtx s1 m a { t with walk := none, extents := (c :: t.extents).take 64 }
        | o => setCtx s1 m a { t with walk := none, walked := (k.va, o) :: t.walked }

/-- A stream that writes memory is walked with dirty set in each leaf (R153). -/
def walkDirties (k : Walk) : Bool :=
  match k.who with
  | .gm _ _ _ _ => false
  | .stream _ _ _ => k.need != 4

/-- One entry of a walk is read (R146 to R149); while an invalidation runs at its agent the walk is discarded and starts
again after it (R158). -/
def execPageWalk (w : Nat) (s : State) : Out :=
  go (match fget s.walks w none with
    | none => s
    | some k =>
      if walkHeld s k then
        match walkRoot s k.who with
        | none => walkEnds s w k .fail
        | some _ => schedule { s with walks := fset s.walks w (some (walkAfresh s k)) } (s.cycle + 16) (.pageWalk w)
      else
        let here : Node := { mod := k.mod, dom := k.dom.toNat, loc := k.node }
        let s0 := endLease s k.mod (dramLoc k.dom.toNat (entryAt here k.va k.level).loc)
        match walkEntry s (walkHome k.who) here k.level k.va k.need with
        | .next n =>
          let s1 := { s0 with walks := fset s.walks w (some { k with level := k.level - 1, mod := n.mod, node := n.loc, dom := BitVec.ofNat 2 n.dom }) }
          tick1 (schedule s1 (s.cycle + 1 + Config.walkStep s.fresh % 499 + walkTrip s k.who n k.va (k.level - 1)) (.pageWalk w))
        | .leaf e a =>
          let s1 := hbmOr s a.mod a.dom a.loc 58
          let s2 := if walkDirties k then hbmOr s1 a.mod a.dom a.loc 57 else s1
          walkEnds s2 w k (.ok (setBits e 58 1 1) k.level)
        | .ends o => walkEnds s0 w k o
        | .moving =>
          if 16 ≤ k.retries then walkEnds s0 w k .fail
          else
            schedule { s0 with walks := fset s.walks w (some { k with retries := k.retries + 1 }) } (s.cycle + 4096)
              (.walkMovingRetry w))

/-- A walk that met a moving entry reads it again (R149, R154). -/
def execWalkMovingRetry (w : Nat) (s : State) : Out := go (nowDo s (.pageWalk w))

/-! Homes (R160, R161). -/

/-- What an access leaves at its home and gives back. -/
structure HomeRes where
  new : Nat
  write : Bool
  r : Value
  h : Value

/-- A load, store, atomic or CAS on bytes that hold `old` in a granule with poison `pz`: the old value a load sees, or the
new bytes. -/
def homeDo (r : GmReq) (old : Nat) (pz : Bool) : HomeRes × Bool :=
  let l := r.op.toNat % 64
  if l < 8 then (⟨old, false, ⟨.scalar (extendLoad (BitVec.ofNat 3 l) old), pz⟩, Value.zero⟩, pz)
  else if l < 12 then (⟨(vsc r.val).toNat % 2 ^ (8 * sizeBytes l), true, Value.zero, Value.zero⟩, r.val.poison)
  else if l = 0x10 then (⟨old, false, ⟨.vec (BitVec.ofNat 512 old) 0xFFFF, pz⟩, Value.zero⟩, pz)
  else if l = 0x11 then (⟨laneMerge old (vlanes r.val).toNat (vmaskOf r.val), vmaskOf r.val != 0, Value.zero, Value.zero⟩, r.val.poison)
  else
    let w := decide (16 ≤ l % 32)
    let x := if gmIsCas r.op then casDo w old pz r.val r.exp else atomDo ((atOpOf (l % 16)).getD .add) w old pz r.val
    (⟨x.new, true, x.r, x.h⟩, x.poison)

/-- The bytes a write counts as for poison (R126): an atomic or a vector store with an invalid lane never clears it. -/
def poisonBytes (r : GmReq) : Nat :=
  if gmIsAtomic r.op then 4 else if r.op.toNat % 64 = 0x11 ∧ vmaskOf r.val ≠ 0xFFFF then 4 else gmBytes r.op

/-- A request performed in HBM (R163, R164). -/
def hbmDo (s : State) (r : GmReq) : State × GmAns :=
  let d := r.dom.toNat
  let x := homeDo r (hbmRead s r.mod d r.loc (gmBytes r.op)) (hbmPoisoned s r.mod d r.loc)
  let s1 :=
    if x.1.write then
      adjMod s r.mod fun m =>
        { m with
          hbm := mwrite m.hbm (dramLoc d r.loc) (gmBytes r.op) x.1.new
          hbmPoison := pstore m.hbmPoison (dramLoc d r.loc) (poisonBytes r) x.2 }
    else s
  (s1, { req := r, status := 0, lost := false, r := x.1.r, h := x.1.h })

/-- The leased line of a request. -/
def lineOf (r : GmReq) : Nat := dramLoc r.dom.toNat r.loc / 64

/-- The request of an access on its way. -/
def accessReq : Instr → Option GmReq
  | .hbmAccess r => some r
  | .ingressAtomic r => some r
  | .apertureAccess r => some r
  | _ => none

/-- Whether two requests name overlapping bytes through the same form of address (R166 row 2). -/
def sameBytes (r q : GmReq) : Bool := bytesMeet r.op r.va q.op q.va

/-- Whether a request of the same run to the same bytes, triggered earlier, is still on its way (R166 row 2). -/
def gmBefore (s : State) (r : GmReq) : Bool :=
  let earlier (i : Instr) : Bool :=
    match accessReq i with
    | some q => q.pk == r.pk && q.strand == r.strand && decide (q.tok < r.tok) && sameBytes r q
    | none => false
  s.cal.any (fun e => earlier e.2) || s.agenda.any fun w => match w with | .ev i => earlier i | .issue _ => false

/-- Whether a line is leased by the ingress atomic cache. -/
def leased (s : State) (m line : Nat) : Bool := (getMod s m).leases.any fun l => l.1 == line

/-- A request reaches the abutment that owns its block: it stays behind earlier ones of its run to its bytes, a leased line is recalled first (R161); the answer is due at
least 40 cycles after the request left (R79, R248). -/
def execHbmAccess (r : GmReq) (s : State) : Out :=
  let a := abutOf (dramLoc r.dom.toNat r.loc)
  go (if gmBefore s r then schedule s (s.cycle + 1) (.hbmAccess r)
    else if leased s r.mod (lineOf r) then nowDo (nowDo s (.leaseRecall r.mod (lineOf r))) (.hbmAccess r)
    else
      let x := hbmDo s r
      launch x.1 (40 + latency s r.mod (.abut a) (pkMod r.pk) (placeOf s r.pk)) (.gmReply x.2))

/-- An atomic from another module reaches the ingress atomic cache: its line is leased for 4,096 cycles, and a full cache
gives up its oldest line (R160, R161). -/
def execIngressAtomic (r : GmReq) (s : State) : Out :=
  if gmBefore s r then go (schedule s (s.cycle + 1) (.ingressAtomic r)) else
  let line := lineOf r
  let s1 :=
    if leased s r.mod line then s
    else
      schedule { (adjMod s r.mod fun m =>
          { m with leases := (if 32768 ≤ m.leases.length then m.leases.drop 1 else m.leases) ++ [(line, s.tok)] }) with tok := s.tok + 1 }
        (s.cycle + 4096) (.leaseExpiry r.mod line s.tok)
  let x := hbmDo s1 r
  go (launch x.1 (48 + latency s r.mod .die (pkMod r.pk) (placeOf s r.pk)) (.gmReply x.2))

/-- A lease ends 4,096 cycles after its grant (R161). -/
def execLeaseExpiry (mod line tok : Nat) (s : State) : Out :=
  go (adjMod s mod fun m => { m with leases := m.leases.filter fun l => !(l.1 == line && l.2 == tok) })

/-- An access to a leased line ends the lease; the line is written back (R161). -/
def execLeaseRecall (mod line : Nat) (s : State) : Out :=
  go (adjMod s mod fun m => { m with leases := m.leases.filter fun l => !(l.1 == line) })

/-! Apertures (R133 to R138, R141, R200). -/

/-- The windows of a logical pier of a carrier (R200). -/
def winsOf (s : State) (pk lp : Nat) : List Word :=
  let e := entryOf s (pkMod pk) (pkPart pk) lp
  let n := 8 / teFold e
  (List.range n).map fun j => fget (getPier s pk).wins (teSlot e * n + j) 0

/-- Whether a window accepts an access of `n` bytes (R135). -/
def winAccepts (w : Word) (r : GmReq) (tgtMod tgtLp n : Nat) : Bool :=
  let o := bits r.va 0 30
  let src := pkLp r.pk
  bitAt w 63 && (bits w 56 2 == (if bits r.va 30 3 = 2 then 1 else 0)) &&
    decide (bits w 29 15 * 64 ≤ o ∧ o + n ≤ bits w 14 15 * 64) &&
    (if gmIsLoad r.op then bitAt w 62 else if gmIsStore r.op then bitAt w 61 else bitAt w 60) &&
    (match bits w 58 2 with
     | 0 => pkMod r.pk == tgtMod && src / 256 == tgtLp / 256
     | 1 => pkMod r.pk == tgtMod
     | 2 => true
     | _ => false)

/-- Cycles until a bank of a slice can start a 64-byte access (R138). -/
def refreshWait (c : Word) (bank : Nat) : Nat :=
  let x := c.toNat % 8192
  if bank * 1024 ≤ x ∧ x < bank * 1024 + 256 then bank * 1024 + 256 - x else 0

/-- Whether a slice holds the data of a job (R141). -/
def sliceOwned (status : Word) (job : BitVec 12) : Bool :=
  bitAt status 63 && !bitAt status 62 && status.extractLsb' 0 12 == job

/-- A request performed at a target pier: in its scratchpad, or read from its slice after a refresh window. -/
def apertureDo (s : State) (pk : Nat) (r : GmReq) : State × GmAns × Nat :=
  let o := bits r.va 0 30
  let n := gmBytes r.op
  if bits r.va 30 3 = 2 then
    let x := getSite s (siteKey s pk)
    if sliceOwned x.status r.job = false then (s, { req := r, status := 0, lost := true, r := Value.zero, h := Value.zero }, 0)
    else
      let y := homeDo r (mread x.slice o n) (pget x.slicePoison o)
      (s, { req := r, status := 0, lost := false, r := y.1.r, h := y.1.h }, refreshWait (getMod s (pkMod pk)).cyc (o / 2 ^ 17))
  else
    let y := homeDo r (spadRead s pk o n) (spadPoisoned s pk o)
    let s1 := if y.1.write then spadPut s pk o n y.1.new fun m => pstore m o (poisonBytes r) y.2 else s
    (s1, { req := r, status := 0, lost := false, r := y.1.r, h := y.1.h }, 0)

/-- A refusal of an aperture access. -/
def refuseAperture (s : State) (r : GmReq) (m : Nat) (pl : Place) (status : BitVec 3) : State :=
  launch s (latency s m pl (pkMod r.pk) (placeOf s r.pk))
    (.gmReply { req := r, status, lost := false, r := Value.zero, h := Value.zero })

/-- An aperture access reaches its target pier (R135, R136, R141, R222). A fenced pier answers with retry (R234): the
request comes again after 512 cycles. -/
def execApertureAccess (r : GmReq) (s : State) : Out :=
  let m := bits r.va 43 12
  let lp := bits r.va 33 10
  let pl := destPlace s m lp r.job
  go (if gmBefore s r then schedule s (s.cycle + 1) (.apertureAccess r) else
    match pkOfAddr s m lp r.job with
    | none => refuseAperture s r m pl 3
    | some pk =>
      if (getPier s pk).lost then refuseAperture s r m pl 3
      else if (getPier s pk).fenced then schedule s (s.cycle + 512) (.apertureAccess r)
      else if residentOpen s pk = false then refuseAperture s r m pl 4
      else if (winsOf s pk lp).any (fun w => winAccepts w r m lp (gmBytes r.op)) = false then refuseAperture s r m pl 3
      else
        let x := apertureDo s pk r
        launch x.1 (x.2.2 + latency s m pl (pkMod r.pk) (placeOf s r.pk)) (.gmReply x.2.1))

/-- The code of an answer that is no success (R135, R136, R141, R151). -/
def answerCode (a : GmAns) : Nat := if a.lost then 0x17 else if a.status = 7 then 0x0B else 0x08

/-- A deferred record for a request whose run has ended or is frozen (R151, R220). -/
def gmDeferred (a : GmAns) (lp actor strand : Nat) (runid : BitVec 32) (bundle : BitVec 12) (move tlow : BitVec 32)
    (slot : BitVec 2) : Deferred :=
  let ctx := a.lost
  { pk := a.req.pk, lp, actor, strand, runid, bundle, code := BitVec.ofNat 16 (answerCode a), unit := 5, slot := if ctx then 0 else slot,
    w2 := if ctx then 0 else entryMove move tlow,
    w3 := if ctx then BitVec.ofNat 64 (bits a.req.va 0 30) else a.req.va, w5 := 0, notResident := a.status == 4 }

/-- The answer to a gm request (R81, R151, R247): the ports and the entry of its strand; a refusal faults a live run at
the boundary, and gives a deferred record where the run is frozen or has ended. -/
def execGmReply (a : GmAns) (s : State) : Out :=
  let pk := a.req.pk
  let st := a.req.strand
  let good := a.status == 0 && !a.lost
  go (pumpOutbox (match findEntry s pk st a.req.entry a.req.tok with
    | some e =>
      if good then
        adjStrand s pk st fun x =>
          let w := !gmIsStore e.req.op
          let y := landPort x (portIx 5 0) e.tok (if w then some a.r else none)
          dropEntry (landPort y (portIx 5 1) e.tok (if gmIsCas e.req.op then some a.h else none)) a.req.entry
      else
        let x := getStrand s pk st
        if x.status = .running then gmFault s pk st a.req.entry e (answerCode a) (a.status == 4)
        else
          let s1 := adjStrand s pk st fun y => { y with inf := fset y.inf a.req.entry (some { e with issued := false }) }
          nowDo s1 (.deferredFaultReport
            { gmDeferred a x.lp.toNat x.actor.toNat st x.runid e.bundle e.move e.tlow e.slot with w5 := faultW5 x })
    | none =>
      match (getPier s pk).late.find? (fun l => l.tok == a.req.tok) with
      | none => s
      | some l =>
        let s1 := adjPier s pk fun p => { p with late := p.late.filter fun q => !(q.tok == a.req.tok) }
        let s2 := if good then s1
          else nowDo s1 (.deferredFaultReport (gmDeferred a l.lp l.actor l.strand l.runid l.bundle l.move l.tlow l.slot))
        nowDo s2 (.actorLockRelease pk l.actor)) pk)

end Sys2Proof.Machine
end

