-- ==== Sys2Proof/Machine/Mx.lean ====
section
/-!
DEFINITION. The meanings of mx and of the matrix queue (R105 to R107, R117 to R121, R126, R127, R174, R189, R219, R227,
R288 to R292, R319 to R328, R330, R331, R333).
-/

namespace Sys2Proof.Machine

/-! Triggers. -/

/-- What mx triggers need: every value steers (R128). -/
def needMx (a : Bool) : Need := { unit := 7, a := if a then some .mxA else none, steerT := true, steerA := true }

/-- A full matrix queue holds the bundle (R80). -/
def mxHeld (s : State) (_ _ _ : Value) : Bool := decide (16 ≤ (curPier s).mq.length)

/-- The completion sluice of an entry; 0x1FF is none (R319). -/
def mxSluice (t : Word) : Nat := bits t 10 9

/-- The credit that a staged entry takes (R60): one keyed to its own sluice before one that matches any key. -/
def takeCredit (l : List Credit) (actor : Nat) (n : BitVec 9) : Option (List Credit) :=
  if l.contains ⟨actor, some n⟩ then some (l.erase ⟨actor, some n⟩)
  else if l.contains ⟨actor, none⟩ then some (l.erase ⟨actor, none⟩)
  else none

/-- An entry joins the matrix queue; a staged one is born released where a credit waits for it (R60, R319). -/
def mxQueue (s : State) (op : MOp) (t a : Word) : State :=
  let x := curStrand s
  let staged := op != .mcfg && bitAt t 19
  let cr := if staged then takeCredit (curPier s).credits x.actor.toNat (t.extractLsb' 10 9) else none
  let e : MEntry :=
    { tok := s.tok, op, t, a, released := !staged || cr.isSome, at_ := s.cycle, actor := x.actor, lp := x.lp,
      strand := s.issue.strand, runid := x.runid, bundle := s.issue.addr, move := moveOf s, slot := s.issue.slot }
  adjCurPier { s with tok := s.tok + 1 } fun p => { p with mq := p.mq ++ [e], credits := cr.getD p.credits }

/-- The check of every mx trigger but MCFG (R289, R319). -/
def mxChecked (s : State) (t : Word) (k : Trig) : Trig :=
  if 496 ≤ mxSluice t ∧ mxSluice t ≤ 510 ∧ curService s = false then .fault 0x0D (BitVec.ofNat 64 (mxSluice t)) else k

/-- An mx trigger with no check of its own. -/
def runMx (s : State) (m : Mv) (op : MOp) (port : Bool) : State :=
  runTrigger s m (needMx port) mxHeld fun s t a _ => mxChecked s (vsc t) (.ok (mxQueue s op (vsc t) (vsc a)))

/-- Whether MCFG takes a configuration word (R321). -/
def mcfgLegal (w : Word) : Bool :=
  let rb := rowBytes w
  bits w 0 4 ≤ 8 && (rb == 1 || rb == 2 || rb == 4 || rb == 8 || rb == 16 || rb == 32 || rb % 64 == 0) &&
    decide (tileRows w * rowSlots rb ≤ 64)

/-- MCFG (R321). -/
def execMcfg (m : Mv) (s : State) : Out :=
  go (runTrigger s m (needMx true) mxHeld fun s t a _ =>
    if mcfgLegal (vsc t) = false then .fault 0x03 (vsc t) else .ok (mxQueue s .mcfg (vsc t) (vsc a)))
/-- MLD (R323). -/
def execMld (m : Mv) (s : State) : Out := go (runMx s m .mld true)
/-- MLDW (R323). -/
def execMldw (m : Mv) (s : State) : Out := go (runMx s m .mldw true)
/-- MZERO (R333). -/
def execMzero (m : Mv) (s : State) : Out := go (runMx s m .mzero false)
/-- MMA (R324). -/
def execMma (m : Mv) (s : State) : Out := go (runMx s m .mma false)
/-- MMAS (R324). -/
def execMmas (m : Mv) (s : State) : Out := go (runMx s m .mmas false)
/-- MMAF (R324). -/
def execMmaf (m : Mv) (s : State) : Out := go (runMx s m .mmaf false)
/-- CMMA (R288, R289). -/
def execCmma (m : Mv) (s : State) : Out := go (runMx s m .cmma false)

/-- The sources each MST form takes (R330). -/
def mstLegal (op : MOp) (src : Nat) : Bool :=
  match op with
  | .mstBf16 => 16 ≤ src && src ≤ 19
  | .mstF32 => src == 16 || src == 18
  | _ => decide (src ≤ 19)

/-- An MST trigger (R330); `opc` is its opcode, w3 of an illegal source (R209). -/
def runMst (s : State) (m : Mv) (op : MOp) (opc : Word) : State :=
  runTrigger s m (needMx true) mxHeld fun s t a _ =>
    mxChecked s (vsc t)
      (if mstLegal op (bits (vsc t) 0 5) = false then .fault 0x03 opc else .ok (mxQueue s op (vsc t) (vsc a)))

/-- MST.raw (R330). -/
def execMstRaw (m : Mv) (s : State) : Out := go (runMst s m .mstRaw 4)
/-- MST.bf16 (R330). -/
def execMstBf16 (m : Mv) (s : State) : Out := go (runMst s m .mstBf16 5)
/-- MST.f32 (R330). -/
def execMstF32 (m : Mv) (s : State) : Out := go (runMst s m .mstF32 6)

/-! Tiles and accumulators (R320, R322). Ids 0 to 15 are tiles, 16 to 19 accumulators. -/

/-- A tile or accumulator of a site. -/
def getTile (x : Site) (i : Nat) : Tile := fget x.tiles i {}
/-- A tile or accumulator changed. -/
def adjTile (s : State) (pk i : Nat) (f : Tile → Tile) : State :=
  adjSite s (siteKey s pk) fun x => { x with tiles := fset x.tiles i (f (getTile x i)) }
/-- A slot of a tile. -/
def tileSlot (t : Tile) (k : Nat) : Row := fget t.rows k 0
/-- Whether a row of a tile is poisoned; a row's slots carry its mark. DESIGN CHOICE, log entry 76: after an MCFG with another row size
a row takes the mark of its first slot. -/
def rowBad (t : Tile) (spr r : Nat) : Bool := fget t.poison (r * spr) false
/-- `n` bits at bit `b` of row `r` of a tile whose rows take `spr` slots. -/
def tileField (t : Tile) (spr r b n : Nat) : Nat := (tileSlot t (r * spr + b / 512)).toNat / 2 ^ (b % 512) % 2 ^ n
/-- Word `i` of an accumulator: 32 rows of 128 bytes. -/
def accWord (t : Tile) (i : Nat) : Nat := (tileSlot t (i / 16)).toNat / 2 ^ (32 * (i % 16)) % 2 ^ 32
/-- An accumulator whose words are given. -/
def accOf (f : Nat → Nat) : FMap Row := (List.range 64).map fun k => (k, rowOf fun i => BitVec.ofNat 32 (f (16 * k + i)))
/-- Whether a word of an accumulator is poisoned. -/
def accBad (t : Tile) (i : Nat) : Bool := fget t.poison i false

/-! Checks at execution. A failure is a code, w2 and w3. -/

/-- The outcome of an entry's checks. -/
abbrev MCheck := Option (Nat × Word)

/-- The first check that fails. -/
def firstFail : List MCheck → MCheck
  | [] => none
  | some x :: _ => some x
  | none :: l => firstFail l

/-- A check. -/
def failIf (b : Bool) (code : Nat) (w3 : Word) : MCheck := if b then some (code, w3) else none

/-- The first offset of the bytes [o, o + n) outside [lo, hi). -/
def outside (lo hi o n : Nat) : Option Nat :=
  if o < lo ∨ hi ≤ o then some o else if hi < o + n then some hi else none

/-- The region check of every row of an entry (R36, R323, R331). -/
def rowsInRegion (a : Actor) (base pitch rows n : Nat) : MCheck :=
  match (List.range rows).findSome? fun r => outside (bits a.rgnbase 6 13 * 64) (bits a.rgnlim 6 13 * 64) (base + r * pitch) n with
  | some o => some (0x06, BitVec.ofNat 64 o)
  | none => none

/-- Whether a base and a pitch are aligned for rows of `rb` bytes (R323, R331). -/
def rowsAligned (a : Word) (pitch rb : Nat) : Bool := a.toNat % min rb 64 == 0 && pitch % min rb 64 == 0

/-- The first tile or accumulator of a list whose current bit is clear (R227). -/
def notCurrent (x : Site) (l : List Nat) : MCheck :=
  match l.find? fun i => !(getTile x i).current with
  | some i => some (0x17, BitVec.ofNat 64 i)
  | none => none

/-- Checks of MLD and MLDW (R323). -/
def mldCheck (s : State) (pk : Nat) (e : MEntry) : MCheck :=
  let i := bits e.t 0 4
  let w := tileWord (getPier s pk) i
  let id := BitVec.ofNat 64 i
  let rb := rowBytes w
  let pitch := bits w 16 16
  let shape := [failIf (decide (8 < bits w 0 4)) 0x0E id, failIf (!rowsAligned e.a pitch rb) 0x0E id]
  firstFail (shape ++
    if e.op = .mld then [rowsInRegion (regionActor s pk e.actor.toNat) e.a.toNat pitch (tileRows w) rb]
    else
      [failIf ((List.range (tileRows w)).any fun r => decide (0x100000 < e.a.toNat + r * pitch + rb)) 0x0E id,
       failIf (!sliceOwned (getSite s (siteKey s pk)).status (jobOf s pk)) 0x17 e.a])

/-- Rows, row bytes and pitch of what MST writes (R330). -/
def mstShape (p : Pier) (e : MEntry) : Nat × Nat × Nat :=
  let src := bits e.t 0 5
  let w := tileWord p src
  if e.op = .mstBf16 then (32, 64, bits e.t 20 16)
  else if src < 16 then (tileRows w, rowBytes w, bits w 16 16)
  else (32, 128, bits e.t 20 16)

/-- Checks of MST (R331). -/
def mstCheck (s : State) (pk : Nat) (e : MEntry) : MCheck :=
  let p := getPier s pk
  let src := bits e.t 0 5
  let id := BitVec.ofNat 64 src
  let h := mstShape p e
  firstFail
    [notCurrent (getSite s (siteKey s pk)) (if e.op = .mstF32 then [src, src + 1] else [src]),
     failIf (src < 16 && decide (8 < bits (tileWord p src) 0 4)) 0x0E id,
     failIf (!rowsAligned e.a h.2.2 h.2.1) 0x0E id,
     rowsInRegion (regionActor s pk e.actor.toNat) e.a.toNat h.2.2 h.1 h.2.1]

/-- A row of R325: logical K, packing of B, whether scale tiles belong to it, metadata columns (0: none). -/
structure Prod where
  k : Nat
  g : Nat
  scales : Bool
  metaCols : Nat
  deriving DecidableEq, Repr

/-- Whether a tile has a format and a shape (R325): the pitch plays no part. -/
def tileIs (w : Word) (f rows cols : Nat) : Bool :=
  bits w 0 4 == f && tileRows w == rows && bits w 10 6 + 1 == cols

/-- The row of R325 that a format of A begins, and the shape of A. -/
def prodRow (op : MOp) (f : Nat) : Option (Prod × Nat) :=
  match op with
  | .mma => if f ≤ 1 then some (⟨32, 1, false, 0⟩, 32) else if f = 2 ∨ f = 3 ∨ f = 5 then some (⟨64, 1, false, 0⟩, 64)
            else if f = 4 then some (⟨128, 2, true, 0⟩, 64) else none
  | .mmas => if f ≤ 1 then some (⟨64, 1, false, 8⟩, 32) else if f = 2 ∨ f = 3 ∨ f = 5 then some (⟨128, 2, false, 16⟩, 64)
             else if f = 4 then some (⟨256, 4, true, 32⟩, 64) else none
  | _ => if f = 6 then some (⟨32, 1, false, 0⟩, 32) else none

/-- Whether B fits the row that A began. -/
def bFits (r : Prod) (fa : Nat) (w : Word) : Bool :=
  let fb := bits w 0 4
  let cols := if fa = 4 then 16 * r.g else 32 * r.g
  (fb == fa || ((fa == 2 || fa == 3) && (fb == 2 || fb == 3))) && tileIs w fb (r.k / r.g) cols

/-- The tiles that a product reads, in the order of its checks: A, B, the scales of each, the metadata. -/
def prodTiles (p : Pier) (e : MEntry) (r : Prod) : List Nat :=
  let a := bits e.t 0 4
  let b := bits e.t 4 4
  [a, b] ++ (if r.scales then [bits (tileWord p a) 32 4, bits (tileWord p b) 32 4] else [])
    ++ (if r.metaCols = 0 then [] else [bits e.t 20 4])

/-- Whether a scale tile has the shape its row of R325 gives. -/
def scaleIs (p : Pier) (i rows cols : Nat) : Bool := tileIs (tileWord p i) 8 rows cols

/-- The metadata nibble of row `m`, group `g` (R327). -/
def metaNibble (t : Tile) (m g : Nat) : Nat := tileField t 1 m (4 * g) 4

/-- Checks of MMA, MMAS and MMAF (R326); a poisoned metadata row steers the sum and is consumed (R128, R219). -/
def prodCheck (s : State) (pk : Nat) (e : MEntry) : MCheck :=
  let p := getPier s pk
  let x := getSite s (siteKey s pk)
  let a := bits e.t 0 4
  let b := bits e.t 4 4
  let z := 16 + bits e.t 8 2
  let wa := tileWord p a
  let wb := tileWord p b
  let fa := bits wa 0 4
  let idw (i : Nat) : Word := BitVec.ofNat 64 i
  match prodRow e.op fa with
  | none => firstFail [notCurrent x [a, b, z], some (0x0E, idw a)]
  | some (r, cols) =>
    let sa := bits wa 32 4
    let sb := bits wb 32 4
    let md := bits e.t 20 4
    let mt := getTile x md
    firstFail
      [notCurrent x (prodTiles p e r ++ [z]),
       failIf (!tileIs wa fa 32 cols) 0x0E (idw a),
       failIf (!bFits r fa wb) 0x0E (idw b),
       failIf (r.scales && !scaleIs p sa 32 (r.k / 32)) 0x0E (idw sa),
       failIf (r.scales && !scaleIs p sb (r.k / 32) 32) 0x0E (idw sb),
       failIf (r.metaCols != 0 && !tileIs (tileWord p md) 5 32 r.metaCols) 0x0E (idw md),
       failIf (r.metaCols != 0 && (List.range 32).any (rowBad mt 1)) 0x0C 0,
       failIf (r.metaCols != 0 && (List.range 32).any fun m => (List.range (r.k / 4)).any fun g =>
         decide (metaNibble mt m g / 4 ≤ metaNibble mt m g % 4)) 0x0E (idw md)]

/-- Checks of CMMA (R290). -/
def cmmaCheck (s : State) (pk : Nat) (e : MEntry) : MCheck :=
  let p := getPier s pk
  let a := bits e.t 0 4
  let b := bits e.t 4 4
  let z := bits e.t 8 2
  firstFail
    [failIf (z % 2 == 1) 0x0E (BitVec.ofNat 64 (16 + z)),
     notCurrent (getSite s (siteKey s pk)) [a, b, 16 + z, 17 + z],
     failIf (!tileIs (tileWord p a) 7 32 16) 0x0E (BitVec.ofNat 64 a),
     failIf (!tileIs (tileWord p b) 7 16 16) 0x0E (BitVec.ofNat 64 b)]

/-- The checks an entry makes when it executes (R319). -/
def mxCheck (s : State) (pk : Nat) (e : MEntry) : MCheck :=
  match e.op with
  | .mcfg => none
  | .mld | .mldw => mldCheck s pk e
  | .mstRaw | .mstBf16 | .mstF32 => mstCheck s pk e
  | .mzero => none
  | .mma | .mmas | .mmaf => prodCheck s pk e
  | .cmma => cmmaCheck s pk e

/-! Products (R107, R117 to R121, R127). -/

/-- The exact value of an element of a floating format (R104). -/
def mxVal (f b : Nat) : FV :=
  match f with
  | 0 => fvOf fmtBf16 b
  | 1 => fvOf fmtFp16 b
  | 2 => fvOf fmtE4m3 b
  | 3 => fvOf fmtE5m2 b
  | 4 => fvOf fmtE2m1 b
  | _ => fvOf fmtFp32 b

/-- Bits of an element of a format. -/
def mxBits (f : Nat) : Nat := if f = 4 then 4 else 8 * tileBytes f

/-- A signed byte. -/
def s8 (n : Nat) : Int := (BitVec.ofNat 8 n).toInt

/-- The tiles of a product: A and B, their scales, the metadata, A's and B's formats. -/
structure ProdIn where
  a : Tile
  b : Tile
  sa : Tile
  sb : Tile
  md : Tile
  fa : Nat
  fb : Nat
  r : Prod

/-- Slots of a row of A. -/
def aSlots (i : ProdIn) : Nat := rowSlots (if i.fa = 4 then 64 else (if i.r.metaCols = 0 then i.r.k else i.r.k / 2) * tileBytes i.fa)
/-- Slots of a row of B. -/
def bSlots (i : ProdIn) : Nat := rowSlots (if i.fa = 4 then 16 * i.r.g else 32 * i.r.g * tileBytes i.fb)

/-- Element `c` of A row `m`. -/
def aRaw (i : ProdIn) (m c : Nat) : Nat := tileField i.a (aSlots i) m (c * mxBits i.fa) (mxBits i.fa)
/-- Element b(k, n), packed rows taken apart (R322). -/
def bRaw (i : ProdIn) (k n : Nat) : Nat :=
  tileField i.b (bSlots i) (k / i.r.g) ((32 * (k % i.r.g) + n) * mxBits i.fb) (mxBits i.fb)

/-- A's value, stored at column `c`, standing at logical `k`, with its scale (R107). -/
def aVal (i : ProdIn) (m c k : Nat) : FV :=
  let v := mxVal i.fa (aRaw i m c)
  if i.r.scales then fvMul v (fvOfE8m0 (tileField i.sa 1 m (8 * (k / 32)) 8)) else v
/-- B's value with its scale. -/
def bVal (i : ProdIn) (k n : Nat) : FV :=
  let v := mxVal i.fb (bRaw i k n)
  if i.r.scales then fvMul v (fvOfE8m0 (tileField i.sb 1 (k / 32) (8 * n) 8)) else v

/-- The pairs (column of A, logical k) that group `g` of 16 sums for row `m` (R118, R119). -/
def groupTerms (i : ProdIn) (m g : Nat) : List (Nat × Nat) :=
  if i.r.metaCols = 0 then (List.range 16).map fun j => (16 * g + j, 16 * g + j)
  else
    (List.range 4).flatMap fun j =>
      let q := 4 * g + j
      let nb := metaNibble i.md m q
      [(2 * q, 4 * q + nb % 4), (2 * q + 1, 4 * q + nb / 4)]

/-- The rounded sum of a group (R118). -/
def groupSum (i : ProdIn) (m n g : Nat) : Nat :=
  rne fmtFp32 ((groupTerms i m g).foldl (fun acc t => fvAdd acc (fvMul (aVal i m t.1 t.2) (bVal i t.2 n))) (.fin true 0 0))

/-- One output word of MMA or MMAS from the word it had (R118, R119). -/
def mmaElem (i : ProdIn) (m n z : Nat) : Nat :=
  if i.fa = 5 then
    let t : Int := ((List.range (i.r.k / 16)).flatMap (groupTerms i m)).foldl
      (fun acc t => acc + s8 (aRaw i m t.1) * s8 (bRaw i t.2 n)) 0
    (BitVec.ofNat 32 z + BitVec.ofInt 32 t).toNat
  else (List.range (i.r.k / 16)).foldl (fun acc g => addF32 acc (groupSum i m n g)) z

/-- One output word of MMAF (R120). -/
def mmafElem (i : ProdIn) (m n z : Nat) : Nat :=
  (List.range 32).foldl (fun acc k =>
    rne fmtFp32 (fvAdd (fvOf fmtFp32 acc) (fvMul (aVal i m k k) (bVal i k n)))) z

/-- Whether row `m` of A, with its scales, is poisoned (R126, R127). -/
def aBad (i : ProdIn) (m : Nat) : Bool := rowBad i.a (aSlots i) m || (i.r.scales && rowBad i.sa 1 m)
/-- Whether b(k, ·), with its scales, is poisoned. -/
def bBad (i : ProdIn) (k : Nat) : Bool := rowBad i.b (bSlots i) (k / i.r.g) || (i.r.scales && rowBad i.sb 1 (k / 32))
/-- Whether output row `m` becomes poisoned (R127). -/
def outBad (i : ProdIn) (m : Nat) : Bool :=
  aBad i m || ((List.range (i.r.k / 16)).flatMap (groupTerms i m)).any fun t => bBad i t.2

/-- The tiles of an entry gathered. -/
def prodIn (s : State) (pk : Nat) (e : MEntry) (r : Prod) : ProdIn :=
  let p := getPier s pk
  let x := getSite s (siteKey s pk)
  let a := bits e.t 0 4
  let b := bits e.t 4 4
  { a := getTile x a, b := getTile x b, sa := getTile x (bits (tileWord p a) 32 4), sb := getTile x (bits (tileWord p b) 32 4),
    md := getTile x (bits e.t 20 4), fa := bits (tileWord p a) 0 4, fb := bits (tileWord p b) 0 4, r := r }

/-- Poison marks added to words of an accumulator. -/
def addBad (t : Tile) (f : Nat → Bool) : FMap Bool :=
  (List.range 1024).foldl (fun m i => if f i then fset m i true else m) t.poison

/-- A product's accumulator written (R118 to R120, R127, R328). -/
def prodDo (s : State) (pk : Nat) (e : MEntry) : State :=
  match prodRow e.op (bits (tileWord (getPier s pk) (bits e.t 0 4)) 0 4) with
  | none => s
  | some (r, _) =>
    let i := prodIn s pk e r
    adjTile s pk (16 + bits e.t 8 2) fun z =>
      { z with
        rows := accOf fun w =>
          if e.op = .mmaf then mmafElem i (w / 32) (w % 32) (accWord z w) else mmaElem i (w / 32) (w % 32) (accWord z w)
        poison := addBad z fun w => outBad i (w / 32) }

/-- One step of the compensated sum of R121 on a pair (hi, lo). -/
def cmmaStep (hl : Nat × Nat) (t : FV) : Nat × Nat :=
  let hi := fvOf fmtFp32 hl.1
  let thi := rne fmtFp32 t
  let th := fvOf fmtFp32 thi
  let zero : FV := .fin false 0 0
  let tlo := if fvFinite th then fvOf fmtFp32 (rne fmtFp32 (fvAdd t (fvNeg th))) else zero
  let sBits := rne fmtFp32 (fvAdd hi th)
  let sv := fvOf fmtFp32 sBits
  let er := if fvFinite sv then fvAdd (fvAdd hi th) (fvNeg sv) else zero
  (sBits, rne fmtFp32 (fvAdd (fvOf fmtFp32 hl.2) (fvOf fmtFp32 (rne fmtFp32 (fvAdd tlo er)))))

/-- A part of an element of a CF32 tile of 16 columns: rows of 128 bytes. -/
def cfVal (t : Tile) (r c part : Nat) : FV := fvOf fmtFp32 (tileField t 2 r (64 * c + 32 * part) 32)

/-- One word of both accumulators of a pair (R121, R291): word 2(16m + n) + part. -/
def cmmaWord (a b : Tile) (m n part : Nat) (hl : Nat × Nat) : Nat × Nat :=
  (List.range 16).foldl (fun hl k =>
    let ar := cfVal a m k 0
    let ai := cfVal a m k 1
    let br := cfVal b k n 0
    let bi := cfVal b k n 1
    cmmaStep hl (if part = 0 then fvAdd (fvMul ar br) (fvNeg (fvMul ai bi)) else fvAdd (fvMul ar bi) (fvMul ai br))) hl

/-- CMMA's pair written (R291). -/
def cmmaDo (s : State) (pk : Nat) (e : MEntry) : State :=
  let x := getSite s (siteKey s pk)
  let a := getTile x (bits e.t 0 4)
  let b := getTile x (bits e.t 4 4)
  let h := 16 + bits e.t 8 2
  let hi := getTile x h
  let lo := getTile x (h + 1)
  let v (w : Nat) : Nat × Nat := cmmaWord a b (w / 32) (w % 32 / 2) (w % 2) (accWord hi w, accWord lo w)
  let bad (w : Nat) : Bool := rowBad a 2 (w / 32) || (List.range 16).any (rowBad b 2)
  let s1 := adjTile s pk h fun z => { z with rows := accOf fun w => (v w).1, poison := addBad z bad }
  adjTile s1 pk (h + 1) fun z => { z with rows := accOf fun w => (v w).2, poison := addBad z bad }

/-! Row steps (R189, R323, R331, R333). -/

/-- One 64-byte step of a tile load: row `r`, slot `j` of the row. -/
def loadStep (s : State) (pk i spr rb r j v : Nat) (pz : Bool) : State :=
  adjTile s pk i fun t =>
    let n := min rb 64
    let old := (tileSlot t (r * spr + j)).toNat
    let bad := pz || (decide (0 < j) && rowBad t spr r)
    { t with
      rows := fset t.rows (r * spr + j) (BitVec.ofNat 512 (v % 2 ^ (8 * n) + old / 2 ^ (8 * n) * 2 ^ (8 * n)))
      poison := (List.range spr).foldl (fun m k => fset m (r * spr + k) bad) t.poison }

/-- Step `k` of MLD or MLDW. -/
def mldStep (s : State) (pk : Nat) (e : MEntry) (k : Nat) : State :=
  let i := bits e.t 0 4
  let w := tileWord (getPier s pk) i
  let rb := rowBytes w
  let spr := rowSlots rb
  let r := k / spr
  let j := k % spr
  let o := e.a.toNat + r * bits w 16 16 + 64 * j
  if e.op = .mld then loadStep s pk i spr rb r j (spadRead s pk o (min rb 64)) (spadPoisoned s pk o)
  else
    let x := getSite s (siteKey s pk)
    loadStep s pk i spr rb r j (mread x.slice o (min rb 64)) (pget x.slicePoison o)

/-- The value and the poison of step `k` of MST: row `r`, 64-byte part `j` (R330, R331). -/
def mstData (s : State) (pk : Nat) (e : MEntry) (spr r j : Nat) : Nat × Bool :=
  let x := getSite s (siteKey s pk)
  let src := bits e.t 0 5
  let t := getTile x src
  if e.op = .mstBf16 then
    ((rowOf fun l =>
        BitVec.ofNat 32 (rne fmtBf16 (fvOf fmtFp32 (accWord t (32 * r + 2 * l)))
          + 2 ^ 16 * rne fmtBf16 (fvOf fmtFp32 (accWord t (32 * r + 2 * l + 1))))).toNat,
     (List.range 32).any fun c => accBad t (32 * r + c))
  else if e.op = .mstF32 then
    let u := getTile x (src + 1)
    let w (l : Nat) : Nat := 32 * r + 16 * j + l
    ((rowOf fun l => BitVec.ofNat 32 (addF32 (accWord t (w l)) (accWord u (w l)))).toNat,
     (List.range 16).any fun l => accBad t (w l) || accBad u (w l))
  else if src < 16 then ((tileSlot t (r * spr + j)).toNat, rowBad t spr r)
  else ((tileSlot t (r * 2 + j)).toNat, (List.range 16).any fun l => accBad t (32 * r + 16 * j + l))

/-- Step `k` of MST: one access (R126, R162). -/
def mstStep (s : State) (pk : Nat) (e : MEntry) (k : Nat) : State :=
  let h := mstShape (getPier s pk) e
  let spr := rowSlots h.2.1
  let r := k / spr
  let j := k % spr
  let d := mstData s pk e spr r j
  let n := min h.2.1 64
  spadWrite s pk (e.a.toNat + r * h.2.2 + 64 * j) n (d.1 % 2 ^ (8 * n)) d.2

/-- The claimant of a tile or accumulator (R33, R321, R333). -/
def claim (s : State) (pk i : Nat) (e : MEntry) : State :=
  adjPier s pk fun p => { p with claims := fset p.claims i (some e.actor.toNat) }

/-- Step `k` of an entry. -/
def mxStep (s : State) (pk : Nat) (e : MEntry) (k : Nat) : State :=
  match e.op with
  | .mcfg =>
    let i := bits e.a 0 4
    adjTile (claim (adjPier s pk fun p => { p with tileCfg := fset p.tileCfg i e.t }) pk i e) pk i fun t => { t with current := true }
  | .mld | .mldw => mldStep s pk e k
  | .mstRaw | .mstBf16 | .mstF32 => mstStep s pk e k
  | .mzero =>
    adjTile s pk (16 + bits e.t 0 2) fun t =>
      { t with rows := fdel t.rows k, poison := t.poison.filter fun q => !(q.1 / 16 == k) }
  | .mma | .mmas | .mmaf => if k = 0 then prodDo s pk e else s
  | .cmma => if k = 0 then cmmaDo s pk e else s

/-- What the last step of an entry leaves beside its data: the current bit, the claimant (R227, R323, R333). -/
def mxLast (s : State) (pk : Nat) (e : MEntry) : State :=
  match e.op with
  | .mld | .mldw => adjTile s pk (bits e.t 0 4) fun t => { t with current := true }
  | .mzero => claim (adjTile s pk (16 + bits e.t 0 2) fun t => { t with current := true }) pk (16 + bits e.t 0 2) e
  | _ => s

/-- Whether a refresh holds the next step of an MLDW (R138). -/
def mldwWaits (s : State) (pk : Nat) (e : MEntry) (k : Nat) : Bool :=
  if e.op = .mldw then
    let w := tileWord (getPier s pk) (bits e.t 0 4)
    let spr := rowSlots (rowBytes w)
    refreshWait (getMod s (pkMod pk)).cyc ((e.a.toNat + k / spr * bits w 16 16 + 64 * (k % spr)) / 2 ^ 17) != 0
  else false

/-- The step that the running entry takes in this cycle. -/
def mxAdvance (s : State) (pk : Nat) (e : MEntry) (k : Nat) : State :=
  if mldwWaits s pk e k then s
  else
    let s1 := mxStep s pk e k
    if k + 1 < mxSteps (getPier s pk) e then adjPier s1 pk fun p => { p with mstep := k + 1 }
    else adjPier (mxLast s1 pk e) pk fun p => { p with mstep := k + 1 }

/-- An entry that fails a check leaves the queue; its run is frozen at the boundary if it is live, else a record is sent
(R209, R219). The slot names the move, where the record does (R207). -/
def mxFault (s : State) (pk : Nat) (e : MEntry) (code : Nat) (w3 : Word) : State :=
  let s1 := adjPier s pk fun p => { p with mq := p.mq.filter (fun q => !(q.tok == e.tok)), mrun := none, mstep := 0 }
  let x := getStrand s pk e.strand
  let w2 : Word := if code = 0x17 then 0 else if code = 0x0C then entryMove e.move (e.t.extractLsb' 0 32) else e.t
  let slot : BitVec 2 := if code = 0x0C then e.slot else 0
  if x.status = .running ∧ x.runid = e.runid ∧ x.actor = e.actor then
    takeFault s1 pk e.strand
      { code := BitVec.ofNat 16 code, slot := slot, unit := 7, w2 := w2, w3 := w3, brk := false, deferred := true } e.bundle x.pc
  else
    nowDo s1 (.deferredFaultReport
      { pk, lp := e.lp.toNat, actor := e.actor.toNat, strand := e.strand, runid := e.runid, bundle := e.bundle,
        code := BitVec.ofNat 16 code, unit := 7, slot := slot, w2 := w2, w3 := w3,
        w5 := if code = 0x06 ∨ code = 0x0C then liveW5 s pk e.strand e.runid else 0, notResident := false })

/-- The matrix queue's cycle (R189): the running entry takes its step, or the head begins once it may. -/
def execMatrixEntryExecute (pk : Nat) (s : State) : Out :=
  let p := getPier s pk
  go (match p.mq with
    | [] => s
    | e :: _ =>
      match p.mrun with
      | some _ => mxAdvance s pk e p.mstep
      | none =>
        if e.released = false ∨ s.cycle ≤ e.at_ then s
        else
          match mxCheck s pk e with
          | some x => mxFault s pk e x.1 x.2
          | none => mxAdvance (adjPier s pk fun p => { p with mrun := some e.tok, mstep := 0 }) pk e 0)

/-- An entry completes in its last cycle: the queue goes on and its completion sluice receives 1 (R319); an add that finds
no counter is discarded with a deferred record. -/
def execMatrixEntryComplete (pk : Nat) (s : State) : Out :=
  let p := getPier s pk
  go (match p.mq with
    | [] => s
    | e :: l =>
      if p.mrun ≠ some e.tok ∨ p.mstep < mxSteps p e then s
      else
        let s1 := adjPier s pk fun p => { p with mq := l, mrun := none, mstep := 0 }
        let n := mxSluice e.t
        if e.op = .mcfg ∨ n = 511 then s1
        else
          match slAddAt s1 pk n 1 { strand := e.strand, runid := e.runid, bundle := e.bundle } with
          | some s2 => s2
          | none =>
            nowDo s1 (.deferredFaultReport
              { pk, lp := e.lp.toNat, actor := e.actor.toNat, strand := e.strand, runid := e.runid, bundle := e.bundle,
                code := 0x10, unit := 7, slot := 0, w2 := 0, w3 := BitVec.ofNat 64 n, w5 := liveW5 s pk e.strand e.runid,
                notResident := false }))

end Sys2Proof.Machine
end

