-- ==== Sys2Proof/Machine/Inval.lean ====
section
/-!
DEFINITION. Invalidation of cached translations (R154, R157 to R159, R240, R362, R363), and the words of a stream
command that it needs (R253, R254).
-/

namespace Sys2Proof.Machine

/-- The job a request names. -/
def tlbiJob (r : TlbiReq) : BitVec 12 := r.t.extractLsb' 16 12

/-- The first byte and the size of the page that a kind 00 request names (R157, R362). -/
def tlbiPage (r : TlbiReq) : Nat × Nat :=
  let n := codeSize (bits r.t 2 2)
  (r.a.toNat / n * n, n)

/-- Whether a cached entry is removed by a request (R157). -/
def tlbiHits (r : TlbiReq) (e : TEntry) : Bool :=
  match bits r.t 0 2 with
  | 0 => e.job == tlbiJob r && decide (e.base < (tlbiPage r).1 + (tlbiPage r).2 ∧ (tlbiPage r).1 < e.base + e.size)
  | 1 => e.job == tlbiJob r
  | _ => true

/-- Whether an access by a pier of a job may have used an entry that a request removes. -/
def tlbiTouches (r : TlbiReq) (job : BitVec 12) (va : Word) : Bool :=
  !isAperture va && tlbiHits r { job, base := va.toNat, size := 1, leaf := 0, dirty := false }

/-- The agents in the scope of a request (R157): the four of its module, or those of every module of the job. DESIGN CHOICE, log entry 85: of
a request for every job, whose job field names none, the job is the one resident on the executing pier. -/
def tlbiAgents (s : State) (r : TlbiReq) : List (Nat × Nat) :=
  let m := pkMod r.pk
  let job := if bits r.t 0 2 = 2 then jobOf s r.pk else tlbiJob r
  let ms := if bitAt r.t 4 then (s.mods.map (·.1)).filter fun k => k == m || (partOfJob s k job).isSome else [m]
  ms.flatMap fun k => (List.range 4).map fun sp => (k, sp)

/-- The agent a request comes from. -/
def tlbiHome (s : State) (r : TlbiReq) : Nat × Nat := (pkMod r.pk, spanOf s r.pk)

/-- Whether an earlier request of the same strand has still to come to an agent, in flight or after a refusal (R363). -/
def tlbiBehind (s : State) (m sp : Nat) (r : TlbiReq) : Bool :=
  let earlier (i : Instr) : Bool :=
    match i with
    | .tlbiResend m' sp' q => m' == m && sp' == sp && q.pk == r.pk && q.strand == r.strand && decide (q.tok < r.tok)
    | _ => false
  s.cal.any (fun e => earlier e.2) || s.agenda.any fun w => match w with | .ev i => earlier i | .issue _ => false

/-- A request reaches an agent: at most 16 wait, those of one strand in the order of their issue, and a refused one comes again after 512
cycles (R363). -/
def tlbiArrive (s : State) (m sp : Nat) (r : TlbiReq) : State :=
  let a := getAgent s m sp
  if 16 ≤ a.queue.length ∨ tlbiBehind s m sp r = true then schedule s (s.cycle + 512) (.tlbiResend m sp r)
  else
    let s1 := adjAgent s m sp fun x => { x with queue := x.queue ++ [r] }
    if a.cur.isNone ∧ a.queue = [] then nowDo s1 (.invalidationAgent m sp) else s1

/-- A request comes to an agent, for the first time from another agent or again after a refusal (R363). -/
def execTlbiResend (mod span : Nat) (r : TlbiReq) (s : State) : Out := go (tlbiArrive s mod span r)

/-- The sites of a span that hold a translation or a pier context. -/
def sitesOf (s : State) (m sp : Nat) : List Nat :=
  let a := (s.sites.map (·.1)).filterMap fun k => if k / 1024 = m then some (k % 1024) else none
  let b := (s.piers.map (·.1)).filterMap fun pk => if pkMod pk = m ∧ pierLoc s pk = .piers then some (siteOf s pk) else none
  (a ++ b.filter fun x => !(a.contains x)).filter fun x => x / 256 == sp

/-- The pier contexts resident on a site. -/
def contextsAt (s : State) (m site : Nat) : List Nat :=
  (s.piers.map (·.1)).filter fun pk => pkMod pk == m && pierLoc s pk == .piers && siteOf s pk == site

/-- Requests forwarded to other agents. -/
def tlbiForward (s : State) (m : Nat) (r : TlbiReq) : List (Nat × Nat) → State
  | [] => s
  | a :: l => tlbiForward (launch s (latency s m .die a.1 .die) (.tlbiResend a.1 a.2 r)) m r l

/-- An agent begins the oldest request of its queue (R158 steps 1 and 2): its own entries go, its walks are discarded, the logs of its piers
are merged, each pier and abutment of its span hears of it, and the originating agent forwards it. DESIGN CHOICE, log entry 86: it does not
wait for a log entry whose table node is being moved; that entry is merged later (R156). -/
def execInvalidationAgent (mod span : Nat) (s : State) : Out :=
  let a := getAgent s mod span
  go (match a.cur, a.queue with
    | none, r :: l =>
      let sites := sitesOf s mod span
      let abuts := (List.range 32).map (span * 32 + ·)
      let all := tlbiAgents s r
      let home := tlbiHome s r == (mod, span)
      let s1 := adjAgent s mod span fun x =>
        { x with
          cache := x.cache.filter fun e => !tlbiHits r e
          queue := l
          cur := some { req := r, sites := sites, abuts := abuts }
          origin := if home then x.origin ++ [(r, all.length)] else x.origin }
      let s2 := (sites.flatMap (contextsAt s mod)).foldl (fun s pk => dlogMerge s pk (getPier s pk).dlogCount) (restartWalks s1 mod span)
      let s3 := sites.foldl (fun s k => nowDo s (.invalidationPier mod span k)) s2
      let s4 := abuts.foldl (fun s k => nowDo s (.invalidationAbutment mod k)) s3
      if home then tlbiForward s4 mod r (all.filter fun x => x != (mod, span)) else s4
    | _, _ => s)

/-- An acknowledgement at an agent: when none is left the agent completes (R158 step 5). -/
def invalAcked (s : State) (m sp : Nat) (i : Inval) : State :=
  let s1 := adjAgent s m sp fun x => { x with cur := some i }
  if i.sites = [] ∧ i.abuts = [] then nowDo s1 (.invalidationComplete m sp) else s1

/-- The gm requests of a pier that were issued under an entry a request removes and are not acknowledged (R158 step 3). -/
def outstanding (s : State) (r : TlbiReq) (pk : Nat) : Bool :=
  let p := getPier s pk
  p.strands.any (fun x => (entriesOf x.2).any fun e => e.kind == .gm && e.issued && tlbiTouches r (jobOf s pk) e.req.va) ||
    p.late.any fun l => tlbiTouches r (jobOf s pk) l.va

/-- A pier removes its matching entries and acknowledges once its accesses under them are (R158 step 3); `lp` is the number
of the site. -/
def execInvalidationPier (mod span lp : Nat) (s : State) : Out :=
  go (match (getAgent s mod span).cur with
    | none => s
    | some i =>
      if i.sites.contains lp = false then s
      else
        let s1 :=
          { s with sites := fadj s.sites (mod * 1024 + lp) {} fun x => { x with tcache := x.tcache.filter fun e => !tlbiHits i.req e } }
        if (contextsAt s mod lp).any (outstanding s i.req) then schedule s1 (s.cycle + 1) (.invalidationPier mod span lp)
        else invalAcked s1 mod span { i with sites := i.sites.filter (· != lp) })

/-! Command words (R253). -/

/-- The stream tag. -/
def cmdTag (c : StreamCmd) : Nat := bits c.t 7 10
/-- The priority of R191. -/
def cmdPrio (c : StreamCmd) : Nat := bits c.t 17 2
/-- The scratchpad-side actor. -/
def cmdActor (c : StreamCmd) : BitVec 28 := c.q1.extractLsb' 0 28
/-- Flits per increment. -/
def cmdN (c : StreamCmd) : Nat := bits c.q1 48 16
/-- The sluice to increment; 0x1FF is none. -/
def cmdSluice (c : StreamCmd) : Nat := bits c.q1 28 9
/-- The credit sluice; 0x1FF is none. -/
def cmdCredit (c : StreamCmd) : Nat := bits c.q1 37 9
/-- The ring size in flits. -/
def cmdRing (c : StreamCmd) : Nat := bits c.q2 20 16
/-- The kind. -/
def cmdKind (c : StreamCmd) : Nat := c.kind.toNat
/-- A stream that writes memory from a scratchpad. -/
def cmdWrites (c : StreamCmd) : Bool := cmdKind c == 1 || cmdKind c == 3
/-- A stream with an index list. -/
def cmdGathers (c : StreamCmd) : Bool := cmdKind c == 2 || cmdKind c == 3
/-- Whether a command has an extension record (R254). -/
def cmdExt (c : StreamCmd) : Bool := (cmdKind c == 0 || cmdKind c == 1) && c.q5 != 0
/-- The scratchpad offset of a flit (R253, R353, R354). -/
def cmdOffset (c : StreamCmd) (f : Nat) : Nat :=
  bits c.q2 0 18 + 64 * (if cmdRing c = 0 then f else f % cmdRing c)
/-- The segment table of an SSEG and its number of segments (R254). -/
def segTable (c : StreamCmd) : Word := BitVec.ofNat 64 (bits c.q5 3 52 * 8)
/-- Segments of an SSEG. -/
def segCount (c : StreamCmd) : Nat := bits c.q5 55 9

/-- The first flit that a stream may still have to translate. -/
def scanBase (t : Stream) : Nat := if cmdWrites t.cmd then t.low else if cmdKind t.cmd = 5 then t.rd else t.next

/-- A stream without the extents that a request removes; it translates afresh from the flit it is at (R158). -/
def discardExtents (t : Stream) (r : TlbiReq) : Stream :=
  if t.extents.any (tlbiHits r) then
    { t with extents := t.extents.filter fun e => !tlbiHits r e, scan := scanBase t, ahead := scanBase t, cross := [] }
  else t

/-- An abutment discards the matching extents of its streams, which are translated afresh (R158 step 4). -/
def execInvalidationAbutment (mod abut : Nat) (s : State) : Out :=
  let span := abut / 32
  go (match (getAgent s mod span).cur with
    | none => s
    | some i =>
      let s1 := adjAbut s mod abut fun x =>
        { x with ctxs := x.ctxs.map fun c => (c.1, c.2.map fun t => discardExtents t i.req) }
      invalAcked s1 mod span { i with abuts := i.abuts.filter (· != abut) })

/-- One agent less for a request at the agent that originated it. -/
def originLess : List (TlbiReq × Nat) → TlbiReq → List (TlbiReq × Nat)
  | [], _ => []
  | x :: l, r => if x.1 = r ∧ 0 < x.2 then (x.1, x.2 - 1) :: l else x :: originLess l r

/-- The completion sluice and the host hear of the end of a request (R158 step 6, R363). Event 0x0003 carries eight bytes, zero but
for the flag [0] that R363 sets for an add that is discarded (DESIGN CHOICE, log entry 84: R363 gives the flag alone). -/
def invalDone (s : State) (m : Nat) (r : TlbiReq) : State :=
  let n := bits r.t 32 9
  let e (s : State) (flag : Bool) : State := sendEvent s m 3 (tlbiJob r) (wordBytes (boolWord flag))
  if n = 511 then e s false
  else
    match slAddAt s r.pk n 1 { strand := r.strand, runid := r.runid, bundle := r.bundle } with
    | some s1 => e s1 false
    | none => e s true

/-- An agent completes a request, and takes the next; the originating agent completes when all have (R158 steps 5, 6). -/
def execInvalidationComplete (mod span : Nat) (s : State) : Out :=
  let a := getAgent s mod span
  let s1 :=
    match a.cur with
    | some i =>
      if i.sites = [] ∧ i.abuts = [] then
        let s1 := adjAgent s mod span fun x => { x with cur := none }
        let h := tlbiHome s i.req
        let s2 := adjAgent s1 h.1 h.2 fun x => { x with origin := originLess x.origin i.req }
        let s3 := if h = (mod, span) then s2 else launch s2 (latency s mod .die h.1 .die) (.invalidationComplete h.1 h.2)
        if a.queue = [] then s3 else nowDo s3 (.invalidationAgent mod span)
      else s
    | none => s
  let done := (getAgent s1 mod span).origin.filter fun x => x.2 == 0
  let s2 := adjAgent s1 mod span fun x => { x with origin := x.origin.filter fun y => !(y.2 == 0) }
  go (done.foldl (fun s x => invalDone s mod x.1) s2)

end Sys2Proof.Machine
end

