-- ==== Sys2Proof/Machine/Sl.lean ====
section
/-!
DEFINITION. The meanings of sl and of the arrivals at sluices (R57 to R63, R244, R341 to R349).
-/

namespace Sys2Proof.Machine

/-- Port a names the sluice (R341). -/
def slIx (a : Value) : Nat := (vsc a).toNat % 512

/-- What local sluice triggers need: port a; every value steers (R128, R341). -/
def needSl : Need := { unit := 10, a := some .slA, steerT := true, steerA := true }

/-- Checks 1 and 2 of R342 for a local operation, then its own: privilege, then the mode. -/
def slChecked (s : State) (n : Nat) (allowed : Sluice → Bool) (k : Trig) : Trig :=
  if 496 ≤ n ∧ curService s = false then .fault 0x0D (BitVec.ofNat 64 n)
  else if allowed (getSluice s s.issue.pk n) = false then .fault 0x10 (BitVec.ofNat 64 n)
  else k

/-- The action word as SARM writes it: the reserved fields of its mode are ignored and read zero (R5, R58, R343). In mode off no
row of R58 lays out bits [46:0], and they are kept (log entry 68). -/
def sarmWord (t : Word) : Word :=
  match bits t 62 2 with
  | 0 => t
  | 1 => setBits t 41 6 0
  | 2 => setBits (setBits t 39 8 0) 0 26 0
  | _ => setBits (setBits t 42 5 0) 0 26 0

/-- A sluice as SARM leaves it in the mode of the word (R343). -/
def sarmSluice (x : Sluice) (t : Word) : Sluice :=
  match bits t 62 2 with
  | 0 => { x with action := sarmWord t, armed := false, leads := [] }
  | 1 => { x with action := sarmWord t, armed := true, leads := [] }
  | 2 => { x with action := sarmWord t, leads := List.replicate (bits t 32 7) 0 }
  | _ => { x with action := sarmWord t, leads := [] }

/-- SARM's effect on a sluice of a pier (R343): in counter mode the check of R59 follows. -/
def sarmSet (s : State) (pk n : Nat) (t : Word) (c : Cause := {}) : State :=
  let s1 := setSluice s pk n (sarmSluice (getSluice s pk n) t)
  slSettle (if bits t 62 2 = 1 then slCheck s1 pk n c else s1) pk n

/-- SARM's value checks (R343): the member count and number of a home, and the leads that the pier has left (R225). -/
def sarmFault (s : State) (pk n : Nat) (t : Word) : Option (Nat × Word) :=
  let cnt := bits t 32 7
  if bits t 62 2 ≠ 2 then none
  else if cnt = 0 ∨ 64 < cnt ∨ cnt ≤ bits t 26 6 then some (0x03, t)
  else if 4096 < leadsUsed (getPier s pk) - (getSluice s pk n).leads.length + cnt then some (0x10, BitVec.ofNat 64 n)
  else none

/-- SARM on a sluice of a pier. -/
def sarmAt (s : State) (pk n : Nat) (t : Word) : Trig :=
  match sarmFault s pk n t with
  | some f => .fault f.1 f.2
  | none => .ok (sarmSet s pk n t)

/-- Whether a trigger that waits in its bundle no longer covers a gm request that is not performed: a command covers every one,
a sluice operation those whose home is the pier (R152, R169). -/
def owedReady (pk : Nat) (y : Strand) : OwedOp → Bool
  | .stream _ _ => y.inf.all fun e => match e.2 with | some i => i.kind != .gm | none => true
  | _ => y.inf.all fun e =>
      match e.2 with
      | some i => i.kind != .gm || !inScopeOf (pkMod pk) y.lp.toNat .pier i
      | none => true

/-- Whether a sluice operation of another strand of the pier that waited in its bundle is made in this cycle, so that those of the cycle are
made together, in the order of R63. -/
def owedMeets (s : State) : Bool :=
  (curPier s).strands.any fun e => e.1 != s.issue.strand && (e.2.owed.head?.any fun o =>
    (match o.op with | .stream _ _ => false | _ => true) && owedReady s.issue.pk e.2 o.op)

/-- A trigger of the bundle in hand that is made later. -/
def owedOf (s : State) (t : Value) (o : OwedOp) : Owed := { op := o, bundle := s.issue.addr, move := moveWord s t, slot := s.issue.slot }

/-- A local operation that covers the run's accesses of its own pier (R169): it is made at once, or, beside a gm access to the
pier in its own bundle, waits for it in the bundle; where others meet it in the cycle, it takes its place among them (R63, R342, R349). -/
def coverHere (s : State) (o : Owed) (now : State) : State :=
  if gmHereIn s .pier || owedMeets s then adjCur s fun x => { x with owed := x.owed ++ [o] } else now

/-- What holds SADD, SSET and SARM: an earlier access of the run to its own pier that is not performed (R169, R345). -/
def slHeld (s : State) (_ _ _ : Value) : Bool := (gmEntries s).any (inScope s .pier)

/-- SARM on the executing pier. -/
def sarmDo (s : State) (n : Nat) (t : Value) : Trig :=
  match sarmFault s s.issue.pk n (vsc t) with
  | some f => .fault f.1 f.2
  | none => .ok (coverHere s (owedOf s t (.sarm n (vsc t))) (sarmSet s s.issue.pk n (vsc t) (causeHere s)))

/-- Whether a sluice lets SARM go on: it is no home with a lead that is not zero (R63). -/
def sarmAllowed (x : Sluice) : Bool := !(slMode x == 2 && x.leads.any (· != 0))

/-- SARM (R343): misuse of a home that holds a non-zero lead (R63). -/
def execSarm (m : Mv) (s : State) : Out :=
  go (runTrigger s m needSl slHeld fun s t a _ => slChecked s (slIx a) sarmAllowed (sarmDo s (slIx a) t))

/-- SSET (R344): count, target, armed, and the phase where A[16] is set; then the check. -/
def ssetAt (s : State) (pk n : Nat) (a t : Word) (c : Cause := {}) : State :=
  slSettle (slUpdate s pk n (fun x =>
    { x with
      count := t.extractLsb' 0 32
      target := t.extractLsb' 32 32
      armed := true
      phase := if bitAt a 16 then a.extractLsb' 17 2 else x.phase }) c) pk n

/-- SSET on the executing pier. -/
def ssetDo (s : State) (n : Nat) (a : Word) (t : Value) : State :=
  coverHere s (owedOf s t (.sset n a (vsc t))) (ssetAt s s.issue.pk n a (vsc t) (causeHere s))

/-- SSET (R344). -/
def execSset (m : Mv) (s : State) : Out :=
  go (runTrigger s m needSl slHeld fun s t a _ =>
    slChecked s (slIx a) (fun _ => true) (.ok (ssetDo s (slIx a) (vsc a) t)))

/-- SADD on a sluice of a pier (R345). -/
def saddAt (s : State) (pk n : Nat) (v : BitVec 32) (c : Cause := {}) : State := slSettle (slAdd s pk n v c) pk n

/-- SADD on the executing pier. -/
def saddDo (s : State) (n : Nat) (t : Value) : State :=
  let v : BitVec 32 := (vsc t).extractLsb' 0 32
  coverHere s (owedOf s t (.sadd n v)) (saddAt s s.issue.pk n v (causeHere s))

/-- SADD (R345). -/
def execSadd (m : Mv) (s : State) : Out :=
  go (runTrigger s m needSl slHeld fun s t a _ =>
    slChecked s (slIx a) (fun x => slMode x == 1) (.ok (saddDo s (slIx a) t)))

/-- An entry of the run in hand joins the outbox. -/
def enqueueCur (s : State) (key : StreamKey) (body : OutBody) (w2 w3 : Word) (unit : Nat) : State :=
  let x := curStrand s
  enqueue s s.issue.pk key body x.actor.toNat x.runid s.issue.addr s.issue.strand w2 w3 (BitVec.ofNat 5 unit) s.issue.slot
    (gmHere s)

/-- Whether the outbox takes no send of the bundle in hand (R50, R80): the record of a fault that an earlier slot has found is not counted,
since that bundle takes no effect. -/
def outShut (s : State) : Bool := outFull (curPier s) && (s.issue.fault.isNone || decide (64 ≤ s.issue.out))

/-- A send waits while the outbox is full (R50, R80) or R152 holds it. -/
def sendHeld (s : State) (_ _ _ : Value) : Bool := outShut s || holdRelease s

/-- SRADD (R345). -/
def execSradd (m : Mv) (s : State) : Out :=
  go (runTrigger s m { unit := 10, a := some .slA, b := some .slB, steerT := true, steerA := true, steerB := true } sendHeld
    fun s t a b =>
      let n := slIx b
      if 496 ≤ n ∧ curService s = false then .fault 0x0D (BitVec.ofNat 64 n)
      else
        let aw : BitVec 28 := (vsc a).extractLsb' 0 28
        let g : SlAdd := { mod := awMod aw, pier := awPier aw, job := jobOf s s.issue.pk, sl := BitVec.ofNat 9 n, form := 0,
                           member := 0, add := (vsc t).extractLsb' 0 32, cancelled := false, frm := .nobody, graph := some (curActor s).graph }
        .ok (enqueueCur s (.toPier (curActorIx s) (awMod aw) (awPier aw)) (.add g) (moveWord s t) (vsc a) 10))

/-- The scope of an arrive of the run in hand. -/
def sarvScope (s : State) (x : Sluice) : Scope := sarvScopeAt (curLp s) x

/-- What holds a SARV (R50, R61, R152). -/
def sarvHeld (s : State) (_ a _ : Value) : Bool :=
  let x := getSluice s s.issue.pk (slIx a)
  gmAwaiting s || (gmEntries s).any (inScope s (sarvScope s x)) ||
    (slMode x == 3 && slLead x != 3 && outShut s)

/-- SARV (R346): at a lead of 3 the strand blocks, and beside a gm access of its own bundle that it covers (R169); else the arrive
is made and its phase is the result 2 cycles on. -/
def sarvDo (s : State) (n : Nat) (t : Value) : State :=
  let pk := s.issue.pk
  let x := getSluice s pk n
  if slLead x = 3 ∨ gmHereIn s (sarvScope s x) = true then
    let tok := s.tok
    let p : Pending := { tok, unit := 10, r := none, h := none, create := none, seed := false, sample := none }
    adjCur { s with tok := tok + 1 } fun y => { pendPort y (portIx 10 0) tok true with pend := y.pend ++ [p], wait := .sarv n s.issue.addr (moveWord s t) s.issue.slot }
  else
    slSettle (sarvArrive (pendResult s 10 2 (some (Value.ofWord (sarvPhase x))) none false none) pk s.issue.strand n s.issue.addr
      (moveWord s t) s.issue.slot) pk n

/-- SARV (R346). -/
def execSarv (m : Mv) (s : State) : Out :=
  go (runTrigger s m needSl sarvHeld fun s t a _ =>
    slChecked s (slIx a) (fun x => 2 ≤ slMode x) (.ok (sarvDo s (slIx a) t)))

/-- A wait begins (R62, R347): its first check is made at the end of the cycle, after the cycle's updates, and one that holds
then costs nothing more. -/
def startWait (s : State) (w : Wait) : State := adjCur s fun x => { x with wait := w }

/-- SWAIT (R347). -/
def execSwait (m : Mv) (s : State) : Out :=
  go (runTrigger s m needSl noHold fun s t a _ =>
    slChecked s (slIx a) (fun x => slMode x != 0) (.ok (startWait s (.sluice (slIx a) ((vsc t).extractLsb' 0 32)))))

/-- SWAIT.ph (R347). -/
def execSwaitPh (m : Mv) (s : State) : Out :=
  go (runTrigger s m needSl noHold fun s t a _ =>
    slChecked s (slIx a) (fun _ => true) (.ok (startWait s (.phase (slIx a) ((vsc t).extractLsb' 0 2)))))

/-- The item that SGET returns (R348). -/
def sgetItem (x : Sluice) (item : Nat) : Word :=
  match item with
  | 0 => BitVec.ofNat 64 x.count.toNat
  | 1 => BitVec.ofNat 64 x.target.toNat
  | 2 => BitVec.ofNat 64 (x.phase.toNat + b2n x.armed * 4 + slMode x * 16 + slLead x * 256)
  | _ => x.action

/-- SGET (R348): the item is sampled at the end of the cycle. -/
def execSget (m : Mv) (s : State) : Out :=
  go (runTrigger s m needSl noHold fun s t a _ =>
    slChecked s (slIx a) (fun _ => true)
      (let tok := s.tok
       let p : Pending :=
         { tok, unit := 10, r := none, h := none, create := none, seed := false, sample := some (slIx a, (vsc t).toNat % 4) }
       let s1 := adjCur { s with tok := tok + 1 } fun y => { pendPort y (portIx 10 0) tok true with pend := y.pend ++ [p] }
       .ok (schedule s1 (s.cycle + 2) (.resultPortWrite s.issue.pk s.issue.strand 10 tok))))

/-- The samples of a strand taken (R348). -/
def takeSamples (p : Pier) (x : Strand) : Strand :=
  { x with
    pend := x.pend.map fun q =>
      match q.sample with
      | some (n, item) => { q with r := some (Value.ofWord (sgetItem (pierSluice p n) item)), sample := none }
      | none => q }

/-! Arrivals (R61, R63, R222, R244). -/

/-- Where a sluice-add message arrives: its pier, or the status it is answered with at once (R47, R222, R234); one of a level that is
being cancelled is discarded (R67). -/
def slTarget (s : State) (a : SlAdd) : Except (BitVec 3) Nat :=
  match pkOfAddr s a.mod a.pier a.job with
  | none => .error 2
  | some pk =>
    if (getPier s pk).lost then .error 2
    else if (getPier s pk).cancels.any (fun c => addBelongs s c a) = true then .error 0
    else if residentOpen s pk = false ∨ (getPier s pk).fenced = true then .error 1
    else .ok pk

/-- The place an arrival is answered from. -/
def slPlace (s : State) (a : SlAdd) : Place := destPlace s a.mod a.pier a.job

/-- The cancelled mark of a completion add reaches the parent's link entry (R66). -/
def markCancelled (s : State) (pk n : Nat) (c : Bool) : State :=
  let l := linkOf (getPier s pk) n
  if c ∧ bitAt l 63 then setLink s pk n (setBits l 60 1 1) else s

/-- An SRADD, a GDONE add or a completion add arrives (R63, R345). -/
def addArrive (s : State) (a : SlAdd) : State :=
  match slTarget s a with
    | .error st => answer s a.mod (slPlace s a) a.frm st
    | .ok pk =>
      if a.form ≠ 0 then answer s a.mod (slPlace s a) a.frm 5
      else
        match slAddAt (markCancelled s pk a.sl.toNat a.cancelled) pk a.sl.toNat a.add (causeOf s a.frm) with
        | some s1 => answer s1 a.mod (slPlace s a) a.frm 0
        | none => answer s a.mod (slPlace s a) a.frm 5

/-- A sluice whose check was met in the cycle before is checked again (R59). -/
def execSluiceRecheck (pk sl : Nat) (s : State) : Out :=
  go (if (getSluice s pk sl).again then slSettle (slCheck s pk sl) pk sl else s)

/-- The pier an entry came from. -/
def frmPk (e : AckTo) (d : Nat) : Nat :=
  match e with
  | .outbox pk _ => pk
  | _ => d

/-- A member's arrive reaches the home (R61). -/
def barrierArrive (s : State) (a : SlAdd) : State :=
  match slTarget s a with
    | .error st => answer s a.mod (slPlace s a) a.frm st
    | .ok pk =>
      let x := getSluice s pk a.sl.toNat
      if slMode x = 2 ∧ a.member.toNat < x.leads.length then
        answer (slSettle (homeArrive s pk a.sl.toNat a.member.toNat (frmPk a.frm pk) (causeOf s a.frm)) pk a.sl.toNat) a.mod (slPlace s a) a.frm 0
      else answer s a.mod (slPlace s a) a.frm 5

/-- A phase notice reaches a member (R61): its phase advances and its action is performed. -/
def noticeArrive (s : State) (a : SlAdd) : State :=
  match slTarget s a with
    | .error st => answer s a.mod (slPlace s a) a.frm st
    | .ok pk =>
      let n := a.sl.toNat
      let x := getSluice s pk n
      if slMode x = 3 then
        let s1 := setSluice s pk n { x with phase := x.phase + 1 }
        answer (slSettle (slAction s1 pk n x.action (x.phase + 1) x.count false (causeOf s a.frm)) pk n) a.mod (slPlace s a) a.frm 0
      else answer s a.mod (slPlace s a) a.frm 5

/-- An SRADD, a GDONE add or a completion add arrives (R63, R345). -/
def execSluiceAddArrival (a : SlAdd) (s : State) : Out := go (addArrive s a)
/-- A member's arrive reaches the home (R61). -/
def execBarrierArriveArrival (a : SlAdd) (s : State) : Out := go (barrierArrive s a)
/-- A phase notice reaches a member (R61). -/
def execPhaseNoticeArrival (a : SlAdd) (s : State) : Out := go (noticeArrive s a)

/-- A sluice-add message that the host has injected (R244, R398): its form says what it is. -/
def slMessage (s : State) (g : Msg) (frm : AckTo) : State :=
  let p0 := lgetD g.pay 0 0
  let a : SlAdd := { mod := g.dmod.toNat, pier := g.dpier.toNat, job := g.job, sl := p0.extractLsb' 0 9, form := p0.extractLsb' 9 2,
                     member := p0.extractLsb' 11 6, add := (lgetD g.pay 1 0).extractLsb' 0 32, cancelled := false, frm, graph := some g.graph }
  if a.form = 1 then barrierArrive s a else if a.form = 2 then noticeArrive s a else addArrive s a

end Sys2Proof.Machine
end

