-- ==== Sys2Proof/Machine/Sg.lean ====
section
/-!
DEFINITION. The meanings of sg (R350, R351, R358) and the ground of the streams: command words, geometry, records, the end
of a stream (R17, R191, R253, R254, R352).
-/

namespace Sys2Proof.Machine

/-! Triggers. -/

/-- The checks of R351 at step 6 of R89, for every form but SCANC; SXCH skips those on q2. -/
def sgChecked (s : State) (kind : Nat) (q : Nat → Word) (t : Word) (k : Trig) : Trig :=
  let xch := kind == 5
  let off := if kind = 6 then bits (q 2) 0 20 else bits (q 2) 0 18
  let bad (n : Nat) : Bool := 496 ≤ n && n ≤ 510 && !curService s
  if bits t 19 45 ≠ 0 then .fault 0x03 t
  else if kind = 7 then k
  else if xch = false ∧ 9 ≤ bits (q 2) 36 4 then .fault 0x03 (q 2)
  else if bits (q 0) 56 8 ≠ 0 then .fault 0x09 (q 0)
  else if xch = false ∧ off % 64 ≠ 0 then .fault 0x07 (BitVec.ofNat 64 off)
  else if bad (bits (q 1) 28 9) then .fault 0x0D (BitVec.ofNat 64 (bits (q 1) 28 9))
  else if bad (bits (q 1) 37 9) then .fault 0x0D (BitVec.ofNat 64 (bits (q 1) 37 9))
  else if kind = 6 ∧ bits (q 2) 20 16 ≠ 0 then .fault 0x03 (q 2)
  else k

/-- A q-word that a stream command reads is poisoned (R128): SCANC reads none, SXCH not q2. -/
def sgPoisoned (x : Strand) (kind : Nat) : Bool :=
  kind != 7 && (List.range 6).any fun i => !(kind == 5 && i == 2) && (readQ x i).poison

/-- A stream command waits for an in-flight entry and for what R152 holds it behind. -/
def sgHeld (s : State) (_ _ _ : Value) : Bool := (freeEntry (curStrand s)).isNone || holdRelease s

/-- The path of a pier's commands to an abutment. -/
def sgPath (a : Nat) : Nat := 2 ^ 25 + a

/-- A command leaves for its abutment. -/
def sgSend (s : State) (pk a : Nat) (c : StreamCmd) : State :=
  launchOn s pk (sgPath a) (latency s (pkMod pk) (placeOf s pk) (pkMod pk) (.abut a)) (.streamCommandAccept (pkMod pk) a c)

/-- A command is triggered; its entry and sg.s wait for the answer (R81, R191, R350). It covers the gm requests of its own bundle
and waits for them there (R152, R169). -/
def sgStart (s : State) (kind : Nat) (q : Nat → Word) (t : Value) : State :=
  let pk := s.issue.pk
  let x := curStrand s
  let tok := s.tok
  let i := (freeEntry x).getD 0
  let a := bits (vsc t) 0 7
  let c : StreamCmd :=
    { pk, lp := x.lp.toNat, strand := s.issue.strand, entry := i, tok, actor := x.actor.toNat, runid := x.runid,
      bundle := s.issue.addr, move := moveOf s, kind := BitVec.ofNat 3 kind, q0 := q 0, q1 := q 1, q2 := q 2, q3 := q 3,
      q4 := q 4, q5 := q 5, t := vsc t, slot := s.issue.slot }
  let e : Inflight :=
    { kind := .sg, tok, issued := true, bundle := s.issue.addr, move := moveOf s, tlow := BitVec.ofNat 32 (vsc t).toNat,
      req := { pk, strand := s.issue.strand, entry := i, tok, op := 0, va := 0, mod := 0, loc := 0, dom := 0, val := Value.zero,
               exp := Value.zero, job := 0 },
      slot := s.issue.slot }
  let covers := !(gmHere s).isEmpty
  let p : Pending := { tok, unit := 11, r := none, h := none, create := none, seed := false, sample := none }
  let s1 := adjCur { s with tok := tok + 1 } fun x =>
    { pendPort x (portIx 11 2) tok true with
      inf := fset x.inf i (some e)
      pend := x.pend ++ [p]
      owed := if covers then x.owed ++ [owedOf s t (.stream a c)] else x.owed }
  if covers then s1 else sgSend s1 pk a c

/-- The checks that an operation meets when it is made, after the updates ahead of it in the cycle (R342). -/
def owedFault (s : State) (pk : Nat) : OwedOp → Option (Nat × Word)
  | .sarm n t => if sarmAllowed (getSluice s pk n) then sarmFault s pk n t else some (0x10, BitVec.ofNat 64 n)
  | .sadd n _ => if slMode (getSluice s pk n) = 1 then none else some (0x10, BitVec.ofNat 64 n)
  | _ => none

/-- A trigger that waited in its bundle takes effect. -/
def owedDo (s : State) (pk st : Nat) (runid : BitVec 32) (o : Owed) : State :=
  let c : Cause := { strand := st, runid, bundle := o.bundle }
  match o.op with
  | .sarm n t => sarmSet s pk n t c
  | .sset n a t => ssetAt s pk n a t c
  | .sadd n v => saddAt s pk n v c
  | .stream a d => sgSend s pk a { d with pk, strand := st }

/-- A trigger that waited is made, or faults: a live run at the boundary, as its bundle has issued; of another run a deferred record tells
(DEDUCED, log entry 15). -/
def owedMake (s : State) (pk st : Nat) (live : Bool) (lp actor : Nat) (runid : BitVec 32) (o : Owed) : State :=
  match owedFault s pk o.op with
  | none => owedDo s pk st runid o
  | some f =>
    if live then
      takeFault s pk st { code := BitVec.ofNat 16 f.1, slot := o.slot, unit := 10, w2 := o.move, w3 := f.2, brk := false } o.bundle
        (getStrand s pk st).pc
    else
      nowDo s (.deferredFaultReport
        { pk, lp, actor, strand := st, runid, bundle := o.bundle, code := BitVec.ofNat 16 f.1, unit := 10, slot := o.slot, w2 := o.move,
          w3 := f.2, w5 := liveW5 s pk st runid, notResident := false })

/-- The place of an operation among those of a cycle (R63): SARM and SSET, then SADD, then what is no sluice operation. -/
def owedRank : OwedOp → Nat
  | .sarm _ _ => 0
  | .sset _ _ _ => 0
  | .sadd _ _ => 1
  | .stream _ _ => 2

/-- The first trigger that waits in a strand's bundle takes effect, where it is of a rank and ready. -/
def owedSettle (s : State) (pk rank st : Nat) : State :=
  let y := getStrand s pk st
  match y.owed with
  | o :: l =>
    if owedRank o.op = rank ∧ (y.status = .running ∨ y.status = .frozen) ∧ owedReady pk y o.op = true then
      owedMake (adjStrand s pk st fun z => { z with owed := l }) pk st (y.status == .running) y.lp.toNat y.actor.toNat y.runid o
    else s
  | [] => s

/-- What discarded runs still owe takes effect once the requests that it covers are performed (R215). -/
def owedLeftSettle (s : State) (pk rank : Nat) : State :=
  let p := getPier s pk
  let ready (o : OwedLeft) : Bool := owedRank o.what.op == rank && o.toks.all fun t => p.late.all (·.tok != t)
  (p.owedLeft.filter ready).foldl (fun s o => owedMake s pk o.strand false o.lp o.actor o.runid o.what)
    (adjPier s pk fun p => { p with owedLeft := p.owedLeft.filter fun o => !ready o })

/-- The triggers of a pier that wait in their bundles are made as they become ready, in the order of R63: kind by kind, in the order of the
strands. -/
def owedAll (s : State) (pk : Nat) : State :=
  if (getPier s pk).owedLeft = [] ∧ (getPier s pk).strands.all (fun e => e.2.owed == []) = true then s
  else
    [0, 1, 2].foldl (fun s rank =>
      owedLeftSettle ((List.range 8).foldl (fun s st => owedSettle s pk rank st) s) pk rank) s

/-- An sg trigger (R350, R351). -/
def runSg (s : State) (m : Mv) (kind : Nat) : State :=
  runTrigger s m { unit := 11, steerT := true } sgHeld fun s t _ _ =>
    let q (i : Nat) : Word := vsc (readQ (curStrand s) i)
    if sgPoisoned (curStrand s) kind then .fault 0x0C 0 else sgChecked s kind q (vsc t) (.ok (sgStart s kind q t))

/-- SREAD (R350). -/
def execSread (m : Mv) (s : State) : Out := go (runSg s m 0)
/-- SWRITE (R350). -/
def execSwrite (m : Mv) (s : State) : Out := go (runSg s m 1)
/-- SGATH (R350). -/
def execSgath (m : Mv) (s : State) : Out := go (runSg s m 2)
/-- SSCAT (R350). -/
def execSscat (m : Mv) (s : State) : Out := go (runSg s m 3)
/-- SSEG (R350). -/
def execSseg (m : Mv) (s : State) : Out := go (runSg s m 4)
/-- SXCH (R350). -/
def execSxch (m : Mv) (s : State) : Out := go (runSg s m 5)
/-- SWLD (R350). -/
def execSwld (m : Mv) (s : State) : Out := go (runSg s m 6)
/-- SCANC (R350, R358). -/
def execScanc (m : Mv) (s : State) : Out := go (runSg s m 7)

/-! Streams by name. -/

/-- The stream of an abutment that a tag and an issuing actor name (R350). -/
def sameIdentity (c : StreamCmd) (pk actor tag : Nat) : Bool := c.pk == pk && c.actor == actor && cmdTag c == tag

/-- A signed 32-bit field. -/
def sgn32 (w : Word) (lo : Nat) : Int := (w.extractLsb' lo 32 : BitVec 32).toInt

/-- The shape of an element stream (R254, R352): element bytes, counts and strides, inner first. -/
structure Geo where
  eb : Nat
  inner : Nat
  outer : Nat
  c3 : Nat
  c4 : Nat
  istr : Int
  ostr : Int
  s3 : Int
  s4 : Int

/-- The shape of a command with its extension record; an E2M1 inner step covers two elements. -/
def geoOf (c : StreamCmd) (ext : Option (List Word)) : Geo :=
  let f := bits c.q2 36 4
  let e (i : Nat) : Word := lgetD (ext.getD []) i 0
  let on := cmdExt c && ext.isSome
  { eb := if f = 4 then 1 else tileBytes f
    inner := if f = 4 then bits c.q3 0 32 / 2 else bits c.q3 0 32
    outer := bits c.q4 0 32
    c3 := if on then (e 0).toNat else 1
    c4 := if on then (e 2).toNat else 1
    istr := sgn32 c.q3 32
    ostr := sgn32 c.q4 32
    s3 := if on then (e 1).toInt else 0
    s4 := if on then (e 3).toInt else 0 }

/-- Bytes of an element stream. -/
def geoBytes (g : Geo) : Nat := g.inner * g.outer * g.c3 * g.c4 * g.eb

/-- Flits of a number of bytes (R352). -/
def flitsOf (n : Nat) : Nat := (n + 63) / 64

/-! SXCH (R258, R357). -/

/-- Elements, select mask, log of the element bytes and partner mask of an SXCH. -/
def xchKey (c : StreamCmd) : Nat × Nat × Nat := (bits c.q3 0 32, bits c.q4 0 32, bits c.q5 12 4)
/-- The module an SXCH is paired with. -/
def xchMod (m : Nat) (c : StreamCmd) : Nat := m ^^^ bits c.q5 0 12
/-- The bit that the select mask names. -/
def xchBit (c : StreamCmd) : Nat := (bits c.q4 0 32).log2
/-- Elements below `n` with bit `b` set. -/
def xchOnes (n b : Nat) : Nat := n / 2 ^ (b + 1) * 2 ^ b + (n % 2 ^ (b + 1) - 2 ^ b)
/-- Elements that a module sends: those with bit b set from the lower module, clear from the higher. -/
def xchCount (m : Nat) (c : StreamCmd) (mine : Bool) : Nat :=
  let n := bits c.q3 0 32
  let hi := xchOnes n (xchBit c)
  if decide (m < xchMod m c) == mine then hi else n - hi
/-- The index of the element of rank `r` among those a module sends. -/
def xchIndex (m : Nat) (c : StreamCmd) (r : Nat) : Nat :=
  let b := xchBit c
  r / 2 ^ b * 2 ^ (b + 1) + (if m < xchMod m c then 2 ^ b else 0) + r % 2 ^ b
/-- Flits of an SXCH that a module sends, or receives. -/
def xchFlits (m : Nat) (c : StreamCmd) (mine : Bool) : Nat := flitsOf (xchCount m c mine * 2 ^ bits c.q5 12 4)
/-- Bytes of flit `f` of an SXCH. -/
def xchBytes (m : Nat) (c : StreamCmd) (mine : Bool) (f : Nat) : Nat := min 64 (xchCount m c mine * 2 ^ bits c.q5 12 4 - 64 * f)
/-- The address of byte `k` of flit `f`, sent or received: both lie at the elements this module sends (R258). -/
def xchAddr (m : Nat) (c : StreamCmd) (f k : Nat) : Int :=
  let v := bits c.q5 12 4
  let p := 64 * f + k
  (c.q0.toNat : Int) + xchIndex m c (p / 2 ^ v) * 2 ^ v + p % 2 ^ v
/-- The checks of R258 at acceptance. -/
def xchOk (c : StreamCmd) : Bool :=
  let sel := bits c.q4 0 32
  let v := bits c.q5 12 4
  decide (0 < sel) && sel == 2 ^ sel.log2 && bits c.q5 0 12 != 0 && decide (v ≤ 6) && c.q0.toNat % 2 ^ v == 0

/-! Records, answers and ends. -/

/-- The record of a fault of a stream, on its way to the issuing pier (R206 to R209, R220): R209 gives code 0x15 no stream form of w5
(log entry 77). -/
def streamRecord (s : State) (m a : Nat) (c : StreamCmd) (code : Nat) (w2 w3 : Word) (pos : Nat) : State :=
  let mv := entryMove c.move (c.t.extractLsb' 0 32)
  let zero := code == 0x10 || code == 0x11 || code == 0x12
  let d : Deferred :=
    { pk := c.pk, lp := c.lp, actor := c.actor, strand := c.strand, runid := c.runid, bundle := c.bundle,
      code := BitVec.ofNat 16 code, unit := 11, slot := c.slot, w2 := if zero then 0 else if code = 0x13 then w2 else mv, w3,
      w5 := if code = 0x15 then 0 else BitVec.ofNat 64 (a % 128 * 2 ^ 42 + cmdTag c * 2 ^ 32 + pos % 2 ^ 32), notResident := false }
  launch s (latency s m (.abut a) (pkMod c.pk) (placeOf s c.pk)) (.deferredFaultReport d)

/-- Where an operation's result is waited for: its strand, or the one its run has moved to (R202, R231). -/
def pendHome (s : State) (pk st tok : Nat) : Nat × Nat :=
  let has (x : Strand) : Bool := x.pend.any (·.tok == tok)
  if has (getStrand s pk st) then (pk, st)
  else
    (s.piers.findSome? fun p => (p.2.strands.find? fun e => has e.2).map fun e => (p.1, e.1)).getD (pk, st)

/-- Whether a strand awaits the result of an operation. -/
def pends (x : Strand) (tok : Nat) : Bool := x.pend.any (·.tok == tok)

/-- Whether the run of an evicted actor awaits the result of an operation, which reaches it once it is back (R82, R216). -/
def savedPends (s : State) (tok : Nat) : Bool :=
  s.piers.any fun p => p.2.actors.any fun a => match a.2.saved with | some v => pends v.1 tok | none => false

/-- The run that awaits a result changed, on its strand or saved with its actor. -/
def adjPending (s : State) (pk st tok : Nat) (f : Strand → Strand) : State :=
  if savedPends s tok then
    { s with piers := s.piers.map fun p => (p.1, { p.2 with actors := p.2.actors.map fun a =>
        (a.1, { a.2 with saved := a.2.saved.map fun v => if pends v.1 tok then (f v.1, v.2) else v }) }) }
  else
    let h := pendHome s pk st tok
    adjStrand s h.1 h.2 f

/-- An answer to an sg trigger: sg.s and the entry, at least 8 cycles after the trigger (R79, R350). -/
def sgAnswer (s : State) (m a pk strand tok : Nat) (v : Word) : State :=
  let s1 := adjPending s pk strand tok fun x =>
    { x with pend := x.pend.map fun p => if p.tok = tok then { p with r := some (Value.ofWord v) } else p }
  launch s1 (8 + latency s m (.abut a) (pkMod pk) (placeOf s pk)) (.resultPortWrite pk strand 11 tok)

/-- All ones: −1. -/
def minusOne : Word := BitVec.ofNat 64 (2 ^ 64 - 1)

/-- The pier of the scratchpad side. -/
def streamPier (s : State) (c : StreamCmd) : Option Nat :=
  pkOfAddr s (awMod (cmdActor c)) (awPier (cmdActor c)) (jobOf s c.pk)

/-- The place of the scratchpad side. -/
def streamPlace (s : State) (c : StreamCmd) : Place :=
  destPlace s (awMod (cmdActor c)) (awPier (cmdActor c)) (jobOf s c.pk)

/-- Cycles from an abutment to the scratchpad side. -/
def streamLat (s : State) (m a : Nat) (c : StreamCmd) : Nat :=
  latency s m (.abut a) (awMod (cmdActor c)) (streamPlace s c)

/-- The handle of a stream at a pier (R255). -/
def handleOf (p : Pier) (m a sid : Nat) : Option (Nat × Handle) :=
  p.handles.findSome? fun h =>
    match h.2 with
    | some x => if x.mod = m ∧ x.abut = a ∧ x.sid = sid then some (h.1, x) else none
    | none => none

/-- The handle of a stream freed (R255). -/
def dropHandle (s : State) (m a sid : Nat) (c : StreamCmd) : State :=
  match streamPier s c with
  | none => s
  | some pk =>
    match handleOf (getPier s pk) m a sid with
    | some h => adjPier s pk fun p => { p with handles := fdel p.handles h.1 }
    | none => s

/-- The lowest free context (R191). -/
def freeCtx (x : Abut) : Option Nat := (List.range 16).find? fun i => (fget x.ctxs i none).isNone

/-- Whether the stream that a command names is active or queued at an abutment already (R351), or saved there and not loaded yet. -/
def sameHeld (x : Abut) (c : StreamCmd) : Bool :=
  let same (d : StreamCmd) : Bool := sameIdentity d c.pk c.actor (cmdTag c)
  x.ctxs.any (fun p => match p.2 with | some t => same t.cmd | none => false) || x.queue.any same || x.savedCtxs.any fun p => same p.2.cmd

/-- The checks at acceptance (R351), in the order of the table: code and w3. -/
def acceptFault (s : State) (m a : Nat) (c : StreamCmd) : Option (Nat × Word) :=
  let x := getAbut s m a
  let k := cmdKind c
  let list := if k = 4 then segTable c else if cmdGathers c || cmdExt c then c.q5 else 0
  let busy := sameHeld x c
  let bound := cmdKind c == 6 && decide (0x100000 < bits c.q2 0 20 + 64 * flitsOf (geoBytes (geoOf c none)))
  if bitAt c.q0 55 then some (0x08, c.q0)
  else if bitAt list 55 then some (0x08, list)
  else if busy then some (0x12, BitVec.ofNat 64 (cmdTag c))
  else if k ≠ 5 ∧ bits c.q2 36 4 = 4 ∧ bits c.q3 0 32 % 2 = 1 then some (0x12, c.q3)
  else if k = 4 ∧ segCount c = 0 then some (0x12, c.q5)
  else if bound then some (0x12, c.q2)
  else if k = 5 ∧ xchOk c = false then some (0x12, c.q4)
  else none

/-- Whether flit `f` of a stream of `total` flits carries an increment by N or as the last (R257). -/
def addsAt (n total f : Nat) : Bool := f + 1 == total || (n != 0 && (f + 1) % n == 0)

/-- The first flit from `f` on that makes an increment. -/
def nextAdd (n total f : Nat) : Nat := if n = 0 then total - 1 else min (f / n * n + n - 1) (total - 1)

/-- A command refused at acceptance: it is answered with −1 and gives a record (R220, R351). -/
def refuseCommand (s : State) (m a : Nat) (c : StreamCmd) (f : Nat × Word) : State :=
  streamRecord (sgAnswer s m a c.pk c.strand c.tok minusOne) m a c f.1 0 f.2 0

/-- A command takes a context (R255, R351): it is answered with F and opened, or refused. A stream with an extension record is answered once
its record is read, one with a segment table once the table tells how many flits the stream sends (R350, R355; log entry 20). -/
def acceptInto (s : State) (m a sid : Nat) (c : StreamCmd) : State :=
  match acceptFault s m a c with
  | some f => refuseCommand s m a c f
  | none =>
    let total := if cmdKind c = 5 then xchFlits m c true else flitsOf (geoBytes (geoOf c none))
    let t : Stream :=
      { sid, cmd := c, phase := .opening, total := total, answered := !cmdExt c && (cmdKind c != 4 || total == 0),
        openOut := true, rtotal := if cmdKind c = 5 then xchFlits m c false else 0,
        inc := nextAdd (cmdN c) (if cmdKind c = 5 then xchFlits m c false else total) 0 }
    let s1 := setCtx s m a t
    let s2 := if t.answered = false then s1 else sgAnswer s1 m a c.pk c.strand c.tok (BitVec.ofNat 64 total)
    launch s2 (streamLat s m a c) (.streamOpen m a sid)

/-- Queued commands take free contexts in their order of arrival (R191). -/
def acceptQueued (s : State) (m a : Nat) : Nat → State
  | 0 => s
  | n + 1 =>
    let x := getAbut s m a
    match x.queue, freeCtx x with
    | c :: l, some sid => acceptQueued (acceptInto (adjAbut s m a fun y => { y with queue := l }) m a sid c) m a n
    | _, _ => s

/-- Whether a calendar entry opens a stream again. -/
def isOpenRetry (m a sid : Nat) (e : Nat × Instr) : Bool :=
  match e.2 with | .streamOpenRetry m' a' sid' => m' == m && a' == a && sid' == sid | _ => false

/-- A stream ends: its context and handle are free, its fault is told, the SCANC triggers that wait are answered with the
flits that landed, and queued commands go on (R255, R257, R358). -/
def streamFinish (s : State) (m a : Nat) (t : Stream) : State :=
  let s0 := { s with cal := s.cal.filter fun e => !isOpenRetry m a t.sid e }
  let s1 := dropHandle (adjAbut s0 m a fun x => { x with ctxs := fdel x.ctxs t.sid }) m a t.sid t.cmd
  let s2 := match t.stop with
    | some f => streamRecord s1 m a t.cmd f.code f.w2 f.w3 f.pos
    | none => s1
  let s3 := if t.answered then s2 else
    sgAnswer s2 m a t.cmd.pk t.cmd.strand t.cmd.tok (if cmdKind t.cmd = 4 then BitVec.ofNat 64 t.next else minusOne)
  let s4 := t.cancels.foldl (fun s c => sgAnswer s m a c.1 c.2.1 c.2.2 (BitVec.ofNat 64 t.landed)) s3
  acceptQueued s4 m a 64

/-- The chunk that a side of an SXCH is at. -/
def xchChunk (t : Stream) : Nat := min t.next t.wlow / 1024

/-- Whether nothing that a stream sent is unanswered: its open, its flits, its increments (R173, R358). -/
def nothingOut (t : Stream) : Bool := t.unacked == [] && t.adds == 0 && !t.openOut

/-- A stream that is ending ends once nothing it sent is unanswered (R358). -/
def settleStream (s : State) (m a sid : Nat) : State :=
  match getCtx s m a sid with
  | some t => if t.phase = .ending ∧ nothingOut t = true then streamFinish s m a t else s
  | none => s

/-- What the sides of an exchange tell each other beside data and windows. -/
inductive XchWord where
  | claim | room | full | stops
  deriving DecidableEq, Repr

/-- The index under which such a word travels. -/
def XchWord.code : XchWord → Nat
  | .claim => 1 | .room => 2 | .full => 3 | .stops => 4

/-- A word to the partner of an exchange (R22, R258): a flit of no bytes that names both sides and the tag. -/
def xchTell (s : State) (m a : Nat) (t : Stream) (q : Nat) (w : XchWord) : State :=
  let m' := xchMod m t.cmd
  let f : Flit :=
    { mod := m', abut := a, sid := q, idx := w.code, off := m * 16 + t.sid, nb := 0, data := BitVec.ofNat 512 (cmdTag t.cmd), poison := false,
      add := false }
  if reachable s m m' then launch s (latency s m (.abut a) m' (.abut a)) (.exchangeFlitArrival f) else s

/-- The partner of an SXCH that stops hears of it (R258, R358). -/
def stopPartner (s : State) (m a : Nat) (t : Stream) : State :=
  match t.peer with
  | none => s
  | some q => xchTell s m a t q .stops

/-- A stream stops: no later flit is sent, what was sent is waited for (R220, R358). -/
def stopStream (s : State) (m a : Nat) (t : Stream) (f : Option StreamStop) : State :=
  let f' := if t.stop.isSome then t.stop else f
  let s1 := setCtx s m a { t with phase := .ending, part := [], walk := none, walked := [], stop := f', peer := none }
  settleStream (stopPartner s1 m a t) m a t.sid

/-- The streams and queued commands that a tag and an actor name (R358). -/
def findStream (s : State) (m a pk actor tag : Nat) : Option Stream :=
  (getAbut s m a).ctxs.findSome? fun c =>
    match c.2 with
    | some t => if sameIdentity t.cmd pk actor tag then some t else none
    | none => none

/-- Whether a calendar entry is the resend of a command that a tag and an actor name (R191, R358). -/
def isGated (m a pk actor tag : Nat) (e : Nat × Instr) : Bool :=
  match e.2 with
  | .streamCommandResend m' a' c => m' == m && a' == a && cmdKind c != 7 && sameIdentity c pk actor tag
  | _ => false

/-- A command waiting in the queue of an abutment or for a resend is taken back: its sg.s receives −1 (R358). -/
def unqueue (s : State) (m a pk actor tag : Nat) : Option State :=
  match (getAbut s m a).queue.find? fun c => sameIdentity c pk actor tag with
  | some c =>
    some (sgAnswer (adjAbut s m a fun x => { x with queue := x.queue.filter fun d => !(d.tok == c.tok) }) m a c.pk c.strand c.tok minusOne)
  | none =>
    match s.cal.find? (isGated m a pk actor tag) with
    | some (_, .streamCommandResend _ _ c) =>
      some (sgAnswer { s with cal := s.cal.filter fun e => !isGated m a pk actor tag e } m a c.pk c.strand c.tok minusOne)
    | _ => none

/-- SCANC at an abutment (R358). -/
def cancelStream (s : State) (m a : Nat) (c : StreamCmd) : State :=
  match findStream s m a c.pk c.actor (cmdTag c) with
  | some t => stopStream s m a { t with cancels := t.cancels ++ [(c.pk, c.strand, c.tok)] } none
  | none =>
    match unqueue s m a c.pk c.actor (cmdTag c) with
    | some s1 => sgAnswer s1 m a c.pk c.strand c.tok 0
    | none => sgAnswer s m a c.pk c.strand c.tok minusOne

/-- Whether a command waits until the streams of its partition are where they belong: its abutment is halted for the partition, or a SCANC
would find a stream saved there (R173, R221, R228, R358). -/
def commandWaits (x : Abut) (m : Nat) (c : StreamCmd) : Bool :=
  pkMod c.pk == m && (x.haltedFor.contains (pkPart c.pk) || (cmdKind c == 7 && (x.savedCtxs.any (fun d => d.1 == pkPart c.pk) ||
    x.savedQueue.any fun d => d.1 == pkPart c.pk)))

/-- A command refused on the reply network comes again 512 cycles later (R191). -/
def resendCommand (s : State) (m a : Nat) (c : StreamCmd) : State :=
  schedule s (s.cycle + 512 + 2 * latency s m (.abut a) (pkMod c.pk) (placeOf s c.pk)) (.streamCommandResend m a c)

/-- A command reaches its abutment (R191): a context, the queue of 64, or a refusal on the reply network. One whose stream is there already
is refused before it is queued (R351). An abutment that is halted for the command's partition refuses it too: DESIGN CHOICE, log entry 83. -/
def commandArrives (s : State) (m a : Nat) (c : StreamCmd) : State :=
  let x := getAbut s m a
  if commandWaits x m c then resendCommand s m a c
  else if cmdKind c = 7 then cancelStream s m a c
  else
    match x.queue, freeCtx x with
    | [], some sid => acceptInto s m a sid c
    | q, _ =>
      if 64 ≤ q.length then resendCommand s m a c
      else
        match (if sameHeld x c then acceptFault s m a c else none) with
        | some f => refuseCommand s m a c f
        | none => adjAbut s m a fun y => { y with queue := y.queue ++ [c] }

/-- A command is accepted or refused (R191, R351). -/
def execStreamCommandAccept (mod abut : Nat) (c : StreamCmd) (s : State) : Out := go (commandArrives s mod abut c)
/-- A refused command comes again (R191). -/
def execStreamCommandResend (mod abut : Nat) (c : StreamCmd) (s : State) : Out := go (commandArrives s mod abut c)

end Sys2Proof.Machine
end

