-- ==== Sys2Proof/Machine/Streams.lean ====
section
/-!
DEFINITION. The streams at work: opening, turns, flits, weight-store writes, exchanges, increments (R128, R139, R153, R173,
R191, R220, R238, R254 to R258, R352 to R357).
-/

namespace Sys2Proof.Machine

/-! Opening (R255). -/

/-- A stream owes its increments as messages; each leaves for the pier of its sluice, once the writes it counts have been answered
`back` cycles from now (R173, R257). -/
def oweAdds (s : State) (m a : Nat) (t : Stream) (n : Nat) (back : Nat := 0) : State :=
  if cmdSluice t.cmd = 511 then setCtx s m a t
  else
    (List.range n).foldl (fun s _ => launch s (back + streamLat s m a t.cmd) (.streamIncrement m a t.sid t.cmd))
      (setCtx s m a { t with adds := t.adds + n })

/-- A stream that has done everything ends (R257). -/
def streamDone (s : State) (m a sid : Nat) : State :=
  match getCtx s m a sid with
  | none => s
  | some t =>
    let all :=
      if t.phase ≠ .active ∨ t.adds ≠ 0 ∨ t.unacked ≠ [] ∨ t.answered = false then false
      else
        match cmdKind t.cmd with
        | 5 => decide (t.total ≤ t.next ∧ t.rtotal ≤ t.wlow)
        | 4 => decide (t.segTotal ≤ t.next) && (t.segIdx == segCount t.cmd + 1 || t.total == 0) && t.segBad.isNone
        | _ => decide (t.total ≤ t.low)
    if all then streamFinish s m a t else s

/-- Cycles to the partner of an exchange (R22, R258). -/
def xchLat (s : State) (m a : Nat) (t : Stream) : Nat := latency s m (.abut a) (xchMod m t.cmd) (.abut a)

/-- A stream that is open begins: an empty one makes its one increment (R254, R257), an exchange looks for its partner. -/
def streamBegin (s : State) (m a : Nat) (t : Stream) : State :=
  if cmdKind t.cmd = 5 then launch (setCtx s m a { t with phase := .pairing }) (xchLat s m a t) (.sxchPair m a t.sid)
  else if t.total = 0 ∧ t.answered then
    streamDone (oweAdds s m a { t with phase := .active } 1) m a t.sid
  else setCtx s m a { t with phase := .active }

/-- What an open message that reaches the scratchpad-side pier comes to. -/
inductive Opening where
  | granted (pk handle : Nat)
  | again
  | stops (f : StreamStop)
  | known
  deriving DecidableEq, Repr

/-- The answer of the scratchpad-side pier to an open message (R255, R351): refused where the actor is free or retired, to be asked
again where no handle is free or the partition is not resident. -/
def openAnswer (s : State) (m a : Nat) (t : Stream) : Opening :=
  let w := cmdActor t.cmd
  let noActor : Opening := .stops ⟨0x15, 0, BitVec.ofNat 64 w.toNat, 0⟩
  if reachable s m (awMod w) = false then .stops ⟨0x0B, 0, t.cmd.q0, 0⟩
  else
    match streamPier s t.cmd with
    | none => noActor
    | some pk =>
      let p := getPier s pk
      if p.lost then noActor
      else if (handleOf p m a t.sid).isSome then .known
      else if residentOpen s pk = false ∨ p.fenced = true then .again
      else if (pierActor p (awActor w)).retiring = true ∨ (awActor w ≠ 63 ∧ (pierActor p (awActor w)).st = .free) then noActor
      else
        match (List.range 63).find? fun i => (fget p.handles i none).isNone with
        | none => .again
        | some i => .granted pk i

/-- An open message arrives (R255): one whose stream is ending is answered to no effect, a refused one is sent again 512 cycles
later. -/
def openAt (s : State) (m a sid : Nat) : State :=
  match getCtx s m a sid with
  | none => s
  | some t =>
    if t.phase = .ending then settleStream (setCtx s m a { t with openOut := false }) m a sid
    else if t.phase ≠ .opening then s
    else
      match openAnswer s m a t with
      | .known => s
      | .stops f => stopStream s m a { t with openOut := false } (some f)
      | .again => schedule (setCtx s m a { t with openOut := false }) (s.cycle + 512) (.streamOpenRetry m a sid)
      | .granted pk i =>
        let h : Handle := { mod := m, abut := a, sid, job := jobOf s t.cmd.pk, q1 := t.cmd.q1, ring := cmdRing t.cmd }
        let s1 := adjPier (setCtx s m a { t with openOut := true }) pk fun p => { p with handles := fset p.handles i (some h) }
        answer s1 (awMod (cmdActor t.cmd)) (streamPlace s t.cmd) (.flit m a sid 0) 6

/-- The open message of a stream arrives (R255). -/
def execStreamOpen (mod abut sid : Nat) (s : State) : Out := go (openAt s mod abut sid)
/-- It arrives again (R255). -/
def execStreamOpenRetry (mod abut sid : Nat) (s : State) : Out := go (openAt s mod abut sid)

/-! Addresses (R254, R352, R355). -/

/-- The first flit, first row and rows of the segment that holds a flit. -/
def segOf (t : Stream) (f : Nat) : Nat × Nat × Nat :=
  (t.segs.filter fun x => decide (x.1 ≤ f)).getLastD (0, 0, 0)

/-- Bytes of a row of an element stream. -/
def rowLen (g : Geo) : Nat := g.inner * g.eb

/-- Bytes that flit `f` moves. -/
def flitLen (m : Nat) (t : Stream) (f : Nat) : Nat :=
  let g := geoOf t.cmd t.ext
  match cmdKind t.cmd with
  | 5 => xchBytes m t.cmd true f
  | 4 => let x := segOf t f; min 64 (x.2.2 * rowLen g - 64 * (f - x.1))
  | _ => min 64 (geoBytes g - 64 * f)

/-- The row, element in the row, higher indices and byte of the element at byte `k` of flit `f`. -/
def placeAt (t : Stream) (f k : Nat) : Nat × Nat × Nat × Nat × Nat :=
  let g := geoOf t.cmd t.ext
  if cmdKind t.cmd = 4 then
    let x := segOf t f
    let e := (64 * (f - x.1) + k) / g.eb
    (x.2.1 + e / g.inner, e % g.inner, 0, 0, k % g.eb)
  else
    let e := (64 * f + k) / g.eb
    (e / g.inner % g.outer, e % g.inner, e / (g.inner * g.outer) % g.c3, e / (g.inner * g.outer * g.c3), k % g.eb)

/-- A(e) of an element whose row index is given (R254). -/
def elemAddr (g : Geo) (base : Word) (o i o3 o4 : Nat) : Int :=
  (base.toNat : Int) + o * g.ostr + i * g.istr + o3 * g.s3 + o4 * g.s4

/-- The extent that holds an address for an access: a write needs one walked for writing (R153). -/
def extentOf (t : Stream) (va : Word) (need : BitVec 3) : Option TEntry :=
  t.extents.find? fun e => decide (e.base ≤ va.toNat ∧ va.toNat < e.base + e.size) && (need == 4 || e.dirty)

/-- A byte of HBM under an extent, with its poison. -/
def extByte (s : State) (e : TEntry) (va : Word) : Byte × Bool :=
  let l := physOf e.leaf (sizeLevel e.size) va
  let m := bits e.leaf 36 12
  (BitVec.ofNat 8 (hbmRead s m (bits e.leaf 55 2) l 1), hbmPoisoned s m (bits e.leaf 55 2) l)

/-- What a step of address work gives: a value, a page to walk, or a reason to stop. -/
inductive Got (α : Type) where
  | ok (v : α)
  | walk (va : Word) (need : BitVec 3)
  | stop (f : StreamStop)

/-- A page looked up: rights, HBM bounds and an absent module are judged as a walk judges them (R143, R149, R352). -/
def pageFor (s : State) (m : Nat) (t : Stream) (va : Word) (need : BitVec 3) (f : Nat) : Got TEntry :=
  match extentOf t va need with
  | none => .walk va need
  | some e =>
    if grants e.leaf need = false then .stop ⟨0x0A, 0, va, f⟩
    else if 2 ^ 39 ≤ physOf e.leaf (sizeLevel e.size) va ∨ reachable s m (bits e.leaf 36 12) = false then .stop ⟨0x0B, 0, va, f⟩
    else .ok e

/-- A little-endian word of `n` bytes read through the extents. -/
def wordAt (s : State) (m : Nat) (t : Stream) (va : Word) (f : Nat) : Nat → Got (Nat × Bool)
  | 0 => .ok (0, false)
  | n + 1 =>
    match pageFor s m t va 4 f with
    | .walk v d => .walk v d
    | .stop x => .stop x
    | .ok e =>
      match wordAt s m t (va + 1) f n with
      | .walk v d => .walk v d
      | .stop x => .stop x
      | .ok r => let b := extByte s e va; .ok (b.1.toNat + 256 * r.1, b.2 || r.2)

/-- The address of byte `k` of flit `f` (R352): an index word read from poison stops the stream (R353). -/
def byteAddr (s : State) (m : Nat) (t : Stream) (f k : Nat) : Got Word :=
  if cmdKind t.cmd = 5 then
    let a := xchAddr m t.cmd f k
    if a < 0 ∨ 2 ^ 55 ≤ a then .stop ⟨0x12, 0, BitVec.ofInt 64 a, f⟩ else .ok (BitVec.ofInt 64 a)
  else
    let g := geoOf t.cmd t.ext
    let x := placeAt t f k
    let row : Got Nat :=
      if cmdGathers t.cmd then
        match wordAt s m t (t.cmd.q5 + BitVec.ofNat 64 (4 * x.1)) f 4 with
        | .ok r => if r.2 then .stop ⟨0x0C, 0, 0, f⟩ else .ok r.1
        | .walk v n => .walk v n
        | .stop y => .stop y
      else .ok x.1
    match row with
    | .walk v n => .walk v n
    | .stop y => .stop y
    | .ok o =>
      let a := elemAddr g t.cmd.q0 o x.2.1 x.2.2.1 x.2.2.2.1
      if a < 0 ∨ 2 ^ 55 ≤ a then .stop ⟨0x12, 0, BitVec.ofInt 64 a, f⟩ else .ok (BitVec.ofInt 64 (a + x.2.2.2.2))

/-- What a stream needs of the pages of its data (R147, R153): an exchange writes where it has read. -/
def dataNeed (t : Stream) : BitVec 3 := if cmdKind t.cmd = 5 then 6 else if cmdWrites t.cmd then 2 else 4

/-- The bytes of a flit read in address order from where the held part ends (R153), with the places they were read from. -/
def readFlit (s : State) (m : Nat) (t : Stream) (f : Nat) : Nat → Stream × List (Word × TEntry) × Got Unit
  | 0 => (t, [], .ok ())
  | n + 1 =>
    let k := t.part.length
    match byteAddr s m t f k with
    | .walk v d => (t, [], .walk v d)
    | .stop x => (t, [], .stop x)
    | .ok va =>
      match pageFor s m t va (dataNeed t) f with
      | .walk v d => (t, [], .walk v d)
      | .stop x => (t, [], .stop x)
      | .ok e =>
        let b := extByte s e va
        let r := readFlit s m { t with part := t.part ++ [b.1], partBad := t.partBad || b.2 } f n
        (r.1, (va, e) :: r.2.1, r.2.2)

/-- A row from its bytes. -/
def rowOfBytes (l : List Byte) : Row := BitVec.ofNat 512 (l.foldr (fun b n => b.toNat + 256 * n) 0)

/-- The places of the listed bytes of a flit, each in a page that grants what is needed; the first byte that fails decides. -/
def flitPlaces (s : State) (m : Nat) (t : Stream) (f : Nat) (need : BitVec 3) : List Nat → Got (List (Word × TEntry))
  | [] => .ok []
  | k :: l =>
    match byteAddr s m t f k with
    | .walk v d => .walk v d
    | .stop x => .stop x
    | .ok va =>
      match pageFor s m t va need f with
      | .walk v d => .walk v d
      | .stop x => .stop x
      | .ok e =>
        match flitPlaces s m t f need l with
        | .walk v d => .walk v d
        | .stop x => .stop x
        | .ok r => .ok ((va, e) :: r)

/-- The places of the `n` bytes of a flit that is to be written. -/
def writeAddrs (s : State) (m : Nat) (t : Stream) (f n : Nat) : Got (List (Word × TEntry)) := flitPlaces s m t f 2 (List.range n)

/-- The DRAM byte of a place. -/
def placeLoc (x : Word × TEntry) : Nat := dramLoc (bits x.2.leaf 55 2) (physOf x.2.leaf (sizeLevel x.2.size) x.1)

/-- The leases of the lines of places end with an access to them (R161). -/
def touchPlaces (s : State) (l : List (Word × TEntry)) : State := l.foldl (fun s x => endLease s (bits x.2.leaf 36 12) (placeLoc x)) s

/-- The leases of the lines of a table or list that is read end (R161). -/
def touchWord (s : State) (m : Nat) (t : Stream) (va : Word) (n : Nat) : State :=
  touchPlaces s ((List.range n).filterMap fun i =>
    let v := va + BitVec.ofNat 64 i
    match pageFor s m t v 4 0 with | .ok e => some (v, e) | _ => none)

/-- Cycles from an abutment to the homes of the places, wherever in the torus they lie (R22, R31, R164). -/
def placesLat (s : State) (m a : Nat) (l : List (Word × TEntry)) : Nat :=
  maxList (l.map fun x =>
    let m' := bits x.2.leaf 36 12
    let h := abutOf (placeLoc x)
    if m' = m ∧ h = a then 0 else latency s m (.abut a) m' (.abut h))

/-- Whether the clocks of every module that places lie on run (R270). -/
def placesRun (s : State) (l : List (Word × TEntry)) : Bool := l.all fun x => !(getMod s (bits x.2.leaf 36 12)).veiv.frozen

/-- One byte written under an extent. -/
def extPoke (s : State) (e : TEntry) (va : Word) (b : Byte) (poison : Bool) : State :=
  let l := physOf e.leaf (sizeLevel e.size) va
  hbmWrite s (bits e.leaf 36 12) (bits e.leaf 55 2) l 1 b.toNat poison

/-- A flit written to memory in ascending element order; one that covers a whole granule cleanly clears its poison
(R126, R354). -/
def writeFlit (s : State) (l : List (Word × TEntry)) (row : Row) (bad : Bool) : State :=
  let s1 := ((List.range l.length).zip l).foldl (fun s x =>
    extPoke s x.2.2 x.2.1 (BitVec.ofNat 8 (row.toNat / 256 ^ x.1)) bad) s
  match l with
  | [] => s1
  | x :: _ =>
    if bad = false ∧ l.length = 64 ∧ l.all (fun y => y.1.toNat / 64 == x.1.toNat / 64) = true ∧ (l.map fun y => y.1.toNat).Nodup then
      adjMod s1 (bits x.2.leaf 36 12) fun y =>
        { y with hbmPoison := pset y.hbmPoison (dramLoc (bits x.2.leaf 55 2) (physOf x.2.leaf (sizeLevel x.2.size) x.1)) false }
    else s1

/-! Turns (R191). -/

/-- A walk begins for a stream (R153). -/
def walkStream (s : State) (m a : Nat) (t : Stream) (va : Word) (need : BitVec 3) : State :=
  match rootNode (getPier s t.cmd.pk).xlroot with
  | none => setCtx s m a { t with walked := (va, .fail) :: t.walked }
  | some n =>
    newWalk (setCtx s m a { t with walk := some s.tok })
      { who := .stream m a t.sid, job := jobOf s t.cmd.pk, va, need, level := 3, mod := n.mod, node := n.loc,
        dom := BitVec.ofNat 2 n.dom, retries := 0 }

/-- A walk that failed for a page that flit `f` needs (R153): not present pauses the stream with a record, and it holds that flit; anything
else stops it. DESIGN CHOICE, log entry 87: w3 is the first virtual address in the page, and a page that is not present has no size, so that it
is taken as one of 64 KiB. -/
def walkFailed (s : State) (m a : Nat) (t : Stream) (va : Word) (o : WalkOut) (f : Nat) : State :=
  let u := { t with walked := [] }
  if o = .notPresent then
    streamRecord (setCtx s m a { u with phase := .paused, missAt := some f }) m a t.cmd 0x09 0
      (BitVec.ofNat 64 (va.toNat / 2 ^ 16 * 2 ^ 16)) f
  else stopStream s m a u (some ⟨walkCode o, 0, va, f⟩)

/-- Whether a paused stream holds a flit: the one whose page is not present, and those behind it (R153). -/
def heldAt (t : Stream) (f : Nat) : Bool := match t.missAt with | some k => decide (k ≤ f) | none => false

/-- What the walk of the page of an address came to, where it failed. -/
def failedAt (t : Stream) (va : Word) : Option WalkOut := (t.walked.find? fun x => x.1.toNat / 2 ^ 16 == va.toNat / 2 ^ 16).map (·.2)

/-- What address work for flit `f` came to, for a step that makes no flit: a walk begins or goes on, its failure is acted on, or the
stream stops. -/
def stuck {α : Type} (s : State) (m a : Nat) (t : Stream) (f : Nat) (g : Got α) : State :=
  match g with
  | .ok _ => setCtx s m a t
  | .walk va need =>
    (match failedAt t va with
     | some o => walkFailed s m a t va o f
     | none => if t.walk.isSome then setCtx s m a t else walkStream s m a t va need)
  | .stop x => stopStream s m a t (some x)

/-- The flits that a stream knows it will read or write. -/
def flitsKnown (t : Stream) : Nat := if cmdKind t.cmd = 4 then t.segTotal else t.total

/-- The first flit from `f` on, of the next `n`, whose bytes do not all lie in translated pages, with the page to walk. -/
def firstUntranslated (s : State) (m : Nat) (t : Stream) : Nat → Nat → Nat × Option (Word × BitVec 3)
  | 0, f => (f, none)
  | n + 1, f =>
    if flitsKnown t ≤ f then (f, none)
    else
      match flitPlaces s m t f (dataNeed t) (List.range (flitLen m t f)) with
      | .ok _ => firstUntranslated s m t n (f + 1)
      | .walk va d => (f, some (va, d))
      | .stop _ => (f, none)

/-- Cycles until the bytes of a flit can be read at their homes: a list of indices is read first, there and back (R22, R31, R355). -/
def requestLat (s : State) (m a : Nat) (t : Stream) (f : Nat) (l : List (Word × TEntry)) : Nat :=
  let rows := if cmdGathers t.cmd then ((List.range (flitLen m t f)).map fun k => (placeAt t f k).1).eraseDups else []
  let list := rows.filterMap fun o =>
    let va := t.cmd.q5 + BitVec.ofNat 64 (4 * o)
    match pageFor s m t va 4 f with | .ok e => some (va, e) | _ => none
  2 * placesLat s m a list + placesLat s m a l

/-- The bytes of the next translated flit, at most 64 ahead, are asked for at their homes; a flit that is translated no more is translated
again. -/
def askAhead (s : State) (m a : Nat) (t : Stream) : Stream :=
  if t.ahead ≤ t.scan ∨ scanBase t + 64 ≤ t.scan then t
  else
    match flitPlaces s m t t.scan (dataNeed t) (List.range (flitLen m t t.scan)) with
    | .ok l => { t with scan := t.scan + 1, cross := fset t.cross t.scan (s.cycle + requestLat s m a t t.scan l) }
    | _ => { t with ahead := t.scan }

/-- The abutment translates ahead of the address generator (R153), from the acceptance of the stream on, with at most 64 extents held; a page
that is not present pauses an active stream as soon as its walk has failed. -/
def translateAhead (s : State) (m a : Nat) (t : Stream) : State :=
  if (t.phase ≠ .active ∧ t.phase ≠ .opening ∧ t.phase ≠ .pairing) ∨ (cmdExt t.cmd = true ∧ t.ext.isNone) ∨
      (flitsKnown t ≤ t.ahead ∧ flitsKnown t ≤ t.scan) then s
  else
    let r := firstUntranslated s m t 1024 (max t.ahead (scanBase t))
    let u := askAhead s m a { t with ahead := r.1 }
    match (if t.walk.isSome then none else r.2) with
    | none => setCtx s m a u
    | some (va, d) =>
      match failedAt u va with
      | some .notPresent => if t.phase = .active then walkFailed s m a u va .notPresent r.1 else setCtx s m a u
      | some _ => setCtx s m a u
      | none => if 64 ≤ t.extents.length ∧ r.1 ≠ scanBase t then setCtx s m a u else walkStream s m a u va d

/-- Whether flit `f` carries an increment (R257, R355). -/
def carriesAdd (t : Stream) (f : Nat) : Bool :=
  if cmdSluice t.cmd = 511 then false
  else if cmdKind t.cmd = 4 then
    let x := segOf t f
    f + 1 == x.1 + flitsOf (x.2.2 * rowLen (geoOf t.cmd t.ext)) || (cmdN t.cmd != 0 && (f + 1) % cmdN t.cmd == 0)
  else addsAt (cmdN t.cmd) t.total f

/-- Whether flit `f` may be sent (R222, R255, R257): the window has room, the stream is not held, and a flit that carries an
increment, or is the last, waits for every earlier one, so that no increment is counted before an earlier one's flits have landed. -/
def maySend (t : Stream) (f : Nat) (last : Bool) : Bool :=
  decide (t.unacked.length < 64) && t.held == [] && (!(last || carriesAdd t f) || t.unacked == [])

/-- A flit or a request sets out for the scratchpad side, `wait` cycles from now; one whose route is cut is answered so (R249). -/
def launchFlit (s : State) (m a : Nat) (t : Stream) (f wait : Nat) (i : Instr) : State :=
  if reachable s m (awMod (cmdActor t.cmd)) then launch s (wait + streamLat s m a t.cmd) i
  else launch s (wait + 2 * latency s m (.abut a) m .die) (.acknowledgement (.flit m a t.sid f) 7)

/-- A flit goes to the scratchpad side, once its bytes have come back from their homes. -/
def sendFlit (s : State) (m a : Nat) (t : Stream) (f n back : Nat) : State :=
  let x : Flit :=
    { mod := m, abut := a, sid := t.sid, idx := f, off := if cmdKind t.cmd = 6 then bits t.cmd.q2 0 20 + 64 * f else cmdOffset t.cmd f,
      nb := n, data := rowOfBytes t.part, poison := t.partBad, add := carriesAdd t f }
  let s1 := setCtx s m a
    { t with
      next := f + 1
      unacked := t.unacked ++ [f]
      part := []
      partBad := false
      cross := fdel t.cross f
      scan := max t.scan (f + 1)
      xbuf := fset t.xbuf f (x.data, x.poison) }
  launchFlit s1 m a t f back (if cmdKind t.cmd = 6 then .weightFlitArrival x else .dataFlitArrival x)

/-- The index words of a flit's rows, as places that its reading touches. -/
def touchList (s : State) (m : Nat) (t : Stream) (f n : Nat) : State :=
  if cmdGathers t.cmd then
    (((List.range n).map fun k => (placeAt t f k).1).eraseDups).foldl (fun s o =>
      touchWord s m t (t.cmd.q5 + BitVec.ofNat 64 (4 * o)) 4) s
  else s

/-- Whether the request for a flit's bytes has not reached their homes yet; a flit that was held sets out as it is. -/
def notYet (s : State) (t : Stream) (f : Nat) : Bool := (decide (t.scan ≤ f) && t.part == []) || decide (s.cycle < fget t.cross f 0)

/-- The next flit of a stream that reads memory (R353, R356); true where it was sent. Its bytes are read when the request for them
has reached their homes. -/
def sendNext (s : State) (m a : Nat) (t : Stream) (last : Bool) : State × Bool :=
  let f := t.next
  let n := flitLen m t f
  if maySend t f last = false then (setCtx s m a t, false)
  else
    match readFlit s m t f (n - t.part.length) with
    | (u, l, .ok _) =>
      if heldAt t f ∨ notYet s t f ∨ placesRun s l = false then (setCtx s m a t, false)
      else (sendFlit (touchPlaces (touchList s m t f n) l) m a u f n (placesLat s m a l), true)
    | (u, l, g) => (if heldAt t f then setCtx (touchPlaces s l) m a u else stuck (touchPlaces s l) m a u f g, false)

/-- The next word of the segment table acted on (R238, R355): its check, and its segment's place. -/
def takeSegment (t : Stream) (w : Word) : Stream :=
  let k := t.segIdx
  let rows := w.toNat - t.segPrev.toNat
  let n := flitsOf (rows * rowLen (geoOf t.cmd t.ext))
  if k = 0 then { t with segIdx := 1, segPrev := w }
  else if w.toNat < t.segPrev.toNat ∨ bits t.cmd.q4 0 32 < w.toNat then
    { t with segBad := some ⟨0x13, t.segPrev, w, k - 1⟩, segIdx := segCount t.cmd + 1 }
  else
    { t with
      segIdx := k + 1
      segPrev := w
      segTotal := t.segTotal + n
      segs := if n = 0 then t.segs else t.segs ++ [(t.segTotal, t.segPrev.toNat, rows)] }

/-- Whether the line of a table or record that an address lies in has come to the abutment (R22, R31): it is asked for at its home, which
takes the way there and back. -/
def lineHere (s : State) (m a : Nat) (t : Stream) (va : Word) : Except Stream Unit :=
  match t.line with
  | some (k, due) => if k = va.toNat / 64 then (if due ≤ s.cycle then .ok () else .error t) else ask
  | none => ask
where
  ask : Except Stream Unit :=
    match pageFor s m t va 4 0 with
    | .ok e =>
      let n := 2 * placesLat s m a [(va, e)]
      if n = 0 then .ok () else .error { t with line := some (va.toNat / 64, s.cycle + n) }
    | _ => .ok ()

/-- The next word of the segment table read, or why the table ends here. -/
def readSegment (s : State) (m : Nat) (t : Stream) : Got Stream :=
  match wordAt s m t (segTable t.cmd + BitVec.ofNat 64 (8 * t.segIdx)) t.segTotal 8 with
  | .ok (v, bad) =>
    .ok (if bad then { t with segBad := some ⟨0x0C, 0, 0, t.segTotal⟩, segIdx := segCount t.cmd + 1 } else takeSegment t (BitVec.ofNat 64 v))
  | .stop x => .ok { t with segBad := some x, segIdx := segCount t.cmd + 1 }
  | .walk v d => .walk v d

/-- Flits of a segment stream that are known and not sent: the last of them waits for every other, as it may be the last of all. -/
def segSend (s : State) (m a : Nat) (t : Stream) : State × Bool := sendNext s m a t (t.segTotal - t.next == 1)

/-- A segment stream's turn (R238, R350, R355): the table first, in the order of the segments; then the answer with the number of
flits; then the flits. Where the table cannot be read on, the flits before it are sent. -/
def segStep (s : State) (m a : Nat) (t : Stream) : State × Bool :=
  if segCount t.cmd < t.segIdx then
    if t.answered = false then
      (setCtx (sgAnswer s m a t.cmd.pk t.cmd.strand t.cmd.tok (BitVec.ofNat 64 t.segTotal)) m a { t with answered := true }, true)
    else if t.next < t.segTotal then segSend s m a t
    else
      match t.segBad with
      | some f => (stopStream s m a t (some f), false)
      | none => (streamDone (setCtx s m a t) m a t.sid, false)
  else
    match lineHere s m a t (segTable t.cmd + BitVec.ofNat 64 (8 * t.segIdx)) with
    | .error u => (setCtx s m a u, false)
    | .ok _ =>
      match readSegment s m t with
      | .ok u => (setCtx (touchWord s m t (segTable t.cmd + BitVec.ofNat 64 (8 * t.segIdx)) 8) m a u, true)
      | g =>
        if t.next < t.segTotal then segSend s m a t
        else (if t.phase = .paused then setCtx s m a t else stuck s m a t t.next g, false)

/-- The extension record of a stream (R254): its four words, the number of flits, the answer. -/
def readExt (s : State) (m a : Nat) (t : Stream) : State × Bool :=
  match lineHere s m a t t.cmd.q5 with
  | .error u => (setCtx s m a u, false)
  | .ok _ =>
  let w (i : Nat) : Got (Nat × Bool) := wordAt s m t (t.cmd.q5 + BitVec.ofNat 64 (8 * i)) 0 8
  match w 0, w 1, w 2, w 3 with
  | .ok x0, .ok x1, .ok x2, .ok x3 =>
    if x0.2 || x1.2 || x2.2 || x3.2 then (stopStream s m a t (some ⟨0x0C, 0, 0, 0⟩), false)
    else
      let ext := [BitVec.ofNat 64 x0.1, BitVec.ofNat 64 x1.1, BitVec.ofNat 64 x2.1, BitVec.ofNat 64 x3.1]
      let total := flitsOf (geoBytes (geoOf t.cmd (some ext)))
      let u := { t with ext := some ext, total := total, answered := true, inc := nextAdd (cmdN t.cmd) total 0 }
      let s1 := sgAnswer s m a t.cmd.pk t.cmd.strand t.cmd.tok (BitVec.ofNat 64 total)
      (streamBegin (touchWord s1 m t t.cmd.q5 32) m a u, true)
  | .ok _, .ok _, .ok _, g => (stuck s m a t 0 g, false)
  | .ok _, .ok _, g, _ => (stuck s m a t 0 g, false)
  | .ok _, g, _, _ => (stuck s m a t 0 g, false)
  | g, _, _, _ => (stuck s m a t 0 g, false)

/-- The flits in an abutment's hands whose bytes are translated set out for their homes. -/
def sendWrites (s : State) (m a : Nat) (t : Stream) (len : Nat → Nat) : Stream :=
  t.buffer.foldl (fun t x =>
    if t.wcross.any (fun c => c.1 == x.1) then t
    else
      match writeAddrs s m t x.1 (len x.1) with
      | .ok l => { t with wcross := fset t.wcross x.1 (s.cycle + requestLat s m a t x.1 l) }
      | _ => t) t

/-- The next write of SWRITE or SSCAT (R354): flits are written in order; an increment follows its writes (R257). -/
def writeNext (s : State) (m a : Nat) (t : Stream) (x : Nat × Row × Bool) : State × Bool :=
  let f := t.low
  match writeAddrs s m t f (flitLen m t f) with
  | .ok l =>
    if s.cycle < fget t.wcross f (s.cycle + 1) ∨ placesRun s l = false then (setCtx s m a t, false)
    else
      let u := { t with low := f + 1, landed := t.landed + 1, wcross := fdel t.wcross f, buffer := t.buffer.filter fun y => !(y.1 == f) }
      let s1 := writeFlit (touchList s m t f (flitLen m t f)) l x.2.1 x.2.2
      if f = t.inc then
        (streamDone (oweAdds s1 m a { u with inc := nextAdd (cmdN t.cmd) t.total (f + 1) } 1 (placesLat s m a l)) m a t.sid, true)
      else (streamDone (setCtx s1 m a u) m a t.sid, true)
  | g => (stuck s m a t f g, false)

/-- A read of the scratchpad is asked for (R354). -/
def askNext (s : State) (m a : Nat) (t : Stream) : State × Bool :=
  let f := t.next
  if t.total ≤ f ∨ 64 ≤ f - t.low ∨ t.stop.isSome ∨ t.held ≠ [] ∨ heldAt t f = true then (setCtx s m a t, false)
  else
    let x : Flit :=
      { mod := m, abut := a, sid := t.sid, idx := f, off := cmdOffset t.cmd f, nb := flitLen m t f, data := 0, poison := false,
        add := false }
    (launchFlit (setCtx s m a { t with next := f + 1, unacked := t.unacked ++ [f] }) m a t f 0 (.scratchpadReadRequest x), true)

/-- A turn's step of SWRITE and SSCAT. -/
def writeStep (s : State) (m a : Nat) (t0 : Stream) : State × Bool :=
  let t := sendWrites s m a t0 (flitLen m t0)
  if (match t.stop with | some x => decide (x.pos ≤ t.low) | none => false) then
    (stopStream s m a { t with stop := none } t.stop, false)
  else match t.buffer.find? fun y => y.1 == t.low && !(t.unacked.contains y.1) && !heldAt t y.1 with
  | some x =>
    let r := writeNext s m a t x
    if r.2 then r
    else
      match getCtx r.1 m a t.sid with
      | some u => if u.phase = .active then askNext r.1 m a u else r
      | none => r
  | none => askNext s m a t

/-! Exchanges (R258, R357). -/

/-- Chunks of a number of flits. -/
def chunksOf (n : Nat) : Nat := (n + 1023) / 1024

/-- Chunks of 64 KiB that an exchange holds in the outgoing half of its abutment's buffer, and in the incoming half. -/
def xchHolds (t : Stream) : Nat × Nat :=
  if cmdKind t.cmd = 5 then
    (min t.claimed (chunksOf t.total) - (if t.total ≤ t.low then chunksOf t.total else t.low / 1024),
     min t.claimed (chunksOf t.rtotal) - (if t.rtotal ≤ t.wlow then chunksOf t.rtotal else t.wlow / 1024))
  else (0, 0)

/-- Whether the exchange buffer of an abutment, 256 KiB for all its exchanges, has 64 KiB free in each half (R17, R258). -/
def bufferFree (s : State) (m a : Nat) : Bool :=
  let l := (getAbut s m a).ctxs.filterMap fun c => c.2.map xchHolds
  decide ((l.map (·.1)).sum < 2 ∧ (l.map (·.2)).sum < 2)

/-- Chunks for which both sides of an exchange have room. -/
def claimsHeld (t : Stream) : Nat := if t.asking then t.claimed - 1 else t.claimed

/-- Room for the next chunk is taken in the buffers of both sides, so that no exchange holds what another waits for (R17, R258; log entry 69):
the side on the lower module takes it and asks the other, which takes it too or refuses. -/
def claimNext (s : State) (m a : Nat) (t : Stream) : Option State :=
  match t.peer with
  | none => none
  | some q =>
    if t.phase = .active ∧ m < xchMod m t.cmd ∧ t.asking = false ∧ t.claimed < max (chunksOf t.total) (chunksOf t.rtotal) ∧
        bufferFree s m a = true then
      some (xchTell (setCtx s m a { t with claimed := t.claimed + 1, asking := true }) m a t q .claim)
    else none

/-- A window for the next incoming chunk is granted once the own chunk of that number is read and the incoming half has room for it;
a paused side grants none. -/
def grantNext (s : State) (m a : Nat) (t : Stream) : Option State :=
  match t.peer with
  | none => none
  | some q =>
    let c := t.granted
    let read := decide (chunksOf t.total ≤ c ∨ min ((c + 1) * 1024) t.total ≤ t.rd)
    if c < chunksOf t.rtotal ∧ read = true ∧ c < claimsHeld t ∧ t.phase = .active then
      some (launch (setCtx s m a { t with granted := c + 1 }) (xchLat s m a t) (.sxchWindowGrant (xchMod m t.cmd) a q))
    else none

/-- A received flit whose bytes have reached their homes. -/
def writable (s : State) (m : Nat) (t : Stream) (x : Nat × Row × Bool) : Bool :=
  match writeAddrs s m t x.1 (xchBytes m t.cmd false x.1) with
  | .ok l => decide (fget t.wcross x.1 (s.cycle + 1) ≤ s.cycle) && placesRun s l
  | _ => false

/-- The written flits with one more, the low end moved up. -/
def bumpLow (low : Nat) (set : List Nat) : Nat → Nat × List Nat
  | 0 => (low, set)
  | n + 1 => if set.contains low then bumpLow (low + 1) (set.filter (· != low)) n else (low, set)

/-- Increments owed when the low end of what is written goes from one flit to another (R257). -/
def addsBetween (n total lo hi : Nat) : Nat := ((List.range (hi - lo)).filter fun i => addsAt n total (lo + i)).length

/-- A received flit written (R258 step 4). -/
def xchWrite (s : State) (m a : Nat) (t : Stream) (x : Nat × Row × Bool) : State :=
  match writeAddrs s m t x.1 (xchBytes m t.cmd false x.1) with
  | .ok l =>
    let r := bumpLow t.wlow (x.1 :: t.wset) (t.wset.length + 1)
    let u := { t with wlow := r.1, wset := r.2, landed := t.landed + 1, wcross := fdel t.wcross x.1, buffer := t.buffer.filter fun y => !(y.1 == x.1) }
    streamDone (oweAdds (writeFlit s l x.2.1 x.2.2) m a u (addsBetween (cmdN t.cmd) t.rtotal t.wlow r.1) (placesLat s m a l)) m a t.sid
  | _ => s

/-- An outgoing flit read into the buffer (R258 step 1), where its chunk has room. -/
def xchRead (s : State) (m a : Nat) (t : Stream) : State × Bool :=
  let f := t.rd
  if t.total ≤ f ∨ claimsHeld t ≤ f / 1024 then (setCtx s m a t, false)
  else
    match readFlit s m t f (flitLen m t f - t.part.length) with
    | (u, l, .ok _) =>
      if heldAt t f ∨ notYet s t f ∨ placesRun s l = false then (setCtx s m a t, false)
      else
        (setCtx (touchPlaces s l) m a
          { u with rd := f + 1, cross := fdel u.cross f, scan := max u.scan (f + 1), xbuf := fset u.xbuf f (rowOfBytes u.part, u.partBad), part := [], partBad := false }, true)
    | (u, l, g) => (if heldAt t f then setCtx (touchPlaces s l) m a u else stuck (touchPlaces s l) m a u f g, false)

/-- An outgoing flit sent within the partner's window (R258 step 3); one whose route is cut is answered so (R249). -/
def xchSend (s : State) (m a : Nat) (t : Stream) (q : Nat) : State :=
  let f := t.next
  let d := fget t.xbuf f (0, false)
  let m' := xchMod m t.cmd
  let x : Flit :=
    { mod := m', abut := a, sid := q, idx := f, off := m * 16 + t.sid, nb := flitLen m t f, data := d.1, poison := d.2, add := false }
  let s1 := setCtx s m a { t with next := f + 1, unacked := t.unacked ++ [f], xbuf := fdel t.xbuf f }
  if reachable s m m' then launch s1 (latency s m (.abut a) m' (.abut a)) (.exchangeFlitArrival x)
  else launch s1 (2 * latency s m (.abut a) m .die) (.acknowledgement (.flit m a t.sid f) 7)

/-- A turn's step of an exchange: at most 64 of its flits are unacknowledged (R255). One that is paused goes on with what lies in translated
pages (R153, R258); one whose route to its partner is cut stops (R249). -/
def xchStep (s : State) (m a : Nat) (t0 : Stream) : State × Bool :=
  let t := sendWrites s m a t0 (xchBytes m t0.cmd false)
  if reachable s m (xchMod m t.cmd) = false then (stopStream s m a t (some ⟨0x0B, 0, t.cmd.q0, xchChunk t⟩), false)
  else
  match claimNext s m a t with
  | some s1 => (s1, true)
  | none =>
    match grantNext s m a t with
    | some s1 => (s1, true)
    | none =>
      match t.buffer.find? (writable s m t) with
      | some x => (xchWrite s m a t x, true)
      | none =>
        match t.peer with
        | none => (setCtx s m a t, false)
        | some q =>
          if t.next < t.rd ∧ t.next / 1024 < t.window ∧ t.unacked.length < 64 then (xchSend s m a t q, true)
          else if t.phase ≠ .active then xchRead s m a t
          else
            match t.buffer.find? fun x => match writeAddrs s m t x.1 (xchBytes m t.cmd false x.1) with | .ok _ => false | _ => true with
            | some x =>
              let s1 := stuck s m a t x.1 (writeAddrs s m t x.1 (xchBytes m t.cmd false x.1))
              (match getCtx s1 m a t.sid with
               | some u => if u.phase = .active then xchRead s1 m a u else (s1, false)
               | none => (s1, false))
            | none => xchRead s m a t

/-- Whether an exchange is inside a chunk, which a halt lets it finish (R221). -/
def midChunk (t : Stream) : Bool := cmdKind t.cmd == 5 && t.phase == .active && t.next % 1024 != 0 && t.next != t.total

/-- Whether a halt keeps a stream where it is (R221 step 4). -/
def streamHalted (s : State) (m a : Nat) (t : Stream) : Bool := (getAbut s m a).haltedFor.contains (pkPart t.cmd.pk) && !midChunk t

/-- One step of a context (R191): true where it moved a flit. One that is paused goes on up to the flit that it holds (R153). -/
def ctxStep (s : State) (m a : Nat) (t : Stream) : State × Bool :=
  if streamHalted s m a t ∨ (t.phase ≠ .active ∧ t.phase ≠ .paused) then (s, false)
  else if t.answered = false ∧ cmdExt t.cmd = true then (if t.phase = .paused then (s, false) else readExt s m a t)
  else
    match cmdKind t.cmd with
    | 5 => xchStep s m a t
    | 4 => segStep s m a t
    | 1 => writeStep s m a t
    | 3 => writeStep s m a t
    | _ => if t.total ≤ t.next then (s, false) else sendNext s m a t (t.next + 1 == t.total)

/-- Every stream of an abutment translates ahead. -/
def aheadAll (s : State) (m a : Nat) : State :=
  (List.range 16).foldl (fun s i =>
    match getCtx s m a i with
    | some t => if streamHalted s m a t then s else translateAhead s m a t
    | none => s) s

/-- The contexts of an abutment tried in turn. -/
def tryCtxs (s : State) (m a : Nat) : List Nat → State × Option Nat
  | [] => (s, none)
  | i :: l =>
    match getCtx s m a i with
    | none => tryCtxs s m a l
    | some t =>
      let r := ctxStep s m a t
      if r.2 then (r.1, some i) else tryCtxs r.1 m a l

/-- A turn of an abutment (R153, R191): the context whose turn it is goes on for 4 × (p + 1) flits, else the next ready one. -/
def execStreamTurn (mod abut : Nat) (s0 : State) : Out :=
  let s := aheadAll s0 mod abut
  let x := getAbut s mod abut
  let first := if x.left = 0 then x.last + 1 else x.last
  let r := tryCtxs s mod abut ((List.range 16).map fun i => (first + i) % 16)
  go (match r.2 with
    | none => r.1
    | some i =>
      let p := match getCtx s mod abut i with | some t => cmdPrio t.cmd | none => 0
      adjAbut r.1 mod abut fun y =>
        { y with last := i, left := (if i = x.last ∧ 0 < x.left then x.left else 4 * (p + 1)) - 1 })

/-! Arrivals. -/

/-- Where a flit of a stream arrives: its pier, or the status it is refused with (R222, R234, R256). -/
def flitTarget (s : State) (c : StreamCmd) : Except (BitVec 3) Nat :=
  match streamPier s c with
  | none => .error 2
  | some pk =>
    if (getPier s pk).lost then .error 2
    else if (getPier s pk).fenced then .error 1
    else if residentOpen s pk = false then .error 4
    else .ok pk

/-- An answer to a flit. -/
def ackFlit (s : State) (c : StreamCmd) (f : Flit) (status : BitVec 3) : State :=
  answer s (awMod (cmdActor c)) (streamPlace s c) (.flit f.mod f.abut f.sid f.idx) status

/-- A refusal that stops its stream at this flit: what stops it is told with the answer (R36, R139, R220). -/
def refuseFlit (s : State) (m a : Nat) (t : Stream) (f : Flit) (stop : StreamStop) : State :=
  let keep := match t.stop with | some x => decide (x.pos ≤ f.idx) | none => false
  let s1 := setCtx s m a { t with stop := if keep then t.stop else some stop }
  ackFlit s1 t.cmd f 3

/-- The credit of R256 for a flit that is to land. -/
def creditLands (p : Pier) (c : StreamCmd) (f : Nat) : Bool :=
  cmdRing c == 0 || cmdCredit c == 511 ||
    decide ((((pierSluice p (cmdCredit c)).count.toNat : Int) - ((f : Int) - cmdRing c + 1)) % 2 ^ 17 < 2 ^ 16)

/-- The credit of R354 for a flit that is to be read. -/
def creditReads (p : Pier) (c : StreamCmd) (f : Nat) : Bool :=
  cmdCredit c == 511 ||
    (let d := (((pierSluice p (cmdCredit c)).count.toNat : Int) - f) % 2 ^ 17
     decide (1 ≤ d ∧ d < 2 ^ 16))

/-- The trigger of a stream's command, for what its adds bring about (R220). -/
def cmdCause (c : StreamCmd) : Cause := { strand := c.strand, runid := c.runid, bundle := c.bundle }

/-- A tagged flit's add (R63, R256): its status, misuse where the sluice is no counter. -/
def flitAdd (s : State) (pk : Nat) (c : StreamCmd) (f : Flit) : State × BitVec 3 :=
  if f.add then
    match slAddAt s pk (cmdSluice c) 1 (cmdCause c) with
    | some s1 => (s1, 0)
    | none => (s, 5)
  else (s, 0)

/-- Whether a flit lies behind the flit at which its stream stops: it goes no further (R220). A stream that a bad segment table stops has
sent no flit of that segment, whose number is the position it tells (R238). -/
def stoppedBefore (t : Stream) (f : Nat) : Bool := match t.stop with | some x => x.code != 0x13 && decide (x.pos < f) | none => false

/-- The region check of a stream (R36, R130, R256, R354): the region of the actor in q1, without the service area for a command of
job code. -/
def inStreamRegion (s : State) (pk : Nat) (c : StreamCmd) (o n : Nat) : Bool :=
  inRegion (regionActor s pk (awActor (cmdActor c))) o n && (c.actor == 63 || decide (o + n ≤ 0x3F000))

/-- A data flit arrives at the scratchpad side (R256). -/
def execDataFlitArrival (f : Flit) (s : State) : Out :=
  go (match getCtx s f.mod f.abut f.sid with
    | none => s
    | some t =>
      match flitTarget s t.cmd with
      | .error st => ackFlit s t.cmd f st
      | .ok pk =>
        let p := getPier s pk
        if (handleOf p f.mod f.abut f.sid).isNone ∨ stoppedBefore t f.idx = true then ackFlit s t.cmd f 3
        else if creditLands p t.cmd f.idx = false then ackFlit s t.cmd f 1
        else if inStreamRegion s pk t.cmd f.off f.nb = false then
          refuseFlit s f.mod f.abut t f ⟨0x12, 0, BitVec.ofNat 64 f.off, f.idx⟩
        else
          let r := flitAdd (spadWrite s pk f.off f.nb (f.data.toNat % 2 ^ (8 * f.nb)) f.poison) pk t.cmd f
          ackFlit r.1 t.cmd f r.2)

/-- Whether a job is inside a phase on a module (R139, R140). -/
def jobInPhase (s : State) (job : BitVec 12) (m : Nat) : Bool :=
  let j := getJob s job.toNat
  j.inPhase && !j.waitOpen.contains m

/-- A write to the slice of a pier's site: a slice that the job does not hold becomes its own, not lost (R139). -/
def weightWrite (s : State) (pk off nb v : Nat) (poison : Bool) : State :=
  let job := jobOf s pk
  adjSite s (siteKey s pk) fun y =>
    { y with
      slice := mwrite y.slice off nb v
      slicePoison := pstore y.slicePoison off nb poison
      status := if sliceOwned y.status job then y.status else BitVec.ofNat 64 (2 ^ 63 + job.toNat) }

/-- A weight-store flit arrives (R137 to R139, R356): a refresh delays it, the phase rule decides it. -/
def execWeightFlitArrival (f : Flit) (s : State) : Out :=
  go (match getCtx s f.mod f.abut f.sid with
    | none => s
    | some t =>
      match flitTarget s t.cmd with
      | .error st => ackFlit s t.cmd f st
      | .ok pk =>
        let wait := refreshWait (getMod s (pkMod pk)).cyc (f.off / 2 ^ 17)
        let job := jobOf s pk
        let x := getSite s (siteKey s pk)
        if (handleOf (getPier s pk) f.mod f.abut f.sid).isNone ∨ stoppedBefore t f.idx = true then ackFlit s t.cmd f 3
        else if wait ≠ 0 then schedule s (s.cycle + wait) (.weightFlitArrival f)
        else if sliceOwned x.status job = true ∧ jobInPhase s job (pkMod pk) = true then
          refuseFlit s f.mod f.abut t f ⟨0x11, 0, BitVec.ofNat 64 f.off, f.idx⟩
        else
          let r := flitAdd (weightWrite s pk f.off f.nb (f.data.toNat % 2 ^ (8 * f.nb)) f.poison) pk t.cmd f
          ackFlit r.1 t.cmd f r.2)

/-- A read request of SWRITE or SSCAT arrives (R354): its data travels back with the answer. -/
def execScratchpadReadRequest (f : Flit) (s : State) : Out :=
  go (match getCtx s f.mod f.abut f.sid with
    | none => s
    | some t =>
      match flitTarget s t.cmd with
      | .error st => ackFlit s t.cmd f st
      | .ok pk =>
        let p := getPier s pk
        if (handleOf p f.mod f.abut f.sid).isNone then ackFlit s t.cmd f 3
        else if creditReads p t.cmd f.idx = false then ackFlit s t.cmd f 1
        else if inStreamRegion s pk t.cmd f.off f.nb = false then
          refuseFlit s f.mod f.abut t f ⟨0x06, 0, BitVec.ofNat 64 f.off, f.idx⟩
        else
          let d := (f.idx, BitVec.ofNat 512 (spadRead s pk f.off f.nb), spadPoisoned s pk f.off)
          ackFlit (setCtx s f.mod f.abut { t with buffer := t.buffer ++ [d] }) t.cmd f 0)

/-- A flit sent once more after a refusal (R222, R256, R354): the data is the flit's own. A stream that a halt keeps sends it after its
return. -/
def execFlitResend (f : Flit) (s : State) : Out :=
  go (match getCtx s f.mod f.abut f.sid with
    | none => s
    | some t =>
      let u := { t with resend := t.resend.filter (· != f.idx) }
      if t.phase = .ending then
        settleStream (setCtx s f.mod f.abut { u with unacked := t.unacked.filter (· != f.idx) }) f.mod f.abut f.sid
      else if streamHalted s f.mod f.abut t then s
      else
        launchFlit (setCtx s f.mod f.abut u) f.mod f.abut t f.idx 0
          (if cmdWrites t.cmd then .scratchpadReadRequest f
           else if cmdKind t.cmd = 6 then .weightFlitArrival f
           else .dataFlitArrival f))

/-- The flit that a stream sends again: the abutment keeps its data until it is acknowledged. -/
def keptFlit (m a : Nat) (t : Stream) (idx : Nat) : Flit :=
  let d := fget t.xbuf idx (0, false)
  { mod := m, abut := a, sid := t.sid, idx := idx,
    off := if cmdKind t.cmd = 6 then bits t.cmd.q2 0 20 + 64 * idx else cmdOffset t.cmd idx, nb := flitLen m t idx,
    data := d.1, poison := d.2, add := carriesAdd t idx }

/-- A refused flit waits to be sent again; one refused as not resident holds its stream (R222, R256). -/
def refusedFlit (s : State) (m a : Nat) (t : Stream) (idx : Nat) (hold : Bool) : State :=
  schedule (setCtx s m a { t with resend := t.resend ++ [idx], held := if hold then t.held ++ [idx] else t.held })
    (s.cycle + (if hold then 512 else 64)) (.flitResend (keptFlit m a t idx))

/-- An acknowledgement of a flit, or the grant of a handle, reaches the abutment (R245, R249, R255 to R257). -/
def flitAck (s : State) (m a sid idx : Nat) (status : BitVec 3) : State :=
  match getCtx s m a sid with
  | none => s
  | some t0 =>
    let t := { t0 with held := t0.held.filter (· != idx) }
    let rest := t.unacked.filter (· != idx)
    let gone := { t with unacked := rest, xbuf := fdel t.xbuf idx }
    if status = 6 then
      let u := { t0 with openOut := false }
      if t0.phase = .opening then streamBegin s m a u
      else if t0.phase = .ending then settleStream (setCtx s m a u) m a sid
      else s
    else if t.phase = .ending ∧ (status ≠ 0 ∧ status ≠ 5) then settleStream (setCtx s m a gone) m a sid
    else
      match status.toNat with
      | 1 => refusedFlit s m a t idx false
      | 4 => refusedFlit s m a t idx true
      | 2 => stopStream s m a gone (some ⟨0x15, 0, BitVec.ofNat 64 (cmdActor t.cmd).toNat, idx⟩)
      | 7 => stopStream s m a gone (some ⟨0x0B, 0, t.cmd.q0, idx⟩)
      | 3 =>
        if cmdWrites t.cmd ∧ t.stop.isSome then setCtx s m a gone
        else if cmdKind t.cmd = 5 then stopStream s m a gone (some ⟨0x12, 0, t.cmd.q4, xchChunk t⟩)
        else stopStream s m a { gone with stop := none } t.stop
      | _ =>
        let s0 := if status = 5 then streamRecord s m a t.cmd 0x10 0 (BitVec.ofNat 64 (cmdSluice t.cmd)) idx else s
        if cmdWrites t.cmd then settleStream (setCtx s0 m a { t with unacked := rest }) m a sid
        else
          let r := bumpLow t.low (idx :: t.acked) (t.acked.length + 1)
          let u := { gone with low := r.1, acked := r.2, landed := if cmdKind t.cmd = 5 then t.landed else t.landed + 1 }
          settleStream (streamDone (setCtx s0 m a u) m a sid) m a sid

/-- One increment of a stream less is owed. -/
def addLess (s : State) (m a sid : Nat) (cmd : StreamCmd) : State :=
  match getCtx s m a sid with
  | some u =>
    if u.cmd.tok = cmd.tok then
      settleStream (streamDone (setCtx s m a { u with adds := u.adds - 1, addsBack := min u.addsBack (u.adds - 1) }) m a sid) m a sid
    else s
  | none => s

/-- One increment more has been refused. -/
def addRefused (s : State) (m a sid : Nat) (cmd : StreamCmd) : State :=
  match getCtx s m a sid with
  | some u => if u.cmd.tok = cmd.tok then setCtx s m a { u with addsBack := min u.adds (u.addsBack + 1) } else s
  | none => s

/-- An increment of a stream reaches its sluice (R63, R249, R257): misuse and the lack of an actor give a record and freeze nothing. One
under way when its stream stops is made all the same (R220). -/
def execStreamIncrement (mod abut sid : Nat) (cmd : StreamCmd) (s : State) : Out :=
  let pos := match getCtx s mod abut sid with | some t => t.low | none => 0
  go (if reachable s mod (awMod (cmdActor cmd)) = false then
      addLess (streamRecord s mod abut cmd 0x15 0 (BitVec.ofNat 64 (cmdActor cmd).toNat) pos) mod abut sid cmd
    else
      match flitTarget s cmd with
      | .error 2 => addLess (streamRecord s mod abut cmd 0x15 0 (BitVec.ofNat 64 (cmdActor cmd).toNat) pos) mod abut sid cmd
      | .error _ => schedule (addRefused s mod abut sid cmd) (s.cycle + 512) (.streamIncrement mod abut sid cmd)
      | .ok pk =>
        match slAddAt s pk (cmdSluice cmd) 1 (cmdCause cmd) with
        | some s1 => addLess s1 mod abut sid cmd
        | none => addLess (streamRecord s mod abut cmd 0x10 0 (BitVec.ofNat 64 (cmdSluice cmd)) pos) mod abut sid cmd)

/-! Pairing (R258, R357). -/

/-- The partner of an exchange: the same tag, on the same abutment of the module its mask names, unpaired, with a mask that
names this module back. -/
def findPartner (s : State) (m a : Nat) (t : Stream) : Option Stream :=
  let m' := xchMod m t.cmd
  (getAbut s m' a).ctxs.findSome? fun c =>
    match c.2 with
    | some u =>
      if cmdKind u.cmd = 5 ∧ u.phase = .pairing ∧ u.peer = none ∧ u.stop = none ∧ cmdTag u.cmd = cmdTag t.cmd ∧ xchMod m' u.cmd = m ∧
          jobOf s u.cmd.pk = jobOf s t.cmd.pk then some u
      else none
    | none => none

/-- The increments of an exchange that receives nothing (R257). -/
def emptyAdds (x : Stream) : Nat := if x.rtotal = 0 then 1 else 0

/-- A side meets its partner on the partner's module: both go on, or stop where count, mask or element size differ (R357); the side itself
hears of it after the way back (R22, R258). -/
def pairUp (s : State) (m a : Nat) (t u : Stream) : State :=
  let m' := xchMod m t.cmd
  let back (s : State) : State := launch s (latency s m' (.abut a) m (.abut a)) (.sxchPair m a t.sid)
  if xchKey t.cmd = xchKey u.cmd then
    let s1 := oweAdds (setCtx s m a { t with peer := some u.sid }) m' a { u with phase := .active, peer := some t.sid } (emptyAdds u)
    back (streamDone s1 m' a u.sid)
  else
    back (stopStream (setCtx s m a { t with stop := some ⟨0x12, 0, t.cmd.q4, 0⟩ }) m' a u (some ⟨0x12, 0, u.cmd.q4, 0⟩))

/-- A side that has met its partner goes on. -/
def pairDone (s : State) (m a : Nat) (t : Stream) : State := streamDone (oweAdds s m a { t with phase := .active } (emptyAdds t)) m a t.sid

/-- An exchange looks for its partner (R258): it waits where none has been issued, and stops where the module is absent. One that has been
met goes on, or stops. -/
def execSxchPair (mod abut sid : Nat) (s : State) : Out :=
  go (match getCtx s mod abut sid with
    | none => s
    | some t =>
      if t.phase ≠ .pairing then s
      else if t.stop.isSome then stopStream s mod abut t none
      else if t.peer.isSome then pairDone s mod abut t
      else if reachable s mod (xchMod mod t.cmd) = false then stopStream s mod abut t (some ⟨0x0B, 0, t.cmd.q0, 0⟩)
      else
        match findPartner s mod abut t with
        | none => s
        | some u => pairUp s mod abut t u)

/-- A context saved at a halt whose exchange a flit or grant of its partner names. -/
def savedSide (s : State) (m a sid : Nat) : Option (Nat × Stream) :=
  (getAbut s m a).savedCtxs.find? fun c => c.2.sid == sid && cmdKind c.2.cmd == 5 && c.2.peer.isSome

/-- A saved context changed. -/
def adjSaved (s : State) (m a : Nat) (x : Nat × Stream) (f : Stream → Stream) : State :=
  adjAbut s m a fun y => { y with savedCtxs := y.savedCtxs.map fun c => if c.1 = x.1 ∧ c.2.sid = x.2.sid then (c.1, f c.2) else c }

/-- A window for the next chunk is granted to a side (R258 step 2), saved as it may be. -/
def execSxchWindowGrant (mod abut sid : Nat) (s : State) : Out :=
  go (match getCtx s mod abut sid with
    | some t => if cmdKind t.cmd = 5 ∧ t.peer.isSome then setCtx s mod abut { t with window := t.window + 1 } else s
    | none =>
      match savedSide s mod abut sid with
      | some x => adjSaved s mod abut x fun t => { t with window := t.window + 1 }
      | none => s)

/-- Whether a flit of an exchange comes from the partner of a side. -/
def fromPeer (f : Flit) (t : Stream) : Bool := cmdKind t.cmd == 5 && t.peer == some (f.off % 16) && xchMod f.mod t.cmd == f.off / 16

/-- What a side of an exchange makes of its partner's word, and what it answers. -/
def hearWord (t : Stream) (w : Nat) (free : Bool) : Stream × Option XchWord :=
  if w = XchWord.claim.code then
    (if t.phase = .active ∧ free = true then ({ t with claimed := t.claimed + 1 }, some .room) else (t, some .full))
  else if w = XchWord.room.code then ({ t with asking := false }, none)
  else if w = XchWord.full.code then ({ t with asking := false, claimed := if t.asking then t.claimed - 1 else t.claimed }, none)
  else if t.phase = .ending then (t, none)
  else ({ t with phase := .ending, peer := none, stop := some ⟨0x12, 0, t.cmd.q4, xchChunk t⟩ }, none)

/-- The partner's word reaches a side of an exchange: room for a chunk is asked for, given or refused, or the partner has stopped (R17,
R258, R358). A side that is saved takes no room. -/
def execWord (s : State) (f : Flit) : State :=
  let q := f.off % 16
  let mine (t : Stream) : Bool := fromPeer f t && f.data == BitVec.ofNat 512 (cmdTag t.cmd)
  match getCtx s f.mod f.abut f.sid with
  | some t =>
    if mine t then
      let r := hearWord t f.idx (bufferFree s f.mod f.abut)
      let s1 := settleStream (setCtx s f.mod f.abut r.1) f.mod f.abut f.sid
      match r.2 with | some w => xchTell s1 f.mod f.abut t q w | none => s1
    else s
  | none =>
    match savedSide s f.mod f.abut f.sid with
    | some x =>
      if mine x.2 then
        let r := hearWord x.2 f.idx false
        let s1 := adjSaved s f.mod f.abut x fun _ => r.1
        match r.2 with | some w => xchTell s1 f.mod f.abut x.2 q w | none => s1
      else s
    | none => s

/-- An exchange flit arrives at the other side's buffer and is acknowledged (R258 step 3); `off` names its sender. One that
finds its exchange stopped is refused; one that finds it saved is held. A flit of no bytes is the partner's word. -/
def execExchangeFlitArrival (f : Flit) (s : State) : Out :=
  let back := AckTo.flit (f.off / 16) f.abut (f.off % 16) f.idx
  let held (t : Stream) : Stream := { t with buffer := t.buffer ++ [(f.idx, f.data, f.poison)] }
  let live := match getCtx s f.mod f.abut f.sid with | some t => if fromPeer f t then some t else none | none => none
  go (if f.nb = 0 then execWord s f
    else
      match live with
      | some t => answer (setCtx s f.mod f.abut (held t)) f.mod (.abut f.abut) back 0
      | none =>
        match savedSide s f.mod f.abut f.sid with
        | some x =>
          if fromPeer f x.2 then answer (adjSaved s f.mod f.abut x held) f.mod (.abut f.abut) back 0
          else answer s f.mod (.abut f.abut) back 3
        | none => answer s f.mod (.abut f.abut) back 3)

end Sys2Proof.Machine
end

