-- ==== Sys2Proof/Machine/Ms.lean ====
section
/-!
DEFINITION. The meanings of ms: sends and the message state (R301 to R303, R317, R318, R332, R337 to R340).
-/

namespace Sys2Proof.Machine

/-- What sends need: port a; port a and the trigger value steer (R128, R337). -/
def needMs : Need := { unit := 9, a := some .msA, steerT := true, steerA := true }

/-- The executing actor's sequence count advances (R338). -/
def nextSeq (s : State) : State := adjActor s s.issue.pk (curActorIx s) fun a => { a with seq := a.seq + 1 }

/-- The q-words of a payload and their poison (R338). -/
def qPay (x : Strand) (n : Nat) : List Word × BitVec 6 :=
  ((List.range n).map fun i => vsc (readQ x i),
   BitVec.ofNat 6 (natOfBits ((List.range 6).map fun i => decide (i < n) && (readQ x i).poison)))

/-- The p-words of a payload and their poison; words past the length of the run's message read zero (R302). -/
def pPay (x : Strand) (n : Nat) : List Word × BitVec 6 :=
  ((List.range n).map fun i => vsc (readP x i),
   BitVec.ofNat 6 (natOfBits ((List.range 6).map fun i => decide (i < n) && (readP x i).poison)))

/-- A message of the run in hand (R338): destination, class, priority and kind given; the payload of `n` words. -/
def buildMsg (s : State) (dst : BitVec 28) (cls prio kind : Nat) (t : Word) (pay : List Word × BitVec 6) : Msg :=
  let x := curStrand s
  { dmod := BitVec.ofNat 12 (awMod dst), dpier := BitVec.ofNat 10 (awPier dst), dact := BitVec.ofNat 6 (awActor dst),
    cls := BitVec.ofNat 5 cls, prio := BitVec.ofNat 2 prio, kind := BitVec.ofNat 3 kind,
    smod := BitVec.ofNat 12 (pkMod s.issue.pk), spier := x.lp, sact := x.actor, seq := (curActor s).seq,
    tag := t.extractLsb' 0 16, job := jobOf s s.issue.pk, graph := (curActor s).graph, words := t.extractLsb' 16 3,
    flags := BitVec.ofNat 3 (b2n (bitAt t 19)), pay := pay.1, poison := pay.2 }

/-- The checks of R303, R317 and R338 and then the send: length 7 is illegal, classes 30 and 31 are for service code. -/
def sendChecked (s : State) (addressed : Bool) (a t : Word) (k : Trig) : Trig :=
  if bits t 16 3 = 7 then .fault 0x03 t
  else if addressed = true ∧ curService s = false ∧ 30 ≤ bits a 28 5 ∧ bits a 0 6 ≠ 63 then .fault 0x0D a
  else k

/-- A send to an address: header kind 110 to actor 63, else the kind given (R337). -/
def sendTo (s : State) (kind : Nat) (t a : Value) : State :=
  let dst : BitVec 28 := (vsc a).extractLsb' 0 28
  let k := if awActor dst = 63 then 6 else kind
  let g := buildMsg s dst (bits (vsc a) 28 5) (bits (vsc a) 33 2) k (vsc t) (qPay (curStrand s) (bits (vsc t) 16 3))
  -- a service actor's REPLY to a command of the host carries flag [2] (R212, R243)
  let g' := if kind = 1 ∧ curService s ∧ (curStrand s).hdr.flags.toNat / 4 = 1 then { g with flags := g.flags ||| 4 } else g
  nextSeq (enqueueCur s (.toActor (curActorIx s) dst) (.msg g') (moveWord s t) (BitVec.ofNat 64 dst.toNat) 9)

/-- SEND (R337). -/
def execSend (m : Mv) (s : State) : Out :=
  go (runTrigger s m needMs sendHeld fun s t a _ => sendChecked s true (vsc a) (vsc t) (.ok (sendTo s 0 t a)))

/-- REPLY (R337). -/
def execReply (m : Mv) (s : State) : Out :=
  go (runTrigger s m needMs sendHeld fun s t a _ => sendChecked s true (vsc a) (vsc t) (.ok (sendTo s 1 t a)))

/-- SEND.red: a contribution to a group's reduction round (R252, R337). -/
def sendRedDo (s : State) (t a : Value) : State :=
  let gid := (vsc a).toNat % 256
  let hdr := (fget (getMod s (pkMod s.issue.pk)).groups gid {}).hdr
  let dst : BitVec 28 := hdr.extractLsb' 0 28
  let g := buildMsg s dst (bits hdr 52 5) (bits hdr 50 2) 7 (setBits (vsc t) 19 1 0) (qPay (curStrand s) (bits (vsc t) 16 3))
  nextSeq (enqueueCur s (.toActor (curActorIx s) dst) (.reduce gid { g with tag := 0 }) (moveWord s t) (vsc a) 9)

/-- SEND.red (R337). -/
def execSendRed (m : Mv) (s : State) : Out :=
  go (runTrigger s m needMs sendHeld fun s t a _ => sendChecked s false (vsc a) (vsc t) (.ok (sendRedDo s t a)))

/-- FWD in the name of the original sender, but for a service command (R302). -/
def fwdDo (s : State) (t a : Value) : State :=
  let x := curStrand s
  let dst : BitVec 28 := (vsc a).extractLsb' 0 28
  let srv := awActor dst = 63
  let g := buildMsg s dst (bits (vsc a) 28 5) (bits (vsc a) 33 2) (if srv then 6 else 0) (vsc t) (pPay x (bits (vsc t) 16 3))
  let g' := if srv then g else { g with smod := x.hdr.smod, spier := x.hdr.spier, sact := x.hdr.sact }
  nextSeq (enqueueCur s (.toActor (curActorIx s) dst) (.msg g') (moveWord s t) (BitVec.ofNat 64 dst.toNat) 9)

/-- FWD (R301). -/
def execFwd (m : Mv) (s : State) : Out :=
  go (runTrigger s m needMs sendHeld fun s t a _ => sendChecked s true (vsc a) (vsc t) (.ok (fwdDo s t a)))

/-- MCAST: one outbox entry for all copies (R317, R318). -/
def mcastDo (s : State) (t a : Value) : State :=
  let gid := (vsc a).toNat % 256
  let hdr := (fget (getMod s (pkMod s.issue.pk)).groups gid {}).hdr
  let g := buildMsg s 0 (bits hdr 52 5) (bits hdr 50 2) 0 (vsc t) (qPay (curStrand s) (bits (vsc t) 16 3))
  nextSeq (enqueueCur s (.toGroup (curActorIx s) (pkMod s.issue.pk) gid) (.mcast gid { g with flags := g.flags ||| 2 })
    (moveWord s t) (vsc a) 9)

/-- MCAST (R317). -/
def execMcast (m : Mv) (s : State) : Out :=
  go (runTrigger s m needMs sendHeld fun s t a _ =>
    if bits (vsc t) 16 3 = 7 then .fault 0x03 4 else .ok (mcastDo s t a))

/-- Whether an actor's spillway holds or returns any of its messages (R34, R43). -/
def spilling (a : Actor) : Bool := a.spilled ≠ [] || a.transit ≠ 0

/-- The actor's messages in inbox slots, the reserve included. -/
def slotsOf (p : Pier) (a : Nat) : List Slot := p.inbox.filter fun x => x.msg.dact.toNat == a

/-- Whether an outbox entry is an actor's entry for a destination. -/
def entryFor (s : State) (a : Nat) (dst : BitVec 28) (e : OutEntry) : Bool :=
  match e.key with
  | .toActor b d => a == b && d == dst
  | .toGroup b m g => a == b && groupHas s m g dst
  | _ => false

/-- The items of MSTAT (R332). -/
def mstatItem (s : State) (item : Nat) (a : Word) : Word :=
  let p := curPier s
  let act := curActor s
  match item with
  | 0 =>
    BitVec.ofNat 64 (min 64 p.outbox.length + (p.outbox.filter (·.retry)).length % 128 * 2 ^ 8 + act.seq.toNat * 2 ^ 16)
  | 1 =>
    BitVec.ofNat 64 ((slotsOf p (curActorIx s)).length % 1024 + b2n (spilling act) * 2 ^ 16 + act.spilled.length * 2 ^ 32)
  | _ =>
    let l := p.outbox.filter (entryFor s (curActorIx s) (a.extractLsb' 0 28))
    BitVec.ofNat 64 (l.length % 128 + b2n (match l.head? with | some e => e.refused | none => false) * 2 ^ 8)

/-- MSTAT (R332): port a is needed for item 010 alone. -/
def execMstat (m : Mv) (s : State) : Out :=
  go (runTrigger s m { unit := 9 } noHold fun s t _ _ =>
    let item := (vsc t).toNat % 8
    if item = 2 then
      match opPort (curStrand s) .msA with
      | none => .fault 0x05 (BitVec.ofNat 64 OpSel.msA.index)
      | some a => .ok (pendResult s 9 2 (some ⟨.scalar (mstatItem s 2 (vsc a)), t.poison || a.poison⟩) none false none)
    else if 3 ≤ item then .fault 0x03 5
    else .ok (pendResult s 9 2 (some ⟨.scalar (mstatItem s item 0), t.poison⟩) none false none))

end Sys2Proof.Machine
end

