-- ==== Sys2Proof/Machine/Sy.lean ====
section
/-!
DEFINITION. The meanings of sy: control words, creation and retirement of actors, completion work, cancels, invalidation
(R34, R35, R55, R72, R73, R133, R134, R146, R155, R184, R200, R203, R232, R274 to R276, R280, R293 to R296, R304, R305,
R362, R363).
-/

namespace Sys2Proof.Machine

/-! Control words. -/

/-- Whether an index names a control word (R34, R72, R133, R155, R184, R203, R232). -/
def cwKnown (n : Nat) : Bool :=
  n ≤ 4 || (0x10 ≤ n && n ≤ 0x16) || (0x20 ≤ n && n ≤ 0x28) || n == 0x30 || n == 0x100 || n == 0x101 ||
    (0x108 ≤ n && n ≤ 0x10C)

/-- The RW fields of a control word. -/
def cwRw (n : Nat) : Nat :=
  if n = 4 then 2 ^ 32 - 1
  else if n = 0x12 then 0x1FF
  else if n = 0x14 then 2 ^ 29 - 1
  else if 0x20 ≤ n ∧ n ≤ 0x27 then 0xFF00000000000000 + (2 ^ 44 - 2 ^ 14)
  else 0

/-- The RS fields of a control word. -/
def cwRs (n : Nat) : Nat :=
  match n with
  | 0x10 => 0x7FFC0
  | 0x11 => 0x7FFC0
  | 0x13 => 2 ^ 55 - 2 ^ 16 + 0x1F
  | 0x15 => 0xFFF
  | 0x100 => 2 ^ 64 - 1
  | 0x101 => 0xFF0000
  | 0x108 => 0x70000003F
  | 0x10A => 2 ^ 32 - 1
  | 0x10B => 2 ^ 32 - 1
  | _ => 0

/-- The fold factor in force for the run's logical pier (R195). -/
def curFold (s : State) : Nat := teFold (entryOf s (pkMod s.issue.pk) (pkPart s.issue.pk) (curLp s))

/-- The carrier window that cw.winj names in the run (R200). -/
def winIndex (s : State) (j : Nat) : Nat :=
  teSlot (entryOf s (pkMod s.issue.pk) (pkPart s.issue.pk) (curLp s)) * (8 / curFold s) + j

/-- The occupancy of an actor: its slots outside the service reserve (R34, R42). -/
def occupancy (p : Pier) (a : Nat) : Nat := (p.inbox.filter fun x => x.msg.dact.toNat == a && !x.reserve).length

/-- cw.pierid (R72). -/
def pierId (s : State) : Word :=
  BitVec.ofNat 64 (pkMod s.issue.pk % 4096 * 2 ^ 32 + physicalOf s s.issue.pk % 2048 * 2 ^ 16 + curLp s)

/-- A control word as it stands (R34, R72, R133, R155, R184, R203, R232). DESIGN CHOICE, log entry 34: the tail of the dirty log is its
head plus its count, so that a CWR of the head moves both. -/
def cwRead (s : State) (n : Nat) : Word :=
  let x := curStrand s
  let a := curActor s
  let p := curPier s
  if 0x20 ≤ n ∧ n ≤ 0x27 then fget p.wins (winIndex s (n - 0x20)) 0
  else
    match n with
    | 0x00 => BitVec.ofNat 64 s.issue.strand
    | 0x01 => BitVec.ofNat 64 x.actor.toNat
    | 0x02 => x.cycles
    | 0x03 => BitVec.ofNat 64 x.runid.toNat
    | 0x04 => BitVec.ofNat 64 x.seed.toNat
    | 0x10 => a.rgnbase
    | 0x11 => a.rgnlim
    | 0x12 => BitVec.ofNat 64 (b2n (spilling a) * 2 ^ 31 + occupancy p (curActorIx s) % 512 * 2 ^ 16 + a.weir.toNat)
    | 0x13 => a.spill
    | 0x14 => a.fault
    | 0x15 => BitVec.ofNat 64 a.graph.toNat
    | 0x16 => BitVec.ofNat 64 (b2n p.hold * 2 ^ 63 + x.wexp % 256 * 2 ^ 40 + x.wd % 2 ^ 40)
    | 0x28 => pierId s
    | 0x30 => BitVec.ofNat 64 (jobOf s s.issue.pk).toNat
    | 0x100 => p.xlroot
    | 0x101 => BitVec.ofNat 64 (p.dlogCount % 512 * 2 ^ 32 + p.dlogHead.toNat * 2 ^ 16 + (p.dlogHead.toNat + p.dlogCount) % 256)
    | 0x108 => BitVec.ofNat 64 (p.jobStrands.toNat * 2 ^ 32 + p.age.toNat)
    | 0x109 => (getMod s (pkMod s.issue.pk)).tb
    | 0x10A => BitVec.ofNat 64 p.laglim.toNat
    | 0x10B => BitVec.ofNat 64 p.savelim.toNat
    | 0x10C => BitVec.ofNat 64 (b2n p.hold * 2 ^ 63 + b2n p.debugHalted * 2 ^ 62)
    | _ => 0

/-- Checks 1 to 3 of R294: the code of the fault that an index gives. -/
def cwIndexFault (s : State) (n : Nat) : Option Nat :=
  if curService s = false ∧ 0x100 ≤ n then some 0x0D
  else if cwKnown n = false then some 0x03
  else if 0x20 ≤ n ∧ n ≤ 0x27 ∧ 8 / curFold s ≤ n - 0x20 then some 0x03
  else none

/-- The value checks of a window register, in the order of R134. -/
def winFault (n : Nat) (v : Word) : Option (Nat × Word) :=
  if bits v 58 2 = 3 ∨ 2 ≤ bits v 56 2 then some (0x03, v)
  else if bits v 56 2 = 1 ∧ bits v 60 2 ≠ 0 then some (0x03, v)
  else if bits v 56 2 = 0 ∧ 0xFC0 < bits v 14 15 then some (0x0D, BitVec.ofNat 64 n)
  else if bits v 56 2 = 1 ∧ 0x4000 < bits v 14 15 then some (0x03, v)
  else none

/-- Checks 4 and 5 of R294: the fault that a value gives. -/
def cwValueFault (s : State) (n : Nat) (v : Word) : Option (Nat × Word) :=
  if curService s = false ∧ (cwRw n = 0 ∨ v.toNat &&& (2 ^ 64 - 1 - cwRw n) ≠ 0) then some (0x0D, BitVec.ofNat 64 n)
  else if n = 0x12 ∧ (bits v 0 9 = 0 ∨ 256 < bits v 0 9) then some (0x03, v)
  else if n = 0x13 ∧ 12 < bits v 0 4 then some (0x03, v)
  else if n = 0x108 ∧ bits v 32 3 = 0 then some (0x03, v)
  else if 0x20 ≤ n ∧ n ≤ 0x27 then winFault n v
  else none

/-- The actor words written in the pier context. -/
def cwActor (s : State) (f : Actor → Actor) : State := adjActor s s.issue.pk (curActorIx s) f

/-- A control word written; `v` holds its writable fields, the others as zero (R294). -/
def cwWrite (s : State) (n : Nat) (v : Word) : State :=
  let pk := s.issue.pk
  if 0x20 ≤ n ∧ n ≤ 0x27 then adjPier s pk fun p => { p with wins := fset p.wins (winIndex s (n - 0x20)) v }
  else
    match n with
    | 0x04 => adjCur s fun x => { x with seed := if v.extractLsb' 0 32 = (0 : BitVec 32) then 1 else v.extractLsb' 0 32 }
    | 0x10 => cwActor s fun a => { a with rgnbase := v }
    | 0x11 => cwActor s fun a => { a with rgnlim := v }
    | 0x12 => cwActor s fun a => { a with weir := v.extractLsb' 0 9 }
    | 0x13 => cwActor s fun a => { a with spill := v }
    | 0x14 => cwActor s fun a => { a with fault := v }
    | 0x15 => cwActor s fun a => { a with graph := v.extractLsb' 0 12 }
    | 0x100 => adjPier s pk fun p => { p with xlroot := v }
    | 0x101 => adjPier s pk fun p => { p with dlogHead := v.extractLsb' 16 8 }
    | 0x108 => adjPier s pk fun p => { p with jobStrands := v.extractLsb' 32 3, age := v.extractLsb' 0 6 }
    | 0x10A => adjPier s pk fun p => { p with laglim := v.extractLsb' 0 32 }
    | 0x10B => adjPier s pk fun p => { p with savelim := v.extractLsb' 0 32 }
    | _ => s

/-- An operation of the run that reads or writes cw.seed has not completed (R296). -/
def seedBusy (s : State) : Bool := (curStrand s).pend.any (·.seed)

/-- The fields of a word that the running code may write. -/
def cwMask (s : State) (n : Nat) : Nat := if curService s then cwRw n ||| cwRs n else cwRw n

/-- CRD (R293 to R296): the word as it stands when the trigger issues, 2 cycles on. -/
def execCrd (m : Mv) (s : State) : Out :=
  go (runTrigger s m { unit := 12, steerT := true } (fun s t _ _ => (vsc t).toNat == 4 && seedBusy s) fun s t _ _ =>
    let n := (vsc t).toNat
    match cwIndexFault s n with
    | some c => .fault c (vsc t)
    | none => .ok (pendResult s 12 2 (some (Value.ofWord (cwRead s n))) none (n == 4) none))

/-- CWR (R293 to R296). -/
def runCwr (s : State) (m : Mv) : State :=
  runTrigger s m { unit := 12, a := some .syA, steerT := true, steerA := true }
    (fun s _ a _ => (vsc a).toNat == 4 && seedBusy s) fun s t a _ =>
      let n := (vsc a).toNat
      match cwIndexFault s n with
      | some c => .fault c (vsc a)
      | none =>
        match cwValueFault s n (vsc t) with
        | some f => .fault f.1 f.2
        | none => .ok (cwWrite s n (BitVec.ofNat 64 ((vsc t).toNat &&& cwMask s n)))

/-- CWR (R293). -/
def execCwr (m : Mv) (s : State) : Out := go (runCwr s m)

/-- A CWR that names one of some words: the steps of the table that single out one word are CWRs of that word (log entry
12); with another word in port a they do nothing. -/
def runCwrOf (s : State) (m : Mv) (words : Nat → Bool) : State :=
  match opPort (curStrand s) .syA with
  | none => runCwr s m
  | some a => if words (vsc a).toNat then runCwr s m else s

/-- A CWR of cw.winj (R133, R134). -/
def execWriteWindow (m : Mv) (s : State) : Out := go (runCwrOf s m fun n => 0x20 ≤ n && n ≤ 0x27)
/-- A CWR of cw.weir (R35). -/
def execWriteWeir (m : Mv) (s : State) : Out := go (runCwrOf s m fun n => n == 0x12)
/-- A CWR of cw.seed (R72, R296). -/
def execWriteSeed (m : Mv) (s : State) : Out := go (runCwrOf s m fun n => n == 4)
/-- A CWR of cw.sched (R184). -/
def execWriteSched (m : Mv) (s : State) : Out := go (runCwrOf s m fun n => n == 0x108)
/-- A CWR of cw.xlroot (R146). -/
def execWriteXlroot (m : Mv) (s : State) : Out := go (runCwrOf s m fun n => n == 0x100)

/-! Creation of actors (R55, R274 to R276). -/

/-- Whether a graph belongs to a job (R55). -/
def graphOf (s : State) (job : BitVec 12) (g : Nat) : Bool := (getJob s job.toNat).img.graphs.any fun l => l.graph.toNat == g

/-- Whether every field of a record and of its handler entries is in range (R55): the words of the record, then the
entries. -/
def recordOk (s : State) (job : BitVec 12) (w : List Word) : Bool :=
  let f (i : Nat) : Word := lgetD w i 0
  let k := (f 7).toNat
  decide ((f 0).toNat < 128) && (bitAt (f 0) 6 || bits (f 0) 0 6 != 63) &&
    decide ((f 1).toNat ≤ 0x3F000 ∧ (f 1).toNat % 64 = 0 ∧ (f 2).toNat ≤ 0x3F000 ∧ (f 2).toNat % 64 = 0) &&
    decide (1 ≤ bits (f 3) 0 9 ∧ bits (f 3) 0 9 ≤ 256) &&
    decide ((f 4).toNat < 2 ^ 55 ∧ bits (f 4) 5 11 = 0 ∧ bits (f 4) 0 4 ≤ 12) &&
    decide ((f 5).toNat < 2 ^ 29 ∧ (f 6).toNat < 2 ^ 12) && graphOf s job (f 6).toNat && decide (k ≤ 32) &&
    ((w.drop 8).take k).all fun e => bits e 0 30 == 0

/-- The index a record gets: the one it names, or the lowest free one (R55). -/
def recordIndex (p : Pier) (w0 : Word) : Option Nat :=
  let free (i : Nat) : Bool := (pierActor p i).st == .free
  if bitAt w0 6 then (List.range 63).find? free
  else if free (bits w0 0 6) then some (bits w0 0 6) else none

/-- The free handler-table entries of a pier, lowest first (R37, R276). -/
def freeHandlers (p : Pier) : List Nat := (List.range 128).filter fun i => !bitAt (fget p.handlers i 0) 63

/-- Handler entries put into free places of the table, the actor field replaced (R276). -/
def putHandlers (p : Pier) (a : Nat) (l : List Word) : Pier :=
  { p with handlers := ((freeHandlers p).zip l).foldl (fun h e => fset h e.1 (setBits e.2 57 6 a)) p.handlers }

/-- The actor that a record describes (R55). -/
def recordActor (lp : Nat) (w : List Word) : Actor :=
  let f (i : Nat) : Word := lgetD w i 0
  { st := .idle, lp := BitVec.ofNat 10 lp, rgnbase := f 1, rgnlim := f 2, weir := (f 3).extractLsb' 0 9, spill := f 4,
    fault := f 5, graph := (f 6).extractLsb' 0 12 }

/-- Creation decided and done, all of it or nothing (R55): its result, and the pier after it. -/
def createActor (s : State) (pk lp : Nat) (w : List Word) : Int × State :=
  let p := getPier s pk
  if recordOk s (jobOf s pk) w = false then (-3, s)
  else
    match recordIndex p (lgetD w 0 0) with
    | none => (-1, s)
    | some i =>
      let k := (lgetD w 7 0).toNat
      if (freeHandlers p).length < k then (-2, s)
      else
        let q := putHandlers p i ((w.drop 8).take k)
        ((i : Int), setPier s pk { q with actors := fset q.actors i (recordActor lp w) })

/-- The words of scratchpad from an offset. -/
def spadWords (s : State) (pk o n : Nat) : List Word := (List.range n).map fun i => BitVec.ofNat 64 (spadRead s pk (o + 8 * i) 8)

/-- The first offset, in steps of a granule, that lies in a poisoned granule. -/
def firstPoison (s : State) (pk o n : Nat) : Option Nat :=
  ((List.range ((n + 63) / 64)).map fun i => o + 64 * i).find? fun x => spadPoisoned s pk x

/-- The creations of a pier that are not decided yet, by operation (R276). -/
def creationsOf (p : Pier) : List Nat :=
  p.creating.map (·.1) ++ p.strands.flatMap fun x => (x.2.pend.filter fun q => q.create.isSome).map (·.tok)

/-- The cycle in which the last of them is decided. -/
def lastCreation (s : State) (pk : Nat) : Nat :=
  let l := creationsOf (getPier s pk)
  maxList (s.cal.map fun e => match e.2 with | .resultPortWrite _ _ 12 t => if l.contains t then e.1 else 0 | _ => 0)

/-- ACRT (R274 to R276): the record is read now, an ls access that a gm acquire before it holds (R166, R167); the creation takes effect
with the result, no earlier than those triggered before it. -/
def execAcrt (m : Mv) (s : State) : Out :=
  go (runTrigger s m { unit := 12, steerT := true } (fun s _ _ _ => acqPending s) fun s t _ _ =>
    let pk := s.issue.pk
    let o := (vsc t).toNat
    let r := regionActor s pk (curActorIx s)
    let w := spadWords s pk o 8
    let k := bits (lgetD w 7 0) 0 6
    let n := if k ≤ 32 then 64 + 8 * k else 64
    if o % 64 ≠ 0 then .fault 0x07 (vsc t)
    else if inRegion r o 64 = false then .fault 0x06 (vsc t)
    else if inRegion r o n = false then .fault 0x06 (BitVec.ofNat 64 (o + 64))
    else
      match firstPoison s pk o n with
      | some x => .fault 0x0C (BitVec.ofNat 64 x)
      | none =>
        let lat := max (2 + Config.latency s.fresh % 63) (lastCreation s pk - s.cycle)
        .ok (pendResult (tick1 s) 12 lat none none false (some (spadWords s pk o (n / 8)))))

/-- ARET (R280). -/
def execAret (m : Mv) (s : State) : Out :=
  go (runTrigger s m { unit := 12, steerT := true } noHold fun s _ _ _ =>
    if curService s then .fault 0x03 3
    else .ok (adjActor s s.issue.pk (curActorIx s) fun a => { a with retiring := true }))

/-! Completion work and cancels (R304, R305). -/

/-- GDONE (R305): an add for the actor's graph, through the job controller. -/
def execGdone (m : Mv) (s : State) : Out :=
  go (runTrigger s m { unit := 12, steerT := true } sendHeld fun s t _ _ =>
    if curService s then .fault 0x03 4
    else
      .ok (enqueueCur s (.toController (curActorIx s)) (.gdone (curActor s).graph ((vsc t).extractLsb' 0 32)) (moveWord s t) 0x1FF 12))

/-- GCNCL (R304): the request goes to the job controller of the module. -/
def execGcncl (m : Mv) (s : State) : Out :=
  go (runTrigger s m { unit := 12, steerT := true } noHold fun s t _ _ =>
    let pk := s.issue.pk
    let job := (jobOf s pk).toNat
    let level := bits (vsc t) 0 2
    if level = 3 then .fault 0x03 5
    else
      .ok (launchOn s pk (2 ^ 22 + 2) (latency s (pkMod pk) (placeOf s pk) (pkMod pk) .die)
        (.cancel (pkMod pk) job level (if level = 2 then job else bits (vsc t) 32 12))))

/-! Invalidation (R157, R362, R363). -/

/-- The reserved fields of a TLBI request (R157). -/
def tlbiReserved (t : Word) : Bool := bits t 5 11 != 0 || bits t 28 4 != 0 || bits t 41 23 != 0

/-- TLBI (R362, R363): port a is needed for kind 00 alone, and its absence comes before privilege. -/
def execTlbi (m : Mv) (s : State) : Out :=
  go (runTrigger s m { unit := 12, steerT := true } noHold fun s t _ _ =>
    let kind := bits (vsc t) 0 2
    let a := opPort (curStrand s) .syA
    let va := match a with | some v => vsc v | none => 0
    let bad : Bool := match a with | some v => v.poison | none => false
    if kind = 0 ∧ bad = true then .fault 0x0C 0
    else if kind = 0 ∧ a.isNone then .fault 0x05 0xB0
    else if curService s = false then .fault 0x0D 0
    else if kind = 3 ∨ tlbiReserved (vsc t) = true then .fault 0x03 (vsc t)
    else if kind = 0 ∧ bits va 55 9 ≠ 0 then .fault 0x03 va
    else
      let pk := s.issue.pk
      let c := causeHere s
      let r : TlbiReq :=
        { pk, a := if kind = 0 then va else 0, t := vsc t, strand := c.strand, runid := c.runid, bundle := c.bundle, tok := s.tok }
      .ok (tlbiArrive { s with tok := s.tok + 1 } (pkMod pk) (spanOf s pk) r))

end Sys2Proof.Machine
end

