-- ==== Sys2Proof/Machine/Runs.lean ====
section
/-!
DEFINITION. Messages and runs: admission, the spillway, dispatch, the end of a run, retirement, the watchdog, answers at
the outbox, results that land (R37 to R56, R79, R172, R181 to R187, R206 to R210, R222, R242, R271, R272, R276).
-/

namespace Sys2Proof.Machine

/-! Admission (R40 to R43). -/

/-- The kinds that may use the service reserve and are exempt from the weir (R42). -/
def exempt (g : Msg) : Bool := g.kind == 5 || g.kind == 6 || 30 ≤ g.cls.toNat

/-- Whether an actor takes no message at all: free, or retired by ARET (R43 row 1, R56). The service actor always exists. -/
def actorGone (p : Pier) (a : Nat) : Bool := a != 63 && ((pierActor p a).st == .free || (pierActor p a).retiring)

/-- Slots in use outside the reserve. -/
def jobSlots (p : Pier) : Nat := (p.inbox.filter fun x => !x.reserve).length
/-- Slots in use in the reserve. -/
def reserveSlots (p : Pier) : Nat := (p.inbox.filter fun x => x.reserve).length

/-- A place for a message: outside the reserve where one is free, else in the reserve for an exempt kind (R42). -/
def freeSlot (p : Pier) (any : Bool) : Option Bool :=
  if jobSlots p < 496 then some false else if any && decide (reserveSlots p < 16) then some true else none

/-- Whether a spillway has room for a message (R34, R43). -/
def spillRoom (a : Actor) : Bool := bitAt a.spill 4 && decide (a.spilled.length < 2 ^ (bits a.spill 0 4 + 10))

/-- Where the next message of an actor goes in its spillway, a ring of messages of 64 bytes (R34). -/
def spillAddr (a : Actor) : Word := BitVec.ofNat 64 (bits a.spill 16 39 * 2 ^ 16 + a.ringTail % 2 ^ (bits a.spill 0 4 + 10) * 64)

/-- Whether the leaf of the next place of a spillway grants writes (R147, log entry 13). -/
def spillLeaf (s : State) (pk d : Nat) : Bool :=
  (hostWalk s (pkMod pk) (getPier s pk).xlroot 2 [spillAddr (getActor s pk d)]).isNone

/-- A message written to a spillway (R34, R43). -/
def spillPut (s : State) (pk d : Nat) (g : Msg) (admitted : Nat) : State :=
  let va := spillAddr (getActor s pk d)
  let root := (getPier s pk).xlroot
  let m := pkMod pk
  let b := msgBytes g
  let s1 := vaClear (vaWrite s m root va b) m root va 64
  let s2 := if g.poison = 0 then s1 else vaPoke s1 m root va (lgetD b 0 0) true
  adjActor s2 pk d fun a => { a with spilled := a.spilled ++ [(g, admitted)], ringTail := a.ringTail + 1 }

/-- What is decided about an arriving message (R43). -/
inductive Admit where
  | noActor
  | slot (reserve : Bool)
  | spill
  | retry
  deriving DecidableEq, Repr

/-- Rows 4 and 5 of R43. -/
def admitSpill (a : Actor) : Admit := if spillRoom a then .spill else .retry

/-- The first row of R43 that holds; `here` is false for an evicted actor and for a partition that is out or halting
(R222). An urgent notice goes ahead of rows 3 to 5 (R40). -/
def admitRow (p : Pier) (d : Nat) (g : Msg) (urgent here : Bool) : Admit :=
  let a := pierActor p d
  if actorGone p d then .noActor
  else if here = false ∨ a.st = .evicted then admitSpill a
  else if urgent then (match freeSlot p true with | some r => .slot r | none => .retry)
  else if spilling a then admitSpill a
  else
    match (if exempt g then freeSlot p true else none) with
    | some r => .slot r
    | none => if decide (occupancy p d < a.weir.toNat) && decide (jobSlots p < 496) then .slot false else admitSpill a

/-- The handler entry that binds an actor and a class: the lowest that matches (R38). -/
def findHandler (p : Pier) (a cls : Nat) : Option Word :=
  (List.range 128).findSome? fun i =>
    let h := fget p.handlers i 0
    if bitAt h 63 && bits h 57 6 == a && bits h 52 5 == cls then some h else none

/-- The priority of a class-30 notice or class-31 record of the device (R40). -/
def defaultPrio (p : Pier) (a cls : Nat) : Nat := match findHandler p a cls with | some h => bits h 38 2 | none => 3

/-- A message as its destination pier takes it (R40): the urgent flag is kept for notices of a service actor alone, and the notices and
records that the device itself sends take their default priority; a reply to a command keeps that of the command (R212). -/
def arrivedMsg (p : Pier) (g : Msg) (device : Bool) : Msg :=
  let urgent := g.flags.toNat % 2 = 1 ∧ g.sact = 63 ∧ g.cls = 30
  let f : BitVec 3 := if urgent then g.flags else BitVec.ofNat 3 (g.flags.toNat / 2 * 2)
  let own := device && g.sact == 63 && ((g.cls == 30 && g.kind != 1) || g.kind == 5)
  { g with flags := f, prio := if own then BitVec.ofNat 2 (defaultPrio p g.dact.toNat g.cls.toNat) else g.prio }

/-- Whether the actor that an address of a job names is of a cancelled level (R67): an actor that exists, by its graph. -/
def dstBelongs (s : State) (c : CancelMark) (a : BitVec 28) (job : BitVec 12) : Bool :=
  match pkOfAddr s (awMod a) (awPier a) job with
  | none => false
  | some pk =>
    let x := getActor s pk (awActor a)
    awActor a != 63 && x.st != .free && graphIn s c.job c.level c.id x.graph.toNat

/-- Whether a message belongs to a cancelled level (R67): by its header's graph, or by its destination, whose actor may be on another pier.
The record of code 0x16 that a cancel sends for a frozen run does not: its fault actor receives it (R240, log entry 71). -/
def msgBelongs (s : State) (c : CancelMark) (g : Msg) : Bool :=
  g.job.toNat == c.job && !(g.kind == 5 && bits (payWord g 0) 0 16 == 0x16) &&
    (graphIn s c.job c.level c.id g.graph.toNat || dstBelongs s c (msgDst g) g.job)

/-- A message put into a slot; an urgent notice goes to the front of the priority-3 queue (R40, R181). -/
def putSlot (p : Pier) (g : Msg) (reserve : Bool) (admitted since : Nat) : Pier :=
  let u := g.flags.toNat % 2 == 1
  let x : Slot := { msg := g, admitted, since, reserve, urgent := u }
  { p with inbox := if u then x :: p.inbox else p.inbox ++ [x] }

/-- The pier whose outbox holds an entry: the one named, or the one it has moved to (R202). -/
def entryHome (s : State) (pk tok : Nat) : Nat :=
  let has (p : Pier) : Bool := p.outbox.any (·.tok == tok)
  if has (getPier s pk) then pk else ((s.piers.find? fun p => has p.2).map (·.1)).getD pk

/-- Whether a message is one that the device sends in its own name with its default priority: a notice or a record, not a sluice
post, which takes the priority of its action word (R40). A post's entry names the unit sl. -/
def ownMessage (s : State) : AckTo → Bool
  | .outbox pk tok => match (getPier s (entryHome s pk tok)).outbox.find? fun e => e.tok == tok with
    | some e => e.unit != 10
    | none => true
  | .copy _ _ _ => true
  | _ => false

/-- A message at its destination pier: admitted, spilled or refused, with the answer's status (R43, R67, R222, R234). -/
def admitOne (s : State) (pk : Nat) (g : Msg) (device : Bool) : State × BitVec 3 :=
  let p := getPier s pk
  let h := arrivedMsg p g device
  if p.lost then (s, 2)
  else if p.fenced then (s, 1)
  else if p.cancels.any (fun c => msgBelongs s c h) then (s, 0)
  else
    match admitRow p h.dact.toNat h (h.flags.toNat % 2 == 1) (residentOpen s pk) with
    | .noActor => (s, 2)
    | .retry => (s, 1)
    | .slot r => (setPier s pk (putSlot p h r s.cycle s.cycle), 0)
    | .spill => if spillLeaf s pk h.dact.toNat then (spillPut s pk h.dact.toNat h s.cycle, 0) else (s, 1)

/-- Whether a sender is the device itself: a pier's outbox sends for it with no run (R46). -/
def fromPier : AckTo → Bool
  | .outbox _ _ => true
  | .copy _ _ _ => true
  | _ => false

/-- A message arrives (R42, R43, R196, R246). One with flag [2] from a service actor goes to the host (R243, R399); a
sluice-add message of the host acts on its sluice (R244). -/
def execMessageAdmission (g : Msg) (frm : AckTo) (s : State) : Out :=
  let m := g.dmod.toNat
  let pl := destPlace s m g.dpier.toNat g.job
  go (if fromPier frm = true ∧ g.flags.toNat / 4 = 1 ∧ g.sact = 63 then
      answer (sendEvent s m 6 g.job (msgBytes g)) m .die frm 0
    else if fromPier frm = false ∧ g.kind = 3 then slMessage s g frm
    else
      match pkOfAddr s m g.dpier.toNat g.job with
      | none => answer s m pl frm 2
      | some pk =>
        let r := admitOne s pk g (ownMessage s frm)
        answer r.1 m pl frm r.2)

/-! The spillway (R44). -/

/-- Whether the head of a spillway may leave for the inbox, and for which part of it. -/
def spillLeaves (p : Pier) (a : Nat) : Option Bool :=
  match (pierActor p a).spilled with
  | [] => none
  | (g, _) :: _ =>
    if 16 ≤ (pierActor p a).transit then none
    else if exempt g then freeSlot p true
    else if decide (occupancy p a < (pierActor p a).weir.toNat) && decide (jobSlots p < 496) then some false
    else none

/-- The cycle in which the last message of an actor reaches its queue. -/
def lastSince (p : Pier) (a : Nat) : Nat := maxList ((slotsOf p a).map (·.since))

/-- Where the oldest message of a spillway lies in its ring (R34). -/
def spillHead (a : Actor) : Word := spillAddr { a with ringTail := a.ringTail - a.spilled.length }

/-- Messages leave the spillway in order, each for a slot that is its own from then on (R44); the engine's read recalls a lease of its
line (R161). -/
def drainSpill (s : State) (pk a : Nat) : Nat → State
  | 0 => s
  | n + 1 =>
    let p := getPier s pk
    let x := pierActor p a
    match x.spilled, spillLeaves p a with
    | (g, t) :: l, some r =>
      let due := max (s.cycle + 1 + Config.spillTime s.fresh) (lastSince p a)
      let q := { p with inbox := p.inbox ++ [({ msg := g, admitted := t, since := due, reserve := r, urgent := g.flags.toNat % 2 == 1, back := true } : Slot)] }
      let s0 := vaTouch s (pkMod pk) p.xlroot (spillHead x) 64
      let s1 := setPier (tick1 s0) pk { q with actors := fset q.actors a { x with spilled := l, transit := x.transit + 1 } }
      drainSpill (schedule s1 due (.spillwayReturn pk a)) pk a n
    | _, _ => s

/-- Whether a pier takes messages back for an actor: it is resident, and the actor is not evicted (R44). -/
def mayDrain (s : State) (pk a : Nat) : Bool :=
  residentOpen s pk && (getActor s pk a).st != .evicted && (getActor s pk a).spilled != []

/-- The first slot equal to a given one replaced. -/
def replaceSlot : List Slot → Slot → Slot → List Slot
  | [], _, _ => []
  | x :: l, y, z => if x = y then z :: l else x :: replaceSlot l y z

/-- The first slot equal to a given one taken out. -/
def dropSlot : List Slot → Slot → List Slot
  | [], _ => []
  | x :: l, y => if x = y then l else x :: dropSlot l y

/-- The next message on its way back to an actor joins its queue, an urgent notice at the front (R40, R44, R181). -/
def slotReturns (l : List Slot) (a cycle : Nat) : List Slot :=
  match l.find? fun x => x.back && x.msg.dact.toNat == a with
  | none => l
  | some x =>
    let y := { x with back := false, since := cycle }
    if x.urgent then y :: dropSlot l x else replaceSlot l x y

/-- A message has returned from the spillway and joins its queue, and the next ones leave (R44, R181). -/
def execSpillwayReturn (pk actor : Nat) (s : State) : Out :=
  let s0 := adjPier s pk fun p => { p with inbox := slotReturns p.inbox actor s.cycle }
  let s1 := adjActor s0 pk actor fun a => { a with transit := a.transit - 1 }
  go (if mayDrain s1 pk actor then drainSpill s1 pk actor 16 else s1)

/-! Dispatch (R181 to R187). -/

/-- The queue of a slot (R40, R181). -/
def queueOf (x : Slot) : Nat := if x.urgent then 3 else x.msg.prio.toNat

/-- The head of a queue of an actor, a candidate from the cycle after it entered (R181, R186); a message on its way back from the
spillway is in no queue. -/
def headOf (p : Pier) (cycle a q : Nat) : Option Slot :=
  match p.inbox.find? fun x => x.msg.dact.toNat == a && queueOf x == q && !x.back with
  | some x => if x.since < cycle then some x else none
  | none => none

/-- The ageing exponent in force (R184). -/
def ageOf (p : Pier) : Nat := min 40 (max 10 p.age.toNat)

/-- The effective priority of a head (R183). -/
def effPrio (p : Pier) (cycle : Nat) (x : Slot) : Nat := min 3 (queueOf x + (cycle - x.admitted) / 2 ^ ageOf p)

/-- The better of two candidates of one actor; the first, of the higher header priority, wins a tie (R185 step 2). -/
def betterHead (a b : Option (Nat × Slot)) : Option (Nat × Slot) :=
  match a, b with
  | none, b => b
  | a, none => a
  | some x, some y => if x.1 < y.1 then some y else some x

/-- The candidate of an actor with its effective priority. -/
def candidate (p : Pier) (cycle a : Nat) : Option (Nat × Slot) :=
  [3, 2, 1, 0].foldl (fun b q => betterHead b ((headOf p cycle a q).map fun x => (effPrio p cycle x, x))) none

/-- Whether a job actor is eligible (R172, R182, R233). -/
def eligible (p : Pier) (a : Nat) : Bool :=
  let x := pierActor p a
  x.st == .idle && !x.ending && !x.retiring && x.evicting.isNone && !p.debugHalted

/-- Strands that hold job runs (R185 step 4). DESIGN CHOICE, log entry 91: a run that a drop, an evict or a cancel has ended in this cycle
counts no longer, though its strand is free from the next cycle on (R186). -/
def jobRuns (p : Pier) : Nat :=
  (List.range 8).countP fun i =>
    let x := pierStrand p i
    !x.service && (x.status == .running || x.status == .frozen)

/-- The lowest free strand (R186): one that a run has left in this cycle is free from the next one on. -/
def freeStrand (p : Pier) : Option Nat := (List.range 8).find? fun i => (pierStrand p i).status == .free && !p.wasBusy.contains i

/-- The actors after a pointer in the cyclic order 0 to 62 (R185 step 3). -/
def afterPtr (k : Nat) : List Nat := (List.range 63).map fun i => (k + 1 + i) % 63

/-- The job candidate that R185 chooses: its level, actor and slot. -/
def chooseJob (p : Pier) (cycle : Nat) : Option (Nat × Nat × Slot) :=
  let c (a : Nat) : Option (Nat × Slot) := if eligible p a then candidate p cycle a else none
  let top := (List.range 63).foldl (fun b a => match c a with | some x => max b (x.1 + 1) | none => b) 0
  if top = 0 then none
  else
    (afterPtr (fget p.ptrs (top - 1) 62)).findSome? fun a =>
      match c a with
      | some x => if x.1 = top - 1 then some (x.1, a, x.2) else none
      | none => none

/-- The head of the service actor's highest queue (R185 step 1). -/
def chooseService (p : Pier) (cycle : Nat) : Option Slot :=
  let st := (pierActor p 63).st
  if st = .running ∨ st = .frozen then none else [3, 2, 1, 0].findSome? fun q => headOf p cycle 63 q

/-- The watchdog exponent of a handler entry (R38). -/
def wdogExp (h : Word) : Nat := min 40 (max 10 (bits h 30 8))

/-- The p-words of a run: the payload with its poison; words past its length read zero (R48). -/
def payloadWords (g : Msg) : FMap Value :=
  (List.range (min 6 g.words.toNat)).map fun i => (i, ⟨.scalar (payWord g i), g.poison.toNat / 2 ^ i % 2 == 1⟩)

/-- A strand at the start of a run (R48, R72, R186): its first bundle may issue in the second cycle from now. -/
def startRun (old : Strand) (g : Msg) (lp : BitVec 10) (h : Word) (runid : BitVec 32) : Strand :=
  { status := .running, pc := h.extractLsb' 40 12, p := payloadWords g, hdr := g, actor := g.dact, lp := lp, runid := runid,
    seed := old.seed, wexp := wdogExp h, start := 2 }

/-- The step that does a message of the service actor (R210, R212). -/
def serviceStep (pk : Nat) (g : Msg) : Instr :=
  if g.kind = 5 then .faultRecordForward pk g
  else if g.kind ≠ 6 then .serviceForwardToHost pk g
  else
    match (payWord g 0).toNat % 256 with
    | 1 => .createActor pk g
    | 2 => .resume pk g
    | 3 => .drop pk g
    | 4 => .evictActor pk g
    | 5 => .restoreActor pk g
    | 6 => .streamResume pk g
    | 7 => .streamStop pk g
    | 8 => .harvest pk g
    | 9 => .phaseBegin pk g
    | _ => .reservedServiceCommand pk g

/-- The watchdog exponent of a run of the service actor (R38, R186): that of its handler entry, and where no entry is known, since
the manual does not give those of the service code, a free value within the clamp (log entry 4). -/
def serviceWexp (s : State) (p : Pier) (g : Msg) : Nat :=
  match findHandler p 63 g.cls.toNat with
  | some h => wdogExp h
  | none => min 40 (max 10 (Config.serviceWdog s.fresh))

/-- A dispatch to the service actor (R185 step 1): the strand is held while its work is done (log entry 4). -/
def bindService (s : State) (pk st : Nat) (x : Slot) : State :=
  let p := getPier s pk
  let y : Strand :=
    { status := .native, service := true, hdr := x.msg, actor := 63, lp := BitVec.ofNat 10 (pkLp pk), runid := p.dispatches + 1,
      seed := (pierStrand p st).seed, wexp := serviceWexp s p x.msg }
  let q :=
    { p with
      inbox := dropSlot p.inbox x
      dispatches := p.dispatches + 1
      strands := fset p.strands st y
      actors := fadj p.actors 63 {} fun a => { a with st := .running } }
  schedule (tick1 (setPier s pk q)) (s.cycle + 2 + Config.serviceTime s.fresh) (serviceStep pk x.msg)

/-- A record of code 0x15 for a message that finds no handler (R38). -/
def noHandler (s : State) (pk : Nat) (g : Msg) : State :=
  let a := g.dact.toNat
  let lp := (getActor s pk a).lp.toNat
  sendRecord s pk lp a (faultW0 0x15 0 0 false false false false false) 0 (msgHi g) (BitVec.ofNat 64 g.cls.toNat)
    (faultW4 s pk lp a 0) 0

/-- A job message bound to a strand, or removed where no handler takes it (R38, R48, R186). -/
def bindRun (s : State) (pk st : Nat) (a : Nat) (x : Slot) : State :=
  let p := getPier s pk
  let q := { p with inbox := dropSlot p.inbox x, dispatches := p.dispatches + 1 }
  match findHandler p a x.msg.cls.toNat with
  | none => noHandler (setPier s pk q) pk x.msg
  | some h =>
    setPier s pk
      { q with
        strands := fset q.strands st (startRun (pierStrand p st) x.msg (pierActor p a).lp h (p.dispatches + 1))
        actors := fadj q.actors a {} fun y => { y with st := .running } }

/-! Record and replay (R271, R272). -/

/-- The trace entry of a message (R271). -/
def traceEntry (g : Msg) : Word :=
  BitVec.ofNat 64 (g.dact.toNat * 2 ^ 58 + g.smod.toNat * 2 ^ 46 + g.spier.toNat * 2 ^ 36 + g.sact.toNat * 2 ^ 30
    + g.seq.toNat * 2 ^ 14 + 1)

/-- Record and replay mode for a pier: 0 off, 1 record, 2 replay. -/
def traceMode (s : State) (pk : Nat) : Nat :=
  let v := (getMod s (pkMod pk)).veiv
  if v.rrJob = jobOf s pk then v.rrMode.toNat else 0

/-- The address of entry `i` of a pier's share of the trace region. -/
def traceAddr (s : State) (pk i : Nat) : Word := (getMod s (pkMod pk)).veiv.rrBase + BitVec.ofNat 64 (pkLp pk * 2 ^ 16 + 8 * i)

/-- A dispatch is recorded; a full share stops recording and tells the host (R271); the data of event 0x0013 is the logical pier (DESIGN
CHOICE, log entry 84). -/
def traceRecord (s : State) (pk : Nat) (g : Msg) : State :=
  let p := getPier s pk
  if traceMode s pk ≠ 1 ∨ p.rrFull = true then s
  else if 8192 ≤ p.rrNext then
    sendEvent (adjPier s pk fun q => { q with rrFull := true }) (pkMod pk) 0x13 (jobOf s pk)
      (wordBytes (BitVec.ofNat 64 (pkLp pk)))
  else
    adjPier (vaWrite s (pkMod pk) p.xlroot (traceAddr s pk p.rrNext) (wordBytes (traceEntry g))) pk fun q =>
      { q with rrNext := p.rrNext + 1 }

/-- Whether a pier replays (R272). -/
def replaying (s : State) (pk : Nat) : Bool := traceMode s pk == 2 && !(getPier s pk).rrFree

/-- The next entry of a pier's trace; none past its end or where it cannot be read. -/
def traceNext (s : State) (pk : Nat) : Option Word :=
  let p := getPier s pk
  if 8192 ≤ p.rrNext then none
  else
    match vaRead s (pkMod pk) p.xlroot (traceAddr s pk p.rrNext) 8 with
    | .error _ => none
    | .ok l =>
      let w : Word := BitVec.ofNat 64 (l.foldr (fun b n => b.1.toNat + 256 * n) 0)
      if bitAt w 0 then some w else none

/-- Whether the trace entry that the next dispatch reads or writes waits for an entry of the tables that is being moved (R149). -/
def traceMoving (s : State) (pk : Nat) : Bool :=
  let p := getPier s pk
  let on (need : BitVec 3) : Bool := vaMoving s (pkMod pk) p.xlroot (traceAddr s pk p.rrNext) need 8
  decide (p.rrNext < 8192) && ((traceMode s pk == 1 && !p.rrFull && on 2) || (replaying s pk && on 4))

/-- Whether the dispatcher waits for it: 16 tries, 4,096 cycles apart, then the walk has failed (R149, R154). -/
def traceWaits (s : State) (pk : Nat) : Bool :=
  traceMoving s pk && (decide ((getPier s pk).rrTries < 16) || decide (s.cycle < (getPier s pk).rrRetry))

/-- A try of the dispatcher that waits, where one is due. -/
def traceTry (s : State) (pk : Nat) : State :=
  if s.cycle < (getPier s pk).rrRetry then s
  else adjPier s pk fun p => { p with rrTries := p.rrTries + 1, rrRetry := s.cycle + 4096 }

/-- The message that replay dispatches next, once its actor is eligible (R272). -/
def replayPick (s : State) (pk : Nat) : Option Slot :=
  let p := getPier s pk
  match traceNext s pk with
  | none => none
  | some w =>
    p.inbox.find? fun x =>
      traceEntry x.msg == w && x.msg.dact != 63 && eligible p x.msg.dact.toNat && !x.back && decide (x.since < s.cycle)

/-- The dispatch is done: the pointers, the trace, the strand. -/
def dispatchJob (s : State) (pk st lvl a : Nat) (x : Slot) (replay : Bool) : State :=
  let s1 := adjPier s pk fun p => { p with ptrs := fset p.ptrs lvl a, rrSince := s.cycle, rrTries := 0, rrRetry := 0 }
  let s2 := if replay then adjPier s1 pk fun p => { p with rrNext := p.rrNext + 1 } else traceRecord s1 pk x.msg
  bindRun s2 pk st a x

/-- The dispatcher of a pier (R185): at most one dispatch a cycle. -/
def execDispatch (pk : Nat) (s : State) : Out :=
  let p := getPier s pk
  go (if residentOpen s pk = false ∨ p.fenced = true then s
    else
      match freeStrand p with
      | none => s
      | some st =>
        match chooseService p s.cycle with
        | some x => bindService s pk st x
        | none =>
          if p.jobStrands.toNat ≤ jobRuns p ∨ p.strands.any (fun e => e.2.status == .parked && !e.2.service) = true then s
          else if traceWaits s pk then traceTry s pk
          else if replaying s pk then
            match replayPick s pk with
            | some x => dispatchJob s pk st (effPrio p s.cycle x) x.msg.dact.toNat x true
            | none => s
          else
            match chooseJob p s.cycle with
            | some c => dispatchJob s pk st c.1 c.2.1 c.2.2 false
            | none => s)

/-- Replay ends at a pier: it dispatches freely from now on, and the host hears of it (R272); the data of event 0x0014 is the logical pier
(DESIGN CHOICE, log entry 84). -/
def execReplayDivergence (pk : Nat) (s : State) : Out :=
  go (if replaying s pk then
      sendEvent (adjPier s pk fun p => { p with rrFree := true }) (pkMod pk) 0x14 (jobOf s pk)
        (wordBytes (BitVec.ofNat 64 (pkLp pk)))
    else s)

/-! The end of a run (R51, R56, R172, R299). -/

/-- A result that DONE waits for: any port still to be written, any request that awaits translation; issued stores are not
waited for (R299). -/
def runDrained (x : Strand) : Bool :=
  x.pend == [] && x.owed == [] && (entriesOf x).all fun e => e.kind == .gm && e.issued && gmIsStore e.req.op

/-- What an ended run leaves to be performed (R172). -/
def lateOf (x : Strand) (st : Nat) : List Late :=
  ((entriesOf x).filter fun e => e.kind == .gm && e.issued).map fun e =>
    { tok := e.tok, actor := x.actor.toNat, lp := x.lp.toNat, strand := st, runid := x.runid, bundle := e.bundle,
      move := e.move, tlow := e.tlow, va := e.req.va, slot := e.slot }

/-- What the end of a retiring actor's run discards and clears (R56). -/
def retireClear (p : Pier) (a : Nat) : Pier :=
  { p with
    inbox := p.inbox.filter fun x => x.msg.dact.toNat != a
    handlers := p.handlers.filter fun h => !(bitAt h.2 63 && bits h.2 57 6 == a)
    claims := p.claims.filter fun c => c.2 != some a
    actors := fadj p.actors a {} fun x => { x with spilled := [], transit := 0 } }

/-- Actors that the results of a discarded run still create, in their turn (R276). -/
def creationsLeft (x : Strand) : List (Nat × Nat × List Word) := x.pend.filterMap fun q => q.create.map fun w => (q.tok, x.lp.toNat, w)

/-- What a discarded run has triggered beside gm requests and not made yet: it is made once those of them that were issued are performed
(R215). -/
def owedLeft (x : Strand) (st : Nat) : List OwedLeft :=
  x.owed.map fun o =>
    { strand := st, lp := x.lp.toNat, actor := x.actor.toNat, runid := x.runid, toks := (lateOf x st).map (·.tok), what := o }

/-- The end of a run (R51, R83): the strand is free and keeps its seed, the actor is idle, and its lock follows once every
access is performed (R172). -/
def endRun (s : State) (pk st : Nat) : State :=
  let x := getStrand s pk st
  let a := x.actor.toNat
  let l := lateOf x st
  let s2 := adjPier s pk fun p =>
    { p with strands := fset p.strands st { seed := x.seed }, late := p.late ++ l, creating := p.creating ++ creationsLeft x,
                           owedLeft := p.owedLeft ++ owedLeft x st }
  let s3 := adjActor s2 pk a fun y => { y with st := .idle, ending := y.ending || !l.isEmpty }
  if (getActor s3 pk a).retiring then adjPier s3 pk fun p => retireClear p a else s3

/-- A DONE whose waits are met ends its run (R299). -/
def execRunEnd (pk st : Nat) (s : State) : Out :=
  let x := getStrand s pk st
  go (if x.status = .running ∧ x.donePending = true ∧ runDrained x = true ∧ residentOpen s pk = true then endRun s pk st else s)

/-- The lock of an ended run is free once its accesses are performed (R172). -/
def execActorLockRelease (pk actor : Nat) (s : State) : Out :=
  let p := getPier s pk
  go (if (pierActor p actor).ending ∧ p.late.all (fun l => l.actor != actor) = true then
      adjActor s pk actor fun a => { a with ending := false }
    else s)

/-- Whether a command delivers to an actor of a pier: it is its destination, not its source (R56, R254). -/
def cmdTo (s : State) (pk a : Nat) (c : StreamCmd) : Bool :=
  !cmdWrites c && cmdKind c != 5 && awActor (cmdActor c) == a && streamPier s c == some pk

/-- Whether a stream that an abutment has accepted, opened or not, has an actor of a pier as its destination. -/
def streamTo (s : State) (pk a : Nat) : Bool :=
  s.mods.any fun m => m.2.abuts.any fun x =>
    x.2.ctxs.any (fun c => match c.2 with | some t => cmdTo s pk a t.cmd | none => false) ||
      x.2.savedCtxs.any fun c => cmdTo s pk a c.2.cmd

/-- Whether a retired actor has no run and its engine work is complete (R56). -/
def retireReady (s : State) (pk a : Nat) : Bool :=
  let x := getActor s pk a
  x.retiring && x.st == .idle && !x.ending && (getPier s pk).mq.all (fun e => e.actor.toNat != a) && !streamTo s pk a

/-- The index of a retired actor is free (R53, R56). -/
def execActorRetireComplete (pk actor : Nat) (s : State) : Out :=
  go (if retireReady s pk actor then adjPier s pk fun p => { p with actors := fdel p.actors actor } else s)

/-- The watchdog of a run (R52, R209): a fault at the boundary. -/
def execWatchdogExpiry (pk st : Nat) (s : State) : Out :=
  let x := getStrand s pk st
  go (if (x.status = .running ∨ x.status = .native) ∧ 2 ^ x.wexp ≤ x.wd ∧ residentOpen s pk = true then
      let f : FaultInfo := { code := 0x0F, slot := 0, unit := 0, w2 := 0, w3 := BitVec.ofNat 64 x.wd, brk := false }
      takeFault s pk st f x.pc x.pc
    else s)

/-! Results (R76, R79, R276). -/

/-- A result lands; the creation of an ACRT takes effect now and gives its result (R276). -/
def execResultPortWrite (pk st unit tok : Nat) (s : State) : Out :=
  let h := pendHome s pk st tok
  let x := getStrand s h.1 h.2
  go (match x.pend.find? fun p => p.tok == tok && p.unit == unit with
    | none =>
      match (getPier s pk).creating.find? (·.1 == tok) with
      | some c => (createActor (adjPier s pk fun q => { q with creating := q.creating.filter (·.1 != tok) }) pk c.2.1 c.2.2).2
      | none => if savedPends s tok then schedule s (s.cycle + 1) (.resultPortWrite pk st unit tok) else s
    | some p =>
      match p.create with
      | none => adjStrand s h.1 h.2 fun y => landResults y tok
      | some w =>
        let r := createActor s h.1 x.lp.toNat w
        adjStrand r.2 h.1 h.2 fun y =>
          landResults { y with pend := y.pend.map fun q =>
            if q.tok = tok then { q with r := some (Value.ofWord (wordOfInt r.1)), create := none } else q } tok)

/-! Answers at the outbox (R45, R47, R60, R61, R63, R210). -/

/-- An entry taken out of the outbox; what waited behind it may leave. -/
def freeEntryOf (s : State) (pk tok : Nat) : State :=
  pumpOutbox (adjPier s pk fun p => { p with outbox := p.outbox.filter fun e => !(e.tok == tok) }) pk

/-- An entry refused with retry waits for its resend (R45). -/
def retryEntry (s : State) (pk tok : Nat) : State :=
  schedule (adjPier s pk fun p =>
      { p with outbox := p.outbox.map fun e => if e.tok = tok then { e with sent := false, retry := true, refused := true } else e })
    (s.cycle + 512) (.outboxResend (.outbox pk tok))

/-- A deferred record about what an entry sent (R47, R63, R220). -/
def entryRecord (s : State) (pk : Nat) (e : OutEntry) (code : Nat) (w3 : Word) : State :=
  nowDo s (.deferredFaultReport
    { pk, lp := actorLp s pk e.actor, actor := e.actor, strand := e.strand, runid := e.runid, bundle := e.bundle,
      code := BitVec.ofNat 16 code, unit := e.unit, slot := e.slot, w2 := e.move, w3, w5 := liveW5 s pk e.strand e.runid,
      notResident := false })

/-- A record that its fault actor's pier refused goes to actor 63 of the pier it concerns (R210). -/
def redirectRecord (s : State) (pk : Nat) (e : OutEntry) (g : Msg) : State :=
  let w0 := payWord g 0
  if bitAt w0 26 then s
  else
    let dst := addrWord (pkMod pk) (bits (payWord g 4) 0 10) 63
    let h := { g with dmod := BitVec.ofNat 12 (awMod dst), dpier := BitVec.ofNat 10 (awPier dst), dact := 63,
                      pay := setBits w0 26 1 1 :: g.pay.drop 1 }
    enqueue s pk (.toActor 63 dst) (.msg h) e.actor e.runid e.bundle e.strand e.move e.w3 e.unit

/-- The address of the root of a group (R250). -/
def groupRoot (s : State) (m g : Nat) : BitVec 28 := (fget (getMod s m).groups g {}).hdr.extractLsb' 0 28

/-- An entry refused with no such actor, or because its module is absent, is discarded; its sender actor receives a record that
names the destination (R47, R345), actor 63 one for a notice or an add of a sluice (R249); a refused record goes to the pier's service
actor (R210), and a post is told as R60 says. -/
def noSuchActor (s : State) (pk : Nat) (e : OutEntry) : State :=
  match e.body with
  | .msg g =>
    if g.kind = 5 then redirectRecord s pk e g
    else if e.unit = 10 then sendSluiceRecord s pk e.move e.w3.toNat false
    else entryRecord s pk e 0x15 (BitVec.ofNat 64 (msgDst g).toNat)
  | .add a =>
    if e.actor = 63 then entryRecord s pk { e with move := 0 } 0x15 (BitVec.ofNat 64 (addrWord a.mod a.pier 0).toNat)
    else entryRecord s pk e 0x15 (if a.form = 0 then e.w3 else BitVec.ofNat 64 (addrWord a.mod a.pier 0).toNat)
  | .gdone _ _ => entryRecord s pk e 0x15 e.w3
  | .mcast _ _ => entryRecord s pk e 0x15 e.w3
  | .reduce gr _ => entryRecord s pk e 0x15 (BitVec.ofNat 64 (groupRoot s (pkMod pk) gr).toNat)

/-- The completion sluice of a graph in a job's graph table (R305). -/
def graphLine (s : State) (job : BitVec 12) (g : Nat) : Option GraphLine :=
  (getJob s job.toNat).img.graphs.find? fun l => l.graph.toNat == g

/-- A misused add is discarded (R61, R63, R244, R305): its sender hears of it; a notice's home tells its service actor. -/
def misusedEntry (s : State) (pk : Nat) (e : OutEntry) : State :=
  match e.body with
  | .add a =>
    if a.form = 2 then sendSluiceRecord s pk (getSluice s pk a.sl.toNat).action a.sl.toNat true
    else if e.actor = 63 then sendSluiceRecord s pk 0 a.sl.toNat true
    else entryRecord s pk e 0x10 (BitVec.ofNat 64 a.sl.toNat)
  | .gdone gr _ =>
    let w3 : Word := match graphLine s (jobOf s pk) gr.toNat with
      | some l => BitVec.ofNat 64 l.sluice
      | none => 0x1FF
    entryRecord s pk e 0x10 w3
  | _ => s

/-- An answer to an entry of a pier's outbox. -/
def entryAnswered (s : State) (pk0 tok : Nat) (status : BitVec 3) : State :=
  let pk := entryHome s pk0 tok
  match (getPier s pk).outbox.find? fun e => e.tok == tok with
  | none => s
  | some e =>
    match status.toNat with
    | 0 => freeEntryOf s pk tok
    | 1 => retryEntry s pk tok
    | 5 => misusedEntry (freeEntryOf s pk tok) pk e
    | _ => noSuchActor (freeEntryOf s pk tok) pk e

/-! The inject outbox of the approach die (R397, R398). -/

/-- Whether two injected messages are of one order stream: a sluice add belongs to its pier's, whatever its actor (R45, R398). -/
def sameInject (g h : Msg) : Bool :=
  (g.kind == 3) == (h.kind == 3) && g.dmod == h.dmod && g.dpier == h.dpier && (g.kind == 3 || g.dact == h.dact)

/-- Entries of the inject outbox that may leave, one of each order stream at a time. -/
def pumpInject (s : State) (m : Nat) : List InjEntry → List InjEntry → State
  | _, [] => s
  | done, e :: l =>
    if !e.sent && !e.retry && done.all (fun f => !sameInject f.msg e.msg) then
      let s1 := adjHost s m fun h => { h with inject := h.inject.map fun f => if f.tok = e.tok then { f with sent := true } else f }
      let m' := e.msg.dmod.toNat
      let back := AckTo.inject m e.tok
      let s2 :=
        if reachable s m m' then
          launch s1 (latency s m .die m' (destPlace s m' e.msg.dpier.toNat e.msg.job)) (.messageAdmission e.msg back)
        else answer s1 m .die back 7
      pumpInject s2 m (done ++ [e]) l
    else pumpInject s m (done ++ [e]) l

/-- What may leave the inject outbox leaves. -/
def pumpHost (s : State) (m : Nat) : State := pumpInject s m [] (getMod s m).host.inject

/-- The record of a fault of a host frame (R397). -/
def hostRecord (m code : Nat) (seq : BitVec 32) (w2 w3 : Word) : List Byte :=
  (List.map wordBytes
    [BitVec.ofNat 64 (code + 2 ^ 24), BitVec.ofNat 64 seq.toNat, w2, w3, BitVec.ofNat 64 (m % 4096 * 2 ^ 30), 0]).flatten

/-- An answer to an injected message (R398): refused for good, the host gets a record, of code 0x10 where a sluice-add message was
discarded (R63, R244). The header of the record that tells of a refusal is free (log entry 5). -/
def injectAnswered (s : State) (m tok : Nat) (status : BitVec 3) : State :=
  match (getMod s m).host.inject.find? fun e => e.tok == tok with
  | none => s
  | some e =>
    let gone := adjHost s m fun h => { h with inject := h.inject.filter fun f => !(f.tok == tok) }
    match status.toNat with
    | 0 => pumpHost gone m
    | 1 =>
      schedule (adjHost s m fun h =>
          { h with inject := h.inject.map fun f => if f.tok = tok then { f with sent := false, retry := true } else f })
        (s.cycle + 512) (.outboxResend (.inject m tok))
    | n =>
      pumpHost (sendFrame (tick1 gone) m 6 e.msg.job 0 0 0
        ((List.range 16).map (fun i => Config.frameByte gone.fresh i) ++ hostRecord m (if n = 5 then 0x10 else 0x15) e.frame (msgHi e.msg) (BitVec.ofNat 64 (msgDst e.msg).toNat))) m

/-! Copies of a multicast message (R237, R251, R318). -/

/-- A copy as its member receives it (R318). -/
def copyMsg (s : State) (m : Nat) (c : MCopy) (idx : Nat) : Msg :=
  let a := lgetD (fget (getMod s m).groups c.group {}).members idx 0
  { c.msg with
    dmod := BitVec.ofNat 12 (awMod a)
    dpier := BitVec.ofNat 10 (awPier a)
    dact := BitVec.ofNat 6 (awActor a)
    kind := 0 }

/-- A copy under way. -/
def findCopy (s : State) (m tok : Nat) : Option MCopy := (getMod s m).copies.find? fun c => c.tok == tok

/-- A multicast message written; it is gone once no copy of it is under way. -/
def putCopy (s : State) (m : Nat) (d : MCopy) : State :=
  adjMod s m fun x =>
    { x with copies := if d.left = [] ∧ d.unicast = [] then x.copies.filter fun y => !(y.tok == d.tok)
                       else x.copies.map fun y => if y.tok = d.tok then d else y }

/-- The oldest copy that waits for room in the window of a branch leaves (R251). -/
def branchNext (s : State) (m g i : Nat) : State :=
  match (getMod s m).copies.find? fun c => c.group == g && c.waiting.contains i with
  | some c =>
    if branchLoad s m g i < 64 then
      let d := { c with waiting := c.waiting.filter (· != i) }
      launchCopy (putCopy s m d) d i
    else s
  | none => s

/-- A copy is done with; the MCAST's entry is freed when none is left (R318), and the next copy of its branch may leave. -/
def copyDone (s : State) (m : Nat) (c : MCopy) (idx : Nat) : State :=
  let d := { c with left := c.left.filter (· != idx), refused := c.refused.filter (· != idx), unicast := c.unicast.filter (· != idx) }
  let s1 := putCopy s m d
  branchNext (if c.left ≠ [] ∧ d.left = [] then nowDo s1 (.acknowledgement (.outbox c.pk c.entry) 0) else s1) m c.group idx

/-- An answer to a copy: one that is refused is retried by the branch point that feeds it (R318), one for no such actor
gives its sender a record (R47); what a detached member's spillway does not take is discarded (R237). -/
def copyAnswered (s : State) (m tok idx : Nat) (status : BitVec 3) : State :=
  match findCopy s m tok with
  | none => s
  | some c =>
    if c.left.contains idx = false ∧ c.unicast.contains idx = false then s
    else
      match status.toNat with
      | 0 => copyDone s m c idx
      | 1 =>
        let d := if c.left.contains idx then { c with refused := c.refused ++ [idx] } else c
        schedule (putCopy s m d) (s.cycle + 512) (.multicastCopy m tok idx)
      | _ =>
        let s1 :=
          match c.src with
          | some e => entryRecord s c.pk e 0x15 (BitVec.ofNat 64 (msgDst (copyMsg s m c idx)).toNat)
          | none => s
        copyDone s1 m c idx

/-- An answer arrives (R45, R242, R245). -/
def execAcknowledgement (e : AckTo) (status : BitVec 3) (s : State) : Out :=
  go (match e with
    | .outbox pk tok => entryAnswered s pk tok status
    | .inject m tok => injectAnswered s m tok status
    | .copy m tok idx => copyAnswered s m tok idx status
    | .flit m a sid idx => flitAck s m a sid idx status
    | .nobody => s)

/-- A refused entry is sent again 512 cycles after its refusal (R45, R398). -/
def execOutboxResend (e : AckTo) (s : State) : Out :=
  go (match e with
    | .outbox pk tok =>
      pumpOutbox (adjPier s pk fun p =>
        { p with outbox := p.outbox.map fun f => if f.tok = tok then { f with retry := false } else f }) pk
    | .inject m tok =>
      pumpHost (adjHost s m fun h =>
        { h with inject := h.inject.map fun f => if f.tok = tok then { f with retry := false } else f }) m
    | _ => s)

/-- A deferred record leaves from the pier of the actor it concerns (R206 to R208, R220). -/
def execDeferredFaultReport (d : Deferred) (s : State) : Out := go (sendDeferred s d)

end Sys2Proof.Machine
end

