-- ==== Sys2Proof/Machine/Groups.lean ====
section
/-!
DEFINITION. Groups: copies of a multicast message, the laggard rule, reductions (R122, R123, R237, R250 to R252, R317, R318).
-/

namespace Sys2Proof.Machine

/-! Copies (R237, R251, R318). -/

/-- A copy for a detached member goes to its spillway whatever the weir, and is discarded where that is disabled or full
(R237 step 2). -/
def spillOnly (s : State) (pk : Nat) (g : Msg) : State × BitVec 3 :=
  let p := getPier s pk
  let h := arrivedMsg p g true
  let d := h.dact.toNat
  if p.lost ∨ actorGone p d = true then (s, 2)
  else if p.fenced then (s, 1)
  else if p.cancels.any (fun c => msgBelongs s c h) ∨ spillRoom (pierActor p d) = false then (s, 0)
  else if spillLeaf s pk d then (spillPut s pk d h s.cycle, 0)
  else (s, 1)

/-- A group of a module. -/
def getGroup (s : State) (m g : Nat) : Group := fget (getMod s m).groups g {}

/-- A copy that was refused is on its way again. -/
def copySent (s : State) (m tok idx : Nat) : State :=
  adjMod s m fun x =>
    { x with copies := x.copies.map fun c => if c.tok = tok then { c with refused := c.refused.filter (· != idx) } else c }

/-- A copy of a multicast message reaches its member (R251, R318): each is admitted, or answered, on its own. -/
def execMulticastCopy (mod tok idx : Nat) (s : State) : Out :=
  go (match findCopy s mod tok with
    | none => s
    | some c =>
      if c.left.contains idx = false ∧ c.unicast.contains idx = false then s
      else
        let g := copyMsg s mod c idx
        let m := g.dmod.toNat
        let back := AckTo.copy mod tok idx
        let s0 := copySent s mod tok idx
        let pl := destPlace s m g.dpier.toNat g.job
        if reachable s mod m = false then answer s0 mod .die back 7
        else
          match pkOfAddr s m g.dpier.toNat g.job with
          | none => answer s0 m pl back 2
          | some pk =>
            let r := if c.unicast.contains idx then spillOnly s0 pk g else admitOne s0 pk g true
            answer r.1 m pl back r.2)

/-- The limit of the laggard counts of a pier's messages (R232). -/
def lagLimit (p : Pier) : Nat := max 4096 p.laglim.toNat

/-- Whether a branch counts a cycle (R237, R251, R318): its window of 64 flits is full, or a refused copy waits on it to be sent
again. A hold of the job stops the count. -/
def branchStalls (s : State) (m g i : Nat) : Bool :=
  (decide (64 ≤ branchLoad s m g i) || (getMod s m).copies.any fun c => c.group == g && c.refused.contains i) &&
    (getMod s m).copies.all fun c => c.group != g || !(getPier s c.pk).hold

/-- Whether the branch of a copy has reached the laggard limit (R237 step 1). -/
def lagging (s : State) (c : MCopy) (idx : Nat) : Bool :=
  c.left.contains idx && decide (lagLimit (getPier s c.pk) ≤ fget (getGroup s (pkMod c.pk) c.group).lag idx 0)

/-- The copies of a detached branch that were refused, held back or under way go to the spillway of its member instead, in their
order, and hold their entries no longer (R237, R318). -/
def detachCopies (s : State) (m i : Nat) : List MCopy → State
  | [] => s
  | c :: l =>
    let stays := !c.refused.contains i && !c.waiting.contains i
    let d := { c with left := c.left.filter (· != i), refused := c.refused.filter (· != i), waiting := c.waiting.filter (· != i),
                      unicast := c.unicast ++ [i] }
    let s1 := putCopy { s with cal := if stays then s.cal else s.cal.filter fun e => e.2 != .multicastCopy m c.tok i } m d
    let s2 := if stays then s1 else launchCopy s1 d i
    detachCopies (if d.left = [] then nowDo s2 (.acknowledgement (.outbox c.pk c.entry) 0) else s2) m i l

/-- The graph of the actor that an address of a job names (R243). -/
def graphAt (s : State) (a : BitVec 28) (job : BitVec 12) : BitVec 12 :=
  match pkOfAddr s (awMod a) (awPier a) job with
  | some pk => (getActor s pk (awActor a)).graph
  | none => 0

/-- A branch is detached (R237): its copies go to the spillway, and its member gets a notice that names the first message not
delivered on the branch. -/
def execLaggardDetach (mod tok idx : Nat) (s : State) : Out :=
  go (match findCopy s mod tok with
    | none => s
    | some c =>
      if lagging s c idx = false then s
      else
        let g := copyMsg s mod c idx
        let s1 := adjMod s mod fun x =>
          { x with groups := fadj x.groups c.group {} fun y => { y with detached := y.detached ++ [idx], lag := fdel y.lag idx } }
        let s2 := detachCopies s1 mod idx ((getMod s1 mod).copies.filter fun d => d.group == c.group && d.left.contains idx)
        sendDevice s2 c.pk (pkLp c.pk) (msgDst g) 30 3 0 (graphAt s (msgDst g) g.job) 3
          [2, BitVec.ofNat 64 c.group, BitVec.ofNat 64 c.msg.seq.toNat] 0 63 0 0 0)

/-! Reductions (R122, R123, R252). -/

/-- The contributions of a round in the order of the member slots; none for a member that contributes nothing. -/
def contributions (got : FMap (Option Msg)) (n : Nat) : List (Option Msg) := (List.range n).map fun i => fget got i none

/-- FP32 element `i` of a contribution: none past its length. -/
def redElem (i : Nat) (g : Msg) : Option Nat :=
  if i / 2 < g.words.toNat then some (bits (lgetD g.pay (i / 2) 0) (32 * (i % 2)) 32) else none

/-- The operation of a reduction on two elements: sum, max, min (R122). -/
def redOp (op : Nat) (a b : Nat) : Nat :=
  match op with
  | 1 => addF32 a b
  | 2 => minMaxBits fmtFp32 true a b
  | _ => minMaxBits fmtFp32 false a b

/-- Element `i` of a result over the tree of the member slots; a NaN is canonical, an element nobody supplied is +0. -/
def redResult (op : Nat) (l : List (Option Msg)) (i : Nat) : Nat :=
  match treeRoot (redOp op) 16 (l.map fun g => g.bind (redElem i)) with
  | none => 0
  | some v => if fvNan (fvOf fmtFp32 v) then nanOf fmtFp32 else v

/-- Words of a result: the longest contribution, or the entries kept. -/
def redWords (l : List (Option Msg)) : Nat := maxList (l.map fun g => match g with | some x => min 6 x.words.toNat | none => 0)

/-- The entries of every top-k contribution. -/
def redEntries (l : List (Option Msg)) : List Word :=
  l.flatMap fun g => match g with | some x => x.pay.take (min 6 x.words.toNat) | none => []

/-- The payload of a result with its poison: a word is poisoned where a contribution's word of that place is, every word of
a top-k result where any contributed word is. -/
def redPay (op k : Nat) (l : List (Option Msg)) : List Word × BitVec 6 :=
  let bad (i : Nat) : Bool := l.any fun g => match g with | some x => x.poison.toNat / 2 ^ i % 2 == 1 | none => false
  if op = 4 then
    let pay := topK k (redEntries l)
    (pay, if (List.range 6).any bad then BitVec.ofNat 6 (2 ^ pay.length - 1) else 0)
  else
    ((List.range (redWords l)).map fun i => BitVec.ofNat 64 (redResult op l (2 * i) + redResult op l (2 * i + 1) * 2 ^ 32),
     BitVec.ofNat 6 (natOfBits ((List.range 6).map bad)))

/-- The round of a group; it is kept in the module of its root. -/
def getRound (s : State) (m g : Nat) : Round := fget (getMod s m).rounds g {}

/-- A round written. -/
def setRound (s : State) (m g : Nat) (x : Round) : State := adjMod s m fun y => { y with rounds := fset y.rounds g x }

/-- Whether every member of a group has contributed. -/
def roundFull (got : FMap (Option Msg)) (n : Nat) : Bool := (List.range n).all fun i => (fget got i none).isSome

/-- The result of a round leaves for the root, from actor 63 of the root's pier (R252). -/
def sendResult (s : State) (hdr : Word) (r : Round) (n : Nat) : State :=
  let root : BitVec 28 := hdr.extractLsb' 0 28
  let job : BitVec 12 := hdr.extractLsb' 38 12
  match pkOfAddr s (awMod root) (awPier root) job with
  | none => s
  | some pk =>
    let pay := redPay (bits hdr 60 3) (bits hdr 57 3) (contributions r.got n)
    let g := deviceMsg s pk (awPier root) root (bits hdr 52 5) (bits hdr 50 2) 7 (getActor s pk (awActor root)).graph
      pay.1.length pay.1 0
    enqueue s pk (.toActor 63 root) (.msg { g with seq := BitVec.ofNat 16 r.number, poison := pay.2 }) 63 0 0 0 0 0 0

/-- What has reached the root's module with one contribution of each member taken away. -/
def mergedLess (l : FMap Nat) : FMap Nat := (l.map fun e => (e.1, e.2 - 1)).filter fun e => e.2 != 0

/-- A round whose contributions have all reached the root's module gives its result, and the next round begins with the
contributions that wait for it. -/
def closeRound (s : State) (hdr : Word) (m g n : Nat) : Nat → State
  | 0 => s
  | k + 1 =>
    let r := getRound s m g
    if roundFull r.got n && (List.range n).all fun i => 0 < fget r.merged i 0 then
      closeRound (setRound (sendResult s hdr r n) m g
        { number := r.number + 1, got := r.later, later := [], merged := mergedLess r.merged }) hdr m g n k
    else s

/-- A member's contribution is at the root's module (R22, R252). -/
def mergeAt (s : State) (hdr : Word) (rm g i n : Nat) : State :=
  let r := getRound s rm g
  closeRound (setRound s rm g { r with merged := fadj r.merged i 0 (· + 1) }) hdr rm g n 2

/-- A contribution that its first router has accepted travels on to the module of the root (R22, R31); one that is there merges at
once. The step that brings it names its group in the tag, which a contribution does not use. -/
def towardRoot (s : State) (g : Msg) (gid i : Nat) : State :=
  let m := g.smod.toNat
  let x := getGroup s m gid
  let rm := bits x.hdr 16 12
  if rm = m then mergeAt s x.hdr rm gid i x.members.length
  else launch s (latency s m .die rm .die) (.reductionContribution { g with tag := BitVec.ofNat 16 gid } .nobody)

/-- The group that a contribution names: its outbox entry holds it. -/
def redGroup (s : State) : AckTo → Option Nat
  | .outbox pk tok =>
    match (getPier s pk).outbox.find? fun e => e.tok == tok with
    | some e => (match e.body with | .reduce gid _ => some gid | _ => none)
    | none => none
  | _ => none

/-- Where an element stands in a list. -/
def indexIn (l : List (BitVec 28)) (a : BitVec 28) : Option Nat := (List.range l.length).find? fun i => l[i]? == some a

/-- A contribution at the first router (R252): it enters its round; one of a member that has contributed waits for the next round,
a further one is refused with retry; a group that is invalid, of another job or no reduction, a sender that is no member, and a
root whose module cannot be reached, are refused with no such actor (R249, R250, R339). -/
def contribute (s : State) (g : Msg) (frm : AckTo) (gid : Nat) : State :=
  let m := g.smod.toNat
  let ans (s : State) (st : BitVec 3) : State := answer s m .die frm st
  let x := getGroup s m gid
  let ok := bitAt x.hdr 63 && bits x.hdr 38 12 == g.job.toNat && bits x.hdr 60 3 != 0
  match ok, indexIn x.members (msgSrc g) with
  | true, some i =>
    let rm := bits x.hdr 16 12
    let r := getRound s rm gid
    if reachable s m rm = false then ans s 7
    else if (fget r.got i none).isNone then towardRoot (ans (setRound s rm gid { r with got := fset r.got i (some g) }) 0) g gid i
    else if (fget r.later i none).isNone then towardRoot (ans (setRound s rm gid { r with later := fset r.later i (some g) }) 0) g gid i
    else ans s 1
  | _, _ => ans s 2

/-- A contribution reaches its first router, or, with its outbox entry freed by then, the module of the root (R252). -/
def execReductionContribution (g : Msg) (frm : AckTo) (s : State) : Out :=
  go (match frm with
    | .nobody =>
      let gid := g.tag.toNat
      let x := getGroup s g.smod.toNat gid
      (match indexIn x.members (msgSrc g) with
       | some i => mergeAt s x.hdr (bits x.hdr 16 12) gid i x.members.length
       | none => s)
    | _ =>
      match redGroup s frm with
      | none => answer s g.smod.toNat .die frm 2
      | some gid => contribute s g frm gid)

end Sys2Proof.Machine
end

