-- ==== Sys2Proof/Machine/Jobs.lean ====
section
/-!
DEFINITION. The job controller: GDONE adds, cancels, phases, the job-wide hold (R64 to R68, R139, R140, R215, R218, R233, R240,
R304, R305).
-/

namespace Sys2Proof.Machine

/-! Completion work (R305). -/

/-- A GDONE add is forwarded to the completion sluice of its graph; without one the controller discards it. -/
def execGdoneForward (mod pk : Nat) (graph : BitVec 12) (add : BitVec 32) (frm : AckTo) (s : State) : Out :=
  go (match graphLine s (jobOf s pk) graph.toNat with
    | none => answer s mod .die frm 5
    | some l =>
      let job := jobOf s pk
      let a : SlAdd :=
        { mod := l.mod, pier := l.pier, job := job, sl := BitVec.ofNat 9 l.sluice, form := 0, member := 0, add := add,
          cancelled := false, frm := frm }
      if reachable s mod l.mod then
        launch s (latency s mod .die l.mod (destPlace s l.mod l.pier job)) (.sluiceAddArrival a)
      else answer s mod .die frm 7)

/-! Cancels (R66 to R68, R304). -/

/-- The completion sluice of a level of a job: module, logical pier, number (R101, R102). -/
def levelSluice (s : State) (job level id : Nat) : Option (Nat × Nat × Nat) :=
  let img := (getJob s job).img
  match level with
  | 0 => (img.graphs.find? fun l => l.graph.toNat == id).map fun l => (l.mod, l.pier, l.sluice)
  | 1 => if id < img.phases then some (img.homeMod, img.homePier, img.sluice - 1 - id) else none
  | _ => some (img.homeMod, img.homePier, img.sluice)

/-- The carrier of a completion sluice. -/
def levelPier (s : State) (job level id : Nat) : Option (Nat × Nat) :=
  match levelSluice s job level id with
  | none => none
  | some l => (pkOfAddr s l.1 l.2.1 (BitVec.ofNat 12 job)).map fun pk => (pk, l.2.2)

/-- The modules that hold a partition of a job. -/
def modsOfJob (s : State) (job : BitVec 12) : List Nat := (s.mods.map (·.1)).filter fun m => (partOfJob s m job).isSome

/-- Every carrier pier of a job. -/
def piersOfJob (s : State) (job : BitVec 12) : List Nat :=
  (modsOfJob s job).flatMap fun m => match partOfJob s m job with | some p => piersOf s m p fun _ => true | none => []

/-- Whether an actor is of a cancelled level: the service actor is of none. -/
def actorIn (s : State) (pk : Nat) (c : CancelMark) (a : Nat) : Bool :=
  a != 63 && (jobOf s pk).toNat == c.job && (getActor s pk a).st != .free && graphIn s c.job c.level c.id (getActor s pk a).graph.toNat

/-- The actors of a level on a pier. -/
def actorsIn (s : State) (pk : Nat) (c : CancelMark) : List Nat := (List.range 63).filter (actorIn s pk c)

/-- Whether an outbox entry is a message of a level: the adds of GDONE and of completion sluices are kept (R67 step 2, R68). A multicast
message is one by its header; its copies are judged each by its own destination. -/
def entryBelongs (s : State) (pk : Nat) (c : CancelMark) (e : OutEntry) : Bool :=
  match e.body with
  | .msg g => msgBelongs s c g
  | .mcast _ g => g.job.toNat == c.job && graphIn s c.job c.level c.id g.graph.toNat
  | .reduce gr g =>
    g.job.toNat == c.job && (graphIn s c.job c.level c.id g.graph.toNat || dstBelongs s c (groupRoot s (pkMod pk) gr) g.job)
  | .add a => addBelongs s c a
  | .gdone _ _ => false

/-- The copies of a pier's multicast messages whose members are of a level are done with (R67 step 2). -/
def discardCopies (s : State) (pk : Nat) (c : CancelMark) : State :=
  ((getMod s (pkMod pk)).copies.filter fun d => d.pk == pk).foldl (fun s d =>
    ((d.left ++ d.unicast).filter fun i => msgBelongs s c (copyMsg s (pkMod pk) d i)).foldl (fun s i =>
      match findCopy s (pkMod pk) d.tok with
      | some e => copyDone s (pkMod pk) e i
      | none => s) s) s

/-- The messages of a level at a pier discarded, of all actors or of those that `f` takes, with the copies that their entries still
hold (R67 step 2, R68). -/
def discardOf (s : State) (pk : Nat) (c : CancelMark) (f : Nat → Bool) : State :=
  let toks := ((getPier s pk).outbox.filter fun e => f e.actor && entryBelongs s pk c e).map (·.tok)
  let s1 := adjPier s pk fun p =>
    { p with
      inbox := p.inbox.filter fun x => !(f x.msg.dact.toNat && msgBelongs s c x.msg)
      outbox := p.outbox.filter fun e => !toks.contains e.tok
      actors := p.actors.map fun a =>
        if f a.1 then (a.1, { a.2 with spilled := a.2.spilled.filter fun g => !msgBelongs s c g.1 }) else a }
  adjMod s1 (pkMod pk) fun x => { x with copies := x.copies.filter fun d => !(d.pk == pk && toks.contains d.entry) }

/-- The messages of a level at a pier discarded (R67 step 2). -/
def cancelDiscard (s : State) (pk : Nat) (c : CancelMark) : State := discardCopies (discardOf s pk c fun _ => true) pk c

/-- The tags of an actor's streams and waiting commands, by abutment. -/
def streamsOf (s : State) (pk a : Nat) : List (Nat × Nat) :=
  (getMod s (pkMod pk)).abuts.flatMap fun x =>
    (x.2.ctxs.filterMap fun c =>
      match c.2 with
      | some t => if t.cmd.pk = pk ∧ t.cmd.actor = a then some (x.1, cmdTag t.cmd) else none
      | none => none) ++
    (x.2.queue.filterMap fun c => if c.pk = pk ∧ c.actor = a then some (x.1, cmdTag c) else none) ++
    s.cal.filterMap fun e =>
      match e.2 with
      | .streamCommandResend m b c => if m = pkMod pk ∧ b = x.1 ∧ cmdKind c ≠ 7 ∧ c.pk = pk ∧ c.actor = a then some (b, cmdTag c) else none
      | _ => none

/-- A stream or a waiting command of an actor ended as by SCANC, with no answer to a SCANC of its own (R217, R358); whether
there was one. -/
def endStream (s : State) (m a pk actor tag : Nat) : Option State :=
  match findStream s m a pk actor tag with
  | some t => some (stopStream s m a t none)
  | none => unqueue s m a pk actor tag

/-- The saved streams of an actor end as soon as they are loaded, its saved commands are taken back. -/
def endSaved (s : State) (pk a : Nat) : State :=
  let m := pkMod pk
  let mine (c : StreamCmd) : Bool := c.pk == pk && c.actor == a
  (getMod s m).abuts.foldl (fun s x =>
    let gone := x.2.savedQueue.filter fun c => mine c.2.2
    let s1 := adjAbut s m x.1 fun y =>
      { y with
        savedCtxs := y.savedCtxs.map fun c => if mine c.2.cmd then (c.1, { c.2 with phase := .ending }) else c
        savedQueue := y.savedQueue.filter fun c => !mine c.2.2 }
    gone.foldl (fun s c => sgAnswer s m x.1 c.2.2.pk c.2.2.strand c.2.2.tok minusOne) s1) s

/-- Every stream of an actor cancelled (R67 step 2), those of a partition that has come back and that its abutments have not loaded yet too
(R228). -/
def cancelStreams (s : State) (pk a : Nat) : State :=
  endSaved ((streamsOf s pk a).foldl (fun s x => (endStream s (pkMod pk) x.1 pk a x.2).getD s) s) pk a

/-- A run discarded (R67 step 3, R215): what was issued is performed, what awaits translation is not. -/
def dropRun (s : State) (pk st : Nat) : State := endRun s pk st

/-- p1 of a cancel notice (R41). -/
def cancelWord (level id : Nat) : Word := BitVec.ofNat 64 (level + id * 2 ^ 32)

/-- The runs of an actor on a pier, parked ones included. -/
def runsOf (p : Pier) (a : Nat) : List Nat :=
  (p.strands.filter fun e => e.2.status != .free && e.2.actor.toNat == a && !e.2.service).map (·.1)

/-- The runs of an actor stopped (R67 step 3); the run of a frozen actor is discarded with a record of code 0x16 (R240). -/
def cancelRuns (s : State) (pk : Nat) (c : CancelMark) (a : Nat) : State :=
  (runsOf (getPier s pk) a).foldl (fun s st =>
    let x := getStrand s pk st
    let frozen := (getActor s pk a).st == .frozen
    let s1 := dropRun s pk st
    if frozen then
      sendRecord s1 pk x.lp.toNat a (faultW0 0x16 0 0 false false false false false) (faultW1 x.stop x.runid) 0
        (cancelWord c.level c.id) (faultW4 s pk x.lp.toNat a st) 0
    else s1) s

/-- A cancel at an actor that is not out: its streams end and its run stops. -/
def cancelActor (s : State) (pk : Nat) (c : CancelMark) (a : Nat) : State := cancelRuns (cancelStreams s pk a) pk c a

/-- Whether an actor is being saved or is out, so that a cancel waits for its restore (R68). -/
def actorOut (s : State) (pk a : Nat) : Bool :=
  residentOpen s pk == false || (getActor s pk a).st == .evicted || (getActor s pk a).evicting.isSome

/-- The cancel notice of an actor that has a class-30 handler (R41, R67 step 5). -/
def cancelNotice (s : State) (pk : Nat) (c : CancelMark) (a : Nat) : State :=
  let x := getActor s pk a
  if (findHandler (getPier s pk) a 30).isSome then
    sendDevice s pk x.lp.toNat (addrWord (pkMod pk) x.lp.toNat a) 30 3 0 x.graph 2 [3, cancelWord c.level c.id] 0 63 0 0 0
  else s

/-- One cancel that an actor owes, now that it is back (R68): its messages of the level, then step 3, and step 5 where the cancel has
ended meanwhile. -/
def owedCancel (s : State) (pk a : Nat) (c : CancelMark) : State :=
  let s1 := endSaved (cancelActor (discardOf s pk c (· == a)) pk c a) pk a
  if (getPier s pk).cancels.contains c then s1 else cancelNotice s1 pk c a

/-- The cancels that an actor owes, now that it is back (R68). -/
def owedCancels (s : State) (pk a : Nat) : State :=
  (getActor s pk a).owed.foldl (fun s c => owedCancel s pk a c) (adjActor s pk a fun x => { x with owed := [] })

/-- The cancelled bit of a level's link entry set (R65, R68). -/
def markLevel (s : State) (c : CancelMark) : State :=
  match levelPier s c.job c.level c.id with
  | none => s
  | some (pk, n) =>
    let l := linkOf (getPier s pk) n
    if 496 ≤ n ∧ bitAt l 63 = true then setLink s pk n (setBits l 60 1 1) else s

/-- The save limit in force at a pier (R232). -/
def saveLimit (p : Pier) : Nat := max 16800 p.savelim.toNat

/-- A job controller begins a cancel: it is sent to every pier (R67 step 1), which is hung where it has not acknowledged within its
save limit (R235). -/
def startCancel (s : State) (m : Nat) (c : CancelMark) : State :=
  let l := piersOfJob s (BitVec.ofNat 12 c.job)
  let r : CancelRun := { job := c.job, level := c.level, id := c.id, piers := l, markers := 0, start := s.cycle }
  let s1 := adjMod (markLevel s c) m fun x => { x with cancelRun := some r }
  if l = [] then launch s1 1 (.cancelEnd m)
  else
    l.foldl (fun s pk =>
      schedule (launch s (latency s m .die (pkMod pk) (placeOf s pk)) (.cancelAtPier pk c.job c.level c.id))
        (s.cycle + saveLimit (getPier s pk)) (.saveLimitExpiry pk)) s1

/-- A cancel reaches the job controller, which runs the cancels it receives one at a time (R304). -/
def execCancel (mod job level id : Nat) (s : State) : Out :=
  let c : CancelMark := { job, level, id }
  go (if (getMod s mod).cancelRun.isSome then adjMod s mod fun x => { x with cancels := x.cancels ++ [c] } else startCancel s mod c)

/-- Whether a step under way is a message of a job on its way to a pier. -/
def jobFlight (job : Nat) : Instr → Bool
  | .messageAdmission g _ => g.job.toNat == job
  | .sluiceAddArrival a => a.job.toNat == job
  | .barrierArriveArrival a => a.job.toNat == job
  | .phaseNoticeArrival a => a.job.toNat == job
  | .multicastCopy _ _ _ => true
  | .reductionContribution g _ => g.job.toNat == job
  | _ => false

/-- The cycle in which the last message of a job that is in flight arrives; a flush marker goes behind all of them (R67 step 4). -/
def lastFlight (s : State) (job : Nat) : Nat := maxList (s.cal.map fun e => if jobFlight job e.2 then e.1 else 0)

/-- A pier has acknowledged; after the last one a flush marker travels every path, behind what is in flight on it (R67 step 4). -/
def cancelAcked (s : State) (pk : Nat) (c : CancelMark) (m : Nat) : State :=
  match (getMod s m).cancelRun with
  | none => s
  | some r =>
    if r.job ≠ c.job ∨ r.level ≠ c.level ∨ r.id ≠ c.id ∨ r.piers.contains pk = false then s
    else
      let rest := r.piers.filter (· != pk)
      if rest ≠ [] then adjMod s m fun x => { x with cancelRun := some { r with piers := rest } }
      else
        let l := piersOfJob s (BitVec.ofNat 12 c.job)
        let s1 := adjMod s m fun x => { x with cancelRun := some { r with piers := [], markers := l.length } }
        l.foldl (fun s q =>
          launch s (max (latency s (pkMod pk) (placeOf s pk) m .die + 2 * latency s m .die (pkMod q) (placeOf s q)) (lastFlight s c.job - s.cycle))
            (.flushMarker m q)) s1

/-- A cancel at a pier (R67 steps 2 to 4, R68). -/
def execCancelAtPier (pk job level id : Nat) (s : State) : Out :=
  let c : CancelMark := { job, level, id }
  let l := actorsIn s pk c
  let out := l.filter (actorOut s pk)
  let here := l.filter fun a => !actorOut s pk a
  let s1 := adjPier s pk fun p => { p with cancels := p.cancels ++ [c] }
  let s2 := if residentOpen s pk then cancelDiscard s1 pk c else s1
  let s3 := here.foldl (fun s a => cancelActor s pk c a) s2
  let s4 := out.foldl (fun s a => adjActor s pk a fun x => { x with owed := x.owed ++ [c] }) s3
  go ((s.mods.map (·.1)).foldl (fun s m => cancelAcked s pk c m) s4)

/-- A flush marker has travelled its path (R67 step 4). -/
def execFlushMarker (mod tok : Nat) (s : State) : Out :=
  let _ := tok
  go (match (getMod s mod).cancelRun with
    | none => s
    | some r =>
      if r.markers = 0 then s
      else
        let s1 := adjMod s mod fun x => { x with cancelRun := some { r with markers := r.markers - 1 } }
        if r.markers = 1 then nowDo s1 (.cancelEnd mod) else s1)

/-- A pier ends its discarding, and each actor of the level with a class-30 handler gets a notice (R41, R67 step 5); one that is out
gets it when it is back (R68). -/
def cancelNotices (s : State) (pk : Nat) (c : CancelMark) : State :=
  let s1 := adjPier s pk fun p => { p with cancels := p.cancels.filter (· != c) }
  ((actorsIn s1 pk c).filter fun a => !(getActor s1 pk a).owed.contains c).foldl (fun s a => cancelNotice s pk c a) s1

/-- The completion sluice of a cancelled level fires once, if it is armed (R67 step 6, R304). -/
def cancelFire (s : State) (c : CancelMark) : State :=
  match levelPier s c.job c.level c.id with
  | none => s
  | some (pk, n) =>
    let x := getSluice s pk n
    if bitAt (linkOf (getPier s pk) n) 63 ∧ x.armed = true ∧ slMode x = 1 then slSettle (slFire s pk n) pk n else s

/-- The end of a cancel (R67 steps 5 and 6); the next one begins. -/
def execCancelEnd (mod : Nat) (s : State) : Out :=
  go (match (getMod s mod).cancelRun with
    | none => s
    | some r =>
      if r.piers ≠ [] ∨ r.markers ≠ 0 then s
      else
        let c : CancelMark := { job := r.job, level := r.level, id := r.id }
        let l := (s.piers.map (·.1)).filter fun pk => (getPier s pk).cancels.contains c
        let s1 := l.foldl (fun s pk => cancelNotices s pk c) (adjMod s mod fun x => { x with cancelRun := none })
        let s2 := cancelFire s1 c
        match (getMod s2 mod).cancels with
        | [] => s2
        | d :: rest => startCancel (adjMod s2 mod fun x => { x with cancels := rest }) mod d)

/-! Phases (R139, R140, R218). -/

/-- Whether an SWLD stream of a job that an abutment has accepted is not over on a module (R140). -/
def swldBusy (s : State) (m job : Nat) : Bool :=
  let mine (c : StreamCmd) : Bool := cmdKind c == 6 && (jobOf s c.pk).toNat == job
  (getMod s m).abuts.any fun x =>
    x.2.ctxs.any (fun c => match c.2 with | some t => mine t.cmd | none => false) || x.2.savedCtxs.any (fun c => mine c.2.cmd)

/-- The reply of the service actor to a command (R212): class, priority and tag of the command, flag [2] as it had it, and the graph of its
sender, which is actor 63 (R243). -/
def serviceReply (s : State) (pk : Nat) (g : Msg) (result : Int) (p1 : Nat) : State :=
  let dst := msgSrc g
  let r := deviceMsg s pk (pkLp pk) dst g.cls.toNat g.prio.toNat 1 (getActor s pk 63).graph 2 [wordOfInt result, BitVec.ofNat 64 p1] (g.flags &&& 4)
  let s1 := adjActor s pk 63 fun a => { a with seq := a.seq + 1 }
  enqueue s1 pk (.toActor 63 dst) (.msg { r with tag := g.tag }) 63 0 0 0 0 0 0

/-- A job controller opens a phase once every SWLD stream of the job on its module has drained (R140); when every module has,
the service actor that asked replies. -/
def execPhaseOpen (mod job phase : Nat) (s : State) : Out :=
  let j := getJob s job
  go (if j.waitOpen.contains mod = false then s
    else if swldBusy s mod job then schedule s (s.cycle + 1) (.phaseOpen mod job phase)
    else
      let rest := j.waitOpen.filter (· != mod)
      let s1 := adjJob s job fun j => { j with waitOpen := rest, beginReq := if rest = [] then none else j.beginReq }
      match rest, j.beginReq with
      | [], some (pk, g) => serviceReply s1 pk g 0 0
      | _, _ => s1)

/-! The job-wide hold (R233). -/

/-- Whether a site of a job is debug-halted. -/
def anyHalted (s : State) (job : Nat) : Bool := (piersOfJob s (BitVec.ofNat 12 job)).any fun q => (getPier s q).debugHalted

/-- A hold flit reaches a module. The hold is in force while any site of the job is debug-halted (R233): a flit that comes late, when the
halts have ended or have begun anew, changes nothing. -/
def execHoldBroadcast (mod job : Nat) (on : Bool) (s : State) : Out :=
  let s1 := adjMod s mod fun x => { x with holds := x.holds.filter (· != job) ++ (if on then [job] else []) }
  go (if anyHalted s job ≠ on then s
    else match partOfJob s mod (BitVec.ofNat 12 job) with
    | none => s1
    | some p => (piersOf s mod p fun _ => true).foldl (fun s pk => adjPier s pk fun q => { q with hold := on }) s1)

end Sys2Proof.Machine
end

