-- ==== Sys2Proof/Machine/Image.lean ====
section
/-!
DEFINITION. The job image and its loader: checks and writes of R102, the reload of one logical pier (R54, R55, R64, R65, R101,
R102, R234, R235).
-/

namespace Sys2Proof.Machine

/-- The carrier of a logical pier that an image names. -/
def imagePk (s : State) (img : JobImage) (m lp : Nat) : Option Nat := pkOfAddr s m lp img.job

/-- Granules that a section covers in full lose their poison (R126). -/
def clearCovered (p : FMap Bool) (o n : Nat) : FMap Bool :=
  let first := (o + 63) / 64
  (List.range ((o + n) / 64 - first)).foldl (fun p i => fdel p (first + i)) p

/-- The code bundles of an image for the piers that `f` takes. -/
def imageCode (s : State) (img : JobImage) (f : Nat → Nat → Bool) : State :=
  (img.code.filter fun c => f c.1 c.2.1).foldl (fun s c =>
    match imagePk s img c.1 c.2.1 with
    | some pk => adjPier s pk fun p => { p with code := fset p.code c.2.2.1 c.2.2.2 }
    | none => s) s

/-- The scratchpad sections of an image. -/
def imageSpad (s : State) (img : JobImage) (f : Nat → Nat → Bool) : State :=
  (img.spad.filter fun c => f c.1 c.2.1).foldl (fun s c =>
    match imagePk s img c.1 c.2.1 with
    | some pk =>
      adjPier s pk fun p =>
        { p with
          spad := mwriteList p.spad c.2.2.1 c.2.2.2
          spadPoison := clearCovered p.spadPoison c.2.2.1 c.2.2.2.length }
    | none => s) s

/-- Bytes written to a slice from an offset, a flit of at most 64 bytes at a time. -/
def loadWeights (s : State) (pk : Nat) : Nat → Nat → List Byte → State
  | 0, _, _ => s
  | k + 1, off, l =>
    let n := 64 - off % 64
    if l = [] then s else loadWeights (weightWrite s pk off (l.take n).length (natOfBytes (l.take n)) false) pk k (off + n) (l.drop n)

/-- The weight-store sections of an image, written as the flits of SWLD streams (R137, R139). -/
def imageWst (s : State) (img : JobImage) (f : Nat → Nat → Bool) : State :=
  (img.wst.filter fun c => f c.1 c.2.1).foldl (fun s c =>
    match imagePk s img c.1 c.2.1 with
    | some pk => loadWeights s pk (c.2.2.2.length / 64 + 2) c.2.2.1 c.2.2.2
    | none => s) s

/-- Whether the flits of a weight-store section are refused because their partition is not resident, or halting (R222). -/
def weightsWait (s : State) (img : JobImage) : Bool :=
  img.wst.any fun c => match imagePk s img c.1 c.2.1 with | some pk => !residentOpen s pk | none => false

/-- The root through which the host's accesses for a job on a module go: that of its first carrier (R146, R261). -/
def jobRootWord (s : State) (m : Nat) (job : BitVec 12) : Word :=
  match partOfJob s m job with
  | none => 0
  | some p => match piersOf s m p fun _ => true with | pk :: _ => (getPier s pk).xlroot | [] => 0

/-- The HBM sections of an image, written once. -/
def imageHbm (s : State) (m : Nat) (img : JobImage) : State :=
  let root := jobRootWord s m img.job
  img.hbm.foldl (fun s c => vaClear (vaWrite s m root c.1 c.2) m root c.1 c.2.length) s

/-- An actor of an image in the words of R55. -/
def lineWords (a : ActorLine) : List Word :=
  [BitVec.ofNat 64 a.actor, a.rgnbase, a.rgnlim, a.weir, a.spill, a.fault, a.graph, BitVec.ofNat 64 a.handlers.length] ++ a.handlers

/-- The actors of an image with their handler entries. -/
def imageActors (s : State) (img : JobImage) (f : Nat → Nat → Bool) : State :=
  (img.actors.filter fun a => f a.mod a.pier).foldl (fun s a =>
    match imagePk s img a.mod a.pier with
    | some pk =>
      adjPier s pk fun p =>
        let q := putHandlers p a.actor a.handlers
        let old := pierActor p a.actor
        { q with actors := fset q.actors a.actor { recordActor a.pier (lineWords a) with spilled := old.spilled } }
    | none => s) s

/-- A sluice loaded as by SARM and then SSET: its target is first looked at with the SSET (R102). DESIGN CHOICE, log entry 44: where the
SARM would fault (a home with n of 0 or above 64, or too few leads), the sluice is left unarmed and the SSET is done. -/
def loadSluice (s : State) (pk n : Nat) (action : Word) (count target : BitVec 32) : State :=
  let mode := bits action 62 2
  let s1 :=
    if mode = 1 then adjPier s pk fun p => { p with sluices := fadj p.sluices n {} fun x => sarmSluice x action }
    else match sarmAt s pk n action with | .ok t => t | .fault _ _ => s
  ssetAt s1 pk n 0 (BitVec.ofNat 64 (target.toNat * 2 ^ 32 + count.toNat))

/-- The `.sluice` lines of an image. -/
def imageSluices (s : State) (img : JobImage) (f : Nat → Nat → Bool) : State :=
  (img.sluices.filter fun l => f l.mod l.pier).foldl (fun s l =>
    match imagePk s img l.mod l.pier with
    | some pk => loadSluice s pk l.sluice l.action l.count l.target
    | none => s) s

/-- A link entry (R65). -/
def linkWord (level id pm pp ps : Nat) : Word :=
  BitVec.ofNat 64 (2 ^ 63 + level * 2 ^ 61 + id * 2 ^ 48 + pm * 2 ^ 29 + pp * 2 ^ 19 + ps * 2 ^ 10)

/-- A completion sluice loaded with its link entry (R64, R65): a counter with no rearm. -/
def loadCompletion (s : State) (img : JobImage) (m lp n target : Nat) (link : Word) : State :=
  match imagePk s img m lp with
  | some pk => loadSluice (setLink s pk n link) pk n (BitVec.ofNat 64 (2 ^ 62)) 0 (BitVec.ofNat 32 target)
  | none => s

/-- The completion sluices of an image: graphs, phases, the job (R102). -/
def imageCompletions (s : State) (img : JobImage) : State :=
  let s1 := img.graphs.foldl (fun s g =>
    loadCompletion s img g.mod g.pier g.sluice g.target.toNat
      (linkWord 0 g.graph.toNat img.homeMod img.homePier (img.sluice - 1 - g.phase))) s
  let s2 := (List.range img.phases).foldl (fun s p =>
    loadCompletion s img img.homeMod img.homePier (img.sluice - 1 - p) (img.graphs.countP fun g => g.phase == p)
      (linkWord 1 p img.homeMod img.homePier img.sluice)) s1
  loadCompletion s2 img img.homeMod img.homePier img.sluice img.phases (linkWord 2 img.job.toNat 0 0 0)

/-! Checks (R102). -/

/-- Every module that an image names. -/
def imageMods (s : State) (m : Nat) (img : JobImage) : List Nat :=
  let pages := (img.hbm.flatMap fun c => pieces c.1 c.2.length).filterMap fun va =>
    match walkAll s m (jobRootWord s m img.job) va 2 with | .leaf e _ _ => some (bits e 36 12) | _ => none
  [img.homeMod] ++ img.mods ++ img.graphs.map (·.mod) ++ img.code.map (·.1) ++ img.spad.map (·.1) ++ img.wst.map (·.1) ++ img.actors.map (·.mod) ++
    img.sluices.map (·.mod) ++ pages

/-- Whether the description of an actor passes R55, with an index below 63. -/
def lineOk (s : State) (img : JobImage) (a : ActorLine) : Bool :=
  let s1 := adjJob s img.job.toNat fun j => { j with img := img }
  decide (a.actor < 63) && recordOk s1 img.job (lineWords a)

/-- Whether an actor of an image finds its index and its handler entries free, after the lines before it (R55, R102). -/
def lineFits (s : State) (img : JobImage) (before : List ActorLine) (a : ActorLine) : Bool :=
  match imagePk s img a.mod a.pier with
  | none => true
  | some pk =>
    let p := getPier s pk
    let same := before.filter fun b => imagePk s img b.mod b.pier == some pk
    (pierActor p a.actor).st == .free && !same.any (fun b => b.actor == a.actor) &&
      decide ((same.map fun b => b.handlers.length).foldl (· + ·) a.handlers.length ≤ (freeHandlers p).length)

/-- A check that an image fails, by number: 1 a description, 2 the service area, 3 a module. -/
def imageCheck (s : State) (m : Nat) (img : JobImage) : Option Nat :=
  if img.actors.all (lineOk s img) = false ∨ img.actors.zipIdx.all (fun a => lineFits s img (img.actors.take a.2) a.1) = false then some 1
  else if img.spad.any (fun c => decide (0x3F000 < c.2.2.1 + c.2.2.2.length)) = true then some 2
  else if (imageMods s m img).all (fun k => (getMod s k).present && (partOfJob s k img.job).isSome) = false then some 3
  else none

/-- The page of an HBM section that may not be written. -/
def imagePage (s : State) (m : Nat) (img : JobImage) : Option (WalkOut × Word) :=
  img.hbm.findSome? fun c => vaWritable s m (jobRootWord s m img.job) c.1 2 c.2.length

/-- A pier of a job at its load: the sluices, windows and tile words are zero, and so is the code that the image does not load; the
dispatcher pointers stand at 62, dispatches at 0 and every seed at 1 (R57, R72, R84, R133, R185, R321). DESIGN CHOICE, log entry 44: the
zeros of code that the image does not load clear the poison of their granules as the loader's writes do (R126). -/
def loadReset (p : Pier) : Pier :=
  { p with
    sluices := [], credits := [], wins := [], tileCfg := [], code := [], codePoison := [], ptrs := [], dispatches := 0
    strands := p.strands.map fun e => (e.1, { e.2 with seed := 1 }) }

/-- The loader's work on the whole image, in the order of R102. -/
def loadImage (s : State) (m : Nat) (img : JobImage) : State :=
  let all : Nat → Nat → Bool := fun _ _ => true
  let s0 := adjJob s img.job.toNat fun _ => { img := img, loaded := true }
  let s1 := (piersOfJob s0 img.job).foldl (fun s pk => adjPier s pk loadReset) s0
  let s2 := imageHbm (imageWst (imageSpad (imageCode s1 img all) img all) img all) m img
  imageSluices (imageCompletions (imageActors s2 img all) img) img all

/-- Whether a page that an image writes is found by way of an entry that is being moved (R149). -/
def imageMoving (s : State) (m : Nat) (img : JobImage) : Bool :=
  img.hbm.any fun c => vaMoving s m (jobRootWord s m img.job) c.1 2 c.2.length

/-- The frame whose image a loader has done is done with (R177). -/
def loadFrameDone (s : State) (m : Nat) (img : JobImage) : State :=
  adjHost s m fun h =>
    match h.waiting with
    | w :: l => if w.img = some img then { h with waiting := l } else h
    | [] => h

/-- The job loader runs once the image's last section is acknowledged (R102): the whole image, or an event of code 0x0005
with the failed check or the fault record. It tries again after 4,096 cycles where an entry of the tables is being moved, 16 times at
most (R149), and after 512 cycles where a target of its weights is not resident (R222); the frames behind wait for it (R177). -/
def execJobLoaderRun (mod job : Nat) (s : State) : Out :=
  let j := getJob s job
  let img := j.next
  let done (s : State) : State := loadFrameDone s mod img
  let refuse (data : List Byte) : State :=
    sendEvent (adjJob s job fun j => { j with next := {}, tries := 0 }) mod 5 (BitVec.ofNat 12 job) data
  go (if imageMoving s mod img = true ∧ j.tries < 16 then
      schedule (adjJob s job fun j => { j with tries := j.tries + 1 }) (s.cycle + 4096) (.jobLoaderRun mod job)
    else
      match imageCheck s mod img, imagePage s mod img with
      | some n, _ => done (refuse (wordBytes (BitVec.ofNat 64 n)))
      | none, some x => done (refuse (hostRecord mod (walkCode x.1) 0 0 x.2))
      | none, none =>
        if weightsWait s img then schedule s (s.cycle + 512) (.jobLoaderRun mod job) else done (loadImage s mod img))

/-! One logical pier loaded again (R234, R235). -/

/-- Whether a logical pier is one of a list. -/
def onlyThese (m : Nat) (l : List Nat) : Nat → Nat → Bool := fun k lp => k == m && l.contains lp

/-- The actors of a pier that are lost with it, for their records and notices (R234, R235). -/
def lostActors (p : Pier) : List (Nat × Nat × Word × BitVec 12) :=
  (p.actors.filter fun a => a.1 != 63 && a.2.st != .free).map fun a => (a.1, a.2.lp.toNat, a.2.fault, a.2.graph)

/-- A pier context that was lost, loaded from the job image: windows are zero, spillways remain, and the restart notices and
records wait for the partition's return (R235 steps 4 and 5). What service code had written of cw.xlroot and the other
service words is written again. -/
def reloadPier (s : State) (pk : Nat) : State :=
  let old := getPier s pk
  let m := pkMod pk
  let img := (getJob s (jobOf s pk).toNat).img
  let kept := (old.actors.filter fun a => a.2.spilled != []).map fun a => (a.1, { spilled := a.2.spilled : Actor })
  let p : Pier :=
    { actors := kept, jobStrands := old.jobStrands, age := old.age, xlroot := old.xlroot, laglim := old.laglim,
      savelim := old.savelim, hold := old.hold, debugHalted := old.debugHalted, debugFrames := old.debugFrames, halting := old.halting,
      restart := old.restart ++ lostActors old }
  let f := onlyThese m (lpsOf s pk)
  imageSluices (imageActors (imageSpad (imageCode (setPier s pk p) img f) img f) img f) img f

end Sys2Proof.Machine
end

