-- ==== Sys2Proof/Machine/SaveArea.lean ====
section
/-!
DEFINITION. The images of partitions in HBM (R223 to R226, R229, R231): strand frames, the register context, pier images, stream
contexts, the partition record, and what of them is read back. Where a rule names what a place holds and not its bits, the coding is the
model's (log entry 5).
-/

namespace Sys2Proof.Machine

/-! Rows of 64 bytes: the accesses of the culverts (R131, R162). -/

/-- Where a partition's contexts of a half-span are. -/
def locOf (s : State) (m part hs : Nat) : Loc := fget (getPart s m part).loc hs .none

/-- Bytes put in front of zeros, to a length. -/
def padTo (n : Nat) (l : List Byte) : List Byte := (l ++ List.replicate n 0).take n

/-- Bytes `o` to `o + n` of a list as a number. -/
def fieldAt (l : List Byte) (o n : Nat) : Nat := natOfBytes ((l.drop o).take n)

/-- The first `n` rows of a list of bytes. -/
def rowsOfBytes : Nat → List Byte → List Nat
  | 0, _ => []
  | n + 1, l => natOfBytes (l.take 64) :: rowsOfBytes n (l.drop 64)

/-- Rows with their poison written from a stack-local address (R126, R226). -/
def putRows (s : State) (m l : Nat) : List (Nat × Bool) → State
  | [] => s
  | r :: rs => putRows (hbmWrite s m 2 l 64 r.1 r.2) m (l + 64) rs

/-- The bytes of an area. -/
def areaRead (s : State) (m l n : Nat) : List Byte := mreadList (getMod s m).hbm (dramLoc 2 l) n

/-- The bytes of rows from a stack-local address. -/
def getRows (s : State) (m l : Nat) : Nat → List Byte
  | 0 => []
  | n + 1 => areaRead s m l 64 ++ getRows s m (l + 64) n

/-! Strand frames (R224). -/

/-- The 64 bytes of a value: its lanes, or its word. -/
def valueRow (v : Value) : List Byte :=
  match v.d with
  | .scalar w => padTo 64 (wordBytes w)
  | .vec r _ => bytesOfNat 64 r.toNat

/-- Whether a value is a vector. -/
def valueVec (v : Value) : Bool := match v.d with | .scalar _ => false | .vec _ _ => true

/-- The code of a run's status in a frame: free, running, suspended, frozen. A run that is written out is suspended; a parked one is frozen
where its actor is. -/
def statusCode (frozen : Bool) : RunStatus → Nat
  | .free => 0
  | .running => 2
  | .frozen => 3
  | .parked => if frozen then 3 else 2
  | .native => 2

/-- The status that a frame gives a run; the code of the status it has changes nothing. -/
def statusFrom (frozen : Bool) (code : Nat) (old : RunStatus) : RunStatus :=
  if code % 4 = statusCode frozen old then old
  else if code % 4 = 0 then .free else if code % 4 = 3 then .frozen else .running

/-- Poison marks as a number. -/
def marksOf (n : Nat) (f : Nat → Bool) : Nat := natOfBits ((List.range n).map f)

/-- The block at 0x0940: guards, with the pending DONE of a frozen run in the place of c0 (R300), status, stop bundle, next bundle, the
strand-scope words, the watchdog count, poison marks. -/
def frameBlock (x : Strand) (frozen : Bool) : List Byte :=
  padTo 64 (bytesOfNat 1 (marksOf 8 fun i => if i = 0 then x.donePending else readC x i) ++ bytesOfNat 1 (statusCode frozen x.status) ++ bytesOfNat 2 x.stop.toNat ++
    bytesOfNat 2 x.pc.toNat ++ bytesOfNat 2 x.actor.toNat ++ wordBytes x.cycles ++ bytesOfNat 4 x.runid.toNat ++ bytesOfNat 4 x.seed.toNat ++
    bytesOfNat 8 x.wd ++ bytesOfNat 4 (marksOf 32 fun i => (readX x i).poison) ++ bytesOfNat 4 (marksOf 32 fun i => (readV x i).poison) ++
    bytesOfNat 1 (marksOf 6 fun i => (readQ x i).poison) ++ bytesOfNat 1 (marksOf 6 fun i => (readP x i).poison))

/-- The operand ports in their order (R74). -/
def opSels : List OpSel :=
  [.iaA, .iaB, .ibA, .ibB, .imA, .imB, .lsA, .lsB, .gmA, .gmB, .vxA, .vxB, .mxA, .mxB, .msA, .slA, .slB, .syA]

/-- The result ports of 64 bytes, then those of 8 bytes (R224). -/
def resSels : List ResSel := [.lsR, .gmR, .vxR, .kfR, .ctR, .iaR, .ibR, .imR, .imH, .lsH, .gmH, .msR, .slR, .sgS, .syR]

/-- The status byte of a port: whether it holds a value, whether it waits, kind, poison, the in-flight entry it waits for. -/
def portStatus (full pend vec poison : Bool) (entry : Nat) : List Byte :=
  bytesOfNat 1 (b2n full + 2 * b2n pend + 4 * b2n vec + 8 * b2n poison + 16 * (entry % 16))

/-- The in-flight entry of an operation. -/
def entryIx (x : Strand) (tok : Nat) : Nat := ((x.inf.find? fun e => match e.2 with | some i => i.tok == tok | none => false).map (·.1)).getD 0

/-- The value that a result port holds, zero where it holds none. -/
def resValue (x : Strand) (r : ResSel) : Value := match resPort x r.index with | .full v => v | _ => Value.zero

/-- The port file: operand ports, result ports, a status byte for each. -/
def framePorts (x : Strand) : List Byte :=
  let ops := opSels.flatMap fun o => valueRow ((opPort x o).getD Value.zero)
  let wide := (resSels.take 4).flatMap fun r => valueRow (resValue x r)
  let thin := (resSels.drop 4).flatMap fun r => wordBytes (vsc (resValue x r))
  let st1 := opSels.flatMap fun o => match opPort x o with
    | some v => portStatus true false (valueVec v) v.poison 0
    | none => portStatus false false false false 0
  let st2 := resSels.flatMap fun r => match resPort x r.index with
    | .full v => portStatus true false (valueVec v) v.poison 0
    | .pending t => portStatus false true false false (entryIx x t)
    | .empty => portStatus false false false false 0
  padTo 0x600 (ops ++ wide ++ thin ++ st1 ++ st2)

/-- The code of an in-flight entry's kind. -/
def infCode : InfKind → Nat
  | .gm => 0 | .kf => 1 | .div => 2 | .sg => 3

/-- An in-flight entry: state (0 empty, 1 awaiting, 2 issued), kind, slot and marks of the operand; operation; bundle, move and address, with
the mask of a stored vector in their free bits; the operands it captured; after the 8 bytes of a CAS value, the expected one. -/
def frameInflight (x : Strand) (i : Nat) : List Byte :=
  match fget x.inf i none with
  | none => List.replicate 80 0
  | some e =>
    let v := e.req.val
    let k := (vmaskOf v).toNat
    let first := (if e.issued then 2 else 1) + infCode e.kind * 2 ^ 2 + e.slot.toNat * 2 ^ 4 + b2n (valueVec v) * 2 ^ 6 + b2n v.poison * 2 ^ 7
    let addr := if valueVec v then e.req.va.toNat % 2 ^ 56 / 64 * 64 + k / 16 % 64 + k / 2 ^ 10 * 2 ^ 56 else e.req.va.toNat
    let w :=
      if gmIsCas e.req.op then padTo 64 (wordBytes (vsc v) ++ wordBytes (vsc e.req.exp) ++ bytesOfNat 1 (b2n e.req.exp.poison)) else valueRow v
    bytesOfNat 1 first ++ bytesOfNat 1 e.req.op.toNat ++ bytesOfNat 2 (e.bundle.toNat + if valueVec v then k % 16 * 2 ^ 12 else 0) ++
      bytesOfNat 4 e.move.toNat ++ bytesOfNat 8 addr ++ w

/-- An in-flight entry read back; what names it in the model, its operation and the low half of its trigger value, is kept beside. -/
def inflightFrom (l : List Byte) (o : Nat) (old : Option Inflight) : Option Inflight :=
  let b := fieldAt l o 1
  match old with
  | none => none
  | some e =>
    if b % 4 = 0 then none
    else
      let vec := b / 2 ^ 6 % 2 == 1
      let h := fieldAt l (o + 2) 2
      let a := fieldAt l (o + 8) 8
      let cas := gmIsCas (BitVec.ofNat 8 (fieldAt l (o + 1) 1))
      let poison := b / 2 ^ 7 % 2 == 1
      let v : Value :=
        if vec then ⟨.vec (BitVec.ofNat 512 (fieldAt l (o + 16) 64)) (BitVec.ofNat 16 (h / 2 ^ 12 + a % 64 * 2 ^ 4 + a / 2 ^ 56 % 64 * 2 ^ 10)), poison⟩
        else ⟨.scalar (BitVec.ofNat 64 (fieldAt l (o + 16) 8)), poison⟩
      some { e with
        kind := match b / 4 % 4 with | 0 => .gm | 1 => .kf | 2 => .div | _ => .sg
        issued := b % 4 == 2, slot := BitVec.ofNat 2 (b / 2 ^ 4), bundle := BitVec.ofNat 12 h, move := BitVec.ofNat 32 (fieldAt l (o + 4) 4)
        req := { e.req with
          op := BitVec.ofNat 8 (fieldAt l (o + 1) 1)
          va := BitVec.ofNat 64 (if vec then a % 2 ^ 56 / 64 * 64 else a)
          val := v
          exp := if cas then ⟨.scalar (BitVec.ofNat 64 (fieldAt l (o + 24) 8)), fieldAt l (o + 32) 1 % 2 == 1⟩ else e.req.exp } }

/-- The bytes of a strand frame with a share of the register context (R224, R225); `frozen` tells whether a parked run is frozen. -/
def frameBytes (x : Strand) (share : List Byte) (frozen : Bool := false) : List Byte :=
  let regs := (List.range 32).flatMap fun i => wordBytes (vsc (readX x i))
  let vecs := (List.range 32).flatMap fun i => bytesOfNat 64 (vlanes (readV x i)).toNat
  let masks := (List.range 32).flatMap fun i => bytesOfNat 2 (vmaskOf (readV x i)).toNat
  let words := ((List.range 6).flatMap fun i => wordBytes (vsc (readQ x i))) ++ ((List.range 6).flatMap fun i => wordBytes (vsc (readP x i))) ++
    padTo 32 (bytesOfNat 16 (msgHeader x.hdr).toNat)
  regs ++ vecs ++ masks ++ frameBlock x frozen ++ words ++ framePorts x ++ ((List.range 16).flatMap (frameInflight x)) ++ padTo 2816 share

/-- A value read back from 64 bytes; the mask of a vector is kept beside the frame. -/
def valueFrom (l : List Byte) (o : Nat) (vec poison : Bool) (old : Value) : Value :=
  if vec then ⟨.vec (BitVec.ofNat 512 (fieldAt l o 64)) (vmaskOf old), poison⟩ else ⟨.scalar (BitVec.ofNat 64 (fieldAt l o 8)), poison⟩

/-- A frame read back into a strand (R224): registers, words, header, guards, status, bundles, counters, the values in ports and the in-flight
record. -/
def frameDecode (l : List Byte) (x : Strand) (frozen : Bool) : Strand :=
  let w (o : Nat) : Word := BitVec.ofNat 64 (fieldAt l o 8)
  let mark (o i : Nat) : Bool := fieldAt l o 8 / 2 ^ i % 2 == 1
  let st (i : Nat) : Nat := fieldAt l (0xA00 + 1496 + i) 1
  { x with
    x := (List.range 31).map fun i => (i + 1, ⟨.scalar (w (8 * (i + 1))), mark 0x960 (i + 1)⟩)
    v := (List.range 32).map fun i =>
      (i, ⟨.vec (BitVec.ofNat 512 (fieldAt l (0x100 + 64 * i) 64)) (BitVec.ofNat 16 (fieldAt l (0x900 + 2 * i) 2)), mark 0x964 i⟩)
    c := (List.range 7).map fun i => (i + 1, mark 0x940 (i + 1))
    donePending := mark 0x940 0
    status := statusFrom frozen (fieldAt l 0x941 1) x.status
    actor := BitVec.ofNat 6 (fieldAt l 0x946 2)
    hdr := { msgOfHeader (BitVec.ofNat 128 (fieldAt l 0x9E0 16)) x.hdr.pay with poison := x.hdr.poison }
    stop := BitVec.ofNat 12 (fieldAt l 0x942 2)
    pc := BitVec.ofNat 12 (fieldAt l 0x944 2)
    cycles := w 0x948
    runid := BitVec.ofNat 32 (fieldAt l 0x950 4)
    seed := BitVec.ofNat 32 (fieldAt l 0x954 4)
    wd := fieldAt l 0x958 8
    q := (List.range 6).map fun i => (i, ⟨.scalar (w (0x980 + 8 * i)), mark 0x968 i⟩)
    p := (List.range 6).map fun i => (i, ⟨.scalar (w (0x9B0 + 8 * i)), mark 0x969 i⟩)
    op := opSels.zipIdx.map fun o =>
      (o.1.index, if st o.2 % 2 = 1 then
        some (valueFrom l (0xA00 + 64 * o.2) (st o.2 / 4 % 2 == 1) (st o.2 / 8 % 2 == 1) ((opPort x o.1).getD Value.zero))
      else none)
    res := x.res.map fun r =>
      match resSels.zipIdx.find? (fun k => k.1.index == r.1), r.2 with
      | some k, .full v =>
        (r.1, .full (valueFrom l (if k.2 < 4 then 0xA00 + 64 * (18 + k.2) else 0xA00 + 1408 + 8 * (k.2 - 4))
          (st (18 + k.2) / 4 % 2 == 1) (st (18 + k.2) / 8 % 2 == 1) v))
      | _, _ => r
    inf := x.inf.map fun e => (e.1, inflightFrom l (0x1000 + 80 * e.1) e.2) }

/-- A strand read back from its frame: nothing changes where the frame holds what was written. -/
def frameInto (l : List Byte) (x : Strand) (frozen : Bool := false) : Strand :=
  if l.take 0x1500 = (frameBytes x [] frozen).take 0x1500 then x else frameDecode l x frozen

/-! The register context (R225). -/

/-- The index of a home's first lead in the lead store: the leads of the sluices before it come first. -/
def firstLead (p : Pier) (n : Nat) : Nat := ((p.sluices.filter fun e => decide (e.1 < n)).map fun e => e.2.leads.length).foldl (· + ·) 0

/-- The leads of a pier in the order of the lead store. -/
def leadStore (p : Pier) : List Nat := (List.range 512).flatMap fun n => (pierSluice p n).leads

/-- Four leads to a byte. -/
def packLeads (l : List Nat) (n : Nat) : List Byte :=
  (List.range n).map fun i =>
    BitVec.ofNat 8 (lgetD l (4 * i) 0 + 4 * lgetD l (4 * i + 1) 0 + 16 * lgetD l (4 * i + 2) 0 + 64 * lgetD l (4 * i + 3) 0)

/-- The code of an actor's state. -/
def actorCode (a : Actor) : Nat :=
  (match a.st with | .free => 0 | .idle => 1 | .running => 2 | .frozen => 3 | .evicted => 4) + 8 * b2n a.retiring + 16 * b2n a.ending

/-- The 32 bytes of an actor: state, weir, graph and region bounds, then the spill and fault words, then the sequence number. -/
def actorBytes (a : Actor) : List Byte :=
  bytesOfNat 1 (actorCode a) ++ bytesOfNat 2 a.weir.toNat ++ bytesOfNat 2 a.graph.toNat ++ bytesOfNat 3 (bits a.rgnbase 0 24) ++
    wordBytes a.spill ++ wordBytes a.fault ++ bytesOfNat 3 (bits a.rgnlim 0 24) ++ bytesOfNat 2 a.seq.toNat ++ bytesOfNat 3 a.lp.toNat

/-- A sluice-add message as its outbox entry sends it (R244, R345). -/
def addMsg (s : State) (pk : Nat) (e : OutEntry) (a : SlAdd) : Msg :=
  { dmod := BitVec.ofNat 12 a.mod, dpier := BitVec.ofNat 10 a.pier, kind := 3, smod := BitVec.ofNat 12 (pkMod pk),
    spier := BitVec.ofNat 10 (pkLp pk), sact := BitVec.ofNat 6 e.actor, job := jobOf s pk, graph := a.graph.getD 0, words := 2,
    pay := [BitVec.ofNat 64 (a.sl.toNat + a.form.toNat * 2 ^ 9 + a.member.toNat * 2 ^ 11), BitVec.ofNat 64 a.add.toNat] }

/-- The message of an outbox entry (R45, R244). -/
def outMsg (s : State) (pk : Nat) (e : OutEntry) : Msg :=
  match e.body with
  | .msg g => g
  | .mcast _ g => g
  | .reduce _ g => g
  | .add a => addMsg s pk e a
  | .gdone graph add =>
    { kind := 3, smod := BitVec.ofNat 12 (pkMod pk), spier := BitVec.ofNat 10 (pkLp pk), sact := BitVec.ofNat 6 e.actor, job := jobOf s pk,
      graph, words := 2, pay := [0, BitVec.ofNat 64 add.toNat] }

/-- Cycles until an outbox entry is sent again, zero where it does not wait for that (R45). -/
def resendIn (s : State) (pk tok : Nat) : Nat :=
  match s.cal.find? fun e => match e.2 with | .outboxResend (.outbox q t) => q == pk && t == tok | _ => false with
  | some e => e.1 - s.cycle
  | none => 0

/-- The 64 bytes of an outbox entry: its message, with the cycles until it is sent again in the place of the job, which is the
partition's. -/
def outBytes (s : State) (pk : Nat) (e : OutEntry) : List Byte :=
  msgBytes { outMsg s pk e with job := BitVec.ofNat 12 (resendIn s pk e.tok) }

/-- The message of 64 bytes, with the poison that is kept beside them. -/
def msgFrom (l : List Byte) (poison : BitVec 6) : Msg :=
  { msgOfHeader (BitVec.ofNat 128 (natOfBytes (l.take 16))) ((List.range 6).map fun i => BitVec.ofNat 64 (fieldAt l (16 + 8 * i) 8)) with
    poison }

/-- The payload of an entry's message put back into what it sends. -/
def outBack (g : Msg) : OutBody → OutBody
  | .msg _ => .msg g
  | .mcast n _ => .mcast n g
  | .reduce n _ => .reduce n g
  | .add a =>
    let w := payWord g 0
    .add { a with
      mod := g.dmod.toNat, pier := g.dpier.toNat, sl := w.extractLsb' 0 9, form := w.extractLsb' 9 2, member := w.extractLsb' 11 6,
      add := (payWord g 1).extractLsb' 0 32 }
  | .gdone _ _ => .gdone g.graph ((payWord g 1).extractLsb' 0 32)

/-- An outbox entry read back (R225, R229): nothing changes where its bytes hold its message; it is sent at once. -/
def outFrom (s : State) (pk : Nat) (l : List Byte) (e : OutEntry) : OutEntry :=
  let old := outMsg s pk e
  let g := { msgFrom l old.poison with job := old.job }
  if msgBytes g = msgBytes old then e else { e with body := outBack g e.body }

/-- The operations of the matrix queue in the order of their codes. -/
def mopList : List MOp := [.mcfg, .mld, .mldw, .mstRaw, .mstBf16, .mstF32, .mzero, .mma, .mmas, .mmaf, .cmma]

/-- A kept matrix entry in 24 bytes: its values, then operation, release, strand, actor, slot, bundle and run. -/
def mentryBytes (e : MEntry) : List Byte :=
  wordBytes e.t ++ wordBytes e.a ++
    bytesOfNat 8 (mopList.findIdx (· == e.op) + b2n e.released * 2 ^ 4 + e.strand % 8 * 2 ^ 5 + e.actor.toNat * 2 ^ 8 + e.slot.toNat * 2 ^ 14 +
      e.bundle.toNat * 2 ^ 16 + e.runid.toNat * 2 ^ 32)

/-- A kept matrix entry read back; its move word and logical pier are kept beside. -/
def mentryFrom (l : List Byte) (e : MEntry) : MEntry :=
  let w := fieldAt l 16 8
  if l = mentryBytes e then e
  else
    { e with
      t := BitVec.ofNat 64 (fieldAt l 0 8), a := BitVec.ofNat 64 (fieldAt l 8 8), op := (mopList[w % 2 ^ 4]?).getD e.op
      released := w / 2 ^ 4 % 2 == 1, strand := w / 2 ^ 5 % 8, actor := BitVec.ofNat 6 (w / 2 ^ 8), slot := BitVec.ofNat 2 (w / 2 ^ 14)
      bundle := BitVec.ofNat 12 (w / 2 ^ 16), runid := BitVec.ofNat 32 (w / 2 ^ 32) }

/-- A release credit in 8 bytes. -/
def creditBytes (c : Credit) : List Byte :=
  bytesOfNat 8 (2 ^ 31 + c.actor + match c.key with | some k => 2 ^ 30 + k.toNat * 2 ^ 8 | none => 0)

/-- A release credit read back from its word, where it is one. -/
def creditFrom (w : Nat) : Option Credit :=
  if w / 2 ^ 31 % 2 = 0 then none
  else some { actor := w % 64, key := if w / 2 ^ 30 % 2 = 1 then some (BitVec.ofNat 9 (w / 2 ^ 8)) else none }

/-- An actor read back from its 32 bytes (R34, R225); reserved bits read zero (R5). -/
def actorFrom (l : List Byte) (old : Actor) : Actor :=
  let c := fieldAt l 0 1
  if l = actorBytes old then old
  else
    { old with
      st := match c % 8 with | 0 => .free | 1 => .idle | 2 => .running | 3 => .frozen | _ => .evicted
      retiring := c / 8 % 2 == 1, ending := c / 16 % 2 == 1, weir := BitVec.ofNat 9 (fieldAt l 1 2), graph := BitVec.ofNat 12 (fieldAt l 3 2)
      rgnbase := BitVec.ofNat 64 (fieldAt l 5 3 / 64 % 2 ^ 13 * 64), rgnlim := BitVec.ofNat 64 (fieldAt l 24 3 / 64 % 2 ^ 13 * 64)
      spill := setBits (BitVec.ofNat 64 (fieldAt l 8 8 % 2 ^ 55)) 5 11 0, fault := BitVec.ofNat 64 (fieldAt l 16 8 % 2 ^ 29)
      seq := BitVec.ofNat 16 (fieldAt l 27 2), lp := BitVec.ofNat 10 (fieldAt l 29 3) }

/-- The register context of a pier (R225). -/
def regContext (s : State) (pk : Nat) (p : Pier) : List Byte :=
  let each {α : Type} (n : Nat) (l : List α) (f : α → List Byte) : List Byte := padTo n (l.flatMap f)
  let ixs := List.range 512
  (ixs.flatMap fun n => bytesOfNat 8 ((pierSluice p n).count.toNat + (pierSluice p n).target.toNat * 2 ^ 32)) ++
    (ixs.flatMap fun n => wordBytes (pierSluice p n).action) ++
    (ixs.flatMap fun n => bytesOfNat 4 ((pierSluice p n).phase.toNat + b2n (pierSluice p n).armed * 4 + firstLead p n % 4096 * 2 ^ 4)) ++
    packLeads (leadStore p) 1024 ++
    ((List.range 64).flatMap fun a => actorBytes (pierActor p a)) ++
    ((List.range 128).flatMap fun i => wordBytes (fget p.handlers i 0)) ++
    each 4096 p.outbox (outBytes s pk) ++
    each 384 p.mq mentryBytes ++ each 128 p.credits creditBytes ++
    padTo 512 (((List.range 16).flatMap fun i => wordBytes (fget p.tileCfg i 0)) ++
      (List.range 20).map fun i => match fget p.claims i none with | some a => BitVec.ofNat 8 (0x80 + a) | none => 0) ++
    padTo 512 (((List.range 8).flatMap fun i => wordBytes (fget p.wins i 0)) ++
      wordBytes (BitVec.ofNat 64 (p.jobStrands.toNat * 2 ^ 32 + p.age.toNat)) ++ ((List.range 4).map fun i => BitVec.ofNat 8 (fget p.ptrs i 62)) ++
      bytesOfNat 4 p.dispatches.toNat) ++
    List.replicate 2560 0

/-- Share `i` of a register context. -/
def regShare (l : List Byte) (i : Nat) : List Byte := (l.drop (2816 * i)).take 2816

/-- A sluice read back from the register context (R225): count, target, action, phase, armed and leads. -/
def sluiceFrom (l : List Byte) (n : Nat) (x : Sluice) : Sluice :=
  let z := fieldAt l (0x2000 + 4 * n) 4
  let lead (i : Nat) : Nat := fieldAt l (0x2800 + i / 4) 1 / 4 ^ (i % 4) % 4
  let action : Word := BitVec.ofNat 64 (fieldAt l (0x1000 + 8 * n) 8)
  let many := if action = x.action then x.leads.length else if bits action 62 2 = 2 then bits action 32 7 else 0
  { x with
    count := BitVec.ofNat 32 (fieldAt l (8 * n) 4), target := BitVec.ofNat 32 (fieldAt l (8 * n + 4) 4)
    action := action, phase := BitVec.ofNat 2 z, armed := z / 4 % 2 == 1
    leads := (List.range many).map fun i => lead (z / 16 % 4096 + i) }

/-- A map read back entry by entry: what holds its value already stays as it is. -/
def mapBack {α : Type} [DecidableEq α] (old : FMap α) (d : α) (n : Nat) (f : Nat → α) : FMap α :=
  (List.range n).foldl (fun m i => if fget m i d = f i then m else fset m i (f i)) old

/-- A register context read back into a pier (R225, R229). The service actor's state is that of its strand, and stays with it. -/
def regDecode (s : State) (pk : Nat) (l : List Byte) (p : Pier) : Pier :=
  let w (o : Nat) : Word := BitVec.ofNat 64 (fieldAt l o 8)
  let part (o n : Nat) : List Byte := (l.drop o).take n
  { p with
    sluices := mapBack p.sluices {} 512 fun n => sluiceFrom l n (pierSluice p n)
    actors := mapBack p.actors {} 63 fun a => actorFrom (part (0x2C00 + 32 * a) 32) (pierActor p a)
    handlers := mapBack p.handlers 0 128 fun i => setBits (w (0x3400 + 8 * i)) 0 30 0
    outbox := p.outbox.zipIdx.map fun e => if e.2 < 64 then outFrom s pk (part (0x3800 + 64 * e.2) 64) e.1 else e.1
    mq := p.mq.zipIdx.map fun e => mentryFrom (part (0x4800 + 24 * e.2) 24) e.1
    credits := (List.range 16).filterMap fun i => creditFrom (fieldAt l (0x4980 + 8 * i) 8)
    tileCfg := mapBack p.tileCfg 0 16 fun i => w (0x4A00 + 8 * i)
    claims := mapBack p.claims none 20 fun i => let b := fieldAt l (0x4A80 + i) 1; if 0x80 ≤ b then some (b % 64) else none
    wins := mapBack p.wins 0 8 fun i => w (0x4C00 + 8 * i)
    jobStrands := BitVec.ofNat 3 (bits (w 0x4C40) 32 3), age := BitVec.ofNat 6 (bits (w 0x4C40) 0 6)
    ptrs := mapBack p.ptrs 62 4 fun i => fieldAt l (0x4C48 + i) 1
    dispatches := BitVec.ofNat 32 (fieldAt l 0x4C4C 4) }

/-! Pier images (R223). -/

/-- The scratchpad rows of an image: the slice status word is written as zero (R223). -/
def spadRows (p : Pier) : List (Nat × Bool) :=
  (List.range 4096).map fun i =>
    let v := mread p.spad (64 * i) 64
    (if i = 0x3FF80 / 64 then v / 2 ^ 64 * 2 ^ 64 else v, fget p.spadPoison i false)

/-- The code rows of an image: four bundles each. -/
def codeRows (p : Pier) : List (Nat × Bool) :=
  (List.range 1024).map fun i =>
    let b (k : Nat) : Nat := (fget p.code (4 * i + k) (0 : BitVec 128)).toNat
    (b 0 + b 1 * 2 ^ 128 + b 2 * 2 ^ 256 + b 3 * 2 ^ 384, fget p.codePoison i false)

/-- Slots in order of admission. -/
def byAdmission (l : List Slot) : List Slot := l.mergeSort fun a b => decide (a.admitted ≤ b.admitted)

/-- The place of each slot of an inbox in the order of admission. -/
def admissionOrder (l : List Slot) : List Nat :=
  let o := (l.zipIdx.mergeSort fun a b => decide (a.1.admitted ≤ b.1.admitted)).map (·.2)
  (List.range l.length).map fun i => o.findIdx (· == i)

/-- A slot as its row holds it: the message, with the slot's place among the queues instead of the module, which is the pier's own, and
instead of the job, which is the partition's, its place in the order of admission, then whether it is an urgent notice, returns from a
spillway, is in use. -/
def slotMsg (x : Slot) (place order : Nat) : Msg :=
  { x.msg with dmod := BitVec.ofNat 12 place, job := BitVec.ofNat 12 (order + b2n x.urgent * 2 ^ 9 + b2n x.back * 2 ^ 10 + 2 ^ 11) }

/-- The rows of the slots of one kind. -/
def slotRows (p : Pier) (reserve : Bool) : List (Nat × Bool) :=
  let o := admissionOrder p.inbox
  (p.inbox.zipIdx.filter fun x => x.1.reserve == reserve).map fun x =>
    (natOfBytes (msgBytes (slotMsg x.1 x.2 (lgetD o x.2 0))), x.1.msg.poison != 0)

/-- The inbox rows of an image: slots 0 to 495, then the 16 of the reserve. -/
def inboxRows (p : Pier) : List (Nat × Bool) :=
  (slotRows p false ++ List.replicate 496 (0, false)).take 496 ++ (slotRows p true ++ List.replicate 16 (0, false)).take 16

/-- The frames of an image with their shares of the register context. -/
def frameRows (s : State) (pk : Nat) (p : Pier) : List (Nat × Bool) :=
  let r := regContext s pk p
  (List.range 8).flatMap fun i => (rowsOfBytes 128 (frameBytes (pierStrand p i) (regShare r i))).map fun v => (v, false)

/-- The 416 KiB of a pier image (R223). -/
def imageRows (s : State) (pk : Nat) : List (Nat × Bool) :=
  let p := getPier s pk
  spadRows p ++ codeRows p ++ inboxRows p ++ frameRows s pk p

/-- Scratchpad read back: rows that the area holds, the status word left aside. -/
def spadBack (s : State) (m l : Nat) (p : Pier) : Pier :=
  (List.range 4096).foldl (fun q i =>
    let v := natOfBytes (areaRead s m (l + 64 * i) 64)
    { q with
      spad := if i = 0x3FF80 / 64 then mwrite q.spad (64 * i + 8) 56 (v / 2 ^ 64) else mwrite q.spad (64 * i) 64 v
      spadPoison := if hbmPoisoned s m 2 (l + 64 * i) then fset q.spadPoison i true else fdel q.spadPoison i }) p

/-- Code read back. -/
def codeBack (s : State) (m l : Nat) (p : Pier) : Pier :=
  (List.range 1024).foldl (fun q i =>
    let v := natOfBytes (areaRead s m (l + 64 * i) 64)
    { q with
      code := (List.range 4).foldl (fun c k =>
        let b := BitVec.ofNat 128 (v / 2 ^ (128 * k))
        if fget c (4 * i + k) 0 = b then c else fset c (4 * i + k) b) q.code
      codePoison := if hbmPoisoned s m 2 (l + 64 * i) then fset q.codePoison i true else fdel q.codePoison i }) p

/-- Strands and register context taken from eight frames: nothing changes where the frames hold what stands there. -/
def framesFrom (s : State) (pk : Nat) (f : Nat → List Byte) (p : Pier) : Pier :=
  let q := regDecode s pk ((List.range 8).flatMap fun i => (f i).drop 0x1500) p
  { q with strands := mapBack q.strands {} 8 fun i => frameInto (f i) (pierStrand q i) }

/-- Strands and register context read back from the frames of an image. -/
def framesBack (s : State) (pk m l : Nat) (p : Pier) : Pier := framesFrom s pk (fun i => getRows s m (l + 8192 * i) 128) p

/-- A slot read back from row `i` (R223): its message, urgent and returning mark, with its place among the queues; empty where it is not in
use. The poison of single words and the cycles of its waits are those of the slot that was written there. -/
def slotBack (s : State) (pk l i : Nat) (old : Option Slot) (times : List Nat) : Option (Nat × Slot) :=
  let m := pkMod pk
  let b := areaRead s m (l + 64 * i) 64
  let g := msgFrom b 0
  if g.job.toNat / 2 ^ 11 % 2 = 0 then none
  else
    let bad := hbmPoisoned s m 2 (l + 64 * i)
    let poison : BitVec 6 := if bad = false then 0 else match old with | some x => if x.msg.poison = 0 then 63 else x.msg.poison | none => 63
    let h : Msg := { g with dmod := BitVec.ofNat 12 m, job := jobOf s pk, poison, pay := match old with
      | some x => if (List.range 6).all (fun k => payWord x.msg k == payWord g k) then x.msg.pay else g.pay
      | none => g.pay }
    some (g.dmod.toNat,
      { msg := h, admitted := lgetD times (g.job.toNat % 2 ^ 9) s.cycle, since := (old.map (·.since)).getD s.cycle, reserve := 496 ≤ i,
        urgent := g.job.toNat / 2 ^ 9 % 2 == 1, back := g.job.toNat / 2 ^ 10 % 2 == 1 })

/-- The inbox read back: its slots in the order of their places in the queues. -/
def inboxBack (s : State) (pk l : Nat) (p : Pier) : Pier :=
  let times := (byAdmission p.inbox).map (·.admitted)
  let plain := p.inbox.filter fun x => !x.reserve
  let kept := p.inbox.filter fun x => x.reserve
  let back := (List.range 512).filterMap fun i => slotBack s pk l i (if i < 496 then plain[i]? else kept[i - 496]?) times
  { p with inbox := (back.mergeSort fun a b => decide (a.1 ≤ b.1)).map (·.2) }

/-! Save areas (R226). -/

/-- The first byte of the save area of a partition for a half-span: 64 MiB of the stack of that number, where the host has put it. -/
def saveArea (m part hs : Nat) : Nat := hs * 2 ^ 36 + Config.saveArea m part hs % 1024 * 2 ^ 26

/-- The place of the image of a site in a save area. -/
def imageAt (m part site : Nat) : Nat := saveArea m part (siteHs site) + (site % 256 / 16 % 8 * 16 + site % 16) * 0x68000

/-- The carriers of a placement table. -/
def carriersOf (t : FMap (BitVec 32)) : List Nat := (t.filter fun e => teValid e.2 && teCarrier e.2 == e.1).map (·.1)

/-- The carriers of a table on a half-span, with their sites. -/
def sitesOn (t : FMap (BitVec 32)) (hs : Nat) : List (Nat × Nat) :=
  ((carriersOf t).map fun c => (c, teSite (fget t c 0))).filter fun x => siteHs x.2 == hs

/-- The parked strands of a carrier with their numbers. -/
def parkedOf (p : Pier) : FMap Strand := p.strands.filter fun e => e.2.status == .parked

/-- An entry of the parked-run index: the place of the frame, logical pier, actor, in use, run. -/
def parkEntry (x : Strand) : List Byte :=
  bytesOfNat 8 (x.parkAt % 2 ^ 11 + x.lp.toNat * 2 ^ 11 + x.actor.toNat * 2 ^ 21 + 2 ^ 31 + x.runid.toNat * 2 ^ 32)

/-- The partition record of a half-span: the placement table, hold and cancel state, the number of parked runs and their index. -/
def partRecord (s : State) (m part hs : Nat) : List Byte :=
  let x := getPart s m part
  let l := sitesOn (if locOf s m part hs = .saved then x.savedTable else x.table) hs
  let ps := l.map fun c => getPier s (pkOf m part c.1)
  let runs := ps.flatMap fun p => (parkedOf p).map (·.2)
  padTo (226 * 64) (((List.range 1024).flatMap fun i => bytesOfNat 4 (entryOf s m part i).toNat) ++
    bytesOfNat 8 (b2n (ps.any (·.hold)) + 2 * b2n (ps.any (·.debugHalted))) ++
    padTo 64 (((ps.flatMap (·.cancels)).eraseDups.map fun c => bytesOfNat 8 (c.id + c.level * 2 ^ 12 + 2 ^ 31)).flatten) ++
    bytesOfNat 8 runs.length ++ (runs.take 1280).flatMap parkEntry)

/-- The partition record of a half-span written (R226). -/
def writeRecord (s : State) (m part hs : Nat) : State :=
  putRows s m (saveArea m part hs + 0x3510000) ((rowsOfBytes 226 (partRecord s m part hs)).map fun v => (v, false))

/-- Every pier image of a half-span and the partition record written to the save area (R226, R229). -/
def saveImages (s : State) (m part hs : Nat) : State :=
  let l := sitesOn (getPart s m part).table hs
  writeRecord (l.foldl (fun t c => putRows t m (imageAt m part c.2) (imageRows s (pkOf m part c.1))) s) m part hs

/-- The leases of the lines of an area that the culverts read end (R161). -/
def areaTouch (s : State) (m l rows : Nat) : State := (List.range rows).foldl (fun s i => endLease s m (dramLoc 2 (l + 64 * i))) s

/-- A pier read back from its image. -/
def imageBack (s : State) (pk m l : Nat) : State :=
  let p := getPier s pk
  setPier (areaTouch s m l 6656) pk (framesBack s pk m (l + 0x58000) (inboxBack s pk (l + 0x50000) (codeBack s m (l + 0x40000) (spadBack s m l p))))

/-- Every pier of a half-span read back from the images where they were saved (R229). -/
def loadImages (s : State) (m part hs : Nat) : State :=
  (sitesOn (getPart s m part).savedTable hs).foldl (fun s c => imageBack s (pkOf m part c.1) m (imageAt m part c.2)) s

/-! Streams (R226). -/

/-- A command in 64 bytes: its words, trigger value, actor, strand, kind and run. -/
def cmdBytes (c : StreamCmd) : List Byte :=
  [c.q0, c.q1, c.q2, c.q3, c.q4, c.q5, c.t].flatMap wordBytes ++
    bytesOfNat 8 (c.actor % 64 + c.strand % 8 * 2 ^ 6 + c.kind.toNat * 2 ^ 9 + c.bundle.toNat * 2 ^ 16 + c.runid.toNat * 2 ^ 32)

/-- A stream context in 4 KiB: command words, position, and of an SXCH the last completed chunk. -/
def contextBytes (t : Stream) : List Byte :=
  padTo 4096 (cmdBytes t.cmd ++ [t.total, t.next, t.low, t.landed, t.rd / 1024, t.wlow].flatMap fun n => bytesOfNat 8 n)

/-- The place of the `i`th saved context of an abutment. -/
def ctxAreaAt (m part a i : Nat) : Nat := saveArea m part (a / 16) + 0x3400000 + (a % 16 * 16 + i) * 4096

/-- The place of the command queue of an abutment. -/
def queueAreaAt (m part a : Nat) : Nat := saveArea m part (a / 16) + 0x3500000 + a % 16 * 4096

/-- The streams that an abutment has saved for a partition. -/
def savedFor (x : Abut) (part : Nat) : List Stream := (x.savedCtxs.filter fun c => c.1 == part).map (·.2)

/-- The commands that it has saved for it, with their places. -/
def queuedFor (x : Abut) (part : Nat) : List (Nat × StreamCmd) := (x.savedQueue.filter fun c => c.1 == part).map (·.2)

/-- What an abutment holds of a partition that is out written to its save area (R221 step 4, R226). -/
def saveStreams (s : State) (m part a : Nat) : State :=
  let x := getAbut s m a
  let s1 := (savedFor x part).zipIdx.foldl (fun s t =>
    putRows s m (ctxAreaAt m part a t.2) ((rowsOfBytes 64 (contextBytes t.1)).map fun v => (v, false))) s
  (queuedFor x part).foldl (fun s c => putRows s m (queueAreaAt m part a + 64 * c.1) [(natOfBytes (cmdBytes c.2), false)]) s1

/-- A command read back from 64 bytes; what names it in the model, its logical pier, move word and slot are kept beside. -/
def cmdFrom (l : List Byte) (c : StreamCmd) : StreamCmd :=
  let w (i : Nat) : Word := BitVec.ofNat 64 (fieldAt l (8 * i) 8)
  let z := fieldAt l 56 8
  if l.take 64 = cmdBytes c then c
  else
    { c with
      q0 := w 0, q1 := w 1, q2 := w 2, q3 := w 3, q4 := w 4, q5 := w 5, t := w 6, actor := z % 64, strand := z / 2 ^ 6 % 8
      kind := BitVec.ofNat 3 (z / 2 ^ 9), bundle := BitVec.ofNat 12 (z / 2 ^ 16), runid := BitVec.ofNat 32 (z / 2 ^ 32) }

/-- A stream context read back (R226, R228): its command words and position. -/
def streamFrom (l : List Byte) (t : Stream) : Stream :=
  let n (i : Nat) : Nat := fieldAt l (64 + 8 * i) 8
  if l.take 112 = (contextBytes t).take 112 then t
  else { t with cmd := cmdFrom l t.cmd, total := n 0, next := n 1, low := n 2, landed := n 3, wlow := n 5 }

/-- What an abutment reads from the save area of a partition that has come back (R228). -/
def loadContexts (s : State) (m part a : Nat) : List Stream :=
  (savedFor (getAbut s m a) part).zipIdx.map fun t => streamFrom (areaRead s m (ctxAreaAt m part a t.2) 112) t.1

/-- The commands that it reads there. -/
def loadQueue (s : State) (m part a : Nat) : List StreamCmd :=
  (queuedFor (getAbut s m a) part).map fun c => cmdFrom (areaRead s m (queueAreaAt m part a + 64 * c.1) 64) c.2

/-- The leases of the lines that it reads end (R161). -/
def loadTouch (s : State) (m part a : Nat) : State :=
  let n := (savedFor (getAbut s m a) part).length
  (queuedFor (getAbut s m a) part).foldl (fun s c => areaTouch s m (queueAreaAt m part a + 64 * c.1) 1)
    ((List.range n).foldl (fun s i => areaTouch s m (ctxAreaAt m part a i) 2) s)

/-! Parked runs (R231). -/

/-- The place of a parked frame. -/
def parkedAt (m part hs i : Nat) : Nat := saveArea m part hs + 0x3600000 + 8192 * i

/-- The half-span of a pier's image in the save area: by the table it was saved under where its partition is out. -/
def parkHs (s : State) (pk : Nat) : Nat :=
  let x := getPart s (pkMod pk) (pkPart pk)
  let h := siteHs (siteOf s pk)
  if fget x.loc h .none = .saved then siteHs (teSite (fget x.savedTable (pkLp pk) 0)) else h

/-- Whether a parked run is frozen: its actor is. -/
def parkedFrozen (p : Pier) (x : Strand) : Bool := (pierActor p x.actor.toNat).st == .frozen

/-- The frame of a parked strand written at its place. -/
def parkFrame (s : State) (m part hs pk st : Nat) : State :=
  let x := getStrand s pk st
  putRows s m (parkedAt m part hs x.parkAt) ((rowsOfBytes 128 (frameBytes x [] (parkedFrozen (getPier s pk) x))).map fun v => (v, false))

/-- Parked strands written to the parked area in their order, from a place on. -/
def parkFrames (s : State) (m part hs : Nat) (pk : Nat) (first : Nat) : State :=
  (parkedOf (getPier s pk)).zipIdx.foldl (fun s x =>
    parkFrame (adjStrand s pk x.1.1 fun y => { y with parkAt := first + x.2 }) m part hs pk x.1.1) s

/-- A parked strand read back from its frame. -/
def unpark (s : State) (pk : Nat) (x : Strand) : Strand :=
  { frameInto (getRows s (pkMod pk) (parkedAt (pkMod pk) (pkPart pk) (parkHs s pk) x.parkAt) 128) x (parkedFrozen (getPier s pk) x) with
    status := x.status }

end Sys2Proof.Machine
end

