-- ==== Sys2Proof/Machine/Halts.lean ====
section
/-!
DEFINITION. Halts, shadow swaps, eviction and restore of partitions, gang schedules, the save limit and hung piers (R52, R194,
R197, R202 to R205, R220 to R231, R234 to R236, R239, R240).
-/

namespace Sys2Proof.Machine

/-! Coming back (R214, R227 to R229, R235). -/

/-- The record of code 0x17 for an actor lost with its pier: to its fault actor, or to actor 63 where that is itself or was on
the lost pier (R210, R234). Where no row was left for the pier its actor 63 is lost too, and the record goes to the host, as that
actor would forward it (log entry 72). -/
def lostRecord (s : State) (pk : Nat) (x : Nat × Nat × Word × BitVec 12) : State :=
  let lp := x.2.1
  let to_ : BitVec 28 := x.2.2.1.extractLsb' 0 28
  let redir := !(bitAt x.2.2.1 28) || (awMod to_ == pkMod pk && awPier to_ == lp)
  let w0 := faultW0 0x17 0 0 false true false redir false
  let dst := if redir then addrWord (pkMod pk) lp 63 else to_
  let w3 : Word := BitVec.ofNat 64 lp
  let w : List Word := [w0, 0, 0, w3, faultW4 s pk lp x.1 0, 0]
  if redir ∧ (getPier s pk).lost then
    sendFrame s (pkMod pk) 6 (jobOf s pk) 0 0 0 (msgBytes (deviceMsg s pk lp dst 31 3 5 x.2.2.2 6 w 0))
  else sendDevice s pk lp dst 31 3 5 x.2.2.2 6 w 0 x.1 0 w3 0

/-- What an actor lost with its pier is owed once its partition is back (R235 step 5). -/
def restartOne (s : State) (pk : Nat) (x : Nat × Nat × Word × BitVec 12) : State :=
  let p := getPier s pk
  let s1 := lostRecord s pk x
  if p.lost = false ∧ (pierActor p x.1).st ≠ .free ∧ (findHandler p x.1 30).isSome then
    sendDevice s1 pk x.2.1 (addrWord (pkMod pk) x.2.1 x.1) 30 3 0 (pierActor p x.1).graph 2 [1, BitVec.ofNat 64 x.2.1] 0 63 0 0 0
  else s1

/-- What every lost actor of a pier is owed. -/
def restartAll (s : State) (pk : Nat) : State :=
  (getPier s pk).restart.foldl (fun s x => restartOne s pk x) (adjPier s pk fun p => { p with restart := [] })

/-- A halted pier goes on: its suspended runs replay their awaiting requests, its outbox is sent, cancels that it owes are
done (R68, R151, R229). -/
def resumePier (s : State) (pk : Nat) : State :=
  let s1 := adjPier s pk fun p =>
    { p with halting := false, haltCount := 0, fenced := false, outbox := p.outbox.map fun e => { e with retry := false } }
  let s2 := (List.range 63).foldl (fun s a => if (getActor s pk a).owed = [] ∨ actorOut s pk a = true then s else owedCancels s pk a) s1
  let s3 := (List.range 8).foldl (fun s st => if (getStrand s pk st).status = .running then replayAwaiting s pk st else s) s2
  pumpOutbox (restartAll s3 pk) pk

/-- The tiles and accumulators of a site are no longer current (R227). -/
def clearTiles (s : State) (k : Nat) : State :=
  adjSite s k fun x => { x with tiles := x.tiles.map fun t => (t.1, { t.2 with current := false }) }

/-- The resident partition of a half-span. -/
def residentAt (s : State) (m hs : Nat) : Option Nat :=
  (List.range 8).find? fun p => fget (getPart s m p).loc hs .none == .piers
/-- The partition in the shadow stores of a half-span. -/
def shadowAt (s : State) (m hs : Nat) : Option Nat :=
  (List.range 8).find? fun p => fget (getPart s m p).loc hs .none == .shadow
/-- Where they are from now on. -/
def setLoc (s : State) (m part hs : Nat) (l : Loc) : State := adjPart s m part fun p => { p with loc := fset p.loc hs l }
/-- The carriers of a partition on a half-span. -/
def piersAt (s : State) (m part hs : Nat) : List Nat := piersOf s m part (· == hs)

/-- A partition becomes resident on a half-span (R227, R228): its streams are loaded within 2,000 cycles. -/
def becomeResident (s : State) (m part hs : Nat) : State :=
  let s1 := setLoc s m part hs .piers
  let l := piersAt s1 m part hs
  let s2 := l.foldl (fun s pk => resumePier (clearTiles s (siteKey s pk)) pk) s1
  (List.range 16).foldl (fun s i =>
    tick1 (schedule s (s.cycle + 1 + Config.latency s.fresh % 2000) (.streamContextLoad m (hs * 16 + i) part))) s2

/-! Halts (R221, R234). -/

/-- Who a halt waits for on a half-span: the carriers, and the abutments as 1,024 on. -/
def haltWho (s : State) (m part hs : Nat) : List (Nat × Nat) :=
  if locOf s m part hs = .piers then
    ((piersAt s m part hs).filter fun pk => !(getPier s pk).fenced && !(getPier s pk).lost).map (fun pk => (part, pkLp pk)) ++
      (List.range 16).map fun i => (part, 1024 + hs * 16 + i)
  else []

/-- A halt begins (R221 step 1): it is sent to every site and abutment of its half-spans. -/
def startHalt (s : State) (m : Nat) (parts : List (Nat × List Nat)) (next : HaltNext) : State :=
  let who := parts.flatMap fun x => x.2.flatMap fun hs => haltWho s m x.1 hs
  let h : Halt := { parts, waiting := who, start := s.cycle, next }
  let s1 := adjMod s m fun x => { x with halts := x.halts ++ [h] }
  if who = [] then nowDo s1 (.haltAck m 0 4096)
  else
    who.foldl (fun s x =>
      if x.2 < 1024 then
        let pk := pkOf m x.1 x.2
        launch s (latency s m .die m (placeOf s pk)) (.haltAtPier pk)
      else launch s (latency s m .die m (.abut (x.2 - 1024))) (.haltAtAbutment m x.1 (x.2 - 1024))) s1

/-- A partition is halted on a half-span (R221). -/
def execPartitionHalt (mod part hs : Nat) (s : State) : Out := go (startHalt s mod [(part, [hs])] .stay)

/-- Whether some halt of a module waits for a pier or abutment. -/
def haltWaits (s : State) (m : Nat) (x : Nat × Nat) : Bool := (getMod s m).halts.any fun h => h.waiting.contains x

/-- Whether a strand has let all its issued work land (R221 step 3). -/
def strandDrained (x : Strand) : Bool :=
  x.pend.all (fun p => p.unit == 11 || (p.unit == 10 && p.r.isNone && p.sample.isNone)) &&
    (entriesOf x).all fun e => e.kind == .sg || (e.kind == .gm && !e.issued)

/-- Whether a pier has drained (R221 step 3). -/
def pierDrained (p : Pier) : Bool :=
  p.strands.all (fun e => strandDrained e.2) && p.late == [] && p.creating == [] && p.divBusy.isNone && p.mrun.isNone &&
    (match p.mq with | [] => true | e :: _ => !e.released)

/-- The walks of a pier's requests abandoned (R221 step 3). -/
def abandonWalks (s : State) (pk : Nat) : State :=
  { s with walks := s.walks.filter fun w => match w.2 with
      | some k => (match k.who with | .gm q _ _ _ => q != pk | _ => true)
      | none => true }

/-- A halt at a pier (R221 steps 2, 3 and 5): it stops at the bundle boundary, drains and acknowledges. -/
def execHaltAtPier (pk : Nat) (s : State) : Out :=
  let m := pkMod pk
  go (if haltWaits s m (pkPart pk, pkLp pk) = false then s
    else
      let s1 :=
        if (getPier s pk).halting then s
        else
          schedule (abandonWalks (adjPier s pk fun p => { p with halting := true, haltCount := s.cycle }) pk)
            (s.cycle + saveLimit (getPier s pk)) (.saveLimitExpiry pk)
      if pierDrained (getPier s1 pk) then launch s1 (latency s m (placeOf s pk) m .die) (.haltAck m (pkPart pk) (pkLp pk))
      else schedule s1 (s.cycle + 1) (.haltAtPier pk))

/-- Whether a stream may be saved (R221 step 4): everything it sent is answered, and an exchange is at the end of a chunk. What was
refused is sent again after the return (R222). -/
def streamAtRest (t : Stream) : Bool :=
  t.unacked.all (t.resend.contains ·) && decide (t.adds ≤ t.addsBack) &&
    (cmdKind t.cmd != 5 || t.phase != .active || t.next % 1024 == 0 || t.next == t.total)

/-- A stream as it is saved: no translation, nothing in hand (R226). -/
def savedForm (t : Stream) : Stream :=
  { t with walk := none, walked := [], extents := [], scan := scanBase t, ahead := scanBase t, line := none, cross := [], wcross := [], part := [], partBad := false }

/-- Whether a calendar entry sends again what a stream of an abutment has been refused. -/
def isResend (m a : Nat) (t : Stream) (e : Nat × Instr) : Bool :=
  match e.2 with
  | .flitResend f => f.mod == m && f.abut == a && f.sid == t.sid
  | .streamIncrement m' a' _ c => m' == m && a' == a && c.tok == t.cmd.tok
  | .streamOpenRetry m' a' sid => m' == m && a' == a && sid == t.sid
  | _ => false

/-- A halt at an abutment (R221 steps 4 and 5): the partition's streams and commands are saved. -/
def execHaltAtAbutment (mod part abut : Nat) (s : State) : Out :=
  go (if haltWaits s mod (part, 1024 + abut) = false then s
    else
      let s1 := adjAbut s mod abut fun x => { x with haltedFor := part :: x.haltedFor.filter (· != part) }
      let x := getAbut s1 mod abut
      let mine (c : StreamCmd) : Bool := pkMod c.pk == mod && pkPart c.pk == part
      let l := x.ctxs.filterMap fun c => match c.2 with | some t => if mine t.cmd then some t else none | none => none
      if l.all streamAtRest then
        let s2 := adjAbut { s1 with cal := s1.cal.filter fun e => !l.any fun t => isResend mod abut t e } mod abut fun y =>
          { y with
            ctxs := y.ctxs.filter fun c => match c.2 with | some t => !mine t.cmd | none => false
            queue := y.queue.filter fun c => !mine c
            savedCtxs := y.savedCtxs ++ l.map fun t => (part, savedForm t)
            savedQueue := y.savedQueue ++ (y.queue.filter mine).zipIdx.map fun c =>
              (part, maxList ((y.savedQueue.filter fun d => d.1 == part).map fun d => d.2.1 + 1) + c.2, c.1) }
        let s3 := saveStreams s2 mod part abut
        launch s3 (latency s mod (.abut abut) mod .die) (.haltAck mod part (1024 + abut))
      else schedule s1 (s.cycle + 1) (.haltAtAbutment mod part abut))

/-- Event 0x0015 of a pier that acknowledged late (R234 step 2, R263); its data is the logical pier (DESIGN CHOICE, log entry 84). -/
def overrunEvent (s : State) (m : Nat) (part who : Nat) : State :=
  let pk := pkOf m part who
  if who < 1024 ∧ 16800 < s.cycle - (getPier s pk).haltCount ∧ (getPier s pk).halting then
    sendEvent s m 0x15 (jobOf s pk) (wordBytes (BitVec.ofNat 64 who))
  else s

/-! Rows (R12, R194, R235, R266). -/

/-- Event 0x0012 of a spare applied (R263, R266); its data is the kind and the unit word (DESIGN CHOICE, log entry 84). -/
def spareEvent (s : State) (m kind : Nat) (unit : Word) : State :=
  sendEvent s m 0x12 0 (wordBytes (BitVec.ofNat 64 kind) ++ wordBytes unit)

/-- A site row moved onto the spare row of its span: the contexts go with it, the slices, tiles and cached translations of the
old row stay behind. -/
def moveRow (s : State) (m span row : Nat) : State :=
  let s1 := adjMod s m fun x => { x with siteMap := fset x.siteMap (span * 16 + row) (some 16) }
  let s2 := adjVeiv s1 m fun v => { v with pierSpared := fset v.pierSpared span (some row) }
  let s3 := { s2 with sites := s2.sites.filter fun x => !(x.1 / 1024 == m && x.1 % 1024 / 16 == span * 16 + row) }
  spareEvent s3 m 1 (BitVec.ofNat 64 (span + row * 2 ^ 8))

/-- The partition contexts that stand on a site, in the pier or its shadow store. -/
def contextsOn (s : State) (m site : Nat) : List Nat :=
  (s.piers.map (·.1)).filter fun pk =>
    pkMod pk == m && siteOf s pk == site && teCarrier (entryOf s m (pkPart pk) (pkLp pk)) == pkLp pk &&
      (pierLoc s pk == .piers || pierLoc s pk == .shadow)

/-- The half-spans of a row with the partitions resident there. -/
def rowParts (s : State) (m span row : Nat) : List (Nat × List Nat) :=
  let hs := span * 2 + row / 8
  match residentAt s m hs with | some p => [(p, [hs])] | none => []

/-- A fenced site's contexts on their new row, loaded from their images; without a spare row the logical pier is lost (R234 step 4,
R235 steps 3 to 5). -/
def applyRow (s : State) (m span row : Nat) : State :=
  let sites := (List.range 16).map fun c => span * 256 + row * 16 + c
  let bad := (sites.filter fun k => (contextsOn s m k).any fun pk => (getPier s pk).fenced).flatMap (contextsOn s m)
  match fget (getMod s m).veiv.pierSpared span none with
  | none => (bad.foldl (fun s pk => reloadPier s pk) (moveRow s m span row))
  | some _ => bad.foldl (fun s pk => adjPier s pk fun p =>
      { p with lost := true, fenced := false, strands := [], inbox := [], outbox := [], mq := [], mrun := none, restart := p.restart ++ lostActors p }) s

/-- An abutment replaced by its edge's spare: its streams keep their numbers (R266). -/
def applyAbut (s : State) (m a : Nat) : State :=
  spareEvent (adjVeiv s m fun v => { v with abutSpared := fset v.abutSpared (a / 16) (some a) }) m 2 (BitVec.ofNat 64 a)

/-- A pseudo-channel replaced by a spare of its stack: the bytes and their marks are copied (R266). -/
def applyChannel (s : State) (m stack pc : Nat) : State :=
  spareEvent (adjVeiv s m fun v => { v with pcSpared := fset v.pcSpared stack (fget v.pcSpared stack [] ++ [pc]) }) m 4
    (BitVec.ofNat 64 (stack + pc * 2 ^ 8))

/-- The piers and abutments of a halt that is undone go on where they were. -/
def haltUndo (s : State) (m : Nat) (parts : List (Nat × List Nat)) : State :=
  parts.foldl (fun s x => x.2.foldl (fun s hs =>
    if locOf s m x.1 hs ≠ .piers then s
    else
      let s1 := (piersAt s m x.1 hs).foldl (fun s pk => resumePier s pk) s
      (List.range 16).foldl (fun s i => nowDo s (.streamContextLoad m (hs * 16 + i) x.1)) s1) s) s

/-- The end of a halt (R221): what was to follow it. -/
def haltDone (s : State) (m : Nat) (h : Halt) : State :=
  match h.next with
  | .stay => s
  | .back => haltUndo s m h.parts
  | .steps l => l.foldl (fun s x => schedule s (s.cycle + x.1) x.2) s
  | .row span row => haltUndo (applyRow s m span row) m h.parts
  | .abut a => haltUndo (applyAbut s m a) m h.parts
  | .channel st pc => haltUndo (applyChannel s m st pc) m h.parts

/-- One halt less: those that nobody is waited for end. -/
def settleHalts (s : State) (m : Nat) : State :=
  let done := (getMod s m).halts.filter fun h => h.waiting == []
  done.foldl (fun s h => haltDone s m h) (adjMod s m fun x => { x with halts := x.halts.filter fun h => h.waiting != [] })

/-- An acknowledgement reaches the job controller; the halt ends with the last one (R221 step 5). -/
def haltAcked (s : State) (m : Nat) (x : Nat × Nat) : State :=
  settleHalts (adjMod s m fun y => { y with halts := y.halts.map fun h => { h with waiting := h.waiting.filter (· != x) } }) m

/-- A pier or abutment has acknowledged a halt (R221, R234). -/
def execHaltAck (mod part who : Nat) (s : State) : Out :=
  go (haltAcked (if haltWaits s mod (part, who) then overrunEvent s mod part who else s) mod (part, who))

/-- A pier is fenced, and the host hears of it (R234, R235, R261). -/
def fencePier (s : State) (pk : Nat) : State :=
  if (getPier s pk).fenced then s
  else
    sendEvent (adjPier s pk fun p => { p with fenced := true }) (pkMod pk) 4 (jobOf s pk) (wordBytes (BitVec.ofNat 64 (pkLp pk)))

/-- Whether a pier has not acknowledged a cancel within its save limit (R235). -/
def cancelOverdue (s : State) (pk : Nat) : Bool :=
  s.mods.any fun m => match m.2.cancelRun with
    | some r => r.piers.contains pk && decide (r.start + saveLimit (getPier s pk) ≤ s.cycle)
    | none => false

/-- The save limit of a halt (R234): a pier that has not acknowledged is fenced, its row is moved, the halt goes on without
it. A pier that has not acknowledged a cancel is hung (R235). -/
def execSaveLimitExpiry (pk : Nat) (s : State) : Out :=
  let m := pkMod pk
  let p := getPier s pk
  let x := (pkPart pk, pkLp pk)
  go (if haltWaits s m x ∧ p.halting = true ∧ saveLimit p ≤ s.cycle - p.haltCount then
      let s1 := fencePier s pk
      let site := siteOf s pk
      haltAcked (applyRow s1 m (site / 256) (site / 16 % 16)) m x
    else if cancelOverdue s pk then nowDo s (.hungPier pk)
    else s)

/-- A hung pier (R210, R235): it is fenced, the resident partition of its half-span is halted without it, its row is moved. -/
def execHungPier (pk : Nat) (s : State) : Out :=
  let site := siteOf s pk
  let m := pkMod pk
  go (if (getPier s pk).fenced ∨ (getPier s pk).lost then s
    else startHalt (fencePier s pk) m (rowParts s m (site / 256) (site / 16 % 16)) (.row (site / 256) (site / 16 % 16)))

/-- The health probe (R235): a pier whose service actor cannot answer is hung after its save limit. -/
def execHealthProbe (mod : Nat) (s : State) : Out :=
  let l := (s.piers.map (·.1)).filter fun pk =>
    pkMod pk == mod && pierLoc s pk == .piers && (getActor s pk 63).st == .frozen && !(getPier s pk).fenced && !(getPier s pk).lost
  go (l.foldl (fun s pk => schedule s (s.cycle + saveLimit (getPier s pk)) (.hungPier pk)) s)

/-! Swaps, eviction, restore (R202, R228 to R230). -/

/-- Whether a partition may leave a half-span: halted, with nobody waited for. -/
def haltedAt (s : State) (m part hs : Nat) : Bool :=
  (piersAt s m part hs).all (fun pk => (getPier s pk).halting || (getPier s pk).lost) &&
    (getMod s m).halts.all fun h => h.waiting.all fun x => (haltWho s m part hs).contains x == false

/-- The half-spans whose switch is under way, without one that has ended; a late switch is reported, and the next slice that
waits begins (R205, R236). -/
def switchEnds (s : State) (m hs : Nat) : State :=
  let x := getMod s m
  if x.gangBusy.contains hs = false then s
  else
    let rest := x.gangBusy.filter (· != hs)
    if rest ≠ [] then adjMod s m fun y => { y with gangBusy := rest }
    else
      let s1 := match x.gangLate with
        | some (start, limit) =>
          if start + limit < s.cycle then
            sendEvent s m 2 0 (wordBytes (BitVec.ofNat 64 (s.cycle - (start + limit))))
          else s
        | none => s
      let s2 := adjMod s1 m fun y => { y with gangBusy := [], gangLate := none }
      if x.gangQueue = [] then s2 else nowDo s2 (.gangSliceStart m 16)

/-- A shadow swap on a half-span (R228): the partition held in the shadow stores and the halted one change places. -/
def execShadowSwap (mod hs part : Nat) (s : State) : Out :=
  go (if locOf s mod part hs ≠ .shadow then s
    else
      match residentAt s mod hs with
      | none => switchEnds (becomeResident s mod part hs) mod hs
      | some q =>
        if haltedAt s mod q hs = false then s
        else switchEnds (becomeResident (setLoc s mod q hs .shadow) mod part hs) mod hs)

/-- The handle of a stream that comes back under another number follows it. -/
def renumber (s : State) (m a : Nat) (t : Stream) (sid : Nat) : State :=
  match streamPier s t.cmd with
  | some pk =>
    (match handleOf (getPier s pk) m a t.sid with
     | some h => adjPier s pk fun p => { p with handles := fset p.handles h.1 (some { h.2 with sid := sid }) }
     | none => s)
  | none => s

/-- What a stream was refused before it was saved is sent again, a flit of a stream that ends apart (R222). -/
def resendAllOf (s : State) (m a : Nat) (t : Stream) : State :=
  let n := t.adds
  let s1 :=
    if t.phase = .ending then setCtx s m a { t with unacked := [], resend := [], held := [], addsBack := 0 }
    else t.resend.foldl (fun s i => schedule s (s.cycle + 1) (.flitResend (keptFlit m a t i))) (setCtx s m a { t with addsBack := 0 })
  (List.range n).foldl (fun s _ => schedule s (s.cycle + 1) (.streamIncrement m a t.sid t.cmd)) s1

/-- Whether the exchange buffer of an abutment has room for the chunks that a saved exchange holds (R17). -/
def loadRoom (x : Abut) (t : Stream) : Bool :=
  let l := x.ctxs.filterMap fun c => c.2.map xchHolds
  decide ((l.map (·.1)).sum + (xchHolds t).1 ≤ 2 ∧ (l.map (·.2)).sum + (xchHolds t).2 ≤ 2)

/-- A saved stream loaded into a free context (R228): its own where that is free, with the room that its exchange holds. An exchange that has
met its partner waits for its own, which the partner's flits name. One that was opening opens again unless its handle has been
granted; one that is ending ends. -/
def loadStream (s : State) (m a : Nat) (t : Stream) : Option State :=
  let x := getAbut s m a
  let own := (fget x.ctxs t.sid none).isNone
  match (if own then some t.sid else freeCtx x) with
  | none => none
  | some sid =>
    if loadRoom x t = false ∨ (own = false ∧ t.peer.isSome) then none
    else
    let s1 := if own then s else renumber s m a t sid
    let u := { t with sid := sid }
    let s2 := resendAllOf s1 m a u
    some (match u.phase with
      | .opening =>
        let granted := match streamPier s2 u.cmd with | some pk => (handleOf (getPier s2 pk) m a sid).isSome | none => false
        let v := { u with openOut := false, addsBack := 0 }
        if granted then streamBegin s2 m a v
        else launch (setCtx s2 m a { v with openOut := true }) (streamLat s2 m a u.cmd) (.streamOpen m a sid)
      | .pairing => nowDo s2 (.sxchPair m a sid)
      | .ending =>
        settleStream (match getCtx s2 m a sid with | some v => setCtx s2 m a { v with openOut := false } | none => s2) m a sid
      | _ => s2)

/-- Saved streams loaded in turn while contexts are free; those left over stay saved. -/
def loadStreams (s : State) (m a : Nat) : List (Nat × Stream) → State
  | [] => s
  | x :: l =>
    match loadStream s m a x.2 with
    | some s1 => loadStreams s1 m a l
    | none => loadStreams (adjAbut s m a fun y => { y with savedCtxs := y.savedCtxs ++ [x] }) m a l

/-- After a swap or a restore an abutment loads a partition's streams and commands, and they go on (R228). -/
def execStreamContextLoad (mod abut part : Nat) (s : State) : Out :=
  go (if locOf s mod part (abut / 16) ≠ .piers ∨ haltWaits s mod (part, 1024 + abut) = true then s
    else
      let s1 := adjAbut (loadTouch s mod part abut) mod abut fun y =>
        { y with
          haltedFor := y.haltedFor.filter (· != part)
          savedCtxs := y.savedCtxs.filter fun c => c.1 != part
          savedQueue := y.savedQueue.filter fun c => c.1 != part }
      let s2 := loadStreams s1 mod abut ((loadContexts s mod part abut).map fun t => (part, t))
      let s3 := adjAbut s2 mod abut fun y => { y with queue := loadQueue s mod part abut ++ y.queue }
      let s4 := acceptQueued s3 mod abut 64
      if (getAbut s4 mod abut).savedCtxs.any (fun c => c.1 == part) then
        schedule (saveStreams s4 mod part abut) (s.cycle + 1) (.streamContextLoad mod abut part)
      else s4)

/-- A halted partition, or one in the shadow stores, is written to its save area (R226, R229): its dirty logs are merged first, and where
a log's entry waits for a table node that is being moved the write waits with it (R149, R156). What the images do not code is kept beside
them (log entry 5). -/
def execPartitionEvict (mod part hs : Nat) (s : State) : Out :=
  let l := locOf s mod part hs
  go (if l = .shadow ∨ (l = .piers ∧ haltedAt s mod part hs = true) then
      let s1 := (piersAt s mod part hs).foldl (fun s pk => dlogMerge s pk (getPier s pk).dlogCount) s
      if (piersAt s mod part hs).any fun pk => 0 < (getPier s1 pk).dlogCount then schedule s1 (s.cycle + 4096) (.partitionEvict mod part hs)
      else adjPart (setLoc (saveImages s1 mod part hs) mod part hs .saved) mod part fun p => { p with savedTable := p.table }
    else s)

end Sys2Proof.Machine
end

