-- ==== Sys2Proof/Machine/Refold.lean ====
section
/-!
DEFINITION. Restore of a partition, also under another fold factor, parked runs, gang schedules (R185, R198 to R205, R229 to
R231, R236).
-/

namespace Sys2Proof.Machine

/-! Fold factors (R202, R230). -/

/-- The fold factor of a placement table. -/
def tableFold (t : FMap (BitVec 32)) : Nat := match t.find? fun e => teValid e.2 with | some e => teFold e.2 | none => 1

/-- The logical piers of a carrier in a placement table. -/
def groupOf (t : FMap (BitVec 32)) (c : Nat) : List Nat := (t.filter fun e => teValid e.2 && teCarrier e.2 == c).map (·.1)

/-- What a restore under another fold factor reads: the state, the partition, its old and its new table. -/
structure Fold where
  s : State
  m : Nat
  part : Nat
  old : FMap (BitVec 32)
  new : FMap (BitVec 32)

/-- The saved image that holds a logical pier; nothing is saved of one that the old table does not place. -/
def foldSrc (f : Fold) (lp : Nat) : Pier :=
  let e := fget f.old lp 0
  if teValid e then getPier f.s (pkOf f.m f.part (teCarrier e)) else {}

/-- Whether two tables place every logical pier alike: on the same carrier, in the same slot, on the same half-span. -/
def samePlaces (a b : FMap (BitVec 32)) : Bool :=
  (List.range 1024).all fun lp =>
    let x := fget a lp 0
    let y := fget b lp 0
    teValid x == teValid y && (!teValid x || (teFold x == teFold y && teSlot x == teSlot y && teCarrier x == teCarrier y &&
      siteHs (teSite (fget a (teCarrier x) 0)) == siteHs (teSite (fget b (teCarrier y) 0))))

/-- The job of the partition. -/
def foldImg (f : Fold) : JobImage := (getJob f.s (getPart f.s f.m f.part).job.toNat).img

/-- The job actors of a logical pier in its saved image. -/
def foldActors (f : Fold) (lp : Nat) : FMap Actor :=
  (foldSrc f lp).actors.filter fun a => a.1 != 63 && a.2.st != .free && a.2.lp.toNat == lp

/-- The sluices of a logical pier as the image declares them (R230). -/
def foldSluices (f : Fold) (lp : Nat) : List Nat :=
  let g := foldImg f
  let mine (m p : Nat) : Bool := m == f.m && p == lp
  ((g.sluices.filter fun l => mine l.mod l.pier).map (·.sluice) ++ (g.graphs.filter fun l => mine l.mod l.pier).map (·.sluice) ++
    if mine g.homeMod g.homePier then g.sluice :: (List.range g.phases).map fun p => g.sluice - 1 - p else []).eraseDups

/-- The scratchpad bytes of a logical pier: its sections and its actors' regions, as first byte and length. -/
def foldRanges (f : Fold) (lp : Nat) : List (Nat × Nat) :=
  ((foldImg f).spad.filter fun c => c.1 == f.m && c.2.1 == lp).map (fun c => (c.2.2.1, c.2.2.2.length)) ++
    (foldActors f lp).map fun a => (bits a.2.rgnbase 6 13 * 64, bits a.2.rgnlim 6 13 * 64 - bits a.2.rgnbase 6 13 * 64)

/-- The link entries of a logical pier's completion sluices. -/
def foldLinks (f : Fold) (lp : Nat) : List (Nat × Nat) :=
  ((foldSluices f lp).filter fun n => decide (496 ≤ n)).map fun n => (0x3FF00 + 8 * (n - 496), 8)

/-- Whether two actors of different logical piers claim a common byte. -/
def regionsMeet (a b : Actor) : Bool :=
  decide (bits a.rgnbase 6 13 < bits b.rgnlim 6 13 ∧ bits b.rgnbase 6 13 < bits a.rgnlim 6 13 ∧
    bits a.rgnbase 6 13 < bits a.rgnlim 6 13 ∧ bits b.rgnbase 6 13 < bits b.rgnlim 6 13)

/-- A clash of sluices, regions or actor indices in a group (R202). DESIGN CHOICE, log entry 74: a group with more handler entries than the
128 of a pier (R37) is refused as one that clashes. -/
def foldClash (f : Fold) (l : List Nat) : Bool :=
  let acts := l.flatMap (foldActors f)
  !decide (acts.map (·.1)).Nodup || !decide (l.flatMap (foldSluices f)).Nodup ||
    acts.any (fun a => acts.any fun b => a.2.lp != b.2.lp && regionsMeet a.2 b.2) ||
    decide (128 < (acts.map fun a =>
      ((foldSrc f a.2.lp.toNat).handlers.filter fun h => bitAt h.2 63 && bits h.2 57 6 == a.1).length).foldl (· + ·) 0)

/-- The entries of a map whose keys lie in some ranges, put over another map. -/
def mergeRanges {α : Type} (base src : FMap α) (l : List (Nat × Nat)) : FMap α :=
  (src.filter fun e => l.any fun r => decide (r.1 ≤ e.1 ∧ e.1 < r.1 + r.2)).foldl (fun b e => fset b e.1 e.2) base

/-- The saved runs of a group, oldest first: those of each logical pier, and the service runs of those that were carriers. DESIGN CHOICE,
log entry 74: runs of several old carriers, whose ids do not compare, are taken in the order of those ids. -/
def foldRuns (f : Fold) (l : List Nat) : List Strand :=
  (l.flatMap fun lp => ((foldSrc f lp).strands.filter fun e => e.2.status != .free && e.2.lp.toNat == lp).map (·.2)).mergeSort
    fun a b => decide (a.runid.toNat ≤ b.runid.toNat)

/-- A run put on a strand of a carrier: the requests it replays name their new place. -/
def placeRun (pk st : Nat) (x : Strand) : Strand :=
  { x with inf := x.inf.map fun e => (e.1, e.2.map fun i => { i with req := { i.req with pk := pk, strand := st } }) }

/-- Whether a saved run is frozen: its actor is. -/
def runFrozen (f : Fold) (x : Strand) : Bool := (pierActor (foldSrc f x.lp.toNat) x.actor.toNat).st == .frozen

/-- The runs of a group on its strands: the oldest service run, as an actor has one run at a time, then job runs up to the job-strand limit;
the rest are parked behind strand 7 (R202). DESIGN CHOICE, log entry 74: of service runs the rule says nothing apart. -/
def foldStrands (f : Fold) (pk : Nat) (l : List Nat) (limit : Nat) : FMap Strand :=
  let runs := foldRuns f l
  let srv := (runs.filter (·.service)).take 1
  let jobs := (runs.filter fun x => !x.service).take (min limit (8 - srv.length))
  let on := srv ++ jobs
  let parked := runs.filter fun x => !on.contains x
  ((List.range on.length).zip on).map (fun e => (e.1, placeRun pk e.1 e.2)) ++
    ((List.range parked.length).zip parked).map fun e => (8 + e.1, { placeRun pk (8 + e.1) e.2 with status := .parked })

/-- The messages of a group: those for each of its actors in the order of its queues, and those for actor 63 of its old carriers, urgent
ones first (R181), the rest in the order of their admission. -/
def foldInbox (f : Fold) (l : List Nat) : List Slot :=
  let srv := l.flatMap fun lp => (foldSrc f lp).inbox.filter fun x => x.msg.dact == 63 && teCarrier (fget f.old lp 0) == lp
  (l.flatMap fun lp => (foldSrc f lp).inbox.filter fun x => (foldActors f lp).any fun a => a.1 == x.msg.dact.toNat) ++
    srv.filter (·.urgent) ++ (srv.filter fun x => !x.urgent).mergeSort fun a b => decide (a.admitted ≤ b.admitted)

/-- Messages by their places in the inbox, in the order of their admission. -/
def foldOrder (l : List Slot) : List (Slot × Nat) := l.zipIdx.mergeSort fun a b => decide (a.1.admitted ≤ b.1.admitted)

/-- The places of the messages that take the service reserve: the first 16 of those that held it. -/
def foldReserve (l : List Slot) : List Nat := (((foldOrder l).filter (·.1.reserve)).take 16).map (·.2)

/-- The places of those that take the 496 ordinary slots, by admission (R202). -/
def foldPlain (l : List Slot) : List Nat := (((foldOrder l).filter fun x => !(foldReserve l).contains x.2).take 496).map (·.2)

/-- The slots of a carrier. -/
def foldHere (l : List Slot) : List Slot :=
  l.zipIdx.filterMap fun x =>
    if (foldReserve l).contains x.2 then some x.1 else if (foldPlain l).contains x.2 then some { x.1 with reserve := false } else none

/-- The messages beyond them, in the order of their admission. -/
def foldExtra (l : List Slot) : List Slot :=
  ((foldOrder l).filter fun x => !(foldReserve l).contains x.2 && !(foldPlain l).contains x.2).map (·.1)

/-- Messages beyond the slots of a carrier go to the spillways of their actors, ahead of what these hold (R202). DESIGN CHOICE, log entry 74:
those of an actor whose spillway is not enabled or has no room, and of actor 63, go there all the same. -/
def foldSpill (s : State) (pk : Nat) (l : List Slot) : State :=
  (l.map fun x => x.msg.dact.toNat).eraseDups.foldl (fun s d =>
    adjActor s pk d fun a =>
      let n := a.spilled.length - l.countP fun x => x.msg.dact.toNat == d
      { a with spilled := a.spilled.drop n ++ a.spilled.take n })
    (l.foldl (fun s x => spillPut s pk x.msg.dact.toNat x.msg x.admitted) s)

/-- The outbox entries of a group, with those its old carriers send for the device. -/
def foldOutbox (f : Fold) (l : List Nat) : List OutEntry :=
  (l.flatMap fun lp => (foldSrc f lp).outbox.filter fun e =>
    if e.actor = 63 then teCarrier (fget f.old lp 0) == lp else (foldActors f lp).any fun a => a.1 == e.actor).mergeSort
    fun a b => decide (a.tok ≤ b.tok)

/-- The strand that a run has moved to. -/
def newStrand (x : FMap Strand) (lp : Nat) (runid : BitVec 32) (old : Nat) : Nat :=
  ((x.find? fun e => e.2.lp.toNat == lp && e.2.runid == runid && !e.2.service).map (·.1)).getD old

/-- The windows of a group in their new places (R200). -/
def foldWins (f : Fold) (l : List Nat) : FMap Word :=
  let n := 8 / tableFold f.old
  let k := 8 / tableFold f.new
  l.foldl (fun w lp => (List.range (min n k)).foldl (fun w j =>
    fset w (teSlot (fget f.new lp 0) * k + j) (fget (foldSrc f lp).wins (teSlot (fget f.old lp 0) * n + j) 0)) w) []

/-- The image of a carrier built from the shares of its logical piers (R230). -/
def foldPier (f : Fold) (c : Nat) : Pier :=
  let l := groupOf f.new c
  let pk := pkOf f.m f.part c
  let base := foldSrc f ((l.find? fun lp => teValid (fget f.old lp 0)).getD c)
  let g := foldImg f
  let acts := l.flatMap (foldActors f)
  let strands := foldStrands f pk l base.jobStrands.toNat
  let ranges (lp : Nat) : List (Nat × Nat) := foldRanges f lp ++ foldLinks f lp
  let shared : List (Nat × Nat) := [(0x3F000, 0xF00), (0x3FF80, 0x80)]
  let granules (l : List (Nat × Nat)) : List (Nat × Nat) := l.map fun r => (r.1 / 64, (r.1 + r.2 + 63) / 64 - r.1 / 64)
  let q : Pier :=
    { base with
      strands := strands
      actors := acts.foldl (fun m a => fset m a.1 a.2)
        [(63, { pierActor base 63 with st := if strands.any fun e => e.2.service && e.2.status != .parked then .running else .idle })]
      handlers := base.handlers.filter fun h => bitAt h.2 63 && bits h.2 57 6 == 63
      inbox := foldHere (foldInbox f l)
      outbox := (foldOutbox f l).map fun e => { e with strand := newStrand strands (((acts.find? fun a => a.1 == e.actor).map fun a => a.2.lp.toNat).getD 0) e.runid e.strand }
      sluices := l.foldl (fun m lp => (foldSluices f lp).foldl (fun m n => fset m n (pierSluice (foldSrc f lp) n)) m) []
      credits := l.flatMap fun lp => (foldSrc f lp).credits.filter fun k => (foldActors f lp).any fun a => a.1 == k.actor
      mq := (l.flatMap fun lp => ((foldSrc f lp).mq.filter fun e => e.lp.toNat == lp).map fun e =>
        { e with strand := newStrand strands lp e.runid e.strand }).mergeSort fun a b => decide (a.tok ≤ b.tok)
      tileCfg := []
      claims := []
      wins := foldWins f l
      code := l.foldl (fun m lp => (g.code.filter fun k => k.1 == f.m && k.2.1 == lp).foldl (fun m k =>
        fset m k.2.2.1 (fget (foldSrc f lp).code k.2.2.1 0)) m) []
      codePoison := l.foldl (fun m lp => mergeRanges m (foldSrc f lp).codePoison
        ((g.code.filter fun k => k.1 == f.m && k.2.1 == lp).map fun k => (k.2.2.1 / 4, 1))) []
      spad := l.foldl (fun m lp => mergeRanges m (foldSrc f lp).spad (ranges lp)) (mergeRanges [] base.spad shared)
      spadPoison := l.foldl (fun m lp => mergeRanges m (foldSrc f lp).spadPoison (granules (ranges lp)))
        (mergeRanges [] base.spadPoison (granules shared))
      handles := ((l.flatMap fun lp => (foldSrc f lp).handles.filterMap fun h =>
        h.2.bind fun x => if awPier (x.q1.extractLsb' 0 28) = lp then some x else none).take 63).zipIdx.map fun x => (x.2, some x.1)
      restart := l.flatMap fun lp => (foldSrc f lp).restart.filter fun x => x.2.1 == lp }
  (acts.flatMap fun a => ((foldSrc f a.2.lp.toNat).handlers.filter fun h => bitAt h.2 63 && bits h.2 57 6 == a.1).map fun h => (a.1, h.2)).foldl
    (fun p h => putHandlers p h.1 [h.2]) q

/-- Parked runs of a carrier. -/
def parkedCount (p : Pier) : Nat := p.strands.countP fun e => e.2.status == .parked

/-- Whether a restore under another fold factor is refused: a clash, or more than 1,280 parked runs on a half-span (R202,
R231). -/
def foldRefused (f : Fold) : Bool :=
  let cs := carriersOf f.new
  cs.any (fun c => foldClash f (groupOf f.new c)) ||
    (List.range 8).any fun hs => decide (1280 < ((cs.filter fun c => siteHs (teSite (fget f.new c 0)) == hs).map fun c =>
      parkedCount (foldPier f c)).foldl (· + ·) 0)

/-- A stream command whose run has moved. -/
def foldCmd (f : Fold) (s : State) (c : StreamCmd) : StreamCmd :=
  if pkMod c.pk = f.m ∧ pkPart c.pk = f.part then
    let pk := pkOf f.m f.part (teCarrier (fget f.new c.lp 0))
    { c with pk := pk, strand := newStrand (getPier s pk).strands c.lp c.runid c.strand }
  else c

/-- The frames of parked runs written to the parked areas, carrier after carrier of each half-span (R231). -/
def parkAll (f : Fold) (s : State) : State :=
  (List.range 8).foldl (fun s hs =>
    ((sitesOn f.new hs).foldl (fun x c =>
      let pk := pkOf f.m f.part c.1
      (parkFrames x.1 f.m f.part hs pk x.2, x.2 + parkedCount (getPier x.1 pk))) (s, 0)).1) s

/-- The commands of an abutment whose runs have moved. -/
def foldAbut (f : Fold) (s : State) (x : Abut) : Abut :=
  { x with
    ctxs := x.ctxs.map fun c => (c.1, c.2.map fun t => { t with cmd := foldCmd f s t.cmd })
    queue := x.queue.map (foldCmd f s)
    savedCtxs := x.savedCtxs.map fun c => (c.1, { c.2 with cmd := foldCmd f s c.2.cmd })
    savedQueue := x.savedQueue.map fun c => (c.1, c.2.1, foldCmd f s c.2.2) }

/-- Every saved image of a partition merged onto its new carriers; the merged images, streams and parked frames take the places of the old
ones, from which each half-span is restored. -/
def refold (f : Fold) : State :=
  let s0 := (carriersOf f.new).foldl (fun s c => setPier s (pkOf f.m f.part c) (foldPier f c)) f.s
  let s1 := (carriersOf f.new).foldl (fun s c => foldSpill s (pkOf f.m f.part c) (foldExtra (foldInbox f (groupOf f.new c)))) s0
  let s2 := parkAll f (adjPart s1 f.m f.part fun p => { p with savedTable := f.new })
  let s3 := adjMod s2 f.m fun x => { x with abuts := x.abuts.map fun a => (a.1, foldAbut f s2 a.2) }
  let s4 := (getMod s3 f.m).abuts.foldl (fun s a => saveStreams s f.m f.part a.1) s3
  (List.range 8).foldl (fun s hs => saveImages s f.m f.part hs) s4

/-! Restore (R229). -/

/-- What a restore to the piers or the shadow stores does. -/
def restoreTo (s : State) (m part hs : Nat) : State :=
  let s0 := (piersAt s m part hs).foldl (fun s pk => adjPier s pk fun p => { p with ptrs := [] }) s
  if (residentAt s m hs).isNone then becomeResident s0 m part hs
  else if (shadowAt s m hs).isNone then setLoc s0 m part hs .shadow
  else s

/-- Whether the write of the partition that stands on a half-span waits for its dirty logs (R149, R229). -/
def evictWaits (s : State) (m hs : Nat) : Bool :=
  match residentAt s m hs with
  | some q => s.cal.any fun e => e.2 == .partitionEvict m q hs && decide (e.1 ≤ s.cycle + 4096)
  | none => false

/-- A saved partition is read back from its images on a half-span, into the piers or into the shadow stores (R229), once the partition that
leaves is written. Under another fold factor the images of every half-span are merged first, or the restore is refused and the host is told
(R202); and so they are under a new table of the same fold factor that names other carriers, groups or half-spans: DESIGN CHOICE, log
entry 74, as R202 speaks of the fold factor alone. -/
def execPartitionRestore (mod part hs : Nat) (s : State) : Out :=
  let x := getPart s mod part
  go (if locOf s mod part hs ≠ .saved then s
    else if evictWaits s mod hs then schedule s (s.cycle + 4096) (.partitionRestore mod part hs)
    else if samePlaces x.table x.savedTable then switchEnds (restoreTo (loadImages s mod part hs) mod part hs) mod hs
    else
      let f : Fold := { s := (List.range 8).foldl (fun s h => loadImages s mod part h) s, m := mod, part := part, old := x.savedTable, new := x.table }
      if x.loc.any (fun l => l.2 == .piers || l.2 == .shadow) then s
      else if foldRefused f then switchEnds (sendEvent s mod (Config.reportCode 0) x.job (wordBytes (BitVec.ofNat 64 part))) mod hs
      else switchEnds (restoreTo (refold f) mod part hs) mod hs)

/-- Whether a parked run may be restored: a job run under the job-strand limit, a service run once the service actor has none (R185, R202). -/
def parkedFits (p : Pier) (x : Strand) : Bool :=
  if x.service then (pierActor p 63).st != .running && (pierActor p 63).st != .frozen else decide (jobRuns p < p.jobStrands.toNat)

/-- A parked strand on a free one. -/
def placeParked (s : State) (pk st old : Nat) : State :=
  let p := getPier s pk
  let x := unpark s pk (pierStrand p old)
  let frozen := parkedFrozen p x
  let y := { placeRun pk st x with status := if x.service then .native else if frozen then .frozen else .running }
  let s1 := areaTouch s (pkMod pk) (parkedAt (pkMod pk) (pkPart pk) (parkHs s pk) x.parkAt) 128
  let s2 := writeRecord (setPier s1 pk { p with strands := fset (fdel p.strands old) st y }) (pkMod pk) (pkPart pk) (parkHs s pk)
  if x.service then
    schedule (adjActor s2 pk 63 fun a => { a with st := .running }) (s.cycle + 1) (serviceStep (pkOf (pkMod pk) (pkPart pk) x.lp.toNat) x.hdr)
  else if frozen then s2
  else replayAwaiting s2 pk st

/-- A parked run is restored on a free strand, the oldest first (R202, R231); the partition record follows. -/
def execParkedRunRestore (pk : Nat) (s : State) : Out :=
  let p := getPier s pk
  go (if residentOpen s pk = false then s
    else
      match freeStrand p, p.strands.find? fun e => e.2.status == .parked && parkedFits p e.2 with
      | some st, some e => placeParked s pk st e.1
      | _, _ => s)

/-! Gang schedules (R204, R205, R236). -/

/-- What a slice does on a half-span: the steps after the halt of the outgoing partition. -/
def sliceSteps (s : State) (m hs part : Nat) : List (Nat × Instr) :=
  match locOf s m part hs with
  | .shadow => [(416 + Config.latency s.fresh % 635, .shadowSwap m hs part)]
  | .saved =>
    let t := 1 + Config.latency s.fresh % 84000
    (match residentAt s m hs with | some q => [(t, Instr.partitionEvict m q hs)] | none => []) ++
      [(t + 1 + Config.latency (s.fresh + 1) % 84000, .partitionRestore m part hs)]
  | _ => []

/-- One half-span of a slice (R205): its resident partition is halted and the slice's brought in; one that is neither in the
shadow stores nor saved leaves it idle. A partition that stands there halted goes on. -/
def sliceOne (s : State) (m part hs : Nat) : State :=
  let steps := sliceSteps s m hs part
  let s1 := { s with fresh := s.fresh + 2 }
  match residentAt s m hs with
  | some q =>
    if q = part then (if (piersAt s m q hs).any (fun pk => (getPier s pk).halting) then haltUndo s m [(q, [hs])] else s)
    else
      let s2 := if steps = [] then s1 else adjMod s1 m fun x => { x with gangBusy := x.gangBusy ++ [hs] }
      startHalt s2 m [(q, [hs])] (if steps = [] then .stay else .steps steps)
  | none =>
    if steps = [] then s1
    else steps.foldl (fun s x => schedule s (s.cycle + x.1) x.2) (adjMod s1 m fun x => { x with gangBusy := x.gangBusy ++ [hs] })

/-- What the start of a slice does on the half-spans that it governs. -/
def startSlice (s : State) (m slice : Nat) : State :=
  let w := fget (getMod s m).gang slice 0
  let part := bits w 45 3
  let hss := (List.range 8).filter fun h => bitAt w (48 + h)
  let swap := hss.all fun h => locOf s m part h == .shadow || locOf s m part h == .piers
  if bitAt w 63 = false then s
  else hss.foldl (fun s h => sliceOne s m part h) (adjMod s m fun y => { y with gangLate := some (s.cycle, if swap then 17850 else 184800) })

/-- The slices that wait start in their order, up to one that switches something. -/
def startSlices : Nat → State → Nat → State
  | 0, s, _ => s
  | n + 1, s, m =>
    match (getMod s m).gangBusy, (getMod s m).gangQueue with
    | [], k :: l => startSlices n (startSlice (adjMod s m fun y => { y with gangQueue := l }) m k) m
    | _, _ => s

/-- A slice of the gang schedule starts behind those that wait (R205): a switch still under way on the module is run to its end first,
wherever it is (DEDUCED, log entry 73). A number that names no slice starts those that wait. -/
def execGangSliceStart (mod slice : Nat) (s : State) : Out :=
  let s1 := if bitAt (fget (getMod s mod).gang slice 0) 63 then adjMod s mod fun y => { y with gangQueue := y.gangQueue ++ [slice] } else s
  go (startSlices (getMod s1 mod).gangQueue.length s1 mod)

end Sys2Proof.Machine
end

