-- ==== Sys2Proof/Machine/Service.lean ====
section
/-!
DEFINITION. The work of the service actor on each message it takes: commands, forwarding (R53 to R55, R68, R156, R210 to R218).
-/

namespace Sys2Proof.Machine

/-! The frame of the work (log entry 4). -/

/-- The carrier that does a service run's work now (R199, R202). -/
def serviceHome (s : State) (pk : Nat) : Nat := (carrierPk s (pkMod pk) (pkPart pk) (pkLp pk)).getD pk

/-- The strand of the service run of a message. -/
def nativeOf (p : Pier) (g : Msg) : Option Nat := (p.strands.find? fun e => e.2.status == .native && e.2.hdr == g).map (·.1)

/-- The end of a service run: its strand is free, the service actor is idle. -/
def serviceEnd (s : State) (pk st : Nat) : State :=
  adjActor (adjPier s pk fun p => { p with strands := fset p.strands st { seed := (pierStrand p st).seed } }) pk 63 fun a =>
    { a with st := .idle }

/-- The work of a service run: it waits while its partition is out or halted; where it is over, its run ends. -/
def asService (s : State) (pk : Nat) (g : Msg) (i : Instr) (f : State → Nat → State × Bool) : State :=
  let k := serviceHome s pk
  match nativeOf (getPier s k) g with
  | none => s
  | some st =>
    if residentOpen s k = false ∨ (getPier s k).fenced = true then schedule s (s.cycle + 1) i
    else
      let r := f s k
      if r.2 then serviceEnd r.1 k st else r.1

/-- The work of a service run that reads or writes memory: where an entry of the tables is being moved it tries again, 4,096 cycles apart
and 16 times at most (R149, R154); then the walk has failed. -/
def asMemory (s : State) (k : Nat) (g : Msg) (i : Instr) (va : Word) (need : BitVec 3) (n : Nat) (f : State × Bool) : State × Bool :=
  match nativeOf (getPier s k) g with
  | some st =>
    let x := getStrand s k st
    if x.tries < 16 ∧ vaMoving s (pkMod k) (getPier s k).xlroot va need n = true then
      (schedule (adjStrand s k st fun y => { y with tries := y.tries + 1 }) (s.cycle + 4096) i, false)
    else f
  | none => f

/-- A command with its answer: the state after it and the result, in that order (R212). -/
def asCommand (s : State) (pk : Nat) (g : Msg) (i : Instr) (who : Nat) (f : State → Nat → State × Int) : State :=
  asService s pk g i fun s k => let r := f s k; (serviceReply r.1 k g r.2 who, true)

/-- The actor that a command names in p1[5:0]. -/
def cmdWho (g : Msg) : Nat := bits (payWord g 1) 0 6
/-- The issuing actor that a stream command names. -/
def cmdIssuer (g : Msg) : Nat := bits (payWord g 1) 26 6

/-- Whether an actor exists for commands. -/
def actorKnown (s : State) (k d : Nat) : Bool := d != 63 && (getActor s k d).st != .free

/-- Authorisation of commands 0x02 to 0x07 concerning an actor (R213). -/
def authorised (s : State) (k d : Nat) (g : Msg) : Bool :=
  let f := (getActor s k d).fault
  g.job == jobOf s k && (g.sact == 63 || (actorKnown s k d && bitAt f 28 && f.extractLsb' 0 28 == msgSrc g))

/-! Commands. -/

/-- Bytes of HBM as words, poison left aside. -/
def wordsOfBytes : List (Byte × Bool) → List Word
  | a :: b :: c :: d :: e :: f :: g :: h :: l =>
    BitVec.ofNat 64 ([a, b, c, d, e, f, g, h].foldr (fun x n => x.1.toNat + 256 * n) 0) :: wordsOfBytes l
  | _ => []

/-- The bytes of the description record at a virtual address, as far as its own length field can be read. -/
def recordLen (s : State) (k : Nat) (va : Word) : Nat :=
  match vaRead s (pkMod k) (getPier s k).xlroot va 64 with
  | .error _ => 64
  | .ok l => 64 + 8 * min 32 (lgetD (wordsOfBytes l) 7 0).toNat

/-- The description record at a virtual address with its handler entries: none where it cannot be read. -/
def recordAt (s : State) (k : Nat) (va : Word) : Option (List Word) :=
  let root := (getPier s k).xlroot
  match vaRead s (pkMod k) root va 64 with
  | .error _ => none
  | .ok l =>
    let w := wordsOfBytes l
    let n := (lgetD w 7 0).toNat
    if l.any (·.2) then none
    else if n = 0 ∨ 32 < n then some w
    else
      match vaRead s (pkMod k) root (va + 64) (8 * n) with
      | .error _ => none
      | .ok e => if e.any (·.2) then none else some (w ++ wordsOfBytes e)

/-- Command 0x01, create actor (R54, R55): any actor of the resident job may send it. It counts as an ACRT and waits for those
triggered before it (R276); the answer to one that fails names actor 0, as no actor is concerned (log entry 49). -/
def execCreateActor (pk : Nat) (g : Msg) (s : State) : Out :=
  go (asService s pk g (.createActor pk g) fun s k =>
    let va := payWord g 1
    if creationsOf (getPier s k) ≠ [] then (schedule s (max (s.cycle + 1) (lastCreation s k)) (.createActor pk g), false)
    else if va.toNat % 64 ≠ 0 then (serviceReply s k g (-4) 0, true)
    else if g.job ≠ jobOf s k then (serviceReply s k g (-3) 0, true)
    else
      asMemory s k g (.createActor pk g) va 4 (recordLen s k va)
        (match recordAt s k va with
         | none => (serviceReply s k g (-5) 0, true)
         | some w =>
           let r := createActor (vaTouch s (pkMod k) (getPier s k).xlroot va (recordLen s k va)) k g.dpier.toNat w
           (serviceReply r.2 k g r.1 r.1.toNat, true)))

/-- The frozen run of an actor. -/
def frozenRun (s : State) (k d : Nat) : Option Nat :=
  if (getActor s k d).st = .frozen then (runsOf (getPier s k) d).head? else none

/-- The next bundle of a resumed run (R214). -/
def resumePc (g : Msg) (x : Strand) : BitVec 12 :=
  match bits (payWord g 1) 8 2 with
  | 0 => x.stop
  | 1 => x.stop + 1
  | _ => (payWord g 1).extractLsb' 16 12

/-- Whether the fields of a resume are in range (R212, R214). -/
def resumeOk (g : Msg) : Bool :=
  let r := bits (payWord g 2) 0 6
  bits (payWord g 1) 8 2 != 3 && (!bitAt (payWord g 2) 6 || (decide (1 ≤ r) && decide (r ≤ 31)))

/-- A frozen run as a resume leaves it (R214): the register written, the next bundle set, the watchdog count cleared, and in mode 10 the DONE
it waits in gone (R300). -/
def resumed (g : Msg) (x : Strand) : Strand :=
  let y := if bitAt (payWord g 2) 6 then writeX x (bits (payWord g 2) 0 6) (Value.ofWord (payWord g 3)) else x
  { y with pc := resumePc g x, wd := 0, donePending := if bits (payWord g 1) 8 2 = 2 then false else x.donePending }

/-- A frozen run goes on (R214); of one that is parked the frame is changed where it lies, and it goes on once it is restored (R231). -/
def resumeRun (s : State) (k st : Nat) (g : Msg) : State :=
  let x := getStrand s k st
  if x.status = .parked then
    let m := pkMod k
    let hs := parkHs s k
    let s1 := setStrand (areaTouch s m (parkedAt m (pkPart k) hs x.parkAt) 128) k st (resumed g (unpark s k x))
    parkFrame (adjActor s1 k x.actor.toNat fun y => { y with st := .running }) m (pkPart k) hs k st
  else
    let s1 := adjStrand s k st (resumed g)
    replayAwaiting (returnFault s1 k st (getStrand s1 k st).pc) k st

/-- Command 0x02, resume (R214). -/
def execResume (pk : Nat) (g : Msg) (s : State) : Out :=
  go (asCommand s pk g (.resume pk g) (cmdWho g) fun s k =>
    let d := cmdWho g
    if resumeOk g = false then (s, -4)
    else if authorised s k d g = false then (s, -3)
    else if actorKnown s k d = false then (s, -1)
    else
      match frozenRun s k d with
      | none => (s, -2)
      | some st => (resumeRun s k st g, 0))

/-- Command 0x03, drop (R215). -/
def execDrop (pk : Nat) (g : Msg) (s : State) : Out :=
  go (asCommand s pk g (.drop pk g) (cmdWho g) fun s k =>
    let d := cmdWho g
    if authorised s k d g = false then (s, -3)
    else if actorKnown s k d = false then (s, -1)
    else
      match frozenRun s k d with
      | none => (s, -2)
      | some st => (dropRun s k st, 0))

/-! Eviction and restore of one actor (R216). -/

/-- Bytes of an actor save area. -/
def saveBytes : Nat := 0x50000

/-- Whether an actor still has engine work or accesses that an evict waits for: its matrix entries, the streams to it, and the requests that
its frozen run has issued, whose results the saved frame holds (R82, R216). Answers to its stream commands reach the run once it is
back. -/
def evictBusy (s : State) (k d : Nat) : Bool :=
  let p := getPier s k
  p.mq.any (fun e => e.actor.toNat == d) || streamTo s k d || (pierActor p d).ending ||
    (runsOf p d).any fun st => !strandDrained (pierStrand p st)

/-- The bytes of a list of words. -/
def wordsBytes (l : List Word) : List Byte := l.flatMap wordBytes

/-- The description record of an evicted actor (R216). -/
def evictRecord (a : Actor) (d : Nat) : List Word :=
  [BitVec.ofNat 64 d, a.rgnbase, a.rgnlim, BitVec.ofNat 64 a.weir.toNat, a.spill, a.fault, BitVec.ofNat 64 a.graph.toNat, 0]

/-- First byte and length of an actor's region. -/
def regionOf (a : Actor) : Nat × Nat := (bits a.rgnbase 6 13 * 64, bits a.rgnlim 6 13 * 64 - bits a.rgnbase 6 13 * 64)

/-- Bytes written by virtual address as whole accesses; granules that hold poison carry it along. -/
def vaPut (s : State) (k : Nat) (va : Word) (l : List Byte) (bad : Nat → Bool) : State :=
  let root := (getPier s k).xlroot
  let m := pkMod k
  let s1 := vaClear (vaWrite s m root va l) m root va l.length
  (List.range ((l.length + 63) / 64)).foldl (fun s i =>
    if bad i then vaPoke s m root (va + BitVec.ofNat 64 (64 * i)) (lgetD l (64 * i) 0) true else s) s1

/-- The handler entries of an actor. -/
def handlersOf (p : Pier) (d : Nat) : List Word := (p.handlers.filter fun h => bitAt h.2 63 && bits h.2 57 6 == d).map (·.2)

/-- The inbox slots of an actor in the order of its queues. -/
def slotsFor (p : Pier) (d : Nat) : List Slot := p.inbox.filter fun x => x.msg.dact.toNat == d

/-- The save area written and the actor's resources freed (R216 steps 2 and 3). -/
def evictDo (s : State) (k d : Nat) (va : Word) : State :=
  let p := getPier s k
  let a := pierActor p d
  let hs := handlersOf p d
  let ms := slotsFor p d
  let run := frozenRun s k d
  let x := match run with
    | some st => if (pierStrand p st).status = .parked then { unpark s k (pierStrand p st) with status := .frozen } else pierStrand p st
    | none => {}
  let state := BitVec.ofNat 64 ((if run.isSome then 2 else 1) + hs.length * 2 ^ 8 + ms.length * 2 ^ 16)
  let none_ : Nat → Bool := fun _ => false
  let s1 := vaPut s k va (wordsBytes (evictRecord a d ++ [state] ++ List.replicate 7 0 ++ hs)) none_
  let s2 := if run.isSome then vaPut s1 k (va + 0x480) (frameBytes x []) none_ else s1
  let s3 := vaPut s2 k (va + 0x2480) ((byAdmission ms).flatMap fun x => msgBytes x.msg) fun i => (lgetD ((byAdmission ms).map fun x => x.msg.poison != 0) i false)
  let r := regionOf a
  let s4 := vaPut s3 k (va + 0x10000) (mreadList p.spad r.1 r.2) fun i => pget p.spadPoison (r.1 + 64 * i)
  let s5 := adjPier (tick1 s4) k fun p =>
    { p with
      inbox := p.inbox.filter fun x => x.msg.dact.toNat != d
      handlers := p.handlers.filter fun h => !(bitAt h.2 63 && bits h.2 57 6 == d)
      claims := p.claims.filter fun c => c.2 != some d
      actors := fset p.actors d { a with st := .evicted, evicting := none, transit := 0, saved := some (x, ms, run.isSome) } }
  match run with
  | some st => adjPier s5 k fun p => { p with strands := fset p.strands st { seed := x.seed }, late := p.late ++ lateOf x st }
  | none => s5

/-- An evict that has failed: the actor stays, and the cancels that waited for the evict take effect (R68). -/
def evictFails (s : State) (k d : Nat) : State := owedCancels (adjActor s k d fun x => { x with evicting := none }) k d

/-- Command 0x04, evict actor (R216): it waits for the actor's engine work, looking again in each cycle. -/
def execEvictActor (pk : Nat) (g : Msg) (s : State) : Out :=
  go (asService s pk g (.evictActor pk g) fun s k =>
    let d := cmdWho g
    let va := payWord g 2
    let a := getActor s k d
    let reply (s : State) (r : Int) : State × Bool := (serviceReply s k g r d, true)
    if va.toNat % 2 ^ 16 ≠ 0 then reply s (-4)
    else if authorised s k d g = false then reply s (-3)
    else if actorKnown s k d = false then reply s (-1)
    else if (a.st ≠ .idle ∧ a.st ≠ .frozen) ∨ a.retiring = true then reply s (-2)
    else if evictBusy s k d then
      let s1 := schedule s (s.cycle + 1) (.evictActor pk g)
      if a.evicting.isSome then (s1, false)
      else (schedule (adjActor s1 k d fun x => { x with evicting := some g }) (s.cycle + 65536) (.evictWaitTimeout pk g), false)
    else
      asMemory (adjActor s k d fun x => { x with evicting := some g }) k g (.evictActor pk g) va 2 saveBytes
        (if (vaWritable s (pkMod k) (getPier s k).xlroot va 2 saveBytes).isSome then reply (evictFails s k d) (-5) else reply (evictDo s k d va) 0))

/-- The engine work that an evict waits for has not ended in 65,536 cycles (R216 step 1). -/
def execEvictWaitTimeout (pk : Nat) (g : Msg) (s : State) : Out :=
  go (asService s pk g (.evictWaitTimeout pk g) fun s k =>
    let d := cmdWho g
    if (getActor s k d).evicting = some g ∧ evictBusy s k d = true then
      (serviceReply (evictFails s k d) k g (-2) d, true)
    else (s, false))

/-- Words and poison-free bytes of a save area. -/
def areaBytes (s : State) (k : Nat) (va : Word) (n : Nat) : List (Byte × Bool) :=
  match vaRead s (pkMod k) (getPier s k).xlroot va n with | .ok l => l | .error _ => []

/-- The saved slots of an actor put back, in the order of its queues, each message as the area holds it at its place in the order of
admission; their waits go on from their first admission (R181, R183). -/
def slotsBack (saved : List Slot) (n cycle : Nat) (msg : Nat → Msg) : List Slot :=
  let order := byAdmission saved
  let back (i : Nat) (x : Slot) : Slot := { x with msg := { msg i with poison := x.msg.poison }, since := cycle, reserve := false }
  (saved.filterMap fun x => let i := order.findIdx (· == x); if i < n then some (back i x) else none) ++
    (List.range (n - saved.length)).map fun i =>
      let g := msg (saved.length + i)
      { msg := g, admitted := cycle, since := cycle, reserve := false, urgent := g.flags.toNat % 2 == 1 }

/-- The actor read back from its save area (R216). -/
def restoreDo (s : State) (k d : Nat) (va : Word) (st : Option Nat) : State :=
  let old := getActor s k d
  let w := wordsOfBytes (areaBytes s k va 128)
  let state := lgetD w 8 0
  let h := bits state 8 8
  let n := bits state 16 9
  let hs := (wordsOfBytes (areaBytes s k (va + 0x80) (8 * h))).map fun e => setBits e 0 30 0
  let sv := old.saved.getD ({}, [], false)
  let mb := (areaBytes s k (va + 0x2480) (64 * n)).map (·.1)
  let msg (i : Nat) : Msg :=
    let b := (mb.drop (64 * i)).take 64
    let hd : BitVec 128 := BitVec.ofNat 128 ((b.take 16).foldr (fun x n => x.toNat + 256 * n) 0)
    { msgOfHeader hd (wordsOfBytes ((b.drop 16).map fun x => (x, false))) with
      dact := BitVec.ofNat 6 d, dpier := BitVec.ofNat 10 old.lp.toNat, dmod := BitVec.ofNat 12 (pkMod k), job := jobOf s k }
  let a : Actor :=
    { recordActor old.lp.toNat (w.take 8) with
      st := if st.isSome then .frozen else .idle, seq := old.seq, spilled := old.spilled, owed := old.owed }
  let r := regionOf a
  let bs := areaBytes s k (va + 0x10000) r.2
  let s1 := adjPier s k fun p =>
    let q := putHandlers p d hs
    { q with
      actors := fset q.actors d a
      inbox := q.inbox ++ slotsBack sv.2.1 n s.cycle msg
      spad := mwriteList q.spad r.1 (bs.map (·.1))
      spadPoison := (List.range (r.2 / 64)).foldl (fun z i => pset z (r.1 + 64 * i) (((bs.drop (64 * i)).take 64).any (·.2))) q.spadPoison }
  let s2 := match st with
    | some t =>
      let x := frameInto ((areaBytes s k (va + 0x480) 0x2000).map (·.1)) sv.1
      setStrand s1 k t { placeRun k t x with status := .frozen }
    | none => s1
  owedCancels s2 k d

/-- Whether a save area holds what an evict of an actor writes: a record whose fields R55 allows, with its index and no entries, and the
state idle or frozen. A job can write its save areas, and no breach of its own may reach the service area (R6, R36), so that an area with
other contents is a field out of range, found once the area can be read: DESIGN CHOICE, log entry 78. -/
def areaOk (s : State) (k d : Nat) (va : Word) : Bool :=
  let w := wordsOfBytes (areaBytes s k va 72)
  lgetD w 0 0 == BitVec.ofNat 64 d && lgetD w 7 0 == 0 && recordOk s (jobOf s k) (w.take 8) &&
    (bits (lgetD w 8 0) 0 3 == 1 || bits (lgetD w 8 0) 0 3 == 2)

/-- The result of a restore, and the state after it (R212, R216). -/
def restoreResult (s : State) (k d : Nat) (va : Word) : State × Int :=
  let p := getPier s k
  if (vaWritable s (pkMod k) p.xlroot va 4 saveBytes).isSome then (s, -5)
  else if areaOk s k d va = false then (s, -4)
  else
    let state := lgetD (wordsOfBytes (areaBytes s k (va + 0x40) 8)) 0 0
    let frozen := bits state 0 3 == 2
    if 496 - jobSlots p < bits state 16 9 ∨ (freeHandlers p).length < bits state 8 8 ∨
        (frozen = true ∧ (p.jobStrands.toNat ≤ jobRuns p ∨ (freeStrand p).isNone)) then (s, -6)
    else (restoreDo (vaTouch s (pkMod k) p.xlroot va saveBytes) k d va (if frozen then freeStrand p else none), 0)

/-- Command 0x05, restore actor (R216). -/
def execRestoreActor (pk : Nat) (g : Msg) (s : State) : Out :=
  go (asService s pk g (.restoreActor pk g) fun s k =>
    let d := cmdWho g
    let va := payWord g 2
    let reply (x : State × Int) : State × Bool := (serviceReply x.1 k g x.2 d, true)
    if va.toNat % 2 ^ 16 ≠ 0 then reply (s, -4)
    else if authorised s k d g = false then reply (s, -3)
    else if actorKnown s k d = false then reply (s, -1)
    else if (getActor s k d).st ≠ .evicted then reply (s, -2)
    else asMemory s k g (.restoreActor pk g) va 4 saveBytes (reply (restoreResult s k d va)))

/-! Streams (R217). -/

/-- Abutment and tag of a stream command. -/
def cmdStream (g : Msg) : Nat × Nat := (bits (payWord g 1) 0 7, bits (payWord g 1) 16 10)

/-- Whether a named stream waits in a command queue or for a resend. -/
def streamQueued (s : State) (k d : Nat) (g : Msg) : Bool := (streamsOf s k d).contains (cmdStream g)

/-- Whether the abutment of a stream command has yet to load what it saved of the partition, which the command then waits for (R228). -/
def streamsSaved (s : State) (k : Nat) (g : Msg) : Bool :=
  let x := getAbut s (pkMod k) (cmdStream g).1
  x.savedCtxs.any (fun c => c.1 == pkPart k) || x.savedQueue.any fun c => c.1 == pkPart k

/-- A stream command with its answer, once the streams are where they belong. -/
def asStream (s : State) (pk : Nat) (g : Msg) (i : Instr) (f : State → Nat → State × Int) : State :=
  asService s pk g i fun s k =>
    if streamsSaved s k g then (schedule s (s.cycle + 1) i, false)
    else let r := f s k; (serviceReply r.1 k g r.2 (cmdIssuer g), true)

/-- Command 0x06, stream resume (R217): a paused stream walks again. -/
def execStreamResume (pk : Nat) (g : Msg) (s : State) : Out :=
  go (asStream s pk g (.streamResume pk g) fun s k =>
    let d := cmdIssuer g
    let x := cmdStream g
    if authorised s k d g = false then (s, -3)
    else
      match findStream s (pkMod k) x.1 k d x.2 with
      | some t => if t.phase = .paused then (setCtx s (pkMod k) x.1 { t with phase := .active, walked := [], missAt := none }, 0) else (s, -2)
      | none => (s, if streamQueued s k d g then -2 else -1))

/-- Command 0x07, stream stop (R217): a stream of the actor named ends as by SCANC. -/
def execStreamStop (pk : Nat) (g : Msg) (s : State) : Out :=
  go (asStream s pk g (.streamStop pk g) fun s k =>
    let d := cmdIssuer g
    let x := cmdStream g
    if authorised s k d g = false then (s, -3)
    else
      match endStream s (pkMod k) x.1 k d x.2 with
      | some s1 => (s1, 0)
      | none => (s, -1))

/-! Harvest and phases (R156, R218). -/

/-- The piers of a span with an entry in their dirty logs. -/
def dirtyPiers (s : State) (m sp : Nat) : FMap Nat :=
  (s.piers.filter fun p => pkMod p.1 == m && pierLoc s p.1 == .piers && siteOf s p.1 / 256 == sp && decide (0 < p.2.dlogCount)).map
    fun p => (p.1, p.2.dlogCount)

/-- Command 0x08, harvest (R156): the agent merges every log of the span, and the reply follows. -/
def execHarvest (pk : Nat) (g : Msg) (s : State) : Out :=
  go (asService s pk g (.harvest pk g) fun s k =>
    if g.job ≠ jobOf s k then (serviceReply s k g (-3) 0, true)
    else
      let m := pkMod k
      let sp := spanOf s k
      let s1 := adjAgent s m sp fun x => { x with harvests := x.harvests ++ [(k, g, dirtyPiers s m sp)] }
      (tick1 (schedule s1 (s.cycle + 1 + Config.latency s.fresh) (.harvestComplete m sp)), true))

/-- The logs of a harvest merged as far as they can be: the state, and the entries of each that are still to be merged. -/
def harvestLogs (s : State) : FMap Nat → State × FMap Nat
  | [] => (s, [])
  | x :: l =>
    let n := min x.2 (getPier s x.1).dlogCount
    let s1 := dlogMerge s x.1 n
    let left := n - ((getPier s x.1).dlogCount - (getPier s1 x.1).dlogCount)
    let r := harvestLogs s1 l
    (r.1, if left = 0 then r.2 else (x.1, left) :: r.2)

/-- The entries that stood in the logs when a harvest arrived are merged, and the service actor replies (R156). Where one of them waits for a
table node that is being moved the harvest goes on 4,096 cycles later (R149). -/
def execHarvestComplete (mod span : Nat) (s : State) : Out :=
  go (match (getAgent s mod span).harvests with
    | [] => s
    | h :: l =>
      let r := harvestLogs s h.2.2
      let rest (l : List (Nat × Msg × FMap Nat)) : State := adjAgent r.1 mod span fun x => { x with harvests := l }
      if r.2 = [] then serviceReply (rest l) (serviceHome s h.1) h.2.1 0 0
      else schedule (rest ((h.1, h.2.1, r.2) :: l)) (s.cycle + 4096) (.harvestComplete mod span))

/-- Command 0x09, phase begin (R218). -/
def execPhaseBegin (pk : Nat) (g : Msg) (s : State) : Out :=
  go (asService s pk g (.phaseBegin pk g) fun s k =>
    let job := jobOf s k
    let j := getJob s job.toNat
    let p1 := payWord g 1
    let n := p1.toNat
    if imagePk s { j.img with job := job } j.img.homeMod j.img.homePier ≠ some k ∨ j.img.phases ≤ n then (serviceReply s k g (-4) 0, true)
    else if g.job ≠ job then (serviceReply s k g (-3) 0, true)
    else if j.inPhase = true ∨ j.beginReq.isSome ∨ n ≠ j.nextPhase then (serviceReply s k g (-2) 0, true)
    else
      let ms := modsOfJob s job
      let s1 := adjJob s job.toNat fun j => { j with inPhase := true, waitOpen := ms, beginReq := some (k, g) }
      (ms.foldl (fun s m => launch s (latency s (pkMod k) (placeOf s k) m .die) (.phaseOpen m job.toNat n)) s1, true))

/-- A reserved command (R212). -/
def execReservedServiceCommand (pk : Nat) (g : Msg) (s : State) : Out :=
  go (asCommand s pk g (.reservedServiceCommand pk g) 0 fun s _ => (s, -4))

/-! Forwarding (R210, R212). -/

/-- A message that is no command goes to the host unchanged, and is not answered. -/
def execServiceForwardToHost (pk : Nat) (g : Msg) (s : State) : Out :=
  go (asService s pk g (.serviceForwardToHost pk g) fun s k => (sendEvent s (pkMod k) 6 g.job (msgBytes g), true))

/-- A fault record that concerns a job actor, or a sluice of the pier, goes to the host (R60, R61, R210). -/
def execFaultRecordForward (pk : Nat) (g : Msg) (s : State) : Out :=
  go (asService s pk g (.faultRecordForward pk g) fun s k =>
    (if bits (payWord g 4) 24 6 = 63 ∧ bits (payWord g 0) 0 16 ≠ 0x10 then s else sendFrame s (pkMod k) 6 g.job 0 0 0 (msgBytes g), true))

end Sys2Proof.Machine
end

