-- ==== Sys2Proof/Machine/Frozen.lean ====
section
/-!
DEFINITION. Where each step under way takes place and which modules its flit passes, so that a frozen module stops them (R270).
-/

namespace Sys2Proof.Machine

/-! Where a step takes place, so that a frozen module stops (R270). -/

/-- The module where an answer ends. -/
def ackMod : AckTo → Option Nat
  | .outbox pk _ => some (pkMod pk)
  | .inject m _ => some m
  | .copy m _ _ => some m
  | .flit m _ _ _ => some m
  | .nobody => none

/-- The module whose clocks a step under way needs: none for Veiviush, the host port and what comes from outside. -/
def stepMod : Instr → Option Nat
  | .divideComplete pk _ _ => some (pkMod pk)
  | .matrixEntryComplete pk => some (pkMod pk)
  | .keystoneResult pk _ _ _ _ => some (pkMod pk)
  | .resultPortWrite pk _ _ _ => some (pkMod pk)
  | .messageAdmission g _ => some g.dmod.toNat
  | .spillwayReturn pk _ => some (pkMod pk)
  | .outboxResend e => ackMod e
  | .acknowledgement e _ => ackMod e
  | .sluiceAddArrival a => some a.mod
  | .barrierArriveArrival a => some a.mod
  | .phaseNoticeArrival a => some a.mod
  | .gmTranslationDone pk _ _ _ _ => some (pkMod pk)
  | .gmReply a => some (pkMod a.req.pk)
  | .apertureAccess r => some (bits r.va 43 12)
  | .hbmAccess r => some r.mod
  | .ingressAtomic r => some r.mod
  | .leaseExpiry m _ _ => some m
  | .dirtyLogMerge pk => some (pkMod pk)
  | .invalidationAgent m _ => some m
  | .invalidationPier m _ _ => some m
  | .invalidationAbutment m _ => some m
  | .invalidationComplete m _ => some m
  | .tlbiResend m _ _ => some m
  | .streamCommandAccept m _ _ => some m
  | .streamCommandResend m _ _ => some m
  | .streamOpen m _ _ => some m
  | .streamOpenRetry m _ _ => some m
  | .dataFlitArrival f => some f.mod
  | .flitResend f => some f.mod
  | .weightFlitArrival f => some f.mod
  | .scratchpadReadRequest f => some f.mod
  | .streamIncrement m _ _ _ => some m
  | .sxchPair m _ _ => some m
  | .sxchWindowGrant m _ _ => some m
  | .exchangeFlitArrival f => some f.mod
  | .multicastCopy m _ _ => some m
  | .reductionContribution g _ => some g.smod.toNat
  | .gdoneForward m _ _ _ _ => some m
  | .cancel m _ _ _ => some m
  | .cancelAtPier pk _ _ _ => some (pkMod pk)
  | .flushMarker m _ => some m
  | .cancelEnd m => some m
  | .phaseOpen m _ _ => some m
  | .haltAtPier pk => some (pkMod pk)
  | .haltAtAbutment m _ _ => some m
  | .haltAck m _ _ => some m
  | .saveLimitExpiry pk => some (pkMod pk)
  | .shadowSwap m _ _ => some m
  | .streamContextLoad m _ _ => some m
  | .partitionEvict m _ _ => some m
  | .partitionRestore m _ _ => some m
  | .holdBroadcast m _ _ => some m
  | .hungPier pk => some (pkMod pk)
  | .deferredFaultReport d => some (pkMod d.pk)
  | .createActor pk _ => some (pkMod pk)
  | .resume pk _ => some (pkMod pk)
  | .drop pk _ => some (pkMod pk)
  | .evictActor pk _ => some (pkMod pk)
  | .evictWaitTimeout pk _ => some (pkMod pk)
  | .restoreActor pk _ => some (pkMod pk)
  | .streamResume pk _ => some (pkMod pk)
  | .streamStop pk _ => some (pkMod pk)
  | .harvest pk _ => some (pkMod pk)
  | .harvestComplete m _ => some m
  | .phaseBegin pk _ => some (pkMod pk)
  | .reservedServiceCommand pk _ => some (pkMod pk)
  | .serviceForwardToHost pk _ => some (pkMod pk)
  | .faultRecordForward pk _ => some (pkMod pk)
  | .portRetrainComplete m _ => some m
  | .jobLoaderRun m _ => some m
  | _ => none

/-- The module of the pier that a stream's command names (R256). -/
def streamDest (s : State) (m a sid : Nat) : List Nat :=
  match getCtx s m a sid with
  | some t => if cmdKind t.cmd = 5 then [] else [awMod (cmdActor t.cmd)]
  | none => []

/-- The module of the partner of an exchange (R258). -/
def xchEnds (s : State) (m a sid : Nat) : List Nat :=
  match getCtx s m a sid with
  | some t => [xchMod m t.cmd]
  | none => []

/-- The modules whose clocks a step needs beside the one where it takes place: of a flit the pier's, of a walk the home of
the request and of the entry it reads (R149, R256). -/
def stepMods (s : State) : Instr → List Nat
  | .dataFlitArrival f => streamDest s f.mod f.abut f.sid
  | .weightFlitArrival f => streamDest s f.mod f.abut f.sid
  | .scratchpadReadRequest f => streamDest s f.mod f.abut f.sid
  | .streamOpen m a sid => streamDest s m a sid
  | .streamIncrement _ _ _ c => [awMod (cmdActor c)]
  | .sxchPair m a sid => xchEnds s m a sid
  | .pageWalk w => walkMods s w
  | .walkMovingRetry w => walkMods s w
  | _ => []
where
  walkMods (s : State) (w : Nat) : List Nat :=
    match fget s.walks w none with
    | some k => [walkHome k.who, k.mod]
    | none => []

/-- The module that the body of an outbox entry goes to. -/
def bodyMod (m : Nat) : OutBody → Nat
  | .msg g => g.dmod.toNat
  | .add a => a.mod
  | _ => m

/-- The module that an answer comes from: the one its request went to. -/
def ackFrom (s : State) : AckTo → List Nat
  | .outbox pk tok => ((getPier s pk).outbox.filter fun e => e.tok == tok).map fun e => bodyMod (pkMod pk) e.body
  | .inject m tok => ((getMod s m).host.inject.filter fun e => e.tok == tok).map fun e => e.msg.dmod.toNat
  | .copy m tok i => ((getMod s m).copies.filter fun c => c.tok == tok).map fun c => memberMod s m c.group i
  | .flit m a sid _ => streamDest s m a sid ++ xchEnds s m a sid
  | .nobody => []
where
  /-- The module of a member of a group. -/
  memberMod (s : State) (m g i : Nat) : Nat := awMod (lgetD (fget (getMod s m).groups g {}).members i 0)

/-- The two modules between which the flit of a step travels, where the step names both. -/
def flitEnds (s : State) : Instr → List (Nat × Nat)
  | .messageAdmission g e => (ackMod e).toList.map fun m => (m, g.dmod.toNat)
  | .acknowledgement e _ => (ackMod e).toList.flatMap fun m => (ackFrom s e).map fun k => (k, m)
  | .sluiceAddArrival a => (ackMod a.frm).toList.map fun m => (m, a.mod)
  | .barrierArriveArrival a => (ackMod a.frm).toList.map fun m => (m, a.mod)
  | .multicastCopy m tok i => (ackFrom s (.copy m tok i)).map fun k => (m, k)
  | .reductionContribution g .nobody => [(g.smod.toNat, bits (getGroup s g.smod.toNat g.tag.toNat).hdr 16 12)]
  | .gmReply a => [(if isAperture a.req.va then bits a.req.va 43 12 else a.req.mod, pkMod a.req.pk)]
  | .apertureAccess r => [(pkMod r.pk, bits r.va 43 12)]
  | .hbmAccess r => [(pkMod r.pk, r.mod)]
  | .ingressAtomic r => [(pkMod r.pk, r.mod)]
  | .tlbiResend m _ r => [(pkMod r.pk, m)]
  | .streamOpen m a sid => (streamDest s m a sid).map fun k => (m, k)
  | .dataFlitArrival f => (streamDest s f.mod f.abut f.sid).map fun k => (f.mod, k)
  | .weightFlitArrival f => (streamDest s f.mod f.abut f.sid).map fun k => (f.mod, k)
  | .scratchpadReadRequest f => (streamDest s f.mod f.abut f.sid).map fun k => (f.mod, k)
  | .streamIncrement m _ _ c => [(m, awMod (cmdActor c))]
  | .sxchPair m a sid => (xchEnds s m a sid).map fun k => (m, k)
  | .sxchWindowGrant m a sid => (xchEnds s m a sid).map fun k => (k, m)
  | .exchangeFlitArrival f => [(f.off / 16, f.mod)]
  | .timeBaseFlit m _ => [(0, m)]
  | .phaseOpen m job _ => [((getJob s job).img.homeMod, m)]
  | _ => []

/-- Whether a step under way still takes place: the clocks run where it does, and on every module whose routers its flit passes (R270). -/
def stepLive (s : State) (i : Instr) : Bool :=
  (stepMod i).all (clocked s) && (stepMods s i).all (clocked s) && (flitEnds s i).all fun e => (modsBetween s e.1 e.2).all (clocked s)

/-- The steps and walks of a module that a reset ends: those that take place on it (R264, R270). -/
def ofModule (m : Nat) (i : Instr) : Bool :=
  stepMod i == some m || match i with | .attestationSigned k _ => k == m | _ => false

end Sys2Proof.Machine
end

