-- ==== Sys2Proof/Machine/Veiv.lean ====
section
/-!
DEFINITION. Veiviush: bring-up, attestation, power, errors, spares, freeze, record and replay, debug halts, and the tables it
writes for the host (R12, R194, R195, R197, R203, R204, R233, R249, R250, R263 to R272).
-/

namespace Sys2Proof.Machine

/-! Bring-up (R264). -/

/-- What Veiviush has measured after a number of stages of a module, in the order they run: M and the digests. -/
def measured (m : Nat) : Nat → List Byte × List (List Byte)
  | 0 => (List.replicate 64 0, [])
  | n + 1 =>
    let r := measured m n
    let d := shake256 (Config.stageImage m (n + 1)) 64
    (shake256 (r.1 ++ d) 64, r.2 ++ [d])

/-- The key that a boot stage is checked against: that of stage 1 stands in flash, a later one in the stage before it. -/
def stageKey (m n : Nat) : List Byte := if n ≤ 1 then Config.firstKey m else Config.carriedKey (Config.stageImage m (n - 1))

/-- Whether the signature of a boot stage verifies; the key of stage 1 is checked against the fused digest. -/
def stageSigned (m n : Nat) : Bool :=
  (decide (1 < n) || shake256 (stageKey m n) (Config.fusedDigest m).length == Config.fusedDigest m) &&
    ed448Verify (stageKey m n) (Config.stageImage m n) (Config.stageSignature m n)

/-- The lanes of a port replaced at stage 2: by the fuse repair map, and those that training finds bad (R264, R266); a port without a link is
not trained (R249). -/
def stageLanes (s : State) (m port : Nat) : List Nat :=
  if portLinked s port then ((Config.badLanes m port).map (· % 18)).eraseDups else []

/-- The pseudo-channels of a stack replaced at stage 2. -/
def stageChannels (m stack : Nat) : List Nat := ((Config.badChannels m stack).map (· % 128)).eraseDups

/-- The abutment of an edge replaced at stage 2. -/
def stageAbut (m edge : Nat) : Option Nat := (Config.fuseAbut m edge).map fun c => edge * 16 + c % 16

/-- Whether the training of stage 2 leaves no port and no stack with more bad than its two spares cover. -/
def trained (s : State) (m : Nat) : Bool :=
  (List.range 6).all (fun p => decide ((stageLanes s m p).length ≤ 2)) && (List.range 8).all fun k => decide ((stageChannels m k).length ≤ 2)

/-- The last boot stage that runs: a signature that fails, or the training of stage 2, ends the bring-up. -/
def stagesRun (s : State) (m : Nat) : Nat :=
  if stageSigned m 1 then (if stageSigned m 2 then (if trained s m && stageSigned m 3 then 3 else 2) else 1) else 0

/-- The last boot stage passed (R263): stage 2 is not passed where its training fails. -/
def stagesPassed (s : State) (m : Nat) : Nat := if stagesRun s m = 2 ∧ trained s m = false then 1 else stagesRun s m

/-- The repairs of stage 2 among the spares of Veiviush: the abutments and the pseudo-channels (R266). -/
def stageRepairs (m : Nat) (v : Veiv) : Veiv :=
  { v with
    abutSpared := (List.range 8).filterMap fun e => (stageAbut m e).map fun a => (e, some a)
    pcSpared := (List.range 8).filterMap fun k => if stageChannels m k = [] then none else some (k, (stageChannels m k).take 2) }

/-- The ports as stage 2 trains them. -/
def stagePorts (s : State) (m : Nat) : FMap Port :=
  (List.range 6).filterMap fun p =>
    if stageLanes s m p = [] then none else some (p, { spared := (stageLanes s m p).take 2, failed := stageLanes s m p })

/-- Bring-up at reset (R264): the stages are verified and measured, and stage 2 applies the fuse repair map; the module is in
recovery where they do not all run, and no health probe begins. What the module held before, its HBM and weight-store bytes apart,
is lost, with the steps and walks that were under way on it. -/
def execBringUp (mod : Nat) (s : State) : Out :=
  let old := getMod s mod
  let n := stagesRun s mod
  let r := measured mod n
  let v0 : Veiv := { stage := BitVec.ofNat 3 (stagesPassed s mod), recovery := n != 3, mreg := r.1, digests := r.2, throttleAt := s.cycle }
  let v1 := if n = 3 then { v0 with nextProbe := s.cycle + 2097152 } else v0
  let x : Module :=
    { present := true, hbm := old.hbm, hbmPoison := old.hbmPoison, tb := if mod = 0 then 0 else (getMod s 0).tb
      veiv := if n < 2 then v1 else stageRepairs mod v1, ports := if n < 2 then [] else stagePorts s mod }
  go
    { setMod s mod x with
      piers := s.piers.filter fun p => pkMod p.1 != mod
      sites := (s.sites.filter fun k => k.1 / 1024 != mod) ++
        (s.sites.filter fun k => k.1 / 1024 == mod).map fun k => (k.1, { slice := k.2.slice, slicePoison := k.2.slicePoison })
      cal := s.cal.filter fun e => !ofModule mod e.2
      walks := s.walks.filter fun w => match w.2 with | some k => walkHome k.who != mod | none => true }

/-! Attestation (R265). -/

/-- A spare of the map: its kind and its unit word (R266). -/
def spareBytes (kind unit : Nat) : List Byte := wordBytes (BitVec.ofNat 64 kind) ++ wordBytes (BitVec.ofNat 64 unit)

/-- The spare map as bytes, for its digest: fuse repairs and runtime spares of every kind, each as its command names it. The bytes are
the model's (log entry 9). -/
def spareMap (x : Module) : List Byte :=
  (x.veiv.pierSpared.flatMap fun e => match e.2 with | some row => spareBytes 1 (e.1 + row * 2 ^ 8) | none => []) ++
    (x.veiv.abutSpared.flatMap fun e => match e.2 with | some a => spareBytes 2 a | none => []) ++
    (x.ports.flatMap fun e => e.2.spared.flatMap fun l => spareBytes 3 (e.1 + l * 2 ^ 8)) ++
    x.veiv.pcSpared.flatMap fun e => e.2.flatMap fun k => spareBytes 4 (e.1 + k * 2 ^ 8)

/-- The part of a report that its signature covers. -/
def reportBody (m : Nat) (x : Module) : List Byte :=
  wordBytes (BitVec.ofNat 64 (1 + m % 4096 * 2 ^ 8)) ++ wordBytes (Config.serial m) ++ padTo 64 x.veiv.nonce ++ padTo 64 x.veiv.mreg ++
    padTo 192 (x.veiv.digests.flatMap id) ++ padTo 64 (shake256 (spareMap x) 64) ++ padTo 64 (padTo 57 (ed448Public (Config.identityKey m)))

/-- A report with its signature (R265). -/
def reportOf (m : Nat) (x : Module) : List Byte :=
  let b := reportBody m x
  b ++ padTo 114 (ed448Sign (Config.identityKey m) b)

/-- A report is signed and ready; a later nonce has replaced it where its number differs (R265). -/
def execAttestationSigned (mod tok : Nat) (s : State) : Out :=
  go (adjVeiv s mod fun v => if v.reportTok = tok then { v with report := some (reportOf mod (getMod s mod)) } else v)

/-- A nonce starts a new report, signed within 50 ms (R265). -/
def startReport (s : State) (m : Nat) (nonce : List Byte) : State :=
  let v := (getMod s m).veiv
  tick1 (schedule (adjVeiv s m fun v => { v with nonce := nonce, report := none, reportTok := v.reportTok + 1 })
    (s.cycle + 1 + Config.latency s.fresh % 105000000) (.attestationSigned m (v.reportTok + 1)))

/-! Power and temperature (R268, R269). -/

/-- The mean of the last four measurements of module power, in mW. -/
def meanPower (l : List Word) : Nat := (l.map (·.toNat)).foldl (· + ·) 0 / max 1 l.length

/-- The telemetry block (R269). -/
def telemetryOf (x : Module) (fresh : Nat) : List Word :=
  let v := x.veiv
  let w (n : Nat) : Word := BitVec.ofNat 64 n
  let lanes := (x.ports.map fun p => p.2.spared.length).foldl (· + ·) 0
  let pcs := (v.pcSpared.map fun p => p.2.length).foldl (· + ·) 0
  [w (meanPower v.samples), Config.sensor 1 fresh] ++ (List.range 13).map (fun i => Config.sensor (2 + i) fresh) ++
    (List.range 8).map (fun i => w (fget v.corrected i 0)) ++ (List.range 8).map (fun i => w (fget v.uncorrected i 0)) ++
    [w (4 - v.pierSpared.length), w (8 - v.abutSpared.length), w (12 - lanes), w (16 - pcs), w v.throttled, w v.cap] ++
    List.replicate 27 0

/-- The event of throttling that begins, with data 1, or ends, with data 0 (R263; DESIGN CHOICE, log entry 84). -/
def throttleEvent (s : State) (m : Nat) (old new : Nat) : State :=
  if (old = 0) = (new = 0) then s else sendEvent s m 0x11 0 (wordBytes (boolWord (new != 0)))

/-- Veiviush measures power (R268): the level of throttling goes up while the mean is above the cap or a die is hot, and it
ends once neither holds; the telemetry block is taken anew. -/
def execPowerMeasure (mod : Nat) (s : State) : Out :=
  let v := (getMod s mod).veiv
  let samples := (Config.sensor 0 s.fresh :: v.samples).take 4
  let high := decide (v.cap * 1000 < meanPower samples) || v.hot.any (·.2)
  let lv := if high then min 32 (v.throttle + 1) else 0
  let s1 := adjVeiv (tick1 s) mod fun v =>
    { v with
      samples := samples
      throttle := lv
      throttled := min (2 ^ 64 - 1) (v.throttled + if v.throttle = 0 then 0 else s.cycle - v.throttleAt)
      throttleAt := s.cycle }
  let s2 := adjVeiv s1 mod fun v => { v with telemetry := telemetryOf (getMod s1 mod) s.fresh }
  go (throttleEvent s2 mod v.throttle lv)

/-- A freeze (R270): the module stops for good. -/
def freezeModule (s : State) (m : Nat) : State := adjVeiv s m fun v => { v with frozen := true, frozenAt := s.cycle }

/-- The temperature of a die (R268), in units of 1/256 °C: above 105 °C it is throttled, above 115 °C the module is frozen and
the host is told. -/
def execOvertemp (mod die : Nat) (t : Word) (s : State) : Out :=
  go (if 115 * 256 < t.toInt then
      freezeModule (sendEvent s mod (Config.reportCode 2) 0 (wordBytes (BitVec.ofNat 64 die) ++ wordBytes t)) mod
    else
      let s1 := adjVeiv s mod fun v => { v with hot := fset v.hot die (decide (105 * 256 < t.toInt)) }
      let v := (getMod s mod).veiv
      if 105 * 256 < t.toInt ∧ v.throttle = 0 then throttleEvent (adjVeiv s1 mod fun v => { v with throttle := 1, throttleAt := s.cycle }) mod 0 1 else s1)

/-! Errors (R125, R141, R263, R267). -/

/-- The pier context that stands on a physical pier, in the pier or in its shadow store. -/
def contextAt (s : State) (m phys : Nat) (l : Loc) : Option Nat :=
  (s.piers.map (·.1)).find? fun pk =>
    pkMod pk == m && teCarrier (entryOf s m (pkPart pk) (pkLp pk)) == pkLp pk && pierLoc s pk == l && physicalOf s pk == phys

/-- The site that a physical pier carries: none for one that carries no site. -/
def siteAt (s : State) (m phys : Nat) : Option Nat :=
  let span := phys / 272
  let row := phys % 272 / 16
  ((List.range 16).find? fun r => (fget (getMod s m).siteMap (span * 16 + r) none).getD r == row).map fun r => span * 256 + r * 16 + phys % 16

/-- A message whose slot is poisoned: every word is. -/
def poisonSlot (l : List Slot) (i : Nat) : List Slot :=
  match l[i]? with | some x => l.set i { x with msg := { x.msg with poison := 0x3F } } | none => l

/-- An outbox entry whose granule is poisoned: every word of its message is. -/
def poisonOut (e : OutEntry) : OutEntry :=
  let bad (g : Msg) : Msg := { g with poison := 0x3F }
  { e with body := match e.body with
      | .msg g => .msg (bad g)
      | .mcast k g => .mcast k (bad g)
      | .reduce k g => .reduce k (bad g)
      | b => b }

/-- A granule of the outbox of a pier. -/
def poisonOutbox (p : Pier) (i : Nat) : Pier := { p with outbox := p.outbox.zipIdx.map fun e => if e.2 = i then poisonOut e.1 else e.1 }

/-- Poison at a granule of a strand frame (R125, R224): every register, q-word, p-word and port with a byte in it, and the values that
in-flight entries there captured. What else the granule holds carries no mark. -/
def poisonFrame (x : Strand) (o : Nat) : Strand :=
  let bad (v : Value) : Value := { v with poison := true }
  let hit (a n : Nat) : Bool := decide (a < o + 64 ∧ o < a + n)
  let each (n : Nat) (c : Nat → Bool) (f : Nat → Value) (m : FMap Value) : FMap Value :=
    (List.range n).foldl (fun m i => if c i then fset m i (bad (f i)) else m) m
  { x with
    x := each 32 (fun i => i != 0 && hit (8 * i) 8) (readX x) x.x
    v := each 32 (fun i => hit (0x100 + 64 * i) 64 || hit (0x900 + 2 * i) 2) (readV x) x.v
    q := each 6 (fun i => hit (0x980 + 8 * i) 8) (readQ x) x.q
    p := each 6 (fun i => hit (0x9B0 + 8 * i) 8) (readP x) x.p
    op := opSels.zipIdx.foldl (fun m k =>
      match opPort x k.1 with
      | some v => if hit (0xA00 + 64 * k.2) 64 then fset m k.1.index (some (bad v)) else m
      | none => m) x.op
    res := resSels.zipIdx.foldl (fun m k =>
      match resPort x k.1.index with
      | .full v => if (if k.2 < 4 then hit (0xE80 + 64 * k.2) 64 else hit (0xF80 + 8 * (k.2 - 4)) 8) then fset m k.1.index (.full (bad v)) else m
      | _ => m) x.res
    inf := x.inf.map fun e =>
      if hit (0x1000 + 80 * e.1) 80 then (e.1, e.2.map fun i => { i with req := { i.req with val := bad i.req.val, exp := bad i.req.exp } }) else e }

/-- Poison at an offset of a pier image (R223, R225): scratchpad, code, inbox, strand frames, and the outbox in the register context. -/
def poisonImage (p : Pier) (off : Nat) : Pier :=
  if off < 0x40000 then { p with spadPoison := fset p.spadPoison (off / 64) true }
  else if off < 0x50000 then { p with codePoison := fset p.codePoison ((off - 0x40000) / 64) true }
  else if off < 0x58000 then { p with inbox := poisonSlot p.inbox ((off - 0x50000) / 64) }
  else
    let st := (off - 0x58000) / 0x2000
    let o := (off - 0x58000) % 0x2000 / 64 * 64
    let r := st * 2816 + (o - 0x1500)
    if o < 0x1500 then { p with strands := p.strands.map fun e => if e.1 = st then (e.1, poisonFrame e.2 o) else e }
    else if 0x3800 ≤ r ∧ r < 0x4800 then poisonOutbox p ((r - 0x3800) / 64)
    else p

/-- Poison at an offset of the tiles and accumulators of a site, 4 KiB each (R117, R320): the whole row, or the words. -/
def poisonTile (s : State) (k : Nat) (cfg : FMap Word) (off : Nat) : State :=
  let i := off / 4096
  let slot := off % 4096 / 64
  let spr := rowSlots (rowBytes (fget cfg i 0))
  adjSite s k fun x =>
    { x with tiles := fadj x.tiles i {} fun t =>
        { t with poison :=
            if i < 16 then (List.range spr).foldl (fun m j => fset m (slot / spr * spr + j) true) t.poison
            else (List.range 16).foldl (fun m j => fset m (16 * slot + j) true) t.poison } }

/-- Event 0x0010 (R263). -/
def errorEvent (s : State) (m kind unit off : Nat) (lost : Bool) (job : BitVec 12) : State :=
  let w0 : Word := BitVec.ofNat 64 (kind % 8 + b2n lost * 2 ^ 3 + unit % 4096 * 2 ^ 8)
  let w1 : Word := BitVec.ofNat 64 (off / 64 * 64)
  sendFrame s m 5 job 0 w1 0x10 (wordBytes w0 ++ wordBytes w1)

/-- The interleave domain under which a local address lies in a stack. -/
def domainOf (stack off : Nat) : Nat := ((List.range 3).find? fun d => dramLoc d off / 2 ^ 36 == stack).getD 0

/-- The local address that an interleave domain gives a DRAM byte: the inverse of `dramLoc` (R144). -/
def dramLocal (dom : Nat) (loc : Nat) : Nat :=
  let st := loc / 2 ^ 36
  let pc := loc / 2 ^ 29 % 128
  let d := loc % 2 ^ 29
  match dom with
  | 0 => st / 2 * 2 ^ 37 + d / 256 * 2 ^ 16 + pc * 2 ^ 9 + st % 2 * 2 ^ 8 + d % 256
  | 1 => d / 256 * 2 ^ 18 + pc * 2 ^ 11 + st % 2 * 2 ^ 10 + st / 2 * 2 ^ 8 + d % 256
  | _ => st * 2 ^ 36 + d / 256 * 2 ^ 15 + pc * 2 ^ 8 + d % 256

/-- Whether some leaf below a table node maps a DRAM byte of a module. -/
def nodeMaps (s : State) (m loc : Nat) : Nat → Node → Word → Bool
  | 0, n, va =>
    (List.range 1024).any fun i =>
      match walkEntry s m n 0 (va + BitVec.ofNat 64 (i * 2 ^ 16)) 0 with
      | .leaf e _ => leafMaps e 0
      | _ => false
  | l + 1, n, va =>
    (List.range (if l = 2 then 512 else 1024)).any fun i =>
      let v := va + BitVec.ofNat 64 (i * 2 ^ (26 + 10 * l))
      match walkEntry s m n (l + 1) v 0 with
      | .leaf e _ => leafMaps e (l + 1)
      | .next n' => nodeMaps s m loc l n' v
      | _ => false
where
  /-- Whether the page of a leaf holds the byte. -/
  leafMaps (e : Word) (level : Nat) : Bool :=
    let l := dramLocal (bits e 55 2) loc
    bits e 36 12 == m && decide (pageBase e level ≤ l ∧ l < pageBase e level + pageSize e level)

/-- The job that owns a DRAM byte of a module: one whose tables map it (R263). -/
def hbmOwner (s : State) (m loc : Nat) : BitVec 12 :=
  ((List.range 8).findSome? fun p =>
    let x := getPart s m p
    if x.inUse && (match rootNode (jobRootWord s m x.job) with | some n => nodeMaps s m loc 3 n 0 | none => false) then some x.job
    else none).getD 0

/-- An uncorrectable error (R125, R267): the granule is poisoned, or a slice is marked lost where the weight-store scrub finds
it, and the host hears of it. -/
def execUncorrectableError (mod kind unit off : Nat) (s : State) : Out :=
  let s0 := adjVeiv s mod fun v => { v with uncorrected := fset v.uncorrected (kind % 8) (min (2 ^ 64 - 1) (fget v.uncorrected (kind % 8) 0 + 1)) }
  let ctx := contextAt s mod unit .piers
  let job := match ctx with | some pk => jobOf s pk | none => 0
  let at_ (f : Pier → Pier) : State :=
    errorEvent (match ctx with | some pk => adjPier s0 pk f | none => s0) mod kind unit off false job
  go (match kind with
    | 0 => at_ fun p => { p with spadPoison := fset p.spadPoison (off / 64) true }
    | 1 => at_ fun p => { p with codePoison := fset p.codePoison (off / 64) true }
    | 2 => at_ fun p => if off < 0x8000 then { p with inbox := poisonSlot p.inbox (off / 64) } else poisonOutbox p ((off - 0x8000) / 64)
    | 3 =>
      match contextAt s mod unit .shadow with
      | some pk => errorEvent (adjPier s0 pk fun p => poisonImage p off) mod kind unit off false (jobOf s pk)
      | none => errorEvent s0 mod kind unit off false 0
    | 4 =>
      match siteAt s mod unit with
      | some k => errorEvent (poisonTile s0 (mod * 1024 + k) (match ctx with | some pk => (getPier s pk).tileCfg | none => []) off) mod kind unit off false job
      | none => errorEvent s0 mod kind unit off false job
    | 5 =>
      match siteAt s mod unit with
      | some k =>
        let lost := Config.choice s.fresh
        let owner := (getSite s (mod * 1024 + k)).status.extractLsb' 0 12
        let s1 := adjSite (tick1 s0) (mod * 1024 + k) fun x =>
          if lost then { x with status := setBits x.status 62 1 1 } else { x with slicePoison := fset x.slicePoison (off / 64) true }
        errorEvent s1 mod kind unit off lost (if bitAt (getSite s (mod * 1024 + k)).status 63 then owner else 0)
      | none => errorEvent s0 mod kind unit off false 0
    | 7 =>
      let s1 := adjMod s0 mod fun x => { x with hbmPoison := pset x.hbmPoison (dramLoc (domainOf unit off) off) true }
      errorEvent s1 mod kind unit off false (hbmOwner s mod (dramLoc (domainOf unit off) off))
    | _ => errorEvent s0 mod kind unit off false job)

/-- A corrected error is counted (R267, R269). -/
def execCorrectedError (mod kind : Nat) (s : State) : Out :=
  go (adjVeiv s mod fun v => { v with corrected := fset v.corrected (kind % 8) (min (2 ^ 64 - 1) (fget v.corrected (kind % 8) 0 + 1)) })

/-! Spares (R12, R266). -/

/-- Whether a spare is being applied on a module. -/
def sparing (s : State) (m : Nat) : Bool :=
  (getMod s m).halts.any (fun h => match h.next with | .row _ _ => true | .abut _ => true | .channel _ _ => true | _ => false) ||
    (getMod s m).ports.any fun p => p.2.retraining

/-- The resident partitions of some half-spans. -/
def residentParts (s : State) (m : Nat) (hss : List Nat) : List (Nat × List Nat) :=
  hss.filterMap fun hs => (residentAt s m hs).map fun p => (p, [hs])

/-- Kind 1: a logical row moves onto its span's spare row (R235, R266). -/
def spareRow (s : State) (m span row : Nat) : State := startHalt s m (rowParts s m span row) (.row span row)
/-- Kind 2: an abutment is replaced by its edge's spare. -/
def spareAbut (s : State) (m a : Nat) : State := startHalt s m (residentParts s m [a / 32 * 2, a / 32 * 2 + 1]) (.abut a)
/-- Kind 3: a lane is replaced by a spare of its port, which retrains within 200 µs; flits wait for it in the sending buffers. A port without
a link has nothing to train (R249; log entry 89). -/
def spareLane (s : State) (m port lane : Nat) : State :=
  let due := s.cycle + 1 + Config.latency s.fresh % 420000
  let on := portLinked s port
  let s1 := adjMod s m fun x =>
    { x with ports := fadj x.ports port {} fun p =>
        { p with spared := p.spared ++ [lane], retraining := on, retrainEnd := if on then due else p.retrainEnd } }
  let s2 := spareEvent s1 m 3 (BitVec.ofNat 64 (port + lane * 2 ^ 8))
  if on then tick1 (schedule s2 due (.portRetrainComplete m port)) else s2
/-- Kind 4: a pseudo-channel is replaced by a spare of its stack, every partition of the module being halted. -/
def spareChannel (s : State) (m stack pc : Nat) : State := startHalt s m (residentParts s m (List.range 8)) (.channel stack pc)

/-- Whether a spare of a kind is left for a unit. -/
def spareLeft (s : State) (m kind : Nat) (u : Word) : Bool :=
  let x := getMod s m
  match kind with
  | 1 => (fget x.veiv.pierSpared (bits u 0 2) none).isNone
  | 2 => (fget x.veiv.abutSpared (bits u 0 7 / 16) none).isNone
  | 3 => decide ((fget x.ports (bits u 0 3) {}).spared.length < 2)
  | _ => decide ((fget x.veiv.pcSpared (bits u 0 3) []).length < 2)

/-- Whether a unit word is in range for its kind (R266). -/
def spareUnitOk (kind : Nat) (u : Word) : Bool :=
  match kind with
  | 1 => u.toNat == bits u 0 2 + bits u 8 4 * 2 ^ 8
  | 2 => u.toNat == bits u 0 7
  | 3 => u.toNat == bits u 0 3 + bits u 8 5 * 2 ^ 8 && decide (bits u 0 3 ≤ 5 ∧ bits u 8 5 ≤ 17)
  | 4 => u.toNat == bits u 0 3 + bits u 8 7 * 2 ^ 8
  | _ => false

/-- A spare applied. -/
def spareDo (s : State) (m kind : Nat) (u : Word) : State :=
  match kind with
  | 1 => spareRow s m (bits u 0 2) (bits u 8 4)
  | 2 => spareAbut s m (bits u 0 7)
  | 3 => spareLane s m (bits u 0 3) (bits u 8 5)
  | _ => spareChannel s m (bits u 0 3) (bits u 8 7)

/-- A spare applied where one of its kind is left. -/
def spareIfLeft (s : State) (m : Nat) (x : Nat × Word) : State := if spareLeft s m x.1 x.2 then spareDo s m x.1 x.2 else s

/-- A spare that Veiviush applies on its own finding (R266): out of range it is nothing; while another is being applied it waits, as a
command does. -/
def spareStep (s : State) (m kind : Nat) (u : Word) : State :=
  if spareUnitOk kind u = false then s
  else if sparing s m = true ∨ (getMod s m).veiv.spareQueue ≠ [] then adjVeiv s m fun v => { v with spareQueue := v.spareQueue ++ [(kind, u)] }
  else spareIfLeft s m (kind, u)

/-- The first spare that waits is applied once no other is. -/
def spareTurn (s : State) (m : Nat) : State :=
  match (getMod s m).veiv.spareQueue with
  | [] => s
  | x :: l => if sparing s m then s else spareIfLeft (adjVeiv s m fun v => { v with spareQueue := l }) m x

/-- A logical pier row moves onto its span's spare row (R12, R266). -/
def execSparePierRow (mod span row : Nat) (s : State) : Out := go (spareStep s mod 1 (BitVec.ofNat 64 (span + row * 2 ^ 8)))
/-- An abutment is replaced by its edge's spare (R266). -/
def execSpareAbutment (mod abut : Nat) (s : State) : Out := go (spareStep s mod 2 (BitVec.ofNat 64 abut))
/-- A torus lane is replaced (R266). -/
def execSpareTorusLane (mod port lane : Nat) (s : State) : Out := go (spareStep s mod 3 (BitVec.ofNat 64 (port + lane * 2 ^ 8)))
/-- An HBM pseudo-channel is replaced (R266). -/
def execSpareHbmPc (mod stack pc : Nat) (s : State) : Out := go (spareStep s mod 4 (BitVec.ofNat 64 (stack + pc * 2 ^ 8)))

/-- A port has retrained, and the flits that waited go on (R266). -/
def execPortRetrainComplete (mod port : Nat) (s : State) : Out :=
  go (adjMod s mod fun x => { x with ports := fadj x.ports port {} fun p => { p with retraining := false } })

/-- Good lanes of a port: 18 less those that failed (R249). -/
def goodLanes (x : Module) (port : Nat) : Nat := 18 - (fget x.ports port {}).failed.eraseDups.length

/-- A port with fewer than 16 good lanes is down, and the host is told (R249). -/
def execPortDown (mod port : Nat) (s : State) : Out :=
  go (if goodLanes (getMod s mod) port < 16 ∧ (fget (getMod s mod).ports port {}).down = false then
      sendEvent (adjMod s mod fun x => { x with ports := fadj x.ports port {} fun p => { p with down := true } }) mod
        (Config.reportCode 1) 0 (wordBytes (BitVec.ofNat 64 port))
    else s)

/-- A lane fails (R249, R266): a spare takes its place, or the port is down. A port without a link has no lane that can fail. -/
def execTorusLaneFailure (mod port lane : Nat) (s : State) : Out :=
  let s1 := adjMod s mod fun x => { x with ports := fadj x.ports port {} fun p => { p with failed := p.failed ++ [lane] } }
  go (if portLinked s port = false then s
    else if goodLanes (getMod s1 mod) port < 16 then nowDo s1 (.portDown mod port)
    else if (fget (getMod s1 mod).ports port {}).spared.length < 2 then spareLane s1 mod port lane
    else s1)

/-! Debug halts (R233). -/

/-- The context resident on a site. -/
def onSite (s : State) (m site : Nat) : Option Nat := (contextsOn s m site).find? fun pk => pierLoc s pk == .piers

/-- A debug halt of a site: its job strands and its dispatcher stop, and the job-wide hold comes into force. -/
def execDebugHalt (mod site : Nat) (s : State) : Out :=
  go (match onSite s mod site with
    | none => s
    | some pk =>
      (modsOfJob s (jobOf s pk)).foldl (fun s m => launch s (latency s mod .die m .die) (.holdBroadcast m (jobOf s pk).toNat true))
        (adjPier s pk fun p => { p with debugHalted := true, debugFrames := [] }))

/-- The strand frame that Veiviush reads of a debug-halted site through its service actor (R224, R233). -/
def readFrame (s : State) (pk st : Nat) : List Byte := frameBytes (getStrand s pk st) (regShare (regContext s pk (getPier s pk)) st)

/-- The strand frames of 8 KiB that Veiviush writes there: strands and register context become what the frames say. -/
def writeFrames (s : State) (pk : Nat) (frames : FMap (List Byte)) : State :=
  let l := frames.filter fun e => e.2.length == 8192
  if l = [] then s else setPier s pk (framesFrom s pk (fun i => fget l i (readFrame s pk i)) (getPier s pk))

/-- A debug halt ends; with the last one of the job the hold ends within 42 cycles. What Veiviush has written to the site's strand frames
during the halt takes effect with the release, since the rules give it no step of its own (DESIGN CHOICE, log entry 51). -/
def execDebugRelease (mod site : Nat) (s : State) : Out :=
  go (match (contextsOn s mod site).find? fun pk => (getPier s pk).debugHalted with
    | none => s
    | some pk =>
      let job := jobOf s pk
      let s1 := adjPier (writeFrames s pk (getPier s pk).debugFrames) pk fun p => { p with debugHalted := false, debugFrames := [] }
      if (piersOfJob s1 job).any (fun q => (getPier s1 q).debugHalted) then s1
      else
        tick1 ((modsOfJob s job).foldl (fun t m => schedule t (s.cycle + 1 + Config.latency s.fresh % 42) (.holdBroadcast m job.toNat false)) s1))

/-! Record and replay (R271). -/

/-- The mode, the job and the trace region set; every pier of the job starts at its first entry. -/
def setTrace (s : State) (m : Nat) (mode : BitVec 2) (job : BitVec 12) (base : Word) : State :=
  let s1 := adjVeiv s m fun v => { v with rrMode := mode, rrJob := job, rrBase := base, rrAt := s.cycle }
  match partOfJob s m job with
  | none => s1
  | some p => (piersOf s m p fun _ => true).foldl (fun s pk => adjPier s pk fun q =>
      { q with rrNext := 0, rrFull := false, rrFree := false, rrSince := s.cycle }) s1

/-! Time base (R203). -/

/-- Whether a correction of tb is allowed: it leaves tb within 42 counts of module 0's, or nearer to it than it was (R203). -/
def tbAllows (tb0 tb next : Word) : Bool :=
  decide (dist next.toNat tb0.toNat ≤ 42) || decide (dist next.toNat tb0.toNat < dist tb.toNat tb0.toNat)

/-- A time-base flit of module 0 reaches another module with the count that module 0 has by then: where they differ, tb skips or
repeats one count, at most once in 4,096 cycles and never away from module 0's. -/
def execTimeBaseFlit (mod : Nat) (v : Word) (s : State) : Out :=
  let tb0 := (getMod s 0).tb
  go (adjMod s mod fun x =>
    let up := decide ((v - x.tb).toNat < 2 ^ 63)
    if mod = 0 ∨ x.tb = v ∨ (s.cycle < x.tbCorrected + 4096 ∧ x.tbCorrected ≠ 0) ∨ tbAllows tb0 x.tb (if up then x.tb + 1 else x.tb - 1) = false then x
    else { x with tbStep := if up then 2 else 0, tbCorrected := s.cycle })

/-- A weight-store bank enters or leaves its refresh window. Which bank is in its window is a function of the module cycle
count (R138), which every read and write of a slice consults (`refreshWait`), so the state holds nothing of it. -/
def execBankRefresh (mod bank : Nat) (s : State) : Out :=
  let _ := (mod, bank)
  go s

/-! Tables (R195, R204, R250). -/

/-- The checks of R195 on one entry of a placement table. DEDUCED, log entry 52: the list of R195 does not name a reserved fold of 11, a
slot not below f, a site that is not its carrier's, or a carrier whose own entry is not valid; a table with one of them is refused too. -/
def entryOk (tbl : FMap (BitVec 32)) (halfspans : BitVec 8) (fold lp : Nat) (e : BitVec 32) : Bool :=
  let c := fget tbl (teCarrier e) (blankEntry (teCarrier e))
  e.toNat / 2 ^ 29 % 4 != 3 && teFold e == fold && teSite e / 256 == lp / 256 && teValid c && teCarrier c == teCarrier e && teSlot c == 0 &&
    decide (teSlot e < fold) && halfspans.toNat / 2 ^ siteHs (teSite e) % 2 == 1 && teSite c == teSite e

/-- The checks of R195 on a placement table, and of R201 on its fold factor. -/
def tableOk (s : State) (job : BitVec 12) (halfspans : BitVec 8) (tbl : FMap (BitVec 32)) : Bool :=
  let valid := tbl.filter fun e => teValid e.2
  let fold := tableFold tbl
  let cs := carriersOf tbl
  let j := getJob s job.toNat
  valid.all (fun e => decide (e.1 < 1024) && entryOk tbl halfspans fold e.1 e.2) && decide (cs.map fun c => teSite (fget tbl c 0)).Nodup &&
    cs.all (fun c =>
      let g := groupOf tbl c
      decide (g.length ≤ fold) && decide (g.map fun lp => teSlot (fget tbl lp 0)).Nodup) &&
    (!j.loaded || j.img.folds.contains fold)

/-- A partition put on a half-span of its set (R197): resident where the half-span is free, in the shadow stores where those are, else
evicted. -/
def placeOn (s : State) (m part : Nat) (out : Bool) (hs : Nat) : State :=
  setLoc s m part hs (if out then .saved else if (residentAt s m hs).isNone then .piers else if (shadowAt s m hs).isNone then .shadow else .saved)

/-- The carriers of a partition that have no context yet get an empty one, with the root of their job, which service code has
written. -/
def newContexts (s : State) (m part : Nat) : State :=
  let job := (getPart s m part).job
  ((piersOf s m part fun _ => true).filter fun pk => (s.piers.map (·.1)).contains pk == false).foldl
    (fun s pk => setPier s pk { xlroot := Config.jobRoot job.toNat }) s

/-- The half-spans of a set. -/
def halfspansOf (h : BitVec 8) : List Nat := (List.range 8).filter fun hs => h.toNat / 2 ^ hs % 2 == 1

/-- A partition put on its half-spans for the first time. -/
def placeParts (s : State) (m part : Nat) (halfspans : BitVec 8) : State :=
  newContexts ((halfspansOf halfspans).foldl (fun s hs => placeOn s m part false hs) s) m part

/-- The table of a partition that holds its job already (R197, log entry 52): half-spans that leave its set hold it no longer, those
that join are placed, as evicted where the whole partition is. -/
def replaceTable (s : State) (m part : Nat) (halfspans : BitVec 8) (tbl : FMap (BitVec 32)) (out : Bool) : State :=
  let old := halfspansOf (getPart s m part).halfspans
  let new := halfspansOf halfspans
  let s1 := adjPart s m part fun p =>
    { p with table := tbl, halfspans := halfspans, loc := p.loc.filter fun l => new.contains l.1 }
  newContexts ((new.filter fun hs => !old.contains hs).foldl (fun s hs => placeOn s m part out hs) s1) m part

/-- A placement table written by Veiviush at the host's request, or refused (R195, R201, R202): a fold factor changes only
while the partition is evicted. The half-spans of two partitions may overlap, as R205 shares them (DESIGN CHOICE, log entry 52). -/
def execPlacementTableWrite (mod part : Nat) (job : BitVec 12) (halfspans : BitVec 8) (tbl : FMap (BitVec 32)) (s : State) : Out :=
  let x := getPart s mod part
  let out := x.loc.all fun l => l.2 != .piers && l.2 != .shadow
  go (if 8 ≤ part ∨ tableOk s job halfspans tbl = false then s
    else if x.inUse = true ∧ x.job = job then
      if tableFold x.table ≠ tableFold tbl ∧ out = false then s
      else replaceTable s mod part halfspans tbl (out && x.loc.any fun l => l.2 == .saved)
    else
      let s1 := { s with piers := s.piers.filter fun p => !(pkMod p.1 == mod && pkPart p.1 == part) }
      placeParts (adjPart s1 mod part fun _ => { job := job, inUse := true, table := tbl, halfspans := halfspans, savedTable := tbl })
        mod part halfspans)

/-- Whether a group record is accepted (R250). -/
def groupOk (s : State) (hdr : Word) (members : List (BitVec 28)) : Bool :=
  let op := bits hdr 60 3
  let k := bits hdr 57 3
  let job : BitVec 12 := hdr.extractLsb' 38 12
  decide (op ≤ 4) && (op != 4 || (decide (1 ≤ k) && decide (k ≤ 6))) && decide (1 ≤ members.length) && decide (members.length ≤ 65536) &&
    members.all (fun a => (pkOfAddr s (awMod a) (awPier a) job).isSome) && decide (bits hdr 52 5 < 30)

/-- A group entry written by Veiviush, or refused (R250). -/
def execGroupEntryWrite (mod id : Nat) (hdr : Word) (members : List (BitVec 28)) (s : State) : Out :=
  go (if 256 ≤ id ∨ groupOk s hdr members = false then s
    else adjMod s mod fun x => { x with groups := fset x.groups id { hdr := hdr, members := members }, rounds := fdel x.rounds id })

/-- Whether two starts of a half-span lie at least 32,768 cycles apart, cyclically. -/
def apart (p a b : Nat) : Bool := decide (32768 ≤ (b + p - a) % p ∧ 32768 ≤ (a + p - b) % p)

/-- Whether a gang schedule is accepted (R204). -/
def gangOk (p : Nat) (slices : FMap Word) : Bool :=
  let valid := (List.range 16).filter fun i => bitAt (fget slices i 0) 63
  let start (i : Nat) : Nat := bits (fget slices i 0) 0 32
  decide (65536 ≤ p) && valid.all (fun i => decide (start i < p)) &&
    (List.range 8).all fun h =>
      let on := valid.filter fun i => bitAt (fget slices i 0) (48 + h)
      on.all fun i => on.all fun j => i == j || apart p (start i) (start j)

/-- A gang schedule written by Veiviush, or refused (R204). -/
def execGangScheduleWrite (mod : Nat) (o : Word) (p : BitVec 32) (slices : FMap Word) (s : State) : Out :=
  go (if gangOk p.toNat slices then
      adjMod s mod fun x => { x with gangO := o, gangP := p, gang := slices.filter fun e => decide (e.1 < 16) }
    else s)

end Sys2Proof.Machine
end

