-- ==== Sys2Proof/Machine/HostPort.lean ====
section
/-!
DEFINITION. The host port: the numbering of Adeif frames, puts, gets, injected messages and job images, and the Veiviush space
(R102, R149, R161, R177, R234, R259 to R266, R268 to R271, R397, R398).
-/

namespace Sys2Proof.Machine

/-! Frames in and out (R259, R260, R262). -/

/-- Whether a frame comes by the EtherType or the UDP port that Adeif has (R259). -/
def portTakes (h : HostPort) (f : Frame) : Bool :=
  match f.encap with
  | .ether t => t == h.etherType
  | .udp4 p => p == h.udpPort
  | .udp6 p => p == h.udpPort

/-- Whether a frame is well formed (R260): its version, and a length that its data covers. -/
def frameOk (f : Frame) : Bool := f.version == 1 && decide (f.length ≤ 8192 ∧ f.length ≤ f.data.length)

/-- Whether the port of a module is up: from stage 2 on, or in recovery (R264). -/
def portUp (x : Module) : Bool := x.present && (decide (2 ≤ x.veiv.stage.toNat) || x.veiv.recovery)

/-- A frame reaches the port of a module: one by another EtherType or UDP port is dropped and counted, one that is not well formed is
dropped; any other is taken with the data of its length, and answers go back as it came (R259, R260). -/
def atPort (s : State) (m : Nat) (f : Frame) (act : State → Frame → State) : State :=
  let x := getMod s m
  if portUp x = false then s
  else if portTakes x.host f = false then adjHost s m fun h => { h with dropped := if h.dropped = -1 then h.dropped else h.dropped + 1 }
  else if frameOk f = false then s
  else act (adjHost s m fun h => { h with encap := f.encap }) { f with data := f.data.take f.length }

/-- Whether a frame's type action is left out (R260). -/
def ackOnly (f : Frame) : Bool := f.flags.toNat % 2 == 1

/-- The 32 bytes of a frame's header (R260). -/
def frameHeader (f : OutFrame) : List Byte :=
  bytesOfNat 1 1 ++ bytesOfNat 1 f.type.toNat ++ bytesOfNat 2 f.data.length ++ bytesOfNat 4 f.seq.toNat ++ bytesOfNat 4 f.ack.toNat ++
    bytesOfNat 2 f.job.toNat ++ bytesOfNat 2 f.flags.toNat ++ wordBytes f.addr ++ wordBytes f.operand

/-- A frame as it leaves: header and data (R260). -/
def frameOnWire (f : OutFrame) : List Byte := frameHeader f ++ f.data

/-- Frames put on the wire. -/
def putOnWire (h : HostPort) (l : List OutFrame) : HostPort := { h with wire := h.wire ++ l.map (onWire h) }

/-- An acknowledge number frees the frames below it, and as many more may leave (R262). -/
def takeAck (s : State) (m : Nat) (ack : BitVec 32) : State :=
  adjHost s m fun h =>
    match h.unacked with
    | [] => h
    | u :: _ =>
      let k := (ack - u.seq).toNat
      if k = 0 ∨ h.unacked.length < k then h
      else
        let rest := h.unacked.drop k
        putOnWire { h with unacked := rest, lastAdvance := s.cycle } ((rest.take 1024).drop (1024 - k))

/-- Every unacknowledged frame in the window is sent again, in order (R262). -/
def resendAll (s : State) (m : Nat) : State := adjHost s m fun h => putOnWire { h with lastAdvance := s.cycle } (h.unacked.take 1024)

/-- The highest number sent: what waits for the window has not left (R262). -/
def highestSent (h : HostPort) : BitVec 32 :=
  match h.unacked with
  | [] => h.nextSeq - 1
  | u :: _ => u.seq + BitVec.ofNat 32 (min 1024 h.unacked.length) - 1

/-- The number that the port may acknowledge: everything received, a put of a job only once its writes are performed (R177, R262). -/
def ackable (h : HostPort) : BitVec 32 :=
  match h.waiting.find? fun w => w.type == 2 && bits w.frame.addr 56 8 != 0xFE with
  | some w => w.frame.seq
  | none => h.expected

/-- An acknowledge-only frame (R260): it has no number of its own. -/
def ackFrame : OutFrame := { type := 0, seq := 0, job := 0, flags := 1, addr := 0, operand := 0, data := [] }

/-- What has been received or done is acknowledged in a frame of its own, where the number has moved or `again` asks for it (R262). -/
def settleAck (s : State) (m : Nat) (again : Bool) : State :=
  adjHost s m fun h =>
    if again = true ∨ ackable h ≠ h.ackedTo then putOnWire { h with ackedTo := ackable h } [ackFrame] else h

/-- An answer to a get, or the error answer of a put or get (R261). -/
def getData (s : State) (m : Nat) (f : Frame) (err : Bool) (data : List Byte) : State :=
  sendFrame s m 9 f.job (if err then 2 else 0) f.addr (BitVec.ofNat 64 f.seq.toNat) data

/-- The bytes of a frame as a word, from an offset. -/
def dataWord (f : Frame) (o : Nat) : Word :=
  BitVec.ofNat 64 ((((f.data.drop o).take 8).map (·.toNat)).foldr (fun b n => b + 256 * n) 0)

/-! Puts and gets of a job's memory (R149, R177, R261, R397). -/

/-- The accessed bits that the walks set, and the dirty bits of a put, which needs no right (R147, R155). -/
def hostMarks (s : State) (m : Nat) (root : Word) (need : BitVec 3) (l : List Word) : State :=
  l.foldl (fun s va =>
    match walkAll s m root va need with
    | .leaf _ _ a => if need = 0 then hbmOr (hbmOr s a.mod a.dom a.loc 58) a.mod a.dom a.loc 57 else hbmOr s a.mod a.dom a.loc 58
    | _ => s) s

/-- The form of an address through an aperture is checked first, as at the trigger of a gm access (R136, R261). -/
def hostForm (f : Frame) (put : Bool) : Bool := apertureOk (if put then 8 else 0) f.addr

/-- The target of a put or get through an aperture, where a window accepts it; the host is no pier, so that only a window open
to any pier of the job accepts it (log entry 45). Where there is none: the code of the fault, or none where a fenced pier answers with
retry (R234). -/
def hostAperture (s : State) (here : Nat) (f : Frame) (put : Bool) (n : Nat) : Except (Option Nat) Nat :=
  let m := bits f.addr 43 12
  let lp := bits f.addr 33 10
  let o := bits f.addr 0 30
  let accepts (pk : Nat) : Bool := (winsOf s pk lp).any fun w =>
    bitAt w 63 && bits w 58 2 == 2 && (bits w 56 2 == (if bits f.addr 30 3 = 2 then 1 else 0)) && bitAt w (if put then 61 else 62) &&
      decide (bits w 29 15 * 64 ≤ o ∧ o + n ≤ bits w 14 15 * 64)
  if hostForm f put = false then .error (some 0x08)
  else if reachable s here m = false then .error (some 0x0B)
  else
    match pkOfAddr s m lp f.job with
    | none => .error (some 0x08)
    | some pk =>
      if (getPier s pk).lost then .error (some 0x08)
      else if (getPier s pk).fenced then .error none
      else if residentOpen s pk = true ∧ accepts pk = true then .ok pk
      else .error (some 0x08)

/-- The poison marks of a byte map read. -/
def poisonedAt (p : FMap Bool) (o n : Nat) : Option Nat := (List.range n).find? fun i => pget p (o + i)

/-- How a put or get ends: it is done, it waits for an entry that is being moved on the way to an address or for a fenced pier, or it
fails with a code and an address. -/
inductive HostEnd (α : Type) where
  | done (x : α)
  | moving (va : Word)
  | fenced
  | fails (code : Nat) (w3 : Word)

/-- A put through an aperture. -/
def aperturePut (s : State) (m : Nat) (f : Frame) : HostEnd State :=
  match hostAperture s m f true f.data.length with
  | .error none => .fenced
  | .error (some c) => .fails c f.addr
  | .ok pk =>
    let o := bits f.addr 0 30
    .done (adjPier s pk fun p =>
      { p with spad := mwriteList p.spad o f.data, spadPoison := clearCovered p.spadPoison o f.data.length })

/-- A put's writes (R177, R261). It needs no right of a page: R386 puts into pages mapped with read rights only (log entry 56). -/
def putAt (s : State) (m : Nat) (f : Frame) : HostEnd State :=
  if bits f.addr 56 8 ≠ 0 then .fails 0x09 f.addr
  else if isAperture f.addr then aperturePut s m f
  else
    let root := jobRootWord s m f.job
    let l := pieces f.addr f.data.length
    match hostWalk s m root 0 l with
    | some (va, .moving) => .moving va
    | some (va, .ends o) => .fails (walkCode o) va
    | some (va, .leaf _ _ _) => .fails 0x0B va
    | none => .done (vaClear (vaWrite (hostMarks s m root 0 l) m root f.addr f.data) m root f.addr f.data.length)

/-- The bytes of a get, or the first address read from a poisoned granule. -/
def bytesOrPoison (va : Word) (l : List (Byte × Bool)) : Except Word (List Byte) :=
  match l.findIdx? (·.2) with
  | some i => .error (va + BitVec.ofNat 64 i)
  | none => .ok (l.map (·.1))

/-- A get through an aperture. -/
def apertureGet (s : State) (m : Nat) (f : Frame) (n : Nat) : HostEnd (State × List (Byte × Bool)) :=
  match hostAperture s m f false n with
  | .error none => .fenced
  | .error (some c) => .fails c f.addr
  | .ok pk =>
    let o := bits f.addr 0 30
    if bits f.addr 30 3 = 2 then
      let x := getSite s (siteKey s pk)
      if sliceOwned x.status f.job = false then .fails 0x17 f.addr
      else .done (s, (List.range n).map fun i => (mget x.slice (o + i), pget x.slicePoison (o + i)))
    else .done (s, (List.range n).map fun i => (mget (getPier s pk).spad (o + i), pget (getPier s pk).spadPoison (o + i)))

/-- A get's reads: the state with accessed bits set and leases ended (R161), and what it reads. -/
def getAt (s : State) (m : Nat) (f : Frame) (n : Nat) : HostEnd (State × List (Byte × Bool)) :=
  if bits f.addr 56 8 ≠ 0 then .fails 0x09 f.addr
  else if isAperture f.addr then apertureGet s m f n
  else
    let root := jobRootWord s m f.job
    let l := pieces f.addr n
    match hostWalk s m root 4 l with
    | some (va, .moving) => .moving va
    | some (va, .ends o) => .fails (walkCode o) va
    | some (va, .leaf _ _ _) => .fails 0x0B va
    | none =>
      match vaRead s m root f.addr n with
      | .error e => .fails (walkCode e.1) e.2
      | .ok b => .done (vaTouch (hostMarks s m root 4 l) m root f.addr n, b)

/-- The error answer that carries a record (R397). -/
def hostFault (s : State) (m : Nat) (f : Frame) (code : Nat) (w3 : Word) : State :=
  getData s m f true (hostRecord m code f.seq 0 w3)

/-- What a frame's action comes to: it is done, the frame waits for some cycles, the wait being one for a moving entry or not, or its flits
leave and are back after some cycles. -/
inductive FrameEnd where
  | done (s : State)
  | waits (cycles : Nat) (moving : Bool)
  | leaves (cycles : Nat)

/-- A put or get that ends, that waits, or that fails with its record (R149, R234, R397). -/
def frameEnd (s : State) (m : Nat) (w : WaitFrame) {α : Type} (e : HostEnd α) (f : α → State) : FrameEnd :=
  match e with
  | .done x => .done (f x)
  | .fails c a => .done (hostFault s m w.frame c a)
  | .fenced => .waits 512 false
  | .moving va => if 16 ≤ w.retries then .done (hostFault s m w.frame 0x0B va) else .waits 4096 true

/-- A put of a job. -/
def putDo (s : State) (m : Nat) (w : WaitFrame) : FrameEnd := frameEnd s m w (putAt s m w.frame) id

/-- A get of a job. -/
def getDo (s : State) (m : Nat) (w : WaitFrame) : FrameEnd :=
  let f := w.frame
  let n := bits f.operand 0 14
  if n = 0 ∨ 8192 < n then .done (getData s m f true [])
  else
    frameEnd s m w (getAt s m f n) fun r =>
      match bytesOrPoison f.addr r.2 with
      | .error a => hostFault s m f 0x0C a
      | .ok b => getData r.1 m f false b

/-- The modules and places in them that a put or get of `n` bytes reaches: the pier of an aperture, the homes of the pages. -/
def hostPlaces (s : State) (m : Nat) (f : Frame) (n : Nat) : List (Nat × Place) :=
  if bits f.addr 56 8 ≠ 0 then []
  else if isAperture f.addr then
    (if hostForm f (f.data != []) then [(bits f.addr 43 12, destPlace s (bits f.addr 43 12) (bits f.addr 33 10) f.job)] else [])
  else
    (List.range ((f.addr.toNat % 64 + n + 63) / 64)).filterMap fun i =>
      let va : Word := BitVec.ofNat 64 ((f.addr.toNat / 64 + i) * 64)
      match walkAll s m (jobRootWord s m f.job) va 0 with
      | .leaf e lv _ => some (bits e 36 12, .abut (abutOf (dramLoc (bits e 55 2) (physOf e lv va))))
      | _ => none

/-- The cycles that the flits of a put or get take to the farthest place and back (R22, R31, R248; log entry 88). -/
def hostTrip (s : State) (m : Nat) (f : Frame) (n : Nat) : Nat :=
  maxList ((hostPlaces s m f n).map fun p => if reachable s m p.1 then 2 * latency s m .die p.1 p.2 else 0)

/-- Whether a frozen module holds the flits of a put or get (R270). -/
def hostStuck (s : State) (m : Nat) (f : Frame) (n : Nat) : Bool :=
  (hostPlaces s m f n).any fun p => !(p.1 :: modsBetween s m p.1).all (clocked s)

/-- A put or get of `n` bytes acts when its flits are back. -/
def afterTrip (s : State) (m : Nat) (w : WaitFrame) (n : Nat) (act : FrameEnd) : FrameEnd :=
  if hostStuck s m w.frame n then .waits 512 false
  else if w.away = true ∨ hostTrip s m w.frame n = 0 then act
  else .leaves (hostTrip s m w.frame n)

/-! The Veiviush space (R263). -/

/-- Whether an address lies in the Veiviush space. -/
def veivAddr (f : Frame) : Bool := bits f.addr 56 8 == 0xFE

/-- The offset of a frame in the Veiviush space. -/
def veivOff (f : Frame) : Nat := bits f.addr 0 56

/-- The status word. -/
def statusWord (v : Veiv) : Word :=
  BitVec.ofNat 64 (v.stage.toNat + b2n v.recovery * 8 + b2n v.frozen * 16 + b2n (v.rrMode == 1) * 32 + b2n (v.rrMode == 2) * 64)

/-- Offset 0x0000: status. -/
def doStatusGet (s : State) (m : Nat) (f : Frame) : State := getData s m f false (wordBytes (statusWord (getMod s m).veiv))

/-- Offset 0x0100: a nonce (R265). -/
def doNonce (s : State) (m : Nat) (f : Frame) : State := startReport s m f.data

/-- Offset 0x0200: the report, or flag [1] before it is ready (R265). -/
def doReportGet (s : State) (m : Nat) (f : Frame) : State :=
  match (getMod s m).veiv.report with
  | some r => getData s m f false r
  | none => getData s m f true []

/-- Offset 0x1000: the power cap, 300 to 1,800 W (R268). -/
def doCapPut (s : State) (m : Nat) (f : Frame) : State :=
  let v := (dataWord f 0).toNat
  if 300 ≤ v ∧ v ≤ 1800 then adjVeiv s m fun x => { x with cap := v } else getData s m f true []

/-- Offset 0x1000 read. -/
def doCapGet (s : State) (m : Nat) (f : Frame) : State := getData s m f false (wordBytes (BitVec.ofNat 64 (getMod s m).veiv.cap))

/-- Offset 0x2000: one refresh of the telemetry block whole (R269). -/
def doTelemetryGet (s : State) (m : Nat) (f : Frame) : State :=
  getData s m f false (padTo 512 ((getMod s m).veiv.telemetry.map wordBytes).flatten)

/-- Offset 0x3000: a spare command (R266); it waits while a spare is being applied. -/
def doSpare (s : State) (m : Nat) (f : Frame) : FrameEnd :=
  let kind := bits (dataWord f 0) 0 8
  let u := dataWord f 8
  if spareUnitOk kind u = false then .done (getData s m f true [])
  else if sparing s m = true ∨ (getMod s m).veiv.spareQueue ≠ [] then .waits 1 false
  else if spareLeft s m kind u = false then .done (getData s m f true [])
  else .done (spareDo s m kind u)

/-- Offset 0x4000: a freeze (R270). -/
def doFreeze (s : State) (m : Nat) (f : Frame) : State :=
  if dataWord f 0 = 0x46525A45 then freezeModule s m else getData s m f true []

/-- Offset 0x5000: a chunk of the scan image, after a freeze (R270). -/
def doScanGet (s : State) (m : Nat) (f : Frame) : State :=
  if (getMod s m).veiv.frozen then
    getData s m f false ((List.range 8192).map fun i => Config.scanByte m (getMod s m).veiv.frozenAt (bits f.operand 32 32) i)
  else getData s m f true []

/-- Offset 0x6000: record and replay control (R271). -/
def doTrace (s : State) (m : Nat) (f : Frame) : State :=
  let w := dataWord f 0
  if bits w 0 2 = 3 then getData s m f true []
  else setTrace s m (w.extractLsb' 0 2) (w.extractLsb' 2 12) (dataWord f 8)

/-- A put to the Veiviush space. -/
def veivPut (s : State) (m : Nat) (f : Frame) : FrameEnd :=
  let o := veivOff f
  let n := f.data.length
  if o = 0x0100 ∧ n = 64 then .done (doNonce s m f)
  else if o = 0x1000 ∧ n = 8 then .done (doCapPut s m f)
  else if o = 0x3000 ∧ n = 16 then doSpare s m f
  else if o = 0x4000 ∧ n = 8 then .done (doFreeze s m f)
  else if o = 0x6000 ∧ n = 16 then .done (doTrace s m f)
  else .done (getData s m f true [])

/-- A get from the Veiviush space. -/
def veivGet (s : State) (m : Nat) (f : Frame) : State :=
  let o := veivOff f
  let n := bits f.operand 0 14
  if o = 0x0000 ∧ n = 8 then doStatusGet s m f
  else if o = 0x0200 ∧ n = 578 then doReportGet s m f
  else if o = 0x1000 ∧ n = 8 then doCapGet s m f
  else if o = 0x2000 ∧ n = 512 then doTelemetryGet s m f
  else if o = 0x5000 ∧ n = 8192 then doScanGet s m f
  else getData s m f true []

/-! Injected messages (R261, R398). -/

/-- The message of a message-inject frame (R261). -/
def injectMsg (m : Nat) (f : Frame) : Msg :=
  let h : BitVec 128 := BitVec.ofNat 128 (((f.data.take 16).map (·.toNat)).foldr (fun b n => b + 256 * n) 0)
  let g := msgOfHeader h ((List.range 6).map fun i => dataWord f (16 + 8 * i))
  { g with smod := BitVec.ofNat 12 m, spier := 0, sact := 63, flags := g.flags ||| 4 }

/-- A message joins the inject outbox, or waits while it is full (R398). -/
def injectDo (s : State) (m : Nat) (f : Frame) : FrameEnd :=
  if 1024 ≤ (getMod s m).host.inject.length then .waits 1 false
  else
    let e : InjEntry := { tok := s.tok, msg := injectMsg m f, frame := f.seq, sent := false, retry := false }
    .done (pumpHost (adjHost { s with tok := s.tok + 1 } m fun h => { h with inject := h.inject ++ [e] }) m)

/-! Frames taken in sequence act in order (R177, R262). -/

/-- A section of a job image stored at its offset; the last one hands the image to the loader, whose work the frame waits for
(R102, R177, R261). -/
def loadDo (s : State) (w : WaitFrame) : FrameEnd :=
  let f := w.frame
  match w.img with
  | some img => .done (adjJob s img.job.toNat fun j => { j with next := img, tries := 0, recv := mwriteList j.recv f.operand.toNat f.data })
  | none => .done (adjJob s f.job.toNat fun j => { j with recv := mwriteList j.recv f.operand.toNat f.data })

/-- The action of a frame; where it waits, every later frame does. On a frozen module only Veiviush acts. -/
def frameAct (s : State) (m : Nat) (w : WaitFrame) : FrameEnd :=
  let f := w.frame
  if w.type = 2 ∧ veivAddr f = true then veivPut s m f
  else if w.type = 3 ∧ veivAddr f = true then .done (veivGet s m f)
  else if (getMod s m).veiv.frozen then .done s
  else
    match w.type with
    | 1 => loadDo s w
    | 2 => afterTrip s m w f.data.length (putDo s m w)
    | 3 => afterTrip s m w (bits f.operand 0 14) (getDo s m w)
    | 4 => injectDo s m f
    | _ => .done s

/-- The first waiting frame is done with. -/
def popFrame (s : State) (m : Nat) : State := adjHost s m fun h => { h with waiting := h.waiting.drop 1 }

/-- The first waiting frame waits until a cycle. -/
def holdFrame (s : State) (m : Nat) (w : WaitFrame) (cycles : Nat) (moving : Bool) : State :=
  adjHost s m fun h => { h with waiting := { w with retries := w.retries + b2n moving, at_ := s.cycle + cycles } :: h.waiting.drop 1 }

/-- The flits of the first waiting frame leave: they are back after the time of their way and a wait under load (R192). -/
def sendFrameOut (s : State) (m : Nat) (w : WaitFrame) (cycles : Nat) : State :=
  adjHost (tick1 s) m fun h =>
    { h with waiting := { w with away := true, at_ := s.cycle + cycles + Config.fabricWait s.fresh } :: h.waiting.drop 1 }

/-- A job image is complete: its loader is the next work of the cycle, and the frames behind it wait until it has ended. -/
def loaderNext (s : State) (m : Nat) (img : JobImage) : State :=
  { s with agenda := .ev (.jobLoaderRun m img.job.toNat) :: s.agenda }

/-- The waiting frames act while none has to wait. The loader of an image takes its frame away when it has ended. -/
def hostWork : Nat → State → Nat → State
  | 0, s, _ => s
  | n + 1, s, m =>
    match (getMod s m).host.waiting with
    | [] => s
    | w :: _ =>
      if s.cycle < w.at_ then s
      else
        match frameAct s m w, w.img with
        | .waits k b, _ => holdFrame s m w k b
        | .leaves k, _ => sendFrameOut s m w k
        | .done t, some img =>
          if (getMod s m).veiv.frozen then hostWork n (popFrame t m) m
          else if w.retries ≠ 0 then s
          else loaderNext (adjHost t m fun h => { h with waiting := { w with retries := 1 } :: h.waiting.drop 1 }) m img
        | .done t, none => hostWork n (popFrame t m) m

/-- The waiting frames of a module act, and what they complete is acknowledged. -/
def hostTurn (s : State) (m : Nat) : State := settleAck (hostWork ((getMod s m).host.waiting.length + 1) s m) m false

/-- What a port in recovery takes: gets of status (R264). -/
def recoveryTakes (type : Nat) (f : Frame) : Bool := type == 3 && veivAddr f && veivOff f == 0

/-- A frame arrives (R262): taken in sequence only, a frame taken before acknowledged again. -/
def receive (s : State) (m type : Nat) (f : Frame) (img : Option JobImage) : State :=
  atPort s m f fun s f =>
    let x := getMod s m
    if x.veiv.recovery = true ∧ recoveryTakes type f = false then s
    else
      let s1 := takeAck s m f.ack
      if ackOnly f then s1
      else if f.seq = x.host.expected then
        hostTurn
          (adjHost s1 m fun h =>
            { h with
              expected := h.expected + 1
              waiting := h.waiting ++ [{ type := type, frame := f, img := img, at_ := s.cycle }] }) m
      else settleAck s1 m (decide ((x.host.expected - f.seq).toNat < 2 ^ 31))

/-! The frames. -/

/-- A section of a job image; with the last one the loader acts (R102, R261). DESIGN CHOICE, log entry 90: no rule lays out the bytes of an
image or says how its last section is known, so that the image as assembled and the mark of the last section come beside the frame, and the
bytes of the sections are kept and not decoded. -/
def execFrameJobLoad (mod : Nat) (f : Frame) (img : JobImage) (last : Bool) (s : State) : Out :=
  go (receive s mod 1 f (if last then some { img with job := f.job } else none))

/-- A put (R177, R261, R263). -/
def execFramePut (mod : Nat) (f : Frame) (s : State) : Out := go (receive s mod 2 f none)

/-- A get (R177, R261, R263). -/
def execFrameGet (mod : Nat) (f : Frame) (s : State) : Out := go (receive s mod 3 f none)

/-- A message inject (R261, R398). -/
def execFrameMessageInject (mod : Nat) (f : Frame) (s : State) : Out := go (receive s mod 4 f none)

/-- A sequence query is answered at once, whatever the window, by a frame without a number (R262). -/
def execFrameSequenceQuery (mod : Nat) (f : Frame) (s : State) : Out :=
  go (atPort s mod f fun s f =>
    adjHost s mod fun h =>
      putOnWire h [{ type := 8, seq := 0, job := f.job, flags := 0, addr := 0
                     operand := BitVec.ofNat 64 (h.expected.toNat + (highestSent h).toNat * 2 ^ 32), data := [] }])

/-- The host's answer to a query: the module sends again from the number the host expects (R262). -/
def execFrameSequenceAnswer (mod : Nat) (f : Frame) (s : State) : Out :=
  go (atPort s mod f fun s f =>
    if (getMod s mod).veiv.recovery then s else resendAll (takeAck s mod (f.operand.extractLsb' 0 32)) mod)

/-- An acknowledge-only frame (R260, R262). -/
def execFrameAckOnly (mod : Nat) (f : Frame) (s : State) : Out :=
  go (atPort s mod f fun s f => if ackOnly f = true ∧ (getMod s mod).veiv.recovery = false then takeAck s mod f.ack else s)

/-- 42,000 cycles after the last acknowledgement that advanced, every unacknowledged frame is sent again (R262). -/
def execFrameResendTimeout (mod : Nat) (s : State) : Out :=
  let h := (getMod s mod).host
  go (if h.unacked ≠ [] ∧ h.lastAdvance + 42000 ≤ s.cycle then resendAll s mod else s)

/-- A put or get of one offset of the Veiviush space (R263): a frame for another address is not this step. -/
def veivFrame (s : State) (m type off : Nat) (f : Frame) : State :=
  if veivAddr f = true ∧ veivOff f = off then receive s m type f none else s

/-- Status (R263). -/
def execStatusGet (mod : Nat) (f : Frame) (s : State) : Out := go (veivFrame s mod 3 0x0000 f)
/-- An attestation nonce (R263, R265). -/
def execAttestationNonce (mod : Nat) (f : Frame) (s : State) : Out := go (veivFrame s mod 2 0x0100 f)
/-- The attestation report (R263, R265). -/
def execAttestationReportGet (mod : Nat) (f : Frame) (s : State) : Out := go (veivFrame s mod 3 0x0200 f)
/-- The power cap (R263, R268). -/
def execPowerCapWrite (mod : Nat) (f : Frame) (s : State) : Out := go (veivFrame s mod 2 0x1000 f)
/-- The telemetry block (R263, R269). -/
def execTelemetryGet (mod : Nat) (f : Frame) (s : State) : Out := go (veivFrame s mod 3 0x2000 f)
/-- A freeze (R263, R270). -/
def execFreeze (mod : Nat) (f : Frame) (s : State) : Out := go (veivFrame s mod 2 0x4000 f)
/-- A chunk of the scan image (R263, R270). -/
def execScanReadoutGet (mod : Nat) (f : Frame) (s : State) : Out := go (veivFrame s mod 3 0x5000 f)

/-- A control put of one mode (R271): a put of another mode is not this step. -/
def traceFrame (s : State) (m mode : Nat) (f : Frame) : State :=
  if bits (dataWord f 0) 0 2 = mode then veivFrame s m 2 0x6000 f else s

/-- Record and replay off (R271). -/
def execRrOff (mod : Nat) (f : Frame) (s : State) : Out := go (traceFrame s mod 0 f)
/-- Record mode (R271). -/
def execRrRecord (mod : Nat) (f : Frame) (s : State) : Out := go (traceFrame s mod 1 f)
/-- Replay mode (R271, R272). -/
def execRrReplay (mod : Nat) (f : Frame) (s : State) : Out := go (traceFrame s mod 2 f)

end Sys2Proof.Machine
end

