-- ==== Sys2Proof/Machine/Keyfun.lean ====
section
/-!
DEFINITION. The functions of the keystones by fixed-point series, as close as the error bounds of R115 need: a result is a
free value within its bound (log entry 7).
-/

namespace Sys2Proof.Machine

/-- 1 as a fixed-point number, 512 bits behind the binary point. -/
def fxOne : Int := 2 ^ 512
/-- A product. -/
def fxMul (a b : Int) : Int := a * b / fxOne
/-- A quotient. -/
def fxDiv (a b : Int) : Int := a * fxOne / b
/-- ± m × 2^e, e at least −512. -/
def fxOf (neg : Bool) (m : Nat) (e : Int) : Int :=
  let v : Int := m * 2 ^ (e + 512).toNat
  if neg then -v else v

/-- The sum of `n` terms of a series: `t` runs on by `next`, and each term is `w` of it. -/
def fxSum (next w : Nat → Int → Int) : (n k : Nat) → (t acc : Int) → Int
  | 0, _, _, acc => acc
  | n + 1, k, t, acc => fxSum next w n (k + 1) (next k t) (acc + w k t)

/-- The inverse hyperbolic tangent of a number up to 1/3. -/
def fxAtanh (z : Int) : Int := fxSum (fun _ t => fxMul t (fxMul z z)) (fun k t => t / (2 * k + 1 : Nat)) 170 0 z 0
/-- The arc tangent of 1 / n. -/
def fxAtanInv (n : Nat) : Int := fxSum (fun _ t => -(t / (n * n : Nat))) (fun k t => t / (2 * k + 1 : Nat)) 120 0 (fxOne / n) 0
/-- ln 2. -/
def fxLn2 : Int := 2 * fxAtanh (fxOne / 3)
/-- π. -/
def fxPi : Int := 16 * fxAtanInv 5 - 4 * fxAtanInv 239

/-- e^y; beyond ±150, where FP32 overflows or has long reached zero, a number as great, or a small one that is not zero, as e^y is
not. -/
def fxExp (y : Int) : Int :=
  if y < -150 * fxOne then 1
  else if 150 * fxOne < y then 2 ^ 200 * fxOne
  else Nat.repeat (fun a => fxMul a a) 8 (fxSum (fun k t => fxMul t (y / 256) / (k + 1 : Nat)) (fun _ t => t) 80 0 fxOne 0)

/-- ln of m × 2^e, m not zero. -/
def fxLn (m : Nat) (e : Int) : Int :=
  let f := fxOf false m (-(m.log2 : Int))
  2 * fxAtanh (fxDiv (f - fxOne) (f + fxOne)) + (e + m.log2) * fxLn2

/-- sin, and cos where asked, the argument reduced by whole turns. -/
def fxSin (cos : Bool) (x : Int) : Int :=
  let r := x % (2 * fxPi)
  let r2 := fxMul r r
  if cos then fxSum (fun k t => -(fxMul t r2 / ((2 * k + 1) * (2 * k + 2) : Nat))) (fun _ t => t) 70 0 fxOne 0
  else fxSum (fun k t => -(fxMul t r2 / ((2 * k + 2) * (2 * k + 3) : Nat))) (fun _ t => t) 70 0 r 0

/-- tanh; ±1 to the precision of FP32 beyond ±64. -/
def fxTanh (x : Int) : Int :=
  let y := max (-64 * fxOne) (min (64 * fxOne) x)
  fxDiv (fxExp (2 * y) - fxOne) (fxExp (2 * y) + fxOne)

/-- erf; beyond ±7 the number next to ±1, which erf does not reach (the ulp below 1 is half of that at 1). -/
def fxErf (x : Int) : Int :=
  if x < -7 * fxOne then 1 - fxOne
  else if 7 * fxOne < x then fxOne - 1
  else fxDiv (2 * fxSum (fun k t => -(fxMul t (fxMul x x) / (k + 1 : Nat))) (fun k t => t / (2 * k + 1 : Nat)) 300 0 x 0)
    (isqrt (fxPi.toNat * 2 ^ 512))

/-- The value of a function of R115 at ± m × 2^e. -/
def fxKey (fn : Nat) (neg : Bool) (m : Nat) (e : Int) : Int :=
  let x := fxOf neg m e
  match fn with
  | 0 => fxExp x
  | 1 => fxExp (fxMul x fxLn2)
  | 2 => fxLn m e
  | 3 => fxDiv (fxLn m e) fxLn2
  | 7 => if neg then -fxSin false (fxOf false m e) else fxSin false x
  | 8 => fxSin true (fxOf false m e)
  | 9 => fxTanh x
  | 10 => min (fxOne - 1) (fxDiv fxOne (fxOne + fxExp (-x)))
  | _ => fxErf x

/-- Whether an FP32 value lies within `n` ulp of a fixed-point value, the ulp taken at that value (R115); an infinity
counts as 2^128. -/
def withinUlps (n : Nat) (v : Int) (x : Nat) : Bool :=
  let ulp : Nat := 2 ^ (ulpExp fmtFp32 v.natAbs (-512) + 512).toNat
  let near (r : Int) : Bool := decide ((r - v).natAbs ≤ n * ulp)
  match fvOf fmtFp32 x with
  | .nan => false
  | .inf neg => near (fxOf neg 1 128)
  | .fin neg m e => near (fxOf neg m e)

/-- A result of R115 with an error bound: the free value of the operand where it lies within the bound, else the exact value rounded
(log entry 7). -/
def kfBounded (fn x : Nat) (neg : Bool) (m : Nat) (e : Int) : Nat :=
  let free := (Config.keystone fn (BitVec.ofNat 32 x)).toNat
  let v := fxKey fn neg m e
  if withinUlps (if fn = 1 ∨ fn = 3 then 1 else 2) v free then free else rne fmtFp32 (.fin (decide (v < 0)) v.natAbs (-512))

end Sys2Proof.Machine
end

