-- ==== Sys2Proof/Machine/Vx.lean ====
section
/-!
DEFINITION. The meanings of vx (R105, R106, R108 to R114, R365 to R374).
-/

namespace Sys2Proof.Machine

/-- Lanes and their valid mask. -/
structure Vec where
  row : Row
  mask : BitVec 16
  deriving DecidableEq, Repr

/-- The vector that a value supplies (R71). -/
def vecOf (v : Value) : Vec := ⟨vlanes v, vmaskOf v⟩

/-- Bits of an element (R106). -/
def elemBits : VT → Nat
  | .i32 | .f32 => 32
  | .bf16 | .f16 => 16
  | .cf32 => 64

/-- Elements of a vector (R106). -/
def elemCount (t : VT) : Nat := 512 / elemBits t

/-- Element `j` of `w` bits. -/
def elemAt (w : Nat) (r : Row) (j : Nat) : Nat := r.toNat / 2 ^ (w * j) % 2 ^ w

/-- Whether a lane is valid. -/
def laneOk (m : BitVec 16) (i : Nat) : Bool := m.toNat / 2 ^ i % 2 == 1

/-- Whether the lanes of element `j` are valid (R106). -/
def elemOk (t : VT) (m : BitVec 16) (j : Nat) : Bool :=
  match t with
  | .i32 | .f32 => laneOk m j
  | .bf16 | .f16 => laneOk m (j / 2)
  | .cf32 => laneOk m (2 * j) && laneOk m (2 * j + 1)

/-- A number from elements of `w` bits, element 0 lowest. -/
def natOfElems (w : Nat) : List Nat → Nat
  | [] => 0
  | e :: l => e % 2 ^ w + 2 ^ w * natOfElems w l

/-- A row from its elements. -/
def rowOfElems (w n : Nat) (f : Nat → Nat) : Row := BitVec.ofNat 512 (natOfElems w ((List.range n).map f))

/-- The lanes of a result: a lane is valid where its element is, both lanes of a complex element alike (R365). -/
def maskOfElems (t : VT) (ok : Nat → Bool) : BitVec 16 :=
  maskOf fun i =>
    match t with
    | .i32 | .f32 => ok i
    | .bf16 | .f16 => ok (2 * i) && ok (2 * i + 1)
    | .cf32 => ok (i / 2)

/-- A vector whose valid elements are computed and whose invalid lanes hold zero (R365). -/
def mapVec (t : VT) (ok : Nat → Bool) (f : Nat → Nat) : Vec :=
  let m := maskOfElems t ok
  ⟨rowOfElems (elemBits t) (elemCount t) (fun j => if elemOk t m j then f j else 0), m⟩

/-- The format of a floating element type. -/
def fmtOf : VT → Fmt
  | .bf16 => fmtBf16
  | .f16 => fmtFp16
  | _ => fmtFp32

/-- A lane as a signed integer. -/
def sInt (n : Nat) : Int := (BitVec.ofNat 32 n).toInt

/-- An operation on one real element: integers wrap, floating values round once (R113). -/
def realOp (t : VT) (fi : Int → Int → Int) (ff : FV → FV → FV) (a b : Nat) : Nat :=
  if t = .i32 then (BitVec.ofInt 32 (fi (sInt a) (sInt b))).toNat
  else rne (fmtOf t) (ff (fvOf (fmtOf t) a) (fvOf (fmtOf t) b))

/-- An operation on one element, complex elements part by part. -/
def partOp (t : VT) (f : Nat → Nat → Nat) (a b : Nat) : Nat :=
  if t = .cf32 then f (a % 2 ^ 32) (b % 2 ^ 32) + 2 ^ 32 * f (a / 2 ^ 32) (b / 2 ^ 32) else f a b

/-- An elementwise operation on two vectors (R365). -/
def zipVec (t : VT) (f : Nat → Nat → Nat) (a b : Vec) : Vec :=
  mapVec t (fun j => elemOk t a.mask j && elemOk t b.mask j)
    fun j => f (elemAt (elemBits t) a.row j) (elemAt (elemBits t) b.row j)

/-- An elementwise operation on one vector. -/
def map1Vec (t : VT) (f : Nat → Nat) (a : Vec) : Vec :=
  mapVec t (elemOk t a.mask) fun j => f (elemAt (elemBits t) a.row j)

/-- A vector result in vx.r. -/
def vxResult (s : State) (lat : Nat) (v : Vec) (poison seed : Bool) : State :=
  pendResult s 6 lat (some ⟨.vec v.row v.mask, poison⟩) none seed none

/-- An operation on T alone. -/
def runVx1 (s : State) (m : Mv) (lat : Nat) (f : Vec → Vec) : State :=
  runTrigger s m { unit := 6 } noHold fun s t _ _ => .ok (vxResult s lat (f (vecOf t)) t.poison false)

/-- An operation on A and T. -/
def runVx2 (s : State) (m : Mv) (lat : Nat) (f : Vec → Vec → Vec) : State :=
  runTrigger s m { unit := 6, a := some .vxA } noHold fun s t a _ =>
    .ok (vxResult s lat (f (vecOf a) (vecOf t)) (a.poison || t.poison) false)

/-- An operation on A, B and T. -/
def runVx3 (s : State) (m : Mv) (lat : Nat) (f : Vec → Vec → Vec → Vec) : State :=
  runTrigger s m { unit := 6, a := some .vxA, b := some .vxB } noHold fun s t a b =>
    .ok (vxResult s lat (f (vecOf a) (vecOf b) (vecOf t)) (a.poison || b.poison || t.poison) false)

/-- VADD (R366). -/
def execVadd (m : Mv) (t : VT) (s : State) : Out :=
  go (runVx2 s m 4 (zipVec t (partOp t (realOp t (· + ·) fvAdd))))
/-- VSUB (R366). -/
def execVsub (m : Mv) (t : VT) (s : State) : Out :=
  go (runVx2 s m 4 (zipVec t (partOp t (realOp t (· - ·) fun a b => fvAdd a (fvNeg b)))))
/-- VMUL (R366). -/
def execVmul (m : Mv) (t : VT) (s : State) : Out := go (runVx2 s m 4 (zipVec t (realOp t (· * ·) fvMul)))

/-- A × B + T with one rounding (R366); 0 × infinity is the NaN whatever the addend. -/
def fmaElem (t : VT) (a b c : Nat) : Nat :=
  if t = .i32 then (BitVec.ofInt 32 (sInt a * sInt b + sInt c)).toNat
  else rne (fmtOf t) (fvAdd (fvMul (fvOf (fmtOf t) a) (fvOf (fmtOf t) b)) (fvOf (fmtOf t) c))

/-- VFMA (R366). -/
def execVfma (m : Mv) (t : VT) (s : State) : Out :=
  go (runVx3 s m 4 fun a b c =>
    mapVec t (fun j => elemOk t a.mask j && elemOk t b.mask j && elemOk t c.mask j) fun j =>
      fmaElem t (elemAt (elemBits t) a.row j) (elemAt (elemBits t) b.row j) (elemAt (elemBits t) c.row j))

/-- The greater or the lesser of two elements (R111, R366). -/
def pickElem (t : VT) (max : Bool) (a b : Nat) : Nat :=
  if t = .i32 then (if max then (if sInt a < sInt b then b else a) else (if sInt b < sInt a then b else a))
  else minMaxBits (fmtOf t) max a b

/-- VMIN (R366). -/
def execVmin (m : Mv) (t : VT) (s : State) : Out := go (runVx2 s m 4 (zipVec t (pickElem t false)))
/-- VMAX (R366). -/
def execVmax (m : Mv) (t : VT) (s : State) : Out := go (runVx2 s m 4 (zipVec t (pickElem t true)))

/-- The absolute value or the negation of an element (R366): integers wrap, a NaN becomes canonical. -/
def signElem (t : VT) (neg : Bool) (a : Nat) : Nat :=
  if t = .i32 then
    (if neg then (BitVec.ofInt 32 (-(sInt a))).toNat else (BitVec.ofInt 32 (sInt a).natAbs).toNat)
  else
    let f := fmtOf t
    let half := 2 ^ (f.ebits + f.fbits)
    if fvNan (fvOf f a) then nanOf f
    else if neg then (a + half) % (2 * half) else a % half

/-- VABS (R366). -/
def execVabs (m : Mv) (t : VT) (s : State) : Out := go (runVx1 s m 4 (map1Vec t (signElem t false)))
/-- VNEG (R366). -/
def execVneg (m : Mv) (t : VT) (s : State) : Out :=
  go (runVx1 s m 4 (map1Vec t fun a => partOp t (fun x _ => signElem t true x) a a))

/-- All ones or zero for an element (R367). -/
def truth (t : VT) (b : Bool) : Nat := if b then 2 ^ elemBits t - 1 else 0

/-- Equality of real elements (R367). -/
def eqElem (t : VT) (a b : Nat) : Bool := if t = .i32 then a == b else fvEq (fvOf (fmtOf t) a) (fvOf (fmtOf t) b)
/-- Order of real elements (R367). -/
def ltElem (t : VT) (a b : Nat) : Bool := if t = .i32 then decide (sInt a < sInt b) else fvLt (fvOf (fmtOf t) a) (fvOf (fmtOf t) b)

/-- VCEQ (R367): a complex element is equal when both parts are. -/
def execVceq (m : Mv) (t : VT) (s : State) : Out :=
  go (runVx2 s m 4 (zipVec t fun a b =>
    truth t (if t = .cf32 then eqElem t (a % 2 ^ 32) (b % 2 ^ 32) && eqElem t (a / 2 ^ 32) (b / 2 ^ 32) else eqElem t a b)))
/-- VCLT (R367). -/
def execVclt (m : Mv) (t : VT) (s : State) : Out := go (runVx2 s m 4 (zipVec t fun a b => truth t (ltElem t a b)))
/-- VCLE (R367). -/
def execVcle (m : Mv) (t : VT) (s : State) : Out :=
  go (runVx2 s m 4 (zipVec t fun a b => truth t (ltElem t a b || eqElem t a b)))

/-- VSEL (R368): A's element where T's is not zero, else B's. -/
def execVsel (m : Mv) (t : VT) (s : State) : Out :=
  go (runVx3 s m 4 fun a b c =>
    mapVec t (fun j => elemOk t a.mask j && elemOk t b.mask j && elemOk t c.mask j) fun j =>
      if elemAt (elemBits t) c.row j ≠ 0 then elemAt (elemBits t) a.row j else elemAt (elemBits t) b.row j)

/-- VAND (R369). -/
def execVand (m : Mv) (s : State) : Out := go (runVx2 s m 4 (zipVec .i32 fun a b => a &&& b))
/-- VOR (R369). -/
def execVor (m : Mv) (s : State) : Out := go (runVx2 s m 4 (zipVec .i32 fun a b => a ||| b))
/-- VXOR (R369). -/
def execVxor (m : Mv) (s : State) : Out := go (runVx2 s m 4 (zipVec .i32 fun a b => a ^^^ b))
/-- VSHL (R369). -/
def execVshl (m : Mv) (s : State) : Out := go (runVx2 s m 4 (zipVec .i32 fun a b => a * 2 ^ (b % 32) % 2 ^ 32))
/-- VSHR (R369). -/
def execVshr (m : Mv) (s : State) : Out := go (runVx2 s m 4 (zipVec .i32 fun a b => a / 2 ^ (b % 32)))

/-- One complex product (R370): conj turns the sign of A's imaginary part. -/
def cmulElem (conj : Bool) (x y : Nat) : Nat :=
  let f := fvOf fmtFp32
  let a := f (x % 2 ^ 32)
  let b := if conj then fvNeg (f (x / 2 ^ 32)) else f (x / 2 ^ 32)
  let c := f (y % 2 ^ 32)
  let d := f (y / 2 ^ 32)
  if fvNan a || fvNan b || fvNan c || fvNan d then nanOf fmtFp32 + 2 ^ 32 * nanOf fmtFp32
  else rne fmtFp32 (fvAdd (fvMul a c) (fvNeg (fvMul b d))) + 2 ^ 32 * rne fmtFp32 (fvAdd (fvMul a d) (fvMul b c))

/-- VCMUL (R370). -/
def execVcmul (m : Mv) (s : State) : Out := go (runVx2 s m 4 (zipVec .cf32 (cmulElem false)))
/-- VCMUL.conj (R370). -/
def execVcmulConj (m : Mv) (s : State) : Out := go (runVx2 s m 4 (zipVec .cf32 (cmulElem true)))

/-! VCVT (R371, R372). -/

/-- Bits of an element of a format code; 0 for a code VCVT does not take (R371). -/
def codeBits (c : Nat) : Nat :=
  match c with
  | 0 | 1 => 16
  | 2 | 3 | 5 | 8 => 8
  | 4 => 4
  | 6 => 32
  | _ => 0

/-- The binary format of a code. -/
def fmtOfCode (c : Nat) : Fmt :=
  match c with
  | 0 => fmtBf16
  | 1 => fmtFp16
  | 2 => fmtE4m3
  | 3 => fmtE5m2
  | 4 => fmtE2m1
  | _ => fmtFp32

/-- The value of an element of a format code (R104, R112). -/
def fvOfCode (c b : Nat) : FV :=
  if c = 5 then fvOfInt (BitVec.ofNat 8 b).toInt else if c = 8 then fvOfE8m0 b else fvOf (fmtOfCode c) b

/-- A value rounded to a format code (R108 to R112). -/
def roundCode (c : Nat) (r : RMode) (s16 : Nat) (v : FV) : Nat :=
  if c = 5 then (BitVec.ofInt 8 (roundInt (-128) 127 r s16 v)).toNat
  else if c = 8 then roundE8m0 r s16 v else roundTo (fmtOfCode c) r s16 v

/-- The elements converted in ascending order, each computed one taking a stochastic step in mode .sr (R110). -/
def convList (src dst : Nat) (r : RMode) : List (Nat × Bool) → BitVec 32 → List (Nat × Bool) × BitVec 32
  | [], sd => ([], sd)
  | e :: l, sd =>
    if e.2 then
      let sd' := if r = .sr then xorshift sd else sd
      let q := convList src dst r l sd'
      ((roundCode dst r (sd'.toNat / 2 ^ 16) (fvOfCode src e.1), true) :: q.1, q.2)
    else
      let q := convList src dst r l sd
      ((0, false) :: q.1, q.2)

/-- VCVT's vector and the generator it leaves (R372). -/
def convVec (src dst part : Nat) (r : RMode) (v : Vec) (sd : BitVec 32) : Vec × BitVec 32 :=
  let ws := codeBits src
  let wd := codeBits dst
  let n := 512 / max ws wd
  let s0 := if wd ≤ ws then 0 else part * n
  let d0 := if wd ≤ ws then part * n else 0
  let l := convList src dst r
    ((List.range n).map fun j => (elemAt ws v.row (s0 + j), laneOk v.mask ((s0 + j) * ws / 32))) sd
  let at_ (e : Nat) : Option (Nat × Bool) := if d0 ≤ e then l.1[e - d0]? else none
  let total := 512 / wd
  let row := rowOfElems wd total fun e => ((at_ e).getD (0, false)).1
  let mask := maskOf fun i =>
    let es := (List.range total).filter fun e => e * wd / 32 == i
    es.any (fun e => (at_ e).isSome) && es.all (fun e => match at_ e with | some p => p.2 | none => true)
  (⟨rowOfElems 32 16 fun i => if laneOk mask i then elemAt 32 row i else 0, mask⟩, l.2)

/-- Whether VCVT takes the formats and the part (R371). -/
def cvtLegal (src dst part : Nat) : Bool :=
  let ws := codeBits src
  let wd := codeBits dst
  ws ≠ 0 && wd ≠ 0 && decide (part < max (ws / wd) (wd / ws))

/-- VCVT (R371, R372): cw.seed takes the steps of its computed elements (R110). -/
def execVcvt (m : Mv) (r : RMode) (s : State) : Out :=
  go (runTrigger s m { unit := 6, a := some .vxA } noHold fun s t a _ =>
    let w := vsc a
    let src := bits w 0 4
    let dst := bits w 4 4
    if cvtLegal src dst (bits w 8 3) = false then .fault 0x03 w
    else
      let q := convVec src dst (bits w 8 3) r (vecOf t) (curStrand s).seed
      .ok (adjCur (vxResult s 4 q.1 (a.poison || t.poison) (r == .sr)) fun x => { x with seed := q.2 }))

/-! Lane movement (R373). -/

/-- VBCAST (R373). -/
def execVbcast (m : Mv) (t : VT) (s : State) : Out :=
  go (runVx1 s m 2 fun v => mapVec t (fun _ => elemOk t v.mask 0) fun _ => elemAt (elemBits t) v.row 0)

/-- A vector that holds one element at element 0 (R373, R374). -/
def oneElem (t : VT) (e : Option Nat) : Vec :=
  match e with
  | none => ⟨0, 0⟩
  | some x => ⟨BitVec.ofNat 512 (x % 2 ^ elemBits t), if t = .cf32 then 3 else 1⟩

/-- VEXT (R373). -/
def execVext (m : Mv) (t : VT) (s : State) : Out :=
  go (runTrigger s m { unit := 6, a := some .vxA } noHold fun s t' a _ =>
    let k := (vsc t').toNat % elemCount t
    let v := vecOf a
    .ok (vxResult s 2 (oneElem t (if elemOk t v.mask k then some (elemAt (elemBits t) v.row k) else none)) (a.poison || t'.poison) false))

/-- VSHUF (R373): element j is A's element k(j). -/
def execVshuf (m : Mv) (t : VT) (s : State) : Out :=
  go (runVx2 s m 2 fun a c =>
    let k (j : Nat) : Nat := elemAt (elemBits t) c.row j % elemCount t
    mapVec t (fun j => elemOk t c.mask j && elemOk t a.mask (k j)) fun j => elemAt (elemBits t) a.row (k j))

/-- VIOTA (R373). -/
def execViota (m : Mv) (s : State) : Out :=
  go (runTrigger s m { unit := 6 } noHold fun s t _ _ =>
    .ok (vxResult s 4 ⟨rowOfElems 32 16 fun i => (vsc t).toNat + i, 0xFFFF⟩ t.poison false))

/-- VMASK (R373). -/
def execVmask (m : Mv) (s : State) : Out :=
  go (runTrigger s m { unit := 6, a := some .vxA } noHold fun s t a _ =>
    let k : BitVec 16 := (vsc t).extractLsb' 0 16
    let v := vecOf a
    .ok (vxResult s 4 ⟨rowOfElems 32 16 fun i => if laneOk k i && laneOk v.mask i then elemAt 32 v.row i else 0, k⟩
      (a.poison || t.poison) false))

/-! Reductions (R114, R374). -/

/-- A floating root that is a NaN becomes canonical (R114). -/
def canonElem (t : VT) (a : Nat) : Nat :=
  if t = .i32 then a else if fvNan (fvOf (fmtOf t) a) then nanOf (fmtOf t) else a

/-- The reduction of a vector's valid elements over the tree of R114. -/
def reduceVec (t : VT) (f : Nat → Nat → Nat) (v : Vec) : Vec :=
  let leaves := (List.range (elemCount t)).map fun j => if elemOk t v.mask j then some (elemAt (elemBits t) v.row j) else none
  oneElem t ((treeRoot f 5 leaves).map fun a => partOp t (fun x _ => canonElem t x) a a)

/-- VRSUM (R374). -/
def execVrsum (m : Mv) (t : VT) (s : State) : Out := go (runVx1 s m 6 (reduceVec t (partOp t (realOp t (· + ·) fvAdd))))
/-- VRMAX (R374). -/
def execVrmax (m : Mv) (t : VT) (s : State) : Out := go (runVx1 s m 6 (reduceVec t (pickElem t true)))
/-- VRMAX.min (R374). -/
def execVrmaxMin (m : Mv) (t : VT) (s : State) : Out := go (runVx1 s m 6 (reduceVec t (pickElem t false)))

end Sys2Proof.Machine
end

