-- ==== Sys2Proof/Machine/Kf.lean ====
section
/-!
DEFINITION. The meanings of kf and of the keystones (R19, R80, R81, R115, R116, R190, R307 to R309).
-/

namespace Sys2Proof.Machine

/-- +1.0 and the other FP32 constants of R116. -/
def f32One : Nat := 0x3F800000
/-- 0.5. -/
def f32Half : Nat := 0x3F000000

/-- The value for an infinity (R116). -/
def kfInf (fn : Nat) (neg : Bool) : Nat :=
  let nan := nanOf fmtFp32
  let inf := infOf fmtFp32 false
  match fn with
  | 0 | 1 => if neg then 0 else inf
  | 2 | 3 => if neg then nan else inf
  | 4 => if neg then signBit fmtFp32 true else 0
  | 5 => if neg then nan else 0
  | 6 => if neg then nan else inf
  | 7 | 8 => nan
  | 9 | 11 => if neg then signBit fmtFp32 true + f32One else f32One
  | _ => if neg then 0 else f32One

/-- The value for a zero (R116). -/
def kfZero (fn : Nat) (neg : Bool) : Nat :=
  let z := signBit fmtFp32 neg
  match fn with
  | 0 | 1 | 8 => f32One
  | 2 | 3 => infOf fmtFp32 true
  | 4 | 5 => infOf fmtFp32 (neg && true)
  | 6 | 7 | 9 | 11 => z
  | _ => f32Half

/-- Whether m × 2^e is a whole number, and that number. -/
def wholeOf (neg : Bool) (m : Nat) (e : Int) : Option Int :=
  let v : Option Nat := if 0 ≤ e then some (m * 2 ^ e.toNat) else if m % 2 ^ (-e).toNat = 0 then some (m / 2 ^ (-e).toNat) else none
  v.map fun n => if neg then -(n : Int) else (n : Int)

/-- The value for a finite operand that is not zero: exact where R115 says correct or exact, else a free value
within the bound that depends on the operand alone (log entry 7). -/
def kfFinite (fn x : Nat) (neg : Bool) (m : Nat) (e : Int) : Nat :=
  let free := kfBounded fn x neg m e
  let nan := nanOf fmtFp32
  match fn with
  | 1 =>
    match wholeOf neg m e with
    | some i => if 127 < i then infOf fmtFp32 false else if -149 ≤ i then rne fmtFp32 (.fin false 1 i) else free
    | none => free
  | 2 => if neg then nan else if x = f32One then 0 else free
  | 3 => if neg then nan else if m = 2 ^ m.log2 then rne fmtFp32 (fvOfInt ((m.log2 : Int) + e)) else free
  | 4 => rne fmtFp32 (fvRecip neg m e)
  | 5 => if neg then nan else rne fmtFp32 (fvRsqrt m e)
  | 6 => if neg then nan else rne fmtFp32 (fvSqrt m e)
  | _ => free

/-- A keystone function on an FP32 operand (R115, R116). -/
def kfElem (fn x : Nat) : Nat :=
  match fvOf fmtFp32 x with
  | .nan => nanOf fmtFp32
  | .inf neg => if fn = 10 ∧ neg then 0 else kfInf fn neg
  | .fin neg m e => if m = 0 then kfZero fn neg else kfFinite fn x neg m e

/-- A keystone's result for a request (R308): a BF16 element is widened, computed in FP32 and rounded. -/
def kfVec (fn : Nat) (bf : Bool) (v : Vec) : Vec :=
  if bf then map1Vec .bf16 (fun b => rne fmtBf16 (fvOf fmtFp32 (kfElem fn (b * 2 ^ 16)))) v
  else map1Vec .f32 (kfElem fn) v

/-- The keystone of a pier: span × 16 + column (R19). -/
def keystoneOf (s : State) (pk : Nat) : Nat := siteOf s pk / 256 * 16 + siteOf s pk % 16

/-- A keystone. -/
def getKs (s : State) (m k : Nat) : Keystone := fget (getMod s m).keystones k {}
/-- A keystone written. -/
def setKs (s : State) (m k : Nat) (x : Keystone) : State := adjMod s m fun y => { y with keystones := fset y.keystones k x }

/-- A keystone trigger waits for an in-flight entry and for fewer than 32 unserved requests of the pier (R80, R309). -/
def kfHeld (s : State) (_ _ _ : Value) : Bool :=
  (freeEntry (curStrand s)).isNone ||
    decide (32 ≤ ((getKs s (pkMod s.issue.pk) (keystoneOf s s.issue.pk)).reqs.filter fun r => r.pk == s.issue.pk).length)

/-- A keystone request (R307 to R309). -/
def runKf (s : State) (m : Mv) (fn : Nat) (bf : Bool) : State :=
  runTrigger s m { unit := 8 } kfHeld fun s t _ _ =>
    let pk := s.issue.pk
    let tok := s.tok
    let i := (freeEntry (curStrand s)).getD 0
    let e : Inflight :=
      { kind := .kf, tok, issued := true, bundle := s.issue.addr, move := moveOf s,
        tlow := BitVec.ofNat 32 (vsc t).toNat, req := { noReqKf with pk := pk }, slot := s.issue.slot }
    let s1 := adjCur { s with tok := tok + 1 } fun x => { pendPort x (portIx 8 0) tok true with inf := fset x.inf i (some e) }
    let ks := getKs s1 (pkMod pk) (keystoneOf s pk)
    let r : KReq := { pk, strand := s.issue.strand, entry := i, tok, fn, bf, v := t }
    .ok (setKs s1 (pkMod pk) (keystoneOf s pk) { ks with reqs := ks.reqs ++ [r] })
where
  /-- A request that carries no gm access. -/
  noReqKf : GmReq :=
    { pk := 0, strand := 0, entry := 0, tok := 0, op := 0, va := 0, mod := 0, loc := 0, dom := 0, val := Value.zero,
      exp := Value.zero, job := 0 }

/-- KEXP (R307). -/
def execKexp (m : Mv) (bf : Bool) (s : State) : Out := go (runKf s m 0 bf)
/-- KEXP.2 (R307). -/
def execKexp2 (m : Mv) (bf : Bool) (s : State) : Out := go (runKf s m 1 bf)
/-- KLOG (R307). -/
def execKlog (m : Mv) (bf : Bool) (s : State) : Out := go (runKf s m 2 bf)
/-- KLOG.2 (R307). -/
def execKlog2 (m : Mv) (bf : Bool) (s : State) : Out := go (runKf s m 3 bf)
/-- KRCP (R307). -/
def execKrcp (m : Mv) (bf : Bool) (s : State) : Out := go (runKf s m 4 bf)
/-- KRSQ (R307). -/
def execKrsq (m : Mv) (bf : Bool) (s : State) : Out := go (runKf s m 5 bf)
/-- KSQRT (R307). -/
def execKsqrt (m : Mv) (bf : Bool) (s : State) : Out := go (runKf s m 6 bf)
/-- KSIN (R307). -/
def execKsin (m : Mv) (bf : Bool) (s : State) : Out := go (runKf s m 7 bf)
/-- KCOS (R307). -/
def execKcos (m : Mv) (bf : Bool) (s : State) : Out := go (runKf s m 8 bf)
/-- KTANH (R307). -/
def execKtanh (m : Mv) (bf : Bool) (s : State) : Out := go (runKf s m 9 bf)
/-- KSIGM (R307). -/
def execKsigm (m : Mv) (bf : Bool) (s : State) : Out := go (runKf s m 10 bf)
/-- KERF (R307). -/
def execKerf (m : Mv) (bf : Bool) (s : State) : Out := go (runKf s m 11 bf)

/-- The request that a keystone takes next (R190): the oldest of the first pier, after the row served last, that has
one. -/
def kfPick (s : State) (k : Keystone) : Option KReq :=
  ((List.range 16).map fun i => (k.last + 1 + i) % 16).findSome? fun row =>
    k.reqs.find? fun r => siteOf s r.pk / 16 % 16 == row

/-- A keystone accepts a request; its result is readable 24 cycles on (R190, R309). -/
def execKeystoneAccept (mod k : Nat) (s : State) : Out :=
  let ks := getKs s mod k
  go (match kfPick s ks with
    | none => s
    | some r =>
      let v := kfVec r.fn r.bf (vecOf r.v)
      let s1 := setKs s mod k { reqs := ks.reqs.filter (fun q => !(q.tok == r.tok)), last := siteOf s r.pk / 16 % 16 }
      schedule s1 (s.cycle + 24) (.keystoneResult r.pk r.strand r.entry r.tok ⟨.vec v.row v.mask, r.v.poison⟩))

/-- A keystone's result reaches its pier: the port and the in-flight entry (R81, R308). -/
def execKeystoneResult (pk st entry tok : Nat) (v : Value) (s : State) : Out :=
  go (adjStrand s pk st fun x =>
    let y := landPort x (portIx 8 0) tok (some v)
    match fget x.inf entry none with
    | some e => if e.tok = tok then dropEntry y entry else y
    | none => y)

end Sys2Proof.Machine
end

