-- ==== Sys2Proof/Machine/Cycle.lean ====
section
/-!
DEFINITION. The turn of the clock: what each new cycle brings, and in what order its work is done (R2, R44, R52, R59, R61, R72,
R138, R185 to R191, R203 to R205, R235, R237, R262, R268, R270, R272).
-/

namespace Sys2Proof.Machine

/-! The order of the steps of a cycle. -/

/-- What lands before the bundles of a cycle issue: results, replies and translations; the rest arrives after them. -/
def landsFirst : Instr → Bool
  | .divideComplete _ _ _ => true
  | .keystoneResult _ _ _ _ _ => true
  | .resultPortWrite _ _ _ _ => true
  | .gmReply _ => true
  | .gmTranslationDone _ _ _ _ _ => true
  | .pageWalk _ => true
  | .matrixEntryComplete _ => true
  | _ => false

/-- What the atomic pipelines of the piers do, ahead of the matrix ports (R131, R160). -/
def atomicFirst : Instr → Bool
  | .apertureAccess r => gmIsAtomic r.op
  | _ => false

/-! Counters. -/

/-- The samples of SGET are taken at the end of a cycle (R348). -/
def endSamples (p : Pier) : Pier := { p with strands := p.strands.map fun e => (e.1, takeSamples p e.2) }

/-- A strand's counters in a cycle on a pier (R52, R72, R186): the watchdog also counts while the run waits, and stops in a halt
and in a hold. -/
def tickStrand (p : Pier) (x : Strand) : Strand :=
  if x.status = .running ∨ x.status = .frozen ∨ x.status = .native then
    { x with
      cycles := x.cycles + 1
      wd := if x.status ≠ .frozen ∧ p.halting = false ∧ p.hold = false then x.wd + 1 else x.wd
      start := if p.halting then x.start else x.start - 1 }
  else x

/-- The strands of a pier that hold a run or await one's return. -/
def busyStrands (p : Pier) : List Nat := (p.strands.filter fun x => x.2.status != .free).map (·.1)

/-- A pier's counters in a new cycle; the cycle before has ended with the samples and the checks of waits (R62, R348). -/
def tickPier (s : State) (e : Nat × Pier) : Nat × Pier :=
  let p := endWaits (endSamples e.2)
  if clocked s (pkMod e.1) && pierLoc s e.1 == .piers then
    (e.1, { p with strands := p.strands.map fun x => (x.1, tickStrand p x.2), wasBusy := busyStrands p })
  else (e.1, p)

/-- The laggard counts of a module's branches in a cycle (R237). -/
def tickLag (s : State) (m : Nat) (x : Module) : Module :=
  let on := (x.copies.flatMap fun c => c.left.map fun i => (c.group, i)).eraseDups.filter fun b => branchStalls s m b.1 b.2
  { x with groups := on.foldl (fun l b => fadj l b.1 {} fun y => { y with lag := fadj y.lag b.2 0 (· + 1) }) x.groups }

/-- A module's counters in a new cycle (R138, R203, R235). -/
def tickMod (s : State) (m : Nat) (x : Module) : Module :=
  if x.veiv.frozen ∨ x.present = false then x
  else
    { tickLag s m x with
      tb := x.tb + BitVec.ofNat 64 x.tbStep
      tbStep := 1
      cyc := x.cyc + 1
      veiv := if x.veiv.nextProbe = 0 ∨ s.cycle + 1 < x.veiv.nextProbe then x.veiv else { x.veiv with nextProbe := s.cycle + 1 + 2097152 } }

/-! What a cycle brings. -/

/-- The carriers whose partition is resident on a running module. -/
def livePiers (s : State) : List Nat :=
  (s.piers.map (·.1)).filter fun pk =>
    clocked s (pkMod pk) && pierLoc s pk == .piers && carrierPk s (pkMod pk) (pkPart pk) (pkLp pk) == some pk

/-- The running modules. -/
def liveMods (s : State) : List Nat := (s.mods.filter fun e => e.2.present && !e.2.veiv.frozen).map (·.1)

/-- The sluices whose check of the last cycle was met (R59). -/
def recheckWork (s : State) (pk : Nat) : List Instr :=
  (((getPier s pk).sluices.filter fun e => e.2.again).map fun e => Instr.sluiceRecheck pk e.1)

/-- Runs whose watchdog has reached its limit (R52). -/
def watchWork (s : State) (pk : Nat) : List Instr :=
  (((getPier s pk).strands.filter fun e => (e.2.status == .running || e.2.status == .native) && decide (2 ^ e.2.wexp ≤ e.2.wd)).map fun e => Instr.watchdogExpiry pk e.1)

/-- The matrix queue of a pier that has entries (R189). -/
def matrixWork (s : State) (pk : Nat) : List Instr := if (getPier s pk).mq = [] then [] else [.matrixEntryExecute pk]

/-- Its completion, after the bundles and before the arrivals of the cycle (R63). -/
def matrixEnd (s : State) (pk : Nat) : List Instr := if (getPier s pk).mq = [] then [] else [.matrixEntryComplete pk]

/-- The dispatcher and the parked area of a pier (R185, R231). -/
def dispatchWork (s : State) (pk : Nat) : List Instr :=
  let p := getPier s pk
  (if p.strands.any (fun e => e.2.status == .parked) then [.parkedRunRestore pk] else []) ++ (if p.inbox = [] then [] else [.dispatch pk])

/-- Whether the message of a trace entry has been admitted at a pier: to a slot, to a spillway, or to a slot that is kept with an evicted
actor (R216, R272). -/
def traceAdmitted (p : Pier) (w : Word) : Bool :=
  p.inbox.any (fun x => traceEntry x.msg == w) || p.actors.any fun a =>
    a.2.spilled.any (fun x => traceEntry x.1 == w) || match a.2.saved with | some v => v.2.1.any fun x => traceEntry x.msg == w | none => false

/-- Whether replay has failed at a pier (R272): the expected message has not been admitted within 2^24 cycles of the dispatch before
it, or of the control put where there is none, or the entry is truncated while a message of the job waits. -/
def diverged (s : State) (pk : Nat) : Bool :=
  let p := getPier s pk
  replaying s pk && (match traceNext s pk with
    | some w => decide (max p.rrSince (getMod s (pkMod pk)).veiv.rrAt + 2 ^ 24 ≤ s.cycle) && !traceAdmitted p w
    | none => !traceWaits s pk && p.inbox.any fun x => x.msg.dact != 63)

/-- The ends of runs, of their locks and of retired actors on a pier (R51, R56, R172). -/
def endWork (s : State) (pk : Nat) : List Instr :=
  let p := getPier s pk
  ((p.strands.filter fun e => e.2.status == .running).map fun e => Instr.runEnd pk e.1) ++
    ((p.actors.filter fun a => a.2.ending).map fun a => Instr.actorLockRelease pk a.1) ++
    ((p.actors.filter fun a => a.2.retiring).map fun a => Instr.actorRetireComplete pk a.1) ++
    (if diverged s pk then [.replayDivergence pk] else [])

/-- The keystones that a running pier can reach, and those with requests (R190). -/
def keystoneWork (s : State) (l : List Nat) : List Instr :=
  (((l.filter fun pk => (getPier s pk).strands.any fun e => e.2.status == .running).map fun pk => (pkMod pk, keystoneOf s pk)) ++
    (liveMods s).flatMap fun m => ((getMod s m).keystones.filter fun k => k.2.reqs != []).map fun k => (m, k.1)).eraseDups.map
    fun k => Instr.keystoneAccept k.1 k.2

/-- The abutments of a module with open contexts (R191). -/
def turnWork (s : State) (m : Nat) : List Instr :=
  ((getMod s m).abuts.filter fun a => a.2.ctxs.any fun c => c.2.isSome).map fun a => Instr.streamTurn m a.1

/-- The copies of a module that have reached the laggard limit (R237). -/
def lagWork (s : State) (m : Nat) : List Instr :=
  (getMod s m).copies.flatMap fun c => (c.left.filter fun i => lagging s c i).map fun i => Instr.laggardDetach m c.tok i

/-- The slices of a gang schedule whose start tb has reached in this cycle (R205): tb moved by `d` counts. -/
def sliceWork (s : State) (m d : Nat) : List Instr :=
  let x := getMod s m
  let p := x.gangP.toNat
  if p = 0 then []
  else
    ((List.range 16).filter fun i =>
      let w := fget x.gang i 0
      bitAt w 63 && (List.range d).any fun k => ((x.tb.toNat : Int) - k - x.gangO.toNat) % p == (bits w 0 32 : Nat)).map fun i => Instr.gangSliceStart m i

/-- The weight-store banks that enter or leave their refresh window (R138). -/
def bankWork (s : State) (m : Nat) : List Instr :=
  let c := (getMod s m).cyc.toNat % 8192
  if c % 1024 = 0 ∨ c % 1024 = 256 then [.bankRefresh m (c / 1024)] else []

/-- What Veiviush and the host port of a module do in a cycle, on their own clock and so also after a freeze (R262, R268, R270). -/
def veivWork (s : State) (m : Nat) : List Instr :=
  let x := getMod s m
  (if s.cycle % 21000 = 0 then [.powerMeasure m] else []) ++
    (if x.host.unacked ≠ [] ∧ x.host.lastAdvance + 42000 ≤ s.cycle then [.frameResendTimeout m] else [])

/-- The time-base flits of module 0, sent every 4,096 cycles to each module that it reaches; each tells the count that module 0 has when
it arrives (R203). -/
def timeWork (s : State) (m : Nat) : List Instr :=
  if m ≠ 0 ∧ s.cycle % 4096 = 0 ∧ (getMod s 0).present = true ∧ (getMod s 0).veiv.frozen = false ∧ reachable s 0 m = true then
    [.timeBaseFlit m (getMod s 0).tb]
  else []

/-- What the job controller, the groups, the weight store and Veiviush's probe do on a running module (R138, R203, R235, R237). -/
def moduleWork (s : State) (m : Nat) : List Instr :=
  let x := getMod s m
  (if x.veiv.nextProbe = s.cycle + 2097152 ∧ s.cycle ≠ 0 then [.healthProbe m] else []) ++ timeWork s m ++ lagWork s m ++ bankWork s m

/-- The messages, notices and blocked arrivals of a pier that wait for room (R44, R61). -/
def settlePier (s : State) (pk : Nat) : State :=
  let p := getPier s pk
  let s1 := ((p.actors.filter fun a => a.2.spilled != []).map (·.1)).foldl (fun s a => if mayDrain s pk a then drainSpill s pk a 16 else s) s
  let s2 := if p.sluices.any (fun e => e.2.leads != [] && e.2.owed.any (fun o => o.2 != 0)) then enterAllNotices s1 pk (p.sluices.map (·.1)) else s1
  (p.strands.map (·.1)).foldl (fun s st =>
    match (getStrand s pk st).wait with
    | .sarv n _ _ _ => sarvRetry s pk n st
    | _ => s) s2

/-- The steps that fall due in a cycle, without those of frozen modules. -/
def dueNow (s : State) : List Instr := ((s.cal.filter fun e => decide (e.1 ≤ s.cycle)).map (·.2)).filter (stepLive s)

/-- The counters of a new cycle, with the due steps taken out of the calendar. -/
def tickAll (s : State) : State :=
  { s with
    cycle := s.cycle + 1
    mods := s.mods.map fun e => (e.1, tickMod s e.1 e.2)
    piers := s.piers.map (tickPier s) }

/-- The work of a cycle in its order: checks owed, results, watchdogs, bundles, atomics on scratchpads, the matrix queues, arrivals, keystones, streams,
dispatches, and the ends of runs (R63, R131). -/
def workOf (s : State) (steps : List (Nat × Nat)) : List Work :=
  let due := dueNow s
  let l := livePiers s
  let ms := liveMods s
  let ev (x : List Instr) : List Work := x.map Work.ev
  ev (l.flatMap (recheckWork s)) ++ ev (due.filter landsFirst) ++ ev (l.flatMap (watchWork s)) ++
    l.map Work.issue ++ ev (due.filter atomicFirst) ++ ev (l.flatMap (matrixWork s)) ++ ev (l.flatMap (matrixEnd s)) ++
    ev (due.filter fun i => !landsFirst i && !atomicFirst i) ++ ev (keystoneWork s l) ++ ev (ms.flatMap (turnWork s)) ++
    ev (l.flatMap (dispatchWork s)) ++ ev (l.flatMap (endWork s)) ++
    ev (ms.flatMap fun m => sliceWork s m (fget steps m 1) ++ moduleWork s m) ++
    ev (((s.mods.filter fun e => e.2.present).map (·.1)).flatMap (veivWork s))

/-- The next cycle: its counters, what may now move on, the frames that waited, and the work of the cycle. -/
def nextCycle (s : State) : State :=
  let steps := s.mods.map fun e => (e.1, e.2.tbStep)
  let s1 := tickAll s
  let s2 := (livePiers s1).foldl settlePier s1
  let s3 := (s2.mods.map (·.1)).foldl (fun s m => hostTurn (spareTurn s m) m) s2
  let w := workOf s3 steps
  { s3 with agenda := s3.agenda ++ w, cal := s3.cal.filter fun e => decide (s3.cycle < e.1) }

end Sys2Proof.Machine
end

