-- ==== Sys2Proof/Machine/Dispatch.lean ====
section
/-!
DEFINITION. The meaning of each step: one arm per constructor.
-/

namespace Sys2Proof.Machine

/-- What a step does: the meaning of its constructor. -/
def exec (i : Instr) (s : State) : Host.Outcome State Fault Refusal :=
  match i with
  | .jmp m => Sys2Proof.Machine.execJmp m s
  | .jal m => Sys2Proof.Machine.execJal m s
  | .done m => Sys2Proof.Machine.execDone m s
  | .trap m => Sys2Proof.Machine.execTrap m s
  | .brk m => Sys2Proof.Machine.execBrk m s
  | .fenceFull m sc => Sys2Proof.Machine.execFenceFull m sc s
  | .fenceAcq m sc => Sys2Proof.Machine.execFenceAcq m sc s
  | .fenceRel m sc => Sys2Proof.Machine.execFenceRel m sc s
  | .fenceEng m sc => Sys2Proof.Machine.execFenceEng m sc s
  | .add m u => Sys2Proof.Machine.execAdd m u s
  | .sub m u => Sys2Proof.Machine.execSub m u s
  | .and m u => Sys2Proof.Machine.execAnd m u s
  | .or m u => Sys2Proof.Machine.execOr m u s
  | .xor m u => Sys2Proof.Machine.execXor m u s
  | .andn m u => Sys2Proof.Machine.execAndn m u s
  | .shl m u => Sys2Proof.Machine.execShl m u s
  | .shr m u => Sys2Proof.Machine.execShr m u s
  | .sra m u => Sys2Proof.Machine.execSra m u s
  | .rol m u => Sys2Proof.Machine.execRol m u s
  | .min m u => Sys2Proof.Machine.execMin m u s
  | .minU m u => Sys2Proof.Machine.execMinU m u s
  | .max m u => Sys2Proof.Machine.execMax m u s
  | .maxU m u => Sys2Proof.Machine.execMaxU m u s
  | .eq m u => Sys2Proof.Machine.execEq m u s
  | .ne m u => Sys2Proof.Machine.execNe m u s
  | .lt m u => Sys2Proof.Machine.execLt m u s
  | .ltU m u => Sys2Proof.Machine.execLtU m u s
  | .le m u => Sys2Proof.Machine.execLe m u s
  | .leU m u => Sys2Proof.Machine.execLeU m u s
  | .clz m u => Sys2Proof.Machine.execClz m u s
  | .ctz m u => Sys2Proof.Machine.execCtz m u s
  | .popc m u => Sys2Proof.Machine.execPopc m u s
  | .brev m u => Sys2Proof.Machine.execBrev m u s
  | .bdep m u => Sys2Proof.Machine.execBdep m u s
  | .bext m u => Sys2Proof.Machine.execBext m u s
  | .sext m u => Sys2Proof.Machine.execSext m u s
  | .zext m u => Sys2Proof.Machine.execZext m u s
  | .sel m u => Sys2Proof.Machine.execSel m u s
  | .mul m => Sys2Proof.Machine.execMul m s
  | .mulh m => Sys2Proof.Machine.execMulh m s
  | .mulhU m => Sys2Proof.Machine.execMulhU m s
  | .mad m => Sys2Proof.Machine.execMad m s
  | .div m => Sys2Proof.Machine.execDiv m s
  | .divU m => Sys2Proof.Machine.execDivU m s
  | .rem m => Sys2Proof.Machine.execRem m s
  | .remU m => Sys2Proof.Machine.execRemU m s
  | .divideComplete pk st tok => Sys2Proof.Machine.execDivideComplete pk st tok s
  | .ldl m f => Sys2Proof.Machine.execLdl m f s
  | .stl m z => Sys2Proof.Machine.execStl m z s
  | .vldl m => Sys2Proof.Machine.execVldl m s
  | .vstl m => Sys2Proof.Machine.execVstl m s
  | .atl m op w => Sys2Proof.Machine.execAtl m op w s
  | .casl m w => Sys2Proof.Machine.execCasl m w s
  | .ldg m f => Sys2Proof.Machine.execLdg m f s
  | .ldgAcq m f => Sys2Proof.Machine.execLdgAcq m f s
  | .stg m z => Sys2Proof.Machine.execStg m z s
  | .stgRel m z => Sys2Proof.Machine.execStgRel m z s
  | .vldg m => Sys2Proof.Machine.execVldg m s
  | .vldgAcq m => Sys2Proof.Machine.execVldgAcq m s
  | .vstg m => Sys2Proof.Machine.execVstg m s
  | .vstgRel m => Sys2Proof.Machine.execVstgRel m s
  | .atg m op w o => Sys2Proof.Machine.execAtg m op w o s
  | .casg m w o => Sys2Proof.Machine.execCasg m w o s
  | .vadd m t => Sys2Proof.Machine.execVadd m t s
  | .vsub m t => Sys2Proof.Machine.execVsub m t s
  | .vmul m t => Sys2Proof.Machine.execVmul m t s
  | .vfma m t => Sys2Proof.Machine.execVfma m t s
  | .vmin m t => Sys2Proof.Machine.execVmin m t s
  | .vmax m t => Sys2Proof.Machine.execVmax m t s
  | .vabs m t => Sys2Proof.Machine.execVabs m t s
  | .vneg m t => Sys2Proof.Machine.execVneg m t s
  | .vceq m t => Sys2Proof.Machine.execVceq m t s
  | .vclt m t => Sys2Proof.Machine.execVclt m t s
  | .vcle m t => Sys2Proof.Machine.execVcle m t s
  | .vsel m t => Sys2Proof.Machine.execVsel m t s
  | .vand m => Sys2Proof.Machine.execVand m s
  | .vor m => Sys2Proof.Machine.execVor m s
  | .vxor m => Sys2Proof.Machine.execVxor m s
  | .vshl m => Sys2Proof.Machine.execVshl m s
  | .vshr m => Sys2Proof.Machine.execVshr m s
  | .vcvt m r => Sys2Proof.Machine.execVcvt m r s
  | .vshuf m t => Sys2Proof.Machine.execVshuf m t s
  | .vrsum m t => Sys2Proof.Machine.execVrsum m t s
  | .vrmax m t => Sys2Proof.Machine.execVrmax m t s
  | .vrmaxMin m t => Sys2Proof.Machine.execVrmaxMin m t s
  | .vbcast m t => Sys2Proof.Machine.execVbcast m t s
  | .vext m t => Sys2Proof.Machine.execVext m t s
  | .vmask m => Sys2Proof.Machine.execVmask m s
  | .viota m => Sys2Proof.Machine.execViota m s
  | .vcmul m => Sys2Proof.Machine.execVcmul m s
  | .vcmulConj m => Sys2Proof.Machine.execVcmulConj m s
  | .mcfg m => Sys2Proof.Machine.execMcfg m s
  | .mld m => Sys2Proof.Machine.execMld m s
  | .mldw m => Sys2Proof.Machine.execMldw m s
  | .mstRaw m => Sys2Proof.Machine.execMstRaw m s
  | .mstBf16 m => Sys2Proof.Machine.execMstBf16 m s
  | .mstF32 m => Sys2Proof.Machine.execMstF32 m s
  | .mzero m => Sys2Proof.Machine.execMzero m s
  | .mma m => Sys2Proof.Machine.execMma m s
  | .mmas m => Sys2Proof.Machine.execMmas m s
  | .mmaf m => Sys2Proof.Machine.execMmaf m s
  | .cmma m => Sys2Proof.Machine.execCmma m s
  | .matrixEntryExecute pk => Sys2Proof.Machine.execMatrixEntryExecute pk s
  | .kexp m bf => Sys2Proof.Machine.execKexp m bf s
  | .kexp2 m bf => Sys2Proof.Machine.execKexp2 m bf s
  | .klog m bf => Sys2Proof.Machine.execKlog m bf s
  | .klog2 m bf => Sys2Proof.Machine.execKlog2 m bf s
  | .krcp m bf => Sys2Proof.Machine.execKrcp m bf s
  | .krsq m bf => Sys2Proof.Machine.execKrsq m bf s
  | .ksqrt m bf => Sys2Proof.Machine.execKsqrt m bf s
  | .ksin m bf => Sys2Proof.Machine.execKsin m bf s
  | .kcos m bf => Sys2Proof.Machine.execKcos m bf s
  | .ktanh m bf => Sys2Proof.Machine.execKtanh m bf s
  | .ksigm m bf => Sys2Proof.Machine.execKsigm m bf s
  | .kerf m bf => Sys2Proof.Machine.execKerf m bf s
  | .keystoneAccept mod k => Sys2Proof.Machine.execKeystoneAccept mod k s
  | .keystoneResult pk st entry tok v => Sys2Proof.Machine.execKeystoneResult pk st entry tok v s
  | .send m => Sys2Proof.Machine.execSend m s
  | .sendRed m => Sys2Proof.Machine.execSendRed m s
  | .reply m => Sys2Proof.Machine.execReply m s
  | .fwd m => Sys2Proof.Machine.execFwd m s
  | .mcast m => Sys2Proof.Machine.execMcast m s
  | .mstat m => Sys2Proof.Machine.execMstat m s
  | .sarm m => Sys2Proof.Machine.execSarm m s
  | .sset m => Sys2Proof.Machine.execSset m s
  | .sadd m => Sys2Proof.Machine.execSadd m s
  | .sradd m => Sys2Proof.Machine.execSradd m s
  | .sarv m => Sys2Proof.Machine.execSarv m s
  | .swait m => Sys2Proof.Machine.execSwait m s
  | .swaitPh m => Sys2Proof.Machine.execSwaitPh m s
  | .sget m => Sys2Proof.Machine.execSget m s
  | .sread m => Sys2Proof.Machine.execSread m s
  | .swrite m => Sys2Proof.Machine.execSwrite m s
  | .sgath m => Sys2Proof.Machine.execSgath m s
  | .sscat m => Sys2Proof.Machine.execSscat m s
  | .sseg m => Sys2Proof.Machine.execSseg m s
  | .sxch m => Sys2Proof.Machine.execSxch m s
  | .swld m => Sys2Proof.Machine.execSwld m s
  | .scanc m => Sys2Proof.Machine.execScanc m s
  | .crd m => Sys2Proof.Machine.execCrd m s
  | .cwr m => Sys2Proof.Machine.execCwr m s
  | .writeWindow m => Sys2Proof.Machine.execWriteWindow m s
  | .writeWeir m => Sys2Proof.Machine.execWriteWeir m s
  | .writeSeed m => Sys2Proof.Machine.execWriteSeed m s
  | .writeSched m => Sys2Proof.Machine.execWriteSched m s
  | .writeXlroot m => Sys2Proof.Machine.execWriteXlroot m s
  | .acrt m => Sys2Proof.Machine.execAcrt m s
  | .aret m => Sys2Proof.Machine.execAret m s
  | .gdone m => Sys2Proof.Machine.execGdone m s
  | .gcncl m => Sys2Proof.Machine.execGcncl m s
  | .tlbi m => Sys2Proof.Machine.execTlbi m s
  | .move m d => Sys2Proof.Machine.execMove m d s
  | .nop => Sys2Proof.Machine.execNop s
  | .messageAdmission g frm => Sys2Proof.Machine.execMessageAdmission g frm s
  | .spillwayReturn pk actor => Sys2Proof.Machine.execSpillwayReturn pk actor s
  | .dispatch pk => Sys2Proof.Machine.execDispatch pk s
  | .runEnd pk st => Sys2Proof.Machine.execRunEnd pk st s
  | .actorLockRelease pk actor => Sys2Proof.Machine.execActorLockRelease pk actor s
  | .actorRetireComplete pk actor => Sys2Proof.Machine.execActorRetireComplete pk actor s
  | .watchdogExpiry pk st => Sys2Proof.Machine.execWatchdogExpiry pk st s
  | .outboxResend e => Sys2Proof.Machine.execOutboxResend e s
  | .acknowledgement e status => Sys2Proof.Machine.execAcknowledgement e status s
  | .sluiceAddArrival a => Sys2Proof.Machine.execSluiceAddArrival a s
  | .sluiceRecheck pk sl => Sys2Proof.Machine.execSluiceRecheck pk sl s
  | .barrierArriveArrival a => Sys2Proof.Machine.execBarrierArriveArrival a s
  | .phaseNoticeArrival a => Sys2Proof.Machine.execPhaseNoticeArrival a s
  | .gmTranslationDone pk st entry tok o => Sys2Proof.Machine.execGmTranslationDone pk st entry tok o s
  | .gmReply a => Sys2Proof.Machine.execGmReply a s
  | .apertureAccess r => Sys2Proof.Machine.execApertureAccess r s
  | .hbmAccess r => Sys2Proof.Machine.execHbmAccess r s
  | .ingressAtomic r => Sys2Proof.Machine.execIngressAtomic r s
  | .leaseExpiry mod line tok => Sys2Proof.Machine.execLeaseExpiry mod line tok s
  | .leaseRecall mod line => Sys2Proof.Machine.execLeaseRecall mod line s
  | .pageWalk w => Sys2Proof.Machine.execPageWalk w s
  | .walkMovingRetry w => Sys2Proof.Machine.execWalkMovingRetry w s
  | .dirtyLogMerge pk => Sys2Proof.Machine.execDirtyLogMerge pk s
  | .invalidationAgent mod span => Sys2Proof.Machine.execInvalidationAgent mod span s
  | .invalidationPier mod span lp => Sys2Proof.Machine.execInvalidationPier mod span lp s
  | .invalidationAbutment mod abut => Sys2Proof.Machine.execInvalidationAbutment mod abut s
  | .invalidationComplete mod span => Sys2Proof.Machine.execInvalidationComplete mod span s
  | .tlbiResend mod span r => Sys2Proof.Machine.execTlbiResend mod span r s
  | .streamCommandAccept mod abut c => Sys2Proof.Machine.execStreamCommandAccept mod abut c s
  | .streamCommandResend mod abut c => Sys2Proof.Machine.execStreamCommandResend mod abut c s
  | .streamOpen mod abut sid => Sys2Proof.Machine.execStreamOpen mod abut sid s
  | .streamOpenRetry mod abut sid => Sys2Proof.Machine.execStreamOpenRetry mod abut sid s
  | .streamTurn mod abut => Sys2Proof.Machine.execStreamTurn mod abut s
  | .dataFlitArrival f => Sys2Proof.Machine.execDataFlitArrival f s
  | .flitResend f => Sys2Proof.Machine.execFlitResend f s
  | .weightFlitArrival f => Sys2Proof.Machine.execWeightFlitArrival f s
  | .scratchpadReadRequest f => Sys2Proof.Machine.execScratchpadReadRequest f s
  | .streamIncrement mod abut sid cmd => Sys2Proof.Machine.execStreamIncrement mod abut sid cmd s
  | .sxchPair mod abut sid => Sys2Proof.Machine.execSxchPair mod abut sid s
  | .sxchWindowGrant mod abut sid => Sys2Proof.Machine.execSxchWindowGrant mod abut sid s
  | .multicastCopy mod tok idx => Sys2Proof.Machine.execMulticastCopy mod tok idx s
  | .laggardDetach mod tok idx => Sys2Proof.Machine.execLaggardDetach mod tok idx s
  | .reductionContribution g frm => Sys2Proof.Machine.execReductionContribution g frm s
  | .gdoneForward mod pk graph add frm => Sys2Proof.Machine.execGdoneForward mod pk graph add frm s
  | .cancel mod job level id => Sys2Proof.Machine.execCancel mod job level id s
  | .cancelAtPier pk job level id => Sys2Proof.Machine.execCancelAtPier pk job level id s
  | .flushMarker mod tok => Sys2Proof.Machine.execFlushMarker mod tok s
  | .cancelEnd mod => Sys2Proof.Machine.execCancelEnd mod s
  | .phaseOpen mod job phase => Sys2Proof.Machine.execPhaseOpen mod job phase s
  | .partitionHalt mod part hs => Sys2Proof.Machine.execPartitionHalt mod part hs s
  | .haltAtPier pk => Sys2Proof.Machine.execHaltAtPier pk s
  | .haltAtAbutment mod part abut => Sys2Proof.Machine.execHaltAtAbutment mod part abut s
  | .haltAck mod part who => Sys2Proof.Machine.execHaltAck mod part who s
  | .saveLimitExpiry pk => Sys2Proof.Machine.execSaveLimitExpiry pk s
  | .shadowSwap mod hs part => Sys2Proof.Machine.execShadowSwap mod hs part s
  | .streamContextLoad mod abut part => Sys2Proof.Machine.execStreamContextLoad mod abut part s
  | .partitionEvict mod part hs => Sys2Proof.Machine.execPartitionEvict mod part hs s
  | .partitionRestore mod part hs => Sys2Proof.Machine.execPartitionRestore mod part hs s
  | .parkedRunRestore pk => Sys2Proof.Machine.execParkedRunRestore pk s
  | .gangSliceStart mod slice => Sys2Proof.Machine.execGangSliceStart mod slice s
  | .holdBroadcast mod job on => Sys2Proof.Machine.execHoldBroadcast mod job on s
  | .healthProbe mod => Sys2Proof.Machine.execHealthProbe mod s
  | .hungPier pk => Sys2Proof.Machine.execHungPier pk s
  | .deferredFaultReport d => Sys2Proof.Machine.execDeferredFaultReport d s
  | .createActor pk g => Sys2Proof.Machine.execCreateActor pk g s
  | .resume pk g => Sys2Proof.Machine.execResume pk g s
  | .drop pk g => Sys2Proof.Machine.execDrop pk g s
  | .evictActor pk g => Sys2Proof.Machine.execEvictActor pk g s
  | .evictWaitTimeout pk g => Sys2Proof.Machine.execEvictWaitTimeout pk g s
  | .restoreActor pk g => Sys2Proof.Machine.execRestoreActor pk g s
  | .streamResume pk g => Sys2Proof.Machine.execStreamResume pk g s
  | .streamStop pk g => Sys2Proof.Machine.execStreamStop pk g s
  | .harvest pk g => Sys2Proof.Machine.execHarvest pk g s
  | .harvestComplete mod span => Sys2Proof.Machine.execHarvestComplete mod span s
  | .phaseBegin pk g => Sys2Proof.Machine.execPhaseBegin pk g s
  | .reservedServiceCommand pk g => Sys2Proof.Machine.execReservedServiceCommand pk g s
  | .serviceForwardToHost pk g => Sys2Proof.Machine.execServiceForwardToHost pk g s
  | .faultRecordForward pk g => Sys2Proof.Machine.execFaultRecordForward pk g s
  | .jobLoaderRun mod job => Sys2Proof.Machine.execJobLoaderRun mod job s
  | .frameResendTimeout mod => Sys2Proof.Machine.execFrameResendTimeout mod s
  | .attestationSigned mod tok => Sys2Proof.Machine.execAttestationSigned mod tok s
  | .powerMeasure mod => Sys2Proof.Machine.execPowerMeasure mod s
  | .replayDivergence pk => Sys2Proof.Machine.execReplayDivergence pk s
  | .portDown mod port => Sys2Proof.Machine.execPortDown mod port s
  | .bringUp mod => Sys2Proof.Machine.execBringUp mod s
  | .matrixEntryComplete pk => Sys2Proof.Machine.execMatrixEntryComplete pk s
  | .resultPortWrite pk st unit tok => Sys2Proof.Machine.execResultPortWrite pk st unit tok s
  | .bankRefresh mod bank => Sys2Proof.Machine.execBankRefresh mod bank s
  | .exchangeFlitArrival f => Sys2Proof.Machine.execExchangeFlitArrival f s
  | .portRetrainComplete mod port => Sys2Proof.Machine.execPortRetrainComplete mod port s
  | .frameJobLoad mod f img last => Sys2Proof.Machine.execFrameJobLoad mod f img last s
  | .framePut mod f => Sys2Proof.Machine.execFramePut mod f s
  | .frameGet mod f => Sys2Proof.Machine.execFrameGet mod f s
  | .frameMessageInject mod f => Sys2Proof.Machine.execFrameMessageInject mod f s
  | .frameSequenceQuery mod f => Sys2Proof.Machine.execFrameSequenceQuery mod f s
  | .frameSequenceAnswer mod f => Sys2Proof.Machine.execFrameSequenceAnswer mod f s
  | .frameAckOnly mod f => Sys2Proof.Machine.execFrameAckOnly mod f s
  | .statusGet mod f => Sys2Proof.Machine.execStatusGet mod f s
  | .attestationNonce mod f => Sys2Proof.Machine.execAttestationNonce mod f s
  | .attestationReportGet mod f => Sys2Proof.Machine.execAttestationReportGet mod f s
  | .powerCapWrite mod f => Sys2Proof.Machine.execPowerCapWrite mod f s
  | .telemetryGet mod f => Sys2Proof.Machine.execTelemetryGet mod f s
  | .freeze mod f => Sys2Proof.Machine.execFreeze mod f s
  | .scanReadoutGet mod f => Sys2Proof.Machine.execScanReadoutGet mod f s
  | .rrOff mod f => Sys2Proof.Machine.execRrOff mod f s
  | .rrRecord mod f => Sys2Proof.Machine.execRrRecord mod f s
  | .rrReplay mod f => Sys2Proof.Machine.execRrReplay mod f s
  | .uncorrectableError mod kind unit off => Sys2Proof.Machine.execUncorrectableError mod kind unit off s
  | .correctedError mod kind => Sys2Proof.Machine.execCorrectedError mod kind s
  | .torusLaneFailure mod port lane => Sys2Proof.Machine.execTorusLaneFailure mod port lane s
  | .placementTableWrite mod part job halfspans tbl => Sys2Proof.Machine.execPlacementTableWrite mod part job halfspans tbl s
  | .groupEntryWrite mod id hdr members => Sys2Proof.Machine.execGroupEntryWrite mod id hdr members s
  | .gangScheduleWrite mod o p slices => Sys2Proof.Machine.execGangScheduleWrite mod o p slices s
  | .debugHalt mod site => Sys2Proof.Machine.execDebugHalt mod site s
  | .debugRelease mod site => Sys2Proof.Machine.execDebugRelease mod site s
  | .overtemp mod die t => Sys2Proof.Machine.execOvertemp mod die t s
  | .timeBaseFlit mod v => Sys2Proof.Machine.execTimeBaseFlit mod v s
  | .spareHbmPc mod stack pc => Sys2Proof.Machine.execSpareHbmPc mod stack pc s
  | .spareAbutment mod abut => Sys2Proof.Machine.execSpareAbutment mod abut s
  | .spareTorusLane mod port lane => Sys2Proof.Machine.execSpareTorusLane mod port lane s
  | .sparePierRow mod span row => Sys2Proof.Machine.execSparePierRow mod span row s

end Sys2Proof.Machine
end

