-- ==== Sys2Proof/Machine/Fetch.lean ====
section
/-!
DEFINITION. A bundle placed where the machine fetches next.
-/

namespace Sys2Proof.Machine

/-- Logical pier 0 of partition 0 placed on its own site, so that the pier is resident. -/
def placePart (p : Part) : Part :=
  { p with
    inUse := true
    table := fset p.table 0 (0x80000000 : BitVec 32)
    halfspans := p.halfspans ||| 1
    loc := fset p.loc 0 .piers }

/-- A strand of pier 0 ready to issue. -/
def placeStrand (x : Strand) : Strand := { x with status := .running, wait := .none, owed := [], donePending := false, start := 0 }

/-- Pier 0 with a bundle at the bundle address of strand 0, which is offered its turn first (R188). -/
def placePier (p : Pier) (b : BitVec 128) : Pier :=
  let x := pierStrand p 0
  { p with
    strands := fset p.strands 0 (placeStrand x)
    actors := fadj p.actors x.actor.toNat {} fun a => { a with st := .running }
    code := fset p.code x.pc.toNat b
    codePoison := fset p.codePoison (x.pc.toNat / 4) false
    halting := false
    fenced := false
    debugHalted := false
    lastIssue := 7 }

/-- The machine about to fetch a bundle whose low `nbits` bits are given and whose other bits are zero. -/
def placeWord (s : State) (nbits w : Nat) : State :=
  let s1 := adjPart (adjMod s 0 fun m => { m with present := true }) 0 0 placePart
  let s2 := adjPier s1 0 fun p => placePier p (BitVec.ofNat 128 (w % 2 ^ nbits))
  { s2 with agenda := [.issue 0] }

end Sys2Proof.Machine
end

