-- ==== Sys2Proof/Machine/Issue.lean ====
section
/-!
DEFINITION. The issue of a bundle on a pier (R77 to R80, R84 to R90, R188): fetch, decode, order of the slots, fault of the
lowest slot, all or nothing.
-/

namespace Sys2Proof.Machine

/-- How one strand's turn ends. -/
inductive Turn where
  | held
  | done (s : State)
  | stop (o : Out)

/-- Whether the guard of a raw slot is true for a strand (R78, R85). -/
def slotLive (x : Strand) (b : BitVec 30) : Bool := readC x (bitsOf b 26 3) != (bitsOf b 29 1 == 1)

/-- The value a slot's source would supply, for the record of a slot that does not decode (R208). -/
def slotValue (s : State) (wide : Bool) (b : BitVec 30) : Value :=
  match decodeSource wide (BitVec.ofNat 11 (bitsOf b 15 11)) with
  | .error _ => Value.zero
  | .ok src => match readSource s src with
    | .value v => v
    | _ => Value.zero

/-- The fault of a slot that fails step 1 or 2 of R89. -/
def slotFault (s : State) (wide : Bool) (i : Nat) (b : BitVec 30) (e : DecodeError) : FaultInfo :=
  let w2 := BitVec.ofNat 64 (b.toNat * 2 ^ 32 + (vsc (slotValue s wide b)).toNat % 2 ^ 32)
  let unit : BitVec 5 := if bitsOf b 13 2 = 1 then BitVec.ofNat 5 (bitsOf b 8 5) else 0
  let mk (code : BitVec 16) (w3 : Nat) : FaultInfo :=
    { code, slot := BitVec.ofNat 2 i, unit, w2, w3 := BitVec.ofNat 64 w3, brk := false }
  match e with
  | .illegalSource f => mk 2 f.toNat
  | .illegalDest f => mk 2 f.toNat
  | .illegalOp op => mk 3 op.toNat
  | .illegalBundle => mk 1 0
  | .truncated => mk 1 0

/-- The place of a slot in the bundle's order (R77, R211): moves, then triggers by unit, TRAP and BRK last. -/
def slotRank (b : BitVec 30) : Nat :=
  if bitsOf b 13 2 = 1 then
    (if bitsOf b 8 5 = 0 ∧ (bitsOf b 0 8 = 3 ∨ bitsOf b 0 8 = 4) then 100 else 1 + bitsOf b 8 5)
  else 0

/-- An item put in order of rank, behind those of its own rank. -/
def insertRank (r : Nat × Nat × Instr) : List (Nat × Nat × Instr) → List (Nat × Nat × Instr)
  | [] => [r]
  | q :: l => if r.1 < q.1 then r :: q :: l else q :: insertRank r l

/-- The slots whose guards are true, decoded, with their numbers: those that fail, those that run. -/
def splitSlots (s : State) (wide : Bool) (x : Strand) : List (BitVec 30) → Nat → List FaultInfo × List (Nat × Nat × Instr)
  | [], _ => ([], [])
  | b :: l, i =>
    let r := splitSlots s wide x l (i + 1)
    if slotLive x b then
      match decodeSlot wide b with
      | .error e => (slotFault s wide i b e :: r.1, r.2)
      | .ok ins => (r.1, (slotRank b, i, ins) :: r.2)
    else r

/-- The slots run one after the other. -/
def runSlots (exec : Instr → State → Out) : List (Nat × Nat × Instr) → State → Out
  | [], s => .next s
  | r :: l, s =>
    match exec r.2.2 { s with issue := { s.issue with slot := BitVec.ofNat 2 r.2.1 } } with
    | .next s' => runSlots exec l s'
    | o => o

/-- The fault of the lower of two slots. -/
def lowerFault (a b : Option FaultInfo) : Option FaultInfo :=
  match a, b with
  | none, b => b
  | a, none => a
  | some f, some g => if g.slot.toNat < f.slot.toNat then some g else some f

/-- Whether a raw slot triggers an operation that takes an in-flight entry: gm, kf and sg triggers and the divides of im
(R81). -/
def takesEntry (b : BitVec 30) : Bool :=
  bitsOf b 13 2 == 1 && (bitsOf b 8 5 == 5 || bitsOf b 8 5 == 8 || bitsOf b 8 5 == 11 || (bitsOf b 8 5 == 3 && decide (3 ≤ bitsOf b 0 8 ∧ bitsOf b 0 8 ≤ 6)))

/-- Whether the in-flight record has no room for the bundle: `l` holds its slots with their triggers (R80). -/
def noRoom (x : Strand) (slots : List (BitVec 30)) (l : List (Nat × Nat × Instr)) : Bool :=
  let n := l.countP fun r => takesEntry (lgetD slots r.2.1 0)
  decide (0 < n ∧ 16 < n + (entriesOf x).length)

/-- A bundle that passed R88 offered to the units. A bundle that fails step 1 or 2 of R89 faults at once; any other waits while
the strand does or the in-flight record has no room for it (R80). -/
def issueSlots (exec : Instr → State → Out) (s : State) (pk st : Nat) (slots : List (BitVec 30)) (limm : Option Word) : Turn :=
  let x := getStrand s pk st
  let ctx : Issue :=
    { pk, strand := st, addr := x.pc, slot := 0, slots, limm := limm.getD 0, pre := x, out := (getPier s pk).outbox.length,
      held := false, fault := none }
  let s0 := adjStrand { s with issue := ctx } pk st fun y => { y with pc := x.pc + 1 }
  let r := splitSlots s0 limm.isSome x slots 0
  match runSlots exec (r.2.foldl (fun l i => insertRank i l) []) s0 with
  | .next s1 =>
    let held := s1.issue.held || x.wait != .none || x.owed != [] || noRoom x slots r.2
    match lowerFault r.1.head? s1.issue.fault with
    | some f => if held && r.1.isEmpty then .held else .done (takeFault s pk st f x.pc x.pc)
    | none => if held then .held else .done (adjPier { s1 with issue := {} } pk fun p => { p with lastIssue := st })
  | o => .stop o

/-- One strand's turn: its next bundle is fetched and offered. -/
def tryIssue (exec : Instr → State → Out) (s : State) (pk st : Nat) : Turn :=
  let p := getPier s pk
  let x := pierStrand p st
  if fget p.codePoison (x.pc.toNat / 4) false then
    (if x.wait = .none ∧ x.owed = [] then .stop (.fault .poisonedFetch) else .held)
  else
    let b := fget p.code x.pc.toNat 0
    match decodeBundle b with
    | .error _ =>
      let f : FaultInfo :=
        { code := 1, slot := 0, unit := 0, w2 := b.extractLsb' 64 64, w3 := b.extractLsb' 0 64, brk := false }
      .done (takeFault s pk st f x.pc x.pc)
    | .ok (slots, limm) => issueSlots exec s pk st slots limm

/-- Whether a strand may offer a bundle (R50, R186, R221, R233, R299); one that waits offers its next bundle too, which faults
at once where R80 says so. -/
def mayIssue (p : Pier) (st : Nat) : Bool :=
  let x := pierStrand p st
  x.status == .running && x.start == 0 && !x.donePending && !p.halting && !p.fenced && !(p.debugHalted && !x.service)

/-- The strands from a list offered in turn until one issues (R188). DESIGN CHOICE, log entry 82: a bundle that faults takes the turn of its
cycle, also where it does so before it could issue (R80). -/
def issueTurns (exec : Instr → State → Out) (s : State) (pk : Nat) : List Nat → Out
  | [] => .next s
  | st :: l =>
    if mayIssue (getPier s pk) st then
      match tryIssue exec s pk st with
      | .held => issueTurns exec s pk l
      | .done s' => .next s'
      | .stop o => o
    else issueTurns exec s pk l

/-- The strand issuer of a pier: the first ready strand after the one that issued last (R188); then the triggers that waited in their
bundles and are ready (R63). -/
def issuePier (exec : Instr → State → Out) (pk : Nat) (s : State) : Out :=
  let last := (getPier s pk).lastIssue
  match issueTurns exec s pk ((List.range 8).map fun i => (last + 1 + i) % 8) with
  | .next s1 => .next (owedAll s1 pk)
  | o => o

end Sys2Proof.Machine
end

