-- ==== Sys2Proof/Machine/Step.lean ====
section
/-!
DEFINITION. One step of the machine: the next piece of work of the present cycle, or the turn of the clock.
-/

namespace Sys2Proof.Machine

/-- One step: the step of the table at the head of the agenda, the issue of a bundle, or the next cycle. -/
def step (s : State) : Host.Outcome State Fault Refusal :=
  match s.agenda with
  | .ev i :: l => exec i { s with agenda := l }
  | .issue pk :: l => issuePier exec pk { s with agenda := l }
  | [] => .next (nextCycle s)

/-- The state with an instruction stored where `step` fetches its next bundle: the running strand 0 of pier 0, with all
that this takes of a program that runs (log entry 10). -/
def State.withFetchWord (s : State) (nbits w : Nat) : State := placeWord s nbits w

end Sys2Proof.Machine
end

