-- ==== Sys2Proof/Certificates/Slice0/Obligations.lean ====
section
/-!
DEFINITION. The statements about this model: what each instruction and each step does, what it leaves as it was, where it
completes, what it faults on. `Claims` holds the words they share and the parts of those that have several.
-/

open Sys2Proof Sys2Proof.Machine

namespace Sys2Proof.Claims

/-! The words the statements share. -/

/-- A slot takes effect: its guard is true and its source gives a value (R77, R78). -/
def Fires (s : State) (m : Mv) (t : Value) : Prop := guardOn s m = true ∧ readSource s m.src = .value t

/-- An operand port that this run has written, and the value in it (R75). -/
def Port (s : State) (o : OpSel) (a : Value) : Prop := opPort (curStrand s) o = some a

/-- A clean or poisoned scalar result: its value, poisoned when one of the values it is made from is (R126). -/
def scalar (w : Word) (poison : Bool) : Value := ⟨.scalar w, poison⟩

/-- A result port holds a value for the bundles that follow (R76). -/
def Reads (t : State) (port : Nat) (v : Value) : Prop := resPort (curStrand t) port = .full v

/-- Every byte of every memory reads as before: HBM, weight stores, scratchpads, and the code stores. -/
structure SameMemory (s t : State) : Prop where
  hbm : ∀ m a, mget (getMod t m).hbm a = mget (getMod s m).hbm a
  slice : ∀ k a, mget (getSite t k).slice a = mget (getSite s k).slice a
  spad : ∀ pk a, mget (getPier t pk).spad a = mget (getPier s pk).spad a
  code : ∀ pk a, fget (getPier t pk).code a 0 = fget (getPier s pk).code a 0

/-- The registers a move can write, the p-words, the header and the identity of a run are unchanged (R69, R70, R73). -/
structure SameRegs (x y : Strand) : Prop where
  xs : ∀ r, readX y r = readX x r
  vs : ∀ r, readV y r = readV x r
  cs : ∀ r, readC y r = readC x r
  qs : ∀ i, readQ y i = readQ x i
  ps : ∀ i, readP y i = readP x i
  ops : ∀ o, opPort y o = opPort x o
  run : y.hdr = x.hdr ∧ y.actor = x.actor ∧ y.lp = x.lp ∧ y.runid = x.runid ∧ y.seed = x.seed ∧ y.cycles = x.cycles ∧
    y.wexp = x.wexp ∧ y.status = x.status

/-- A pier without what a strand holds and without the divider of im. -/
def noStrands (p : Pier) : Pier := { p with strands := [], divBusy := none }

/-- What a trigger of unit `u` that only writes its own result ports leaves as it was. -/
structure Frame (s t : State) (u : Nat) : Prop where
  regs : SameRegs (curStrand s) (curStrand t)
  ports : ∀ i, i / 4 ≠ 0x20 + u → resPort (curStrand t) i = resPort (curStrand s) i
  strands : ∀ pk st, ¬(pk = s.issue.pk ∧ st = s.issue.strand) → getStrand t pk st = getStrand s pk st
  piers : ∀ pk, noStrands (getPier t pk) = noStrands (getPier s pk)
  divider : u ≠ 3 → ∀ pk, (getPier t pk).divBusy = (getPier s pk).divBusy
  memory : SameMemory s t
  rest : t.mods = s.mods ∧ t.sites = s.sites ∧ t.jobs = s.jobs ∧ t.walks = s.walks ∧ t.issue = s.issue ∧ t.cycle = s.cycle

end Sys2Proof.Claims

namespace Sys2Proof.Claims

/-- Slot words written out bit by bit from R85 to R97, and what each stands for. -/
def words : List (BitVec 30 × Instr) :=
  [ (0b0000_10000000000_01_00000_00000010#30, .done ⟨false, 0, .imm 0⟩)
  , (0b0000_10000000000_01_00000_00011011#30, .fenceRel ⟨false, 0, .imm 0⟩ .sys)
  , (0b0000_00000000111_01_00001_00011000#30, .clz ⟨false, 0, .x 7⟩ .ia)
  , (0b1011_00000000101_01_00010_00000001#30, .sub ⟨true, 3, .x 5⟩ .ib)
  , (0b0000_00000000101_01_00011_00000011#30, .div ⟨false, 0, .x 5⟩)
  , (0b0000_10000000110_01_00100_00000010#30, .ldl ⟨false, 0, .imm 6⟩ 2)
  , (0b0000_00000000010_01_00101_10111001#30, .atg ⟨false, 0, .x 2⟩ .fadd true .rel)
  , (0b0000_00000100011_01_00110_00011001#30, .vfma ⟨false, 0, .v 3⟩ .f32)
  , (0b0000_00000000001_01_00111_00010000#30, .mma ⟨false, 0, .x 1⟩)
  , (0b0000_00000100001_01_01000_10000000#30, .kexp ⟨false, 0, .v 1⟩ true)
  , (0b0000_10000000010_01_01001_00000000#30, .send ⟨false, 0, .imm 2⟩)
  , (0b0000_00000000100_01_01010_00000101#30, .swait ⟨false, 0, .x 4⟩)
  , (0b0000_00000000100_01_01011_00000101#30, .sxch ⟨false, 0, .x 4⟩)
  , (0b0000_10000000000_01_01100_00000000#30, .crd ⟨false, 0, .imm 0⟩)
  , (0b0101_00010010100_00_00000_00000011#30, .move ⟨false, 5, .res .gmR⟩ (.x 3))
  , (0b0000_00001001101_00_00000_10100100#30, .move ⟨false, 0, .p 5⟩ (.port .msA)) ]

/-- The checks of R88, read off the bundle: kind, reserved bits, guard fields, destinations, units. -/
def slotsOf (b : BitVec 128) : List (BitVec 30) :=
  match (b.extractLsb' 126 2).toNat with
  | 0 => [b.extractLsb' 90 30, b.extractLsb' 60 30, b.extractLsb' 30 30, b.extractLsb' 0 30]
  | 1 => [b.extractLsb' 92 30, b.extractLsb' 62 30, b.extractLsb' 32 30]
  | _ => [b.extractLsb' 94 30, b.extractLsb' 64 30]

/-- Two slots name one destination index other than x0 or c0, or trigger one unit (R88). -/
def clash (a b : BitVec 30) : Prop :=
  (a.extractLsb' 13 2 = 0 ∧ b.extractLsb' 13 2 = 0 ∧ a.extractLsb' 0 13 = b.extractLsb' 0 13 ∧ a.extractLsb' 0 13 ≠ 0 ∧
    a.extractLsb' 0 13 ≠ 0x40) ∨
  (a.extractLsb' 13 2 = 1 ∧ b.extractLsb' 13 2 = 1 ∧ a.extractLsb' 8 5 = b.extractLsb' 8 5)

/-- A bundle is illegal by R88. -/
def illegal (b : BitVec 128) : Prop :=
  b.extractLsb' 126 2 = 3 ∨
  (b.extractLsb' 126 2 = 0 ∧ b.extractLsb' 120 6 ≠ 0) ∨
  (b.extractLsb' 126 2 = 1 ∧ b.extractLsb' 122 4 ≠ 0) ∨
  (b.extractLsb' 126 2 = 2 ∧ b.extractLsb' 124 2 ≠ 0) ∨
  (∃ w ∈ slotsOf b, w.extractLsb' 26 4 = 8) ∨
  ¬ (slotsOf b).Pairwise fun a c => ¬ clash a c

end Sys2Proof.Claims

/-- Sixteen slot words, one or more of every unit, decode to what R85 to R97 say they stand for. -/
def Obligations.WrittenWordsDecode : Prop := ∀ p ∈ Claims.words, decodeSlot false p.1 = .ok p.2

/-- Every trigger, move and NOP in a form the manual gives is read back from the word its encoding tables give it, with
every operand at every value; a long immediate in a bundle that has one. -/
def Obligations.DecodeInvertsEncode : Prop :=
  ∀ (i : Instr) (w : BitVec 30), i.slotForm = true → i.wf = true → encode i = some w →
    decodeSlot true w = .ok i ∧ (decodeSlot false w = .ok i ∨ ∃ m d, i.fields = some (m, d) ∧ m.src = .limm)

/-- No two words stand for one slot form: a word the decoder accepts is the one the encoder gives, but for the guard field
0b1000, which no legal bundle holds (R88). -/
def Obligations.EncodeInvertsDecode : Prop :=
  ∀ (wide : Bool) (w : BitVec 30) (i : Instr), decodeSlot wide w = .ok i →
    encode i = some w ∧ i.slotForm = true ∧ (w.extractLsb' 26 4 ≠ 8 → i.wf = true)

/-- The decoder refuses exactly the bundles that R88 calls illegal. -/
def Sys2Proof.Claims.IllegalBundlesByEncoding : Prop :=
  ∀ b : BitVec 128, Claims.illegal b ↔ decodeBundle b = .error .illegalBundle

namespace Sys2Proof.Claims

/-- The strands of a pier in the order in which they are offered: the one after the last issuer first (R188). -/
def turnOrder (last : Nat) : List Nat := (List.range 8).map fun i => (last + 1 + i) % 8

/-- The next piece of work is the issue of a pier; strand `st` is the first of the round that may offer a bundle, and the bundle
at its bundle address is the given one (R50, R84, R188). -/
structure Offers (s : State) (pk st : Nat) (l : List Work) (b : BitVec 128) : Prop where
  work : s.agenda = .issue pk :: l
  turn : (turnOrder (getPier s pk).lastIssue).find? (fun n => mayIssue (getPier s pk) n) = some st
  clean : fget (getPier s pk).codePoison ((getStrand s pk st).pc.toNat / 4) false = false
  code : fget (getPier s pk).code (getStrand s pk st).pc.toNat 0 = b

/-- Nothing that the bundle before has left holds the strand: it is in no SWAIT or SARV and no trigger waits for its own bundle's gm
requests (R50, R77). -/
def Free (x : Strand) : Prop := x.wait = .none ∧ x.owed = []

/-- The in-flight record has room for a slot: 16 entries, of which a gm, kf or sg trigger and a divide take one (R80, R81). -/
def HasRoom (x : Strand) (w : BitVec 30) : Prop := takesEntry w = true → (entriesOf x).length < 16

/-- The bundle context the slots of the bundle run in: sources as the last bundle left them, the bundle address past this
bundle (R77). -/
def inBundle (s : State) (pk st : Nat) (l : List Work) (slots : List (BitVec 30)) (limm : Option Word) (slot : Nat) : State :=
  let x := getStrand s pk st
  adjStrand
    { s with
      agenda := l
      issue := { pk, strand := st, addr := x.pc, slot := BitVec.ofNat 2 slot, slots, limm := limm.getD 0, pre := x,
                 out := (getPier s pk).outbox.length, held := false, fault := none } }
    pk st fun y => { y with pc := x.pc + 1 }

/-- The issue is over: the strand is the last issuer (R188). -/
def issued (t : State) (pk st : Nat) : State := adjPier { t with issue := {} } pk fun p => { p with lastIssue := st }

/-- Only one slot of the bundle is not a NOP. -/
def OnlySlot (slots : List (BitVec 30)) (k : Nat) (w : BitVec 30) : Prop :=
  slots[k]? = some w ∧ w ≠ 0 ∧ ∀ j v, slots[j]? = some v → j ≠ k → v = 0

/-- Only two slots of the bundle are not NOPs. -/
def OnlyTwo (slots : List (BitVec 30)) (j k : Nat) (v w : BitVec 30) : Prop :=
  j ≠ k ∧ slots[j]? = some v ∧ slots[k]? = some w ∧ v ≠ 0 ∧ w ≠ 0 ∧ ∀ n u, slots[n]? = some u → n ≠ j → n ≠ k → u = 0

/-- The slot names a move, or a trigger of a unit (R87). -/
def isTrigger (w : BitVec 30) (unit : Nat) : Prop := w.extractLsb' 13 2 = 1 ∧ (w.extractLsb' 8 5).toNat = unit

/-- The state with the slot in hand set. -/
def atSlot (t : State) (k : Nat) : State := { t with issue := { t.issue with slot := BitVec.ofNat 2 k } }

/-- The guard of the slot is true for the strand (R78, R85). -/
def live (x : Strand) (w : BitVec 30) : Prop :=
  (readC x (w.extractLsb' 26 3).toNat) ≠ (w.extractLsb' 29 1 == 1#1)

end Sys2Proof.Claims

/-- When a step of the table stands at the head of the agenda, a step of the machine is that step. -/
def Sys2Proof.Claims.StepRunsEvent : Prop :=
  ∀ (s : State) (i : Instr) (l : List Work), s.agenda = .ev i :: l → step s = exec i { s with agenda := l }

/-- When the bundle at the bundle address of a strand that is free to issue decodes to one slot that is no NOP and the in-flight record
has room for it, a step of the machine is `exec` of that slot at the state in which the bundle address has moved on, and one that faults
freezes the run at itself and undoes the rest; a bundle that is held, by its slot, by the strand's own wait or for want of room, leaves no
trace and its turn passes on. What waited in a bundle of the pier and is ready is made behind the issue (R63, `owedAll`; log entry 15). -/
def Sys2Proof.Claims.StepIssuesDecodedSlot : Prop :=
  ∀ (s t : State) (pk st k : Nat) (l : List Work) (b : BitVec 128) (slots : List (BitVec 30)) (limm : Option Word)
    (w : BitVec 30) (i : Instr),
    Claims.Offers s pk st l b → decodeBundle b = .ok (slots, limm) → Claims.OnlySlot slots k w →
    Claims.live (getStrand s pk st) w → decodeSlot limm.isSome w = .ok i →
    exec i (Claims.inBundle s pk st l slots limm k) = .next t →
    let open_ := Claims.Free (getStrand s pk st) ∧ Claims.HasRoom (getStrand s pk st) w
    (open_ → t.issue.held = false ∧ t.issue.fault = none → step s = .next (owedAll (Claims.issued t pk st) pk)) ∧
    (∀ f, open_ → t.issue.held = false ∧ t.issue.fault = some f →
      step s = .next (owedAll (takeFault { s with agenda := l } pk st f (getStrand s pk st).pc (getStrand s pk st).pc) pk)) ∧
    (t.issue.held = true ∨ ¬open_ → (∀ n < 8, n ≠ st → mayIssue (getPier s pk) n = false) →
      step s = .next (owedAll { s with agenda := l } pk)) ∧
    ((getPier s pk).owedLeft = [] → (∀ x ∈ (getPier s pk).strands, x.2.owed = []) → owedAll s pk = s)

/-- Of two slots (what waited in a bundle of the pier is made behind them, as in the statement of one slot), a move takes effect before a trigger and the trigger of the lower unit before the other, whichever slots
they stand in; TRAP and BRK come last, since their bundle takes effect in full. -/
def Sys2Proof.Claims.SlotsRunInBundleOrder : Prop :=
  ∀ (s t u : State) (pk st j k m n : Nat) (l : List Work) (b : BitVec 128) (slots : List (BitVec 30)) (limm : Option Word)
    (v w : BitVec 30) (i i' : Instr),
    Claims.Offers s pk st l b → decodeBundle b = .ok (slots, limm) → Claims.OnlyTwo slots j k v w →
    Claims.Free (getStrand s pk st) → (entriesOf (getStrand s pk st)).length < 15 →
    Claims.live (getStrand s pk st) v → Claims.live (getStrand s pk st) w →
    decodeSlot limm.isSome v = .ok i → decodeSlot limm.isSome w = .ok i' →
    ((v.extractLsb' 13 2 = 0 ∧ Claims.isTrigger w n) ∨ (Claims.isTrigger v m ∧ Claims.isTrigger w n ∧ 0 < m ∧ m < n) ∨
     (Claims.isTrigger v m ∧ 0 < m ∧ Claims.isTrigger w 0 ∧ (∃ g, i' = .trap g ∨ i' = .brk g)) ∨
     (Claims.isTrigger v 0 ∧ 0 < n ∧ Claims.isTrigger w n ∧ ∀ g, i ≠ .trap g ∧ i ≠ .brk g)) →
    exec i (Claims.inBundle s pk st l slots limm j) = .next t →
    exec i' (Claims.atSlot t k) = .next u → u.issue.held = false → u.issue.fault = none →
    step s = .next (owedAll (Claims.issued u pk st) pk)

/-- A bundle that is illegal by its encoding freezes the run at itself with code 0x01 and its own bits in w2 and w3,
whatever holds it. -/
def Sys2Proof.Claims.IllegalBundleFaults : Prop :=
  ∀ (s : State) (pk st : Nat) (l : List Work) (b : BitVec 128),
    Claims.Offers s pk st l b → Claims.illegal b →
    step s = .next (owedAll (takeFault { s with agenda := l } pk st
      { code := 0x01, slot := 0, unit := 0, w2 := b.extractLsb' 64 64, w3 := b.extractLsb' 0 64, brk := false }
      (getStrand s pk st).pc (getStrand s pk st).pc) pk)

/-- The guard of a slot is c[g] as the bundle before left it, or its complement where the invert bit is 1; a slot under a false guard does
nothing, whatever it names: it does not wait or fault, writes nothing and triggers nothing. -/
def Obligations.FalseGuardDoesNothing : Prop :=
  ∀ (s : State) (i : Instr) (m : Mv) (d : BitVec 15), i.slotForm = true → i.fields = some (m, d) →
    guardOn s m = (if m.inv then !readC s.issue.pre m.g.toNat else readC s.issue.pre m.g.toNat) ∧
    (guardOn s m = false → exec i s = .next s)

/-- A slot whose source is a result port that waits for its operation holds the whole bundle. -/
def Sys2Proof.Claims.PendingSourceHoldsBundle : Prop :=
  ∀ (s : State) (i : Instr) (m : Mv) (d : BitVec 15),
    i.slotForm = true → i.fields = some (m, d) → guardOn s m = true → readSource s m.src = .waits →
    exec i s = .next (markHeld s)

namespace Sys2Proof.Claims

/-- The state after a trigger of a unit whose result is ready for the next bundle (L = 1, R79): port r of the unit holds it,
the unit's other ports are empty (R76). -/
def withResult (s : State) (u : Nat) (v : Value) : State :=
  adjCur s fun x => { x with res := fset (x.res.filter fun e => !(e.1 / 4 == 0x20 + u)) (0x80 + 4 * u) (.full v) }

/-- The state after a trigger of a unit whose result, and for some a second one, is ready `lat` cycles later (R79): the
ports wait for it, and its landing stands in the calendar; `seed` marks an operation on cw.seed. -/
def later (s : State) (u lat : Nat) (r : Value) (h : Option Value) (seed : Bool := false) : State :=
  let wait (x : FMap ResPort) : FMap ResPort :=
    let y := fset (x.filter fun e => !(e.1 / 4 == 0x20 + u)) (0x80 + 4 * u) (.pending s.tok)
    if h.isSome then fset y (0x81 + 4 * u) (.pending s.tok) else y
  schedule
    (adjCur { s with tok := s.tok + 1 } fun x =>
      { x with
        res := wait x.res
        pend := x.pend ++ [{ tok := s.tok, unit := u, r := some r, h, create := none, seed := seed, sample := none }] })
    (s.cycle + lat) (.resultPortWrite s.issue.pk s.issue.strand u s.tok)

/-- The operations of ia and ib on port a and the trigger value, and what each gives (R278, R313, R334, R377); the ones
that move bits about are stated apart. -/
def alu2 (m : Mv) (u : Alu) : List (Instr × (Word → Word → Word)) :=
  [ (.add m u, fun a t => BitVec.ofNat 64 (a.toNat + t.toNat))
  , (.sub m u, fun a t => BitVec.ofInt 64 (a.toInt - t.toInt))
  , (.and m u, fun a t => a &&& t)
  , (.or m u, fun a t => a ||| t)
  , (.xor m u, fun a t => a ^^^ t)
  , (.andn m u, fun a t => a &&& ~~~t)
  , (.shl m u, fun a t => BitVec.ofNat 64 (a.toNat * 2 ^ (t.toNat % 64)))
  , (.shr m u, fun a t => BitVec.ofNat 64 (a.toNat / 2 ^ (t.toNat % 64)))
  , (.sra m u, fun a t => BitVec.ofInt 64 (a.toInt / 2 ^ (t.toNat % 64)))
  , (.min m u, fun a t => if t.toInt < a.toInt then t else a)
  , (.minU m u, fun a t => if t.toNat < a.toNat then t else a)
  , (.max m u, fun a t => if a.toInt < t.toInt then t else a)
  , (.maxU m u, fun a t => if a.toNat < t.toNat then t else a)
  , (.eq m u, fun a t => if a = t then 1 else 0)
  , (.ne m u, fun a t => if a = t then 0 else 1)
  , (.lt m u, fun a t => if a.toInt < t.toInt then 1 else 0)
  , (.ltU m u, fun a t => if a.toNat < t.toNat then 1 else 0)
  , (.le m u, fun a t => if a.toInt ≤ t.toInt then 1 else 0)
  , (.leU m u, fun a t => if a.toNat ≤ t.toNat then 1 else 0) ]

/-- The loop of BDEP in R279: `n` turns from bit `i`, the next bit of A being `j`. -/
def bdepLoop (a t : Word) : (n i j : Nat) → Word → Word
  | 0, _, _, r => r
  | n + 1, i, j, r =>
    if t.getLsbD i then bdepLoop a t n (i + 1) (j + 1) (if a.getLsbD j then r ||| BitVec.twoPow 64 i else r)
    else bdepLoop a t n (i + 1) j r

/-- The loop of BEXT in R279. -/
def bextLoop (a t : Word) : (n i j : Nat) → Word → Word
  | 0, _, _, r => r
  | n + 1, i, j, r =>
    if t.getLsbD i then bextLoop a t n (i + 1) (j + 1) (if a.getLsbD i then r ||| BitVec.twoPow 64 j else r)
    else bextLoop a t n (i + 1) j r

/-- The number of set bits among the low `n` bits. -/
def setBitsBelow (t : Word) : Nat → Nat
  | 0 => 0
  | n + 1 => setBitsBelow t n + (if t.getLsbD n then 1 else 0)

/-- The multiplies (R315). -/
def muls (m : Mv) : List (Instr × (Word → Word → Word)) :=
  [ (.mul m, fun a t => BitVec.ofNat 64 (a.toNat * t.toNat))
  , (.mulh m, fun a t => BitVec.ofInt 64 (a.toInt * t.toInt / 2 ^ 64))
  , (.mulhU m, fun a t => BitVec.ofNat 64 (a.toNat * t.toNat / 2 ^ 64)) ]

/-- The quotient of R297. -/
def quotient (signed : Bool) (a t : Word) : Word :=
  if t = 0 then 0xFFFFFFFFFFFFFFFF
  else if signed then (if a = 0x8000000000000000 ∧ t = 0xFFFFFFFFFFFFFFFF then 0x8000000000000000
    else BitVec.ofInt 64 (a.toInt.tdiv t.toInt))
  else BitVec.ofNat 64 (a.toNat / t.toNat)

/-- The remainder of R297. -/
def remainder (signed : Bool) (a t : Word) : Word :=
  if t = 0 then a
  else if signed then (if a = 0x8000000000000000 ∧ t = 0xFFFFFFFFFFFFFFFF then 0
    else BitVec.ofInt 64 (a.toInt - a.toInt.tdiv t.toInt * t.toInt))
  else BitVec.ofNat 64 (a.toNat - a.toNat / t.toNat * t.toNat)

/-- The latency of R298: `Nat.size` is the bit length. -/
def divideCycles (signed : Bool) (a t : Word) : Nat :=
  if t = 0 then 6 else 6 + (Nat.size (if signed then a.toInt.natAbs else a.toNat) + 1) / 2

/-- The divides (R297, R336): signed or not, the remainder in port r or not. -/
def divides (m : Mv) : List (Instr × Bool × Bool) :=
  [(.div m, true, false), (.divU m, false, false), (.rem m, true, true), (.remU m, false, true)]

/-- A destination of a move after the write (R69, R71, R87): x and q take the scalar, v the lanes and mask, c bit 0 of the
scalar, a port the value itself; x0 and c0 take nothing. -/
def written (x y : Strand) (d : MoveDest) (v : Value) : Prop :=
  match d with
  | .x r => y = if r = 0 then x else { x with x := fset x.x r.toNat ⟨.scalar (vsc v), v.poison⟩ }
  | .v r => y = { x with v := fset x.v r.toNat ⟨.vec (vlanes v) (vmaskOf v), v.poison⟩ }
  | .c r => y = if r = 0 then x else { x with c := fset x.c r.toNat ((vsc v).getLsbD 0) }
  | .q i => y = { x with q := fset x.q i.val ⟨.scalar (vsc v), v.poison⟩ }
  | .port o => y = { x with op := fset x.op o.index (some v) }

/-- The triggers of ct that go on (R168, R306): what each does to the strand. -/
def jumps (m : Mv) : List (Instr × Bool) := [(.jmp m, false), (.jal m, true)]

/-- The fences of R168 with their kinds. -/
def fences (m : Mv) (sc : Scope) : List (Instr × Nat) :=
  [(.fenceFull m sc, 0), (.fenceAcq m sc, 1), (.fenceRel m sc, 2), (.fenceEng m sc, 3)]

end Sys2Proof.Claims

/-- MOVE copies the source value to its destination, converted as the destination needs; x0 and c0 take nothing; a
poisoned value into another guard bit faults with 0x0C. NOP does nothing. That a poisoned value moved into c0 raises no fault is the
model's choice (DESIGN CHOICE, log entry 67). -/
def Sys2Proof.Claims.MoveWritesDestination : Prop :=
  (∀ (s : State) (m : Mv) (d : MoveDest) (v : Value), Claims.Fires s m v →
    (∀ r : BitVec 3, d = .c r → r = 0 ∨ v.poison = false) →
    ∃ x, Claims.written (curStrand s) x d v ∧ exec (.move m d) s = .next (setStrand s s.issue.pk s.issue.strand x)) ∧
  (∀ (s : State) (m : Mv) (r : BitVec 3) (v : Value), Claims.Fires s m v → r ≠ 0 → v.poison = true →
    exec (.move m (.c r)) s = .next (raise s 0 0x0C (moveWord s v) 0)) ∧
  ∀ s : State, exec .nop s = .next s

/-- The vector and scalar conversions of a value that is moved. -/
def Sys2Proof.Claims.MovedValueConversions : Prop :=
  (∀ w p, vsc ⟨.scalar w, p⟩ = w) ∧
  (∀ r k p i, i < 64 → (vsc ⟨.vec r k, p⟩).getLsbD i = r.getLsbD i) ∧
  (∀ w p i, (vlanes ⟨.scalar w, p⟩).getLsbD i = w.getLsbD i) ∧ (∀ w p, vmaskOf ⟨.scalar w, p⟩ = 0x0003) ∧
  (∀ r k p, vlanes ⟨.vec r k, p⟩ = r ∧ vmaskOf ⟨.vec r k, p⟩ = k) ∧
  (∀ x : Strand, readX x 0 = Value.ofWord 0) ∧ ∀ x : Strand, readC x 0 = true

/-- JMP and JAL set the bundle address that follows to bits [11:0] of T; JAL puts the address of the bundle behind it into
ct.r, JMP leaves ct.r empty. -/
def Sys2Proof.Claims.JumpsSetBundleAddress : Prop :=
  ∀ (s : State) (m : Mv) (t : Value) (i : Instr) (link : Bool), Claims.Fires s m t → t.poison = false →
    (i, link) ∈ Claims.jumps m →
    ∃ s', exec i s = .next s' ∧ (curStrand s').pc = (vsc t).extractLsb' 0 12 ∧ Claims.Frame s s' 0 ∧
      resPort (curStrand s') 0x080 =
        if link then .full (Claims.scalar ((s.issue.addr + 1).setWidth 64) false) else .empty

/-- DONE marks the run as done and does nothing else; the run ends once its results and translations are in: the strand is
free and keeps nothing but its seed, and the actor is idle. -/
def Sys2Proof.Claims.DoneEndsRun : Prop :=
  (∀ (s : State) (m : Mv) (t : Value), Claims.Fires s m t → t.poison = false →
    ∃ s', exec (.done m) s = .next s' ∧ Claims.Frame s s' 0 ∧ (curStrand s').donePending = true ∧
      resPort (curStrand s') 0x080 = .empty) ∧
  ∀ (s : State) (pk st : Nat), (getStrand s pk st).status = .running → (getStrand s pk st).donePending = true →
    runDrained (getStrand s pk st) = true → residentOpen s pk = true →
    (getActor s pk (getStrand s pk st).actor.toNat).retiring = false →
    ∃ s', exec (.runEnd pk st) s = .next s' ∧ getStrand s' pk st = { seed := (getStrand s pk st).seed } ∧
      (getActor s' pk (getStrand s pk st).actor.toNat).st = .idle ∧
      (∀ n, n ≠ st → getStrand s' pk n = getStrand s pk n) ∧ Claims.SameMemory s s'

/-- TRAP and BRK freeze the run at the bundle after theirs, with a record of code 0x14 whose w3 is T; BRK sets the
breakpoint bit. -/
def Sys2Proof.Claims.TrapAndBreakpointFreeze : Prop :=
  ∀ (s : State) (m : Mv) (t : Value) (b : Bool), Claims.Fires s m t → t.poison = false →
    exec (if b then .brk m else .trap m) s =
      .next (takeFault (adjCur s fun x => { x with res := x.res.filter fun e => !(e.1 / 4 == 0x20) }) s.issue.pk s.issue.strand
        { code := 0x14, slot := s.issue.slot, unit := 0, w2 := moveWord s t, w3 := vsc t, brk := b } s.issue.addr
        (s.issue.addr + 1))

/-- A FENCE issues, and empties ct.r, once no gm request of the run awaits translation and every earlier access of its kind
in its scope is performed, FENCE.eng also once the run's matrix entries and streams have ended; until then it holds its
bundle. -/
def Sys2Proof.Claims.FenceWaitsThenIssues : Prop :=
  ∀ (s : State) (m : Mv) (t : Value) (sc : Scope) (i : Instr) (kind : Nat), Claims.Fires s m t → t.poison = false →
    (i, kind) ∈ Claims.fences m sc →
    let open_ := (gmEntries s).any (fun e => !e.issued) = true ∨
      (gmEntries s).any (fun e => inScope s sc e && (kind != 1 || !gmIsStore e.req.op)) = true ∨
      (kind = 3 ∧ engineBusy s = true)
    (open_ → exec i s = .next (markHeld s)) ∧
    (¬open_ → ∃ s', exec i s = .next s' ∧ Claims.Frame s s' 0 ∧ resPort (curStrand s') 0x080 = .empty)

/-- Every operation of ia and ib that is no bit shuffle writes its result of port a and T, poisoned when either is, to
port r of its own unit, for the next bundle, and does nothing else; with port a unwritten it faults with 0x05. -/
def Sys2Proof.Claims.AluTwoOperandResults : Prop :=
  ∀ (s : State) (m : Mv) (u : Alu) (t a : Value) (i : Instr) (f : Word → Word → Word), Claims.Fires s m t →
    (i, f) ∈ Claims.alu2 m u →
    (Claims.Port s (aluA u) a →
      exec i s = .next (Claims.withResult s u.unit (Claims.scalar (f (vsc a) (vsc t)) (a.poison || t.poison)))) ∧
    (opPort (curStrand s) (aluA u) = none →
      exec i s = .next (raise s u.unit 0x05 (moveWord s t) (if u = .ia then 0x084 else 0x088)))

/-- The two-operand operations that place bits: ROL, SEXT, ZEXT by bit number, BDEP and BEXT by the loops of their rule. -/
def Sys2Proof.Claims.AluBitPlacement : Prop :=
  ∀ (s : State) (m : Mv) (u : Alu) (t a : Value), Claims.Fires s m t → Claims.Port s (aluA u) a →
    let n := (vsc t).toNat % 64
    let gives (i : Instr) (r : Word) : Prop :=
      exec i s = .next (Claims.withResult s u.unit (Claims.scalar r (a.poison || t.poison)))
    (∃ r, gives (.rol m u) r ∧ ∀ i < 64, r.getLsbD ((i + n) % 64) = (vsc a).getLsbD i) ∧
    (∃ r, gives (.sext m u) r ∧ ∀ i < 64, r.getLsbD i = (vsc a).getLsbD (if i ≤ n then i else n)) ∧
    (∃ r, gives (.zext m u) r ∧ ∀ i < 64, r.getLsbD i = (decide (i ≤ n) && (vsc a).getLsbD i)) ∧
    gives (.bdep m u) (Claims.bdepLoop (vsc a) (vsc t) 64 0 0 0) ∧
    gives (.bext m u) (Claims.bextLoop (vsc a) (vsc t) 64 0 0 0)

/-- The one-operand operations read T alone, whatever port a holds: CLZ, CTZ, POPC, BREV; SEL picks A or B by T. -/
def Sys2Proof.Claims.AluOneOperandAndSelect : Prop :=
  ∀ (s : State) (m : Mv) (u : Alu) (t : Value), Claims.Fires s m t →
    let w := vsc t
    let gives (i : Instr) (r : Word) : Prop := exec i s = .next (Claims.withResult s u.unit (Claims.scalar r t.poison))
    (∃ n ≤ 64, gives (.clz m u) (BitVec.ofNat 64 n) ∧ (∀ i < 64, 64 - n ≤ i → w.getLsbD i = false) ∧
      (n < 64 → w.getLsbD (63 - n) = true)) ∧
    (∃ n ≤ 64, gives (.ctz m u) (BitVec.ofNat 64 n) ∧ (∀ i < n, w.getLsbD i = false) ∧ (n < 64 → w.getLsbD n = true)) ∧
    gives (.popc m u) (BitVec.ofNat 64 (Claims.setBitsBelow w 64)) ∧
    (∃ r, gives (.brev m u) r ∧ ∀ i < 64, r.getLsbD i = w.getLsbD (63 - i)) ∧
    ∀ a b, Claims.Port s (aluA u) a → Claims.Port s (aluB u) b →
      exec (.sel m u) s =
        .next (Claims.withResult s u.unit (Claims.scalar (if w = 0 then vsc b else vsc a) (a.poison || b.poison || t.poison)))

/-- MUL, MULH, MULH.u and MAD write their product to im.r three cycles later, im.h stays empty. -/
def Sys2Proof.Claims.MultiplyResults : Prop :=
  (∀ (s : State) (m : Mv) (t a : Value) (i : Instr) (f : Word → Word → Word), Claims.Fires s m t → Claims.Port s .imA a →
    (i, f) ∈ Claims.muls m →
    exec i s = .next (Claims.later s 3 3 (Claims.scalar (f (vsc a) (vsc t)) (a.poison || t.poison)) none)) ∧
  ∀ (s : State) (m : Mv) (t a b : Value), Claims.Fires s m t → Claims.Port s .imA a → Claims.Port s .imB b →
    exec (.mad m) s = .next (Claims.later s 3 3
      (Claims.scalar (BitVec.ofNat 64 ((vsc a).toNat * (vsc b).toNat + (vsc t).toNat)) (a.poison || b.poison || t.poison)) none)

/-- A divide takes the divider of the pier and the lowest free in-flight entry, and its quotient and remainder land
together after the cycles of its rule; while the divider is taken a divide holds its bundle. -/
def Sys2Proof.Claims.DivideStarts : Prop :=
  ∀ (s : State) (m : Mv) (t a : Value) (i : Instr) (signed swap : Bool), Claims.Fires s m t → Claims.Port s .imA a →
    (i, signed, swap) ∈ Claims.divides m →
    ((curPier s).divBusy.isSome = true → exec i s = .next (markHeld s)) ∧
    ∀ n, (curPier s).divBusy = none → freeEntry (curStrand s) = some n →
      let q := Claims.scalar (Claims.quotient signed (vsc a) (vsc t)) (a.poison || t.poison)
      let r := Claims.scalar (Claims.remainder signed (vsc a) (vsc t)) (a.poison || t.poison)
      ∃ s', exec i s = .next s' ∧ Claims.Frame s s' 3 ∧ (curPier s').divBusy = some s.tok ∧
        resPort (curStrand s') 0x08C = .pending s.tok ∧ resPort (curStrand s') 0x08D = .pending s.tok ∧
        (∃ e, fget (curStrand s').inf n none = some e ∧ e.kind = .div ∧ e.tok = s.tok) ∧
        ({ tok := s.tok, unit := 3, r := some (if swap then r else q), h := some (if swap then q else r), create := none,
           seed := false, sample := none } ∈ (curStrand s').pend) ∧
        (s.cycle + Claims.divideCycles signed (vsc a) (vsc t), Instr.divideComplete s.issue.pk s.issue.strand s.tok) ∈ s'.cal

/-- The end of a divide frees the divider and writes both results to the ports that still wait for them; a port that a
later trigger of the unit has taken keeps what it has. -/
def Sys2Proof.Claims.DivideCompletes : Prop :=
  ∀ (s : State) (pk st tok : Nat) (p : Pending), (getStrand s pk st).pend.find? (fun q => q.tok == tok) = some p → p.unit = 3 →
    (getPier s pk).divBusy = some tok →
    ∃ s', exec (.divideComplete pk st tok) s = .next s' ∧ (getPier s' pk).divBusy = none ∧
      (∀ v, p.r = some v → resPort (getStrand s pk st) 0x08C = .pending tok → resPort (getStrand s' pk st) 0x08C = .full v) ∧
      (∀ v, p.h = some v → resPort (getStrand s pk st) 0x08D = .pending tok → resPort (getStrand s' pk st) 0x08D = .full v) ∧
      (∀ i, resPort (getStrand s pk st) i ≠ .pending tok → resPort (getStrand s' pk st) i = resPort (getStrand s pk st) i) ∧
      (∀ q ∈ (getStrand s' pk st).pend, q.tok ≠ tok) ∧ Claims.SameRegs (getStrand s pk st) (getStrand s' pk st) ∧
      Claims.SameMemory s s'

/-- A result of fixed latency lands in the port that still waits for it, and nowhere else. -/
def Obligations.ResultLandsInWaitingPort : Prop :=
  ∀ (s : State) (pk st u tok : Nat) (p : Pending), (getStrand s pk st).pend.find? (fun q => q.tok == tok) = some p → p.unit = u →
    p.create = none → u ≠ 11 →
    ∃ s', exec (.resultPortWrite pk st u tok) s = .next s' ∧
      (∀ v, p.r = some v → resPort (getStrand s pk st) (0x080 + 4 * u) = .pending tok →
        resPort (getStrand s' pk st) (0x080 + 4 * u) = .full v) ∧
      (∀ i, resPort (getStrand s pk st) i ≠ .pending tok → resPort (getStrand s' pk st) i = resPort (getStrand s pk st) i) ∧
      (∀ q ∈ (getStrand s' pk st).pend, q.tok ≠ tok) ∧ Claims.SameRegs (getStrand s pk st) (getStrand s' pk st) ∧
      Claims.SameMemory s s'

namespace Sys2Proof.Claims

/-- Field `n` bits from bit `lo` of a word. -/
def fld (w : Word) (lo n : Nat) : Nat := w.toNat / 2 ^ lo % 2 ^ n

/-- A message of this pier stands in its outbox, as its sender's or as its device's. -/
def InOutbox (t : State) (pk : Nat) (g : Msg) : Prop := ∃ e ∈ (getPier t pk).outbox, e.body = .msg g

/-- A fault record of R206 to R208: class 31, kind fault, six payload words, from actor 63 of the pier at the run's logical
pier, for the destination given. -/
def IsRecord (s : State) (pk lp : Nat) (dst : BitVec 28) (g : Msg) (pay : List Word) : Prop :=
  g.cls = 31 ∧ g.kind = 0b101 ∧ g.words = 6 ∧ g.prio = 3 ∧ g.sact = 63 ∧ g.smod = BitVec.ofNat 12 (pkMod pk) ∧
  g.spier = BitVec.ofNat 10 lp ∧ g.job = jobOf s pk ∧ msgDst g = dst ∧ g.pay = pay ∧ g.poison = 0

/-- Where the records of an actor go, and whether that is its pier's own service actor (R210). -/
def faultDst (s : State) (pk lp a : Nat) : BitVec 28 × Bool :=
  let f := (getActor s pk a).fault
  if f.getLsbD 28 = true ∧ f.extractLsb' 0 28 ≠ addrWord (pkMod pk) lp a then (f.extractLsb' 0 28, false)
  else (addrWord (pkMod pk) lp 63, true)

/-- The words w0, w1 and w4 of a record (R207, R208). -/
structure RecordWords (code : BitVec 16) (unit : BitVec 5) (slot : BitVec 2) (notRes deferred frozen redirected brk : Bool)
    (bundle : BitVec 12) (runid : BitVec 32) (module actor strand lp : Nat) (w0 w1 w4 : Word) : Prop where
  code_ : fld w0 0 16 = code.toNat
  unit_ : fld w0 16 5 = unit.toNat
  slot_ : fld w0 21 2 = slot.toNat
  flags : w0.getLsbD 23 = notRes ∧ w0.getLsbD 24 = deferred ∧ w0.getLsbD 25 = frozen ∧ w0.getLsbD 26 = redirected ∧ w0.getLsbD 27 = brk
  high : fld w0 28 36 = 0
  run : w1 = (0 : BitVec 20) ++ bundle ++ runid
  place : fld w4 30 12 = module % 4096 ∧ fld w4 24 6 = actor ∧ fld w4 21 3 = strand ∧ fld w4 0 10 = lp ∧ fld w4 42 22 = 0

/-- Nothing but sending and what `f` does to strands and actors of one pier. -/
def SameWorld (s t : State) : Prop :=
  SameMemory s t ∧ t.sites = s.sites ∧ t.jobs = s.jobs ∧ t.walks = s.walks ∧ t.cycle = s.cycle ∧ t.issue = s.issue ∧
  (∀ pk n, getSluice t pk n = getSluice s pk n) ∧ (∀ pk, (getPier t pk).inbox = (getPier s pk).inbox) ∧
  (∀ pk, (getPier t pk).wins = (getPier s pk).wins)

end Sys2Proof.Claims

/-- Taking a fault freezes the run at its stop bundle with every register and port as it was, freezes its actor (a wait goes on, but for
an SWAIT that the fault of a matrix entry ends, R219; that it goes on under any other fault is DEDUCED, log entry 33), and sends the fault actor one record of the fault, or the pier's service actor with the redirected bit. -/
def Sys2Proof.Claims.FaultFreezesRunAndSendsRecord : Prop :=
  ∀ (s : State) (pk st : Nat) (f : FaultInfo) (bundle stop : BitVec 12),
    let x := getStrand s pk st
    let a := x.actor.toNat
    let d := Claims.faultDst s pk x.lp.toNat a
    let t := takeFault s pk st f bundle stop
    x.service = false → st < 8 →
    getStrand t pk st = { x with status := .frozen, stop := stop, wait := frozenWait f.deferred x.wait } ∧
    (f.deferred = false → frozenWait f.deferred x.wait = x.wait) ∧ (getActor t pk a).st = .frozen ∧ (∀ n, n ≠ st → getStrand t pk n = getStrand s pk n) ∧
    (∀ n, n ≠ a → n ≠ 63 → getActor t pk n = getActor s pk n) ∧ Claims.SameWorld s t ∧
    ∃ g w0 w1 w4 w5, Claims.InOutbox t pk g ∧ Claims.IsRecord s pk x.lp.toNat d.1 g [w0, w1, f.w2, f.w3, w4, w5] ∧
      Claims.RecordWords f.code f.unit f.slot f.notRes f.deferred true d.2 f.brk bundle x.runid (pkMod pk) a st x.lp.toNat w0 w1 w4

/-- Going on after a fault: the run is live at the given bundle with its watchdog restarted and nothing else of it changed,
and its actor is running. -/
def Sys2Proof.Claims.RunGoesOnAfterFault : Prop :=
  ∀ (s : State) (pk st : Nat) (pc : BitVec 12),
    let x := getStrand s pk st
    let t := returnFault s pk st pc
    getStrand t pk st = { x with status := .running, pc := pc, wd := 0 } ∧ (getActor t pk x.actor.toNat).st = .running ∧
    (∀ n, n ≠ st → getStrand t pk n = getStrand s pk n) ∧
    (∀ n, n ≠ x.actor.toNat → getActor t pk n = getActor s pk n) ∧ Claims.SameWorld s t

/-- A slot that reads an empty result port faults with code 0x04 and the port's selector in w3, in the name of the unit
that the slot triggers; a trigger that R80 holds besides waits first, with the fault noted. The operations of ia, ib and vx and the
moves are never held so. -/
def Sys2Proof.Claims.EmptyPortFaults : Prop :=
  ∀ (s : State) (i : Instr) (m : Mv) (d : BitVec 15) (sel : Nat),
    i.slotForm = true → i.fields = some (m, d) → guardOn s m = true → readSource s m.src = .emptyPort sel →
    let u := if d.extractLsb' 13 2 = 1 then (d.extractLsb' 8 5).toNat else 0
    let t := raise s u 0x04 (moveWord s (Value.ofWord 0)) (BitVec.ofNat 64 sel)
    (exec i s = .next t ∨ exec i s = .next (markHeld t)) ∧ (u ∈ [1, 2, 6] ∨ d.extractLsb' 13 2 ≠ 1 → exec i s = .next t)

/-- A fault noted while a bundle is offered keeps the one of the lowest slot. -/
def Sys2Proof.Claims.LowestSlotFaultStands : Prop :=
  ∀ (s : State) (unit code : Nat) (w2 w3 : Word),
    let t := raise s unit code w2 w3
    let f : FaultInfo := { code := BitVec.ofNat 16 code, slot := s.issue.slot, unit := BitVec.ofNat 5 unit, w2, w3, brk := false }
    t.issue.held = s.issue.held ∧ t.issue.pre = s.issue.pre ∧
    (s.issue.fault = none → t.issue.fault = some f) ∧
    ∀ g, s.issue.fault = some g → t.issue.fault = some (if g.slot.toNat < s.issue.slot.toNat then g else f)

namespace Sys2Proof.Claims

/-- The number in `n` bytes, lowest address least significant (R1). -/
def littleEndian (f : Nat → Byte) : Nat → Nat
  | 0 => 0
  | n + 1 => (f 0).toNat + 256 * littleEndian (fun k => f (k + 1)) n

/-- An offset of the slice status word, which belongs to the site (R130, R141). -/
def statusAt (a : Nat) : Prop := 0x3FF80 ≤ a ∧ a < 0x3FF88

/-- The byte at an offset of a pier's scratchpad. -/
def spadByte (s : State) (pk a : Nat) : Byte :=
  if 0x3FF80 ≤ a ∧ a < 0x3FF88 then (getSite s (siteKey s pk)).status.extractLsb' (8 * (a - 0x3FF80)) 8
  else mget (getPier s pk).spad a

/-- The number in `n` bytes of a pier's scratchpad. -/
def spadNum (s : State) (pk a n : Nat) : Nat := littleEndian (fun k => spadByte s pk (a + k)) n

/-- What of a value is kept at an offset: all of it, but for the reserved bits of a dirty-log entry, of a link entry and of the slice status
word (R5, R65, R141, R155). -/
def kept (a v : Nat) : Nat :=
  if 0x3FF80 ≤ a ∧ a < 0x3FF88 then v &&& (0xC000000000000FFF / 2 ^ (8 * (a % 8)))
  else if 0x3FF00 ≤ a ∧ a < 0x3FF80 then v &&& (0xFFFF01FFFFFFFC00 / 2 ^ (8 * (a % 8)))
  else if 0x3F000 ≤ a ∧ a < 0x3F800 then v &&& (0xEFFF007FFFFFFFFF / 2 ^ (8 * (a % 8)))
  else v

/-- Whether the granule of an offset is poisoned. -/
def spadBad (s : State) (pk a : Nat) : Bool := fget (getPier s pk).spadPoison (a / 64) false

/-- The alignment and the region check pass: `n` bytes at an address, inside the region of the run's actor, or inside the
scratchpad for actor 63 (R36, R132). -/
def LsAllows (s : State) (addr n : Nat) : Prop :=
  addr % n = 0 ∧
  if curActorIx s = 63 then addr + n ≤ 0x40000
  else fld (curActor s).rgnbase 6 13 * 64 ≤ addr ∧ addr + n ≤ fld (curActor s).rgnlim 6 13 * 64

/-- Only `n` bytes from an offset of the pier in hand may differ, or the status word of its site where they lie in it. -/
structure StoresOnly (s t : State) (addr n : Nat) : Prop where
  outside : ∀ pk a, ¬(addr ≤ a ∧ a < addr + n) → spadByte t pk a = spadByte s pk a
  others : ∀ pk a, pk ≠ s.issue.pk → mget (getPier t pk).spad a = mget (getPier s pk).spad a
  sites : ∀ k, ¬(statusAt addr ∧ k = siteKey s s.issue.pk) → getSite t k = getSite s k
  slices : ∀ k, { getSite t k with status := 0 } = { getSite s k with status := 0 }
  hbm : ∀ m, getMod t m = getMod s m
  code : ∀ pk a, fget (getPier t pk).code a 0 = fget (getPier s pk).code a 0
  poison : ∀ pk a, ¬(pk = s.issue.pk ∧ a / 64 = addr / 64) → spadBad t pk a = spadBad s pk a

/-- The registers and the ports of other units of the run, every other strand, every actor, sluice, message and control
register are unchanged. -/
structure RunFrame (s t : State) (u : Nat) : Prop where
  regs : SameRegs (curStrand s) (curStrand t)
  ports : ∀ i, i / 4 ≠ 0x20 + u → resPort (curStrand t) i = resPort (curStrand s) i
  strands : ∀ pk st, ¬(pk = s.issue.pk ∧ st = s.issue.strand) → getStrand t pk st = getStrand s pk st
  actors : ∀ pk, (getPier t pk).actors = (getPier s pk).actors
  sluices : ∀ pk, (getPier t pk).sluices = (getPier s pk).sluices
  messages : ∀ pk, (getPier t pk).inbox = (getPier s pk).inbox ∧ (getPier t pk).outbox = (getPier s pk).outbox
  control : ∀ pk, (getPier t pk).wins = (getPier s pk).wins ∧ (getPier t pk).handlers = (getPier s pk).handlers ∧
    (getPier t pk).xlroot = (getPier s pk).xlroot ∧ (getPier t pk).divBusy = (getPier s pk).divBusy
  issue : t.issue = s.issue

/-- The new value of an atomic operation on words of `n` bits (R281); FADD is the sum of R124. -/
def atomic (op : AtOp) {n : Nat} (o v : BitVec n) : BitVec n :=
  match op with
  | .add => o + v
  | .and => o &&& v
  | .or => o ||| v
  | .xor => o ^^^ v
  | .min => if v.toInt < o.toInt then v else o
  | .max => if o.toInt < v.toInt then v else o
  | .minU => if v.toNat < o.toNat then v else o
  | .maxU => if o.toNat < v.toNat then v else o
  | .xchg => v
  | .fadd => BitVec.ofNat n (addF32 o.toNat v.toNat)

/-- A local atomic's results wait in ls.r, and in ls.h where there are two, and land 3 to 7 cycles on (R79). -/
def AtomicPending (s t : State) (r : Value) (h : Option Value) : Prop :=
  (∃ p ∈ (curStrand t).pend, p.tok = s.tok ∧ p.unit = 4 ∧ p.r = some r ∧ p.h = h ∧ p.create = none) ∧
  resPort (curStrand t) 0x090 = .pending s.tok ∧
  resPort (curStrand t) 0x091 = (if h.isSome then .pending s.tok else .empty) ∧
  ∃ due, s.cycle + 3 ≤ due ∧ due ≤ s.cycle + 7 ∧
    (due, Instr.resultPortWrite s.issue.pk s.issue.strand 4 s.tok) ∈ t.cal

/-- The accesses of ls: the bytes of each, and whether its address is a + T or a (R131, R281, R286, R310, R359, R375). -/
def lsForms (m : Mv) (f : BitVec 3) (z : BitVec 2) (op : AtOp) (w : Bool) : List (Instr × Nat × Bool) :=
  [ (.ldl m f, 2 ^ (f.toNat % 4), true), (.stl m z, 2 ^ z.toNat, false), (.vldl m, 64, true), (.vstl m, 64, false)
  , (.atl m op w, if w then 4 else 8, false), (.casl m w, if w then 4 else 8, false) ]

end Sys2Proof.Claims

/-- Local loads: the bytes at a + T, sign or zero extended, or all 64 with a full mask, land in ls.r three cycles on,
poisoned when their granule is; nothing else changes. -/
def Sys2Proof.Claims.LocalLoads : Prop :=
  ∀ (s : State) (m : Mv) (t a : Value), Claims.Fires s m t → Claims.Port s .lsA a → t.poison = false → a.poison = false →
    acqPending s = false →
    let addr := (vsc a + vsc t).toNat
    (∀ f : BitVec 3, Claims.LsAllows s addr (2 ^ (f.toNat % 4)) →
      let v := BitVec.ofNat (8 * 2 ^ (f.toNat % 4)) (Claims.spadNum s s.issue.pk addr (2 ^ (f.toNat % 4)))
      exec (.ldl m f) s = .next (Claims.later s 4 3
        (Claims.scalar (if f.toNat < 4 then v.signExtend 64 else v.setWidth 64) (Claims.spadBad s s.issue.pk addr)) none)) ∧
    (Claims.LsAllows s addr 64 →
      exec (.vldl m) s = .next (Claims.later s 4 3
        ⟨.vec (BitVec.ofNat 512 (Claims.spadNum s s.issue.pk addr 64)) 0xFFFF, Claims.spadBad s s.issue.pk addr⟩ none))

/-- Local stores: the low bytes of T at the address in ls.a, or for a vector each lane that is valid; every other byte reads
as before, and the reserved bits of the slice status word, of the link table and of the dirty log are not written; a poisoned value poisons the granule, a clean one of all 64 bytes clears it. -/
def Sys2Proof.Claims.LocalStores : Prop :=
  ∀ (s : State) (m : Mv) (t a : Value), Claims.Fires s m t → Claims.Port s .lsA a → a.poison = false → acqPending s = false →
    let addr := (vsc a).toNat
    let pk := s.issue.pk
    (∀ z : BitVec 2, Claims.LsAllows s addr (2 ^ z.toNat) →
      ∃ s', exec (.stl m z) s = .next s' ∧
        Claims.spadNum s' pk addr (2 ^ z.toNat) = Claims.kept addr ((vsc t).toNat % 2 ^ (8 * 2 ^ z.toNat)) ∧
        Claims.StoresOnly s s' addr (2 ^ z.toNat) ∧ Claims.RunFrame s s' 4 ∧
        Claims.spadBad s' pk addr = (Claims.spadBad s pk addr || t.poison)) ∧
    (Claims.LsAllows s addr 64 →
      ∃ s', exec (.vstl m) s = .next s' ∧
        (vmaskOf t ≠ 0 → ∀ i < 16, Claims.spadNum s' pk (addr + 4 * i) 4 = Claims.kept (addr + 4 * i)
          (if (vmaskOf t).getLsbD i then ((vlanes t).extractLsb' (32 * i) 32).toNat else Claims.spadNum s pk (addr + 4 * i) 4)) ∧
        (vmaskOf t = 0 → s' = adjCur s fun x => clearUnit x 4) ∧
        (∀ k a, ¬(addr ≤ a ∧ a < addr + 64) → Claims.spadByte s' k a = Claims.spadByte s k a) ∧
        (∀ k a, k ≠ pk → mget (getPier s' k).spad a = mget (getPier s k).spad a) ∧ Claims.RunFrame s s' 4 ∧
        (vmaskOf t ≠ 0 → Claims.spadBad s' pk addr =
          (t.poison || (Claims.spadBad s pk addr && vmaskOf t != 0xFFFF))))

/-- Local atomics and compare and swap: old value to ls.r, new value to the bytes, success to ls.h, one access; the granule
is poisoned by a poisoned operand and otherwise keeps its mark. -/
def Sys2Proof.Claims.LocalAtomics : Prop :=
  ∀ (s : State) (m : Mv) (t a : Value), Claims.Fires s m t → Claims.Port s .lsA a → a.poison = false → acqPending s = false →
    let addr := (vsc a).toNat
    let pk := s.issue.pk
    ∀ (w : Bool), let n := if w then 4 else 8
    Claims.LsAllows s addr n →
    let old := BitVec.ofNat (8 * n) (Claims.spadNum s pk addr n)
    let bad := Claims.spadBad s pk addr
    (∀ op : AtOp, op.wf w = true →
      ∃ s', exec (.atl m op w) s = .next s' ∧
        Claims.spadNum s' pk addr n = Claims.kept addr (Claims.atomic op old ((vsc t).setWidth (8 * n))).toNat ∧
        Claims.StoresOnly s s' addr n ∧ Claims.RunFrame s s' 4 ∧
        Claims.AtomicPending s s' (Claims.scalar (old.setWidth 64) bad) none ∧
        Claims.spadBad s' pk addr = (bad || t.poison)) ∧
    (∀ b, Claims.Port s .lsB b →
      let hit := old == (vsc b).setWidth (8 * n)
      ∃ s', exec (.casl m w) s = .next s' ∧
        Claims.spadNum s' pk addr n = Claims.kept addr (if hit then (vsc t).setWidth (8 * n) else old).toNat ∧
        Claims.StoresOnly s s' addr n ∧ Claims.RunFrame s s' 4 ∧
        Claims.AtomicPending s s' (Claims.scalar (old.setWidth 64) bad)
          (some (Claims.scalar (if hit then 1 else 0) (bad || b.poison))) ∧
        Claims.spadBad s' pk addr = (bad || t.poison || b.poison))

/-- Every access of ls faults with 0x07 on an address that is no multiple of its size and else with 0x06 outside the region
of its actor, with the address in w3, and with 0x0C on a poisoned address; behind an acquire that is not performed it holds
its bundle instead of taking effect. -/
def Sys2Proof.Claims.LocalAccessFaults : Prop :=
  ∀ (s : State) (m : Mv) (t a b : Value) (f : BitVec 3) (z : BitVec 2) (op : AtOp) (w : Bool) (i : Instr) (n : Nat) (ld : Bool),
    Claims.Fires s m t → Claims.Port s .lsA a → Claims.Port s .lsB b → (i, n, ld) ∈ Claims.lsForms m f z op w →
    let addr := if ld then vsc a + vsc t else vsc a
    (acqPending s = false → (a.poison = true ∨ (ld = true ∧ t.poison = true)) →
      exec i s = .next (raise s 4 0x0C (moveWord s t) 0)) ∧
    (acqPending s = false → a.poison = false → (ld = true → t.poison = false) →
      (addr.toNat % n ≠ 0 → exec i s = .next (raise s 4 0x07 (moveWord s t) addr)) ∧
      (addr.toNat % n = 0 → ¬Claims.LsAllows s addr.toNat n → exec i s = .next (raise s 4 0x06 (moveWord s t) addr))) ∧
    (acqPending s = true → Claims.LsAllows s addr.toNat n → a.poison = false → (ld = true → t.poison = false) →
      exec i s = .next (markHeld s))

namespace Sys2Proof.Claims

/-- The accesses of gm and the opcode of each (R95). -/
def gmForms (m : Mv) (f : BitVec 3) (z : BitVec 2) (op : AtOp) (w : Bool) (o : Ord4) : List (Instr × Nat) :=
  [ (.ldg m f, f.toNat), (.ldgAcq m f, 0x40 + f.toNat), (.stg m z, 8 + z.toNat), (.stgRel m z, 0x88 + z.toNat)
  , (.vldg m, 0x10), (.vldgAcq m, 0x50), (.vstg m, 0x11), (.vstgRel m, 0x91)
  , (.atg m op w o, 0x40 * o.code + (if w then 0x30 else 0x20) + op.code)
  , (.casg m w o, 0x40 * o.code + (if w then 0x3A else 0x2A)) ]

/-- The bytes of a gm access (R95). -/
def gmSize (op : Nat) : Nat :=
  let l := op % 64
  if l = 0x10 ∨ l = 0x11 then 64 else if l < 12 then 2 ^ (l % 4) else if l < 0x30 then 8 else 4

/-- A load: its address is a + T; the others have theirs in port a (R310, R359). -/
def gmLoads (op : Nat) : Bool := op % 64 < 8 || op % 64 == 0x10
/-- A store. -/
def gmStores (op : Nat) : Bool := (8 ≤ op % 64 && op % 64 < 12) || op % 64 == 0x11
/-- A compare and swap. -/
def gmSwaps (op : Nat) : Bool := op % 64 == 0x2A || op % 64 == 0x3A

/-- An aperture address that names a scratchpad offset, or a slice offset that is read (R136). -/
def ApertureFits (op : Nat) (va : Word) : Prop :=
  (fld va 30 3 = 0 ∧ fld va 0 30 < 0x40000) ∨ (fld va 30 3 = 2 ∧ gmLoads op = true ∧ fld va 0 30 < 0x100000)

/-- What must not hold a gm request (R80, R81, R152, R166, R167): room in the in-flight record, no acquire that is not
performed, no awaiting request to the same 64 KiB; for an ordered one no awaiting request, for a release none at all; for one through an
aperture none of the run to bytes of its own (DESIGN CHOICE, log entry 81). -/
structure GmReady (s : State) (op : Nat) (va : Word) (n : Nat) : Prop where
  room : freeEntry (curStrand s) = some n
  acquires : ∀ e ∈ gmEntries s, e.req.op.toNat / 64 % 2 = 0
  page : ∀ e ∈ gmEntries s, e.issued = false → e.req.va.toNat / 2 ^ 16 ≠ va.toNat / 2 ^ 16
  ordered : op / 64 ≠ 0 → ∀ e ∈ gmEntries s, e.issued = true
  release : 2 ≤ op / 64 → gmEntries s = []
  aperture : va.getLsbD 55 = true → ∀ e ∈ gmEntries s, e.req.va.getLsbD 55 = true →
    e.req.va.toNat + gmBytes e.req.op ≤ va.toNat ∨ va.toNat + gmSize op ≤ e.req.va.toNat

/-- The request is on its way: to its aperture, or towards a translation (R150, R151, R247). -/
def GmUnderWay (s t : State) (n : Nat) (r : GmReq) : Prop :=
  if bitAt r.va 55 then
    (∃ due, s.cycle < due ∧ (due, Instr.apertureAccess r) ∈ t.cal) ∨
    (∃ due a, (due, Instr.gmReply a) ∈ t.cal ∧ a.req = r ∧ a.status = 7)
  else
    (∃ o, Work.ev (.gmTranslationDone s.issue.pk s.issue.strand n s.tok o) ∈ t.agenda) ∨
    (∃ due o, (due, Instr.gmTranslationDone s.issue.pk s.issue.strand n s.tok o) ∈ t.cal) ∨
    ∃ due w k, (due, Instr.pageWalk w) ∈ t.cal ∧ fget t.walks w none = some k ∧
      k.who = .gm s.issue.pk s.issue.strand n s.tok ∧ k.va = r.va ∧ k.level = 3

/-- Byte `k` of a row. -/
def rowByte (r : Row) (k : Nat) : Byte := r.extractLsb' (8 * k) 8

/-- What an access does to the bytes at its home and what it answers (R281, R282, R287, R310, R359, R375): the new bytes
where it writes, whether they carry poison, the first and the second result. -/
structure Home where
  new : Option Nat
  bad : Bool
  r : Value
  h : Value

/-- The access of an opcode with value and expected value on bytes that hold `old`, in a granule with the given mark. -/
def home (op : Nat) (t b : Value) (old : Nat) (bad : Bool) : Home :=
  let l := op % 64
  let none_ : Value := Value.ofWord 0
  if l < 8 then
    let v := BitVec.ofNat (8 * 2 ^ (l % 4)) old
    ⟨none, bad, scalar (if l < 4 then v.signExtend 64 else v.setWidth 64) bad, none_⟩
  else if l < 12 then ⟨some ((vsc t).toNat % 2 ^ (8 * 2 ^ (l % 4))), t.poison, none_, none_⟩
  else if l = 0x10 then ⟨none, bad, ⟨.vec (BitVec.ofNat 512 old) 0xFFFF, bad⟩, none_⟩
  else if l = 0x11 then
    ⟨if vmaskOf t = 0 then none
     else some (littleEndian (fun k => if (vmaskOf t).getLsbD (k / 4) then rowByte (vlanes t) k else rowByte (BitVec.ofNat 512 old) k) 64),
     t.poison, none_, none_⟩
  else
    let n := if l < 0x30 then 64 else 32
    let o := BitVec.ofNat n old
    if l % 16 = 10 then
      let hit := o == (vsc b).setWidth n
      ⟨some (if hit then (vsc t).setWidth n else o).toNat, bad || t.poison || b.poison, scalar (o.setWidth 64) bad,
       scalar (if hit then 1 else 0) (bad || b.poison)⟩
    else
      ⟨some (atomic ((atOpOf (l % 16)).getD .add) o ((vsc t).setWidth n)).toNat, bad || t.poison, scalar (o.setWidth 64) bad, none_⟩

/-- The number in `n` bytes of HBM from a DRAM byte. -/
def hbmNum (s : State) (m d n : Nat) : Nat := littleEndian (fun k => mget (getMod s m).hbm (d + k)) n

/-- Only `n` bytes of HBM of a module from a DRAM byte may differ. -/
structure HbmStoresOnly (s t : State) (m d n : Nat) : Prop where
  hbm : ∀ k a, ¬(k = m ∧ d ≤ a ∧ a < d + n) → mget (getMod t k).hbm a = mget (getMod s k).hbm a
  slice : ∀ k, getSite t k = getSite s k
  piers : ∀ pk, getPier t pk = getPier s pk

/-- The answer of an access is on its way to its requester. -/
def Answers (s t : State) (a : GmAns) : Prop := ∃ due, s.cycle < due ∧ (due, Instr.gmReply a) ∈ t.cal

/-- The entry word that a walk reads (R146, R149). -/
def walkWord (s : State) (k : Walk) : Word :=
  let i := if k.level = 3 then fld k.va 46 9 else fld k.va (16 + 10 * k.level) 10
  BitVec.ofNat 64 (hbmNum s k.mod (dramLoc k.dom.toNat (k.node + 8 * i)) 8)

/-- The place of that entry. -/
def walkAt (k : Walk) : Nat := k.node + 8 * (if k.level = 3 then fld k.va 46 9 else fld k.va (16 + 10 * k.level) 10)

/-- A walk for a gm request can read its next entry: no invalidation at its agent, its node in reach and clean. -/
structure WalkReads (s : State) (w : Nat) (k : Walk) (pk st entry tok : Nat) : Prop where
  here : fget s.walks w none = some k
  who : k.who = .gm pk st entry tok
  free : (getAgent s (pkMod pk) (siteOf s pk / 256)).cur = none
  reach : reachable s (pkMod pk) k.mod = true
  inside : walkAt k < 2 ^ 39 ∧ k.dom.toNat ≠ 3
  clean : fget (getMod s k.mod).hbmPoison (dramLoc k.dom.toNat (walkAt k) / 64) false = false

/-- A leaf's frame is aligned to its page (R148). -/
def LeafAligned (e : Word) (level : Nat) : Prop := level = 0 ∨ (level = 1 ∧ fld e 12 24 % 2 ^ 10 = 0) ∨ (level = 2 ∧ fld e 12 24 % 2 ^ 20 = 0)

end Sys2Proof.Claims

/-- A gm access whose address passes its checks takes the lowest free in-flight entry with its captured values, makes its
result ports wait (a store's stay empty), starts on its way, and changes no register and no memory. -/
def Sys2Proof.Claims.GlobalAccessStarts : Prop :=
  ∀ (s : State) (m : Mv) (t a b : Value) (f : BitVec 3) (z : BitVec 2) (aop : AtOp) (w : Bool) (o : Ord4) (i : Instr) (op n : Nat),
    Claims.Fires s m t → Claims.Port s .gmA a → Claims.Port s .gmB b → (i, op) ∈ Claims.gmForms m f z aop w o →
    let va := if Claims.gmLoads op then vsc a + vsc t else vsc a
    a.poison = false → (Claims.gmLoads op = true → t.poison = false) →
    va.toNat < 2 ^ 56 → va.toNat % Claims.gmSize op = 0 → (va.getLsbD 55 = true → Claims.ApertureFits op va) →
    Claims.GmReady s op va n →
    ∃ s' e, exec i s = .next s' ∧ fget (curStrand s').inf n none = some e ∧ e.kind = .gm ∧ e.tok = s.tok ∧
      e.req.op = BitVec.ofNat 8 op ∧ e.req.va = va ∧ e.req.val = t ∧ (Claims.gmSwaps op = true → e.req.exp = b) ∧
      e.req.pk = s.issue.pk ∧ e.req.strand = s.issue.strand ∧ e.req.entry = n ∧ e.bundle = s.issue.addr ∧
      e.issued = va.getLsbD 55 ∧
      resPort (curStrand s') 0x094 = (if Claims.gmStores op then .empty else .pending s.tok) ∧
      resPort (curStrand s') 0x095 = (if Claims.gmSwaps op then .pending s.tok else .empty) ∧
      Claims.GmUnderWay s s' n e.req ∧ Claims.SameMemory s s' ∧ Claims.RunFrame s s' 5

/-- A gm access faults, when its bundle issues, with 0x09 on an address of 2^56 or more, then 0x07 on one that is no multiple
of its size, then 0x08 on an aperture offset that does not exist, with the address in w3, and before these with 0x0C on a
poisoned address. -/
def Sys2Proof.Claims.GlobalAccessFaults : Prop :=
  ∀ (s : State) (m : Mv) (t a b : Value) (f : BitVec 3) (z : BitVec 2) (aop : AtOp) (w : Bool) (o : Ord4) (i : Instr) (op n : Nat),
    Claims.Fires s m t → Claims.Port s .gmA a → Claims.Port s .gmB b → (i, op) ∈ Claims.gmForms m f z aop w o →
    let va := if Claims.gmLoads op then vsc a + vsc t else vsc a
    Claims.GmReady s op va n →
    let bad := a.poison = true ∨ (Claims.gmLoads op = true ∧ t.poison = true)
    (bad → exec i s = .next (raise s 5 0x0C (moveWord s t) 0)) ∧
    (¬bad → 2 ^ 56 ≤ va.toNat → exec i s = .next (raise s 5 0x09 (moveWord s t) va)) ∧
    (¬bad → va.toNat < 2 ^ 56 → va.toNat % Claims.gmSize op ≠ 0 → exec i s = .next (raise s 5 0x07 (moveWord s t) va)) ∧
    (¬bad → va.toNat < 2 ^ 56 → va.toNat % Claims.gmSize op = 0 → va.getLsbD 55 = true → ¬Claims.ApertureFits op va →
      exec i s = .next (raise s 5 0x08 (moveWord s t) va))

/-- One step of a page walk for a gm request, by the entry it reads: a moving entry is read again 4,096 cycles later, up to 16
times, unless it names a module out of reach, which ends the walk as a failure at once; one that is not valid ends the walk as not present; a table entry leads to the next level; a leaf that grants the access
gets its accessed bit and ends the walk with a translation in the pier's cache; one that does not ends it as a permission
failure, and one whose page lies on a module out of reach or beyond HBM as a failure that leaves no translation and no bit. -/
def Sys2Proof.Claims.PageWalkStep : Prop :=
  ∀ (s : State) (w : Nat) (k : Walk) (pk st entry tok : Nat), Claims.WalkReads s w k pk st entry tok → k.level ≤ 3 →
    let e := Claims.walkWord s k
    let leaf := k.level = 0 ∨ (e.getLsbD 53 = true ∧ k.level ≠ 3)
    let ends (o : WalkOut) (s' : State) : Prop :=
      fget s'.walks w none = none ∧ Work.ev (.gmTranslationDone pk st entry tok o) ∈ s'.agenda
    ∃ s', exec (.pageWalk w) s = .next s' ∧
      (e.getLsbD 63 = true → e.getLsbD 54 = true → reachable s (pkMod pk) (Claims.fld e 36 12) = false → ends .fail s' ∧ Claims.SameMemory s s') ∧
      (e.getLsbD 54 = true → ¬(e.getLsbD 63 = true ∧ reachable s (pkMod pk) (Claims.fld e 36 12) = false) → k.retries < 16 →
        fget s'.walks w none = some { k with retries := k.retries + 1 } ∧ (s.cycle + 4096, Instr.walkMovingRetry w) ∈ s'.cal ∧
          Claims.SameMemory s s') ∧
      (e.getLsbD 54 = true → 16 ≤ k.retries → ends .fail s') ∧
      (e.getLsbD 54 = false → e.getLsbD 63 = false → ends .notPresent s' ∧ Claims.SameMemory s s') ∧
      (e.getLsbD 54 = false → e.getLsbD 63 = true → Claims.fld e 55 2 ≠ 3 → Claims.fld e 48 5 = 0 →
        (¬leaf → (k.level = 3 → e.getLsbD 53 = false) →
          (∃ k', fget s'.walks w none = some k' ∧ k'.who = k.who ∧ k'.va = k.va ∧ k'.need = k.need ∧ k'.level = k.level - 1 ∧
            k'.mod = Claims.fld e 36 12 ∧ k'.dom.toNat = Claims.fld e 55 2 ∧ k'.node = Claims.fld e 9 27 * 2 ^ 13) ∧
          (∃ due, s.cycle < due ∧ (due, Instr.pageWalk w) ∈ s'.cal) ∧ Claims.SameMemory s s') ∧
        (leaf → Claims.LeafAligned e k.level →
          (reachable s (pkMod pk) (Claims.fld e 36 12) = false → ends .fail s' ∧ Claims.SameMemory s s') ∧
          (reachable s (pkMod pk) (Claims.fld e 36 12) = true → e.extractLsb' 60 3 &&& k.need ≠ k.need →
            ends .permission s' ∧ Claims.SameMemory s s') ∧
          (reachable s (pkMod pk) (Claims.fld e 36 12) = true → e.extractLsb' 60 3 &&& k.need = k.need →
            2 ^ 39 ≤ physOf e k.level k.va → ends .fail s' ∧ Claims.SameMemory s s' ∧ s'.sites = s.sites) ∧
          (reachable s (pkMod pk) (Claims.fld e 36 12) = true → e.extractLsb' 60 3 &&& k.need = k.need →
            physOf e k.level k.va < 2 ^ 39 →
            let d := dramLoc k.dom.toNat (Claims.walkAt k)
            ends (.ok (e ||| BitVec.twoPow 64 58) k.level) s' ∧
            Claims.hbmNum s' k.mod d 8 = (e ||| BitVec.twoPow 64 58).toNat ∧
            (∀ m a, ¬(m = k.mod ∧ d ≤ a ∧ a < d + 8) → mget (getMod s' m).hbm a = mget (getMod s m).hbm a) ∧
            ∃ c ∈ (getSite s' (siteKey s pk)).tcache, c.job = k.job ∧ c.base ≤ k.va.toNat ∧ k.va.toNat < c.base + c.size ∧
              c.leaf = e ||| BitVec.twoPow 64 58)))

/-- The retry of a walk reads its entry again at once. -/
def Sys2Proof.Claims.MovingEntryIsReadAgain : Prop :=
  ∀ (s : State) (w : Nat),
    ∃ s', exec (.walkMovingRetry w) s = .next s' ∧ s'.agenda = s.agenda ++ [.ev (.pageWalk w)] ∧ s'.cal = s.cal ∧
      s'.walks = s.walks ∧ Claims.SameMemory s s'

/-- A translation that comes to a waiting gm request: under a cached page that grants it the request is marked issued, with
the module, domain and local address of the page, and leaves for its home; without the permission the run is frozen at the
boundary with code 0x0A, after a walk that failed with 0x09, 0x0B or 0x0C, and the request stays awaiting. -/
def Sys2Proof.Claims.TranslationIssuesRequest : Prop :=
  ∀ (s : State) (pk st n tok : Nat) (e : Inflight), fget (getStrand s pk st).inf n none = some e → e.tok = tok → e.issued = false →
    (getStrand s pk st).status = .running → residentOpen s pk = true →
    let fails (code : BitVec 16) (s' : State) : Prop :=
      (getStrand s' pk st).status = .frozen ∧ (getStrand s' pk st).stop = (getStrand s pk st).pc ∧
      (∃ e', fget (getStrand s' pk st).inf n none = some e' ∧ e'.issued = false ∧ e'.req = e.req) ∧
      ∃ e' ∈ (getPier s' pk).outbox, ∃ g, e'.body = .msg g ∧ g.kind = 0b101 ∧ (g.pay.headD 0).extractLsb' 0 16 = code ∧
        g.pay[3]? = some e.req.va
    (∀ (leaf : Word) (lv : Nat) (c : TEntry),
      cacheFind (getSite s (siteKey s pk)).tcache (jobOf s pk) e.req.va = some c →
      ∃ s', exec (.gmTranslationDone pk st n tok (.ok leaf lv)) s = .next s' ∧
        (grants c.leaf (gmNeed e.req.op) = false → (getStrand s pk st).service = false → fails 0x0A s') ∧
        (grants c.leaf (gmNeed e.req.op) = true → physOf leaf lv e.req.va < 2 ^ 39 →
          reachable s (pkMod pk) (Claims.fld c.leaf 36 12) = true → (gmIsLoad e.req.op = true ∨ c.dirty = true) →
          ∃ r, r = { e.req with mod := Claims.fld c.leaf 36 12, loc := physOf c.leaf (sizeLevel c.size) e.req.va, dom := c.leaf.extractLsb' 55 2 } ∧
            (∃ e', fget (getStrand s' pk st).inf n none = some e' ∧ e'.issued = true ∧ e'.req = r ∧ e'.tok = tok) ∧
            (∃ due, s.cycle ≤ due ∧ ((due, Instr.hbmAccess r) ∈ s'.cal ∨ (due, Instr.ingressAtomic r) ∈ s'.cal)) ∧
            Claims.SameMemory s s')) ∧
    ((getStrand s pk st).service = false → ∀ (o : WalkOut) (code : BitVec 16),
      (o, code) ∈ [(WalkOut.notPresent, (0x09 : BitVec 16)), (.permission, 0x0A), (.fail, 0x0B), (.poison, 0x0C)] →
      ∃ s', exec (.gmTranslationDone pk st n tok o) s = .next s' ∧ fails code s' ∧ Claims.SameMemory s s')

/-- An access at its home in HBM, by its abutment or for an atomic of another module by the ingress atomic cache: the old bytes
decide the answer, the new ones stand in HBM, every other byte reads as before; a leased line is recalled before an abutment
serves it. While an earlier access of the same run to some of its bytes is under way, it waits a cycle and changes nothing. -/
def Sys2Proof.Claims.HbmAccessAtHome : Prop :=
  ∀ (s : State) (r : GmReq),
    let d := dramLoc r.dom.toNat r.loc
    let n := Claims.gmSize r.op.toNat
    let x := Claims.home r.op.toNat r.val r.exp (Claims.hbmNum s r.mod d n) (fget (getMod s r.mod).hbmPoison (d / 64) false)
    let done (s' : State) : Prop :=
      (∀ v, x.new = some v → Claims.hbmNum s' r.mod d n = v) ∧ Claims.HbmStoresOnly s s' r.mod d n ∧
      (x.new = none → ∀ a, mget (getMod s' r.mod).hbm a = mget (getMod s r.mod).hbm a) ∧
      (x.new.isSome = true → x.bad = true → fget (getMod s' r.mod).hbmPoison (d / 64) false = true) ∧
      Claims.Answers s s' { req := r, status := 0, lost := false, r := x.r, h := x.h }
    r.op.toNat % 64 < 12 ∨ r.op.toNat % 64 = 0x10 ∨ r.op.toNat % 64 = 0x11 ∨ (0x20 ≤ r.op.toNat % 64 ∧ r.op.toNat % 16 ≤ 10) →
    (gmBefore s r = true →
      exec (.hbmAccess r) s = .next { s with cal := s.cal ++ [(s.cycle + 1, Instr.hbmAccess r)] } ∧
      exec (.ingressAtomic r) s = .next { s with cal := s.cal ++ [(s.cycle + 1, Instr.ingressAtomic r)] }) ∧
    (gmBefore s r = false → (∀ l ∈ (getMod s r.mod).leases, l.1 ≠ d / 64) →
      ∃ s', exec (.hbmAccess r) s = .next s' ∧ done s') ∧
    (gmBefore s r = false → (∃ l ∈ (getMod s r.mod).leases, l.1 = d / 64) →
      ∃ s', exec (.hbmAccess r) s = .next s' ∧ Claims.SameMemory s s' ∧
      s'.agenda = s.agenda ++ [.ev (.leaseRecall r.mod (d / 64)), .ev (.hbmAccess r)]) ∧
    (gmBefore s r = false → 0x20 ≤ r.op.toNat % 64 → ∃ s', exec (.ingressAtomic r) s = .next s' ∧ done s' ∧
      (∃ l ∈ (getMod s' r.mod).leases, l.1 = d / 64) ∧
      ((∀ l ∈ (getMod s r.mod).leases, l.1 ≠ d / 64) → (s.cycle + 4096, Instr.leaseExpiry r.mod (d / 64) s.tok) ∈ s'.cal))

/-- A lease ends when its time is up, if it is still the one that was granted, and at once when its line is recalled; no
other lease and no byte changes. -/
def Sys2Proof.Claims.LeasesEnd : Prop :=
  ∀ (s : State) (m line tok : Nat),
    (∃ s', exec (.leaseExpiry m line tok) s = .next s' ∧ Claims.SameMemory s s' ∧
      ∀ l, l ∈ (getMod s' m).leases ↔ l ∈ (getMod s m).leases ∧ l ≠ (line, tok)) ∧
    ∃ s', exec (.leaseRecall m line) s = .next s' ∧ Claims.SameMemory s s' ∧
      ∀ l, l ∈ (getMod s' m).leases ↔ l ∈ (getMod s m).leases ∧ l.1 ≠ line

/-- An aperture access at its target pier: an absent or hung pier refuses it, one whose partition does not lie on its site
refuses it as not resident, one without a window that accepts it refuses it; otherwise the scratchpad access is performed and
answered. A refused access writes nothing; one that comes to a fenced pier tries again 512 cycles later (that interval is the model's choice:
DESIGN CHOICE, log entry 22), and one behind an earlier access of its run to some of its bytes in the next cycle. -/
def Sys2Proof.Claims.ApertureAccessAtTarget : Prop :=
  ∀ (s : State) (r : GmReq),
    let m := Claims.fld r.va 43 12
    let lp := Claims.fld r.va 33 10
    let o := Claims.fld r.va 0 30
    let n := Claims.gmSize r.op.toNat
    r.op.toNat % 64 < 12 ∨ r.op.toNat % 64 = 0x10 ∨ r.op.toNat % 64 = 0x11 ∨ (0x20 ≤ r.op.toNat % 64 ∧ r.op.toNat % 16 ≤ 10) →
    let refused (status : BitVec 3) : Prop :=
      ∃ s', exec (.apertureAccess r) s = .next s' ∧ Claims.SameMemory s s' ∧
        Claims.Answers s s' { req := r, status, lost := false, r := Value.ofWord 0, h := Value.ofWord 0 }
    let again (k : Nat) : Prop := exec (.apertureAccess r) s = .next { s with cal := s.cal ++ [(s.cycle + k, Instr.apertureAccess r)] }
    (gmBefore s r = true → again 1) ∧
    (gmBefore s r = false → pkOfAddr s m lp r.job = none → refused 3) ∧
    ∀ pk, gmBefore s r = false → pkOfAddr s m lp r.job = some pk →
      ((getPier s pk).lost = true → refused 3) ∧
      ((getPier s pk).lost = false → (getPier s pk).fenced = true → again 512) ∧
      ((getPier s pk).lost = false → (getPier s pk).fenced = false →
        (residentOpen s pk = false → refused 4) ∧
        (residentOpen s pk = true →
          ((∀ w ∈ winsOf s pk lp, winAccepts w r m lp n = false) → refused 3) ∧
          ((∃ w ∈ winsOf s pk lp, winAccepts w r m lp n = true) → Claims.fld r.va 30 3 = 0 → o % n = 0 →
            let x := Claims.home r.op.toNat r.val r.exp (Claims.spadNum s pk o n) (Claims.spadBad s pk o)
            ∃ s', exec (.apertureAccess r) s = .next s' ∧
              (∀ v, x.new = some v → ∀ i < n, (Claims.spadByte s' pk (o + i)).toNat = Claims.kept (o + i) (v / 2 ^ (8 * i) % 256)) ∧
              (x.new = none → Claims.SameMemory s s' ∧ s'.sites = s.sites) ∧
              (∀ k a, ¬(k = pk ∧ o ≤ a ∧ a < o + n) → mget (getPier s' k).spad a = mget (getPier s k).spad a) ∧
              (¬Claims.statusAt o → s'.sites = s.sites) ∧ (∀ k, { getSite s' k with status := 0 } = { getSite s k with status := 0 }) ∧
              s'.mods = s.mods ∧
              Claims.Answers s s' { req := r, status := 0, lost := false, r := x.r, h := x.h })))

/-- The answer to a gm request of a live run: a good one writes the results to the ports that still wait for it and frees its
entry; a refusal freezes the run at the boundary, with code 0x0B for an absent module and else 0x08, and the request stays
awaiting. -/
def Sys2Proof.Claims.GlobalAnswerLands : Prop :=
  ∀ (s : State) (a : GmAns) (e : Inflight),
    let pk := a.req.pk
    let st := a.req.strand
    fget (getStrand s pk st).inf a.req.entry none = some e → e.tok = a.req.tok → a.lost = false →
    (a.status = 0 →
      ∃ s', exec (.gmReply a) s = .next s' ∧ fget (getStrand s' pk st).inf a.req.entry none = none ∧
        (Claims.gmStores e.req.op.toNat = false → resPort (getStrand s pk st) 0x094 = .pending e.tok →
          resPort (getStrand s' pk st) 0x094 = .full a.r) ∧
        (Claims.gmSwaps e.req.op.toNat = true → resPort (getStrand s pk st) 0x095 = .pending e.tok →
          resPort (getStrand s' pk st) 0x095 = .full a.h) ∧
        (∀ i, resPort (getStrand s pk st) i ≠ .pending e.tok → resPort (getStrand s' pk st) i = resPort (getStrand s pk st) i) ∧
        Claims.SameRegs (getStrand s pk st) (getStrand s' pk st) ∧ Claims.SameMemory s s') ∧
    (a.status ≠ 0 → (getStrand s pk st).status = .running → (getStrand s pk st).service = false →
      ∃ s', exec (.gmReply a) s = .next s' ∧ (getStrand s' pk st).status = .frozen ∧
        (getStrand s' pk st).stop = (getStrand s pk st).pc ∧
        (∃ e', fget (getStrand s' pk st).inf a.req.entry none = some e' ∧ e'.issued = false ∧ e'.req = e.req) ∧
        (∃ e' ∈ (getPier s' pk).outbox, ∃ g, e'.body = .msg g ∧ g.kind = 0b101 ∧
          (g.pay.headD 0).extractLsb' 0 16 = (if a.status = 7 then 0x0B else 0x08) ∧
          (g.pay.headD 0).getLsbD 23 = (a.status == 4)) ∧ Claims.SameMemory s s')

namespace Sys2Proof.Claims

/-- The pages a request removes (R157): of kind 00 those of its job that overlap the page it names, of kind 01 those of its
job, else all. -/
def invalidates (r : TlbiReq) (e : TEntry) : Prop :=
  let job : BitVec 12 := r.t.extractLsb' 16 12
  let size := match fld r.t 2 2 with | 0 => 2 ^ 16 | 1 => 2 ^ 21 | 2 => 2 ^ 26 | _ => 2 ^ 36
  let base := r.a.toNat / size * size
  match fld r.t 0 2 with
  | 0 => e.job = job ∧ e.base < base + size ∧ base < e.base + e.size
  | 1 => e.job = job
  | _ => True

/-- An event frame of a code for a job stands among the frames to the host (R261). -/
def HostEvent (t : State) (m : Nat) (job : BitVec 12) (code : Nat) (data : List Byte) : Prop :=
  ∃ f ∈ (getMod t m).host.unacked, f.type = 5 ∧ f.job = job ∧ f.operand = BitVec.ofNat 64 code ∧ f.data = data

/-- A word as eight bytes, lowest first. -/
def bytes8 (w : Word) : List Byte := (List.range 8).map fun i => w.extractLsb' (8 * i) 8

/-- No strand of a pier waits on a sluice (R62, R346). -/
def NoWaits (s : State) (pk : Nat) : Prop := ∀ e ∈ (getPier s pk).strands, e.2.wait = .none

/-- A counter sluice that nothing waits on and that is not armed, so that an add only counts (R59). -/
structure QuietCounter (s : State) (pk n : Nat) : Prop where
  mode : fld (getSluice s pk n).action 62 2 = 1
  armed : (getSluice s pk n).armed = false
  waits : NoWaits s pk

end Sys2Proof.Claims

/-- Merging a dirty log takes its oldest entries, all of them or those before one whose page's node is being moved, which is
tried again: the head moves past each merged entry, and each loses its valid bit. A single entry whose page has a leaf gives
that leaf its dirty bit, and one whose page table entry is not valid is taken with no other effect. -/
def Sys2Proof.Claims.DirtyLogMerged : Prop :=
  ∀ (s : State) (pk : Nat),
    let p := getPier s pk
    let logged : Word := BitVec.ofNat 64 (Claims.fld (mword p.spad (0x3F000 + 8 * p.dlogHead.toNat)) 0 39 * 2 ^ 16)
    p.dlogCount ≤ 256 →
    ∃ s' n, exec (.dirtyLogMerge pk) s = .next s' ∧ n ≤ p.dlogCount ∧ (getPier s' pk).dlogCount = p.dlogCount - n ∧
      (getPier s' pk).dlogHead = p.dlogHead + BitVec.ofNat 8 n ∧
      (n = p.dlogCount ∨ (mergeHead s' pk = .waits ∧ ∃ due, (due, Instr.dirtyLogMerge pk) ∈ s'.cal)) ∧
      (∀ i < n, (mget (getPier s' pk).spad (0x3F007 + 8 * ((p.dlogHead.toNat + i) % 256))).getLsbD 7 = false) ∧
      (∀ k a, ¬(k = pk ∧ 0x3F000 ≤ a ∧ a < 0x3F800) → mget (getPier s' k).spad a = mget (getPier s k).spad a) ∧
      (n = 0 → ∀ m a, mget (getMod s' m).hbm a = mget (getMod s m).hbm a) ∧
      (p.dlogCount = 1 → ∀ leaf lv d, walkAll s (pkMod pk) p.xlroot logged 0 = .leaf leaf lv d →
        n = 1 ∧ Claims.hbmNum s' d.mod (dramLoc d.dom d.loc) 8 = (Claims.hbmNum s d.mod (dramLoc d.dom d.loc) 8 ||| 2 ^ 57) ∧
        ∀ m a, ¬(m = d.mod ∧ dramLoc d.dom d.loc ≤ a ∧ a < dramLoc d.dom d.loc + 8) →
          mget (getMod s' m).hbm a = mget (getMod s m).hbm a) ∧
      (p.dlogCount = 1 → ∀ o, walkAll s (pkMod pk) p.xlroot logged 0 = .ends o →
        n = 1 ∧ ∀ m a, mget (getMod s' m).hbm a = mget (getMod s m).hbm a)

/-- An earlier request of the same strand is still on its way to an agent. -/
def Sys2Proof.Claims.TlbiOnItsWay (s : State) (m sp : Nat) (r : TlbiReq) : Prop :=
  ∃ q : TlbiReq, q.pk = r.pk ∧ q.strand = r.strand ∧ q.tok < r.tok ∧
    ((∃ due, (due, Instr.tlbiResend m sp q) ∈ s.cal) ∨ Work.ev (.tlbiResend m sp q) ∈ s.agenda)

/-- A request that comes to an agent joins its queue, and an idle agent takes it up; an agent with sixteen waiting turns it
away for 512 cycles, and so it does one whose strand has an earlier request still on its way (R363). -/
def Sys2Proof.Claims.InvalidationQueues : Prop :=
  ∀ (s : State) (m sp : Nat) (r : TlbiReq),
    let a := getAgent s m sp
    (a.queue.length < 16 → ¬Claims.TlbiOnItsWay s m sp r →
      ∃ s', exec (.tlbiResend m sp r) s = .next s' ∧ (getAgent s' m sp).queue = a.queue ++ [r] ∧ s'.cal = s.cal ∧
        (a.cur = none → a.queue = [] → s'.agenda = s.agenda ++ [.ev (.invalidationAgent m sp)]) ∧ Claims.SameMemory s s') ∧
    (16 ≤ a.queue.length ∨ Claims.TlbiOnItsWay s m sp r →
      ∃ s', exec (.tlbiResend m sp r) s = .next s' ∧ (getAgent s' m sp).queue = a.queue ∧
        s'.cal = s.cal ++ [(s.cycle + 512, .tlbiResend m sp r)])

/-- An agent begins the oldest request: its own cache loses every entry the request removes, and each site with a context and
each of its 32 abutments is told. -/
def Sys2Proof.Claims.AgentBeginsInvalidation : Prop :=
  ∀ (s : State) (m sp : Nat) (r : TlbiReq) (l : List TlbiReq), (getAgent s m sp).cur = none → (getAgent s m sp).queue = r :: l →
    ∃ s' i, exec (.invalidationAgent m sp) s = .next s' ∧ (getAgent s' m sp).cur = some i ∧ i.req = r ∧
      (getAgent s' m sp).queue = l ∧
      (∀ e, e ∈ (getAgent s' m sp).cache ↔ e ∈ (getAgent s m sp).cache ∧ ¬Claims.invalidates r e) ∧
      (∀ k ∈ i.sites, Work.ev (.invalidationPier m sp k) ∈ s'.agenda) ∧
      (∀ pk, pk ∈ s.piers.map (·.1) → pkMod pk = m → pierLoc s pk = .piers → siteOf s pk / 256 = sp → siteOf s pk ∈ i.sites) ∧
      ∀ k < 32, sp * 32 + k ∈ i.abuts ∧ Work.ev (.invalidationAbutment m (sp * 32 + k)) ∈ s'.agenda

/-- A site under an invalidation drops every translation the request removes; it acknowledges once no access under one is
open, and else looks again in the next cycle; the last acknowledgement completes the agent. -/
def Sys2Proof.Claims.SiteInvalidates : Prop :=
  ∀ (s : State) (m sp k : Nat) (i : Inval), (getAgent s m sp).cur = some i → k ∈ i.sites →
    ∃ s', exec (.invalidationPier m sp k) s = .next s' ∧
      (∀ e, e ∈ (getSite s' (m * 1024 + k)).tcache ↔ e ∈ (getSite s (m * 1024 + k)).tcache ∧ ¬Claims.invalidates i.req e) ∧
      Claims.SameMemory s s' ∧
      ((contextsAt s m k).any (outstanding s i.req) = true →
        (getAgent s' m sp).cur = some i ∧ (s.cycle + 1, Instr.invalidationPier m sp k) ∈ s'.cal) ∧
      ((contextsAt s m k).any (outstanding s i.req) = false →
        (∃ j, (getAgent s' m sp).cur = some j ∧ j.req = i.req ∧ k ∉ j.sites ∧ (∀ x, x ≠ k → (x ∈ j.sites ↔ x ∈ i.sites))) ∧
        (i.sites = [k] → i.abuts = [] → Work.ev (.invalidationComplete m sp) ∈ s'.agenda))

/-- An abutment under an invalidation drops the extents of its streams that the request removes, and acknowledges. -/
def Sys2Proof.Claims.AbutmentInvalidates : Prop :=
  ∀ (s : State) (m a : Nat) (i : Inval), (getAgent s m (a / 32)).cur = some i →
    ∃ s', exec (.invalidationAbutment m a) s = .next s' ∧ Claims.SameMemory s s' ∧
      (∀ sid t, fget (getAbut s m a).ctxs sid none = some t →
        ∃ t', fget (getAbut s' m a).ctxs sid none = some t' ∧ t'.cmd = t.cmd ∧ t'.phase = t.phase ∧ t'.next = t.next ∧
          ∀ e, e ∈ t'.extents ↔ e ∈ t.extents ∧ ¬Claims.invalidates i.req e) ∧
      (∃ j, (getAgent s' m (a / 32)).cur = some j ∧ j.req = i.req ∧ a ∉ j.abuts ∧ j.sites = i.sites) ∧
      (i.abuts = [a] → i.sites = [] → Work.ev (.invalidationComplete m (a / 32)) ∈ s'.agenda)

/-- The last agent's completion ends the request at its origin: the host hears of it, and the completion sluice, if there is
one, is added to. -/
def Sys2Proof.Claims.InvalidationCompletes : Prop :=
  ∀ (s : State) (m sp : Nat) (i : Inval), (getAgent s m sp).cur = some i → i.sites = [] → i.abuts = [] →
    pkMod i.req.pk = m → siteOf s i.req.pk / 256 = sp → (getAgent s m sp).origin = [(i.req, 1)] →
    let n := Claims.fld i.req.t 32 9
    n = 511 ∨ Claims.QuietCounter s i.req.pk n →
    ∃ s', exec (.invalidationComplete m sp) s = .next s' ∧ (getAgent s' m sp).cur = none ∧ (getAgent s' m sp).origin = [] ∧
      ((getAgent s m sp).queue ≠ [] → Work.ev (.invalidationAgent m sp) ∈ s'.agenda) ∧
      Claims.HostEvent s' m (i.req.t.extractLsb' 16 12) 3 (Claims.bytes8 0) ∧
      (n ≠ 511 → (getSluice s' i.req.pk n).count = (getSluice s i.req.pk n).count + 1)

namespace Sys2Proof.Claims

/-- Bits of an element (R106). -/
def width : VT → Nat
  | .i32 | .f32 => 32
  | .bf16 | .f16 => 16
  | .cf32 => 64

/-- Element `j` of `w` bits of a row. -/
def elem (w : Nat) (r : Row) (j : Nat) : Nat := r.toNat / 2 ^ (w * j) % 2 ^ w

/-- An element is valid where its lanes are: both lanes of a complex one, the one lane of any other (R106). -/
def validElem (w : Nat) (k : BitVec 16) (j : Nat) : Bool :=
  if w = 64 then k.getLsbD (2 * j) && k.getLsbD (2 * j + 1) else k.getLsbD (w * j / 32)

/-- Whether element `j` of a result is valid: its lane is, and two elements of 16 bits that share a lane are valid only
together (R365). -/
def laneValid (w : Nat) (ok : Nat → Bool) (j : Nat) : Bool := if w = 16 then ok (j / 2 * 2) && ok (j / 2 * 2 + 1) else ok j

/-- A vector with these valid elements: `ok` says which, `f` gives their values, the others are zero and invalid (R365). -/
def IsVector (w : Nat) (ok : Nat → Bool) (f : Nat → Nat) (row : Row) (mask : BitVec 16) : Prop :=
  (∀ l < 16, mask.getLsbD l = laneValid w ok (l * 32 / w)) ∧
  ∀ j < 512 / w, elem w row j = if laneValid w ok j then f j % 2 ^ w else 0

/-- A trigger of vx gives such a vector after `lat` cycles. -/
def GivesVector (s : State) (i : Instr) (lat w : Nat) (ok : Nat → Bool) (f : Nat → Nat) (poison : Bool) : Prop :=
  ∃ row mask, IsVector w ok f row mask ∧ exec i s = .next (later s 6 lat ⟨.vec row mask, poison⟩ none)

/-- An operation on one element of a type: 32-bit integers, floating values rounded once to nearest even, complex parts each
by itself (R106, R113). -/
def onElem (t : VT) (fi : BitVec 32 → BitVec 32 → BitVec 32) (ff : FV → FV → FV) (a b : Nat) : Nat :=
  match t with
  | .i32 => (fi (BitVec.ofNat 32 a) (BitVec.ofNat 32 b)).toNat
  | .cf32 =>
    rne fmtFp32 (ff (fvOf fmtFp32 (a % 2 ^ 32)) (fvOf fmtFp32 (b % 2 ^ 32))) +
      2 ^ 32 * rne fmtFp32 (ff (fvOf fmtFp32 (a / 2 ^ 32)) (fvOf fmtFp32 (b / 2 ^ 32)))
  | t => rne (fmtOf t) (ff (fvOf (fmtOf t) a) (fvOf (fmtOf t) b))

/-- All ones where a comparison holds (R367). -/
def allOnes (t : VT) (b : Bool) : Nat := if b then 2 ^ width t - 1 else 0

/-- A comparison of real elements: integers signed, floating values as numbers (R367). -/
def compare (t : VT) (fi : Int → Int → Bool) (ff : FV → FV → Bool) (a b : Nat) : Bool :=
  if t = .i32 then fi (BitVec.ofNat 32 a).toInt (BitVec.ofNat 32 b).toInt else ff (fvOf (fmtOf t) a) (fvOf (fmtOf t) b)

/-- The two-operand operations on the elements of A and T, each of latency 4 (R366, R367). -/
def vec2 (m : Mv) (t : VT) : List (Instr × (Nat → Nat → Nat)) :=
  [ (.vadd m t, onElem t (· + ·) fvAdd), (.vsub m t, onElem t (· - ·) fun a b => fvAdd a (fvNeg b)) ]

/-- Those that take no complex form. -/
def vec2Real (m : Mv) (t : VT) : List (Instr × (Nat → Nat → Nat)) :=
  [ (.vmul m t, onElem t (· * ·) fvMul)
  , (.vmin m t, fun a b => if t = .i32 then (if (BitVec.ofNat 32 b).toInt < (BitVec.ofNat 32 a).toInt then b else a)
      else minMaxBits (fmtOf t) false a b)
  , (.vmax m t, fun a b => if t = .i32 then (if (BitVec.ofNat 32 a).toInt < (BitVec.ofNat 32 b).toInt then b else a)
      else minMaxBits (fmtOf t) true a b)
  , (.vceq m t, fun a b => allOnes t (if t = .i32 then a == b else fvEq (fvOf (fmtOf t) a) (fvOf (fmtOf t) b)))
  , (.vclt m t, fun a b => allOnes t (compare t (fun x y => x < y) fvLt a b))
  , (.vcle m t, fun a b => allOnes t (compare t (fun x y => x ≤ y) (fun x y => fvLt x y || fvEq x y) a b)) ]

/-- The bitwise operations and shifts on 32-bit lanes (R369). -/
def vecBits (m : Mv) : List (Instr × (BitVec 32 → BitVec 32 → BitVec 32)) :=
  [ (.vand m, fun a b => a &&& b), (.vor m, fun a b => a ||| b), (.vxor m, fun a b => a ^^^ b)
  , (.vshl m, fun a b => a <<< (b.toNat % 32)), (.vshr m, fun a b => a >>> (b.toNat % 32)) ]

/-- The two complex products (R370). -/
def vecProducts (m : Mv) : List (Instr × Bool) := [(.vcmul m, false), (.vcmulConj m, true)]

/-- One complex product: real and imaginary part each the exact sum of two products, rounded once; a NaN operand makes both
parts the canonical NaN. -/
def product (conj : Bool) (x y : Nat) : Nat :=
  let a := fvOf fmtFp32 (x % 2 ^ 32)
  let b := if conj then fvNeg (fvOf fmtFp32 (x / 2 ^ 32)) else fvOf fmtFp32 (x / 2 ^ 32)
  let c := fvOf fmtFp32 (y % 2 ^ 32)
  let d := fvOf fmtFp32 (y / 2 ^ 32)
  if fvNan a || fvNan b || fvNan c || fvNan d then 0x7FC00000 + 2 ^ 32 * 0x7FC00000
  else rne fmtFp32 (fvAdd (fvMul a c) (fvNeg (fvMul b d))) + 2 ^ 32 * rne fmtFp32 (fvAdd (fvMul a d) (fvMul b c))

/-- The sign operations on a part (R366). -/
def signed (t : VT) (neg : Bool) (a : Nat) : Nat :=
  if t = .i32 then
    (let x := BitVec.ofNat 32 a; if neg || x.toInt < 0 then (-x).toNat else x.toNat)
  else
    let h := if width t = 16 then 2 ^ 15 else 2 ^ 31
    if fvNan (fvOf (fmtOf t) a) then nanOf (fmtOf t) else if neg then (a + h) % (2 * h) else a % h

/-- A node of a reduction: an absent child is passed over (R114). -/
def node (f : Nat → Nat → Nat) : Option Nat → Option Nat → Option Nat
  | some a, some b => some (f a b)
  | some a, none => some a
  | none, b => b

/-- The tree of R114 over `2 ^ k` elements, the lower numbers on the left. -/
def tree (f : Nat → Nat → Nat) : Nat → (Nat → Option Nat) → Option Nat
  | 0, g => g 0
  | k + 1, g => node f (tree f k g) (tree f k fun j => g (j + 2 ^ k))

/-- The levels of the tree of a type: 16 elements, 32 or 8 (R106). -/
def levels : VT → Nat
  | .i32 | .f32 => 4
  | .bf16 | .f16 => 5
  | .cf32 => 3

/-- A root as it is written: a floating one that is a NaN, or a part that is one, becomes canonical (R114). -/
def rootOf (t : VT) (x : Nat) : Nat :=
  let part (y : Nat) : Nat := if fvNan (fvOf (fmtOf t) y) then nanOf (fmtOf t) else y
  match t with
  | .i32 => x
  | .cf32 => part (x % 2 ^ 32) + 2 ^ 32 * part (x / 2 ^ 32)
  | _ => part x

/-- The lesser or the greater of two elements, integers signed (R111, R374). -/
def pick (t : VT) (max : Bool) (a b : Nat) : Nat :=
  if t = .i32 then
    (if max then (if (BitVec.ofNat 32 a).toInt < (BitVec.ofNat 32 b).toInt then b else a)
     else (if (BitVec.ofNat 32 b).toInt < (BitVec.ofNat 32 a).toInt then b else a))
  else minMaxBits (fmtOf t) max a b

/-- Bits of an element of a format code of VCVT, and whether it takes the code (R104, R371). -/
def codeWidth (c : Nat) : Option Nat :=
  [some 16, some 16, some 8, some 8, some 4, some 8, some 32, none, some 8].getD c none

/-- The value of an element of a format code (R104, R112). -/
def codeValue (c b : Nat) : FV :=
  match c with
  | 0 => fvOf fmtBf16 b
  | 1 => fvOf fmtFp16 b
  | 2 => fvOf fmtE4m3 b
  | 3 => fvOf fmtE5m2 b
  | 4 => fvOf fmtE2m1 b
  | 5 => fvOfInt (BitVec.ofNat 8 b).toInt
  | 8 => fvOfE8m0 b
  | _ => fvOf fmtFp32 b

/-- A value rounded to a format code in a mode, a stochastic one with sixteen bits of the generator (R108 to R112). -/
def codeRound (c : Nat) (r : RMode) (s16 : Nat) (v : FV) : Nat :=
  match c with
  | 0 => roundTo fmtBf16 r s16 v
  | 1 => roundTo fmtFp16 r s16 v
  | 2 => roundTo fmtE4m3 r s16 v
  | 3 => roundTo fmtE5m2 r s16 v
  | 4 => roundTo fmtE2m1 r s16 v
  | 5 => (BitVec.ofInt 8 (roundInt (-128) 127 r s16 v)).toNat
  | 8 => roundE8m0 r s16 v
  | _ => roundTo fmtFp32 r s16 v

/-- The source element of result element `e` of a conversion, if it is a result element (R372). -/
def convSource (ws wd part e : Nat) : Option Nat :=
  let n := 512 / max ws wd
  if wd ≤ ws then (if part * n ≤ e ∧ e < part * n + n then some (e - part * n) else none)
  else if e < n then some (part * n + e) else none

/-- Whether result element `e` is computed: it is one, and its source lane is valid (R372). -/
def computed (ws wd part : Nat) (k : BitVec 16) (e : Nat) : Bool :=
  match convSource ws wd part e with
  | some q => k.getLsbD (q * ws / 32)
  | none => false

/-- The generator behind the conversion of result element `e`: a stochastic one takes a step for each computed element up to and
with `e`, any other none (R110, R372). -/
def seedAt (ws wd part : Nat) (k : BitVec 16) (r : RMode) (sd : BitVec 32) (e : Nat) : BitVec 32 :=
  if r = .sr then Nat.iterate xorshift ((List.range (e + 1)).countP (computed ws wd part k)) sd else sd

end Sys2Proof.Claims

/-- The elementwise operations of vx give, four cycles on, each element that is valid in every operand its value, and leave the
others zero and invalid: sums, differences, products, minima, maxima, comparisons, fused multiply-adds, selections, absolute
values and negations. -/
def Sys2Proof.Claims.VectorElementwise : Prop :=
  ∀ (s : State) (m : Mv) (t : VT) (v a b : Value), Claims.Fires s m v → Claims.Port s .vxA a → Claims.Port s .vxB b →
    let w := Claims.width t
    let A := Claims.elem w (vlanes a)
    let B := Claims.elem w (vlanes b)
    let T := Claims.elem w (vlanes v)
    let okA := Claims.validElem w (vmaskOf a)
    let okB := Claims.validElem w (vmaskOf b)
    let okT := Claims.validElem w (vmaskOf v)
    (∀ i f, ((i, f) ∈ Claims.vec2 m t ∨ (t ≠ .cf32 ∧ (i, f) ∈ Claims.vec2Real m t)) →
      Claims.GivesVector s i 4 w (fun j => okA j && okT j) (fun j => f (A j) (T j)) (a.poison || v.poison)) ∧
    (t = .cf32 →
      Claims.GivesVector s (.vceq m t) 4 w (fun j => okA j && okT j)
        (fun j => Claims.allOnes t (fvEq (fvOf fmtFp32 (A j % 2 ^ 32)) (fvOf fmtFp32 (T j % 2 ^ 32)) &&
          fvEq (fvOf fmtFp32 (A j / 2 ^ 32)) (fvOf fmtFp32 (T j / 2 ^ 32)))) (a.poison || v.poison)) ∧
    (t ≠ .cf32 →
      Claims.GivesVector s (.vfma m t) 4 w (fun j => okA j && okB j && okT j)
        (fun j => if t = .i32 then (BitVec.ofNat 32 (A j) * BitVec.ofNat 32 (B j) + BitVec.ofNat 32 (T j)).toNat
          else rne (fmtOf t) (fvAdd (fvMul (fvOf (fmtOf t) (A j)) (fvOf (fmtOf t) (B j))) (fvOf (fmtOf t) (T j))))
        (a.poison || b.poison || v.poison) ∧
      Claims.GivesVector s (.vabs m t) 4 w okT (fun j => Claims.signed t false (T j)) v.poison) ∧
    Claims.GivesVector s (.vneg m t) 4 w okT
      (fun j => if t = .cf32 then Claims.signed .f32 true (T j % 2 ^ 32) + 2 ^ 32 * Claims.signed .f32 true (T j / 2 ^ 32)
        else Claims.signed t true (T j)) v.poison ∧
    Claims.GivesVector s (.vsel m t) 4 w (fun j => okA j && okB j && okT j) (fun j => if T j = 0 then B j else A j)
      (a.poison || b.poison || v.poison)

/-- The bitwise operations, the shifts by the low five bits of T's lane, and the complex products. -/
def Sys2Proof.Claims.VectorBitsAndProducts : Prop :=
  ∀ (s : State) (m : Mv) (v a : Value), Claims.Fires s m v → Claims.Port s .vxA a →
    (∀ i f, (i, f) ∈ Claims.vecBits m →
      Claims.GivesVector s i 4 32 (fun j => (vmaskOf a).getLsbD j && (vmaskOf v).getLsbD j)
        (fun j => (f ((vlanes a).extractLsb' (32 * j) 32) ((vlanes v).extractLsb' (32 * j) 32)).toNat) (a.poison || v.poison)) ∧
    ∀ i conj, (i, conj) ∈ Claims.vecProducts m →
      Claims.GivesVector s i 4 64 (fun j => Claims.validElem 64 (vmaskOf a) j && Claims.validElem 64 (vmaskOf v) j)
        (fun j => Claims.product conj (Claims.elem 64 (vlanes a) j) (Claims.elem 64 (vlanes v) j)) (a.poison || v.poison)

/-- The operations that move lanes: broadcast of element 0, shuffle by T's elements, extraction by T, iota, and the mask, which
takes T's low sixteen bits. -/
def Sys2Proof.Claims.VectorMovement : Prop :=
  ∀ (s : State) (m : Mv) (t : VT) (v a : Value), Claims.Fires s m v →
    let w := Claims.width t
    let n := 512 / w
    let T := Claims.elem w (vlanes v)
    (Claims.GivesVector s (.vbcast m t) 2 w (fun _ => Claims.validElem w (vmaskOf v) 0) (fun _ => T 0) v.poison) ∧
    (Claims.GivesVector s (.viota m) 4 32 (fun _ => true) (fun j => (vsc v).toNat + j) v.poison) ∧
    (Claims.Port s .vxA a →
      let A := Claims.elem w (vlanes a)
      Claims.GivesVector s (.vshuf m t) 2 w
        (fun j => Claims.validElem w (vmaskOf v) j && Claims.validElem w (vmaskOf a) (T j % n)) (fun j => A (T j % n))
        (a.poison || v.poison) ∧
      (let k := (vsc v).toNat % n
       ∃ row mask, exec (.vext m t) s = .next (Claims.later s 6 2 ⟨.vec row mask, a.poison || v.poison⟩ none) ∧
         if Claims.validElem w (vmaskOf a) k then Claims.elem w row 0 = A k ∧ mask = (if w = 64 then 3 else 1) ∧
           ∀ j, 0 < j → j < n → Claims.elem w row j = 0
         else row = 0 ∧ mask = 0) ∧
      ∃ row, exec (.vmask m) s = .next (Claims.later s 6 4 ⟨.vec row ((vsc v).extractLsb' 0 16), a.poison || v.poison⟩ none) ∧
        ∀ l < 16, Claims.elem 32 row l =
          if (vsc v).getLsbD l && (vmaskOf a).getLsbD l then Claims.elem 32 (vlanes a) l else 0)

/-- Reductions give element 0, six cycles on, the root of the pairwise tree over the valid elements of T: the sum, rounded at
each node, the greatest or the least; a floating root that is a NaN becomes canonical, and with no valid element the result has
no valid lane. For integers the root is the wrapped sum, the greatest or the least of the valid lanes. -/
def Sys2Proof.Claims.VectorReductions : Prop :=
  ∀ (s : State) (m : Mv) (v : Value), Claims.Fires s m v →
    (∀ t : VT, let w := Claims.width t
      let gives (i : Instr) (f : Nat → Nat → Nat) : Prop :=
        let root := Claims.tree f (Claims.levels t) fun j =>
          if Claims.validElem w (vmaskOf v) j then some (Claims.elem w (vlanes v) j) else none
        ∃ row mask, exec i s = .next (Claims.later s 6 6 ⟨.vec row mask, v.poison⟩ none) ∧
          (root = none → row = 0 ∧ mask = 0) ∧
          ∀ x, root = some x → mask = (if w = 64 then 3 else 1) ∧ row.toNat = Claims.rootOf t x % 2 ^ w
      gives (.vrsum m t) (Claims.onElem t (· + ·) fvAdd) ∧
      (t ≠ .cf32 → gives (.vrmax m t) (Claims.pick t true) ∧ gives (.vrmaxMin m t) (Claims.pick t false))) ∧
    let lanes := ((List.range 16).filter fun i => (vmaskOf v).getLsbD i).map fun i => (vlanes v).extractLsb' (32 * i) 32
    let gives (i : Instr) (r : BitVec 32 → Prop) : Prop :=
      ∃ row mask, exec i s = .next (Claims.later s 6 6 ⟨.vec row mask, v.poison⟩ none) ∧
        (lanes = [] → row = 0 ∧ mask = 0) ∧
        (lanes ≠ [] → mask = 1 ∧ row.toNat < 2 ^ 32 ∧ r (row.extractLsb' 0 32))
    gives (.vrsum m .i32) (fun x => x = lanes.sum) ∧
    gives (.vrmax m .i32) (fun x => x ∈ lanes ∧ ∀ y ∈ lanes, y.toInt ≤ x.toInt) ∧
    gives (.vrmaxMin m .i32) (fun x => x ∈ lanes ∧ ∀ y ∈ lanes, x.toInt ≤ y.toInt)

/-- VCVT with formats or a part it does not take faults with 0x03 and vx.a in w3; otherwise it converts, four cycles on, each
result element whose source lane is valid, in its rounding mode; a result lane is valid when it holds result elements and each
is computed, and all other lanes are zero. In the stochastic mode each computed element takes one step of the generator, in
ascending order; no other mode touches it. -/
def Sys2Proof.Claims.VectorConversion : Prop :=
  ∀ (s : State) (m : Mv) (r : RMode) (v a : Value), Claims.Fires s m v → Claims.Port s .vxA a →
    let src := Claims.fld (vsc a) 0 4
    let dst := Claims.fld (vsc a) 4 4
    let part := Claims.fld (vsc a) 8 3
    let bad := exec (.vcvt m r) s = .next (raise s 6 0x03 (moveWord s v) (vsc a))
    ((Claims.codeWidth src = none ∨ Claims.codeWidth dst = none) → bad) ∧
    ∀ ws wd, Claims.codeWidth src = some ws → Claims.codeWidth dst = some wd →
      ((if wd ≤ ws then ws / wd ≤ part else wd / ws ≤ part) → bad) ∧
      ((if wd ≤ ws then part < ws / wd else part < wd / ws) →
        let k := vmaskOf v
        let sd := (curStrand s).seed
        ∃ row mask t, exec (.vcvt m r) s = .next t ∧
          (curStrand t).seed = Claims.seedAt ws wd part k r sd (512 / wd - 1) ∧
          (∀ l < 16, mask.getLsbD l = true ↔
            (∃ e < 512 / wd, e * wd / 32 = l ∧ (Claims.convSource ws wd part e).isSome = true) ∧
            ∀ e < 512 / wd, e * wd / 32 = l → (Claims.convSource ws wd part e).isSome = true → Claims.computed ws wd part k e = true) ∧
          (∀ e < 512 / wd, Claims.elem wd row e =
            if mask.getLsbD (e * wd / 32) then
              (match Claims.convSource ws wd part e with
               | some q => Claims.codeRound dst r ((Claims.seedAt ws wd part k r sd e).toNat / 2 ^ 16)
                   (Claims.codeValue src (Claims.elem ws (vlanes v) q)) % 2 ^ wd
               | none => 0)
            else 0) ∧
          (∃ p ∈ (curStrand t).pend, p.unit = 6 ∧ p.tok = s.tok ∧ p.r = some ⟨.vec row mask, a.poison || v.poison⟩) ∧
          (s.cycle + 4, Instr.resultPortWrite s.issue.pk s.issue.strand 6 s.tok) ∈ t.cal)

namespace Sys2Proof.Claims

/-- The mx triggers with an effect of one shape: the operation of the queue, whether port a is read (R288, R319, R323, R324,
R330, R333). -/
def mxForms (m : Mv) : List (Instr × MOp × Bool) :=
  [ (.mld m, .mld, true), (.mldw m, .mldw, true), (.mstRaw m, .mstRaw, true), (.mstBf16 m, .mstBf16, true)
  , (.mstF32 m, .mstF32, true), (.mzero m, .mzero, false), (.mma m, .mma, false), (.mmas m, .mmas, false)
  , (.mmaf m, .mmaf, false), (.cmma m, .cmma, false) ]

/-- The sources that the stores of tiles and accumulators take (R330): MST.raw tiles 0 to 15 and accumulators 16 to 19, MST.bf16
accumulators, MST.f32 the first of a pair. -/
def mstSource (op : MOp) (src : Nat) : Prop :=
  (op = .mstRaw → src ≤ 19) ∧ (op = .mstBf16 → 16 ≤ src ∧ src ≤ 19) ∧ (op = .mstF32 → src = 16 ∨ src = 18)

/-- A configuration that MCFG takes (R321): a format up to 8, rows of 1, 2, 4, 8, 16 or 32 bytes or a multiple of 64, and at most
64 slots. -/
def TileFits (w : Word) : Prop :=
  let unit := match fld w 0 4 with | 0 | 1 => 2 | 6 => 4 | 7 => 8 | _ => 1
  let rb := (fld w 10 6 + 1) * unit
  fld w 0 4 ≤ 8 ∧ (rb ∈ [1, 2, 4, 8, 16, 32] ∨ rb % 64 = 0) ∧ (fld w 4 6 + 1) * (max 1 (rb / 64)) ≤ 64

/-- The entry a trigger puts at the end of the matrix queue (R219, R319). -/
structure Queued (s t : State) (op : MOp) (T A : Word) : Prop where
  entry : ∃ e, (curPier t).mq = (curPier s).mq ++ [e] ∧ e.op = op ∧ e.t = T ∧ e.a = A ∧ e.tok = s.tok ∧
    e.actor = (curStrand s).actor ∧ e.runid = (curStrand s).runid ∧ e.strand = s.issue.strand ∧ e.bundle = s.issue.addr ∧
    ((op = .mcfg ∨ T.getLsbD 19 = false) → e.released = true) ∧
    (op ≠ .mcfg → T.getLsbD 19 = true → (curPier s).credits = [] → e.released = false)
  memory : SameMemory s t
  frame : RunFrame s t 7

/-- A word of an accumulator: 32 rows of 128 bytes in slots of 64 (R320). -/
def accAt (x : Site) (i w : Nat) : Nat := elem 32 (fget (fget x.tiles i {}).rows (w / 16) 0) (w % 16)

/-- The head of the matrix queue of a pier may begin in this cycle (R60, R319). -/
structure HeadBegins (s : State) (pk : Nat) (e : MEntry) (l : List MEntry) : Prop where
  head : (getPier s pk).mq = e :: l
  idle : (getPier s pk).mrun = none
  released : e.released = true
  later : e.at_ < s.cycle

/-- Bytes of a row of a configured tile (R320). -/
def rowLen (w : Word) : Nat := (fld w 10 6 + 1) * (match fld w 0 4 with | 0 | 1 => 2 | 6 => 4 | 7 => 8 | _ => 1)

/-- The place of step `k` of a load or store of rows of `rb` bytes: row, part of the row, offset (R189, R323, R331). -/
def stepAt (a : Word) (rb pitch k : Nat) : Nat × Nat × Nat :=
  let spr := max 1 (rb / 64)
  (k / spr, k % spr, a.toNat + k / spr * pitch + 64 * (k % spr))

/-- A tile or accumulator of the site of a pier: 0 to 15 are tiles, 16 to 19 accumulators (R227). -/
def tileOf (s : State) (pk i : Nat) : Tile := fget (getSite s (siteKey s pk)).tiles i {}

/-- A slot of a tile or accumulator of a pier's site. -/
def slot (s : State) (pk i n : Nat) : Row := fget (tileOf s pk i).rows n 0

/-- The configuration word of a tile of a pier (R321). -/
def tileConf (s : State) (pk i : Nat) : Word := fget (getPier s pk).tileCfg i 0

/-- Element `c`, of `n` bits, of row `r` of a configured tile: a row takes max(1, RB / 64) slots (R320). -/
def tileElem (s : State) (pk i n r c : Nat) : Nat :=
  elem n (slot s pk i (r * max 1 (rowLen (tileConf s pk i) / 64) + n * c / 512)) (c % (512 / n))

/-- Whether a row of a configured tile is poisoned: its slots carry the mark of the row (log entry 76). -/
def rowPoisoned (s : State) (pk i r : Nat) : Prop :=
  fget (tileOf s pk i).poison (r * max 1 (rowLen (tileConf s pk i) / 64)) false = true

/-- A configuration of a format and a shape, whatever its pitch (R325). -/
def Shaped (w : Word) (f rows cols : Nat) : Prop := fld w 0 4 = f ∧ fld w 4 6 + 1 = rows ∧ fld w 10 6 + 1 = cols

/-- A row of R325: the operation, the format of A, those that B may have, the logical K, the rows of B packed together, the configured
columns of A, the columns of A's scale tile (which are the rows of B's; 0: none), the columns of the metadata (0: none). -/
structure ProductRow where
  op : MOp
  fa : Nat
  fb : List Nat
  k : Nat
  g : Nat
  cols : Nat
  scale : Nat
  md : Nat

/-- The table of R325. -/
def productRows : List ProductRow :=
  [ ⟨.mma, 0, [0], 32, 1, 32, 0, 0⟩, ⟨.mma, 1, [1], 32, 1, 32, 0, 0⟩, ⟨.mma, 2, [2, 3], 64, 1, 64, 0, 0⟩, ⟨.mma, 3, [2, 3], 64, 1, 64, 0, 0⟩
  , ⟨.mma, 5, [5], 64, 1, 64, 0, 0⟩, ⟨.mma, 4, [4], 128, 2, 64, 4, 0⟩
  , ⟨.mmas, 0, [0], 64, 1, 32, 0, 8⟩, ⟨.mmas, 1, [1], 64, 1, 32, 0, 8⟩, ⟨.mmas, 2, [2, 3], 128, 2, 64, 0, 16⟩
  , ⟨.mmas, 3, [2, 3], 128, 2, 64, 0, 16⟩, ⟨.mmas, 5, [5], 128, 2, 64, 0, 16⟩, ⟨.mmas, 4, [4], 256, 4, 64, 8, 32⟩
  , ⟨.mmaf, 6, [6], 32, 1, 32, 0, 0⟩ ]

/-- The A tile of an entry (R324). -/
def tileA (e : MEntry) : Nat := fld e.t 0 4
/-- The B tile of an entry. -/
def tileB (e : MEntry) : Nat := fld e.t 4 4
/-- The accumulator of a product, with the ids of accumulators (R326). -/
def accZ (e : MEntry) : Nat := 16 + fld e.t 8 2
/-- The metadata tile of an MMAS. -/
def tileMd (e : MEntry) : Nat := fld e.t 20 4
/-- The scale tile that a tile names (R107). -/
def scaleTile (s : State) (pk i : Nat) : Nat := fld (tileConf s pk i) 32 4

/-- The nibble of row `m`, group `g` of a metadata tile (R327). -/
def nibble (s : State) (pk : Nat) (e : MEntry) (m g : Nat) : Nat := tileElem s pk (tileMd e) 4 m g

/-- A check that an entry makes when it executes: what must hold, else the code and w3 of the fault. -/
structure EntryCheck where
  holds : Prop
  code : Nat
  w3 : Nat

/-- The first check of a list that does not hold gives this code and this w3. -/
def FirstFails (l : List EntryCheck) (code : Nat) (w3 : Word) : Prop :=
  ∃ before c after, l = before ++ c :: after ∧ (∀ x ∈ before, x.holds) ∧ ¬c.holds ∧ c.code = code ∧ BitVec.ofNat 64 c.w3 = w3

/-- A tile or accumulator must be current, else context lost with its id (R227). -/
def mustBeCurrent (s : State) (pk i : Nat) : EntryCheck := ⟨(tileOf s pk i).current = true, 0x17, i⟩

/-- A tile must have a format and a shape, else tile shape with its id (R325, R326). -/
def mustBeShaped (s : State) (pk i f rows cols : Nat) : EntryCheck := ⟨Shaped (tileConf s pk i) f rows cols, 0x0E, i⟩

/-- Every byte of every row must lie in the region of the actor, else region bounds with the first offset outside; that of the service
actor is the whole scratchpad (R36, R323, R331). -/
def mustBeInRegion (s : State) (pk : Nat) (e : MEntry) (pitch rows n : Nat) : List EntryCheck :=
  (List.range rows).flatMap fun r => (List.range n).map fun b =>
    let o := e.a.toNat + r * pitch + b
    let x := getActor s pk e.actor.toNat
    ⟨if e.actor = 63 then o < 0x40000 else fld x.rgnbase 6 13 * 64 ≤ o ∧ o < fld x.rgnlim 6 13 * 64, 0x06, o⟩

/-- Base and pitch must be multiples of min(RB, 64), else tile shape (R323, R331). -/
def mustBeAligned (e : MEntry) (i pitch rb : Nat) : EntryCheck := ⟨e.a.toNat % min rb 64 = 0 ∧ pitch % min rb 64 = 0, 0x0E, i⟩

/-- The checks of MMA, MMAS and MMAF whose A has the format of a row (R325, R326): every tile and the accumulator current, then the shapes,
then ascending positions in every metadata group; metadata steers the sum, so a poisoned row of it faults as consumed (R128). -/
def productChecks (s : State) (pk : Nat) (e : MEntry) (p : ProductRow) : List EntryCheck :=
  let a := tileA e
  let b := tileB e
  let sa := scaleTile s pk a
  let sb := scaleTile s pk b
  let md := tileMd e
  ([a, b] ++ (if p.scale = 0 then [] else [sa, sb]) ++ (if p.md = 0 then [] else [md]) ++ [accZ e]).map (mustBeCurrent s pk) ++
  [mustBeShaped s pk a p.fa 32 p.cols,
   ⟨∃ f ∈ p.fb, Shaped (tileConf s pk b) f (p.k / p.g) ((if f = 4 then 16 else 32) * p.g), 0x0E, b⟩] ++
  (if p.scale = 0 then [] else [mustBeShaped s pk sa 8 32 p.scale, mustBeShaped s pk sb 8 p.scale 32]) ++
  (if p.md = 0 then [] else
    [mustBeShaped s pk md 5 32 p.md, ⟨∀ m < 32, ¬rowPoisoned s pk md m, 0x0C, 0⟩,
     ⟨∀ m < 32, ∀ g < p.k / 4, nibble s pk e m g % 4 < nibble s pk e m g / 4, 0x0E, md⟩])

/-- The checks of a product whose A has the format of no row. -/
def noRowChecks (s : State) (pk : Nat) (e : MEntry) : List EntryCheck :=
  [tileA e, tileB e, accZ e].map (mustBeCurrent s pk) ++ [⟨False, 0x0E, tileA e⟩]

/-- The checks of MLD and MLDW (R105, R323). -/
def loadChecks (s : State) (pk : Nat) (e : MEntry) : List EntryCheck :=
  let i := fld e.t 0 4
  let w := tileConf s pk i
  let st := (getSite s (siteKey s pk)).status
  [⟨fld w 0 4 ≤ 8, 0x0E, i⟩, mustBeAligned e i (fld w 16 16) (rowLen w)] ++
  (if e.op = .mld then mustBeInRegion s pk e (fld w 16 16) (fld w 4 6 + 1) (rowLen w)
   else
    [⟨∀ r < fld w 4 6 + 1, e.a.toNat + r * fld w 16 16 + rowLen w ≤ 0x100000, 0x0E, i⟩,
     ⟨st.getLsbD 63 = true ∧ st.getLsbD 62 = false ∧ st.extractLsb' 0 12 = jobOf s pk, 0x17, e.a.toNat⟩])

/-- Rows, bytes of a row and pitch of what an MST writes (R330). -/
def storeShape (s : State) (pk : Nat) (e : MEntry) : Nat × Nat × Nat :=
  let w := tileConf s pk (fld e.t 0 5)
  if e.op = .mstRaw ∧ fld e.t 0 5 < 16 then (fld w 4 6 + 1, rowLen w, fld w 16 16)
  else (32, if e.op = .mstBf16 then 64 else 128, fld e.t 20 16)

/-- The checks of MST (R331). -/
def storeChecks (s : State) (pk : Nat) (e : MEntry) : List EntryCheck :=
  let src := fld e.t 0 5
  let h := storeShape s pk e
  (if e.op = .mstF32 then [src, src + 1] else [src]).map (mustBeCurrent s pk) ++
  [⟨src < 16 → fld (tileConf s pk src) 0 4 ≤ 8, 0x0E, src⟩, mustBeAligned e src h.2.2 h.2.1] ++
  mustBeInRegion s pk e h.2.2 h.1 h.2.1

/-- The checks of CMMA (R290). -/
def complexChecks (s : State) (pk : Nat) (e : MEntry) : List EntryCheck :=
  [⟨fld e.t 8 2 = 0 ∨ fld e.t 8 2 = 2, 0x0E, accZ e⟩] ++ [tileA e, tileB e, accZ e, accZ e + 1].map (mustBeCurrent s pk) ++
  [mustBeShaped s pk (tileA e) 7 32 16, mustBeShaped s pk (tileB e) 7 16 16]

/-- The checks of an entry, the source of an MST being one that its trigger takes; MCFG and MZERO make none (R321, R333). -/
def EntryChecks (s : State) (pk : Nat) (e : MEntry) (l : List EntryCheck) : Prop :=
  match e.op with
  | .mcfg | .mzero => l = []
  | .mld | .mldw => l = loadChecks s pk e
  | .mstRaw | .mstBf16 | .mstF32 => mstSource e.op (fld e.t 0 5) ∧ l = storeChecks s pk e
  | .mma | .mmas | .mmaf =>
    (∃ p ∈ productRows, p.op = e.op ∧ p.fa = fld (tileConf s pk (tileA e)) 0 4 ∧ l = productChecks s pk e p) ∨
    ((∀ p ∈ productRows, p.op = e.op → p.fa ≠ fld (tileConf s pk (tileA e)) 0 4) ∧ l = noRowChecks s pk e)
  | .cmma => l = complexChecks s pk e

/-- Every check of an entry holds. -/
def Passes (s : State) (pk : Nat) (e : MEntry) : Prop := ∃ l, EntryChecks s pk e l ∧ ∀ c ∈ l, c.holds

/-- The matrix queue takes step `k` of its head in this cycle: it begins with its checks passed, or it goes on. -/
structure HeadSteps (s : State) (pk : Nat) (e : MEntry) (l : List MEntry) (k : Nat) : Prop where
  head : (getPier s pk).mq = e :: l
  step : ((getPier s pk).mrun = none ∧ e.released = true ∧ e.at_ < s.cycle ∧ Passes s pk e ∧ k = 0) ∨
    ((getPier s pk).mrun.isSome = true ∧ (getPier s pk).mstep = k)

/-- The run that triggered an entry still runs on its strand (R219). -/
def StillRuns (s : State) (pk : Nat) (e : MEntry) : Prop :=
  (getStrand s pk e.strand).status = .running ∧ (getStrand s pk e.strand).runid = e.runid ∧ (getStrand s pk e.strand).actor = e.actor

/-- The head fails: it leaves the queue and changes no tile, accumulator or memory. Its run, if it still runs, is frozen with a deferred
record; else the record alone is made (R219). -/
def EntryFails (s : State) (pk : Nat) (e : MEntry) (l : List MEntry) (code : Nat) (w3 : Word) : Prop :=
  ∃ s', exec (.matrixEntryExecute pk) s = .next s' ∧ (getPier s' pk).mq = l.filter (fun q => !(q.tok == e.tok)) ∧
    (getPier s' pk).mrun = none ∧ s'.sites = s.sites ∧ SameMemory s s' ∧
    (StillRuns s pk e → (getStrand s pk e.strand).service = false →
      (getStrand s' pk e.strand).status = .frozen ∧
      ∃ x g, x ∈ (getPier s' pk).outbox ∧ x.body = .msg g ∧ g.kind = 0b101 ∧ fld (g.pay.headD 0) 0 16 = code ∧
        (g.pay.headD 0).getLsbD 24 = true ∧ g.pay[3]? = some w3) ∧
    (¬StillRuns s pk e →
      ∃ d, Work.ev (.deferredFaultReport d) ∈ s'.agenda ∧ d.pk = pk ∧ d.actor = e.actor.toNat ∧ d.strand = e.strand ∧
        d.runid = e.runid ∧ d.bundle = e.bundle ∧ d.code = BitVec.ofNat 16 code ∧ d.w3 = w3)

/-- The value of element `c` of A's row `m`, which stands at the logical `k`, with its scale (R104, R107). -/
def aValue (s : State) (pk : Nat) (e : MEntry) (p : ProductRow) (m c k : Nat) : FV :=
  let v := codeValue p.fa (tileElem s pk (tileA e) ((codeWidth p.fa).getD 0) m c)
  if p.scale = 0 then v else fvMul v (codeValue 8 (tileElem s pk (scaleTile s pk (tileA e)) 8 m (k / 32)))

/-- The bits of b(k, n): row k / g of the tile holds g rows of B one after another (R322). -/
def bBits (s : State) (pk : Nat) (e : MEntry) (p : ProductRow) (k n : Nat) : Nat :=
  tileElem s pk (tileB e) ((codeWidth (fld (tileConf s pk (tileB e)) 0 4)).getD 0) (k / p.g) (32 * (k % p.g) + n)

/-- The value of b(k, n) with its scale (R104, R107). -/
def bValue (s : State) (pk : Nat) (e : MEntry) (p : ProductRow) (k n : Nat) : FV :=
  let v := codeValue (fld (tileConf s pk (tileB e)) 0 4) (bBits s pk e p k n)
  if p.scale = 0 then v else fvMul v (codeValue 8 (tileElem s pk (scaleTile s pk (tileB e)) 8 (k / 32) n))

/-- The pairs of a column of A and a logical k that group `g` of sixteen sums for row `m`: all sixteen, or for MMAS those two of every four
that the metadata names (R118, R119, R327). -/
def summed (s : State) (pk : Nat) (e : MEntry) (p : ProductRow) (m g : Nat) : List (Nat × Nat) :=
  if p.md = 0 then (List.range 16).map fun j => (16 * g + j, 16 * g + j)
  else (List.range 4).flatMap fun j =>
    let q := 4 * g + j
    [(2 * q, 4 * q + nibble s pk e m q % 4), (2 * q + 1, 4 * q + nibble s pk e m q / 4)]

/-- The word (m, n) of a product from the word `z` it had: MMAF rounds behind every k (R120), INT8 sums exactly modulo 2^32, the others round
the exact sum of each group once, −0 where every product is, and add the groups in ascending order (R118, R119). -/
def productWord (s : State) (pk : Nat) (e : MEntry) (p : ProductRow) (m n z : Nat) : Nat :=
  let add (x : Nat) (v : FV) : Nat := rne fmtFp32 (fvAdd (fvOf fmtFp32 x) v)
  if p.op = .mmaf then
    (List.range 32).foldl (fun x k => add x (fvMul (aValue s pk e p m k k) (bValue s pk e p k n))) z
  else if p.fa = 5 then
    let signed (x : Nat) : Int := (BitVec.ofNat 8 x).toInt
    (BitVec.ofNat 32 z + BitVec.ofInt 32
      (((List.range (p.k / 16)).flatMap (summed s pk e p m)).map fun t =>
        signed (tileElem s pk (tileA e) 8 m t.1) * signed (bBits s pk e p t.2 n)).sum).toNat
  else
    (List.range (p.k / 16)).foldl (fun x g =>
      let exact := ((summed s pk e p m g).map fun t => fvMul (aValue s pk e p m t.1 t.2) (bValue s pk e p t.2 n)).foldl fvAdd (.fin true 0 0)
      add x (fvOf fmtFp32 (rne fmtFp32 exact))) z

/-- A poisoned row that the output row `m` reads (R127): A's row, a row of B that a product of it uses, or a scale of either. -/
def ReadsPoison (s : State) (pk : Nat) (e : MEntry) (p : ProductRow) (m : Nat) : Prop :=
  rowPoisoned s pk (tileA e) m ∨ (p.scale ≠ 0 ∧ rowPoisoned s pk (scaleTile s pk (tileA e)) m) ∨
  ∃ g < p.k / 16, ∃ t ∈ summed s pk e p m g,
    rowPoisoned s pk (tileB e) (t.2 / p.g) ∨ (p.scale ≠ 0 ∧ rowPoisoned s pk (scaleTile s pk (tileB e)) (t.2 / 32))

/-- One turn of the loop of R121 on the words hi and lo, from the exact term. -/
def compensated (hl : Nat × Nat) (t : FV) : Nat × Nat :=
  let val := fvOf fmtFp32
  let tHi := rne fmtFp32 t
  let tLo : FV := if fvFinite (val tHi) then val (rne fmtFp32 (fvAdd t (fvNeg (val tHi)))) else .fin false 0 0
  let sum := rne fmtFp32 (fvAdd (val hl.1) (val tHi))
  let err : FV := if fvFinite (val sum) then fvAdd (fvAdd (val hl.1) (val tHi)) (fvNeg (val sum)) else .fin false 0 0
  (sum, rne fmtFp32 (fvAdd (val hl.2) (val (rne fmtFp32 (fvAdd tLo err)))))

/-- The words hi and lo of part 0 (real) or 1 (imaginary) of element (m, n) after a CMMA (R121, R291): 16 elements of CF32 in a row. -/
def complexWord (s : State) (pk : Nat) (e : MEntry) (m n part : Nat) (hl : Nat × Nat) : Nat × Nat :=
  let a (k part : Nat) : FV := fvOf fmtFp32 (tileElem s pk (tileA e) 32 m (2 * k + part))
  let b (k part : Nat) : FV := fvOf fmtFp32 (tileElem s pk (tileB e) 32 k (2 * n + part))
  (List.range 16).foldl (fun hl k =>
    compensated hl (if part = 0 then fvAdd (fvMul (a k 0) (b k 0)) (fvNeg (fvMul (a k 1) (b k 1)))
      else fvAdd (fvMul (a k 0) (b k 1)) (fvMul (a k 1) (b k 0)))) hl

/-- The cycles of an entry (R117, R189, R319): one for each row step of 64 bytes. -/
def entryCycles (s : State) (pk : Nat) (e : MEntry) : Nat :=
  let tile (i : Nat) : Nat := (fld (tileConf s pk i) 4 6 + 1) * max 1 (rowLen (tileConf s pk i) / 64)
  match e.op with
  | .mcfg => 1
  | .mld | .mldw => tile (fld e.t 0 4)
  | .mstRaw => if fld e.t 0 5 < 16 then tile (fld e.t 0 5) else 64
  | .mstF32 | .mzero => 64
  | .mstBf16 | .mma | .mmas => 32
  | .mmaf | .cmma => 128

/-- The head takes step `k`, and the queue stays as it is. -/
def Steps (s : State) (pk : Nat) (e : MEntry) (l : List MEntry) (k : Nat) (Q : State → Prop) : Prop :=
  ∃ s', exec (.matrixEntryExecute pk) s = .next s' ∧ (getPier s' pk).mstep = k + 1 ∧ (getPier s' pk).mq = e :: l ∧
    (getPier s' pk).mrun.isSome = true ∧ Q s'

end Sys2Proof.Claims

/-- An mx trigger with a clean value puts its operation with its captured values at the end of the matrix queue, released unless
its staged bit is set and no credit waits, and does nothing else to the run. -/
def Sys2Proof.Claims.MatrixTriggersQueue : Prop :=
  ∀ (s : State) (m : Mv) (t a : Value), Claims.Fires s m t → t.poison = false → (curPier s).mq.length < 16 →
    let n := Claims.fld (vsc t) 10 9
    (∀ i op port, (i, op, port) ∈ Claims.mxForms m → (n < 496 ∨ n = 511 ∨ curService s = true) →
      (port = true → Claims.Port s .mxA a ∧ a.poison = false) → Claims.mstSource op (Claims.fld (vsc t) 0 5) →
      ∃ s', exec i s = .next s' ∧ Claims.Queued s s' op (vsc t) (if port then vsc a else 0)) ∧
    (Claims.Port s .mxA a → a.poison = false → Claims.TileFits (vsc t) →
      ∃ s', exec (.mcfg m) s = .next s' ∧ Claims.Queued s s' .mcfg (vsc t) (vsc a))

/-- An mx trigger faults with 0x0D where it names a service sluice outside a run of the service actor, MST and MCFG with 0x03
where the source or the configuration is none they take, and every one with 0x0C on a poisoned value; a full queue holds it. -/
def Sys2Proof.Claims.MatrixTriggerFaults : Prop :=
  ∀ (s : State) (m : Mv) (t a : Value), Claims.Fires s m t → Claims.Port s .mxA a → a.poison = false →
    let n := Claims.fld (vsc t) 10 9
    ((curPier s).mq.length < 16 →
      (∀ i op port, (i, op, port) ∈ Claims.mxForms m →
        (t.poison = true → exec i s = .next (raise s 7 0x0C (moveWord s t) 0)) ∧
        (t.poison = false → 496 ≤ n → n ≤ 510 → curService s = false →
          exec i s = .next (raise s 7 0x0D (moveWord s t) (BitVec.ofNat 64 n))) ∧
        (t.poison = false → n < 496 → ¬Claims.mstSource op (Claims.fld (vsc t) 0 5) →
          ∃ w3, exec i s = .next (raise s 7 0x03 (moveWord s t) w3))) ∧
      (t.poison = false → ¬Claims.TileFits (vsc t) → exec (.mcfg m) s = .next (raise s 7 0x03 (moveWord s t) (vsc t)))) ∧
    (16 ≤ (curPier s).mq.length → t.poison = false → n < 496 →
      ∀ i op port, (i, op, port) ∈ Claims.mxForms m → Claims.mstSource op (Claims.fld (vsc t) 0 5) → exec i s = .next (markHeld s))

/-- A cycle of the matrix queue. A head that is not released, or was triggered in this cycle, waits. The first of its checks that fails
freezes the run that triggered it with the code and w3 of the check, and the accumulators stay as they are: a tile or accumulator that is
not current gives 0x17, one of the wrong shape 0x0E (R227, R323, R325, R326, R331, R290). -/
def Sys2Proof.Claims.MatrixEntryChecks : Prop :=
  ∀ (s : State) (pk : Nat) (e : MEntry) (l : List MEntry),
    ((getPier s pk).mq = e :: l → (getPier s pk).mrun = none → (e.released = false ∨ s.cycle ≤ e.at_) →
      exec (.matrixEntryExecute pk) s = .next s) ∧
    (Claims.HeadBegins s pk e l → ∀ c code w3, Claims.EntryChecks s pk e c → Claims.FirstFails c code w3 →
      Claims.EntryFails s pk e l code w3) ∧
    (Claims.HeadBegins s pk e l → Claims.Passes s pk e →
      ∃ s', exec (.matrixEntryExecute pk) s = .next s' ∧ (getPier s' pk).mq = e :: l ∧ (getPier s' pk).mrun = some e.tok)

/-- MCFG writes its tile's configuration, claims the tile and makes it current, and changes no contents. MZERO clears a slot in each of its
64 steps, and with the last makes the accumulator current and claims it. -/
def Sys2Proof.Claims.MatrixSetsUp : Prop :=
  ∀ (s : State) (pk : Nat) (e : MEntry) (l : List MEntry) (k : Nat), Claims.HeadSteps s pk e l k →
    (e.op = .mcfg → k = 0 →
      let i := Claims.fld e.a 0 4
      Claims.Steps s pk e l k fun s' =>
        Claims.tileConf s' pk i = e.t ∧ fget (getPier s' pk).claims i none = some e.actor.toNat ∧
        (Claims.tileOf s' pk i).current = true ∧ (∀ j q, Claims.slot s' pk j q = Claims.slot s pk j q) ∧ Claims.SameMemory s s') ∧
    (e.op = .mzero → k < 64 →
      let z := 16 + Claims.fld e.t 0 2
      Claims.Steps s pk e l k fun s' =>
        Claims.slot s' pk z k = 0 ∧ (∀ w, w / 16 = k → fget (Claims.tileOf s' pk z).poison w false = false) ∧
        (∀ j q, ¬(j = z ∧ q = k) → Claims.slot s' pk j q = Claims.slot s pk j q) ∧
        (k = 63 → (Claims.tileOf s' pk z).current = true ∧ fget (getPier s' pk).claims z none = some e.actor.toNat) ∧
        Claims.SameMemory s s')

/-- A product at its first step: every word of its accumulator takes its sum, an element whose row reads a poisoned row is poisoned and
stays so, and no other tile changes. Nothing sees a product before it is complete (R174); the model writes it at the first step. -/
def Sys2Proof.Claims.MatrixProducts : Prop :=
  ∀ (s : State) (pk : Nat) (e : MEntry) (l : List MEntry), Claims.HeadBegins s pk e l → Claims.Passes s pk e →
    (∀ p ∈ Claims.productRows, p.op = e.op → p.fa = Claims.fld (Claims.tileConf s pk (Claims.tileA e)) 0 4 →
      let z := Claims.accZ e
      Claims.Steps s pk e l 0 fun s' =>
        (∀ w < 1024, Claims.accAt (getSite s' (siteKey s pk)) z w =
          Claims.productWord s pk e p (w / 32) (w % 32) (Claims.accAt (getSite s (siteKey s pk)) z w) % 2 ^ 32) ∧
        (∀ w < 1024, fget (Claims.tileOf s' pk z).poison w false = true ↔
          fget (Claims.tileOf s pk z).poison w false = true ∨ Claims.ReadsPoison s pk e p (w / 32)) ∧
        (∀ i, i ≠ z → Claims.tileOf s' pk i = Claims.tileOf s pk i) ∧ Claims.SameMemory s s') ∧
    (e.op = .cmma →
      let h := Claims.accZ e
      let x := getSite s (siteKey s pk)
      let v (w : Nat) : Nat × Nat :=
        Claims.complexWord s pk e (w / 32) (w % 32 / 2) (w % 2) (Claims.accAt x h w, Claims.accAt x (h + 1) w)
      let poisoned (w : Nat) : Prop :=
        Claims.rowPoisoned s pk (Claims.tileA e) (w / 32) ∨ ∃ k < 16, Claims.rowPoisoned s pk (Claims.tileB e) k
      Claims.Steps s pk e l 0 fun s' =>
        (∀ w < 1024, Claims.accAt (getSite s' (siteKey s pk)) h w = (v w).1 % 2 ^ 32 ∧
          Claims.accAt (getSite s' (siteKey s pk)) (h + 1) w = (v w).2 % 2 ^ 32) ∧
        (∀ j ∈ [h, h + 1], ∀ w < 1024, fget (Claims.tileOf s' pk j).poison w false = true ↔
          fget (Claims.tileOf s pk j).poison w false = true ∨ poisoned w) ∧
        (∀ i, i ≠ h → i ≠ h + 1 → Claims.tileOf s' pk i = Claims.tileOf s pk i) ∧ Claims.SameMemory s s')

/-- The row steps of the matrix queue: a load takes the next 64 bytes, or a shorter row, from the scratchpad or the weight store
into its slot of the tile, which its last step makes current; a store writes them from a tile, from an accumulator, from its words rounded
to BF16 or from the sums of a pair; a load of weights waits out a refresh. -/
def Sys2Proof.Claims.MatrixRowSteps : Prop :=
  ∀ (s : State) (pk : Nat) (e : MEntry) (l : List MEntry) (k : Nat), Claims.HeadSteps s pk e l k →
    let i := Claims.fld e.t 0 4
    let src := Claims.fld e.t 0 5
    (e.op = .mld ∨ e.op = .mldw →
      let w := Claims.tileConf s pk i
      let at_ := Claims.stepAt e.a (Claims.rowLen w) (Claims.fld w 16 16) k
      let n := at_.1 * max 1 (Claims.rowLen w / 64) + at_.2.1
      let loads (f : Nat → Byte) : Prop := Claims.Steps s pk e l k fun s' =>
        (∀ b < min (Claims.rowLen w) 64, Claims.rowByte (Claims.slot s' pk i n) b = f (at_.2.2 + b)) ∧
        (∀ j q, ¬(j = i ∧ q = n) → Claims.slot s' pk j q = Claims.slot s pk j q) ∧
        (Claims.entryCycles s pk e ≤ k + 1 → (Claims.tileOf s' pk i).current = true) ∧ Claims.SameMemory s s'
      (e.op = .mld → loads (Claims.spadByte s pk)) ∧
      (e.op = .mldw →
        (refreshWait (getMod s (pkMod pk)).cyc (at_.2.2 / 2 ^ 17) = 0 → loads (mget (getSite s (siteKey s pk)).slice)) ∧
        (refreshWait (getMod s (pkMod pk)).cyc (at_.2.2 / 2 ^ 17) ≠ 0 →
          ∃ s', exec (.matrixEntryExecute pk) s = .next s' ∧ (getPier s' pk).mstep = k ∧ s'.sites = s.sites ∧
            Claims.SameMemory s s'))) ∧
    (e.op = .mstRaw ∨ e.op = .mstBf16 ∨ e.op = .mstF32 →
      let h := Claims.storeShape s pk e
      let at_ := Claims.stepAt e.a h.2.1 h.2.2 k
      let o := at_.2.2
      let n := min h.2.1 64
      let z := getSite s (siteKey s pk)
      let word (c : Nat) : FV := fvOf fmtFp32 (Claims.accAt z src c)
      let byte (b : Nat) : Nat :=
        if e.op = .mstRaw then (Claims.rowByte (Claims.slot s pk src (at_.1 * max 1 (h.2.1 / 64) + at_.2.1)) b).toNat
        else if e.op = .mstBf16 then rne fmtBf16 (word (32 * at_.1 + b / 2)) / 256 ^ (b % 2) % 256
        else
          let c := 32 * at_.1 + 16 * at_.2.1 + b / 4
          rne fmtFp32 (fvAdd (word c) (fvOf fmtFp32 (Claims.accAt z (src + 1) c))) / 256 ^ (b % 4) % 256
      (e.op ≠ .mstRaw → 16 ≤ src) →
      Claims.Steps s pk e l k fun s' =>
        (∀ b < n, (Claims.spadByte s' pk (o + b)).toNat = Claims.kept (o + b) (byte b)) ∧
        (∀ q a, ¬(q = pk ∧ o ≤ a ∧ a < o + n) → mget (getPier s' q).spad a = mget (getPier s q).spad a) ∧
        (∀ j, Claims.tileOf s' pk j = Claims.tileOf s pk j) ∧
        (o + n ≤ 0x3FF80 ∨ 0x3FF88 ≤ o → s'.sites = s.sites) ∧ s'.mods = s.mods)

/-- A matrix entry that has taken its last step leaves the queue, and its completion sluice, unless it names none, receives 1; a sluice that
is no counter takes nothing, and a deferred record of code 0x10 for the triggering bundle is made, which freezes nothing (R220, R319). -/
def Sys2Proof.Claims.MatrixEntryCompletes : Prop :=
  ∀ (s : State) (pk : Nat) (e : MEntry) (l : List MEntry), (getPier s pk).mq = e :: l → (getPier s pk).mrun = some e.tok →
    Claims.entryCycles s pk e ≤ (getPier s pk).mstep →
    let n := Claims.fld e.t 10 9
    ((e.op = .mcfg ∨ n = 511 ∨ Claims.QuietCounter s pk n) →
      ∃ s', exec (.matrixEntryComplete pk) s = .next s' ∧ (getPier s' pk).mq = l ∧ (getPier s' pk).mrun = none ∧
        (e.op ≠ .mcfg → n ≠ 511 → (getSluice s' pk n).count = (getSluice s pk n).count + 1) ∧
        (∀ k, k ≠ n → getSluice s' pk k = getSluice s pk k) ∧ Claims.SameMemory s s') ∧
    (e.op ≠ .mcfg → n ≠ 511 → Claims.fld (getSluice s pk n).action 62 2 ≠ 1 →
      ∃ s' d, exec (.matrixEntryComplete pk) s = .next s' ∧ (getPier s' pk).mq = l ∧ (getPier s' pk).mrun = none ∧
        (∀ k, getSluice s' pk k = getSluice s pk k) ∧ (getPier s' pk).strands = (getPier s pk).strands ∧ Claims.SameMemory s s' ∧
        Work.ev (.deferredFaultReport d) ∈ s'.agenda ∧ d.code = 0x10 ∧ d.w3 = BitVec.ofNat 64 n ∧ d.bundle = e.bundle ∧
        d.strand = e.strand ∧ d.runid = e.runid ∧ d.actor = e.actor.toNat)

namespace Sys2Proof.Claims

/-- The keystone functions in the order of their numbers (R307). -/
def kfForms (m : Mv) (bf : Bool) : List (Instr × Nat) :=
  [ (.kexp m bf, 0), (.kexp2 m bf, 1), (.klog m bf, 2), (.klog2 m bf, 3), (.krcp m bf, 4), (.krsq m bf, 5), (.ksqrt m bf, 6)
  , (.ksin m bf, 7), (.kcos m bf, 8), (.ktanh m bf, 9), (.ksigm m bf, 10), (.kerf m bf, 11) ]

/-- The keystone of a pier (R19): one for each column of a span. -/
def keystone (s : State) (pk : Nat) : Nat := siteOf s pk / 256 * 16 + siteOf s pk % 16

/-- The requests that wait at a keystone. -/
def kfQueue (s : State) (m k : Nat) : List KReq := (fget (getMod s m).keystones k {}).reqs

/-- A message of the run in hand (R243, R338): its source, its count, its job and graph. -/
structure FromRun (s : State) (g : Msg) : Prop where
  mod : g.smod = BitVec.ofNat 12 (pkMod s.issue.pk)
  pier : g.spier = (curStrand s).lp
  actor : g.sact = (curStrand s).actor
  seq : g.seq = (curActor s).seq
  job : g.job = jobOf s s.issue.pk
  graph : g.graph = (curActor s).graph

/-- The destination, class and priority of port a, and length, tag and re-seed flag of T (R337). -/
structure Addressed (a t : Word) (g : Msg) : Prop where
  dst : msgDst g = a.extractLsb' 0 28
  cls : g.cls = a.extractLsb' 28 5
  prio : g.prio = a.extractLsb' 33 2
  tag : g.tag = t.extractLsb' 0 16
  words : g.words = t.extractLsb' 16 3

/-- A payload of the first `n` words of a source, with the poison of each (R338). -/
def Carries (g : Msg) (f : Nat → Value) (n : Nat) : Prop :=
  g.pay = (List.range n).map (fun i => vsc (f i)) ∧
  ∀ i < 6, g.poison.getLsbD i = (decide (i < n) && (f i).poison)

/-- The state after a send: one more entry of the run in the outbox, the actor's count advanced, ms's ports empty, registers and
memory unchanged. -/
structure Sent (s t : State) (ok : OutEntry → Prop) : Prop where
  entry : ∃ e ∈ (curPier t).outbox, e.tok = s.tok ∧ e.actor = (curStrand s).actor.toNat ∧ e.runid = (curStrand s).runid ∧
    e.bundle = s.issue.addr ∧ e.strand = s.issue.strand ∧ ok e
  length : (curPier t).outbox.length = (curPier s).outbox.length + 1
  count : (curActor t).seq = (curActor s).seq + 1
  memory : SameMemory s t
  regs : SameRegs (curStrand s) (curStrand t)
  ports : ∀ i, i / 4 ≠ 0x29 → resPort (curStrand t) i = resPort (curStrand s) i
  strands : ∀ pk st, ¬(pk = s.issue.pk ∧ st = s.issue.strand) → getStrand t pk st = getStrand s pk st
  actors : ∀ n, n ≠ curActorIx s → getActor t s.issue.pk n = getActor s s.issue.pk n
  sluices : ∀ pk n, getSluice t pk n = getSluice s pk n

/-- A send may go (R50, R152): room in the outbox, no earlier gm request unacknowledged. -/
def SendReady (s : State) : Prop := (curPier s).outbox.length < 64 ∧ gmEntries s = []

/-- The two sends to an address with the kind of each (R243, R337). -/
def sends (m : Mv) : List (Instr × BitVec 3) := [(.send m, 0), (.reply m, 1)]

end Sys2Proof.Claims

/-- A keystone trigger takes the lowest free in-flight entry, makes kf.r wait and joins the requests of its keystone; with 32 of
its pier's unserved, or no free entry, it holds its bundle. -/
def Sys2Proof.Claims.KeystoneTriggers : Prop :=
  ∀ (s : State) (m : Mv) (bf : Bool) (t : Value) (i : Instr) (fn : Nat), Claims.Fires s m t → (i, fn) ∈ Claims.kfForms m bf →
    let pk := s.issue.pk
    let k := Claims.keystone s pk
    let mine := (Claims.kfQueue s (pkMod pk) k).filter fun r => r.pk == pk
    ((freeEntry (curStrand s) = none ∨ 32 ≤ mine.length) → exec i s = .next (markHeld s)) ∧
    ∀ n, freeEntry (curStrand s) = some n → mine.length < 32 →
      ∃ s', exec i s = .next s' ∧ resPort (curStrand s') 0x0A0 = .pending s.tok ∧
        (∃ e, fget (curStrand s').inf n none = some e ∧ e.kind = .kf ∧ e.tok = s.tok) ∧
        Claims.kfQueue s' (pkMod pk) k = Claims.kfQueue s (pkMod pk) k ++
          [{ pk, strand := s.issue.strand, entry := n, tok := s.tok, fn, bf, v := t }] ∧
        Claims.SameMemory s s' ∧ Claims.RunFrame s s' 8

/-- A keystone accepts the oldest request of the first row after the one it served last that has one, and its result is due 24
cycles on: the function of every valid element, poisoned when the operand is; a BF16 element is widened and its result rounded. -/
def Sys2Proof.Claims.KeystoneAccepts : Prop :=
  ∀ (s : State) (m k : Nat) (r : KReq) (pre post : List KReq), Claims.kfQueue s m k = pre ++ r :: post →
    (∀ q ∈ pre ++ post, q.tok ≠ r.tok) →
    let row (q : KReq) : Nat := siteOf s q.pk / 16 % 16
    let after (q : KReq) : Nat := (row q + 15 * ((fget (getMod s m).keystones k {}).last + 1)) % 16
    (∀ q ∈ pre, after r < after q) → (∀ q ∈ post, after r ≤ after q) →
    ∃ s' v mask, exec (.keystoneAccept m k) s = .next s' ∧ Claims.kfQueue s' m k = pre ++ post ∧
      (fget (getMod s' m).keystones k {}).last = row r ∧
      (s.cycle + 24, Instr.keystoneResult r.pk r.strand r.entry r.tok ⟨.vec v mask, r.v.poison⟩) ∈ s'.cal ∧ mask = vmaskOf r.v ∧
      (r.bf = false → ∀ i < 16, Claims.elem 32 v i =
        if (vmaskOf r.v).getLsbD i then kfElem r.fn (Claims.elem 32 (vlanes r.v) i) % 2 ^ 32 else 0) ∧
      (r.bf = true → ∀ i < 32, Claims.elem 16 v i =
        if (vmaskOf r.v).getLsbD (i / 2) then
          rne fmtBf16 (fvOf fmtFp32 (kfElem r.fn (Claims.elem 16 (vlanes r.v) i * 2 ^ 16))) % 2 ^ 16 else 0) ∧
      Claims.SameMemory s s'

/-- A keystone's result lands in kf.r if the port still waits for it, and frees its in-flight entry. -/
def Sys2Proof.Claims.KeystoneResultLands : Prop :=
  ∀ (s : State) (pk st entry tok : Nat) (v : Value) (e : Inflight), fget (getStrand s pk st).inf entry none = some e → e.tok = tok →
    ∃ s', exec (.keystoneResult pk st entry tok v) s = .next s' ∧ fget (getStrand s' pk st).inf entry none = none ∧
      (resPort (getStrand s pk st) 0x0A0 = .pending tok → resPort (getStrand s' pk st) 0x0A0 = .full v) ∧
      (∀ i, resPort (getStrand s pk st) i ≠ .pending tok → resPort (getStrand s' pk st) i = resPort (getStrand s pk st) i) ∧
      Claims.SameRegs (getStrand s pk st) (getStrand s' pk st) ∧ Claims.SameMemory s s'

/-- The results of the keystone operations, by their number, at −infinity, −0, +0 and +infinity (R116). -/
def Sys2Proof.Claims.keySpecials : List (Nat × List Nat) :=
  [ (0, [0, 0x3F800000, 0x3F800000, 0x7F800000]), (1, [0, 0x3F800000, 0x3F800000, 0x7F800000])
  , (2, [0x7FC00000, 0xFF800000, 0xFF800000, 0x7F800000]), (3, [0x7FC00000, 0xFF800000, 0xFF800000, 0x7F800000])
  , (4, [0x80000000, 0xFF800000, 0x7F800000, 0]), (5, [0x7FC00000, 0xFF800000, 0x7F800000, 0])
  , (6, [0x7FC00000, 0x80000000, 0, 0x7F800000]), (7, [0x7FC00000, 0x80000000, 0, 0x7FC00000])
  , (8, [0x7FC00000, 0x3F800000, 0x3F800000, 0x7FC00000]), (9, [0xBF800000, 0x80000000, 0, 0x3F800000])
  , (10, [0, 0x3F000000, 0x3F000000, 0x3F800000]), (11, [0xBF800000, 0x80000000, 0, 0x3F800000]) ]

/-- Half way between the positive FP32 number of bits `r` and the one after it; after the largest comes 2^128 (R104, R109). -/
def Sys2Proof.Claims.halfAfter (r : Nat) : FV :=
  .fin false (2 * (if r < 2 ^ 23 then r else 2 ^ 23 + r % 2 ^ 23) + 1) (((max 1 (r / 2 ^ 23) : Nat) : Int) - 151)

/-- The bits `r` are a positive value rounded correctly in RNE (R108, R109): neither side of `r` is nearer, and a tie takes the even one.
`below` and `above` compare a number with the value: at most it, at least it. -/
def Sys2Proof.Claims.Correct (r : Nat) (below above : FV → Bool) : Prop :=
  r ≤ 0x7F800000 ∧
  (0 < r → below (Claims.halfAfter (r - 1)) = true ∧ (above (Claims.halfAfter (r - 1)) = true → r % 2 = 0)) ∧
  (r < 0x7F800000 → above (Claims.halfAfter r) = true ∧ (below (Claims.halfAfter r) = true → r % 2 = 0))

/-- SEND and REPLY put one message into the outbox: to the address, class and priority of port a, with length, tag and re-seed
flag of T, the q-words as payload, in the name of the run's actor, whose sequence count advances; its kind is a service command
where the destination is actor 63. -/
def Sys2Proof.Claims.SendAndReply : Prop :=
  ∀ (s : State) (m : Mv) (t a : Value) (i : Instr) (kind : BitVec 3), Claims.Fires s m t → Claims.Port s .msA a → t.poison = false →
    a.poison = false → (i, kind) ∈ Claims.sends m → Claims.SendReady s → Claims.fld (vsc t) 16 3 ≤ 6 →
    (Claims.fld (vsc a) 28 5 < 30 ∨ Claims.fld (vsc a) 0 6 = 63 ∨ curService s = true) →
    ∃ s', exec i s = .next s' ∧ Claims.Sent s s' fun e => ∃ g, e.body = .msg g ∧ Claims.FromRun s g ∧
      Claims.Addressed (vsc a) (vsc t) g ∧ g.kind = (if Claims.fld (vsc a) 0 6 = 63 then 6 else kind) ∧
      Claims.Carries g (readQ (curStrand s)) (Claims.fld (vsc t) 16 3) ∧ g.flags.getLsbD 0 = (vsc t).getLsbD 19 ∧
      g.flags.getLsbD 1 = false

/-- FWD sends the run's p-words on, in the name of the original sender unless the destination is actor 63. -/
def Sys2Proof.Claims.ForwardKeepsSender : Prop :=
  ∀ (s : State) (m : Mv) (t a : Value), Claims.Fires s m t → Claims.Port s .msA a → t.poison = false → a.poison = false →
    Claims.SendReady s → Claims.fld (vsc t) 16 3 ≤ 6 →
    (Claims.fld (vsc a) 28 5 < 30 ∨ Claims.fld (vsc a) 0 6 = 63 ∨ curService s = true) →
    ∃ s', exec (.fwd m) s = .next s' ∧ Claims.Sent s s' fun e => ∃ g, e.body = .msg g ∧ Claims.Addressed (vsc a) (vsc t) g ∧
      Claims.Carries g (readP (curStrand s)) (Claims.fld (vsc t) 16 3) ∧ g.seq = (curActor s).seq ∧
      (if Claims.fld (vsc a) 0 6 = 63 then g.kind = 6 ∧ Claims.FromRun s g
       else g.kind = 0 ∧ g.smod = (curStrand s).hdr.smod ∧ g.spier = (curStrand s).hdr.spier ∧ g.sact = (curStrand s).hdr.sact)

/-- MCAST and SEND.red put one entry for their group into the outbox: a multicast message with its flag, of the group's class and
priority, or a reduction contribution to the group's result address. -/
def Sys2Proof.Claims.GroupSends : Prop :=
  ∀ (s : State) (m : Mv) (t a : Value), Claims.Fires s m t → Claims.Port s .msA a → t.poison = false → a.poison = false →
    Claims.SendReady s → Claims.fld (vsc t) 16 3 ≤ 6 →
    let gid := Claims.fld (vsc a) 0 8
    let hdr := (fget (getMod s (pkMod s.issue.pk)).groups gid {}).hdr
    (∃ s', exec (.mcast m) s = .next s' ∧ Claims.Sent s s' fun e => ∃ g, e.body = .mcast gid g ∧ Claims.FromRun s g ∧
      g.cls = hdr.extractLsb' 52 5 ∧ g.prio = hdr.extractLsb' 50 2 ∧ g.flags.getLsbD 1 = true ∧
      Claims.Carries g (readQ (curStrand s)) (Claims.fld (vsc t) 16 3)) ∧
    ∃ s', exec (.sendRed m) s = .next s' ∧ Claims.Sent s s' fun e => ∃ g, e.body = .reduce gid g ∧ Claims.FromRun s g ∧
      g.kind = 0b111 ∧ msgDst g = hdr.extractLsb' 0 28 ∧ Claims.Carries g (readQ (curStrand s)) (Claims.fld (vsc t) 16 3)

/-- A send faults with 0x03 on a length of 7, and one of class 30 or 31 to any actor but 63 with 0x0D outside a run of the service
actor; with the outbox full or an earlier gm request open it holds its bundle. -/
def Sys2Proof.Claims.SendFaultsAndHolds : Prop :=
  ∀ (s : State) (m : Mv) (t a : Value), Claims.Fires s m t → Claims.Port s .msA a → t.poison = false → a.poison = false →
    (Claims.SendReady s → Claims.fld (vsc t) 16 3 = 7 → ∀ i ∈ [Instr.send m, .reply m, .fwd m, .sendRed m],
      exec i s = .next (raise s 9 0x03 (moveWord s t) (vsc t))) ∧
    (Claims.SendReady s → Claims.fld (vsc t) 16 3 = 7 → exec (.mcast m) s = .next (raise s 9 0x03 (moveWord s t) 4)) ∧
    (Claims.SendReady s → Claims.fld (vsc t) 16 3 ≤ 6 → 30 ≤ Claims.fld (vsc a) 28 5 → Claims.fld (vsc a) 0 6 ≠ 63 →
      curService s = false → ∀ i ∈ [Instr.send m, .reply m, .fwd m], exec i s = .next (raise s 9 0x0D (moveWord s t) (vsc a))) ∧
    ((64 ≤ (curPier s).outbox.length ∧ s.issue.fault = none) ∨ gmEntries s ≠ [] → Claims.fld (vsc t) 16 3 ≤ 6 →
      (Claims.fld (vsc a) 28 5 < 30 ∨ Claims.fld (vsc a) 0 6 = 63) →
      ∀ i ∈ [Instr.send m, .reply m, .fwd m, .sendRed m, .mcast m], exec i s = .next (markHeld s))

/-- MSTAT gives the state of the outbox, of the actor's inbox and spillway, or of the entries for a destination, two cycles on;
the last one faults where port a is not written, and other items fault. -/
def Sys2Proof.Claims.MessageStatus : Prop :=
  ∀ (s : State) (m : Mv) (t : Value), Claims.Fires s m t →
    let item := Claims.fld (vsc t) 0 3
    let gives (r : Word) (p : Bool) : Prop := exec (.mstat m) s = .next (Claims.later s 9 2 (Claims.scalar r p) none)
    (item = 0 → ∃ r, gives r t.poison ∧ Claims.fld r 0 8 = min 64 (curPier s).outbox.length ∧
      Claims.fld r 8 8 = ((curPier s).outbox.filter fun e => e.retry).length % 128 ∧
      Claims.fld r 16 16 = (curActor s).seq.toNat) ∧
    (item = 1 → ∃ r, gives r t.poison ∧
      Claims.fld r 0 16 = ((curPier s).inbox.filter fun x => x.msg.dact.toNat == curActorIx s).length % 1024 ∧
      r.getLsbD 16 = (decide ((curActor s).spilled ≠ []) || decide ((curActor s).transit ≠ 0)) ∧
      Claims.fld r 32 32 = (curActor s).spilled.length % 2 ^ 32) ∧
    (∀ a, item = 2 → Claims.Port s .msA a → ∃ r, gives r (t.poison || a.poison) ∧
      let l := (curPier s).outbox.filter (entryFor s (curActorIx s) ((vsc a).extractLsb' 0 28))
      Claims.fld r 0 8 = l.length % 128 ∧ (∀ e, l.head? = some e → r.getLsbD 8 = e.refused) ∧ (l = [] → r.getLsbD 8 = false)) ∧
    (item = 2 → opPort (curStrand s) .msA = none →
      exec (.mstat m) s = .next (raise s 9 0x05 (moveWord s t) (BitVec.ofNat 64 OpSel.msA.index))) ∧
    (3 ≤ item → exec (.mstat m) s = .next (raise s 9 0x03 (moveWord s t) 5))

namespace Sys2Proof.Claims

/-- The sluice port a names (R341). -/
def slNo (a : Value) : Nat := fld (vsc a) 0 9

/-- The count has reached the target (R59). -/
def reached (count target : BitVec 32) : Prop := (count - target).toNat < 2 ^ 31

/-- The run may touch the sluice (R342). -/
def SlAllowed (s : State) (n : Nat) : Prop := n < 496 ∨ curService s = true

/-- A sluice trigger that changes one sluice of the pier and nothing else. -/
structure SluiceOnly (s t : State) (n : Nat) : Prop where
  others : ∀ pk k, ¬(pk = s.issue.pk ∧ k = n) → getSluice t pk k = getSluice s pk k
  regs : SameRegs (curStrand s) (curStrand t)
  ports : ∀ i, i / 4 ≠ 0x2A → resPort (curStrand t) i = resPort (curStrand s) i
  strands : ∀ pk st, ¬(pk = s.issue.pk ∧ st = s.issue.strand) → getStrand t pk st = getStrand s pk st
  actors : ∀ pk, (getPier t pk).actors = (getPier s pk).actors
  messages : ∀ pk, (getPier t pk).inbox = (getPier s pk).inbox ∧ (getPier t pk).outbox = (getPier s pk).outbox
  memory : SameMemory s t

/-- What a firing that posts and releases nothing leaves (R59, R60): the phase moves on, the target moves by the re-arm value,
which also says whether the sluice stays armed, and the check comes again in the next cycle. -/
def fired (x : Sluice) (cycle : Nat) : Sluice :=
  { x with phase := x.phase + 1, target := x.target + x.action.extractLsb' 0 32, armed := x.action.extractLsb' 0 32 != 0,
           firedAt := some cycle, again := true }

/-- The answer of a status to where it came from is under way (R245). -/
def Acked (t : State) (e : AckTo) (status : BitVec 3) : Prop := ∃ due, (due, Instr.acknowledgement e status) ∈ t.cal

/-- Nothing that the run has under way at its own pier is covered by a local sluice operation (R169): no earlier gm access of
the run is to its own pier, and its bundle has made none; and no other strand of the pier has one that waits in its bundle, which could
meet this one in the cycle (R63). -/
structure NothingCovered (s : State) : Prop where
  earlier : ∀ e ∈ gmEntries s, inScope s .pier e = false
  here : gmHere s = []
  alone : ∀ e ∈ (curPier s).strands, e.1 ≠ s.issue.strand → e.2.owed = []

/-- A sluice operation of another strand of the pier that waited in its bundle is made in this cycle: the strand has no gm access open. -/
def AnotherMade (s : State) : Prop :=
  ∃ e ∈ (curPier s).strands, e.1 ≠ s.issue.strand ∧ (∀ q ∈ e.2.inf, q.2 = none) ∧
    ∃ o l, e.2.owed = o :: l ∧ ∀ a c, o.op ≠ .stream a c

/-- The action word that SARM leaves: reserved bits of its mode read zero (R5, R58). -/
def armed (t : Word) : Word :=
  match fld t 62 2 with
  | 0 => t
  | 1 => t &&& ~~~0x00007E0000000000
  | 2 => t &&& ~~~0x00007F8003FFFFFF
  | _ => t &&& ~~~0x00007C0003FFFFFF

/-- A sluice-add message from an outbox that arrives at a resident pier, neither fenced nor lost (R222, R234, R244). -/
structure Arrives (s : State) (a : SlAdd) (pk src tok : Nat) : Prop where
  frm : a.frm = .outbox src tok
  pier : pkOfAddr s a.mod a.pier a.job = some pk
  resident : residentOpen s pk = true
  up : (getPier s pk).lost = false ∧ (getPier s pk).fenced = false
  live : ∀ c ∈ (getPier s pk).cancels, addBelongs s c a = false

/-- The action of a sluice neither posts nor releases (R58). -/
def PlainAction (x : Sluice) : Prop := x.action.getLsbD 60 = false ∧ x.action.getLsbD 61 = false

end Sys2Proof.Claims

/-- SARM writes the action word, without the reserved bits of its mode: mode 0 disarms, mode 1 arms and is checked, a home of n
members starts with n leads of zero, a member keeps what it has; SSET writes count and target and, where asked, the phase, and is
checked; neither touches another sluice. -/
def Sys2Proof.Claims.SluiceArmAndSet : Prop :=
  ∀ (s : State) (m : Mv) (t a : Value), Claims.Fires s m t → Claims.Port s .slA a → t.poison = false → a.poison = false →
    let n := Claims.slNo a
    let x := getSluice s s.issue.pk n
    let T := vsc t
    let w := Claims.armed T
    Claims.SlAllowed s n → Claims.NoWaits s s.issue.pk → Claims.NothingCovered s →
    let gives (i : Instr) (y : Sluice) : Prop := ∃ s', exec i s = .next s' ∧ Claims.SluiceOnly s s' n ∧ getSluice s' s.issue.pk n = y
    let fires (y : Sluice) : Prop :=
      Claims.reached y.count y.target ∧ x.firedAt ≠ some s.cycle ∧ Claims.PlainAction y ∧ n < 496
    ((Claims.fld x.action 62 2 = 2 → ∀ l ∈ x.leads, l = 0) →
      (Claims.fld T 62 2 = 0 → gives (.sarm m) { x with action := w, armed := false, leads := [] }) ∧
      (Claims.fld T 62 2 = 1 →
        let y := { x with action := w, armed := true, leads := [] }
        (¬Claims.reached x.count x.target → gives (.sarm m) { y with again := false }) ∧
        (fires y → gives (.sarm m) (Claims.fired y s.cycle))) ∧
      (Claims.fld T 62 2 = 2 → 1 ≤ Claims.fld T 32 7 → Claims.fld T 32 7 ≤ 64 → Claims.fld T 26 6 < Claims.fld T 32 7 →
        leadsUsed (curPier s) - x.leads.length + Claims.fld T 32 7 ≤ 4096 →
        gives (.sarm m) { x with action := w, leads := List.replicate (Claims.fld T 32 7) 0 }) ∧
      (Claims.fld T 62 2 = 3 → gives (.sarm m) { x with action := w, leads := [] })) ∧
    let y := { x with count := T.extractLsb' 0 32, target := T.extractLsb' 32 32, armed := true,
                      phase := if (vsc a).getLsbD 16 then (vsc a).extractLsb' 17 2 else x.phase }
    ((Claims.fld x.action 62 2 ≠ 1 ∨ ¬Claims.reached y.count y.target) → gives (.sset m) { y with again := false }) ∧
    (Claims.fld x.action 62 2 = 1 → fires y → gives (.sset m) (Claims.fired y s.cycle))

/-- SADD adds T's low half to a counter; reaching the target of an armed one fires it: phase, target and arming move as the action
word says; one that has fired in this cycle is checked again in the next. A plain add changes only the count. -/
def Sys2Proof.Claims.SluiceAddAndFire : Prop :=
  ∀ (s : State) (m : Mv) (t a : Value), Claims.Fires s m t → Claims.Port s .slA a → t.poison = false → a.poison = false →
    let n := Claims.slNo a
    let x := getSluice s s.issue.pk n
    let c := x.count + (vsc t).extractLsb' 0 32
    Claims.SlAllowed s n → Claims.NoWaits s s.issue.pk → Claims.NothingCovered s → Claims.fld x.action 62 2 = 1 →
    ∃ s', exec (.sadd m) s = .next s' ∧
      (¬(x.armed = true ∧ Claims.reached c x.target) →
        Claims.SluiceOnly s s' n ∧ getSluice s' s.issue.pk n = { x with count := c, again := false }) ∧
      (x.armed = true → Claims.reached c x.target → x.firedAt = some s.cycle →
        Claims.SluiceOnly s s' n ∧ getSluice s' s.issue.pk n = { x with count := c, again := true }) ∧
      (x.armed = true → Claims.reached c x.target → x.firedAt ≠ some s.cycle → Claims.PlainAction x → n < 496 →
        Claims.SluiceOnly s s' n ∧ getSluice s' s.issue.pk n = Claims.fired { x with count := c } s.cycle)

/-- SADD, SSET and SARM wait for the run's earlier accesses to its own pier; beside one of their own bundle they are owed until it
is performed, and change no sluice before; so they are where an operation of another strand that waited is made in this cycle, so that those
of the cycle are made in the order of R63 behind the issue. That a covered operation waits so is the model's choice (log entries 15, 42). -/
def Sys2Proof.Claims.LocalSluiceReleases : Prop :=
  ∀ (s : State) (m : Mv) (t a : Value), Claims.Fires s m t → Claims.Port s .slA a → t.poison = false → a.poison = false →
    let n := Claims.slNo a
    let x := getSluice s s.issue.pk n
    Claims.SlAllowed s n → Claims.fld x.action 62 2 = 1 → Claims.fld (vsc t) 62 2 = 1 →
    ((∃ e ∈ gmEntries s, inScope s .pier e = true) →
      ∀ i ∈ [Instr.sadd m, .sset m, .sarm m], exec i s = .next (markHeld s)) ∧
    ((∀ e ∈ gmEntries s, inScope s .pier e = false) → (gmHereIn s .pier = true ∨ Claims.AnotherMade s) →
      ∀ i o, (i, o) ∈ [(Instr.sadd m, OwedOp.sadd n ((vsc t).extractLsb' 0 32)), (.sset m, .sset n (vsc a) (vsc t)), (.sarm m, .sarm n (vsc t))] →
        ∃ s', exec i s = .next s' ∧ Claims.Frame s s' 10 ∧
          (curStrand s').owed = (curStrand s).owed ++ [{ op := o, bundle := s.issue.addr, move := moveWord s t, slot := s.issue.slot }])

/-- A firing that posts sends its actor one ordinary message of the pier's device: class and priority of the action word, two payload words,
the sluice with its new phase, and the count; the service actor and a free one are addressed at the pier's own logical pier. -/
def Sys2Proof.Claims.FiringPosts : Prop :=
  ∀ (s : State) (m : Mv) (t a : Value), Claims.Fires s m t → Claims.Port s .slA a → t.poison = false → a.poison = false →
    let n := Claims.slNo a
    let x := getSluice s s.issue.pk n
    let c := x.count + (vsc t).extractLsb' 0 32
    let d := getActor s s.issue.pk (Claims.fld x.action 54 6)
    n < 496 → Claims.NoWaits s s.issue.pk → Claims.NothingCovered s → Claims.fld x.action 62 2 = 1 → x.armed = true →
    Claims.reached c x.target → x.firedAt ≠ some s.cycle → x.action.getLsbD 60 = true → x.action.getLsbD 61 = false →
    ∃ s' g, exec (.sadd m) s = .next s' ∧ Claims.InOutbox s' s.issue.pk g ∧
      getSluice s' s.issue.pk n = Claims.fired { x with count := c } s.cycle ∧
      g.cls = x.action.extractLsb' 49 5 ∧ g.prio = x.action.extractLsb' 47 2 ∧ g.kind = 0 ∧ g.sact = 63 ∧ g.words = 2 ∧
      g.dact = x.action.extractLsb' 54 6 ∧
      g.dpier = (if Claims.fld x.action 54 6 = 63 ∨ d.st = .free then BitVec.ofNat 10 (pkLp s.issue.pk) else d.lp) ∧
      g.pay = [BitVec.ofNat 64 (n + (x.phase + 1).toNat * 2 ^ 16), c.setWidth 64]

/-- A release at a pier (R60): the oldest unreleased staged entry of an actor is released, of the given key where there is one; with none in
the queue a credit is stored, and where sixteen are stored the release is discarded with a deferred record of code 0x10. -/
def Sys2Proof.Claims.Released (s t : State) (pk n actor : Nat) (key : Option (BitVec 9)) (bundle : BitVec 12) : Prop :=
  let p := getPier s pk
  let q := getPier t pk
  let hit (e : MEntry) : Prop := e.released = false ∧ e.actor.toNat = actor ∧ ∀ k, key = some k → e.t.extractLsb' 10 9 = k
  (∀ before e behind, p.mq = before ++ e :: behind → hit e → (∀ f ∈ before, ¬hit f) → (∀ f ∈ before ++ behind, f.tok ≠ e.tok) →
    q.mq = before ++ { e with released := true, at_ := s.cycle } :: behind ∧ q.credits = p.credits) ∧
  ((∀ e ∈ p.mq, ¬hit e) →
    q.mq = p.mq ∧ (p.credits.length < 16 → q.credits = p.credits ++ [⟨actor, key⟩]) ∧
    (16 ≤ p.credits.length →
      q.credits = p.credits ∧
      ∃ d, Work.ev (.deferredFaultReport d) ∈ t.agenda ∧ d.pk = pk ∧ d.actor = actor ∧ d.code = 0x10 ∧ d.w3 = BitVec.ofNat 64 n ∧
        d.bundle = bundle))

/-- A firing that releases does so for the actor and the release key of the action word (R60). -/
def Sys2Proof.Claims.FiringReleases : Prop :=
  ∀ (s : State) (m : Mv) (t a : Value), Claims.Fires s m t → Claims.Port s .slA a → t.poison = false → a.poison = false →
    let n := Claims.slNo a
    let x := getSluice s s.issue.pk n
    let c := x.count + (vsc t).extractLsb' 0 32
    n < 496 → Claims.NoWaits s s.issue.pk → Claims.NothingCovered s → Claims.fld x.action 62 2 = 1 → x.armed = true →
    Claims.reached c x.target → x.firedAt ≠ some s.cycle → x.action.getLsbD 60 = false → x.action.getLsbD 61 = true →
    ∃ s', exec (.sadd m) s = .next s' ∧ getSluice s' s.issue.pk n = Claims.fired { x with count := c } s.cycle ∧
      Claims.Released s s' s.issue.pk n (Claims.fld x.action 54 6) (some (x.action.extractLsb' 32 9)) s.issue.addr

/-- A staged entry takes a credit of its actor, one keyed to its own completion sluice before one that matches any, and is born released
(R60). -/
def Sys2Proof.Claims.StagedEntryTakesCredit : Prop :=
  ∀ (s : State) (m : Mv) (t a : Value) (i : Instr) (op : MOp) (port : Bool), (i, op, port) ∈ Claims.mxForms m → Claims.Fires s m t →
    t.poison = false → (curPier s).mq.length < 16 → (vsc t).getLsbD 19 = true → Claims.fld (vsc t) 10 9 < 496 →
    (port = true → Claims.Port s .mxA a ∧ a.poison = false) → Claims.mstSource op (Claims.fld (vsc t) 0 5) →
    let keyed : Credit := ⟨curActorIx s, some ((vsc t).extractLsb' 10 9)⟩
    let any : Credit := ⟨curActorIx s, none⟩
    let l := (curPier s).credits
    ∃ s' e, exec i s = .next s' ∧ (curPier s').mq = (curPier s).mq ++ [e] ∧ e.op = op ∧
      (keyed ∈ l → e.released = true ∧ (curPier s').credits = l.erase keyed) ∧
      (keyed ∉ l → any ∈ l → e.released = true ∧ (curPier s').credits = l.erase any) ∧
      (keyed ∉ l → any ∉ l → e.released = false ∧ (curPier s').credits = l)

/-- SRADD sends an add of T's low half to sluice b of the pier that port a names. -/
def Sys2Proof.Claims.RemoteSluiceAdd : Prop :=
  ∀ (s : State) (m : Mv) (t a b : Value), Claims.Fires s m t → Claims.Port s .slA a → Claims.Port s .slB b → t.poison = false →
    a.poison = false → b.poison = false → Claims.SendReady s →
    let n := Claims.slNo b
    (Claims.SlAllowed s n →
      ∃ s', exec (.sradd m) s = .next s' ∧ Claims.SameMemory s s' ∧ Claims.SameRegs (curStrand s) (curStrand s') ∧
        (∀ pk k, getSluice s' pk k = getSluice s pk k) ∧
        ∃ e ∈ (curPier s').outbox, e.tok = s.tok ∧ e.body =
          .add { mod := Claims.fld (vsc a) 16 12, pier := Claims.fld (vsc a) 6 10, job := jobOf s s.issue.pk, sl := BitVec.ofNat 9 n,
                 form := 0, member := 0, add := (vsc t).extractLsb' 0 32, cancelled := false, frm := .nobody,
                 graph := some (curActor s).graph }) ∧
    (¬Claims.SlAllowed s n → exec (.sradd m) s = .next (raise s 10 0x0D (moveWord s t) (BitVec.ofNat 64 n)))

/-- SARV at a home or a member with a lead below 3 arrives: its count moves on, sl.r gets the phase that covers the arrive two
cycles later; a member's arrive leaves through the outbox for its home, the home's own adds to its lead there, and the last one
closes the phase. With a lead of 3, or beside a gm access of its own bundle that it covers, the strand blocks. -/
def Sys2Proof.Claims.BarrierArrive : Prop :=
  ∀ (s : State) (m : Mv) (t a : Value), Claims.Fires s m t → Claims.Port s .slA a → t.poison = false → a.poison = false →
    let n := Claims.slNo a
    let x := getSluice s s.issue.pk n
    let lead := (x.count.toNat % 4 + 4 - x.phase.toNat) % 4
    let me := Claims.fld x.action 26 6
    let result (s' : State) : Prop :=
      (∃ p ∈ (curStrand s').pend, p.tok = s.tok ∧ p.unit = 10 ∧
        p.r = some (Value.ofWord (BitVec.ofNat 64 ((x.phase.toNat + lead + 1) % 4)))) ∧
      (s.cycle + 2, Instr.resultPortWrite s.issue.pk s.issue.strand 10 s.tok) ∈ s'.cal
    Claims.SlAllowed s n → gmEntries s = [] → Claims.NoWaits s s.issue.pk →
    (Claims.fld x.action 62 2 = 3 → (curPier s).outbox.length < 64 → lead < 3 → gmHere s = [] →
      ∃ s', exec (.sarv m) s = .next s' ∧ (getSluice s' s.issue.pk n).count = x.count + 1 ∧ Claims.SameMemory s s' ∧ result s' ∧
        ∃ e ∈ (curPier s').outbox, e.body =
          .add { mod := pkMod s.issue.pk, pier := Claims.fld x.action 32 10, job := jobOf s s.issue.pk, sl := BitVec.ofNat 9 n,
                 form := 1, member := BitVec.ofNat 6 me, add := 0, cancelled := false, frm := .nobody,
                 graph := some (curActor s).graph }) ∧
    (Claims.fld x.action 62 2 = 2 → lead < 3 → gmHere s = [] → me < x.leads.length → Claims.PlainAction x →
      ∃ s', exec (.sarv m) s = .next s' ∧ (getSluice s' s.issue.pk n).count = x.count + 1 ∧ Claims.SameMemory s s' ∧ result s' ∧
        let l := x.leads.set me ((x.leads.getD me 0 + 1) % 4)
        (0 ∈ l → (getSluice s' s.issue.pk n).leads = l ∧ (getSluice s' s.issue.pk n).phase = x.phase) ∧
        (0 ∉ l → (getSluice s' s.issue.pk n).leads = l.map (· - 1) ∧ (getSluice s' s.issue.pk n).phase = x.phase + 1)) ∧
    ((Claims.fld x.action 62 2 = 2 ∨ Claims.fld x.action 62 2 = 3) →
      (lead = 3 ∨ (gmHereIn s (sarvScope s x) = true ∧ (curPier s).outbox.length < 64)) →
      ∃ s', exec (.sarv m) s = .next s' ∧ (∀ pk k, getSluice s' pk k = getSluice s pk k) ∧
        (∃ b w i, (curStrand s').wait = .sarv n b w i) ∧ resPort (curStrand s') 0x0A8 = .pending s.tok ∧ Claims.SameMemory s s')

/-- SWAIT waits for the count to reach T and SWAIT.ph for the phase to be T: the check is made at the end of each cycle, the
first one included, and ends the wait where it holds. SGET takes its item at the end of the cycle and gives it two cycles on. -/
def Sys2Proof.Claims.SluiceWaitsAndReads : Prop :=
  ∀ (s : State) (m : Mv) (t a : Value), Claims.Fires s m t → Claims.Port s .slA a → t.poison = false → a.poison = false →
    let n := Claims.slNo a
    let x := getSluice s s.issue.pk n
    Claims.SlAllowed s n →
    (Claims.fld x.action 62 2 ≠ 0 →
      ∃ s', exec (.swait m) s = .next s' ∧ Claims.Frame s s' 10 ∧
        (curStrand s').wait = .sluice n ((vsc t).extractLsb' 0 32)) ∧
    (∃ s', exec (.swaitPh m) s = .next s' ∧ Claims.Frame s s' 10 ∧ (curStrand s').wait = .phase n ((vsc t).extractLsb' 0 2)) ∧
    (∀ (p : Pier) (e : Nat × Strand), e ∈ p.strands → ∃ y, (e.1, y) ∈ (endWaits p).strands ∧ y = { e.2 with wait := y.wait } ∧
      match e.2.wait with
      | .sluice k c => (Claims.reached (pierSluice p k).count c → y.wait = .none) ∧
        (¬Claims.reached (pierSluice p k).count c → y.wait = e.2.wait)
      | .phase k ph => y.wait = if (pierSluice p k).phase = ph then .none else e.2.wait
      | w => y.wait = w) ∧
    ∃ s', exec (.sget m) s = .next s' ∧ Claims.Frame s s' 10 ∧ resPort (curStrand s') 0x0A8 = .pending s.tok ∧
      (∃ p ∈ (curStrand s').pend, p.tok = s.tok ∧ p.unit = 10 ∧ p.sample = some (n, Claims.fld (vsc t) 0 2)) ∧
      (s.cycle + 2, Instr.resultPortWrite s.issue.pk s.issue.strand 10 s.tok) ∈ s'.cal

/-- A local sluice operation faults with 0x0D on a service sluice outside a run of the service actor, and with 0x10 where the
sluice is in a mode that does not take it; w3 names the sluice. SARM of
a home faults with 0x03 on its member count or number and with 0x10 where the pier has too few leads left. -/
def Sys2Proof.Claims.SluiceFaults : Prop :=
  ∀ (s : State) (m : Mv) (t a : Value), Claims.Fires s m t → Claims.Port s .slA a → t.poison = false → a.poison = false →
    let n := Claims.slNo a
    let x := getSluice s s.issue.pk n
    gmEntries s = [] → (curPier s).outbox.length < 64 →
    (¬Claims.SlAllowed s n → ∀ i ∈ [Instr.sarm m, .sset m, .sadd m, .sarv m, .swait m, .swaitPh m, .sget m],
      exec i s = .next (raise s 10 0x0D (moveWord s t) (BitVec.ofNat 64 n))) ∧
    (Claims.SlAllowed s n →
      (Claims.fld x.action 62 2 ≠ 1 → exec (.sadd m) s = .next (raise s 10 0x10 (moveWord s t) (BitVec.ofNat 64 n))) ∧
      (Claims.fld x.action 62 2 < 2 → exec (.sarv m) s = .next (raise s 10 0x10 (moveWord s t) (BitVec.ofNat 64 n))) ∧
      (Claims.fld x.action 62 2 = 0 → exec (.swait m) s = .next (raise s 10 0x10 (moveWord s t) (BitVec.ofNat 64 n))) ∧
      (Claims.fld x.action 62 2 = 2 → (∃ l ∈ x.leads, l ≠ 0) →
        exec (.sarm m) s = .next (raise s 10 0x10 (moveWord s t) (BitVec.ofNat 64 n))) ∧
      let cnt := Claims.fld (vsc t) 32 7
      let bad := cnt = 0 ∨ 64 < cnt ∨ cnt ≤ Claims.fld (vsc t) 26 6
      ((∀ l ∈ x.leads, l = 0) → Claims.fld (vsc t) 62 2 = 2 →
        (bad → exec (.sarm m) s = .next (raise s 10 0x03 (moveWord s t) (vsc t))) ∧
        (¬bad → 4096 < leadsUsed (curPier s) - x.leads.length + cnt →
          exec (.sarm m) s = .next (raise s 10 0x10 (moveWord s t) (BitVec.ofNat 64 n)))))

/-- The three arrivals of sluice-add messages (R244). -/
def Sys2Proof.Claims.arrivals (a : SlAdd) : List Instr := [.sluiceAddArrival a, .barrierArriveArrival a, .phaseNoticeArrival a]

/-- An add, an arrive or a notice changes no sluice where it is not taken: it is answered as having no such actor where there is no pier or
the pier's actors are lost (R47, R235), discarded where its level is being cancelled (R67), and refused with retry where the pier's
partition is not resident or the pier is fenced (R222, R234). -/
def Sys2Proof.Claims.SluiceArrivalsRefused : Prop :=
  ∀ (s : State) (a : SlAdd) (src tok : Nat), a.frm = .outbox src tok →
    let answered (status : BitVec 3) : Prop := ∀ i ∈ Claims.arrivals a,
      ∃ s', exec i s = .next s' ∧ Claims.Acked s' a.frm status ∧ (∀ k n, getSluice s' k n = getSluice s k n) ∧ Claims.SameMemory s s'
    (pkOfAddr s a.mod a.pier a.job = none → answered 2) ∧
    ∀ pk, pkOfAddr s a.mod a.pier a.job = some pk →
      ((getPier s pk).lost = true → answered 2) ∧
      ((getPier s pk).lost = false → (∃ c ∈ (getPier s pk).cancels, addBelongs s c a = true) → answered 0) ∧
      ((getPier s pk).lost = false → (∀ c ∈ (getPier s pk).cancels, addBelongs s c a = false) →
        (residentOpen s pk = false ∨ (getPier s pk).fenced = true) → answered 1)

/-- What arrives at a sluice of a resident pier: an add to a quiet counter adds, and where it says that its level was cancelled marks the
link entry of a service sluice; an arrive at a home adds to the lead of its member, and the last one closes the phase: phase and leads move,
and every other member is sent a notice; a notice moves a member's phase on and performs its action. Each is answered as performed, and as
misuse in any other mode, an arrive also for a member the home has not, a message of form 11 always (R244). -/
def Sys2Proof.Claims.SluiceArrivals : Prop :=
  ∀ (s : State) (a : SlAdd) (pk src tok : Nat), Claims.Arrives s a pk src tok →
    let n := a.sl.toNat
    let x := getSluice s pk n
    let me := Claims.fld x.action 26 6
    let misuse (i : Instr) : Prop := ∃ s', exec i s = .next s' ∧ (∀ k j, getSluice s' k j = getSluice s k j) ∧ Claims.Acked s' a.frm 5
    (a.form = 0 → a.cancelled = false → Claims.QuietCounter s pk n →
      ∃ s', exec (.sluiceAddArrival a) s = .next s' ∧ (getSluice s' pk n).count = x.count + a.add ∧ Claims.Acked s' a.frm 0 ∧
        (∀ k, k ≠ n → getSluice s' pk k = getSluice s pk k) ∧ Claims.SameMemory s s') ∧
    (a.form = 0 → a.cancelled = true → Claims.QuietCounter s pk n → 496 ≤ n →
      let link := mword (getPier s pk).spad (0x3FF00 + 8 * (n - 496))
      ∃ s', exec (.sluiceAddArrival a) s = .next s' ∧ (getSluice s' pk n).count = x.count + a.add ∧ Claims.Acked s' a.frm 0 ∧
        mword (getPier s' pk).spad (0x3FF00 + 8 * (n - 496)) = (if link.getLsbD 63 then link ||| 2 ^ 60 else link)) ∧
    (a.form = 3 → a.cancelled = false → misuse (.sluiceAddArrival a)) ∧
    (Claims.fld x.action 62 2 ≠ 1 → a.cancelled = false → misuse (.sluiceAddArrival a)) ∧
    (Claims.fld x.action 62 2 = 2 → a.member.toNat < x.leads.length → Claims.NoWaits s pk → Claims.PlainAction x →
      ∃ s', exec (.barrierArriveArrival a) s = .next s' ∧ Claims.Acked s' a.frm 0 ∧
        let l := x.leads.set a.member.toNat ((x.leads.getD a.member.toNat 0 + 1) % 4)
        (0 ∈ l → (getSluice s' pk n).leads = l ∧ (getSluice s' pk n).phase = x.phase) ∧
        (0 ∉ l → (getSluice s' pk n).leads = l.map (· - 1) ∧ (getSluice s' pk n).phase = x.phase + 1 ∧
          ((getPier s pk).outbox.length + x.leads.length ≤ 64 → x.owed = [] →
            ∀ j < x.leads.length, j ≠ me → ∃ e ∈ (getPier s' pk).outbox, e.body =
              .add { mod := pkMod pk, pier := pkLp (if j = a.member.toNat then src else fget x.memberPk j pk), job := jobOf s pk,
                     sl := BitVec.ofNat 9 n, form := 2, member := BitVec.ofNat 6 j, add := 0, cancelled := false, frm := .nobody }))) ∧
    (Claims.fld x.action 62 2 ≠ 2 ∨ x.leads.length ≤ a.member.toNat → misuse (.barrierArriveArrival a)) ∧
    (Claims.fld x.action 62 2 = 3 → Claims.NoWaits s pk → x.action.getLsbD 60 = false →
      ∃ s', exec (.phaseNoticeArrival a) s = .next s' ∧ getSluice s' pk n = { x with phase := x.phase + 1 } ∧ Claims.Acked s' a.frm 0 ∧
        (x.action.getLsbD 61 = true → ∃ b, Claims.Released s s' pk n (Claims.fld x.action 54 6) none b)) ∧
    (Claims.fld x.action 62 2 = 3 → Claims.NoWaits s pk → x.action.getLsbD 60 = true → x.action.getLsbD 61 = false →
      ∃ s' g, exec (.phaseNoticeArrival a) s = .next s' ∧ getSluice s' pk n = { x with phase := x.phase + 1 } ∧ Claims.Acked s' a.frm 0 ∧
        Claims.InOutbox s' pk g ∧ g.cls = x.action.extractLsb' 49 5 ∧ g.dact = x.action.extractLsb' 54 6 ∧ g.kind = 0 ∧ g.sact = 63) ∧
    (Claims.fld x.action 62 2 ≠ 3 → misuse (.phaseNoticeArrival a))

/-- The check of the cycle after a firing: a counter still at its target fires again, any other comes to rest. -/
def Sys2Proof.Claims.SluiceChecksAgain : Prop :=
  ∀ (s : State) (pk n : Nat),
    let x := getSluice s pk n
    Claims.NoWaits s pk → x.again = true →
    ∃ s', exec (.sluiceRecheck pk n) s = .next s' ∧
      (¬(Claims.fld x.action 62 2 = 1 ∧ x.armed = true ∧ Claims.reached x.count x.target) →
        getSluice s' pk n = { x with again := false } ∧ Claims.SameMemory s s') ∧
      (Claims.fld x.action 62 2 = 1 → x.armed = true → Claims.reached x.count x.target → x.firedAt ≠ some s.cycle →
        Claims.PlainAction x → n < 496 → getSluice s' pk n = Claims.fired x s.cycle ∧ Claims.SameMemory s s')

/-- A sluice that is at rest has nothing to check (R59). -/
def Sys2Proof.Claims.SluiceAtRest : Prop :=
  ∀ (s : State) (pk n : Nat), (getSluice s pk n).again = false → exec (.sluiceRecheck pk n) s = .next s

namespace Sys2Proof.Claims

/-- A step is on its way. -/
def Coming (s t : State) (i : Instr) : Prop := ∃ due, s.cycle < due ∧ (due, i) ∈ t.cal

/-- The stream commands and SCANC in the order of their opcodes (R350). -/
def sgForms (m : Mv) : List (Instr × Nat) :=
  [(.sread m, 0), (.swrite m, 1), (.sgath m, 2), (.sscat m, 3), (.sseg m, 4), (.sxch m, 5), (.swld m, 6), (.scanc m, 7)]

/-- The value of q-word `i` of the run. -/
def qw (s : State) (i : Nat) : Word := vsc (readQ (curStrand s) i)

/-- The scratchpad or slice offset of q2 (R253). -/
def sgOffset (s : State) (kind : Nat) : Nat := fld (qw s 2) 0 (if kind = 6 then 20 else 18)

/-- A job's run names a service sluice. -/
def NotItsOwn (s : State) (n : Nat) : Prop := 496 ≤ n ∧ n ≤ 510 ∧ curService s = false

/-- The checks of R351 that a command fails, in their order, each with code and w3. -/
def sgFailures (s : State) (kind : Nat) (t : Word) : List (Prop × Nat × Word) :=
  [(fld t 19 45 ≠ 0, 0x03, t)] ++
  (if kind = 7 then [] else
    [ (kind ≠ 5 ∧ 9 ≤ fld (qw s 2) 36 4, 0x03, qw s 2)
    , (fld (qw s 0) 56 8 ≠ 0, 0x09, qw s 0)
    , (kind ≠ 5 ∧ sgOffset s kind % 64 ≠ 0, 0x07, BitVec.ofNat 64 (sgOffset s kind))
    , (NotItsOwn s (fld (qw s 1) 28 9), 0x0D, BitVec.ofNat 64 (fld (qw s 1) 28 9))
    , (NotItsOwn s (fld (qw s 1) 37 9), 0x0D, BitVec.ofNat 64 (fld (qw s 1) 37 9))
    , (kind = 6 ∧ fld (qw s 2) 20 16 ≠ 0, 0x03, qw s 2) ])

/-- A q-word that the command reads is poisoned (R128). -/
def sgPoison (s : State) (kind : Nat) : Prop :=
  kind ≠ 7 ∧ ∃ i < 6, ¬(kind = 5 ∧ i = 2) ∧ (readQ (curStrand s) i).poison = true

/-- The command of a trigger: who issued it, the q-words and T (R253). -/
structure IsCommand (s : State) (kind : Nat) (t : Word) (n : Nat) (c : StreamCmd) : Prop where
  kind_ : c.kind.toNat = kind
  words : c.q0 = qw s 0 ∧ c.q1 = qw s 1 ∧ c.q2 = qw s 2 ∧ c.q3 = qw s 3 ∧ c.q4 = qw s 4 ∧ c.q5 = qw s 5 ∧ c.t = t
  issuer : c.pk = s.issue.pk ∧ c.strand = s.issue.strand ∧ c.actor = curActorIx s ∧ c.runid = (curStrand s).runid ∧
    c.bundle = s.issue.addr
  entry : c.entry = n ∧ c.tok = s.tok

/-- Elements of a command's array (R253). -/
def inner (c : StreamCmd) : Nat := fld c.q3 0 32
/-- Rows of a command's array. -/
def outer (c : StreamCmd) : Nat := fld c.q4 0 32
/-- Bytes of an element of a format code (R253, R351), for the codes of whole bytes. -/
def elementBytes (f : Nat) : Nat := if f ≤ 1 then 2 else if f = 6 then 4 else if f = 7 then 8 else 1

/-- An extension record is named (R254). -/
def Extended (c : StreamCmd) : Prop := c.kind.toNat < 2 ∧ c.q5 ≠ 0
/-- Bytes that a command of two dimensions moves; two E2M1 elements make a byte. -/
def streamBytes (c : StreamCmd) : Nat :=
  if fld c.q2 36 4 = 4 then inner c / 2 * outer c else inner c * outer c * elementBytes (fld c.q2 36 4)

/-- A(e) of R254 for the element of packed byte `b`, whole-byte elements. -/
def elemAt (c : StreamCmd) (b : Nat) : Int :=
  let e := b / elementBytes (fld c.q2 36 4)
  (c.q0.toNat : Int) + (e / inner c : Nat) * (c.q4.extractLsb' 32 32 : BitVec 32).toInt +
    (e % inner c : Nat) * (c.q3.extractLsb' 32 32 : BitVec 32).toInt

/-- The address of packed byte `b`. -/
def byteVa (c : StreamCmd) (b : Nat) : Word := BitVec.ofInt 64 (elemAt c b + (b % elementBytes (fld c.q2 36 4) : Nat))

/-- A command reaches an abutment that knows no stream of its identity and refuses nothing (R191, R258, R351). -/
structure Acceptable (s : State) (m a : Nat) (c : StreamCmd) : Prop where
  base : c.q0.getLsbD 55 = false
  list : c.kind.toNat = 2 ∨ c.kind.toNat = 3 ∨ Extended c → c.q5.getLsbD 55 = false
  halves : c.kind.toNat ≠ 5 → fld c.q2 36 4 = 4 → inner c % 2 = 0
  fresh : ∀ e ∈ (getAbut s m a).ctxs, ∀ t, e.2 = some t →
    ¬(t.cmd.pk = c.pk ∧ t.cmd.actor = c.actor ∧ fld t.cmd.t 7 10 = fld c.t 7 10)
  waiting : ∀ d ∈ (getAbut s m a).queue, ¬(d.pk = c.pk ∧ d.actor = c.actor ∧ fld d.t 7 10 = fld c.t 7 10)
  saved : ∀ e ∈ (getAbut s m a).savedCtxs, ¬(e.2.cmd.pk = c.pk ∧ e.2.cmd.actor = c.actor ∧ fld e.2.cmd.t 7 10 = fld c.t 7 10)
  segments : c.kind.toNat = 4 → fld c.q5 55 9 ≠ 0
  slice : c.kind.toNat = 6 → fld c.q2 0 20 + 64 * ((streamBytes c + 63) / 64) ≤ 0x100000
  exchange : c.kind.toNat = 5 → (∃ b < 32, fld c.q4 0 32 = 2 ^ b) ∧ fld c.q5 0 12 ≠ 0 ∧ fld c.q5 12 4 ≤ 6 ∧
    c.q0.toNat % 2 ^ fld c.q5 12 4 = 0

/-- The answer of an sg trigger of a command is under way to sg.s, at least 8 cycles after it (R350). -/
def SgAnswered (s t : State) (c : StreamCmd) (v : Word) : Prop :=
  (∀ p ∈ (getStrand s c.pk c.strand).pend, p.tok = c.tok →
    ∃ q ∈ (getStrand t c.pk c.strand).pend, q.tok = c.tok ∧ q.r = some (Value.ofWord v)) ∧
  ∃ due, s.cycle + 8 ≤ due ∧ (due, Instr.resultPortWrite c.pk c.strand 11 c.tok) ∈ t.cal

/-- The pier and the handle of a stream's scratchpad side, and its stream going on at a flit (R255, R256). -/
structure AtItsPier (s : State) (f : Flit) (t : Stream) (pk : Nat) : Prop where
  ctx : fget (getAbut s f.mod f.abut).ctxs f.sid none = some t
  pier : pkOfAddr s (fld t.cmd.q1 16 12) (fld t.cmd.q1 6 10) (jobOf s t.cmd.pk) = some pk
  resident : residentOpen s pk = true
  up : (getPier s pk).lost = false ∧ (getPier s pk).fenced = false
  handle : (handleOf (getPier s pk) f.mod f.abut f.sid).isSome = true

/-- The stream has not stopped before a flit. -/
def GoesOn (t : Stream) (f : Flit) : Prop := ∀ x, t.stop = some x → f.idx ≤ x.pos

/-- A flit's bytes lie in the region of the stream's actor (R36), and for a command of job code outside the service area (R130). -/
def InRegion (s : State) (t : Stream) (pk : Nat) (f : Flit) : Prop :=
  let a := fld t.cmd.q1 0 6
  (t.cmd.actor = 63 ∨ f.off + f.nb ≤ 0x3F000) ∧
  if a = 63 then f.off + f.nb ≤ 0x40000
  else fld (getActor s pk a).rgnbase 6 13 * 64 ≤ f.off ∧ f.off + f.nb ≤ fld (getActor s pk a).rgnlim 6 13 * 64

/-- The credit rule of R256, or of R354 for a read, over the count of the credit sluice. -/
def Credit (s : State) (t : Stream) (pk : Nat) (first : Int) (lo : Int) : Prop :=
  let n := fld t.cmd.q1 37 9
  n = 511 ∨ (let d := ((getSluice s pk n).count.toNat - first) % 2 ^ 17; lo ≤ d ∧ d < 2 ^ 16)

/-- The sluice of a stream, where a flit adds to it. -/
def AddsTo (s : State) (t : Stream) (pk : Nat) (f : Flit) : Prop := f.add = true → QuietCounter s pk (fld t.cmd.q1 28 9)

/-- The sluices of a pier after a flit: the stream's own counts one more where the flit adds. -/
def Counted (s s' : State) (t : Stream) (pk : Nat) (f : Flit) : Prop :=
  ∀ n, (getSluice s' pk n).count = (getSluice s pk n).count + (if f.add = true ∧ n = fld t.cmd.q1 28 9 then 1 else 0)

end Sys2Proof.Claims

/-- A stream command or SCANC whose checks pass takes the lowest free in-flight entry, makes sg.s wait and leaves for its abutment
with the six q-words, T and its issuer, or beside a gm access of its own bundle is owed until that is performed; one that fails a
check of R351 faults by the first it fails; a poisoned T or q-word that it reads faults with 0x0C before them; an earlier gm access
that is not performed, or no free entry, holds it. -/
def Sys2Proof.Claims.StreamCommandsStart : Prop :=
  ∀ (s : State) (m : Mv) (t : Value) (i : Instr) (kind n : Nat), Claims.Fires s m t → (i, kind) ∈ Claims.sgForms m →
    let poisoned := t.poison = true ∨ Claims.sgPoison s kind
    let checks := Claims.sgFailures s kind (vsc t)
    (¬poisoned → (∀ c ∈ checks, ¬c.1) → (freeEntry (curStrand s) = none ∨ gmEntries s ≠ []) → exec i s = .next (markHeld s)) ∧
    (freeEntry (curStrand s) = some n → gmEntries s = [] →
    (poisoned → exec i s = .next (raise s 11 0x0C (moveWord s t) 0)) ∧
    (¬poisoned → (∀ c ∈ checks, ¬c.1) →
      ∃ s' c e, exec i s = .next s' ∧ Claims.IsCommand s kind (vsc t) n c ∧
        (if gmHere s = [] then Claims.Coming s s' (.streamCommandAccept (pkMod s.issue.pk) (Claims.fld (vsc t) 0 7) c)
         else (curStrand s').owed = (curStrand s).owed ++
           [{ op := .stream (Claims.fld (vsc t) 0 7) c, bundle := s.issue.addr, move := moveWord s t, slot := s.issue.slot }]) ∧
        fget (curStrand s').inf n none = some e ∧ e.kind = .sg ∧ e.tok = s.tok ∧ resPort (curStrand s') 0x0AE = .pending s.tok ∧
        Claims.SameMemory s s' ∧ Claims.RunFrame s s' 11) ∧
    (¬poisoned → ∀ k (hk : k < checks.length), (∀ j (hj : j < k), ¬(checks[j]'(Nat.lt_trans hj hk)).1) → checks[k].1 →
      exec i s = .next (raise s 11 checks[k].2.1 (moveWord s t) checks[k].2.2)))

/-- A command of a partition that an abutment is halted for, and a SCANC whose partition has streams saved there, is sent again after at
least 512 cycles (log entry 83). -/
def Sys2Proof.Claims.KeptOff (x : Abut) (m : Nat) (c : StreamCmd) : Prop :=
  pkMod c.pk = m ∧ (pkPart c.pk ∈ x.haltedFor ∨
    (c.kind.toNat = 7 ∧ ((∃ e ∈ x.savedCtxs, e.1 = pkPart c.pk) ∨ ∃ e ∈ x.savedQueue, e.1 = pkPart c.pk)))

/-- A stream command, first sent or sent again, that finds no command waiting and a context free takes the lowest free context and
goes to open its stream; sg.s is answered with its number of flits, but for one that has its extension record or its segment table
still to read. It joins the commands that wait where it cannot, and is sent again after at least 512 cycles where 64 wait; one whose
identity is held already is refused and answered with −1. A SCANC
that names nothing is answered with −1, one that names a command that waits takes it back, and one that names a stream with nothing
unanswered ends it and is answered with the flits that landed. -/
def Sys2Proof.Claims.StreamCommandArrives : Prop :=
  ∀ (s : State) (m a : Nat) (c : StreamCmd) (i : Instr), i = .streamCommandAccept m a c ∨ i = .streamCommandResend m a c →
    let x := getAbut s m a
    let same (d : StreamCmd) : Prop := d.pk = c.pk ∧ d.actor = c.actor ∧ Claims.fld d.t 7 10 = Claims.fld c.t 7 10
    let again : Prop := ∃ s', exec i s = .next s' ∧ getAbut s' m a = x ∧ ∃ due, s.cycle + 512 ≤ due ∧ (due, Instr.streamCommandResend m a c) ∈ s'.cal
    (Claims.KeptOff x m c → again) ∧
    (¬Claims.KeptOff x m c →
    (c.kind.toNat ≠ 7 → x.queue = [] → Claims.Acceptable s m a c →
      ∀ n, n < 16 → (∀ k < n, (fget x.ctxs k none).isSome = true) → fget x.ctxs n none = none →
      ∃ s' t, exec i s = .next s' ∧ fget (getAbut s' m a).ctxs n none = some t ∧ t.sid = n ∧ t.cmd = c ∧ t.phase = .opening ∧
        t.next = 0 ∧ Claims.Coming s s' (.streamOpen m a n) ∧ Claims.SameMemory s s' ∧
        (¬Claims.Extended c → (c.kind.toNat ≠ 4 ∨ t.total = 0) → Claims.SgAnswered s s' c (BitVec.ofNat 64 t.total)) ∧
        (¬Claims.Extended c → c.kind.toNat ≠ 4 → c.kind.toNat ≠ 5 → t.total = (Claims.streamBytes c + 63) / 64)) ∧
    (c.kind.toNat ≠ 7 → x.queue ≠ [] ∨ (∀ k < 16, (fget x.ctxs k none).isSome = true) →
      (x.queue.length < 64 → Claims.Acceptable s m a c →
        ∃ s', exec i s = .next s' ∧ (getAbut s' m a).queue = x.queue ++ [c] ∧ s'.cal = s.cal ∧ Claims.SameMemory s s') ∧
      (x.queue.length < 64 → c.q0.getLsbD 55 = false → (c.kind.toNat = 2 ∨ c.kind.toNat = 3 ∨ Claims.Extended c → c.q5.getLsbD 55 = false) →
        ((∃ e ∈ x.ctxs, ∃ t, e.2 = some t ∧ same t.cmd) ∨ ∃ d ∈ x.queue, same d) →
        ∃ s' d, exec i s = .next s' ∧ getAbut s' m a = x ∧ Claims.SgAnswered s s' c (-1) ∧ Claims.Coming s s' (.deferredFaultReport d) ∧
          d.code = 0x12 ∧ d.pk = c.pk ∧ d.bundle = c.bundle ∧ d.w3 = BitVec.ofNat 64 (Claims.fld c.t 7 10)) ∧
      (64 ≤ x.queue.length → again)) ∧
    let unnamed : Prop := (∀ e ∈ x.ctxs, ∀ t, e.2 = some t → ¬same t.cmd) ∧
      ∀ e ∈ s.cal, ∀ d, e.2 = .streamCommandResend m a d → ¬same d
    (c.kind.toNat = 7 → unnamed → (∀ d ∈ x.queue, ¬same d) →
      ∃ s', exec i s = .next s' ∧ getAbut s' m a = x ∧ Claims.SgAnswered s s' c (-1)) ∧
    (c.kind.toNat = 7 → unnamed → ∀ d, x.queue = [d] → same d → d.tok ≠ c.tok →
      ∃ s', exec i s = .next s' ∧ (getAbut s' m a).queue = [] ∧ Claims.SgAnswered s s' d (-1) ∧ Claims.SgAnswered s s' c 0) ∧
    (c.kind.toNat = 7 → ∀ t : Stream, x.ctxs = [(t.sid, some t)] → x.queue = [] → same t.cmd → t.unacked = [] → t.adds = 0 →
      t.openOut = false → t.peer = none → t.stop = none → t.answered = true → t.cancels = [] →
      ∃ s', exec i s = .next s' ∧ (getAbut s' m a).ctxs = [] ∧ Claims.SgAnswered s s' c (BitVec.ofNat 64 t.landed) ∧
        Claims.SameMemory s s'))

/-- A stream asks its scratchpad side, first or again, for a handle: the lowest free one of 63 is granted with status 110; with none
free, or a partition that is not resident, the stream asks again 512 cycles later; an actor that is free or retired ends the
stream. -/
def Sys2Proof.Claims.StreamOpens : Prop :=
  ∀ (s : State) (m a sid pk : Nat) (t : Stream) (i : Instr), i = .streamOpen m a sid ∨ i = .streamOpenRetry m a sid →
    fget (getAbut s m a).ctxs sid none = some t → t.sid = sid → t.phase = .opening →
    let w := t.cmd.q1
    let act := Claims.fld w 0 6
    pkOfAddr s (Claims.fld w 16 12) (Claims.fld w 6 10) (jobOf s t.cmd.pk) = some pk → reachable s m (Claims.fld w 16 12) = true →
    (getPier s pk).lost = false → handleOf (getPier s pk) m a sid = none →
    let again (s' : State) : Prop := exec i s = .next s' ∧ s'.cal = s.cal ++ [(s.cycle + 512, .streamOpenRetry m a sid)] ∧
      fget (getAbut s' m a).ctxs sid none = some { t with openOut := false } ∧ s'.piers = s.piers ∧ Claims.SameMemory s s'
    (residentOpen s pk = false ∨ (getPier s pk).fenced = true → ∃ s', again s') ∧
    (residentOpen s pk = true → (getPier s pk).fenced = false →
      ((getActor s pk act).retiring = false → act = 63 ∨ (getActor s pk act).st ≠ .free →
        ((∀ n < 63, (fget (getPier s pk).handles n none).isSome = true) → ∃ s', again s') ∧
        (∀ n, n < 63 → (∀ k < n, (fget (getPier s pk).handles k none).isSome = true) → fget (getPier s pk).handles n none = none →
          ∃ s' h, exec i s = .next s' ∧ fget (getPier s' pk).handles n none = some h ∧ h.mod = m ∧ h.abut = a ∧ h.sid = sid ∧
            h.q1 = w ∧ h.job = jobOf s t.cmd.pk ∧ Claims.Acked s' (.flit m a sid 0) 6 ∧ Claims.SameMemory s s')) ∧
      ((getActor s pk act).retiring = true ∨ (act ≠ 63 ∧ (getActor s pk act).st = .free) → t.answered = true → t.unacked = [] → t.adds = 0 →
        t.peer = none → t.stop = none → t.cancels = [] → (getAbut s m a).queue = [] →
        ∃ s' d, exec i s = .next s' ∧ fget (getAbut s' m a).ctxs sid none = none ∧ Claims.Coming s s' (.deferredFaultReport d) ∧
          d.code = 0x15 ∧ d.pk = t.cmd.pk ∧ d.actor = t.cmd.actor ∧ d.w2 = entryMove t.cmd.move (t.cmd.t.extractLsb' 0 32) ∧
          d.w3.toNat = Claims.fld w 0 28 ∧ Claims.SameMemory s s'))

/-- The acknowledgement with status 110, the grant of a handle, makes a stream active; an exchange looks for its partner; an empty stream that
has been answered makes its one increment, as a message, or ends at once where it names no sluice (R254, R255, R257, R258). -/
def Sys2Proof.Claims.StreamBegins : Prop :=
  ∀ (s : State) (m a sid idx : Nat) (t : Stream), fget (getAbut s m a).ctxs sid none = some t → t.sid = sid → t.phase = .opening →
    let i := Instr.acknowledgement (.flit m a sid idx) 6
    let u := { t with openOut := false }
    let empty := t.total = 0 ∧ t.answered = true
    let now (s' : State) (v : Stream) : Prop :=
      exec i s = .next s' ∧ fget (getAbut s' m a).ctxs sid none = some v ∧ Claims.SameMemory s s'
    (t.cmd.kind.toNat ≠ 5 → ¬empty → ∃ s', now s' { u with phase := .active }) ∧
    (t.cmd.kind.toNat = 5 → ∃ s', now s' { u with phase := .pairing } ∧ Claims.Coming s s' (.sxchPair m a sid)) ∧
    (t.cmd.kind.toNat ≠ 5 → empty → Claims.fld t.cmd.q1 28 9 ≠ 511 → t.adds = 0 →
      ∃ s', now s' { u with phase := .active, adds := 1 } ∧ Claims.Coming s s' (.streamIncrement m a sid t.cmd)) ∧
    (t.cmd.kind.toNat ≠ 5 → empty → Claims.fld t.cmd.q1 28 9 = 511 → t.adds = 0 → t.unacked = [] → t.segTotal = 0 → t.next = 0 → t.segBad = none →
      (getAbut s m a).queue = [] →
      ∃ s', exec i s = .next s' ∧ fget (getAbut s' m a).ctxs sid none = none ∧ Claims.SameMemory s s')

namespace Sys2Proof.Claims

/-- The turn is a context's: it was served last and its turn is not over, its stream is active and nothing holds it (R191). -/
structure TurnOf (s : State) (m a : Nat) (t : Stream) : Prop where
  ids : ∀ i u, fget (getAbut s m a).ctxs i none = some u → u.sid = i
  mine : fget (getAbut s m a).ctxs t.sid none = some t
  number : t.sid < 16
  turn : (getAbut s m a).last = t.sid ∧ 0 < (getAbut s m a).left
  running : (getAbut s m a).haltedFor = [] ∧ t.phase = .active ∧ t.missAt = none ∧ t.walked = []

/-- The turn moved the stream on to `t'`, and one of its flits is spent. -/
structure Turned (s s' : State) (m a : Nat) (t t' : Stream) : Prop where
  now : exec (.streamTurn m a) s = .next s'
  ctx : fget (getAbut s' m a).ctxs t.sid none = some t'
  turn : (getAbut s' m a).last = t.sid ∧ (getAbut s' m a).left = (getAbut s m a).left - 1

/-- Word `i` of a stream's extension record, or of one that leaves the element stream as it is (R254). -/
def extWord (t : Stream) (i : Nat) : Word :=
  if t.cmd.kind.toNat < 2 ∧ t.cmd.q5 ≠ 0 then (t.ext.getD []).getD i 0 else if i % 2 = 0 then 1 else 0

/-- Bytes of an element; two E2M1 elements make a step of one byte (R253, R352). -/
def unit (t : Stream) : Nat := elementBytes (fld t.cmd.q2 36 4)
/-- Steps of a row. -/
def rowSteps (t : Stream) : Nat := if fld t.cmd.q2 36 4 = 4 then inner t.cmd / 2 else inner t.cmd
/-- Bytes of an element stream (R352). -/
def packed (t : Stream) : Nat := rowSteps t * outer t.cmd * (extWord t 0).toNat * (extWord t 2).toNat * unit t

/-- The segment of an SSEG that holds a flit: its first flit, its first row and its rows (R355). -/
def Segment (t : Stream) (f : Nat) (x : Nat × Nat × Nat) : Prop :=
  (∃ before after, t.segs = before ++ x :: after ∧ ∀ y ∈ after, f < y.1) ∧ x.1 ≤ f ∧ 64 * (f - x.1) < x.2.2 * rowSteps t * unit t

/-- Bytes that a flit carries (R352, R355). -/
def FlitSize (t : Stream) (f nb : Nat) : Prop :=
  if t.cmd.kind.toNat = 4 then ∃ x, Segment t f x ∧ nb = min 64 (x.2.2 * rowSteps t * unit t - 64 * (f - x.1))
  else nb = min 64 (packed t - 64 * f)

/-- Whether a flit carries an increment: the last of the stream or of its segment, and every N-th (R257, R355). -/
def Adds (t : Stream) (f : Nat) : Prop :=
  fld t.cmd.q1 28 9 ≠ 511 ∧
    ((fld t.cmd.q1 48 16 ≠ 0 ∧ (f + 1) % fld t.cmd.q1 48 16 = 0) ∨
     (if t.cmd.kind.toNat = 4 then ∃ x, Segment t f x ∧ f + 1 = x.1 + (x.2.2 * rowSteps t * unit t + 63) / 64 else f + 1 = t.total))

/-- An address lies in a page that an abutment holds translated and that grants what is needed, at a DRAM byte of a module that can be
reached and whose clocks run: 4 to read, 2 to write, 6 for both (R143, R147, R153, R249, R270). -/
def Mapped (s : State) (m : Nat) (t : Stream) (need : BitVec 3) (va : Word) (x : Nat × Nat) : Prop :=
  ∃ e, extentOf t va need = some e ∧ e.leaf.extractLsb' 60 3 &&& need = need ∧ physOf e.leaf (sizeLevel e.size) va < 2 ^ 39 ∧
    x = (fld e.leaf 36 12, dramLoc (fld e.leaf 55 2) (physOf e.leaf (sizeLevel e.size) va)) ∧ reachable s m x.1 = true ∧
    (getMod s x.1).veiv.frozen = false

/-- The byte at a place. -/
def hbmAt (s : State) (x : Nat × Nat) : Byte := mget (getMod s x.1).hbm x.2

/-- A little-endian word of `n` bytes of memory that a stream may read, of no poisoned granule. -/
def MemoryWord (s : State) (m : Nat) (t : Stream) (va : Word) (n v : Nat) : Prop :=
  ∃ x : Nat → Nat × Nat, (∀ b < n, Mapped s m t 4 (va + BitVec.ofNat 64 b) (x b) ∧ pget (getMod s (x b).1).hbmPoison (x b).2 = false) ∧
    v = littleEndian (fun b => hbmAt s (x b)) n

/-- A(e) of R254 for the element that byte `k` of flit `f` belongs to: over its row, its place in the row and the outer dimensions, the row of
a gather or scatter taken from its list of indices, that of an SSEG counted from its segment's first. -/
def ElementAt (s : State) (m : Nat) (t : Stream) (f k : Nat) (A : Int) : Prop :=
  let c := t.cmd
  let n := rowSteps t
  let e := (64 * f + k) / unit t
  let row (o i : Nat) : Int :=
    (c.q0.toNat : Int) + o * (c.q4.extractLsb' 32 32 : BitVec 32).toInt + i * (c.q3.extractLsb' 32 32 : BitVec 32).toInt
  match c.kind.toNat with
  | 2 | 3 => ∃ v, MemoryWord s m t (c.q5 + BitVec.ofNat 64 (4 * (e / n % outer c))) 4 v ∧ A = row v (e % n)
  | 4 => ∃ x, Segment t f x ∧ (let e := (64 * (f - x.1) + k) / unit t; A = row (x.2.1 + e / n) (e % n))
  | _ => A = row (e / n % outer c) (e % n) + (e / (n * outer c) % (extWord t 0).toNat : Nat) * (extWord t 1).toInt +
      (e / (n * outer c * (extWord t 0).toNat) : Nat) * (extWord t 3).toInt

/-- The place of byte `k` of flit `f` (R352): A(e) lies below 2^55, and its page is translated. -/
def ByteAt (s : State) (m : Nat) (t : Stream) (need : BitVec 3) (f k : Nat) (x : Nat × Nat) : Prop :=
  ∃ A : Int, ElementAt s m t f k A ∧ 0 ≤ A ∧ A < 2 ^ 55 ∧ Mapped s m t need (BitVec.ofInt 64 (A + (k % unit t : Nat))) x

/-- The scratchpad offset of a flit, or the slice offset of one of SWLD (R353, R354, R356). -/
def flitOffset (t : Stream) (f : Nat) : Nat :=
  let ring := fld t.cmd.q2 20 16
  if t.cmd.kind.toNat = 6 then fld t.cmd.q2 0 20 + 64 * f else fld t.cmd.q2 0 18 + 64 * (if ring = 0 then f else f % ring)

/-- The line of an address of a table or record has come to the abutment (R22, R31). -/
def LineHere (s : State) (t : Stream) (va : Word) : Prop := ∃ due ≤ s.cycle, t.line = some (va.toNat / 64, due)

end Sys2Proof.Claims

/-- A turn of an abutment gives the context whose turn it is one flit of an SREAD, SGATH, SSEG or SWLD: the next flit carries, at packed byte
k, the HBM byte at A(e) of R254, for the offset of R353 or R356, with an add where R257 or R355 sets one, and is kept until it is
acknowledged; the request for those bytes has reached their homes by then. -/
def Sys2Proof.Claims.StreamReadsMemory : Prop :=
  ∀ (s : State) (m a nb : Nat) (t : Stream) (x : Nat → Nat × Nat),
    let kind := t.cmd.kind.toNat
    Claims.TurnOf s m a t → kind ∈ [0, 2, 4, 6] → t.answered = true → (Claims.Extended t.cmd → t.ext ≠ none) → t.part = [] → t.unacked = [] →
    t.held = [] → t.next < t.scan → fget t.cross t.next 0 ≤ s.cycle → reachable s m (Claims.fld t.cmd.q1 16 12) = true →
    (if kind = 4 then Claims.fld t.cmd.q5 55 9 < t.segIdx ∧ t.next < t.segTotal
     else t.total = (Claims.packed t + 63) / 64 ∧ t.next < t.total) →
    Claims.FlitSize t t.next nb → (∀ k < nb, Claims.ByteAt s m t 4 t.next k (x k)) →
    ∃ s' f t', Claims.Turned s s' m a t t' ∧
      Claims.Coming s s' (if kind = 6 then .weightFlitArrival f else .dataFlitArrival f) ∧
      f.mod = m ∧ f.abut = a ∧ f.sid = t.sid ∧ f.idx = t.next ∧ f.nb = nb ∧ f.off = Claims.flitOffset t t.next ∧
      (f.add = true ↔ Claims.Adds t t.next) ∧ (∀ k < nb, Claims.rowByte f.data k = Claims.hbmAt s (x k)) ∧
      t'.next = t.next + 1 ∧ t'.unacked = [t.next] ∧ Claims.SameMemory s s'

/-- The extension record of a stream is read in a turn once its line has come: its four words, the number of flits they make, and the answer
to sg.s; the stream goes on (R254). -/
def Sys2Proof.Claims.ExtensionRead : Prop :=
  ∀ (s : State) (m a : Nat) (t : Stream) (w : Nat → Nat), Claims.TurnOf s m a t → Claims.Extended t.cmd → t.answered = false →
    t.ext = none → Claims.LineHere s t t.cmd.q5 →
    (∀ i < 4, Claims.MemoryWord s m t (t.cmd.q5 + BitVec.ofNat 64 (8 * i)) 8 (w i)) →
    let ext := (List.range 4).map fun i => BitVec.ofNat 64 (w i)
    let total := (Claims.packed { t with ext := some ext } + 63) / 64
    total ≠ 0 →
    ∃ s' t', Claims.Turned s s' m a t t' ∧ t'.ext = some ext ∧ t'.total = total ∧ t'.answered = true ∧ t'.phase = .active ∧
      t'.next = t.next ∧ Claims.SgAnswered s s' t.cmd (BitVec.ofNat 64 total) ∧ Claims.SameMemory s s'

/-- The segment table of an SSEG is read a word a turn once its line has come: the first word begins, each later one that is not below the
one before and not above the outer count ends a segment, whose flits follow those before; one that is ends the table with a stop
(R238, R355). With the table read sg.s is answered with the number of flits, and the stream ends when they are sent and landed. -/
def Sys2Proof.Claims.SegmentTableRead : Prop :=
  ∀ (s : State) (m a : Nat) (t : Stream), Claims.TurnOf s m a t → t.cmd.kind.toNat = 4 →
    let count := Claims.fld t.cmd.q5 55 9
    let va : Word := BitVec.ofNat 64 (Claims.fld t.cmd.q5 3 52 * 8) + BitVec.ofNat 64 (8 * t.segIdx)
    (∀ v, t.segIdx ≤ count → Claims.LineHere s t va → Claims.MemoryWord s m t va 8 v →
      ∃ s' t', Claims.Turned s s' m a t t' ∧ Claims.SameMemory s s' ∧
        (t.segIdx = 0 → t'.segIdx = 1 ∧ t'.segPrev.toNat = v ∧ t'.segs = t.segs) ∧
        (t.segIdx ≠ 0 → t.segPrev.toNat ≤ v → v ≤ Claims.outer t.cmd →
          let n := ((v - t.segPrev.toNat) * Claims.rowSteps t * Claims.unit t + 63) / 64
          t'.segIdx = t.segIdx + 1 ∧ t'.segPrev.toNat = v ∧ t'.segTotal = t.segTotal + n ∧
            t'.segs = t.segs ++ (if n = 0 then [] else [(t.segTotal, t.segPrev.toNat, v - t.segPrev.toNat)])) ∧
        (t.segIdx ≠ 0 → v < t.segPrev.toNat ∨ Claims.outer t.cmd < v →
          t'.segBad = some ⟨0x13, t.segPrev, BitVec.ofNat 64 v, t.segIdx - 1⟩ ∧ t'.segIdx = count + 1 ∧ t'.segs = t.segs)) ∧
    (count < t.segIdx → t.answered = false →
      ∃ s' t', Claims.Turned s s' m a t t' ∧ t'.answered = true ∧ Claims.SgAnswered s s' t.cmd (BitVec.ofNat 64 t.segTotal) ∧
        Claims.SameMemory s s') ∧
    (t.segIdx = count + 1 → t.answered = true → t.segTotal ≤ t.next → t.unacked = [] → t.adds = 0 → t.openOut = false → t.stop = none →
      t.cancels = [] → (getAbut s m a).queue = [] →
      ∃ s', exec (.streamTurn m a) s = .next s' ∧ fget (getAbut s' m a).ctxs t.sid none = none ∧
        ∀ b, t.segBad = some b → ∃ d, Claims.Coming s s' (.deferredFaultReport d) ∧ d.code = BitVec.ofNat 16 b.code ∧ d.w3 = b.w3 ∧ d.pk = t.cmd.pk)

/-- A turn of a SWRITE or SSCAT asks its scratchpad side for the next flit while fewer than 64 are neither written nor in hand (R354). The
flit that is next to be written, once its bytes have reached their homes, is written to memory at A(e) in ascending order, and one that ends
a group owes the stream's increment as a message (R257). -/
def Sys2Proof.Claims.StreamWritesMemory : Prop :=
  ∀ (s : State) (m a nb : Nat) (t : Stream),
    let kind := t.cmd.kind.toNat
    Claims.TurnOf s m a t → (kind = 1 ∨ kind = 3) → t.answered = true → t.stop = none → (Claims.Extended t.cmd → t.ext ≠ none) →
    t.total = (Claims.packed t + 63) / 64 →
    (t.buffer = [] → t.held = [] → t.next < t.total → t.next - t.low < 64 → reachable s m (Claims.fld t.cmd.q1 16 12) = true →
      Claims.FlitSize t t.next nb →
      ∃ s' t' f, Claims.Turned s s' m a t t' ∧ Claims.Coming s s' (.scratchpadReadRequest f) ∧ f.mod = m ∧ f.abut = a ∧ f.sid = t.sid ∧
        f.idx = t.next ∧ f.nb = nb ∧ f.off = Claims.flitOffset t t.next ∧ t'.next = t.next + 1 ∧ t'.unacked = t.unacked ++ [t.next] ∧
        Claims.SameMemory s s') ∧
    (∀ (x : Nat → Nat × Nat) (row : Row) (bad : Bool), t.buffer = [(t.low, row, bad)] → t.low ∉ t.unacked → t.low < t.total →
      fget t.wcross t.low (s.cycle + 1) ≤ s.cycle → Claims.FlitSize t t.low nb → (∀ k < nb, Claims.ByteAt s m t 2 t.low k (x k)) →
      let ends := t.low = t.inc ∧ Claims.fld t.cmd.q1 28 9 ≠ 511
      ∃ s', exec (.streamTurn m a) s = .next s' ∧
        (∀ k < nb, (∀ j, k < j → j < nb → x j ≠ x k) → Claims.hbmAt s' (x k) = Claims.rowByte row k) ∧
        (∀ y, (∀ k < nb, x k ≠ y) → Claims.hbmAt s' y = Claims.hbmAt s y) ∧
        (t.low + 1 < t.total ∨ ends →
          ∃ t', Claims.Turned s s' m a t t' ∧ t'.low = t.low + 1 ∧ t'.landed = t.landed + 1 ∧ t'.buffer = [] ∧
            t'.adds = t.adds + (if ends then 1 else 0)) ∧
        (ends → Claims.Coming s s' (.streamIncrement m a t.sid t.cmd)))

namespace Sys2Proof.Claims

/-- Chunks of 64 KiB of a number of flits (R258). -/
def chunks (n : Nat) : Nat := (n + 1023) / 1024

/-- The module that an exchange is with (R258). -/
def partner (m : Nat) (t : Stream) : Nat := m ^^^ fld t.cmd.q5 0 12

/-- Chunks for which both sides of an exchange have taken room. -/
def roomFor (t : Stream) : Nat := if t.asking then t.claimed - 1 else t.claimed

/-- The turn of an exchange that has its partner, at context `q` of the same abutment (R258). -/
structure ExchangeTurn (s : State) (m a : Nat) (t : Stream) (q : Nat) : Prop where
  turn : TurnOf s m a t
  kind : t.cmd.kind.toNat = 5
  answered : t.answered = true
  mask : ∃ b < 32, fld t.cmd.q4 0 32 = 2 ^ b
  peer : t.peer = some q
  route : reachable s m (partner m t) = true

/-- An exchange takes no room for another chunk in this turn: it is the higher side, it waits for an answer, or has room for all. -/
def NoClaim (m : Nat) (t : Stream) : Prop :=
  partner m t < m ∨ t.asking = true ∨ max (chunks t.total) (chunks t.rtotal) ≤ t.claimed

/-- The outgoing chunk of a number has been read into the buffer (R258 step 1). -/
def ChunkRead (t : Stream) (c : Nat) : Prop := chunks t.total ≤ c ∨ min ((c + 1) * 1024) t.total ≤ t.rd

/-- An exchange grants no window in this turn (R258 step 2). -/
def NoGrant (t : Stream) : Prop := chunks t.rtotal ≤ t.granted ∨ roomFor t ≤ t.granted ∨ ¬ChunkRead t t.granted

/-- The index of the element of rank `r` among those with bit b of the select mask set, or clear. -/
def ranked (t : Stream) (set : Bool) (r : Nat) : Nat :=
  let b := (fld t.cmd.q4 0 32).log2
  r / 2 ^ b * 2 ^ (b + 1) + r % 2 ^ b + (if set then 2 ^ b else 0)

/-- Bytes that a side of an exchange sends, or receives: those of the elements with the bit set on the lower module (R258). -/
def exchangeBytes (m : Nat) (t : Stream) (mine : Bool) : Nat :=
  let n := fld t.cmd.q3 0 32
  let b := (fld t.cmd.q4 0 32).log2
  let set := n / 2 ^ (b + 1) * 2 ^ b + (n % 2 ^ (b + 1) - 2 ^ b)
  (if (decide (m < partner m t)) = mine then set else n - set) * 2 ^ fld t.cmd.q5 12 4

/-- The place of byte `k` of a flit of an exchange: sent, at the elements whose bit the side sends; received, at the partner's element
index with the bit turned (R258). -/
def ExchangeAt (s : State) (m : Nat) (t : Stream) (need : BitVec 3) (mine : Bool) (f k : Nat) (x : Nat × Nat) : Prop :=
  let v := 2 ^ fld t.cmd.q5 12 4
  let r := (64 * f + k) / v
  let low := decide (m < partner m t)
  let i := if mine then ranked t low r else ranked t (!low) r ^^^ fld t.cmd.q4 0 32
  let at_ := t.cmd.q0.toNat + i * v + (64 * f + k) % v
  at_ < 2 ^ 55 ∧ Mapped s m t need (BitVec.ofNat 64 at_) x

end Sys2Proof.Claims

/-- A turn of an SXCH does the first of these that it can: the lower side takes room for the next chunk and asks the other; a window is
granted to the partner for a chunk whose own counterpart is read and for which there is room; a received flit whose bytes have reached
their homes is written, at the partner's index with the bit turned; a flit read into the buffer is sent within the partner's window; the
next outgoing flit is read into the buffer (R258, R357). That room is taken on both sides at once is the model's choice (log entry 69). -/
def Sys2Proof.Claims.ExchangeTurns : Prop :=
  ∀ (s : State) (m a q : Nat) (t : Stream), Claims.ExchangeTurn s m a t q → t.unacked.length < 64 →
    let m' := Claims.partner m t
    (m < m' → t.asking = false → t.claimed < max (Claims.chunks t.total) (Claims.chunks t.rtotal) →
      (getAbut s m a).ctxs = [(t.sid, some t)] → t.claimed ≤ t.low / 1024 + 1 → t.claimed ≤ t.wlow / 1024 + 1 →
      ∃ s' t' f, Claims.Turned s s' m a t t' ∧ t'.claimed = t.claimed + 1 ∧ t'.asking = true ∧ Claims.SameMemory s s' ∧
        Claims.Coming s s' (.exchangeFlitArrival f) ∧ f.mod = m' ∧ f.abut = a ∧ f.sid = q ∧ f.nb = 0 ∧ f.idx = 1 ∧ f.off = m * 16 + t.sid ∧
        f.data = BitVec.ofNat 512 (Claims.fld t.cmd.t 7 10)) ∧
    (Claims.NoClaim m t → t.granted < Claims.chunks t.rtotal → t.granted < Claims.roomFor t → Claims.ChunkRead t t.granted →
      ∃ s' t', Claims.Turned s s' m a t t' ∧ t'.granted = t.granted + 1 ∧ Claims.SameMemory s s' ∧
        Claims.Coming s s' (.sxchWindowGrant m' a q)) ∧
    (Claims.NoClaim m t → Claims.NoGrant t →
      (∀ (x : Nat → Nat × Nat) (f nb : Nat) (row : Row) (bad : Bool), t.buffer = [(f, row, bad)] → fget t.wcross f (s.cycle + 1) ≤ s.cycle →
        nb = min 64 (Claims.exchangeBytes m t false - 64 * f) → (∀ k < nb, Claims.ExchangeAt s m t 2 false f k (x k)) →
        (∀ j k, j < k → k < nb → x j ≠ x k) → f = t.wlow → t.wset = [] → f + 1 < t.rtotal →
        ∃ s' t', Claims.Turned s s' m a t t' ∧ t'.wlow = t.wlow + 1 ∧ t'.landed = t.landed + 1 ∧ t'.buffer = [] ∧
          (∀ k < nb, Claims.hbmAt s' (x k) = Claims.rowByte row k) ∧ (∀ y, (∀ k < nb, x k ≠ y) → Claims.hbmAt s' y = Claims.hbmAt s y) ∧
          (Claims.fld t.cmd.q1 28 9 ≠ 511 → Claims.fld t.cmd.q1 48 16 ≠ 0 → (f + 1) % Claims.fld t.cmd.q1 48 16 = 0 →
            t'.adds = t.adds + 1 ∧ Claims.Coming s s' (.streamIncrement m a t.sid t.cmd))) ∧
      (t.buffer = [] → t.next < t.rd → t.next / 1024 < t.window →
        ∃ s' t' f, Claims.Turned s s' m a t t' ∧ t'.next = t.next + 1 ∧ t'.unacked = t.unacked ++ [t.next] ∧ Claims.SameMemory s s' ∧
          Claims.Coming s s' (.exchangeFlitArrival f) ∧ f.mod = m' ∧ f.abut = a ∧ f.sid = q ∧ f.idx = t.next ∧ f.off = m * 16 + t.sid ∧
          f.nb = min 64 (Claims.exchangeBytes m t true - 64 * t.next) ∧ f.data = (fget t.xbuf t.next (0, false)).1) ∧
      (∀ (x : Nat → Nat × Nat) (nb : Nat), t.buffer = [] → ¬(t.next < t.rd ∧ t.next / 1024 < t.window) → t.rd < t.total →
        t.rd / 1024 < Claims.roomFor t → t.part = [] → t.rd < t.scan → fget t.cross t.rd 0 ≤ s.cycle →
        nb = min 64 (Claims.exchangeBytes m t true - 64 * t.rd) → (∀ k < nb, Claims.ExchangeAt s m t 6 true t.rd k (x k)) →
        ∃ s' t' row bad, Claims.Turned s s' m a t t' ∧ t'.rd = t.rd + 1 ∧ fget t'.xbuf t.rd (0, false) = (row, bad) ∧
          (∀ k < nb, Claims.rowByte row k = Claims.hbmAt s (x k)) ∧ Claims.SameMemory s s'))

/-- A data flit lands in the scratchpad of its stream's pier and adds to the stream's sluice where it is tagged; one beyond its
credit is refused with retry, one outside the region of its actor is refused and stops its stream with 0x12; a weight-store flit
that the phase rule lets through is written to the slice, which is then its job's, and one inside a phase is refused and stops
its stream with 0x11; a read for a write stream gives the scratchpad bytes to the abutment. -/
def Sys2Proof.Claims.StreamFlitsLand : Prop :=
  ∀ (s : State) (f : Flit) (t : Stream) (pk : Nat), Claims.AtItsPier s f t pk → t.sid = f.sid → f.nb ≤ 64 → f.off % 64 = 0 →
    let back := AckTo.flit f.mod f.abut f.sid f.idx
    let ring := Claims.fld t.cmd.q2 20 16
    let lands := ring = 0 ∨ Claims.Credit s t pk (f.idx - ring + 1) 0
    let stops (s' : State) (code : Nat) : Prop := ∃ u, fget (getAbut s' f.mod f.abut).ctxs f.sid none = some u ∧
      u.stop = some ⟨code, 0, BitVec.ofNat 64 f.off, f.idx⟩ ∧ Claims.Acked s' back 3 ∧ Claims.SameMemory s s'
    (Claims.GoesOn t f → ¬lands → ∃ s', exec (.dataFlitArrival f) s = .next s' ∧ Claims.Acked s' back 1 ∧ Claims.SameMemory s s') ∧
    (Claims.GoesOn t f → lands → Claims.InRegion s t pk f → Claims.AddsTo s t pk f →
      ∃ s', exec (.dataFlitArrival f) s = .next s' ∧ Claims.Acked s' back 0 ∧ Claims.Counted s s' t pk f ∧
        (∀ k < f.nb, (Claims.spadByte s' pk (f.off + k)).toNat = Claims.kept (f.off + k) (Claims.rowByte f.data k).toNat) ∧
        (∀ b, ¬(f.off ≤ b ∧ b < f.off + f.nb) → Claims.spadByte s' pk b = Claims.spadByte s pk b) ∧
        (∀ q b, q ≠ pk → mget (getPier s' q).spad b = mget (getPier s q).spad b) ∧ s'.mods = s.mods) ∧
    (t.stop = none → lands → ¬Claims.InRegion s t pk f → ∃ s', exec (.dataFlitArrival f) s = .next s' ∧ stops s' 0x12) ∧
    (Claims.GoesOn t f → refreshWait (getMod s (pkMod pk)).cyc (f.off / 2 ^ 17) = 0 →
      let st := (getSite s (siteKey s pk)).status
      let owned := st.getLsbD 63 = true ∧ st.getLsbD 62 = false ∧ st.extractLsb' 0 12 = jobOf s pk
      (¬(owned ∧ jobInPhase s (jobOf s pk) (pkMod pk) = true) → Claims.AddsTo s t pk f →
        ∃ s', exec (.weightFlitArrival f) s = .next s' ∧ Claims.Acked s' back 0 ∧ Claims.Counted s s' t pk f ∧
          (∀ k < f.nb, mget (getSite s' (siteKey s pk)).slice (f.off + k) = Claims.rowByte f.data k) ∧
          (∀ k b, ¬(k = siteKey s pk ∧ f.off ≤ b ∧ b < f.off + f.nb) → mget (getSite s' k).slice b = mget (getSite s k).slice b) ∧
          (getSite s' (siteKey s pk)).status.extractLsb' 0 12 = jobOf s pk ∧
          (getSite s' (siteKey s pk)).status.getLsbD 63 = true ∧ (getSite s' (siteKey s pk)).status.getLsbD 62 = false ∧
          s'.mods = s.mods) ∧
      (t.stop = none → owned → jobInPhase s (jobOf s pk) (pkMod pk) = true →
        ∃ s', exec (.weightFlitArrival f) s = .next s' ∧ stops s' 0x11)) ∧
    (Claims.Credit s t pk f.idx 1 → Claims.InRegion s t pk f →
      ∃ s' u d, exec (.scratchpadReadRequest f) s = .next s' ∧ Claims.Acked s' back 0 ∧ Claims.SameMemory s s' ∧
        fget (getAbut s' f.mod f.abut).ctxs f.sid none = some u ∧ u.buffer = t.buffer ++ [(f.idx, d, Claims.spadBad s pk f.off)] ∧
        ∀ k < f.nb, Claims.rowByte d k = Claims.spadByte s pk (f.off + k))

/-- A refused flit of a stream that goes on is sent again; one of a stream that is ending is let go. An increment that a stream owes
as a message is made at its sluice and no longer owed. -/
def Sys2Proof.Claims.StreamFlitsResentAndIncrements : Prop :=
  ∀ (s : State) (f : Flit) (t : Stream), fget (getAbut s f.mod f.abut).ctxs f.sid none = some t → t.sid = f.sid →
    (t.phase ≠ .ending → (getAbut s f.mod f.abut).haltedFor = [] → reachable s f.mod (Claims.fld t.cmd.q1 16 12) = true →
      ∃ s', exec (.flitResend f) s = .next s' ∧
      Claims.Coming s s' (if t.cmd.kind.toNat = 1 ∨ t.cmd.kind.toNat = 3 then .scratchpadReadRequest f
        else if t.cmd.kind.toNat = 6 then .weightFlitArrival f else .dataFlitArrival f) ∧ Claims.SameMemory s s') ∧
    (t.phase = .ending → (∃ k ∈ t.unacked, k ≠ f.idx) → ∃ s' u, exec (.flitResend f) s = .next s' ∧
      fget (getAbut s' f.mod f.abut).ctxs f.sid none = some u ∧ u.unacked = t.unacked.filter (· != f.idx) ∧ Claims.SameMemory s s') ∧
    ∀ pk, reachable s f.mod (Claims.fld t.cmd.q1 16 12) = true →
      pkOfAddr s (Claims.fld t.cmd.q1 16 12) (Claims.fld t.cmd.q1 6 10) (jobOf s t.cmd.pk) = some pk → residentOpen s pk = true →
      (getPier s pk).lost = false → (getPier s pk).fenced = false → Claims.QuietCounter s pk (Claims.fld t.cmd.q1 28 9) →
      1 < t.adds → ∃ s' u, exec (.streamIncrement f.mod f.abut f.sid t.cmd) s = .next s' ∧
        fget (getAbut s' f.mod f.abut).ctxs f.sid none = some u ∧ u = { t with adds := t.adds - 1, addsBack := min t.addsBack (t.adds - 1) } ∧ Claims.SameMemory s s' ∧
        ∀ n, (getSluice s' pk n).count = (getSluice s pk n).count + (if n = Claims.fld t.cmd.q1 28 9 then 1 else 0)

namespace Sys2Proof.Claims

/-- An exchange that names its partner (R258): another side with its tag on the same abutment of the module its mask names. -/
structure Partners (s : State) (m a : Nat) (t u : Stream) : Prop where
  mine : fget (getAbut s m a).ctxs t.sid none = some t
  theirs : (getAbut s (m ^^^ fld t.cmd.q5 0 12) a).ctxs = [(u.sid, some u)]
  other : fld t.cmd.q5 0 12 ≠ 0
  kinds : t.cmd.kind.toNat = 5 ∧ u.cmd.kind.toNat = 5
  phases : t.phase = .pairing ∧ u.phase = .pairing
  fresh : t.peer = none ∧ u.peer = none ∧ t.stop = none ∧ u.stop = none
  tags : fld u.cmd.t 7 10 = fld t.cmd.t 7 10
  masks : fld u.cmd.q5 0 12 = fld t.cmd.q5 0 12
  jobs : jobOf s u.cmd.pk = jobOf s t.cmd.pk

/-- Two sides agree (R357): count, select mask and element size. -/
def Agree (t u : Stream) : Prop :=
  fld u.cmd.q3 0 32 = fld t.cmd.q3 0 32 ∧ fld u.cmd.q4 0 32 = fld t.cmd.q4 0 32 ∧ fld u.cmd.q5 12 4 = fld t.cmd.q5 12 4

/-- A stream with nothing under way at an abutment with no command waiting: stopped, it ends at once (R358). -/
def AtOnce (s : State) (m a : Nat) (t : Stream) : Prop :=
  t.unacked = [] ∧ t.adds = 0 ∧ t.openOut = false ∧ t.answered = true ∧ t.cancels = [] ∧ (getAbut s m a).queue = []

/-- A stream has ended with a record of a code. -/
def EndedWith (s t : State) (m a : Nat) (x : Stream) (code : BitVec 16) : Prop :=
  fget (getAbut t m a).ctxs x.sid none = none ∧ ∃ d, Coming s t (.deferredFaultReport d) ∧ d.code = code ∧ d.pk = x.cmd.pk

end Sys2Proof.Claims

/-- An exchange that reaches the module its mask names pairs with the side there where count, select mask and element size agree, and itself
goes on after the way back; where they differ both stop with 0x12; it waits where there is no such side, and stops with 0x0B where the module
cannot be reached. A grant widens its window by one chunk; a flit of its partner joins its buffer and is acknowledged, any other is refused.
Flits of no bytes are the partner's words: it asks for room for a chunk, and is told whether there is; a partner that stops, stops it
(R258, R357). -/
def Sys2Proof.Claims.ExchangesPairAndReceive : Prop :=
  ∀ (s : State) (m a : Nat) (t : Stream), fget (getAbut s m a).ctxs t.sid none = some t → t.cmd.kind.toNat = 5 →
    let m' := m ^^^ Claims.fld t.cmd.q5 0 12
    let pairs (s' : State) : Prop := exec (.sxchPair m a t.sid) s = .next s' ∧ Claims.SameMemory s s'
    (∀ u, Claims.Partners s m a t u → reachable s m m' = true →
      (Claims.Agree t u → u.wlow < u.rtotal →
        ∃ s', pairs s' ∧ fget (getAbut s' m a).ctxs t.sid none = some { t with peer := some u.sid } ∧
          fget (getAbut s' m' a).ctxs u.sid none = some { u with phase := .active, peer := some t.sid } ∧
          Claims.Coming s s' (.sxchPair m a t.sid)) ∧
      (¬Claims.Agree t u → Claims.AtOnce s m' a u →
        ∃ s', pairs s' ∧ fget (getAbut s' m a).ctxs t.sid none = some { t with stop := some ⟨0x12, 0, t.cmd.q4, 0⟩ } ∧
          Claims.EndedWith s s' m' a u 0x12 ∧ Claims.Coming s s' (.sxchPair m a t.sid))) ∧
    (t.phase = .pairing → t.stop = none → ∀ q, t.peer = some q → t.wlow < t.rtotal →
      ∃ s', pairs s' ∧ fget (getAbut s' m a).ctxs t.sid none = some { t with phase := .active }) ∧
    (t.phase = .pairing → ∀ f, t.stop = some f → t.peer = none → Claims.AtOnce s m a t →
      ∃ s', pairs s' ∧ Claims.EndedWith s s' m a t (BitVec.ofNat 16 f.code)) ∧
    (t.phase = .pairing → t.stop = none → t.peer = none →
      (reachable s m m' = true → (getAbut s m' a).ctxs = [] → exec (.sxchPair m a t.sid) s = .next s) ∧
      (reachable s m m' = false → Claims.AtOnce s m a t → ∃ s', pairs s' ∧ Claims.EndedWith s s' m a t 0x0B)) ∧
    (∀ q, t.peer = some q →
      (∃ s', exec (.sxchWindowGrant m a t.sid) s = .next s' ∧
        fget (getAbut s' m a).ctxs t.sid none = some { t with window := t.window + 1 } ∧ Claims.SameMemory s s') ∧
      ∀ f : Flit, f.mod = m → f.abut = a → f.sid = t.sid → q < 16 →
        let gives (u : Stream) (s' : State) : Prop :=
          exec (.exchangeFlitArrival f) s = .next s' ∧ fget (getAbut s' m a).ctxs t.sid none = some u ∧ Claims.SameMemory s s'
        let tells (s' : State) (w : Nat) : Prop := ∃ g, Claims.Coming s s' (.exchangeFlitArrival g) ∧ g.mod = m' ∧ g.abut = a ∧ g.sid = q ∧
          g.nb = 0 ∧ g.idx = w ∧ g.off = m * 16 + t.sid ∧ g.data = BitVec.ofNat 512 (Claims.fld t.cmd.t 7 10)
        (f.nb ≠ 0 → f.off = m' * 16 + q →
          ∃ s', gives { t with buffer := t.buffer ++ [(f.idx, f.data, f.poison)] } s' ∧ Claims.Acked s' (.flit m' a q f.idx) 0) ∧
        (f.nb ≠ 0 → f.off / 16 ≠ m' → (getAbut s m a).savedCtxs = [] →
          ∃ s', gives t s' ∧ Claims.Acked s' (.flit (f.off / 16) a (f.off % 16) f.idx) 3) ∧
        (f.nb = 0 → f.off = m' * 16 + q → f.data = BitVec.ofNat 512 (Claims.fld t.cmd.t 7 10) → t.phase = .active → reachable s m m' = true →
          (f.idx = 1 → (getAbut s m a).ctxs = [(t.sid, some t)] →
            (t.claimed ≤ t.low / 1024 + 1 → t.claimed ≤ t.wlow / 1024 + 1 → ∃ s', gives { t with claimed := t.claimed + 1 } s' ∧ tells s' 2) ∧
            (t.low / 1024 + 2 ≤ t.claimed → t.low < t.total → t.claimed ≤ Claims.chunks t.total → ∃ s', gives t s' ∧ tells s' 3)) ∧
          (f.idx = 2 → ∃ s', gives { t with asking := false } s') ∧
          (f.idx = 3 → t.asking = true → ∃ s', gives { t with asking := false, claimed := t.claimed - 1 } s') ∧
          (f.idx = 4 → Claims.AtOnce s m a t →
            ∃ s', exec (.exchangeFlitArrival f) s = .next s' ∧ Claims.SameMemory s s' ∧ Claims.EndedWith s s' m a t 0x12)))

namespace Sys2Proof.Claims

/-- The pier's placement entry of the run: its slot and the windows that each logical pier has (R195, R200). -/
def windowOf (s : State) (j : Nat) : Nat :=
  let e := entryOf s (pkMod s.issue.pk) (pkPart s.issue.pk) (curLp s)
  teSlot e * (8 / teFold e) + j

/-- The writable fields of a control word as they stand (R34, R72, R133, R146, R155, R184, R232). -/
def cwField (s : State) (n : Nat) : Word :=
  let a := curActor s
  let p := curPier s
  if 0x20 ≤ n ∧ n < 0x28 then fget p.wins (windowOf s (n - 0x20)) 0
  else match n with
    | 0x04 => (curStrand s).seed.setWidth 64
    | 0x10 => a.rgnbase
    | 0x11 => a.rgnlim
    | 0x12 => a.weir.setWidth 64
    | 0x13 => a.spill
    | 0x14 => a.fault
    | 0x15 => a.graph.setWidth 64
    | 0x100 => p.xlroot
    | 0x101 => p.dlogHead.setWidth 64 <<< 16
    | 0x108 => p.jobStrands.setWidth 64 <<< 32 ||| p.age.setWidth 64
    | 0x10A => p.laglim.setWidth 64
    | 0x10B => p.savelim.setWidth 64
    | _ => 0

/-- The writable control words with their fields: those that job code may write, and those that service code may. -/
def cwFields (s : State) : List (Nat × Word × Word) :=
  [ (0x04, 0xFFFFFFFF, 0xFFFFFFFF), (0x12, 0x1FF, 0x1FF), (0x14, 0x1FFFFFFF, 0x1FFFFFFF), (0x10, 0, 0x7FFC0), (0x11, 0, 0x7FFC0)
  , (0x13, 0, 0x7FFFFFFFFF001F), (0x15, 0, 0xFFF), (0x100, 0, 0xFFFFFFFFFFFFFFFF), (0x101, 0, 0xFF0000), (0x108, 0, 0x70000003F)
  , (0x10A, 0, 0xFFFFFFFF), (0x10B, 0, 0xFFFFFFFF) ] ++
  (List.range (8 / teFold (entryOf s (pkMod s.issue.pk) (pkPart s.issue.pk) (curLp s)))).map fun j =>
    (0x20 + j, 0xFF000FFFFFFFC000, 0xFF000FFFFFFFC000)

/-- The control words that job code may read beside the writable ones below 0x100. -/
def jobWords : List Nat := [0, 1, 2, 3, 4, 0x10, 0x11, 0x12, 0x13, 0x14, 0x15, 0x16, 0x28, 0x30]
/-- The control words of service code alone. -/
def serviceWords : List Nat := [0x100, 0x101, 0x108, 0x109, 0x10A, 0x10B, 0x10C]

/-- The value checks of a control word (R35, R134, R184, R294). -/
def CwAllows (n : Nat) (v : Word) : Prop :=
  (n = 0x12 → 1 ≤ fld v 0 9 ∧ fld v 0 9 ≤ 256) ∧ (n = 0x13 → fld v 0 4 ≤ 12) ∧ (n = 0x108 → fld v 32 3 ≠ 0) ∧
  (0x20 ≤ n ∧ n < 0x28 → fld v 58 2 ≠ 3 ∧
    ((fld v 56 2 = 0 ∧ fld v 14 15 ≤ 0xFC0) ∨ (fld v 56 2 = 1 ∧ fld v 60 2 = 0 ∧ fld v 14 15 ≤ 0x4000)))

/-- The value checks that fail, with the code and the word w3 of the fault: the written value, or the index where a window would open
the service area (R35, R134, R184, R209, R294). -/
def CwRefuses (n : Nat) (v : Word) (code : Nat) (w3 : Word) : Prop :=
  let window := 0x20 ≤ n ∧ n < 0x28
  (code = 0x03 ∧ w3 = v ∧
    ((n = 0x12 ∧ (fld v 0 9 = 0 ∨ 256 < fld v 0 9)) ∨ (n = 0x13 ∧ 12 < fld v 0 4) ∨ (n = 0x108 ∧ fld v 32 3 = 0) ∨
      (window ∧ (fld v 58 2 = 3 ∨ 2 ≤ fld v 56 2 ∨ (fld v 56 2 = 1 ∧ (fld v 60 2 ≠ 0 ∨ 0x4000 < fld v 14 15)))))) ∨
  (code = 0x0D ∧ w3 = BitVec.ofNat 64 n ∧ window ∧ fld v 58 2 ≠ 3 ∧ fld v 56 2 = 0 ∧ 0xFC0 < fld v 14 15)

/-- CWR and the steps of the table that are a CWR of one word, with the words each stands for. -/
def cwrForms (m : Mv) : List (Instr × (Nat → Prop)) :=
  [ (.cwr m, fun _ => True), (.writeWindow m, fun n => 0x20 ≤ n ∧ n < 0x28), (.writeWeir m, fun n => n = 0x12)
  , (.writeSeed m, fun n => n = 4), (.writeSched m, fun n => n = 0x108), (.writeXlroot m, fun n => n = 0x100) ]

/-- Nothing of the run but sy's ports, the words of one control word and what waits at the pier is changed. -/
structure CwOnly (s t : State) (n : Nat) : Prop where
  fields : ∀ f ∈ cwFields s, f.1 ≠ n → cwField t f.1 = cwField s f.1
  regs : ∀ r, readX (curStrand t) r = readX (curStrand s) r ∧ readV (curStrand t) r = readV (curStrand s) r ∧
    readC (curStrand t) r = readC (curStrand s) r
  ports : ∀ i, i / 4 ≠ 0x2C → resPort (curStrand t) i = resPort (curStrand s) i
  strands : ∀ pk st, ¬(pk = s.issue.pk ∧ st = s.issue.strand) → getStrand t pk st = getStrand s pk st
  actors : ∀ a, a ≠ curActorIx s → getActor t s.issue.pk a = getActor s s.issue.pk a
  others : ∀ pk, pk ≠ s.issue.pk → getPier t pk = getPier s pk
  sluices : (curPier t).sluices = (curPier s).sluices
  messages : (curPier t).inbox = (curPier s).inbox ∧ (curPier t).outbox = (curPier s).outbox
  memory : SameMemory s t

/-- The words of a record and its handler entries (R55) are in range. -/
structure RecordFits (s : State) (job : BitVec 12) (w : Nat → Word) : Prop where
  index : (w 0).toNat < 128 ∧ ((w 0).getLsbD 6 = true ∨ fld (w 0) 0 6 ≠ 63)
  region : (w 1).toNat ≤ 0x3F000 ∧ (w 1).toNat % 64 = 0 ∧ (w 2).toNat ≤ 0x3F000 ∧ (w 2).toNat % 64 = 0
  weir : 1 ≤ fld (w 3) 0 9 ∧ fld (w 3) 0 9 ≤ 256
  spill : (w 4).toNat < 2 ^ 55 ∧ fld (w 4) 5 11 = 0 ∧ fld (w 4) 0 4 ≤ 12
  fault : (w 5).toNat < 2 ^ 29
  graph : (w 6).toNat < 2 ^ 12 ∧ ∃ g ∈ (getJob s job.toNat).img.graphs, g.graph.toNat = (w 6).toNat
  count : (w 7).toNat ≤ 32
  entries : ∀ i < (w 7).toNat, fld (w (8 + i)) 0 30 = 0

/-- The actor that a record makes: idle, with the record's words. -/
def actorOf (lp : BitVec 10) (w : Nat → Word) : Actor :=
  { st := .idle, lp, rgnbase := w 1, rgnlim := w 2, weir := (w 3).extractLsb' 0 9, spill := w 4, fault := w 5,
    graph := (w 6).extractLsb' 0 12 }

/-- The entry that a record asks for: the lowest free one, or the named one (R55). -/
def AsksFor (p : Pier) (w0 : Word) (i : Nat) : Prop :=
  i < 63 ∧ (pierActor p i).st = .free ∧
  if w0.getLsbD 6 then ∀ j < i, (pierActor p j).st ≠ .free else i = fld w0 0 6

end Sys2Proof.Claims

/-- CRD gives a control word as it stands two cycles later; job code that names a service word faults with 0x0D, and an index with no
word faults with 0x03, each with the index in w3. A CRD of cw.seed waits for an operation on it that has not completed. That the tail
of cw.dlog is its head plus its count is the model's choice (log entry 34), and so is that a count shows cut to its field (log entry
64). -/
def Sys2Proof.Claims.ControlWordsRead : Prop :=
  ∀ (s : State) (m : Mv) (t : Value), Claims.Fires s m t → t.poison = false →
    let n := (vsc t).toNat
    let known := n ∈ Claims.jobWords ++ Claims.serviceWords ∨ ∃ f ∈ Claims.cwFields s, f.1 = n
    let gives (v : Word) : Prop := exec (.crd m) s = .next (Claims.later s 12 2 (Value.ofWord v) none (n == 4))
    (n = 4 → (∃ p ∈ (curStrand s).pend, p.seed = true) → exec (.crd m) s = .next (markHeld s)) ∧
    ((n ≠ 4 ∨ ∀ p ∈ (curStrand s).pend, p.seed = false) →
    (0x100 ≤ n → curService s = false → exec (.crd m) s = .next (raise s 12 0x0D (moveWord s t) (vsc t))) ∧
    (curService s = true ∨ n < 0x100 → ¬known → exec (.crd m) s = .next (raise s 12 0x03 (moveWord s t) (vsc t))) ∧
    (curService s = true ∨ n < 0x100 → (∃ f ∈ Claims.cwFields s, f.1 = n) → n ≠ 0x12 → n ≠ 0x101 → gives (Claims.cwField s n)) ∧
    (n = 0 → gives (BitVec.ofNat 64 s.issue.strand)) ∧ (n = 1 → gives ((curStrand s).actor.setWidth 64)) ∧
    (n = 2 → gives (curStrand s).cycles) ∧ (n = 3 → gives ((curStrand s).runid.setWidth 64)) ∧
    (n = 0x30 → gives ((jobOf s s.issue.pk).setWidth 64)) ∧
    (n = 0x12 → gives (BitVec.ofNat 64
      ((if (curActor s).spilled ≠ [] ∨ (curActor s).transit ≠ 0 then 2 ^ 31 else 0) +
        ((curPier s).inbox.filter fun x => x.msg.dact.toNat == curActorIx s && !x.reserve).length % 512 * 2 ^ 16 +
        (curActor s).weir.toNat))) ∧
    (n = 0x16 → gives (BitVec.ofNat 64
      ((if (curPier s).hold then 2 ^ 63 else 0) + (curStrand s).wexp % 256 * 2 ^ 40 + (curStrand s).wd % 2 ^ 40))) ∧
    (n = 0x28 → gives (BitVec.ofNat 64
      (pkMod s.issue.pk % 4096 * 2 ^ 32 + physicalOf s s.issue.pk % 2048 * 2 ^ 16 + (curStrand s).lp.toNat))) ∧
    (curService s = true →
      (n = 0x101 → gives (BitVec.ofNat 64 ((curPier s).dlogCount % 512 * 2 ^ 32 + (curPier s).dlogHead.toNat * 2 ^ 16 +
        ((curPier s).dlogHead.toNat + (curPier s).dlogCount) % 256))) ∧
      (n = 0x109 → gives (getMod s (pkMod s.issue.pk)).tb) ∧
      (n = 0x10C → gives (BitVec.ofNat 64 ((if (curPier s).hold then 2 ^ 63 else 0) + (if (curPier s).debugHalted then 2 ^ 62 else 0))))))

/-- A CWR that may write a word gives it the written value in the fields the running code may write and zero elsewhere, 1 for a seed
of 0, and changes nothing else; a service CWR of a word without a writable field changes nothing. Job code that names a service word,
or writes a field it may not, faults with 0x0D; an index with no word faults with 0x03, and then a value that fails a check of its
word faults with the code and w3 of that check. The steps of the table that are a CWR of one word do nothing where port a names
another word, the model's choice (log entry 12); that cw.dlog reads a tail of head plus count, so that a CWR of the head moves the
tail, is the model's choice (log entry 34), as is that counts show cut to their fields (log entry 64). -/
def Sys2Proof.Claims.ControlWordsWritten : Prop :=
  ∀ (s : State) (m : Mv) (t a : Value) (i : Instr) (here : Nat → Prop), Claims.Fires s m t → Claims.Port s .syA a →
    t.poison = false → a.poison = false → (i, here) ∈ Claims.cwrForms m →
    let n := (vsc a).toNat
    (¬here n → exec i s = .next s) ∧
    (here n → (n ≠ 4 ∨ ∀ p ∈ (curStrand s).pend, p.seed = false) →
    (∀ jobMask serviceMask, (n, jobMask, serviceMask) ∈ Claims.cwFields s →
      let mask := if curService s then serviceMask else jobMask
      (curService s = true ∨ (jobMask ≠ 0 ∧ vsc t &&& ~~~jobMask = 0)) → Claims.CwAllows n (vsc t) →
      ∃ s', exec i s = .next s' ∧ Claims.CwOnly s s' n ∧
        Claims.cwField s' n = (if n = 4 ∧ vsc t &&& mask = 0 then 1 else vsc t &&& mask)) ∧
    (∀ jobMask serviceMask code w3, (n, jobMask, serviceMask) ∈ Claims.cwFields s →
      (curService s = true ∨ (jobMask ≠ 0 ∧ vsc t &&& ~~~jobMask = 0)) → Claims.CwRefuses n (vsc t) code w3 →
      exec i s = .next (raise s 12 code (moveWord s t) w3)) ∧
    (curService s = true ∨ n < 0x100 → n ∉ Claims.jobWords ++ Claims.serviceWords → (∀ f ∈ Claims.cwFields s, f.1 ≠ n) →
      exec i s = .next (raise s 12 0x03 (moveWord s t) (vsc a))) ∧
    (n ∈ Claims.jobWords ++ Claims.serviceWords → (∀ f ∈ Claims.cwFields s, f.1 ≠ n) →
      (curService s = true → ∃ s', exec i s = .next s' ∧ Claims.CwOnly s s' n) ∧
      (curService s = false → n < 0x100 → exec i s = .next (raise s 12 0x0D (moveWord s t) (vsc a)))) ∧
    (curService s = false → 0x100 ≤ n → exec i s = .next (raise s 12 0x0D (moveWord s t) (vsc a))) ∧
    (∀ jobMask serviceMask, (n, jobMask, serviceMask) ∈ Claims.cwFields s → n < 0x100 → curService s = false →
      jobMask = 0 ∨ vsc t &&& ~~~jobMask ≠ 0 → exec i s = .next (raise s 12 0x0D (moveWord s t) (vsc a))))

/-- ACRT reads its record and entries when it issues, after its checks, and its creation takes effect when sy.r is written, 2 to 64
cycles later, and not before those its pier has triggered earlier: −3 for a record that is out of range, −1 for no index, −2 for too few free handler entries, each changing
nothing, else the index of an idle actor with the record's words, its entries in the lowest free places of the table. -/
def Sys2Proof.Claims.ActorsCreated : Prop :=
  (∀ (s : State) (m : Mv) (t : Value), Claims.Fires s m t → t.poison = false → acqPending s = false →
    let o := (vsc t).toNat
    let k := Claims.spadNum s s.issue.pk (o + 56) 8 % 64
    let n := if k ≤ 32 then 8 + k else 8
    (o % 64 ≠ 0 → exec (.acrt m) s = .next (raise s 12 0x07 (moveWord s t) (vsc t))) ∧
    (o % 64 = 0 → Claims.LsAllows s o 64 →
      (if curActorIx s = 63 then o + 8 * n ≤ 0x40000 else o + 8 * n ≤ Claims.fld (curActor s).rgnlim 6 13 * 64) →
      (∀ i < 8 * n, Claims.spadBad s s.issue.pk (o + i) = false) →
      ∃ s' w due, exec (.acrt m) s = .next s' ∧ s.cycle + 2 ≤ due ∧ (creationsOf (curPier s) = [] → due ≤ s.cycle + 64) ∧
        (∀ d q k tok, (d, Instr.resultPortWrite q k 12 tok) ∈ s.cal → tok ∈ creationsOf (curPier s) → d ≤ due) ∧
        (due, Instr.resultPortWrite s.issue.pk s.issue.strand 12 s.tok) ∈ s'.cal ∧ resPort (curStrand s') 0x0B0 = .pending s.tok ∧
        (∃ p ∈ (curStrand s').pend, p.tok = s.tok ∧ p.unit = 12 ∧ p.create = some w) ∧ w.length = n ∧
        (∀ i < n, (w.getD i 0).toNat = Claims.spadNum s s.issue.pk (o + 8 * i) 8) ∧
        Claims.SameMemory s s' ∧ Claims.RunFrame s s' 12)) ∧
  ∀ (s : State) (pk st tok : Nat) (l : List Word) (p : Pending), p.tok = tok → p.unit = 12 → p.create = some l → p.h = none →
    (getStrand s pk st).pend = [p] → resPort (getStrand s pk st) 0x0B0 = .pending tok →
    let w (i : Nat) : Word := l.getD i 0
    let q := getPier s pk
    l.length = 8 + (w 7).toNat ∨ 32 < (w 7).toNat →
    let gives (r : Int) (s' : State) : Prop := exec (.resultPortWrite pk st 12 tok) s = .next s' ∧
      resPort (getStrand s' pk st) 0x0B0 = .full (Value.ofWord (BitVec.ofInt 64 r)) ∧ Claims.SameMemory s s'
    let same (s' : State) : Prop := (getPier s' pk).actors = q.actors ∧ (getPier s' pk).handlers = q.handlers
    (¬Claims.RecordFits s (jobOf s pk) w → ∃ s', gives (-3) s' ∧ same s') ∧
    (Claims.RecordFits s (jobOf s pk) w → (∀ i, ¬Claims.AsksFor q (w 0) i) → ∃ s', gives (-1) s' ∧ same s') ∧
    (∀ i, Claims.RecordFits s (jobOf s pk) w → Claims.AsksFor q (w 0) i → (freeHandlers q).length < (w 7).toNat →
      ∃ s', gives (-2) s' ∧ same s') ∧
    (∀ i, Claims.RecordFits s (jobOf s pk) w → Claims.AsksFor q (w 0) i → (w 7).toNat ≤ (freeHandlers q).length →
      ∃ s', gives i s' ∧ getActor s' pk i = Claims.actorOf (getStrand s pk st).lp w ∧ (∀ j, j ≠ i → getActor s' pk j = getActor s pk j) ∧
        (∀ j n, j < (w 7).toNat → (freeHandlers q)[j]? = some n →
          fget (getPier s' pk).handlers n 0 = setBits (w (8 + j)) 57 6 i) ∧
        ∀ n, n ∉ (freeHandlers q).take (w 7).toNat → fget (getPier s' pk).handlers n 0 = fget q.handlers n 0)

/-- ARET makes the actor retiring and changes nothing else; GDONE sends the graph's add to the job controller; GCNCL sends its level
and id; TLBI by service code joins its agent's queue where its strand has no earlier request on its way. ARET and GDONE of the service actor and GCNCL of level 3 fault with 0x03,
TLBI of job code with 0x0D; the opcode in w3 of the first three and the 0 of the last are the model's choice (log entry 27), and so
are the low six bits of the region words that make ACRT answer −3 (log entry 35). -/
def Sys2Proof.Claims.CompletionAndCancelTriggers : Prop :=
  ∀ (s : State) (m : Mv) (t : Value), Claims.Fires s m t → t.poison = false →
    let pk := s.issue.pk
    (curService s = true → exec (.aret m) s = .next (raise s 12 0x03 (moveWord s t) 3)) ∧
    (curService s = false → ∃ s', exec (.aret m) s = .next s' ∧ curActor s' = { curActor s with retiring := true } ∧
      (∀ n, n ≠ curActorIx s → getActor s' pk n = getActor s pk n) ∧ Claims.SameMemory s s' ∧
      Claims.SameRegs (curStrand s) (curStrand s') ∧ s'.cal = s.cal ∧ s'.mods = s.mods) ∧
    (Claims.SendReady s →
      (curService s = true → exec (.gdone m) s = .next (raise s 12 0x03 (moveWord s t) 4)) ∧
      (curService s = false → ∃ s' e, exec (.gdone m) s = .next s' ∧ e ∈ (curPier s').outbox ∧ e.tok = s.tok ∧
        e.body = .gdone (curActor s).graph ((vsc t).extractLsb' 0 32) ∧ e.key = .toController (curActorIx s) ∧
        Claims.SameMemory s s' ∧ Claims.SameRegs (curStrand s) (curStrand s') ∧
        (∀ q k, getSluice s' q k = getSluice s q k) ∧ ∀ q, (getPier s' q).actors = (getPier s q).actors)) ∧
    (Claims.fld (vsc t) 0 2 = 3 → exec (.gcncl m) s = .next (raise s 12 0x03 (moveWord s t) 5)) ∧
    (Claims.fld (vsc t) 0 2 ≠ 3 → ∃ s', exec (.gcncl m) s = .next s' ∧
      Claims.Coming s s' (.cancel (pkMod pk) (jobOf s pk).toNat (Claims.fld (vsc t) 0 2)
        (if Claims.fld (vsc t) 0 2 = 2 then (jobOf s pk).toNat else Claims.fld (vsc t) 32 12)) ∧
      Claims.SameMemory s s' ∧ Claims.RunFrame s s' 12) ∧
    ∀ a, Claims.Port s .syA a → a.poison = false →
      let sp := siteOf s pk / 256
      let g := getAgent s (pkMod pk) sp
      (curService s = false → exec (.tlbi m) s = .next (raise s 12 0x0D (moveWord s t) 0)) ∧
      (curService s = true → Claims.fld (vsc t) 0 2 < 3 → Claims.fld (vsc t) 5 11 = 0 → Claims.fld (vsc t) 28 4 = 0 →
        Claims.fld (vsc t) 41 23 = 0 → (Claims.fld (vsc t) 0 2 = 0 → Claims.fld (vsc a) 55 9 = 0) → g.queue.length < 16 →
        (∀ r : TlbiReq, r.pk = pk → r.strand = s.issue.strand → r.tok = s.tok → ¬Claims.TlbiOnItsWay s (pkMod pk) sp r) →
        ∃ s' r, exec (.tlbi m) s = .next s' ∧ (getAgent s' (pkMod pk) sp).queue = g.queue ++ [r] ∧ r.pk = pk ∧ r.strand = s.issue.strand ∧
          r.tok = s.tok ∧ r.t = vsc t ∧ (Claims.fld (vsc t) 0 2 = 0 → r.a = vsc a) ∧
          (g.cur = none → g.queue = [] → Work.ev (.invalidationAgent (pkMod pk) sp) ∈ s'.agenda) ∧
          Claims.SameMemory s s' ∧ Claims.RunFrame s s' 12) ∧
      (curService s = true → Claims.fld (vsc t) 0 2 = 3 → exec (.tlbi m) s = .next (raise s 12 0x03 (moveWord s t) (vsc t)))

namespace Sys2Proof.Claims

/-- The handler entry of an actor and a class: the lowest that matches (R37, R38). -/
def Binds (p : Pier) (a cls : Nat) (h : Word) : Prop :=
  ∃ n < 128, fget p.handlers n 0 = h ∧ matches_ h ∧ ∀ k < n, ¬matches_ (fget p.handlers k 0)
where
  matches_ (w : Word) : Prop := w.getLsbD 63 = true ∧ fld w 57 6 = a ∧ fld w 52 5 = cls

/-- No entry binds the pair. -/
def Unbound (p : Pier) (a cls : Nat) : Prop :=
  ∀ n < 128, ¬((fget p.handlers n 0).getLsbD 63 = true ∧ fld (fget p.handlers n 0) 57 6 = a ∧ fld (fget p.handlers n 0) 52 5 = cls)

/-- A message keeps the urgent flag (R40). -/
def urgent (g : Msg) : Bool := g.flags.getLsbD 0 && g.sact == 63 && g.cls == 30

/-- The kinds that are exempt from the weir and may use the reserve (R42). -/
def isExempt (g : Msg) : Bool := g.kind == 5 || g.kind == 6 || 30 ≤ g.cls.toNat

/-- A message from an entry of a pier's outbox, not for the host, reaches a pier that is neither lost nor fenced (R196, R222, R234,
R399). -/
structure MsgArrives (s : State) (g : Msg) (e : OutEntry) (frm : AckTo) (pk src tok : Nat) : Prop where
  frm_ : frm = .outbox src tok
  entry : (getPier s src).outbox.find? (fun x => x.tok == tok) = some e
  host : g.flags.getLsbD 2 = true → g.sact ≠ 63
  pier : pkOfAddr s g.dmod.toNat g.dpier.toNat g.job = some pk
  up : (getPier s pk).lost = false ∧ (getPier s pk).fenced = false
  cancels : (getPier s pk).cancels = []

/-- The message as its pier takes it (R40): the urgent flag stays on a service actor's notice alone, and the device's own notices and
records have the priority of the entry that binds them, or 3; a reply keeps that of its command (R212), and a post of a sluice, whose
outbox entry names the unit sl, that of its action word. -/
def Taken (p : Pier) (e : OutEntry) (g h : Msg) : Prop :=
  ∃ prio, h = { g with prio, flags := if urgent g then g.flags else g.flags &&& 6 } ∧
    if g.sact = 63 ∧ ((g.cls = 30 ∧ g.kind ≠ 1) ∨ g.kind = 5) ∧ e.unit ≠ 10 then
      (∃ w, Binds p g.dact.toNat g.cls.toNat w ∧ prio = w.extractLsb' 38 2) ∨ (Unbound p g.dact.toNat g.cls.toNat ∧ prio = 3)
    else prio = g.prio

/-- Slots in use outside the service reserve, and in it (R42). -/
def used (p : Pier) : Nat := (p.inbox.filter fun x => !x.reserve).length
/-- Slots in use in the reserve. -/
def usedReserve (p : Pier) : Nat := (p.inbox.filter fun x => x.reserve).length
/-- The slots outside the reserve that an actor holds (R34). -/
def held (p : Pier) (a : Nat) : Nat := (p.inbox.filter fun x => x.msg.dact.toNat == a && !x.reserve).length
/-- Whether a spillway holds or returns a message (R43). -/
def spills (a : Actor) : Prop := a.spilled ≠ [] ∨ a.transit ≠ 0
/-- A spillway that is enabled, with room for one message, at a place that the pier may write (R34, R147). -/
def spillFits (s : State) (pk d : Nat) : Prop :=
  let a := getActor s pk d
  a.spill.getLsbD 4 = true ∧ a.spilled.length < 2 ^ (fld a.spill 0 4 + 10) ∧ spillLeaf s pk d = true

/-- Only one actor's inbox and spillway may differ, and what is on its way. -/
structure AdmitsOnly (s t : State) (pk a : Nat) : Prop where
  slices : ∀ k b, mget (getSite t k).slice b = mget (getSite s k).slice b
  spads : ∀ k b, mget (getPier t k).spad b = mget (getPier s k).spad b
  codes : ∀ k b, fget (getPier t k).code b 0 = fget (getPier s k).code b 0
  piers : ∀ k, k ≠ pk → getPier t k = getPier s k
  strands : (getPier t pk).strands = (getPier s pk).strands
  actors : ∀ n, n ≠ a → getActor t pk n = getActor s pk n
  state : (getActor t pk a).st = (getActor s pk a).st
  sluices : (getPier t pk).sluices = (getPier s pk).sluices
  outbox : (getPier t pk).outbox = (getPier s pk).outbox

/-- A pier that can dispatch to a job actor: resident, not fenced, not halted by debug, no replay or record, a strand free since before
this cycle, no job run parked, and fewer job runs than it may hold (R82, R185, R186, R233). -/
structure MayDispatch (s : State) (pk st : Nat) : Prop where
  resident : residentOpen s pk = true
  up : (getPier s pk).fenced = false ∧ (getPier s pk).debugHalted = false
  free : st < 8 ∧ (getStrand s pk st).status = .free ∧ st ∉ (getPier s pk).wasBusy ∧
    ∀ k < st, (getStrand s pk k).status ≠ .free ∨ k ∈ (getPier s pk).wasBusy
  parked : ∀ e ∈ (getPier s pk).strands, e.2.status = .parked → e.2.service = true
  runs : ((List.range 8).countP fun i => !(getStrand s pk i).service &&
    ((getStrand s pk i).status == .running || (getStrand s pk i).status == .frozen)) < (getPier s pk).jobStrands.toNat
  trace : (getMod s (pkMod pk)).veiv.rrJob = jobOf s pk → (getMod s (pkMod pk)).veiv.rrMode = 0

/-- A job actor that may be dispatched to (R53, R56, R172, R182). -/
structure Eligible (s : State) (pk a : Nat) : Prop where
  job : a < 63
  idle : (getActor s pk a).st = .idle
  live : (getActor s pk a).ending = false ∧ (getActor s pk a).retiring = false ∧ (getActor s pk a).evicting = none

/-- The effective priority of a slot (R183, R184). -/
def effective (s : State) (pk : Nat) (x : Slot) : Nat :=
  let k := min 40 (max 10 (getPier s pk).age.toNat)
  min 3 ((if x.urgent then 3 else x.msg.prio.toNat) + (s.cycle - x.admitted) / 2 ^ k)

/-- A strand at the start of a run (R48, R72, R186). -/
structure Starts (old x : Strand) (g : Msg) (h : Word) (lp : BitVec 10) (runid : BitVec 32) : Prop where
  live : x.status = .running ∧ x.pc = h.extractLsb' 40 12 ∧ x.start = 2 ∧ x.donePending = false ∧ x.wait = .none
  ident : x.actor = g.dact ∧ x.lp = lp ∧ x.runid = runid ∧ x.service = false ∧ x.hdr = g
  counts : x.cycles = 0 ∧ x.wd = 0 ∧ x.wexp = min 40 (max 10 (fld h 30 8)) ∧ x.seed = old.seed
  regs : (∀ r, readX x r = Value.zero) ∧ (∀ r, readV x r = vecZero) ∧ (∀ r, r ≠ 0 → readC x r = false) ∧ ∀ i, readQ x i = Value.zero
  payload : ∀ i < 6, readP x i = if i < g.words.toNat then scalar (g.pay.getD i 0) (g.poison.getLsbD i) else Value.zero
  ports : (∀ o, opPort x o = none) ∧ ∀ i, resPort x i = .empty
  flight : x.inf = [] ∧ x.pend = []

/-- A slot of an inbox, a candidate since before this cycle. -/
def Waits (s : State) (x : Slot) : Prop := x.back = false ∧ x.since < s.cycle

/-- A slot whose message is on its way back from an actor's spillway and in no queue yet (R44). -/
def returning (d : Nat) (x : Slot) : Prop := x.back = true ∧ x.msg.dact.toNat = d

/-- A stream that delivers to an actor of a pier: it is its destination (R56, R254). -/
def delivers (s : State) (pk n : Nat) (c : StreamCmd) : Prop :=
  c.kind ≠ 1 ∧ c.kind ≠ 3 ∧ c.kind ≠ 5 ∧ fld c.q1 0 6 = n ∧
    pkOfAddr s (fld c.q1 16 12) (fld c.q1 6 10) (jobOf s c.pk) = some pk

/-- A retired actor whose matrix work is done and that no accepted stream, opened or not, delivers to (R56). -/
structure RetireDone (s : State) (pk n : Nat) : Prop where
  retired : (getActor s pk n).retiring = true ∧ (getActor s pk n).st = .idle ∧ (getActor s pk n).ending = false
  matrix : ∀ e ∈ (getPier s pk).mq, e.actor.toNat ≠ n
  streams : ∀ m ∈ s.mods, ∀ x ∈ m.2.abuts, (∀ c ∈ x.2.ctxs, ∀ t, c.2 = some t → ¬delivers s pk n t.cmd) ∧
    ∀ c ∈ x.2.savedCtxs, ¬delivers s pk n c.2.cmd

/-- The step of the service actor for each of its commands (R212). -/
def commands (pk : Nat) (g : Msg) : List Instr :=
  [ .reservedServiceCommand pk g, .createActor pk g, .resume pk g, .drop pk g, .evictActor pk g, .restoreActor pk g
  , .streamResume pk g, .streamStop pk g, .harvest pk g, .phaseBegin pk g ]

end Sys2Proof.Claims

/-- A message at its destination (R43): refused with 010 where its actor is free or retired; put in a slot where its actor is resident, spills
nothing, and is below its weir or exempt; else written to the next place of a spillway with room; else refused with retry. An urgent notice goes to
the front of the inbox. A message of a cancelled job is discarded. A pier that is lost refuses with 010, a fenced one with retry. A service actor's
message for the host leaves in an event frame. The model's choices: the place of a message in its spillway ring and the retry where it has no
writable leaf (log entry 13), the refusal for a retiring actor, which R280 gives against R43 (log entry 36), and that the priority of
`Claims.Taken` is found at the admission (log entry 37). -/
def Obligations.MessagesAdmitted : Prop :=
  ∀ (s : State) (g h : Msg) (e : OutEntry) (frm : AckTo) (pk src tok : Nat), Claims.Taken (getPier s pk) e g h →
    let p := getPier s pk
    let d := g.dact.toNat
    let a := getActor s pk d
    let gone := d ≠ 63 ∧ (a.st = .free ∨ a.retiring = true)
    let out := residentOpen s pk = false ∨ a.st = .evicted
    let answers (st : BitVec 3) (s' : State) : Prop := exec (.messageAdmission g frm) s = .next s' ∧ Claims.Acked s' frm st
    let slot (r : Bool) : Prop := ∃ s', answers 0 s' ∧ Claims.AdmitsOnly s s' pk d ∧ (getActor s' pk d).spilled = a.spilled ∧
      Claims.SameMemory s s' ∧
      (getPier s' pk).inbox =
        (let x : Slot := { msg := h, admitted := s.cycle, since := s.cycle, reserve := r, urgent := Claims.urgent g }
         if Claims.urgent g then x :: p.inbox else p.inbox ++ [x])
    let spill : Prop := ∃ s', answers 0 s' ∧ Claims.AdmitsOnly s s' pk d ∧ (getPier s' pk).inbox = p.inbox ∧
      (getActor s' pk d).spilled = a.spilled ++ [(h, s.cycle)] ∧ (getActor s' pk d).ringTail = a.ringTail + 1 ∧
      (h.poison = 0 → ∀ m b, mget (getMod s' m).hbm b =
        mget (getMod (vaWrite s (pkMod pk) p.xlroot (spillAddr a) (msgBytes h)) m).hbm b)
    let refuse (st : BitVec 3) : Prop := ∃ s', answers st s' ∧ ∀ k, getPier s' k = getPier s k
    let room := Claims.used p < 496 ∨ Claims.usedReserve p < 16
    let fits := (Claims.isExempt g = true ∧ room) ∨
      (Claims.held p d < a.weir.toNat ∧ Claims.used p < 496)
    (Claims.MsgArrives s g e frm pk src tok →
      (gone → refuse 2) ∧
      (¬gone → ¬out → Claims.urgent g = true → room → slot (decide (496 ≤ Claims.used p))) ∧
      (¬gone → ¬out → Claims.urgent g = true → ¬room → refuse 1) ∧
      (¬gone → ¬out → Claims.urgent g = false → ¬Claims.spills a → fits → slot (decide (496 ≤ Claims.used p))) ∧
      (¬gone → out ∨ (Claims.urgent g = false ∧ (Claims.spills a ∨ ¬fits)) → Claims.spillFits s pk d → spill) ∧
      (¬gone → out ∨ (Claims.urgent g = false ∧ (Claims.spills a ∨ ¬fits)) → ¬Claims.spillFits s pk d → refuse 1)) ∧
    (frm = .outbox src tok → (g.flags.getLsbD 2 = true → g.sact ≠ 63) →
      (pkOfAddr s g.dmod.toNat g.dpier.toNat g.job = none → refuse 2) ∧
      (pkOfAddr s g.dmod.toNat g.dpier.toNat g.job = some pk → p.lost = true → refuse 2) ∧
      (pkOfAddr s g.dmod.toNat g.dpier.toNat g.job = some pk → p.lost = false → p.fenced = true → refuse 1) ∧
      (pkOfAddr s g.dmod.toNat g.dpier.toNat g.job = some pk → p.lost = false → p.fenced = false →
        ¬(g.kind = 5 ∧ Claims.fld (payWord g 0) 0 16 = 0x16) → (∃ c ∈ p.cancels, c.job = g.job.toNat ∧ c.level = 2) → refuse 0)) ∧
    (frm = .outbox src tok → g.flags.getLsbD 2 = true → g.sact = 63 →
      ∃ s', answers 0 s' ∧ Claims.HostEvent s' g.dmod.toNat g.job 6 (msgBytes g) ∧ ∀ k, getPier s' k = getPier s k)

/-- The oldest message on its way back from a spillway is counted off and joins its queue, an urgent notice at the front, and the next one
in the spillway gets a slot of its own as soon as it may, keeping the cycle of its first admission; it joins its queue when it has
returned, not before those ahead of it. That what returns is the message as it was admitted is the model's choice (log entry 13). -/
def Sys2Proof.Claims.SpillwayReturns : Prop :=
  ∀ (s : State) (pk d : Nat),
    let p := getPier s pk
    let a := getActor s pk d
    let back (x : Slot) : Slot := { x with back := false, since := s.cycle }
    (a.spilled = [] → ∃ s', exec (.spillwayReturn pk d) s = .next s' ∧ getActor s' pk d = { a with transit := a.transit - 1 } ∧
      ((∀ x ∈ p.inbox, ¬Claims.returning d x) → (getPier s' pk).inbox = p.inbox) ∧
      (∀ l x r, p.inbox = l ++ x :: r → Claims.returning d x → (∀ y ∈ l, ¬Claims.returning d y) →
        (getPier s' pk).inbox = if x.urgent then back x :: (l ++ r) else l ++ back x :: r) ∧ Claims.SameMemory s s') ∧
    ∀ g t, a.spilled = [(g, t)] → (∀ x ∈ p.inbox, ¬Claims.returning d x) → residentOpen s pk = true → a.st ≠ .evicted → 1 ≤ a.transit →
      a.transit ≤ 16 → Claims.used p < 496 → Claims.isExempt g = true ∨ Claims.held p d < a.weir.toNat →
      ∃ s' due, exec (.spillwayReturn pk d) s = .next s' ∧ s.cycle < due ∧ (due, Instr.spillwayReturn pk d) ∈ s'.cal ∧
        (getActor s' pk d).spilled = [] ∧ (getActor s' pk d).transit = a.transit ∧
        (getPier s' pk).inbox =
          p.inbox ++ [{ msg := g, admitted := t, since := due, reserve := false, urgent := g.flags.getLsbD 0, back := true }] ∧
        (∀ x ∈ p.inbox, x.msg.dact.toNat = d → x.since ≤ due) ∧
        Claims.SameMemory s s'

/-- The dispatcher binds the one message that waits to the lowest free strand and to the entry bundle of the lowest handler entry that matches;
without an entry it takes the message and sends a record of 0x15. Of two actors' messages it takes the one of higher effective priority, and of
equals the first after the pointer. A service actor's message starts its command. The model's choices: the strand of a service run is in status
native and the command's step stands in the calendar (log entry 4), and a run ended by drop, evict or cancel in the same cycle no longer counts
against the job-strand limit (log entry 91). -/
def Obligations.Dispatches : Prop :=
  ∀ (s : State) (pk st : Nat) (x : Slot), Claims.MayDispatch s pk st → Claims.Waits s x →
    let p := getPier s pk
    let a := x.msg.dact.toNat
    let next := p.dispatches + 1
    (p.inbox = [x] → Claims.Eligible s pk a →
      (∀ h, Claims.Binds p a x.msg.cls.toNat h →
        ∃ s', exec (.dispatch pk) s = .next s' ∧ (getPier s' pk).inbox = [] ∧ (getPier s' pk).dispatches = next ∧
          Claims.Starts (getStrand s pk st) (getStrand s' pk st) x.msg h (getActor s pk a).lp next ∧
          (∀ k, k ≠ st → getStrand s' pk k = getStrand s pk k) ∧ getActor s' pk a = { getActor s pk a with st := .running } ∧
          Claims.SameMemory s s') ∧
      (Claims.Unbound p a x.msg.cls.toNat →
        ∃ s' g w0 w1 w4 w5, exec (.dispatch pk) s = .next s' ∧ (getPier s' pk).inbox = [] ∧ (getPier s' pk).dispatches = next ∧
          Claims.SameMemory s s' ∧
          (∀ k, getStrand s' pk k = getStrand s pk k) ∧ (getActor s' pk a).st = .idle ∧ Claims.InOutbox s' pk g ∧
          Claims.IsRecord s pk (getActor s pk a).lp.toNat (Claims.faultDst s pk (getActor s pk a).lp.toNat a).1 g
            [w0, w1, msgHi x.msg, BitVec.ofNat 64 x.msg.cls.toNat, w4, w5] ∧ Claims.fld w0 0 16 = 0x15)) ∧
    (∀ y h, p.inbox = [x, y] → Claims.Waits s y → Claims.Eligible s pk a → Claims.Eligible s pk y.msg.dact.toNat →
      a ≠ y.msg.dact.toNat → Claims.Binds p y.msg.dact.toNat y.msg.cls.toNat h →
      let e := Claims.effective s pk x
      let f := Claims.effective s pk y
      let ptr := fget p.ptrs f 62
      (e < f ∨ (e = f ∧ ptr < 63 ∧ (y.msg.dact.toNat + 62 - ptr) % 63 < (a + 62 - ptr) % 63)) →
      ∃ s', exec (.dispatch pk) s = .next s' ∧ (getPier s' pk).inbox = [x] ∧ (getStrand s' pk st).hdr = y.msg ∧
        (getStrand s' pk st).status = .running ∧ fget (getPier s' pk).ptrs f 62 = y.msg.dact.toNat) ∧
    (p.inbox = [x] → a = 63 → (getActor s pk 63).st ≠ .running → (getActor s pk 63).st ≠ .frozen →
      ∃ s' i due, exec (.dispatch pk) s = .next s' ∧ (getPier s' pk).inbox = [] ∧ (getStrand s' pk st).status = .native ∧
        (getStrand s' pk st).service = true ∧ (getPier s' pk).dispatches = next ∧ (getStrand s' pk st).runid = next ∧
        (getActor s' pk 63).st = .running ∧ Claims.SameMemory s s' ∧ s.cycle + 2 ≤ due ∧ (due, i) ∈ s'.cal ∧
        i = (if x.msg.kind = 5 then .faultRecordForward pk x.msg else if x.msg.kind ≠ 6 then .serviceForwardToHost pk x.msg
          else (Claims.commands pk x.msg).getD (Claims.fld (x.msg.pay.getD 0 0) 0 8) (.reservedServiceCommand pk x.msg)))

/-- The lock of an ended run frees once none of its accesses is left; the index of a retired actor frees once its lock is free, its matrix work is
done and no stream delivers to it; a run whose watchdog reaches 2^w freezes with 0x0F and the elapsed count; a replay that diverges tells the host
and dispatches freely. Otherwise each does nothing. The model's choice: the event of a replay that diverges carries the logical pier (log entry
84). -/
def Obligations.RunsReleaseAndExpire : Prop :=
  ∀ (s : State) (pk n : Nat),
    let a := getActor s pk n
    let x := getStrand s pk n
    let idle := ∀ l ∈ (getPier s pk).late, l.actor ≠ n
    let done := Claims.RetireDone s pk n
    (a.ending = true → idle → ∃ s', exec (.actorLockRelease pk n) s = .next s' ∧ getActor s' pk n = { a with ending := false } ∧
      (∀ k, k ≠ n → getActor s' pk k = getActor s pk k) ∧ Claims.SameMemory s s') ∧
    (¬(a.ending = true ∧ idle) → exec (.actorLockRelease pk n) s = .next s) ∧
    (done → ∃ s', exec (.actorRetireComplete pk n) s = .next s' ∧ (getActor s' pk n).st = .free ∧
      (∀ k, k ≠ n → getActor s' pk k = getActor s pk k) ∧ Claims.SameMemory s s') ∧
    (¬done → exec (.actorRetireComplete pk n) s = .next s) ∧
    (x.status = .running ∨ x.status = .native → 2 ^ x.wexp ≤ x.wd → residentOpen s pk = true →
      exec (.watchdogExpiry pk n) s = .next
        (takeFault s pk n { code := 0x0F, slot := 0, unit := 0, w2 := 0, w3 := BitVec.ofNat 64 x.wd, brk := false } x.pc x.pc)) ∧
    (x.wd < 2 ^ x.wexp → exec (.watchdogExpiry pk n) s = .next s) ∧
    ((getMod s (pkMod pk)).veiv.rrJob = jobOf s pk → (getMod s (pkMod pk)).veiv.rrMode = 2 → (getPier s pk).rrFree = false →
      ∃ s', exec (.replayDivergence pk) s = .next s' ∧ (getPier s' pk).rrFree = true ∧
        Claims.HostEvent s' (pkMod pk) (jobOf s pk) 0x14 (Claims.bytes8 (BitVec.ofNat 64 (pkLp pk))) ∧ Claims.SameMemory s s')

/-- The answer to an outbox entry: performed frees it, retry keeps it for a resend 512 cycles later, no such actor and misuse free it and
report 0x15, with the address it was sent to, or 0x10 to its sender; a refused record goes on to the service actor. A resend sends it again. A deferred report leaves as a record that freezes nothing. -/
def Sys2Proof.Claims.OutboxAnswers : Prop :=
  (∀ (s : State) (pk : Nat) (e : OutEntry), (getPier s pk).outbox = [e] →
    let back := AckTo.outbox pk e.tok
    let reports (code : BitVec 16) (w3 : Word) (st : BitVec 3) : Prop := ∃ s' d, exec (.acknowledgement back st) s = .next s' ∧
      (getPier s' pk).outbox = [] ∧ Work.ev (.deferredFaultReport d) ∈ s'.agenda ∧ d.pk = pk ∧ d.code = code ∧ d.w3 = w3 ∧
      d.actor = e.actor ∧ d.bundle = e.bundle ∧ d.runid = e.runid ∧ d.w2 = e.move ∧ d.lp = actorLp s pk e.actor ∧ d.notResident = false ∧ Claims.SameMemory s s'
    (∃ s', exec (.acknowledgement back 0) s = .next s' ∧ (getPier s' pk).outbox = [] ∧ Claims.SameMemory s s') ∧
    (∃ s', exec (.acknowledgement back 1) s = .next s' ∧ (s.cycle + 512, Instr.outboxResend back) ∈ s'.cal ∧
      (getPier s' pk).outbox = [{ e with sent := false, retry := true, refused := true }] ∧ Claims.SameMemory s s') ∧
    (∀ g, e.body = .msg g → g.kind ≠ 5 → e.unit ≠ 10 → reports 0x15 (BitVec.ofNat 64 (msgDst g).toNat) 2) ∧
    (∀ gr v, e.body = .mcast gr v → reports 0x15 e.w3 2) ∧
    (∀ gr v, e.body = .reduce gr v →
      reports 0x15 (BitVec.ofNat 64 ((fget (getMod s (pkMod pk)).groups gr {}).hdr.extractLsb' 0 28).toNat) 2) ∧
    (∀ a, e.body = .add a → a.form = 0 → e.actor ≠ 63 → reports 0x15 e.w3 2) ∧
    (∀ a, e.body = .add a → a.form ≠ 0 ∨ e.actor = 63 → ∃ s' d, exec (.acknowledgement back 2) s = .next s' ∧
      (getPier s' pk).outbox = [] ∧ Work.ev (.deferredFaultReport d) ∈ s'.agenda ∧ d.pk = pk ∧ d.code = 0x15 ∧ d.actor = e.actor ∧
      d.w3 = BitVec.ofNat 64 (a.mod % 4096 * 2 ^ 16 + a.pier % 1024 * 2 ^ 6) ∧ Claims.SameMemory s s') ∧
    (∀ g, e.body = .msg g → g.kind = 5 → (payWord g 0).getLsbD 26 = false → 0 < g.words.toNat →
      ∃ s' h, exec (.acknowledgement back 2) s = .next s' ∧ Claims.InOutbox s' pk h ∧ h.dact = 63 ∧
        h.dmod = BitVec.ofNat 12 (pkMod pk) ∧ Claims.fld (payWord h 0) 26 1 = 1 ∧ (∀ i, 1 ≤ i → payWord h i = payWord g i) ∧
        Claims.SameMemory s s') ∧
    (∀ a, e.body = .add a → a.form = 0 → e.actor ≠ 63 → reports 0x10 (BitVec.ofNat 64 a.sl.toNat) 5) ∧
    (∀ g, e.body = .msg g → e.retry = true → e.sent = false → e.after = [] → residentOpen s pk = true →
      reachable s (pkMod pk) g.dmod.toNat = true →
      ∃ s', exec (.outboxResend back) s = .next s' ∧ (getPier s' pk).outbox = [{ e with retry := false, sent := true }] ∧
        Claims.Coming s s' (.messageAdmission g back) ∧ Claims.SameMemory s s')) ∧
  ∀ (s : State) (d : Deferred) (pk : Nat), d.pk = pk → d.lp < 1024 → d.actor < 64 → d.strand < 8 →
    carrierPk s (pkMod pk) (pkPart pk) d.lp = some pk →
    ∃ s' g w0 w1 w4, exec (.deferredFaultReport d) s = .next s' ∧ Claims.InOutbox s' pk g ∧
      Claims.IsRecord s pk d.lp (Claims.faultDst s pk d.lp d.actor).1 g [w0, w1, d.w2, d.w3, w4, d.w5] ∧
      Claims.RecordWords d.code d.unit d.slot d.notResident true false (Claims.faultDst s pk d.lp d.actor).2 false
        d.bundle d.runid (pkMod pk) d.actor d.strand d.lp w0 w1 w4 ∧
      (∀ k, getStrand s' pk k = getStrand s pk k) ∧ Claims.SameMemory s s'

namespace Sys2Proof.Claims

/-- A copy of a multicast message for member `i`, the only message of its module that is being copied, and the pier that the member's
address reaches. -/
structure CopyArrives (s : State) (m tok i : Nat) (c : MCopy) (a : BitVec 28) (pk : Nat) : Prop where
  copy : (getMod s m).copies = [c]
  tok_ : c.tok = tok
  member : (fget (getMod s m).groups c.group {}).members[i]? = some a
  reach : reachable s m (fld (a.setWidth 64) 16 12) = true
  pier : pkOfAddr s (fld (a.setWidth 64) 16 12) (fld (a.setWidth 64) 6 10) c.msg.job = some pk
  up : (getPier s pk).lost = false ∧ (getPier s pk).fenced = false ∧ (getPier s pk).cancels = []
  plain : ¬(c.msg.sact = 63 ∧ c.msg.cls = 30)

/-- The copy as its member receives it (R318): the member as its destination, the kind of an ordinary message. -/
def copyOf (c : MCopy) (a : BitVec 28) : Msg :=
  { c.msg with
    dmod := a.extractLsb' 16 12
    dpier := a.extractLsb' 6 10
    dact := a.extractLsb' 0 6
    kind := 0 }

/-- A contribution of a member of a reduction group (R252), from the outbox entry that names the group. -/
structure Contributes (s : State) (g : Msg) (frm : AckTo) (gid i : Nat) (op : Nat) : Prop where
  entry : ∃ pk tok e, frm = .outbox pk tok ∧ (getPier s pk).outbox = [e] ∧ e.tok = tok ∧ ∃ h, e.body = .reduce gid h
  valid : (fget (getMod s g.smod.toNat).groups gid {}).hdr.getLsbD 63 = true
  job : fld (fget (getMod s g.smod.toNat).groups gid {}).hdr 38 12 = g.job.toNat
  op_ : fld (fget (getMod s g.smod.toNat).groups gid {}).hdr 60 3 = op ∧ op ≠ 0
  root : reachable s g.smod.toNat (fld (fget (getMod s g.smod.toNat).groups gid {}).hdr 16 12) = true
  member : (fget (getMod s g.smod.toNat).groups gid {}).members[i]? = some (msgSrc g)
  once : ∀ j < i, (fget (getMod s g.smod.toNat).groups gid {}).members[j]? ≠ some (msgSrc g)

/-- FP32 element `e` of a contribution: none past its length, nor where there is no contribution (R122, R252). -/
def redPart (g : Option Msg) (e : Nat) : Option Nat :=
  g.bind fun x => if e / 2 < x.words.toNat then some (fld (x.pay.getD (e / 2) 0) (32 * (e % 2)) 32) else none

/-- Element `e` of a sum, a maximum or a minimum over the binary tree of the member slots (R122): a NaN is canonical, and an element that
nobody gives is +0. -/
def redOf (op : Nat) (got : FMap (Option Msg)) (n e : Nat) : Nat :=
  let f := if op = 1 then addF32 else minMaxBits fmtFp32 (op == 2)
  match tree f 4 (fun j => if j < n then redPart (fget got j none) e else none) with
  | none => 0
  | some v => if fvNan (fvOf fmtFp32 v) then nanOf fmtFp32 else v

/-- The graphs of a level (R67): the graph named, of a job that has it; those whose link entries name the phase's sluice as their parent;
every one (R65, R304). -/
def InLevel (s : State) (c : CancelMark) (g : Nat) : Prop :=
  let img := (getJob s c.job).img
  if c.level = 0 then g = c.id ∧ ∃ l ∈ img.graphs, l.graph.toNat = g
  else if c.level = 1 then
    c.id < img.phases ∧ ∃ e ∈ s.piers, (jobOf s e.1).toNat = c.job ∧ ∃ i < 16,
      let l := linkOf e.2 (496 + i)
      l.getLsbD 63 = true ∧ fld l 61 2 = 0 ∧ fld l 48 12 = g ∧ fld l 29 12 = img.homeMod ∧ fld l 19 10 = img.homePier ∧
        fld l 10 9 = img.sluice - 1 - c.id
  else True

/-- An actor of a level on a pier; the service actor is of none. -/
def ActorIn (s : State) (c : CancelMark) (pk a : Nat) : Prop :=
  a < 63 ∧ (jobOf s pk).toNat = c.job ∧ (getActor s pk a).st ≠ .free ∧ InLevel s c (getActor s pk a).graph.toNat

/-- An address that names an actor of a level. -/
def AddrIn (s : State) (c : CancelMark) (a : BitVec 28) (job : BitVec 12) : Prop :=
  let n := fld (a.setWidth 64) 0 6
  ∃ pk, pkOfAddr s (fld (a.setWidth 64) 16 12) (fld (a.setWidth 64) 6 10) job = some pk ∧ n ≠ 63 ∧ (getActor s pk n).st ≠ .free ∧
    InLevel s c (getActor s pk n).graph.toNat

/-- A message that belongs to a level (R67), by its header's graph or by its destination, but for the record of code 0x16 (R240, log entry
71). -/
def MsgIn (s : State) (c : CancelMark) (g : Msg) : Prop :=
  g.job.toNat = c.job ∧ ¬(g.kind = 5 ∧ fld (payWord g 0) 0 16 = 0x16) ∧ (InLevel s c g.graph.toNat ∨ AddrIn s c (msgDst g) g.job)

/-- An entry of a pier's outbox that belongs to a level (R67): not the add of a GDONE or of a completion sluice (R68). -/
def EntryIn (s : State) (c : CancelMark) (pk : Nat) (e : OutEntry) : Prop :=
  match e.body with
  | .msg g => MsgIn s c g
  | .mcast _ g => g.job.toNat = c.job ∧ InLevel s c g.graph.toNat
  | .reduce gr g => g.job.toNat = c.job ∧
      (InLevel s c g.graph.toNat ∨ AddrIn s c ((fget (getMod s (pkMod pk)).groups gr {}).hdr.extractLsb' 0 28) g.job)
  | .add a => a.job.toNat = c.job ∧ match a.graph with
    | some g => InLevel s c g.toNat
    | none => a.form = 2 ∧ 2 ≤ c.level
  | .gdone _ _ => False

/-- The completion sluice of a level: its module, logical pier and number (R101, R102). -/
def LevelSluice (s : State) (c : CancelMark) (m lp n : Nat) : Prop :=
  let img := (getJob s c.job).img
  if c.level = 0 then ∃ a l b, img.graphs = a ++ l :: b ∧ l.graph.toNat = c.id ∧ (∀ x ∈ a, x.graph.toNat ≠ c.id) ∧
    m = l.mod ∧ lp = l.pier ∧ n = l.sluice
  else m = img.homeMod ∧ lp = img.homePier ∧
    if c.level = 1 then c.id < img.phases ∧ n = img.sluice - 1 - c.id else n = img.sluice

/-- The words of the notice of a cancel (R41). -/
def cancelPay (c : CancelMark) : Word := BitVec.ofNat 64 (c.level + c.id * 2 ^ 32)

end Sys2Proof.Claims

/-- A copy of a multicast message is admitted at its member as a message of its own and answered; one of a detached branch goes to the
spillway whatever the weir, or is discarded where the spillway is disabled or full. An answer of retry sends the copy again 512 cycles
later, one of no such actor tells the sender with a record of 0x15, the last acceptance frees the sender's entry. A branch whose count
has reached the limit is detached: a copy that was refused leaves again for the spillway, and the member gets a notice that names the
group and the message's sequence number. That the limit is that of the sender's pier is the model's choice (log entry 39). -/
def Sys2Proof.Claims.MulticastCopiesArrive : Prop :=
  ∀ (s : State) (m tok i : Nat) (c : MCopy) (a : BitVec 28) (pk : Nat), Claims.CopyArrives s m tok i c a pk →
    let g := Claims.copyOf c a
    let d := g.dact.toNat
    let x := getActor s pk d
    let p := getPier s pk
    let h : Msg := { g with flags := g.flags &&& 6 }
    let exists_ := d = 63 ∨ (x.st ≠ .free ∧ x.retiring = false)
    let back := AckTo.copy m tok i
    let limit := max 4096 (getPier s c.pk).laglim.toNat
    let lag := fget (fget (getMod s m).groups c.group {}).lag i 0
    (c.left.contains i = true → c.unicast.contains i = false → exists_ → x.st ≠ .evicted → residentOpen s pk = true →
      ¬Claims.spills x → Claims.used p < 496 → Claims.isExempt g = true ∨ Claims.held p d < x.weir.toNat →
      ∃ s', exec (.multicastCopy m tok i) s = .next s' ∧ Claims.Acked s' back 0 ∧ (getPier s' pk).inbox = p.inbox ++
          [{ msg := h, admitted := s.cycle, since := s.cycle, reserve := false, urgent := false }] ∧ Claims.SameMemory s s') ∧
    (c.unicast.contains i = true → exists_ → Claims.spillFits s pk d →
      ∃ s', exec (.multicastCopy m tok i) s = .next s' ∧ Claims.Acked s' back 0 ∧ (getPier s' pk).inbox = p.inbox ∧
        (getActor s' pk d).spilled = x.spilled ++ [(h, s.cycle)] ∧ (h.poison = 0 → ∀ k b, mget (getMod s' k).hbm b =
          mget (getMod (vaWrite s (pkMod pk) p.xlroot (spillAddr x) (msgBytes h)) k).hbm b)) ∧
    (c.unicast.contains i = true → exists_ →
      ¬(x.spill.getLsbD 4 = true ∧ x.spilled.length < 2 ^ (Claims.fld x.spill 0 4 + 10)) →
      ∃ s', exec (.multicastCopy m tok i) s = .next s' ∧ Claims.Acked s' back 0 ∧ (∀ k, getPier s' k = getPier s k) ∧
        Claims.SameMemory s s') ∧
    (c.left.contains i = true →
      ∃ s', exec (.acknowledgement back 1) s = .next s' ∧ (s.cycle + 512, Instr.multicastCopy m tok i) ∈ s'.cal ∧
        (getMod s' m).copies = [{ c with refused := c.refused ++ [i] }] ∧ Claims.SameMemory s s') ∧
    (c.left.contains i = true ∨ c.unicast.contains i = true → ∀ e, c.src = some e →
      ∃ s' r, exec (.acknowledgement back 2) s = .next s' ∧ Work.ev (.deferredFaultReport r) ∈ s'.agenda ∧ r.pk = c.pk ∧ r.code = 0x15 ∧
        r.actor = e.actor ∧ r.bundle = e.bundle ∧ r.runid = e.runid ∧ r.w2 = e.move ∧ r.w3 = BitVec.ofNat 64 (msgDst g).toNat ∧
        Claims.SameMemory s s') ∧
    (c.left = [i] → c.unicast = [] →
      ∃ s', exec (.acknowledgement back 0) s = .next s' ∧ (getMod s' m).copies = [] ∧
        Work.ev (.acknowledgement (.outbox c.pk c.entry) 0) ∈ s'.agenda ∧ Claims.SameMemory s s') ∧
    (c.left.contains i = true → pkMod c.pk = m → limit ≤ lag →
      ∃ s' n, exec (.laggardDetach m tok i) s = .next s' ∧ i ∈ (fget (getMod s' m).groups c.group {}).detached ∧
        (c.refused.contains i = true → Claims.Coming s s' (.multicastCopy m tok i)) ∧
        (c.left = [i] → Work.ev (.acknowledgement (.outbox c.pk c.entry) 0) ∈ s'.agenda) ∧
        Claims.InOutbox s' c.pk n ∧ n.cls = 30 ∧ msgDst n = a ∧ n.pay = [2, BitVec.ofNat 64 c.group, c.msg.seq.setWidth 64] ∧
        Claims.SameMemory s s') ∧
    (pkMod c.pk = m → lag < limit → exec (.laggardDetach m tok i) s = .next s)

/-- A member's contribution enters its round, its next one waits for the next round, and a further one is refused with retry; toward a
root on another module it travels on. The last contribution of a sum, a maximum or a minimum closes the round: the root gets one
message of kind 111 from actor 63 of its pier, with the round number, the group's class and priority, and the elements of the
tree over the member slots. That the round is kept in the root's module is the model's choice (log entry 43). -/
def Sys2Proof.Claims.ReductionRounds : Prop :=
  ∀ (s : State) (g : Msg) (frm : AckTo) (gid i op : Nat), Claims.Contributes s g frm gid i op →
    let group := fget (getMod s g.smod.toNat).groups gid {}
    let n := group.members.length
    let rm := Claims.fld group.hdr 16 12
    let r := fget (getMod s rm).rounds gid {}
    let round (s' : State) : Round := fget (getMod s' rm).rounds gid {}
    let does (st : BitVec 3) (s' : State) : Prop := exec (.reductionContribution g frm) s = .next s' ∧ Claims.Acked s' frm st ∧
      Claims.SameMemory s s'
    let here := rm = g.smod.toNat
    let on (s' : State) : Prop := Claims.Coming s s' (.reductionContribution { g with tag := BitVec.ofNat 16 gid } .nobody)
    let waits (l : FMap (Option Msg)) : Prop := ∃ j < n, fget l j none = none
    let merged := fadj r.merged i 0 (· + 1)
    let enters := fset r.got i (some g)
    (fget r.got i none = none → waits enters →
      (here → ∃ s', does 0 s' ∧ round s' = { r with got := enters, merged }) ∧
      (¬here → ∃ s', does 0 s' ∧ round s' = { r with got := enters } ∧ on s')) ∧
    (∀ h, fget r.got i none = some h → fget r.later i none = none → waits r.got →
      (here → ∃ s', does 0 s' ∧ round s' = { r with later := fset r.later i (some g), merged }) ∧
      (¬here → ∃ s', does 0 s' ∧ round s' = { r with later := fset r.later i (some g) } ∧ on s')) ∧
    (∀ h k, fget r.got i none = some h → fget r.later i none = some k → ∃ s', does 1 s' ∧ round s' = r) ∧
    ∀ root, here → 1 ≤ op → op ≤ 3 → n ≤ 16 → fget r.got i none = none →
      (∀ j < n, fget enters j none ≠ none ∧ 0 < fget merged j 0) → r.later = [] →
      pkOfAddr s rm (Claims.fld group.hdr 6 10) (group.hdr.extractLsb' 38 12) = some root →
      ∃ s' m, does 0 s' ∧ (round s').number = r.number + 1 ∧ (round s').got = [] ∧ (round s').later = [] ∧
        Claims.InOutbox s' root m ∧ m.kind = 7 ∧ m.sact = 63 ∧ msgDst m = group.hdr.extractLsb' 0 28 ∧
        m.cls = group.hdr.extractLsb' 52 5 ∧ m.prio = group.hdr.extractLsb' 50 2 ∧ m.seq = BitVec.ofNat 16 r.number ∧
        (∀ j < n, ∀ h, fget enters j none = some h → min 6 h.words.toNat ≤ m.words.toNat) ∧
        ∀ k < m.words.toNat, m.pay.getD k 0 =
          BitVec.ofNat 64 (Claims.redOf op enters n (2 * k) + Claims.redOf op enters n (2 * k + 1) * 2 ^ 32)

/-- The job controller forwards an add to the completion sluice of its graph, and answers misuse where it has none; it runs one cancel at
a time, marks the level's completion sluice as cancelled, tells every pier, and after the last acknowledgement sends a flush marker
along each path; the last marker ends the cancel, whose piers stop discarding, whose actors with a handler of class 30 get a notice, and
whose armed sluice fires once; then the next one begins. That a cancel reaches the piers of every module of the job is the model's choice
(log entry 38). -/
def Sys2Proof.Claims.JobControllerCancels : Prop :=
  ∀ (s : State) (m : Nat),
    (∀ pk graph add frm,
      let img := (getJob s (jobOf s pk).toNat).img
      ((∀ l ∈ img.graphs, l.graph ≠ graph) → (∃ q k, frm = .outbox q k) →
        ∃ s', exec (.gdoneForward m pk graph add frm) s = .next s' ∧ Claims.Acked s' frm 5 ∧ Claims.SameMemory s s') ∧
      ∀ a l b, img.graphs = a ++ l :: b → l.graph = graph → (∀ x ∈ a, x.graph ≠ graph) →
        (reachable s m l.mod = true → ∃ s', exec (.gdoneForward m pk graph add frm) s = .next s' ∧ Claims.SameMemory s s' ∧
          Claims.Coming s s' (.sluiceAddArrival
            { mod := l.mod, pier := l.pier, job := jobOf s pk, sl := BitVec.ofNat 9 l.sluice, form := 0, member := 0, add := add,
              cancelled := false, frm := frm })) ∧
        (reachable s m l.mod = false → (∃ q k, frm = .outbox q k) →
          ∃ s', exec (.gdoneForward m pk graph add frm) s = .next s' ∧ Claims.Acked s' frm 7 ∧ Claims.SameMemory s s')) ∧
    (∀ job level id, (∀ r, (getMod s m).cancelRun = some r →
        ∃ s', exec (.cancel m job level id) s = .next s' ∧ (getMod s' m).cancels = (getMod s m).cancels ++ [⟨job, level, id⟩] ∧
          (getMod s' m).cancelRun = some r ∧ s'.cal = s.cal ∧ Claims.SameMemory s s') ∧
      ((getMod s m).cancelRun = none → let l := piersOfJob s (BitVec.ofNat 12 job)
        ∃ s' r, exec (.cancel m job level id) s = .next s' ∧ (getMod s' m).cancelRun = some r ∧ r.job = job ∧ r.level = level ∧
          r.id = id ∧ r.piers = l ∧ r.markers = 0 ∧ r.start = s.cycle ∧ (l = [] → Claims.Coming s s' (.cancelEnd m)) ∧
          (∀ pk ∈ l, Claims.Coming s s' (.cancelAtPier pk job level id) ∧
            (s.cycle + max 16800 (getPier s pk).savelim.toNat, Instr.saveLimitExpiry pk) ∈ s'.cal) ∧
          ∀ q lp n pk, Claims.LevelSluice s ⟨job, level, id⟩ q lp n → pkOfAddr s q lp (BitVec.ofNat 12 job) = some pk → 496 ≤ n →
            n < 512 → (linkOf (getPier s pk) n).getLsbD 63 = true → (linkOf (getPier s' pk) n).getLsbD 60 = true)) ∧
    (∀ r, (getMod s m).cancelRun = some r →
      let c : CancelMark := ⟨r.job, r.level, r.id⟩
      (∀ tok, 1 < r.markers → ∃ s', exec (.flushMarker m tok) s = .next s' ∧
        (getMod s' m).cancelRun = some { r with markers := r.markers - 1 } ∧ s'.agenda = s.agenda ∧ Claims.SameMemory s s') ∧
      (∀ tok, r.markers = 1 → ∃ s', exec (.flushMarker m tok) s = .next s' ∧
        (getMod s' m).cancelRun = some { r with markers := 0 } ∧ Work.ev (.cancelEnd m) ∈ s'.agenda) ∧
      (r.piers ≠ [] ∨ r.markers ≠ 0 → exec (.cancelEnd m) s = .next s) ∧
      (r.piers = [] → r.markers = 0 → (getMod s m).cancels = [] →
        ∃ s', exec (.cancelEnd m) s = .next s' ∧ (getMod s' m).cancelRun = none ∧
          (∀ pk ∈ s.piers.map (·.1), c ∉ (getPier s' pk).cancels) ∧
          (∀ pk a h, pk ∈ s.piers.map (·.1) → c ∈ (getPier s pk).cancels → Claims.ActorIn s c pk a →
            c ∉ (getActor s pk a).owed → Claims.Binds (getPier s pk) a 30 h →
            ∃ n, Claims.InOutbox s' pk n ∧ n.cls = 30 ∧ n.sact = 63 ∧ msgDst n = addrWord (pkMod pk) (getActor s pk a).lp.toNat a ∧
              n.pay = [3, Claims.cancelPay c]) ∧
          ∀ q lp n pk, Claims.LevelSluice s c q lp n → pkOfAddr s q lp (BitVec.ofNat 12 r.job) = some pk → 496 ≤ n →
            (linkOf (getPier s pk) n).getLsbD 63 = true → Claims.fld (getSluice s pk n).action 62 2 = 1 → Claims.NoWaits s pk →
            (getSluice s' pk n).phase = (getSluice s pk n).phase + (if (getSluice s pk n).armed then 1 else 0)) ∧
      (∀ d l, r.piers = [] → r.markers = 0 → (getMod s m).cancels = d :: l →
        ∃ s' t, exec (.cancelEnd m) s = .next s' ∧ (getMod s' m).cancels = l ∧ (getMod s' m).cancelRun = some t ∧
          t.job = d.job ∧ t.level = d.level ∧ t.id = d.id ∧ t.start = s.cycle))

/-- A cancel at a pier discards the messages of its level from then on, and stops the runs of its actors, of a frozen one with a record
of code 0x16; for an actor that is out it waits. The last pier's acknowledgement sends the markers out. -/
def Sys2Proof.Claims.CancelsAtPiers : Prop :=
  ∀ (s : State) (pk : Nat) (c : CancelMark), residentOpen s pk = true → (getMod s (pkMod pk)).abuts = [] →
    let p := getPier s pk
    (p.strands.map (·.1)).Nodup → (∀ a, Claims.ActorIn s c pk a → (getActor s pk a).retiring = false) →
    ∃ s', exec (.cancelAtPier pk c.job c.level c.id) s = .next s' ∧ (getPier s' pk).cancels = p.cancels ++ [c] ∧ Claims.SameMemory s s' ∧
      (getPier s' pk).inbox.Sublist p.inbox ∧ (∀ x, x ∈ (getPier s' pk).inbox ↔ x ∈ p.inbox ∧ ¬Claims.MsgIn s c x.msg) ∧
      (∀ n, (getActor s' pk n).spilled.Sublist (getActor s pk n).spilled ∧
        ∀ x, x ∈ (getActor s' pk n).spilled ↔ x ∈ (getActor s pk n).spilled ∧ ¬Claims.MsgIn s c x.1) ∧
      (∀ e ∈ p.outbox, e.tok < s.tok →
        (Claims.EntryIn s c pk e → ∀ f ∈ (getPier s' pk).outbox, f.tok ≠ e.tok) ∧
        ((∀ f ∈ p.outbox, f.tok = e.tok → ¬Claims.EntryIn s c pk f) → ∃ f ∈ (getPier s' pk).outbox, f.tok = e.tok ∧ f.body = e.body)) ∧
      (∀ st x, (st, x) ∈ p.strands → x.status ≠ .free → x.service = false →
        let a := x.actor.toNat
        Claims.ActorIn s c pk a → (getActor s pk a).st ≠ .evicted → (getActor s pk a).evicting = none →
        (getStrand s' pk st).status = .free ∧ (getStrand s' pk st).seed = x.seed ∧ (getActor s' pk a).st = .idle ∧
        ((getActor s pk a).st = .frozen → (∀ e ∈ p.strands, e.2.actor = x.actor → e = (st, x)) →
          ∃ g w0 w1 w4, Claims.InOutbox s' pk g ∧
            Claims.IsRecord s pk x.lp.toNat (Claims.faultDst s pk x.lp.toNat a).1 g [w0, w1, 0, Claims.cancelPay c, w4, 0] ∧
            Claims.fld w0 0 16 = 0x16 ∧ w0.getLsbD 24 = false ∧ w0.getLsbD 25 = false ∧ Claims.fld w1 0 32 = x.runid.toNat ∧
            Claims.fld w1 32 12 = x.stop.toNat)) ∧
      (∀ st, (getStrand s pk st).service = true ∨ ¬Claims.ActorIn s c pk (getStrand s pk st).actor.toNat →
        getStrand s' pk st = getStrand s pk st) ∧
      (∀ a, Claims.ActorIn s c pk a → (getActor s pk a).st = .evicted ∨ (getActor s pk a).evicting ≠ none →
        (getActor s' pk a).owed = (getActor s pk a).owed ++ [c]) ∧
      ∀ m r, m ∈ s.mods.map (·.1) → (getMod s m).cancelRun = some r → r.job = c.job → r.level = c.level → r.id = c.id → pk ∈ r.piers →
        let rest := r.piers.filter (· ≠ pk)
        let l := piersOfJob s (BitVec.ofNat 12 c.job)
        (getMod s' m).cancelRun = some (if rest = [] then { r with piers := [], markers := l.length } else { r with piers := rest }) ∧
        (rest = [] → ∀ q ∈ l, Claims.Coming s s' (.flushMarker m q))

/-- A job controller opens a phase once no SWLD stream of the job is left on its module, and looks again in the next cycle until then; when
every module has, the actor that asked gets its reply. A hold sets or clears the hold at every pier of its job on the module; one that
comes late, to set it where no site of the job is halted by debug or to clear it where one is, does nothing. -/
def Sys2Proof.Claims.PhasesAndHolds : Prop :=
  ∀ (s : State) (m job : Nat),
    let j := getJob s job
    (∀ ph, j.waitOpen.contains m = true →
      (swldBusy s m job = true → exec (.phaseOpen m job ph) s = .next (schedule s (s.cycle + 1) (.phaseOpen m job ph))) ∧
      (swldBusy s m job = false → (∃ k ∈ j.waitOpen, k ≠ m) →
        ∃ s', exec (.phaseOpen m job ph) s = .next s' ∧ getJob s' job = { j with waitOpen := j.waitOpen.filter (· != m) } ∧
          Claims.SameMemory s s') ∧
      (swldBusy s m job = false → j.waitOpen = [m] → ∀ pk g, j.beginReq = some (pk, g) →
        ∃ s' r, exec (.phaseOpen m job ph) s = .next s' ∧ (getJob s' job).waitOpen = [] ∧ (getJob s' job).beginReq = none ∧
          Claims.InOutbox s' pk r ∧ r.kind = 1 ∧ msgDst r = msgSrc g ∧ r.cls = g.cls ∧ r.prio = g.prio ∧ r.tag = g.tag ∧
          r.pay = [0, 0] ∧ Claims.SameMemory s s')) ∧
    let halted := ∃ pk ∈ piersOfJob s (BitVec.ofNat 12 job), (getPier s pk).debugHalted = true
    (∀ on, ¬(on = true ↔ halted) → exec (.holdBroadcast m job on) s = .next s) ∧
    ∀ part on, partOfJob s m (BitVec.ofNat 12 job) = some part → (on = true ↔ halted) →
      ∃ s', exec (.holdBroadcast m job on) s = .next s' ∧ ((getMod s' m).holds.contains job = on) ∧
        (∀ pk ∈ piersOf s m part (fun _ => true), (getPier s' pk).hold = on) ∧
        (∀ pk, pk ∉ piersOf s m part (fun _ => true) → getPier s' pk = getPier s pk) ∧ Claims.SameMemory s s'

namespace Sys2Proof.Claims

/-- The carriers of a partition on a half-span do nothing: no run, actor, entry or lost actor is held there, and no dirty page. -/
def Quiet (s : State) (m part hs : Nat) : Prop :=
  ∀ pk ∈ piersAt s m part hs, (getPier s pk).strands = [] ∧ (getPier s pk).actors = [] ∧ (getPier s pk).outbox = [] ∧
    (getPier s pk).restart = [] ∧ (getPier s pk).dlogCount = 0

/-- The one halt under way on a module waits for one who has not acknowledged. -/
structure HaltWaits (s : State) (m part who : Nat) (h : Halt) : Prop where
  one : (getMod s m).halts = [h]
  waiting : h.waiting = [(part, who)]

/-- Nothing of memory changes but the save area of a partition for a half-span, 64 MiB of the stack of that number (R226). -/
structure SavesOnly (s t : State) (m part hs : Nat) : Prop where
  area : ∀ a, (∀ l < 2 ^ 26, dramLoc 2 (saveArea m part hs + l) ≠ a) → mget (getMod t m).hbm a = mget (getMod s m).hbm a
  hbm : ∀ k a, k ≠ m → mget (getMod t k).hbm a = mget (getMod s k).hbm a
  slice : ∀ k a, mget (getSite t k).slice a = mget (getSite s k).slice a
  spad : ∀ pk a, mget (getPier t pk).spad a = mget (getPier s pk).spad a
  code : ∀ pk a, fget (getPier t pk).code a 0 = fget (getPier s pk).code a 0

/-- The image of a carrier in memory holds the pier's scratchpad, but for the slice status word, and its code (R223). -/
def HoldsImage (mem p : State) (m part c site : Nat) : Prop :=
  let at_ (o : Nat) : Nat := dramLoc 2 (imageAt m part site + o)
  (∀ i < 2 ^ 18, i / 8 ≠ 0x3FF80 / 8 → mget (getMod mem m).hbm (at_ i) = mget (getPier p (pkOf m part c)).spad i) ∧
    ∀ k < 4096, fget (getPier p (pkOf m part c)).code k 0 = BitVec.ofNat 128 (hbmNum mem m (at_ (0x40000 + 16 * k)) 16)

/-- A stream as it is saved: no translation and nothing in hand; it translates afresh from the flit it is at (R226). -/
def Saved (t : Stream) : Stream :=
  let scan := if t.cmd.kind = 1 ∨ t.cmd.kind = 3 then t.low else if t.cmd.kind = 5 then t.rd else t.next
  { t with walk := none, walked := [], extents := [], scan, ahead := scan, line := none, cross := [], wcross := [], part := [], partBad := false }

/-- A number of eight bytes of the save area of a partition for a half-span, `o` bytes from its start. -/
def areaWord (s : State) (m part hs o : Nat) : Nat := hbmNum s m (dramLoc 2 (saveArea m part hs + o)) 8

/-- Where the first saved context of an abutment lies in its save area (R226). -/
def ctxAt (a : Nat) : Nat := 0x3400000 + a % 16 * 16 * 4096

/-- Two tables of a partition place every logical pier alike (R195, R202). -/
def SamePlaces (x y : FMap (BitVec 32)) : Prop :=
  ∀ lp < 1024,
    let a := fget x lp 0
    let b := fget y lp 0
    teValid a = teValid b ∧ (teValid a = true → teFold a = teFold b ∧ teSlot a = teSlot b ∧ teCarrier a = teCarrier b ∧
      siteHs (teSite (fget x (teCarrier a) 0)) = siteHs (teSite (fget y (teCarrier b) 0)))

/-- The eviction of the partition that stands on a half-span does not wait. -/
def NoEviction (s : State) (m hs q : Nat) : Prop := ∀ e ∈ s.cal, e.2 = Instr.partitionEvict m q hs → s.cycle + 4096 < e.1

/-- A pier that a cancel waits for past its save limit (R235). -/
def Overdue (s : State) (pk : Nat) : Prop :=
  ∃ e ∈ s.mods, ∃ r, e.2.cancelRun = some r ∧ pk ∈ r.piers ∧ r.start + max 16800 (getPier s pk).savelim.toNat ≤ s.cycle

/-- A pier that stands alone on its site as its own carrier, resident. -/
structure OnItsSite (s : State) (pk : Nat) : Prop where
  listed : pk ∈ s.piers.map (·.1)
  resident : pierLoc s pk = .piers
  carrier : teCarrier (entryOf s (pkMod pk) (pkPart pk) (pkLp pk)) = pkLp pk
  row : siteOf s pk < 1024

end Sys2Proof.Claims

/-- A halt of a partition is sent to every carrier that is neither fenced nor lost and to the 16 abutments of its half-span, and waits for
them all. A pier that it reaches stops and acknowledges once it has drained, and looks again in the next cycle until then, with its
save limit running; an abutment saves the partition's streams and commands once they are at rest, where a stream's context holds its
command words and position (the place among the contexts and the order of the words are the model's choice, log entry 5). The last
acknowledgement ends the halt; of a pier that was late the host hears (that the event carries the logical pier is the model's choice,
log entry 84). -/
def Sys2Proof.Claims.PartitionsHalt : Prop :=
  ∀ (s : State) (m part hs : Nat), hs < 8 → part < 8 →
    (locOf s m part hs = .piers →
      ∃ s' h, exec (.partitionHalt m part hs) s = .next s' ∧ (getMod s' m).halts = (getMod s m).halts ++ [h] ∧ h.start = s.cycle ∧
        (∀ pk ∈ piersAt s m part hs, (getPier s pk).fenced = false → (getPier s pk).lost = false →
          (part, pkLp pk) ∈ h.waiting ∧ Claims.Coming s s' (.haltAtPier (pkOf m part (pkLp pk)))) ∧
        (∀ i < 16, (part, 1024 + hs * 16 + i) ∈ h.waiting ∧ Claims.Coming s s' (.haltAtAbutment m part (hs * 16 + i))) ∧
        Claims.SameMemory s s') ∧
    (∀ pk h, pkMod pk = m → pkPart pk = part → Claims.HaltWaits s m part (pkLp pk) h → (getPier s pk).halting = false →
      let limit := max 16800 (getPier s pk).savelim.toNat
      ∃ s', exec (.haltAtPier pk) s = .next s' ∧ (getPier s' pk).halting = true ∧ (getPier s' pk).haltCount = s.cycle ∧
        (s.cycle + limit, Instr.saveLimitExpiry pk) ∈ s'.cal ∧
        (∀ w k st e tok, fget s'.walks w none = some k → k.who ≠ .gm pk st e tok) ∧
        (pierDrained (getPier s pk) = true → Claims.Coming s s' (.haltAck m part (pkLp pk))) ∧
        (pierDrained (getPier s pk) = false → (s.cycle + 1, Instr.haltAtPier pk) ∈ s'.cal) ∧ Claims.SameMemory s s') ∧
    (∀ h a t, Claims.HaltWaits s m part (1024 + a) h → (getAbut s m a).ctxs = [(t.sid, some t)] → pkMod t.cmd.pk = m →
      pkPart t.cmd.pk = part → (getAbut s m a).queue = [] → a / 16 < 8 → (∀ c ∈ (getAbut s m a).savedCtxs, c.1 ≠ part) →
      (∀ c ∈ (getAbut s m a).savedQueue, c.1 ≠ part) →
      (streamAtRest t = true → ∃ s', exec (.haltAtAbutment m part a) s = .next s' ∧ (getAbut s' m a).ctxs = [] ∧
        (getAbut s' m a).savedCtxs = (getAbut s m a).savedCtxs ++ [(part, Claims.Saved t)] ∧
        (let w (k : Nat) : Nat := Claims.areaWord s' m part (a / 16) (Claims.ctxAt a + 8 * k)
         w 0 = t.cmd.q0.toNat ∧ w 1 = t.cmd.q1.toNat ∧ w 2 = t.cmd.q2.toNat ∧ w 3 = t.cmd.q3.toNat ∧ w 4 = t.cmd.q4.toNat ∧
           w 5 = t.cmd.q5.toNat ∧ w 6 = t.cmd.t.toNat ∧ w 8 = t.total % 2 ^ 64 ∧ w 9 = t.next % 2 ^ 64 ∧ w 10 = t.low % 2 ^ 64) ∧
        Claims.Coming s s' (.haltAck m part (1024 + a)) ∧ Claims.SavesOnly s s' m part (a / 16)) ∧
      (streamAtRest t = false → ∃ s', exec (.haltAtAbutment m part a) s = .next s' ∧ (getAbut s' m a).ctxs = (getAbut s m a).ctxs ∧
        (s.cycle + 1, Instr.haltAtAbutment m part a) ∈ s'.cal)) ∧
    (∀ h who, (getMod s m).halts = [h] → (part, who) ∈ h.waiting →
      (h.waiting = [(part, who)] → h.next = .stay → ∃ s', exec (.haltAck m part who) s = .next s' ∧ (getMod s' m).halts = [] ∧
        Claims.SameMemory s s') ∧
      ((∃ x ∈ h.waiting, x ≠ (part, who)) → ∃ s', exec (.haltAck m part who) s = .next s' ∧
        (getMod s' m).halts = [{ h with waiting := h.waiting.filter (· != (part, who)) }] ∧ Claims.SameMemory s s')) ∧
    ∀ h pk, pkMod pk = m → pkPart pk = part → pk = pkOf m part (pkLp pk) → Claims.HaltWaits s m part (pkLp pk) h →
      (getPier s pk).halting = true → 16800 < s.cycle - (getPier s pk).haltCount → h.next = .stay →
      ∃ s', exec (.haltAck m part (pkLp pk)) s = .next s' ∧ (getMod s' m).halts = [] ∧
        Claims.HostEvent s' m (jobOf s pk) 0x15 (Claims.bytes8 (BitVec.ofNat 64 (pkLp pk)))

/-- A pier that has not acknowledged a halt within its save limit is fenced, the host hears of it, and its row moves onto the span's spare
row, or, without one, the pier is lost. A pier that has not acknowledged a cancel by then is hung. A hung pier is fenced and the halt of its half-span begins; the health probe finds the
piers whose service actor is frozen. That event 0x0004 carries the logical pier is the model's choice (log entry 46). -/
def Sys2Proof.Claims.HungPiersAreFenced : Prop :=
  ∀ (s : State) (pk : Nat),
    let m := pkMod pk
    let p := getPier s pk
    let site := siteOf s pk
    let span := site / 256
    let row := site / 16 % 16
    let told (s' : State) : Prop := Claims.HostEvent s' m (jobOf s pk) 4 (Claims.bytes8 (BitVec.ofNat 64 (pkLp pk)))
    (∀ h, Claims.HaltWaits s m (pkPart pk) (pkLp pk) h → h.next = .stay → p.halting = true → p.fenced = false →
      (max 16800 p.savelim.toNat ≤ s.cycle - p.haltCount →
        (∀ k, fget (getMod s m).veiv.pierSpared span none = some k → Claims.OnItsSite s pk →
          ∃ s', exec (.saveLimitExpiry pk) s = .next s' ∧ told s' ∧ (getPier s' pk).lost = true ∧ (getMod s' m).halts = []) ∧
        (fget (getMod s m).veiv.pierSpared span none = none →
          ∃ s', exec (.saveLimitExpiry pk) s = .next s' ∧ told s' ∧ (getMod s' m).halts = [] ∧
            fget (getMod s' m).siteMap (span * 16 + row) none = some 16 ∧
            fget (getMod s' m).veiv.pierSpared span none = some row)) ∧
      (s.cycle - p.haltCount < max 16800 p.savelim.toNat →
        (¬Claims.Overdue s pk → exec (.saveLimitExpiry pk) s = .next s) ∧
        (Claims.Overdue s pk → exec (.saveLimitExpiry pk) s = .next (nowDo s (.hungPier pk))))) ∧
    (p.fenced = false → p.lost = false →
      ∃ s' h, exec (.hungPier pk) s = .next s' ∧ (getPier s' pk).fenced = true ∧ told s' ∧ h ∈ (getMod s' m).halts ∧
        h.next = .row span row ∧ (∀ x ∈ h.waiting, x ≠ (pkPart pk, pkLp pk)) ∧ Claims.SameMemory s s') ∧
    (p.fenced = true ∨ p.lost = true → exec (.hungPier pk) s = .next s) ∧
    (∃ s', exec (.healthProbe m) s = .next s' ∧ Claims.SameMemory s s' ∧ (∀ q, getPier s' q = getPier s q) ∧
      (pk ∈ s.piers.map (·.1) → pierLoc s pk = .piers → (getActor s pk 63).st = .frozen → p.fenced = false → p.lost = false →
        (s.cycle + max 16800 p.savelim.toNat, Instr.hungPier pk) ∈ s'.cal) ∧
      ((∀ q ∈ s.piers.map (·.1), (getActor s q 63).st ≠ .frozen) → s' = s))

/-- A shadow swap exchanges the halted partition of a half-span with the one in its shadow stores; an eviction writes the
images of one to its save area, a restore reads them back into the piers or the shadow stores; the incoming streams are loaded within
2,000 cycles and a saved stream goes back to its own context with the words that its save area holds. Where the images and contexts
lie in it, and their coding, is the model's choice (log entry 5). -/
def Sys2Proof.Claims.PartitionsMove : Prop :=
  ∀ (s : State) (m part hs : Nat), hs < 8 → part < 8 → (getMod s m).gangBusy = [] →
    let loads (s' : State) : Prop := ∀ i < 16, ∃ due, s.cycle < due ∧ due ≤ s.cycle + 2000 ∧
      (due, Instr.streamContextLoad m (hs * 16 + i) part) ∈ s'.cal
    let reads (s' : State) : Prop := (∀ k a, mget (getMod s' k).hbm a = mget (getMod s k).hbm a) ∧
      (∀ k a, mget (getSite s' k).slice a = mget (getSite s k).slice a) ∧
      ∀ c site, sitesOn (getPart s m part).savedTable hs = [(c, site)] → Claims.HoldsImage s s' m part c site ∧
        ∀ pk, pk ≠ pkOf m part c → (∀ a, mget (getPier s' pk).spad a = mget (getPier s pk).spad a) ∧
          ∀ a, fget (getPier s' pk).code a 0 = fget (getPier s pk).code a 0
    (∀ q, locOf s m part hs = .shadow → residentAt s m hs = some q → haltedAt s m q hs = true → Claims.Quiet s m part hs →
      ∃ s', exec (.shadowSwap m hs part) s = .next s' ∧ locOf s' m part hs = .piers ∧ locOf s' m q hs = .shadow ∧ loads s' ∧
        (∀ pk ∈ piersAt s m part hs, (getPier s' pk).halting = false ∧
          ∀ i t, fget (getSite s' (siteKey s pk)).tiles i {} = t → t.current = false) ∧ Claims.SameMemory s s') ∧
    (∀ q, residentAt s m hs = some q → haltedAt s m q hs = false → exec (.shadowSwap m hs part) s = .next s) ∧
    (locOf s m part hs = .shadow ∨ (locOf s m part hs = .piers ∧ haltedAt s m part hs = true) → Claims.Quiet s m part hs →
      ∃ s', exec (.partitionEvict m part hs) s = .next s' ∧ locOf s' m part hs = .saved ∧
        (getPart s' m part).savedTable = (getPart s m part).table ∧ Claims.SavesOnly s s' m part hs ∧
        ∀ c site, sitesOn (getPart s m part).table hs = [(c, site)] → Claims.HoldsImage s' s m part c site) ∧
    (locOf s m part hs = .saved → Claims.SamePlaces (getPart s m part).table (getPart s m part).savedTable →
      (residentAt s m hs = none → Claims.Quiet s m part hs →
        ∃ s', exec (.partitionRestore m part hs) s = .next s' ∧ locOf s' m part hs = .piers ∧ loads s' ∧ reads s') ∧
      (∀ q, residentAt s m hs = some q → ¬Claims.NoEviction s m hs q →
        exec (.partitionRestore m part hs) s = .next (schedule s (s.cycle + 4096) (.partitionRestore m part hs))) ∧
      (∀ q, residentAt s m hs = some q → Claims.NoEviction s m hs q → shadowAt s m hs = none →
        ∃ s', exec (.partitionRestore m part hs) s = .next s' ∧ locOf s' m part hs = .shadow ∧ reads s')) ∧
    ∀ a t, a / 16 = hs → locOf s m part hs = .piers → (getMod s m).halts = [] → (getAbut s m a).ctxs = [] → (getAbut s m a).queue = [] →
      (getAbut s m a).savedQueue = [] → (getAbut s m a).savedCtxs = [(part, t)] → t.phase = .active →
      t.total < 2 ^ 64 → t.next < 2 ^ 64 → t.low < 2 ^ 64 → t.landed < 2 ^ 64 → t.wlow < 2 ^ 64 →
      let w (k : Nat) : Nat := Claims.areaWord s m part hs (Claims.ctxAt a + 8 * k)
      w 7 / 2 ^ 9 % 8 ≠ 5 →
      ∃ s' u, exec (.streamContextLoad m a part) s = .next s' ∧ (getAbut s' m a).ctxs = [(t.sid, some u)] ∧ u.sid = t.sid ∧
        u.phase = .active ∧ u.addsBack = 0 ∧ u.resend = t.resend ∧ u.unacked = t.unacked ∧ u.extents = t.extents ∧
        u.cmd.q0.toNat = w 0 ∧ u.cmd.q1.toNat = w 1 ∧ u.cmd.q2.toNat = w 2 ∧ u.cmd.q3.toNat = w 3 ∧ u.cmd.q4.toNat = w 4 ∧
        u.cmd.q5.toNat = w 5 ∧ u.cmd.t.toNat = w 6 ∧ u.cmd.kind.toNat = w 7 / 2 ^ 9 % 8 ∧
        u.total = w 8 ∧ u.next = w 9 ∧ u.low = w 10 ∧ u.landed = w 11 ∧ u.wlow = w 13 ∧
        (∀ i ∈ t.resend, (s.cycle + 1, Instr.flitResend (keptFlit m a u i)) ∈ s'.cal) ∧
        (getAbut s' m a).savedCtxs = [] ∧ (getAbut s' m a).haltedFor.contains part = false ∧ Claims.SameMemory s s'

/-- A parked run whose frame the parked area holds goes on a free strand: a job run while fewer are held than the limit, a service run while
the service actor has none, whose command then begins; the partition record follows. A slice of a gang
schedule halts the resident partition of its half-span, after which the swap follows within 1,050 cycles, waits where a switch is
under way anywhere on the module (the model's choice, log entry 73), and does nothing where it is not valid. -/
def Sys2Proof.Claims.ParkedRunsAndGangSlices : Prop :=
  (∀ (s : State) (pk k : Nat) (x : Strand), residentOpen s pk = true → (getPier s pk).strands = [(k, x)] → 8 ≤ k →
    x.status = .parked → x.inf = [] → 0 ∉ (getPier s pk).wasBusy → siteOf s pk < 1024 →
    let frozen := decide ((getActor s pk x.actor.toNat).st = .frozen)
    let hs := siteHs (siteOf s pk)
    (getRows s (pkMod pk) (parkedAt (pkMod pk) (pkPart pk) hs x.parkAt) 128).take 0x1500 = (frameBytes x [] frozen).take 0x1500 →
    (x.service = false → 0 < (getPier s pk).jobStrands.toNat →
      ∃ s', exec (.parkedRunRestore pk) s = .next s' ∧ getStrand s' pk 0 = { x with status := if frozen then .frozen else .running } ∧
        (getStrand s' pk k).status = .free ∧ Claims.SavesOnly s s' (pkMod pk) (pkPart pk) hs) ∧
    (x.service = true → (getActor s pk 63).st ≠ .running → (getActor s pk 63).st ≠ .frozen →
      ∃ s' i, exec (.parkedRunRestore pk) s = .next s' ∧ getStrand s' pk 0 = { x with status := .native } ∧
        (getStrand s' pk k).status = .free ∧ (getActor s' pk 63).st = .running ∧ (s.cycle + 1, i) ∈ s'.cal ∧
        i = serviceStep (pkOf (pkMod pk) (pkPart pk) x.lp.toNat) x.hdr ∧ Claims.SavesOnly s s' (pkMod pk) (pkPart pk) hs)) ∧
  ∀ (s : State) (m k : Nat),
    let w := fget (getMod s m).gang k 0
    (w.getLsbD 63 = false → (getMod s m).gangQueue = [] → exec (.gangSliceStart m k) s = .next s) ∧
    (w.getLsbD 63 = true → (getMod s m).gangBusy ≠ [] →
      ∃ s', exec (.gangSliceStart m k) s = .next s' ∧ (getMod s' m).gangQueue = (getMod s m).gangQueue ++ [k] ∧
        (getMod s' m).halts = (getMod s m).halts ∧ Claims.SameMemory s s') ∧
    ∀ hs q, w.getLsbD 63 = true → (getMod s m).gangBusy = [] → (getMod s m).gangQueue = [] → hs < 8 → Claims.fld w 48 8 = 2 ^ hs →
      residentAt s m hs = some q → q ≠ Claims.fld w 45 3 → locOf s m (Claims.fld w 45 3) hs = .shadow →
      ∃ s' h t, exec (.gangSliceStart m k) s = .next s' ∧ (getMod s' m).halts = (getMod s m).halts ++ [h] ∧ h.parts = [(q, [hs])] ∧
        h.next = .steps [(t, .shadowSwap m hs (Claims.fld w 45 3))] ∧ 416 ≤ t ∧ t ≤ 1050 ∧ (getMod s' m).gangBusy = [hs] ∧
        (getMod s' m).gangLate = some (s.cycle, 17850) ∧ (getMod s' m).gangQueue = [] ∧ Claims.SameMemory s s'

namespace Sys2Proof.Claims

/-- A service run on strand `st` of a pier works on a message, on the pier that carries its place, which is resident and not fenced. -/
structure Serves (s : State) (pk : Nat) (g : Msg) (st : Nat) : Prop where
  home : serviceHome s pk = pk
  run : nativeOf (getPier s pk) g = some st
  up : residentOpen s pk = true ∧ (getPier s pk).fenced = false

/-- The run of the service actor is over. -/
def ServiceEnds (s' : State) (pk st : Nat) : Prop := (getStrand s' pk st).status = .free ∧ (getActor s' pk 63).st = .idle

/-- The service actor has answered a command with a REPLY to its sender and its run is over: result and actor index, the tag, class and
priority of the command, flag [2] where the command carries it, the graph of the service actor (R212, R243). -/
structure Replied (s s' : State) (pk : Nat) (g : Msg) (st : Nat) (result : Int) (who : Nat) : Prop where
  reply : ∃ r, InOutbox s' pk r ∧ r.kind = 1 ∧ r.cls = g.cls ∧ r.prio = g.prio ∧ r.tag = g.tag ∧ r.words = 2 ∧
    msgDst r = msgSrc g ∧ msgSrc r = addrWord (pkMod pk) (pkLp pk) 63 ∧ r.flags = g.flags &&& 4 ∧ r.graph = (getActor s pk 63).graph ∧
    r.pay = [BitVec.ofInt 64 result, BitVec.ofNat 64 who]
  ended : ServiceEnds s' pk st

/-- A command that fails changes nothing: memory, the runs, actors, sluices, inbox and handlers of its pier, the other piers, the
abutments (R212). -/
structure ChangesNothing (s s' : State) (pk st : Nat) : Prop where
  memory : SameMemory s s'
  runs : ∀ n, n ≠ st → getStrand s' pk n = getStrand s pk n
  actors : ∀ n, n ≠ 63 → getActor s' pk n = getActor s pk n
  pier : (getPier s' pk).sluices = (getPier s pk).sluices ∧ (getPier s' pk).inbox = (getPier s pk).inbox ∧
    (getPier s' pk).handlers = (getPier s pk).handlers ∧ (getPier s' pk).claims = (getPier s pk).claims
  piers : ∀ k, k ≠ pk → getPier s' k = getPier s k
  abuts : ∀ m a, getAbut s' m a = getAbut s m a

/-- A command gives a result and changes nothing. -/
def Gives (s : State) (i : Instr) (pk : Nat) (g : Msg) (st : Nat) (result : Int) (who : Nat) : Prop :=
  ∃ s', exec i s = .next s' ∧ Replied s s' pk g st result who ∧ ChangesNothing s s' pk st

/-- The sender may command actor `d` (R213): a service actor or the host, or the actor that the valid cw.fault of `d` names; of its job. -/
def MayCommand (s : State) (pk d : Nat) (g : Msg) : Prop :=
  g.job = jobOf s pk ∧ (g.sact = 63 ∨ (d ≠ 63 ∧ (getActor s pk d).st ≠ .free ∧ (getActor s pk d).fault.getLsbD 28 = true ∧
    (getActor s pk d).fault.extractLsb' 0 28 = msgSrc g))

/-- Actor `d` exists, and is no service actor. -/
def Exists (s : State) (pk d : Nat) : Prop := d ≠ 63 ∧ (getActor s pk d).st ≠ .free

/-- Actor `d` is frozen, and its run stands on strand `n`. -/
structure IsFrozen (s : State) (pk d n st : Nat) : Prop where
  actor : (getActor s pk d).st = .frozen
  run : runsOf (getPier s pk) d = [n]
  strand : (getStrand s pk n).status = .frozen ∧ (getStrand s pk n).actor.toNat = d ∧ n ≠ st

/-- No creation of the pier is still to be decided (R276). -/
def NoCreations (s : State) (pk : Nat) : Prop :=
  (getPier s pk).creating = [] ∧ ∀ e ∈ (getPier s pk).strands, ∀ q ∈ e.2.pend, q.create = none

/-- Nothing of memory but HBM, and scratchpad `[lo, lo + n)` of one pier, may differ. -/
structure HbmAndRegion (s t : State) (pk lo n : Nat) : Prop where
  slice : ∀ k a, mget (getSite t k).slice a = mget (getSite s k).slice a
  code : ∀ k a, fget (getPier t k).code a 0 = fget (getPier s k).code a 0
  spads : ∀ k a, k ≠ pk → mget (getPier t k).spad a = mget (getPier s k).spad a
  spad : ∀ a, ¬(lo ≤ a ∧ a < lo + n) → mget (getPier t pk).spad a = mget (getPier s pk).spad a

/-- A word of the payload. -/
def word (g : Msg) (i : Nat) : Word := payWord g i

/-- The number in `n` bytes of a list from byte `o` on. -/
def leAt (l : List Byte) (o n : Nat) : Nat := littleEndian (fun k => l.getD (o + k) 0) n

/-- A strand frame holds a run (R224): registers, words, guards, stop bundle and next bundle, counters, the pending DONE in the place of
c0. The places inside the blocks of R224 are the model's choice (log entry 5). -/
structure FrameHolds (l : List Byte) (x : Strand) : Prop where
  xs : ∀ r, 1 ≤ r → r < 32 → leAt l (8 * r) 8 = (vsc (readX x r)).toNat
  vs : ∀ r < 32, leAt l (0x100 + 64 * r) 64 = (vlanes (readV x r)).toNat ∧ leAt l (0x900 + 2 * r) 2 = (vmaskOf (readV x r)).toNat
  cs : ∀ i, 1 ≤ i → i < 8 → (leAt l 0x940 1).testBit i = readC x i
  done : (leAt l 0x940 1).testBit 0 = x.donePending
  bundles : leAt l 0x942 2 % 4096 = x.stop.toNat ∧ leAt l 0x944 2 % 4096 = x.pc.toNat
  counts : leAt l 0x948 8 = x.cycles.toNat ∧ leAt l 0x950 4 = x.runid.toNat ∧ leAt l 0x954 4 = x.seed.toNat ∧ leAt l 0x958 8 = x.wd % 2 ^ 64
  words : ∀ i < 6, leAt l (0x980 + 8 * i) 8 = (vsc (readQ x i)).toNat ∧ leAt l (0x9B0 + 8 * i) 8 = (vsc (readP x i)).toNat

/-- HBM after bytes are written by virtual address as whole accesses. -/
def putArea (s : State) (m : Nat) (root va : Word) (l : List Byte) : State := vaClear (vaWrite s m root va l) m root va l.length

/-- The save area of an actor is written (R216): its record, with index and no entries, its state and counts; its handler entries; for a
frozen run the frame `fr`; its messages in the order of their admission; the bytes of its region. -/
def AreaWritten (s t : State) (pk d : Nat) (va : Word) (state : Nat) (fr : List Byte) : Prop :=
  let p := getPier s pk
  let a := getActor s pk d
  let m := pkMod pk
  let lo := fld a.rgnbase 6 13 * 64
  let hs := (p.handlers.filter fun h => h.2.getLsbD 63 && fld h.2 57 6 == d).map (·.2)
  ∃ ms : List Slot, ms.Perm (p.inbox.filter fun x => x.msg.dact.toNat == d) ∧ ms.Pairwise (fun x y => x.admitted ≤ y.admitted) ∧
    let head : List Word :=
      [BitVec.ofNat 64 d, a.rgnbase, a.rgnlim, a.weir.setWidth 64, a.spill, a.fault, a.graph.setWidth 64, 0,
        BitVec.ofNat 64 (state + hs.length * 2 ^ 8 + ms.length * 2 ^ 16), 0, 0, 0, 0, 0, 0, 0] ++ hs
    let s1 := putArea s m p.xlroot va (head.flatMap bytes8)
    let s2 := putArea s1 m p.xlroot (va + 0x480) fr
    let s3 := putArea s2 m p.xlroot (va + 0x2480) (ms.flatMap fun x => msgBytes x.msg)
    let s4 := putArea s3 m p.xlroot (va + 0x10000) ((List.range (fld a.rgnlim 6 13 * 64 - lo)).map fun i => mget p.spad (lo + i))
    ∀ k b, mget (getMod t k).hbm b = mget (getMod s4 k).hbm b

/-- Nothing that an evict of an actor saves is poisoned. -/
def CleanActor (s : State) (pk d : Nat) : Prop :=
  (∀ x ∈ (getPier s pk).inbox, x.msg.dact.toNat = d → x.msg.poison = 0) ∧ ∀ a, pget (getPier s pk).spadPoison a = false

/-- What a save area must hold (R55, R216; that another one gives −4 is the model's choice, log entry 78). -/
def AreaFits (s : State) (pk d : Nat) (w : Nat → Word) : Prop :=
  w 0 = BitVec.ofNat 64 d ∧ w 7 = 0 ∧ RecordFits s (jobOf s pk) w ∧ (fld (w 8) 0 3 = 1 ∨ fld (w 8) 0 3 = 2)

/-- A strand that is free for a run of the pier, the lowest one (R82, R186). -/
def FreeStrand (s : State) (pk t : Nat) : Prop :=
  t < 8 ∧ (getStrand s pk t).status = .free ∧ t ∉ (getPier s pk).wasBusy ∧
    ∀ k < t, (getStrand s pk k).status ≠ .free ∨ k ∈ (getPier s pk).wasBusy

/-- The frame of a parked run as the parked area holds it is that of its strand (R231). -/
structure ParkedThere (s : State) (pk n : Nat) (frozen : Bool) : Prop where
  status : (getStrand s pk n).status = .parked
  place : (getStrand s pk n).parkAt < 1280 ∧ siteOf s pk < 1024
  frame : (getRows s (pkMod pk) (parkedAt (pkMod pk) (pkPart pk) (siteHs (siteOf s pk)) (getStrand s pk n).parkAt) 128).take 0x1500 =
    (frameBytes (getStrand s pk n) [] frozen).take 0x1500

end Sys2Proof.Claims

/-- Resume, drop, evict, restore and the stream commands of the service actor: what each needs is judged in the order −4, −3, −1, −2, −5, −6, a
failed command changes nothing, and a done one is answered with 0. No entry of the tables on the way to a save area is being moved. Resume writes a
register when asked, sets the next bundle by its mode and makes the run and its actor live with the watchdog restarted, where the run is parked in
its frame; drop frees the strand; evict writes the save area and leaves the actor evicted with nothing of it on the pier; restore makes it idle or
frozen again with the words of its area. A stream command waits while its abutment has yet to load the streams of the partition. The model's
choices: −4 for a save area that is not 64 KiB aligned, and that a stop ends a stream that is not paused and gives 0 where a resume gives −2 (log
entry 49), −4 for a save area that holds no actor's record (log entry 78), and the places inside a frame (log entry 5). -/
def Obligations.CommandsOnActors : Prop :=
  ∀ (s : State) (pk st : Nat) (g : Msg), Claims.Serves s pk g st →
    let d := Claims.fld (Claims.word g 1) 0 6
    let x (n : Nat) := getStrand s pk n
    let p2 := Claims.word g 2
    let fits := Claims.fld (Claims.word g 1) 8 2 ≠ 3 ∧ (p2.getLsbD 6 = true → 1 ≤ Claims.fld p2 0 6 ∧ Claims.fld p2 0 6 ≤ 31)
    let aligned := p2.toNat % 65536 = 0
    let busy := evictBusy s pk d
    let still := ∀ need, vaMoving s (pkMod pk) (getPier s pk).xlroot p2 need 0x50000 = false
    let on (need : BitVec 3) := vaWritable s (pkMod pk) (getPier s pk).xlroot p2 need 0x50000
    let forms : List (Instr × Prop) :=
      [(.resume pk g, fits), (.drop pk g, True), (.evictActor pk g, aligned), (.restoreActor pk g, aligned)]
    (∀ i ok, (i, ok) ∈ forms →
      (¬ok → Claims.Gives s i pk g st (-4) d) ∧ (ok → ¬Claims.MayCommand s pk d g → Claims.Gives s i pk g st (-3) d) ∧
      (ok → Claims.MayCommand s pk d g → ¬Claims.Exists s pk d → Claims.Gives s i pk g st (-1) d)) ∧
    (Claims.MayCommand s pk d g → Claims.Exists s pk d →
      (fits → (getActor s pk d).st ≠ .frozen → Claims.Gives s (.resume pk g) pk g st (-2) d) ∧
      ((getActor s pk d).st ≠ .frozen → Claims.Gives s (.drop pk g) pk g st (-2) d) ∧
      (aligned → (getActor s pk d).st ≠ .idle → (getActor s pk d).st ≠ .frozen → Claims.Gives s (.evictActor pk g) pk g st (-2) d) ∧
      (aligned → (getActor s pk d).st ≠ .evicted → Claims.Gives s (.restoreActor pk g) pk g st (-2) d) ∧
      (aligned → still → (getActor s pk d).st = .evicted → (on 4).isSome → Claims.Gives s (.restoreActor pk g) pk g st (-5) d) ∧
      (∀ n, fits → Claims.IsFrozen s pk d n st →
        ∃ s', exec (.resume pk g) s = .next s' ∧ Claims.Replied s s' pk g st 0 d ∧ (getActor s' pk d).st = .running ∧
          (getStrand s' pk n).status = .running ∧ (getStrand s' pk n).wd = 0 ∧ Claims.SameMemory s s' ∧
          (getStrand s' pk n).donePending = (decide (Claims.fld (Claims.word g 1) 8 2 ≠ 2) && (x n).donePending) ∧
          (getStrand s' pk n).pc = (match Claims.fld (Claims.word g 1) 8 2 with
            | 0 => (x n).stop | 1 => (x n).stop + 1 | _ => (Claims.word g 1).extractLsb' 16 12) ∧
          (∀ r, readX (getStrand s' pk n) r =
            if p2.getLsbD 6 = true ∧ r = Claims.fld p2 0 6 then Value.ofWord (Claims.word g 3) else readX (x n) r) ∧
          ∀ r, readV (getStrand s' pk n) r = readV (x n) r ∧ readC (getStrand s' pk n) r = readC (x n) r ∧
            readQ (getStrand s' pk n) r = readQ (x n) r ∧ resPort (getStrand s' pk n) r = resPort (x n) r) ∧
      (∀ n, fits → (getActor s pk d).st = .frozen → runsOf (getPier s pk) d = [n] → (x n).actor.toNat = d → Claims.ParkedThere s pk n true →
        let hs := siteHs (siteOf s pk)
        let pc := match Claims.fld (Claims.word g 1) 8 2 with
          | 0 => (x n).stop | 1 => (x n).stop + 1 | _ => (Claims.word g 1).extractLsb' 16 12
        ∃ s', exec (.resume pk g) s = .next s' ∧ Claims.Replied s s' pk g st 0 d ∧ (getActor s' pk d).st = .running ∧
          (getStrand s' pk n).status = .parked ∧ (getStrand s' pk n).wd = 0 ∧ (getStrand s' pk n).pc = pc ∧
          (∀ r, readX (getStrand s' pk n) r =
            if p2.getLsbD 6 = true ∧ r = Claims.fld p2 0 6 then Value.ofWord (Claims.word g 3) else readX (x n) r) ∧
          Claims.FrameHolds (getRows s' (pkMod pk) (parkedAt (pkMod pk) (pkPart pk) hs (x n).parkAt) 128) (getStrand s' pk n) ∧
          Claims.SavesOnly s s' (pkMod pk) (pkPart pk) hs) ∧
      (∀ n, Claims.IsFrozen s pk d n st → (getActor s pk d).retiring = false → (x n).pend = [] →
        ∃ s', exec (.drop pk g) s = .next s' ∧ Claims.Replied s s' pk g st 0 d ∧ (getActor s' pk d).st = .idle ∧
          (getStrand s' pk n).status = .free ∧ Claims.SameMemory s s') ∧
      (aligned → (getActor s pk d).st = .idle ∨ (getActor s pk d).st = .frozen → (getActor s pk d).retiring = false → busy = true →
        ∃ s', exec (.evictActor pk g) s = .next s' ∧ (s.cycle + 1, Instr.evictActor pk g) ∈ s'.cal ∧
          ((getActor s pk d).evicting = none → (s.cycle + 65536, Instr.evictWaitTimeout pk g) ∈ s'.cal) ∧ Claims.SameMemory s s') ∧
      (aligned → still → (getActor s pk d).st = .idle ∨ (∃ n, Claims.IsFrozen s pk d n st) → (getActor s pk d).retiring = false →
        busy = false → (getActor s pk d).owed = [] →
        ((on 2).isSome → ∃ s', exec (.evictActor pk g) s = .next s' ∧ Claims.Replied s s' pk g st (-5) d ∧ Claims.SameMemory s s' ∧
          (getActor s' pk d).st = (getActor s pk d).st ∧ (getPier s' pk).inbox = (getPier s pk).inbox) ∧
        (on 2 = none → ∃ s', exec (.evictActor pk g) s = .next s' ∧ Claims.Replied s s' pk g st 0 d ∧
          (getActor s' pk d).st = .evicted ∧ (∀ y ∈ (getPier s' pk).inbox, y.msg.dact.toNat ≠ d) ∧
          (∀ n, Claims.IsFrozen s pk d n st → (getStrand s' pk n).status = .free) ∧
          (∀ h ∈ (getPier s' pk).handlers, ¬(h.2.getLsbD 63 = true ∧ Claims.fld h.2 57 6 = d)) ∧
          (∀ c ∈ (getPier s' pk).claims, c.2 ≠ some d) ∧ Claims.HbmAndRegion s s' pk 0 0 ∧
          (Claims.CleanActor s pk d → (getActor s pk d).st = .idle → Claims.AreaWritten s s' pk d p2 1 []) ∧
          ∀ n, Claims.CleanActor s pk d → Claims.IsFrozen s pk d n st →
            ∃ fr, Claims.FrameHolds fr (x n) ∧ fr.length = 0x2000 ∧ Claims.leAt fr 0x941 1 = 3 ∧ Claims.AreaWritten s s' pk d p2 2 fr)) ∧
      ((getActor s pk d).evicting = some g → busy = true →
        ∃ s', exec (.evictWaitTimeout pk g) s = .next s' ∧ Claims.Replied s s' pk g st (-2) d ∧ Claims.SameMemory s s' ∧
          (getActor s' pk d).evicting = none) ∧
      (aligned → still → (getActor s pk d).st = .evicted → on 4 = none →
        let w (i : Nat) : Word := lgetD (wordsOfBytes (areaBytes s pk p2 72)) i 0
        let fr := (areaBytes s pk (p2 + 0x480) 0x2000).map (·.1)
        let runs := (List.range 8).countP fun i => !(x i).service && ((x i).status == .running || (x i).status == .frozen)
        let full := 496 - Claims.used (getPier s pk) < Claims.fld (w 8) 16 9 ∨
          (freeHandlers (getPier s pk)).length < Claims.fld (w 8) 8 8 ∨
          (Claims.fld (w 8) 0 3 = 2 ∧ ((getPier s pk).jobStrands.toNat ≤ runs ∨ ∀ t, ¬Claims.FreeStrand s pk t))
        let restored (s' : State) : Prop := exec (.restoreActor pk g) s = .next s' ∧ Claims.Replied s s' pk g st 0 d ∧
          (getActor s' pk d).rgnbase = w 1 ∧ (getActor s' pk d).rgnlim = w 2 ∧ (getActor s' pk d).weir.toNat = (w 3).toNat % 512 ∧
          (getActor s' pk d).spill = w 4 ∧ (getActor s' pk d).fault = w 5 ∧ (getActor s' pk d).graph.toNat = (w 6).toNat % 4096 ∧
          (getActor s' pk d).spilled = (getActor s pk d).spilled ∧ (∀ k b, mget (getMod s' k).hbm b = mget (getMod s k).hbm b) ∧
          Claims.HbmAndRegion s s' pk (Claims.fld (w 1) 6 13 * 64) (Claims.fld (w 2) 6 13 * 64 - Claims.fld (w 1) 6 13 * 64)
        (¬Claims.AreaFits s pk d w → Claims.Gives s (.restoreActor pk g) pk g st (-4) d) ∧
        (Claims.AreaFits s pk d w → full → Claims.Gives s (.restoreActor pk g) pk g st (-6) d) ∧
        (Claims.AreaFits s pk d w → ¬full → (getActor s pk d).owed = [] →
          (Claims.fld (w 8) 0 3 = 1 → ∃ s', restored s' ∧ (getActor s' pk d).st = .idle ∧
            (∀ n, n ≠ st → getStrand s' pk n = getStrand s pk n)) ∧
          (Claims.fld (w 8) 0 3 = 2 → ∀ t, Claims.FreeStrand s pk t → ∃ s', restored s' ∧ (getActor s' pk d).st = .frozen ∧
            (getStrand s' pk t).status = .frozen ∧ Claims.FrameHolds fr (getStrand s' pk t) ∧
            (∀ n, n ≠ st → n ≠ t → getStrand s' pk n = getStrand s pk n))))) ∧
    let a := Claims.fld (Claims.word g 1) 0 7
    let who := Claims.fld (Claims.word g 1) 26 6
    let tag := Claims.fld (Claims.word g 1) 16 10
    let later := (∃ c ∈ (getAbut s (pkMod pk) a).savedCtxs, c.1 = pkPart pk) ∨ ∃ c ∈ (getAbut s (pkMod pk) a).savedQueue, c.1 = pkPart pk
    (later → exec (.streamResume pk g) s = .next (schedule s (s.cycle + 1) (.streamResume pk g)) ∧
      exec (.streamStop pk g) s = .next (schedule s (s.cycle + 1) (.streamStop pk g))) ∧
    (¬later → ¬Claims.MayCommand s pk who g →
      Claims.Gives s (.streamResume pk g) pk g st (-3) who ∧ Claims.Gives s (.streamStop pk g) pk g st (-3) who) ∧
    (¬later → Claims.MayCommand s pk who g →
      (findStream s (pkMod pk) a pk who tag = none → (a, tag) ∉ streamsOf s pk who →
        Claims.Gives s (.streamResume pk g) pk g st (-1) who) ∧
      (findStream s (pkMod pk) a pk who tag = none → unqueue s (pkMod pk) a pk who tag = none →
        Claims.Gives s (.streamStop pk g) pk g st (-1) who) ∧
      (∀ u, findStream s (pkMod pk) a pk who tag = none → unqueue s (pkMod pk) a pk who tag = some u →
        ∃ s', exec (.streamStop pk g) s = .next s' ∧ Claims.Replied s s' pk g st 0 who ∧ Claims.SameMemory s s') ∧
      ∀ t, findStream s (pkMod pk) a pk who tag = some t →
        (t.phase ≠ .paused → Claims.Gives s (.streamResume pk g) pk g st (-2) who) ∧
        (t.phase = .paused → ∃ s', exec (.streamResume pk g) s = .next s' ∧ Claims.Replied s s' pk g st 0 who ∧
          getCtx s' (pkMod pk) a t.sid = some { t with phase := .active, walked := [], missAt := none } ∧ Claims.SameMemory s s') ∧
        (t.peer = none → (getAbut s (pkMod pk) a).queue = [] →
          ∃ s', exec (.streamStop pk g) s = .next s' ∧ Claims.Replied s s' pk g st 0 who ∧ Claims.SameMemory s s' ∧
            ∀ u, getCtx s' (pkMod pk) a t.sid = some u → u.phase = .ending))

/-- The other work of the service actor: a create command waits for the creations of the pier before it; with a record in range it makes an idle
actor and is answered with its index, with −4, −3, −5 or the record's failure and index 0 otherwise; a harvest is answered once every entry that
stood in the logs is merged: where one waits for a node of the tables that is being moved it stays, with what is left, and its step comes again
4,096 cycles later; a phase begins from the home pier of the job alone, in turn; a reserved command gives −4; what is no command leaves for the
host in an event frame, and a fault record of a job actor or of a sluice in a fault-forward frame, without an answer. The model's choice: the
results of a create command and the index 0 of one that fails (log entry 49). -/
def Obligations.ServiceActorWork : Prop :=
  ∀ (s : State) (pk st : Nat) (g : Msg), Claims.Serves s pk g st →
    let m := pkMod pk
    let p1 := Claims.word g 1
    let job := jobOf s pk
    let j := getJob s job.toNat
    let ready := Claims.NoCreations s pk ∧ vaMoving s m (getPier s pk).xlroot p1 4 (recordLen s pk p1) = false
    let home := imagePk s { j.img with job := job } j.img.homeMod j.img.homePier = some pk
    Claims.Gives s (.reservedServiceCommand pk g) pk g st (-4) 0 ∧
    (¬Claims.NoCreations s pk → ∃ s' due, exec (.createActor pk g) s = .next s' ∧ s.cycle < due ∧ (due, Instr.createActor pk g) ∈ s'.cal ∧
      (∀ k, getPier s' k = getPier s k) ∧ Claims.SameMemory s s') ∧
    (Claims.NoCreations s pk → p1.toNat % 64 ≠ 0 → Claims.Gives s (.createActor pk g) pk g st (-4) 0) ∧
    (Claims.NoCreations s pk → p1.toNat % 64 = 0 → g.job ≠ job → Claims.Gives s (.createActor pk g) pk g st (-3) 0) ∧
    (ready → p1.toNat % 64 = 0 → g.job = job → recordAt s pk p1 = none → Claims.Gives s (.createActor pk g) pk g st (-5) 0) ∧
    (∀ w, ready → p1.toNat % 64 = 0 → g.job = job → recordAt s pk p1 = some w →
      let f (i : Nat) : Word := lgetD w i 0
      (¬Claims.RecordFits s job f → Claims.Gives s (.createActor pk g) pk g st (-3) 0) ∧
      (Claims.RecordFits s job f → (∀ i, ¬Claims.AsksFor (getPier s pk) (f 0) i) → Claims.Gives s (.createActor pk g) pk g st (-1) 0) ∧
      (∀ i : Nat, Claims.RecordFits s job f → Claims.AsksFor (getPier s pk) (f 0) i → (freeHandlers (getPier s pk)).length < (f 7).toNat →
        Claims.Gives s (.createActor pk g) pk g st (-2) 0) ∧
      (∀ i : Nat, Claims.RecordFits s job f → Claims.AsksFor (getPier s pk) (f 0) i → (f 7).toNat ≤ (freeHandlers (getPier s pk)).length →
        ∃ s', exec (.createActor pk g) s = .next s' ∧ Claims.Replied s s' pk g st i i ∧
          getActor s' pk i = Claims.actorOf g.dpier f ∧ Claims.SameMemory s s')) ∧
    (g.job ≠ job → Claims.Gives s (.harvest pk g) pk g st (-3) 0) ∧
    (g.job = job → ∃ s', exec (.harvest pk g) s = .next s' ∧ Claims.ServiceEnds s' pk st ∧
      Claims.Coming s s' (.harvestComplete m (spanOf s pk)) ∧ Claims.SameMemory s s' ∧
      (getAgent s' m (spanOf s pk)).harvests = (getAgent s m (spanOf s pk)).harvests ++ [(pk, g, dirtyPiers s m (spanOf s pk))]) ∧
    (∀ sp n l, (getAgent s m sp).harvests = (pk, g, [(pk, n)]) :: l → n ≤ (getPier s pk).dlogCount → (getPier s pk).dlogCount ≤ 256 →
      ∃ s' k, exec (.harvestComplete m sp) s = .next s' ∧ k ≤ n ∧ (getPier s' pk).dlogCount = (getPier s pk).dlogCount - k ∧
        (k < n → mergeWaits s' pk = true ∧ (getAgent s' m sp).harvests = (pk, g, [(pk, n - k)]) :: l ∧
          (s.cycle + 4096, Instr.harvestComplete m sp) ∈ s'.cal) ∧
        (k = n → (getAgent s' m sp).harvests = l ∧ ∃ r, Claims.InOutbox s' pk r ∧ r.kind = 1 ∧ msgDst r = msgSrc g ∧ r.tag = g.tag ∧
          r.cls = g.cls ∧ r.prio = g.prio ∧ r.pay = [0, 0])) ∧
    (¬home ∨ j.img.phases ≤ p1.toNat → Claims.Gives s (.phaseBegin pk g) pk g st (-4) 0) ∧
    (home → p1.toNat < j.img.phases → g.job ≠ job → Claims.Gives s (.phaseBegin pk g) pk g st (-3) 0) ∧
    (home → p1.toNat < j.img.phases → g.job = job → (j.inPhase = true ∨ j.beginReq.isSome ∨ p1.toNat ≠ j.nextPhase) →
      Claims.Gives s (.phaseBegin pk g) pk g st (-2) 0) ∧
    (home → p1.toNat < j.img.phases → g.job = job → j.inPhase = false → j.beginReq = none → p1.toNat = j.nextPhase →
      ∃ s', exec (.phaseBegin pk g) s = .next s' ∧ Claims.ServiceEnds s' pk st ∧ (getJob s' job.toNat).inPhase = true ∧
        (getJob s' job.toNat).waitOpen = modsOfJob s job ∧
        ∀ k ∈ modsOfJob s job, Claims.Coming s s' (.phaseOpen k job.toNat p1.toNat)) ∧
    (∃ s', exec (.serviceForwardToHost pk g) s = .next s' ∧ Claims.ServiceEnds s' pk st ∧ Claims.HostEvent s' m g.job 6 (msgBytes g) ∧
      Claims.ChangesNothing s s' pk st ∧ (getPier s' pk).outbox = (getPier s pk).outbox) ∧
    (Claims.fld (Claims.word g 4) 24 6 = 63 → Claims.fld (Claims.word g 0) 0 16 ≠ 0x10 →
      ∃ s', exec (.faultRecordForward pk g) s = .next s' ∧ Claims.ServiceEnds s' pk st ∧ Claims.ChangesNothing s s' pk st ∧
        (getPier s' pk).outbox = (getPier s pk).outbox) ∧
    (Claims.fld (Claims.word g 4) 24 6 ≠ 63 ∨ Claims.fld (Claims.word g 0) 0 16 = 0x10 →
      ∃ s', exec (.faultRecordForward pk g) s = .next s' ∧ Claims.ServiceEnds s' pk st ∧ Claims.ChangesNothing s s' pk st ∧
        (getPier s' pk).outbox = (getPier s pk).outbox ∧
        ∃ f ∈ (getMod s' m).host.unacked, f.type = 6 ∧ f.job = g.job ∧ f.operand = 0 ∧ f.data = msgBytes g)

namespace Sys2Proof.Claims

/-- The port of a module takes a frame (R259, R260, R264): it is up, the frame comes by its EtherType or UDP port, its version is 1, and
its data are as long as it says. -/
structure PortTakes (s : State) (m : Nat) (f : Sys2Proof.Frame) : Prop where
  up : (getMod s m).present = true ∧ (2 ≤ (getMod s m).veiv.stage.toNat ∨ (getMod s m).veiv.recovery = true)
  way : f.encap = .ether (getMod s m).host.etherType ∨ f.encap = .udp4 (getMod s m).host.udpPort ∨
    f.encap = .udp6 (getMod s m).host.udpPort
  form : f.version = 1 ∧ f.length ≤ 8192 ∧ f.length = f.data.length

/-- A frame comes next in sequence to a module that is up and not in recovery, with no frame waiting and none of the module's own
unacknowledged. -/
structure NextFrame (s : State) (m : Nat) (f : Sys2Proof.Frame) : Prop where
  port : PortTakes s m f
  recovery : (getMod s m).veiv.recovery = false
  frame : f.flags.getLsbD 0 = false ∧ f.seq = (getMod s m).host.expected
  idle : (getMod s m).host.waiting = [] ∧ (getMod s m).host.unacked = []

/-- The flits of a put or get of a job are back: the frame, the only one that waits, may act (R31; log entry 88). `r` counts its tries. -/
def FrameBack (s : State) (m type : Nat) (f : Sys2Proof.Frame) (r : Nat) : Prop :=
  (∃ w, (getMod s m).host.waiting = [w] ∧ w.type = type ∧ w.frame = f ∧ w.img = none ∧ w.away = true ∧ w.at_ ≤ s.cycle ∧ w.retries = r) ∧
    (getMod s m).host.unacked = [] ∧ (getMod s m).host.expected = f.seq + 1

/-- The frame was taken: its number is used and acknowledged, and it no longer waits (R262). -/
def TookFrame (s s' : State) (m : Nat) : Prop :=
  (getMod s' m).host.expected = (getMod s m).host.expected + 1 ∧ (getMod s' m).host.waiting = [] ∧
    (getMod s' m).host.ackedTo = (getMod s m).host.expected + 1

/-- The frame waits for some cycles and has done nothing else (R149, R177; the 512 cycles at a fenced pier are the model's choice, log
entry 22). -/
def FrameWaits (s s' : State) (m : Nat) (f : Sys2Proof.Frame) (cycles : Nat) : Prop :=
  (getMod s' m).host.expected = f.seq + 1 ∧ ∃ w, (getMod s' m).host.waiting = [w] ∧ w.frame = f ∧ w.at_ = s.cycle + cycles

/-- The frame is done with: what comes next in sequence follows it, and it is acknowledged (R177, R262). -/
def FrameDone (s' : State) (m : Nat) (f : Sys2Proof.Frame) : Prop :=
  (getMod s' m).host.expected = f.seq + 1 ∧ (getMod s' m).host.waiting = [] ∧ (getMod s' m).host.ackedTo = f.seq + 1

/-- The frame is done and answered by one get data frame, the error answer with flag [1] (R261). -/
def AnsweredWith (s s' : State) (m : Nat) (f : Sys2Proof.Frame) (err : Bool) (data : List Byte) : Prop :=
  FrameDone s' m f ∧ ∃ a : OutFrame, (getMod s' m).host.unacked = [a] ∧ a.type = 9 ∧ a.seq = (getMod s m).host.nextSeq ∧
    a.flags = (if err then 2 else 0) ∧ a.operand = BitVec.ofNat 64 f.seq.toNat ∧ a.data = data

/-- The 48 bytes of the record of a host access that failed (R397). -/
def recordBytes (m code : Nat) (seq : BitVec 32) (w3 : Word) : List Byte :=
  bytes8 (BitVec.ofNat 64 (code + 2 ^ 24)) ++ bytes8 (BitVec.ofNat 64 seq.toNat) ++ bytes8 0 ++ bytes8 w3 ++
    bytes8 (BitVec.ofNat 64 (m % 4096 * 2 ^ 30)) ++ bytes8 0

/-- A put or get of a job: its address lies outside the Veiviush space. -/
def ofJob (f : Sys2Proof.Frame) : Prop := fld f.addr 56 8 ≠ 0xFE

/-- A put or get of the Veiviush space at an offset. -/
def atOffset (f : Sys2Proof.Frame) (off : Nat) : Prop := f.addr.toNat = 0xFE * 2 ^ 56 + off

/-- Every byte of a job's memory and everything of the piers is as before. -/
def SamePiers (s s' : State) : Prop := SameMemory s s' ∧ (∀ pk, getPier s' pk = getPier s pk) ∧ s'.jobs = s.jobs ∧ s'.walks = s.walks

/-- The only window that a host access needs: valid, open to any pier of the job, of the kind, with the right (log entry 45). -/
def HostWindow (s : State) (pk : Nat) (f : Sys2Proof.Frame) (right n : Nat) : Prop :=
  ∃ w ∈ winsOf s pk (fld f.addr 33 10), w.getLsbD 63 = true ∧ fld w 58 2 = 2 ∧ fld w 56 2 = (if fld f.addr 30 3 = 2 then 1 else 0) ∧
    w.getLsbD right = true ∧
    fld w 29 15 * 64 ≤ fld f.addr 0 30 ∧ fld f.addr 0 30 + n ≤ fld w 14 15 * 64

/-- An aperture address names a scratchpad, or for a get a weight store, within its bytes (R136). -/
def apertureForm (f : Sys2Proof.Frame) (put : Bool) : Prop :=
  (fld f.addr 30 3 = 0 ∧ fld f.addr 0 30 < 0x40000) ∨ (put = false ∧ fld f.addr 30 3 = 2 ∧ fld f.addr 0 30 < 0x100000)

/-- The pier that an aperture address names for the job, in a module that can be reached (R135). -/
structure HostReaches (s : State) (m : Nat) (f : Sys2Proof.Frame) (pk : Nat) : Prop where
  form : fld f.addr 55 9 = 1
  module : reachable s m (fld f.addr 43 12) = true
  pier : pkOfAddr s (fld f.addr 43 12) (fld f.addr 33 10) f.job = some pk

end Sys2Proof.Claims

/-- Frames in sequence act: a section of a job image is stored and the last one starts the loader; the flits of a put or get leave, and act when
they are back: a put through an aperture window open to any pier of the job writes the scratchpad, a get reads it or the weight store; both go
through the job's tables otherwise; one that faults is answered with flag [1] and the record and writes nothing, one that meets a fenced pier or an
entry that is being moved waits; a message injected leaves from pier 0, actor 63 of the module with flag [2]. A frame out of sequence does nothing,
one that comes another way is counted. The model's choices: the windows that accept the host and 0x0B for a module that cannot be reached (log
entry 45), the 512 cycles at a fenced pier (log entry 22), that a put needs no right of a page and sets its dirty bit (log entry 56), when a put or
get acts on its way and its wait at a frozen module (log entry 88), and the parsed image beside its sections (log entry 90). -/
def Obligations.HostFramesAct : Prop :=
  ∀ (s : State) (m : Nat) (f : Sys2Proof.Frame),
    let n := Claims.fld f.operand 0 14
    let o := Claims.fld f.addr 0 30
    let root := jobRootWord s m f.job
    let h := (getMod s m).host
    let fails (code : Nat) (va : Word) (s' : State) : Prop :=
      Claims.AnsweredWith s s' m f true (Claims.recordBytes m code f.seq va) ∧ Claims.SamePiers s s'
    (∀ i ∈ [Instr.framePut m f, .frameGet m f, .frameMessageInject m f],
      (f.seq ≠ h.expected ∨ f.flags.getLsbD 0 = true → ∃ s', exec i s = .next s' ∧ Claims.SamePiers s s' ∧
        (getMod s' m).host.expected = h.expected ∧ (getMod s' m).host.waiting = h.waiting ∧ ∀ x, getSite s' x = getSite s x) ∧
      ((getMod s m).present = true → 2 ≤ (getMod s m).veiv.stage.toNat →
        f.encap ≠ .ether h.etherType ∧ f.encap ≠ .udp4 h.udpPort ∧ f.encap ≠ .udp6 h.udpPort →
        ∃ s', exec i s = .next s' ∧ (getMod s' m).host = { h with dropped := if h.dropped = -1 then -1 else h.dropped + 1 } ∧
          Claims.SamePiers s s') ∧
      (f.version ≠ 1 ∨ 8192 < f.length ∨ f.data.length < f.length → ∃ s', exec i s = .next s' ∧ Claims.SamePiers s s' ∧
        (getMod s' m).host.expected = h.expected)) ∧
    (f.version = 1 → f.length ≤ 8192 → f.length ≤ f.data.length →
      let g : Sys2Proof.Frame := { f with data := f.data.take f.length }
      exec (.framePut m f) s = exec (.framePut m g) s ∧ exec (.frameGet m f) s = exec (.frameGet m g) s ∧
        exec (.frameMessageInject m f) s = exec (.frameMessageInject m g) s) ∧
    (Claims.NextFrame s m f →
      ((getMod s m).veiv.frozen = false →
        let j := getJob s f.job.toNat
        let recv := mwriteList j.recv f.operand.toNat f.data
        (∀ img, ∃ s', exec (.frameJobLoad m f img false) s = .next s' ∧ Claims.TookFrame s s' m ∧ Claims.SameMemory s s' ∧
          (∀ pk, getPier s' pk = getPier s pk) ∧ getJob s' f.job.toNat = { j with recv }) ∧
        ∀ img, ∃ s', exec (.frameJobLoad m f img true) s = .next s' ∧ (getMod s' m).host.expected = h.expected + 1 ∧
          getJob s' f.job.toNat = { j with recv, next := { img with job := f.job }, tries := 0 } ∧
          s'.agenda = .ev (.jobLoaderRun m f.job.toNat) :: s.agenda ∧ Claims.SameMemory s s') ∧
      (Claims.ofJob f → (getMod s m).veiv.frozen = false →
        (∀ type k, (type = 2 ∧ k = f.data.length) ∨ (type = 3 ∧ k = n) →
          let i := if type = 2 then Instr.framePut m f else .frameGet m f
          (hostStuck s m f k = true → ∃ s', exec i s = .next s' ∧ Claims.FrameWaits s s' m f 512 ∧ Claims.SamePiers s s') ∧
          (hostStuck s m f k = false → hostTrip s m f k ≠ 0 → ∃ s' w, exec i s = .next s' ∧ (getMod s' m).host.expected = h.expected + 1 ∧
            (getMod s' m).host.waiting = [w] ∧ w.type = type ∧ w.frame = f ∧ w.img = none ∧ w.away = true ∧ w.retries = 0 ∧
            s.cycle + hostTrip s m f k ≤ w.at_ ∧ (getMod s' m).host.unacked = [] ∧ Claims.SamePiers s s') ∧
          (Claims.fld f.addr 55 9 = 1 → reachable s m (Claims.fld f.addr 43 12) = true → Claims.apertureForm f (type == 2) →
            (type = 3 → f.data = []) → (type = 2 → f.data ≠ []) →
            hostTrip s m f k = 2 * latency s m .die (Claims.fld f.addr 43 12)
              (destPlace s (Claims.fld f.addr 43 12) (Claims.fld f.addr 33 10) f.job)))) ∧
      ((getMod s m).veiv.frozen = false → h.inject = [] →
        ∃ s' e, exec (.frameMessageInject m f) s = .next s' ∧ Claims.TookFrame s s' m ∧ (getMod s' m).host.inject = [e] ∧
          e.frame = f.seq ∧ e.msg.smod = BitVec.ofNat 12 m ∧ e.msg.spier = 0 ∧ e.msg.sact = 63 ∧ e.msg.flags.getLsbD 2 = true ∧
          e.msg.pay = (List.range 6).map (fun i => dataWord f (16 + 8 * i)) ∧ Claims.SamePiers s s')) ∧
    (Claims.ofJob f → (∀ k, (getMod s k).veiv.frozen = false) →
      let puts (P : State → Prop) : Prop :=
        (Claims.NextFrame s m f → hostTrip s m f f.data.length = 0 → ∃ s', exec (.framePut m f) s = .next s' ∧ P s') ∧
        ∀ r < 16, Claims.FrameBack s m 2 f r → P (hostTurn s m)
      let gets (P : State → Prop) : Prop :=
        (Claims.NextFrame s m f → hostTrip s m f n = 0 → ∃ s', exec (.frameGet m f) s = .next s' ∧ P s') ∧
        ∀ r < 16, Claims.FrameBack s m 3 f r → P (hostTurn s m)
      let waits (cycles : Nat) (s' : State) : Prop := Claims.FrameWaits s s' m f cycles ∧ Claims.SamePiers s s'
      let put (s' : State) : Prop := Claims.FrameDone s' m f ∧ (getMod s' m).host.unacked = []
      let read (l : List Byte) (s' : State) : Prop := Claims.AnsweredWith s s' m f false l ∧ Claims.SamePiers s s'
      let length := 1 ≤ n ∧ n ≤ 8192
      (¬length → gets fun s' => Claims.AnsweredWith s s' m f true [] ∧ Claims.SamePiers s s') ∧
      (Claims.fld f.addr 56 8 ≠ 0 → puts (fails 9 f.addr) ∧ (length → gets (fails 9 f.addr))) ∧
      (Claims.fld f.addr 55 9 = 1 →
        (¬Claims.apertureForm f true → puts (fails 8 f.addr)) ∧ (length → ¬Claims.apertureForm f false → gets (fails 8 f.addr)) ∧
        (reachable s m (Claims.fld f.addr 43 12) = false → (Claims.apertureForm f true → puts (fails 0x0B f.addr)) ∧
          (length → Claims.apertureForm f false → gets (fails 0x0B f.addr)))) ∧
      (∀ pk, Claims.HostReaches s m f pk →
        let there := residentOpen s pk = true ∧ (getPier s pk).fenced = false ∧ (getPier s pk).lost = false
        let off := (getPier s pk).lost = true ∨ ((getPier s pk).fenced = false ∧ residentOpen s pk = false)
        let site := getSite s (siteKey s pk)
        let owned := site.status.getLsbD 63 = true ∧ site.status.getLsbD 62 = false ∧ site.status.extractLsb' 0 12 = f.job
        ((getPier s pk).lost = false → (getPier s pk).fenced = true →
          (Claims.apertureForm f true → puts (waits 512)) ∧ (length → Claims.apertureForm f false → gets (waits 512))) ∧
        (Claims.apertureForm f true → off ∨ (there ∧ ¬Claims.HostWindow s pk f 61 f.data.length) → puts (fails 8 f.addr)) ∧
        (length → Claims.apertureForm f false → off ∨ (there ∧ ¬Claims.HostWindow s pk f 62 n) → gets (fails 8 f.addr)) ∧
        (there → Claims.apertureForm f true → Claims.HostWindow s pk f 61 f.data.length → puts fun s' => put s' ∧
          (∀ a, mget (getPier s' pk).spad a =
            if o ≤ a ∧ a < o + f.data.length then f.data.getD (a - o) 0 else mget (getPier s pk).spad a) ∧
          (∀ k, k ≠ pk → getPier s' k = getPier s k) ∧ (∀ k a, mget (getMod s' k).hbm a = mget (getMod s k).hbm a) ∧
          ∀ k a, mget (getSite s' k).slice a = mget (getSite s k).slice a) ∧
        (there → length → Claims.apertureForm f false → Claims.HostWindow s pk f 62 n →
          (Claims.fld f.addr 30 3 = 0 → (∀ i < n, pget (getPier s pk).spadPoison (o + i) = false) →
            gets (read ((List.range n).map fun i => mget (getPier s pk).spad (o + i)))) ∧
          (Claims.fld f.addr 30 3 = 2 → ¬owned → gets (fails 0x17 f.addr)) ∧
          (Claims.fld f.addr 30 3 = 2 → owned → (∀ i < n, pget site.slicePoison (o + i) = false) →
            gets (read ((List.range n).map fun i => mget site.slice (o + i)))))) ∧
      (Claims.fld f.addr 55 9 = 0 →
        let l := pieces f.addr f.data.length
        (∀ va x, hostWalk s m root 0 l = some (va, .ends x) → puts (fails (walkCode x) va)) ∧
        (∀ va, hostWalk s m root 0 l = some (va, .moving) → puts (waits 4096) ∧
          ∀ r, 16 ≤ r → Claims.FrameBack s m 2 f r → fails 0x0B va (hostTurn s m)) ∧
        (hostWalk s m root 0 l = none → puts fun s' => put s' ∧ (∀ pk, getPier s' pk = getPier s pk) ∧
          ∀ k a, mget (getMod s' k).hbm a =
            mget (getMod (vaWrite (hostMarks s m root 0 l) m root f.addr f.data) k).hbm a) ∧
        (length →
          (∀ va x, hostWalk s m root 4 (pieces f.addr n) = some (va, .ends x) → gets (fails (walkCode x) va)) ∧
          (∀ va, hostWalk s m root 4 (pieces f.addr n) = some (va, .moving) → gets (waits 4096)) ∧
          (hostWalk s m root 4 (pieces f.addr n) = none → ∀ l, vaRead s m root f.addr n = .ok l →
            ((∀ b ∈ l, b.2 = false) → gets fun s' =>
              Claims.AnsweredWith s s' m f false (l.map (·.1)) ∧ ∀ pk, getPier s' pk = getPier s pk) ∧
            (∀ j b, l[j]? = some (b, true) → (∀ i < j, ∀ c, l[i]? ≠ some (c, true)) →
              gets (fails 0x0C (f.addr + BitVec.ofNat 64 j)))))))

/-- The loader tries again where an entry of the tables is being moved or a target of its weights is out; it refuses an image that fails a
check, or a page of which may not be written, with an event of code 0x0005 and changes nothing; one that passes is the job's
image: its code bundles stand in their piers' stores, every other code location, window, tile word and the dispatch count of the job's
piers are zero, and the seeds are 1. The frame of the image no longer waits. The model's choices: the number of the failed check as data of
the event, what else a load resets, the zero code among it (log entry 44), the parsed image beside its sections (log entry 90). -/
def Sys2Proof.Claims.JobLoaderRuns : Prop :=
  ∀ (s : State) (m job : Nat),
    let j := getJob s job
    let img := j.next
    let waits := imageMoving s m img = true ∧ j.tries < 16
    let frames (s' : State) : Prop := ∀ w l, (getMod s m).host.waiting = w :: l → w.img = some img → (getMod s' m).host.waiting = l
    let refused (data : List Byte) : Prop := ∃ s', exec (.jobLoaderRun m job) s = .next s' ∧
      Claims.HostEvent s' m (BitVec.ofNat 12 job) 5 data ∧ Claims.SameMemory s s' ∧ (getJob s' job).loaded = j.loaded ∧ frames s' ∧
      ∀ pk, getPier s' pk = getPier s pk
    (waits → ∃ s', exec (.jobLoaderRun m job) s = .next s' ∧ (s.cycle + 4096, Instr.jobLoaderRun m job) ∈ s'.cal ∧
      getJob s' job = { j with tries := j.tries + 1 } ∧ Claims.SameMemory s s') ∧
    (¬waits →
      (∀ n, imageCheck s m img = some n → refused (Claims.bytes8 (BitVec.ofNat 64 n))) ∧
      (∀ x, imageCheck s m img = none → imagePage s m img = some x → refused (Claims.recordBytes m (walkCode x.1) 0 x.2)) ∧
      (imageCheck s m img = none → imagePage s m img = none →
        (weightsWait s img = true → exec (.jobLoaderRun m job) s = .next (schedule s (s.cycle + 512) (.jobLoaderRun m job))) ∧
        (weightsWait s img = false → img.job.toNat = job →
          ∃ s', exec (.jobLoaderRun m job) s = .next s' ∧ (getJob s' job).loaded = true ∧ (getJob s' job).img = img ∧ frames s' ∧
            (∀ pk ∈ piersOfJob s img.job, (getPier s' pk).wins = [] ∧ (getPier s' pk).tileCfg = [] ∧ (getPier s' pk).dispatches = 0 ∧
              (∀ e ∈ (getPier s' pk).strands, e.2.seed = 1) ∧
              ∀ a, (∀ c ∈ img.code, c.2.2.1 = a → imagePk s img c.1 c.2.1 ≠ some pk) → fget (getPier s' pk).code a 0 = 0) ∧
            ∀ c ∈ img.code, ∀ pk, imagePk s img c.1 c.2.1 = some pk →
              (∀ d ∈ img.code, imagePk s img d.1 d.2.1 = some pk → d.2.2.1 = c.2.2.1 → d.2.2.2 = c.2.2.2) →
              fget (getPier s' pk).code c.2.2.1 0 = c.2.2.2)))

/-- The numbering of the host port: an acknowledgement frees the frames below it; 42,000 cycles after the last that advanced every frame in
the window is sent again; a query is answered at once with the numbers, and the host's answer makes the module send again from
the number it names. Every frame leaves with the acknowledge number of the moment, as the host's last frame came. The model's choice: the
timer that starts again with a resend, and the numbering of what has not left (log entry 55). -/
def Sys2Proof.Claims.HostPortNumbers : Prop :=
  ∀ (s : State) (m : Nat) (f : Sys2Proof.Frame) (u : OutFrame) (l : List OutFrame),
    let h := (getMod s m).host
    let up := Claims.PortTakes s m f
    let recovery := (getMod s m).veiv.recovery
    let sends (s' : State) (x : Encap) (l : List OutFrame) : Prop :=
      (getMod s' m).host.wire = h.wire ++ l.map fun a => { a with ack := h.ackedTo, encap := x }
    (∀ k, up → f.flags.getLsbD 0 = true → recovery = false → h.unacked = u :: l → k = (f.ack - u.seq).toNat → 0 < k →
      k ≤ (u :: l).length →
      ∃ s', exec (.frameAckOnly m f) s = .next s' ∧ (getMod s' m).host.unacked = (u :: l).drop k ∧
        sends s' f.encap ((((u :: l).drop k).take 1024).drop (1024 - k)) ∧
        (getMod s' m).host.lastAdvance = s.cycle ∧ Claims.SamePiers s s') ∧
    (h.unacked = u :: l → h.lastAdvance + 42000 ≤ s.cycle →
      ∃ s', exec (.frameResendTimeout m) s = .next s' ∧ sends s' h.encap ((u :: l).take 1024) ∧
        (getMod s' m).host.unacked = h.unacked ∧ (getMod s' m).host.lastAdvance = s.cycle ∧ Claims.SamePiers s s') ∧
    (s.cycle < h.lastAdvance + 42000 ∨ h.unacked = [] → exec (.frameResendTimeout m) s = .next s) ∧
    (up → ∃ s' a, exec (.frameSequenceQuery m f) s = .next s' ∧ (getMod s' m).host.wire = h.wire ++ [a] ∧ a.type = 8 ∧ a.seq = 0 ∧
      Claims.fld a.operand 0 32 = h.expected.toNat ∧ (h.unacked = [] → Claims.fld a.operand 32 32 = (h.nextSeq - 1).toNat) ∧
      (h.unacked = u :: l → Claims.fld a.operand 32 32 = (u.seq + BitVec.ofNat 32 (min 1024 (u :: l).length) - 1).toNat) ∧
      (getMod s' m).host.expected = h.expected ∧ Claims.SamePiers s s') ∧
    (up → recovery = false → h.unacked = u :: l → f.operand.extractLsb' 0 32 = u.seq →
      ∃ s', exec (.frameSequenceAnswer m f) s = .next s' ∧ sends s' f.encap ((u :: l).take 1024) ∧
        (getMod s' m).host.unacked = h.unacked ∧ Claims.SamePiers s s')

/-- A spare command's unit word is in range for its kind, with no other bit set (R266). -/
def Sys2Proof.Claims.SpareUnit (kind : Nat) (u : Word) : Prop :=
  (kind = 1 ∧ ∃ span row, span < 4 ∧ row < 16 ∧ u.toNat = span + row * 256) ∨ (kind = 2 ∧ u.toNat < 128) ∨
  (kind = 3 ∧ ∃ port lane, port < 6 ∧ lane < 18 ∧ u.toNat = port + lane * 256) ∨
  (kind = 4 ∧ ∃ stack pc, stack < 8 ∧ pc < 128 ∧ u.toNat = stack + pc * 256)

/-- A spare is being applied on a module: behind a halt, or a port retrains (R266). -/
def Sys2Proof.Claims.Sparing (s : State) (m : Nat) : Prop :=
  (∃ h ∈ (getMod s m).halts, (∃ a b, h.next = .row a b) ∨ (∃ a, h.next = .abut a) ∨ ∃ a b, h.next = .channel a b) ∨
    ∃ p ∈ (getMod s m).ports, p.2.retraining = true

/-- A spare of the kind is left for a unit: one per span, one per edge, two per port, two per stack (R266). -/
def Sys2Proof.Claims.SpareLeft (s : State) (m kind : Nat) (u : Word) : Prop :=
  let v := (getMod s m).veiv
  (kind = 1 → fget v.pierSpared (Claims.fld u 0 2) none = none) ∧ (kind = 2 → fget v.abutSpared (Claims.fld u 4 3) none = none) ∧
  (kind = 3 → (fget (getMod s m).ports (Claims.fld u 0 3) {}).spared.length < 2) ∧
  (kind = 4 → (fget v.pcSpared (Claims.fld u 0 3) []).length < 2)

/-- A port has a link: its torus dimension has a size above 1 (R249). -/
def Sys2Proof.Claims.linked (s : State) (p : Nat) : Prop :=
  (p / 2 = 0 → s.torus.1 ≠ 1) ∧ (p / 2 = 1 → s.torus.2.1 ≠ 1) ∧ (2 ≤ p / 2 → s.torus.2.2 ≠ 1)

/-- The application of a spare has begun (R235, R266): behind a halt that what is to be replaced follows, or with its port retraining. -/
def Sys2Proof.Claims.SpareBegun (s s' : State) (m kind : Nat) (u : Word) : Prop :=
  let halt (next : HaltNext) : Prop := ∃ h, (getMod s' m).halts = (getMod s m).halts ++ [h] ∧ h.next = next ∧ h.start = s.cycle
  let p := Claims.fld u 0 3
  (kind = 1 → halt (.row (Claims.fld u 0 2) (Claims.fld u 8 4))) ∧ (kind = 2 → halt (.abut (Claims.fld u 0 7))) ∧
  (kind = 4 → halt (.channel p (Claims.fld u 8 7))) ∧
  (kind = 3 → (fget (getMod s' m).ports p {}).spared = (fget (getMod s m).ports p {}).spared ++ [Claims.fld u 8 5] ∧
    (Claims.linked s p → (fget (getMod s' m).ports p {}).retraining = true))

/-- The Veiviush space: gets of status, report, power cap, telemetry block and scan image, puts of the nonce, the power cap, the freeze word, a
spare command and the record and replay control, each of its length; a get or put of another length or of another offset, or a get of what is not
ready, is answered with flag [1] and has no effect. A spare command waits while another spare is applied or waits; one with a bad unit word, or
with no spare of the kind left, is answered with flag [1]. The model's choice: flag [1] for a wrong freeze word, a cap out of range and a scan get
before the freeze (log entry 58). -/
def Obligations.VeiviushSpace : Prop :=
  ∀ (s : State) (m : Nat) (f : Sys2Proof.Frame), Claims.NextFrame s m f →
    let v := (getMod s m).veiv
    let n := Claims.fld f.operand 0 14
    let gets : List (Instr × Nat × Nat × Option (List Byte)) :=
      [ (.statusGet m f, 0x0000, 8, some (Claims.bytes8 (BitVec.ofNat 64 (v.stage.toNat + (if v.recovery then 8 else 0) +
          (if v.frozen then 16 else 0) + (if v.rrMode = 1 then 32 else 0) + if v.rrMode = 2 then 64 else 0))))
      , (.attestationReportGet m f, 0x0200, 578, v.report)
      , (.frameGet m f, 0x1000, 8, some (Claims.bytes8 (BitVec.ofNat 64 v.cap)))
      , (.telemetryGet m f, 0x2000, 512, some (padTo 512 ((v.telemetry.map Claims.bytes8).flatten)))
      , (.scanReadoutGet m f, 0x5000, 8192, if v.frozen then
          some ((List.range 8192).map fun i => Config.scanByte m v.frozenAt (Claims.fld f.operand 32 32) i) else none) ]
    let puts : List (Instr × Nat × Nat) :=
      [(.attestationNonce m f, 0x0100, 64), (.powerCapWrite m f, 0x1000, 8), (.framePut m f, 0x3000, 16), (.freeze m f, 0x4000, 8)] ++
        [Instr.rrOff m f, .rrRecord m f, .rrReplay m f].zipIdx.filterMap fun i =>
          if Claims.fld (dataWord f 0) 0 2 = i.2 then some (i.1, 0x6000, 16) else none
    let flagged (i : Instr) : Prop :=
      ∃ s', exec i s = .next s' ∧ Claims.AnsweredWith s s' m f true [] ∧ Claims.SamePiers s s' ∧ (getMod s' m).veiv = v
    let trace (mode : Nat) (i : Instr) : Prop := Claims.fld (dataWord f 0) 0 2 = mode →
      ∃ s', exec i s = .next s' ∧ Claims.TookFrame s s' m ∧ (getMod s' m).host.unacked = [] ∧ Claims.SameMemory s s' ∧
        (getMod s' m).veiv = { v with rrMode := BitVec.ofNat 2 mode, rrJob := (dataWord f 0).extractLsb' 2 12, rrBase := dataWord f 8,
                                      rrAt := s.cycle } ∧
        ∀ k, partOfJob s m ((dataWord f 0).extractLsb' 2 12) = some k → ∀ pk ∈ piersOf s m k (fun _ => true),
          (getPier s' pk).rrNext = 0 ∧ (getPier s' pk).rrFull = false ∧ (getPier s' pk).rrFree = false ∧ (getPier s' pk).rrSince = s.cycle
    (∀ i off len d, (i, off, len, d) ∈ gets → Claims.atOffset f off →
      ∃ s', exec i s = .next s' ∧ Claims.SamePiers s s' ∧ (getMod s' m).veiv = v ∧
        Claims.AnsweredWith s s' m f (n != len || d.isNone) (if n = len then d.getD [] else [])) ∧
    (∀ i off len d, (i, off, len, d) ∈ gets → Claims.atOffset f off → exec (.frameGet m f) s = exec i s) ∧
    (∀ i off len, (i, off, len) ∈ puts → Claims.atOffset f off →
      exec (.framePut m f) s = exec i s ∧ (f.data.length ≠ len → flagged i)) ∧
    (∀ off < 2 ^ 56, Claims.atOffset f off →
      (off ∉ [0x0000, 0x0200, 0x1000, 0x2000, 0x5000] → flagged (.frameGet m f)) ∧
      (off ∉ [0x0100, 0x1000, 0x3000, 0x4000, 0x6000] → flagged (.framePut m f))) ∧
    (Claims.atOffset f 0x3000 → f.data.length = 16 →
      let kind := Claims.fld (dataWord f 0) 0 8
      let u := dataWord f 8
      (¬Claims.SpareUnit kind u → flagged (.framePut m f)) ∧
      (Claims.SpareUnit kind u →
        (Claims.Sparing s m ∨ v.spareQueue ≠ [] → ∃ s', exec (.framePut m f) s = .next s' ∧ Claims.FrameWaits s s' m f 1 ∧
          Claims.SamePiers s s' ∧ (getMod s' m).veiv = v) ∧
        (¬Claims.Sparing s m → v.spareQueue = [] →
          (¬Claims.SpareLeft s m kind u → flagged (.framePut m f)) ∧
          (Claims.SpareLeft s m kind u → ∃ s', exec (.framePut m f) s = .next s' ∧ Claims.TookFrame s s' m ∧
            Claims.SpareBegun s s' m kind u ∧ Claims.SameMemory s s')))) ∧
    (Claims.atOffset f 0x0100 → f.data.length = 64 →
      ∃ s', exec (.attestationNonce m f) s = .next s' ∧ Claims.TookFrame s s' m ∧ (getMod s' m).veiv.nonce = f.data ∧
        (getMod s' m).veiv.report = none ∧ Claims.Coming s s' (.attestationSigned m (v.reportTok + 1)) ∧ Claims.SamePiers s s') ∧
    (Claims.atOffset f 0x1000 → f.data.length = 8 →
      (300 ≤ (dataWord f 0).toNat ∧ (dataWord f 0).toNat ≤ 1800 →
        ∃ s', exec (.powerCapWrite m f) s = .next s' ∧ Claims.TookFrame s s' m ∧ (getMod s' m).host.unacked = [] ∧
          (getMod s' m).veiv = { v with cap := (dataWord f 0).toNat } ∧ Claims.SamePiers s s') ∧
      (¬(300 ≤ (dataWord f 0).toNat ∧ (dataWord f 0).toNat ≤ 1800) →
        ∃ s', exec (.powerCapWrite m f) s = .next s' ∧ Claims.AnsweredWith s s' m f true [] ∧ (getMod s' m).veiv = v)) ∧
    (Claims.atOffset f 0x4000 → f.data.length = 8 →
      (dataWord f 0 = 0x46525A45 → ∃ s', exec (.freeze m f) s = .next s' ∧ Claims.TookFrame s s' m ∧
        (getMod s' m).veiv = { v with frozen := true, frozenAt := s.cycle } ∧ Claims.SamePiers s s') ∧
      (dataWord f 0 ≠ 0x46525A45 → ∃ s', exec (.freeze m f) s = .next s' ∧ Claims.AnsweredWith s s' m f true [] ∧
        (getMod s' m).veiv = v)) ∧
    (Claims.atOffset f 0x6000 → f.data.length = 16 → trace 0 (.rrOff m f) ∧ trace 1 (.rrRecord m f) ∧ trace 2 (.rrReplay m f))

namespace Sys2Proof.Claims

/-- Everything but Veiviush's own words of one module is as before; frames may have left for the host. -/
structure OnlyVeiv (s s' : State) (m : Nat) : Prop where
  memory : SameMemory s s'
  piers : s'.piers = s.piers ∧ s'.sites = s.sites ∧ s'.jobs = s.jobs ∧ s'.walks = s.walks ∧ s'.issue = s.issue
  mods : ∀ k, k ≠ m → getMod s' k = getMod s k
  parts : (getMod s' m).parts = (getMod s m).parts ∧ (getMod s' m).groups = (getMod s m).groups ∧ (getMod s' m).gang = (getMod s m).gang

/-- The events of a spare and of an error. -/
def spareTold (s' : State) (m kind : Nat) (unit : Nat) : Prop :=
  HostEvent s' m 0 0x12 (bytes8 (BitVec.ofNat 64 kind) ++ bytes8 (BitVec.ofNat 64 unit))

/-- Event 0x0010 (R263): array kind, whether a slice was marked lost, unit, granule, owning job. -/
def errorTold (s' : State) (m kind unit off : Nat) (lost : Bool) (job : BitVec 12) : Prop :=
  HostEvent s' m job 0x10 (bytes8 (BitVec.ofNat 64 (kind + (if lost then 8 else 0) + unit * 256)) ++ bytes8 (BitVec.ofNat 64 off))

/-- Nothing is being replaced on a module (R266). -/
def NoSpare (s : State) (m : Nat) : Prop :=
  (getMod s m).halts = [] ∧ (∀ p ∈ (getMod s m).ports, p.2.retraining = false) ∧ (getMod s m).veiv.spareQueue = []

/-- The signature of a boot stage verifies under the key of the stage before it; the key of stage 1 stands in flash and has the fused
digest (R264). -/
def bootSigned (m n : Nat) : Bool :=
  let key := if n ≤ 1 then Config.firstKey m else Config.carriedKey (Config.stageImage m (n - 1))
  (decide (1 < n) || shake256 key (Config.fusedDigest m).length == Config.fusedDigest m) &&
    ed448Verify key (Config.stageImage m n) (Config.stageSignature m n)

/-- The lanes of a port that stage 2 replaces (R264, R266): none of a port without a link, which is not trained (R249). -/
def lanes (s : State) (m p : Nat) : List Nat :=
  if (if p / 2 = 0 then s.torus.1 else if p / 2 = 1 then s.torus.2.1 else s.torus.2.2) = 1 then [] else ((Config.badLanes m p).map (· % 18)).eraseDups

/-- No port and no stack has more bad than its two spares cover (R264). -/
def trains (s : State) (m : Nat) : Bool :=
  (List.range 6).all (fun p => decide ((lanes s m p).length ≤ 2)) &&
    (List.range 8).all fun k => decide (((Config.badChannels m k).map (· % 128)).eraseDups.length ≤ 2)

/-- The last boot stage that runs. -/
def lastStage (s : State) (m : Nat) : Nat :=
  if bootSigned m 1 then (if bootSigned m 2 then (if trains s m && bootSigned m 3 then 3 else 2) else 1) else 0

/-- The last boot stage passed (R263): one whose training fails is run but not passed. -/
def lastPassed (s : State) (m : Nat) : Nat := if lastStage s m = 2 ∧ trains s m = false then 1 else lastStage s m

/-- The measurement register after some stages: M becomes SHAKE256(M ‖ SHAKE256(image)) (R264). -/
def register (m : Nat) : Nat → List Byte
  | 0 => List.replicate 64 0
  | n + 1 => shake256 (register m n ++ shake256 (Config.stageImage m (n + 1)) 64) 64

/-- The distance of two counts. -/
def apartBy (a b : Word) : Nat := ((a.toNat : Int) - b.toNat).natAbs

/-- A placement table that breaks one of the rules of R195, by which of its entries. -/
def tableBad (tbl : FMap (BitVec 32)) (halfspans : BitVec 8) : Prop :=
  let ok (lp : Nat) : Prop := (fget tbl lp 0).getLsbD 31 = true
  let fold (lp : Nat) := (fget tbl lp 0).extractLsb' 29 2
  let slot (lp : Nat) := (fget tbl lp 0).extractLsb' 27 2
  let carrier (lp : Nat) := ((fget tbl lp 0).extractLsb' 10 10).toNat
  let site (lp : Nat) := ((fget tbl lp 0).extractLsb' 0 10).toNat
  (∃ a b, ok a ∧ ok b ∧ fold a ≠ fold b) ∨ (∃ a, ok a ∧ site a / 256 ≠ a / 256) ∨
  (∃ a b, ok a ∧ ok b ∧ carrier a ≠ carrier b ∧ carrier a < 1024 ∧ site a = site b ∧ carrier a = a ∧ carrier b = b) ∨
  (∃ a, ok a ∧ ¬(ok (carrier a) ∧ carrier (carrier a) = carrier a ∧ slot (carrier a) = 0)) ∨
  (∃ a b, ok a ∧ ok b ∧ a ≠ b ∧ carrier a = carrier b ∧ slot a = slot b) ∨
  ∃ a, ok a ∧ halfspans.getLsbD (site a / 128) = false

end Sys2Proof.Claims

/-- A nonce's report is signed over its fields: version and module, nonce, the measurement register and the digests at their offsets, 578 bytes; a
signature for an earlier nonce is dropped. Power is measured against the cap and the dies, telemetry taken anew, a die above 115 °C freezes the
module. Errors are counted, poison what they hit and are told to the host. A debug halt holds the job's piers; its release takes over the strand
frames that Veiviush has written, and the last release of a job lifts the hold. The model's choices: the level of throttling that rises by one up
to 32 (log entry 50), the bytes of the spare map behind the digest (log entry 9), lost or poisoned in the weight store (log entry 53), the data of
event 0x0011 (log entry 84), and that the frames which Veiviush writes during a debug halt come with its release (log entry 51). -/
def Obligations.VeiviushWatches : Prop :=
  ∀ (s : State) (m : Nat),
    let v := (getMod s m).veiv
    (∀ tok, (tok ≠ v.reportTok → ∃ s', exec (.attestationSigned m tok) s = .next s' ∧ (getMod s' m).veiv = v ∧ Claims.OnlyVeiv s s' m) ∧
      (tok = v.reportTok → v.nonce.length = 64 → v.mreg.length = 64 →
        ∃ s' r, exec (.attestationSigned m tok) s = .next s' ∧ (getMod s' m).veiv = { v with report := some r } ∧
          Claims.OnlyVeiv s s' m ∧ r.length = 578 ∧ r.take 8 = Claims.bytes8 (BitVec.ofNat 64 (1 + m % 4096 * 256)) ∧
          (r.drop 8).take 8 = Claims.bytes8 (Config.serial m) ∧ (r.drop 0x10).take 64 = v.nonce ∧ (r.drop 0x50).take 64 = v.mreg ∧
          (r.drop 0x150).take 64 = padTo 64 (shake256 (spareMap (getMod s m)) 64) ∧
          (r.drop 0x190).take 64 = padTo 64 (padTo 57 (ed448Public (Config.identityKey m))) ∧
          r.drop 0x1D0 = padTo 114 (ed448Sign (Config.identityKey m) (r.take 0x1D0)))) ∧
    (let samples := (Config.sensor 0 s.fresh :: v.samples).take 4
     let high := v.cap * 1000 < (samples.map (·.toNat)).sum / samples.length ∨ ∃ h ∈ v.hot, h.2 = true
     ∃ s', exec (.powerMeasure m) s = .next s' ∧ Claims.OnlyVeiv s s' m ∧ (getMod s' m).veiv.samples = samples ∧
       (getMod s' m).veiv.telemetry.length = 64 ∧
       (high → (getMod s' m).veiv.throttle = min 32 (v.throttle + 1)) ∧ (¬high → (getMod s' m).veiv.throttle = 0) ∧
       (high → v.throttle = 0 → Claims.HostEvent s' m 0 0x11 (Claims.bytes8 1)) ∧
       (¬high → v.throttle ≠ 0 → Claims.HostEvent s' m 0 0x11 (Claims.bytes8 0))) ∧
    (∀ die t, ∃ s', exec (.overtemp m die t) s = .next s' ∧ Claims.OnlyVeiv s s' m ∧
      (115 * 256 < t.toInt → (getMod s' m).veiv.frozen = true ∧
        Claims.HostEvent s' m 0 (Config.reportCode 2) (Claims.bytes8 (BitVec.ofNat 64 die) ++ Claims.bytes8 t)) ∧
      (t.toInt ≤ 115 * 256 → (getMod s' m).veiv.frozen = v.frozen ∧
        fget (getMod s' m).veiv.hot die false = decide (105 * 256 < t.toInt) ∧
        (105 * 256 < t.toInt → (getMod s' m).veiv.throttle ≠ 0))) ∧
    (∀ kind < 8, ∃ s', exec (.correctedError m kind) s = .next s' ∧ Claims.OnlyVeiv s s' m ∧
      fget (getMod s' m).veiv.corrected kind 0 = min (2 ^ 64 - 1) (fget v.corrected kind 0 + 1) ∧
      ∀ j < 8, j ≠ kind → fget (getMod s' m).veiv.corrected j 0 = fget v.corrected j 0) ∧
    (∀ kind unit off, kind < 8 → unit < 4096 → off % 64 = 0 → off < 2 ^ 37 →
      ∃ s' lost job, exec (.uncorrectableError m kind unit off) s = .next s' ∧ Claims.SameMemory s s' ∧
        Claims.errorTold s' m kind unit off lost job ∧
        fget (getMod s' m).veiv.uncorrected kind 0 = min (2 ^ 64 - 1) (fget v.uncorrected kind 0 + 1) ∧
        (lost = true → kind = 5) ∧
        (∀ pk, contextAt s m unit .piers = some pk →
          (kind = 0 → fget (getPier s' pk).spadPoison (off / 64) false = true ∧ job = jobOf s pk) ∧
          (kind = 1 → fget (getPier s' pk).codePoison (off / 64) false = true ∧ job = jobOf s pk) ∧
          (kind = 2 → off < 0x8000 → ∀ x, (getPier s pk).inbox[off / 64]? = some x →
            (getPier s' pk).inbox[off / 64]? = some { x with msg := { x.msg with poison := 0x3F } })) ∧
        (∀ pk, contextAt s m unit .shadow = some pk → kind = 3 → off < 0x40000 →
          fget (getPier s' pk).spadPoison (off / 64) false = true ∧ job = jobOf s pk) ∧
        (kind = 7 → unit < 8 → ∃ d, d < 3 ∧ pget (getMod s' m).hbmPoison (dramLoc d off) = true) ∧
        (∀ k, kind = 5 → siteAt s m unit = some k →
          if lost then (getSite s' (m * 1024 + k)).status.getLsbD 62 = true
          else fget (getSite s' (m * 1024 + k)).slicePoison (off / 64) false = true)) ∧
    (∀ pk, pkMod pk = m → onSite s m (siteOf s pk) = some pk →
      ∃ s', exec (.debugHalt m (siteOf s pk)) s = .next s' ∧ (getPier s' pk).debugHalted = true ∧
        ∀ k ∈ modsOfJob s (jobOf s pk), Claims.Coming s s' (.holdBroadcast k (jobOf s pk).toNat true)) ∧
    (∀ pk site, (contextsOn s m site).find? (fun k => (getPier s k).debugHalted) = some pk →
      (∀ k ∈ piersOfJob s (jobOf s pk), k ≠ pk → (getPier s k).debugHalted = false) →
      let ends (t : State) : Prop := (getPier t pk).debugHalted = false ∧
        ∀ k ∈ modsOfJob s (jobOf s pk), ∃ due, s.cycle < due ∧ due ≤ s.cycle + 42 ∧
          (due, Instr.holdBroadcast k (jobOf s pk).toNat false) ∈ t.cal
      ((getPier s pk).debugFrames = [] →
        ∃ s', exec (.debugRelease m site) s = .next s' ∧ ends s' ∧ (getPier s' pk).strands = (getPier s pk).strands) ∧
      ∀ n l, n < 8 → l.length = 0x2000 → (getPier s pk).debugFrames = [(n, l)] →
        ∃ s', exec (.debugRelease m site) s = .next s' ∧ ends s' ∧ Claims.FrameHolds l (getStrand s' pk n) ∧
          ∀ k < 8, k ≠ n → getStrand s' pk k = getStrand s pk k)

/-- Spares: a row or an abutment is replaced behind a halt of the partitions it touches, a pseudo-channel behind a halt of all, a lane at once with
its port retraining, at most 420,000 cycles. One that comes while another is applied waits and is applied after it; where none is left nothing is.
A lane that fails is replaced while a spare is left; a port with fewer than 16 good lanes is down and told of. The model's choices: the data of
event 0x0012 and that a spare of Veiviush's own finding waits as a command does (log entry 84), and a lane of a port without a link (log entry 89).
-/
def Obligations.SparesApplied : Prop :=
  ∀ (s : State) (m : Nat),
    let v := (getMod s m).veiv
    let port (t : State) (p : Nat) : Port := fget (getMod t m).ports p {}
    let halting : List (Instr × Nat × Nat × Prop × (HaltNext → Prop)) :=
      (List.range 4).flatMap (fun span => (List.range 16).map fun row => (Instr.sparePierRow m span row, 1, span + row * 256,
        residentAt s m (span * 2 + row / 8) ≠ none, (· = .row span row))) ++
      ((List.range 128).map fun a => (Instr.spareAbutment m a, 2, a,
        (residentAt s m (a / 32 * 2) ≠ none ∨ residentAt s m (a / 32 * 2 + 1) ≠ none), (· = .abut a))) ++
      (List.range 8).flatMap (fun st => (List.range 128).map fun c => (Instr.spareHbmPc m st c, 4, st + c * 256,
        (∃ hs < 8, residentAt s m hs ≠ none), (· = .channel st c)))
    let spares : List (Instr × Nat × Nat) := halting.map (fun x => (x.1, x.2.1, x.2.2.1)) ++
      (List.range 6).flatMap fun p => (List.range 18).map fun l => (Instr.spareTorusLane m p l, 3, p + l * 256)
    let next (i : Instr) (l : List (Nat × Word)) : Host.Outcome State Fault Refusal := exec i (adjVeiv s m fun v => { v with spareQueue := l })
    (∀ i kind u, (i, kind, u) ∈ spares →
      (Claims.Sparing s m ∨ v.spareQueue ≠ [] → ∃ s', exec i s = .next s' ∧ Claims.OnlyVeiv s s' m ∧ s'.agenda = s.agenda ∧ s'.cal = s.cal ∧
        (getMod s' m).veiv = { v with spareQueue := v.spareQueue ++ [(kind, BitVec.ofNat 64 u)] }) ∧
      (¬Claims.Sparing s m → v.spareQueue = [] → ¬Claims.SpareLeft s m kind (BitVec.ofNat 64 u) → exec i s = .next s) ∧
      (v.spareQueue = [(kind, BitVec.ofNat 64 u)] →
        (Claims.Sparing s m → spareTurn s m = s) ∧ (¬Claims.Sparing s m → next i [] = .next (spareTurn s m)))) ∧
    (∀ i kind u busy next, (i, kind, u, busy, next) ∈ halting → Claims.SpareLeft s m kind (BitVec.ofNat 64 u) → Claims.NoSpare s m →
      ∃ s' h, exec i s = .next s' ∧ (getMod s' m).halts = [h] ∧ next h.next ∧ Claims.SameMemory s s' ∧
        (busy → h.waiting ≠ []) ∧ (¬busy → h.waiting = [] ∧ Work.ev (.haltAck m 0 4096) ∈ s'.agenda)) ∧
    (∀ p l, p < 6 → l < 18 →
      ((port s p).spared.length < 2 → Claims.NoSpare s m →
        ∃ s', exec (.spareTorusLane m p l) s = .next s' ∧ Claims.OnlyVeiv s s' m ∧
          (port s' p).spared = (port s p).spared ++ [l] ∧ Claims.spareTold s' m 3 (p + l * 256) ∧
          (¬Claims.linked s p → (port s' p).retraining = false ∧ s'.cal = s.cal) ∧
          (Claims.linked s p → (port s' p).retraining = true ∧
            ∃ due, s.cycle < due ∧ due ≤ s.cycle + 420000 ∧ (port s' p).retrainEnd = due ∧ (due, Instr.portRetrainComplete m p) ∈ s'.cal)) ∧
      (∃ s', exec (.portRetrainComplete m p) s = .next s' ∧ port s' p = { port s p with retraining := false } ∧
        Claims.OnlyVeiv s s' m ∧ (getMod s' m).veiv = v) ∧
      (¬Claims.linked s p → exec (.torusLaneFailure m p l) s = .next s) ∧
      (Claims.linked s p →
        ∃ s', exec (.torusLaneFailure m p l) s = .next s' ∧ Claims.OnlyVeiv s s' m ∧ (port s' p).failed = (port s p).failed ++ [l] ∧
        (2 < ((port s p).failed ++ [l]).eraseDups.length → s'.agenda = s.agenda ++ [.ev (.portDown m p)]) ∧
        (((port s p).failed ++ [l]).eraseDups.length ≤ 2 → (port s p).spared.length < 2 →
          (port s' p).spared = (port s p).spared ++ [l] ∧ (port s' p).retraining = true ∧ Claims.spareTold s' m 3 (p + l * 256))) ∧
      (2 < (port s p).failed.eraseDups.length → (port s p).failed.eraseDups.length ≤ 18 → (port s p).down = false →
        ∃ s', exec (.portDown m p) s = .next s' ∧ port s' p = { port s p with down := true } ∧ Claims.OnlyVeiv s s' m ∧
          Claims.HostEvent s' m 0 (Config.reportCode 1) (Claims.bytes8 (BitVec.ofNat 64 p))))

/-- Bring-up verifies and measures the stages, replaces what is bad, and leaves the module up, or in recovery, with none of its steps still to
come; the bank refresh holds no state; the time base skips or repeats one count, never away from module 0's. A placement table, a group entry and a
gang schedule within the rules is in force; one that breaks a rule leaves the old one. The model's choices: the refusals of placement tables beyond
R195 and the first place of contexts (log entry 52), the bytes that a bring-up keeps (log entry 54), and the fuse repairs (log entry 9). -/
def Obligations.TablesAndBringUp : Prop :=
  ∀ (s : State) (m : Nat),
    let stage := Claims.lastStage s m
    (∃ s', exec (.bringUp m) s = .next s' ∧ (getMod s' m).present = true ∧ (getMod s' m).veiv.stage.toNat = Claims.lastPassed s m ∧
      (getMod s' m).veiv.recovery = decide (stage ≠ 3) ∧ (getMod s' m).veiv.mreg = Claims.register m stage ∧
      (stage = 3 → (getMod s' m).veiv.nextProbe = s.cycle + 2097152) ∧
      (∀ p < 6, (fget (getMod s' m).ports p {}).spared = if 2 ≤ stage then (Claims.lanes s m p).take 2 else []) ∧
      (getMod s' m).tb = (if m = 0 then 0 else (getMod s 0).tb) ∧
      (getMod s' m).host.nextSeq = 0 ∧ (getMod s' m).host.expected = 0 ∧ (∀ a, mget (getMod s' m).hbm a = mget (getMod s m).hbm a) ∧
      (∀ p ∈ s'.piers, pkMod p.1 ≠ m) ∧ (∀ e, e ∈ s'.cal ↔ e ∈ s.cal ∧ ofModule m e.2 = false) ∧ ∀ k, k ≠ m → getMod s' k = getMod s k) ∧
    (∀ b, exec (.bankRefresh m b) s = .next s) ∧
    (∀ t : Word,
      let x := getMod s m
      let up := (t - x.tb).toNat < 2 ^ 63
      let to_ : Word := if up then x.tb + 1 else x.tb - 1
      let away := ¬(Claims.apartBy to_ (getMod s 0).tb ≤ 42) ∧ ¬(Claims.apartBy to_ (getMod s 0).tb < Claims.apartBy x.tb (getMod s 0).tb)
      let early := s.cycle < x.tbCorrected + 4096 ∧ x.tbCorrected ≠ 0
      ∃ s', exec (.timeBaseFlit m t) s = .next s' ∧ Claims.SameMemory s s' ∧ s'.piers = s.piers ∧
        (m = 0 ∨ x.tb = t ∨ early ∨ away → getMod s' m = x) ∧
        (m ≠ 0 → x.tb ≠ t → ¬early → ¬away → getMod s' m = { x with tbStep := if up then 2 else 0, tbCorrected := s.cycle })) ∧
    (∀ part job hs tbl, Claims.tableBad tbl hs → (∀ e ∈ tbl, e.1 < 1024) → exec (.placementTableWrite m part job hs tbl) s = .next s) ∧
    (∀ part job hs tbl, part < 8 → tableOk s job hs tbl = true → (getPart s m part).inUse = true → (getPart s m part).job = job →
      tableFold (getPart s m part).table = tableFold tbl →
      ∃ s', exec (.placementTableWrite m part job hs tbl) s = .next s' ∧ (getPart s' m part).table = tbl ∧
        (getPart s' m part).halfspans = hs ∧ Claims.SameMemory s s' ∧ (∀ e ∈ s.piers, getPier s' e.1 = getPier s e.1) ∧
        ∀ h < 8, (hs.getLsbD h = false → locOf s' m part h = .none) ∧
          (hs.getLsbD h = true → (getPart s m part).halfspans.getLsbD h = true → locOf s' m part h = locOf s m part h)) ∧
    (∀ part job hs tbl, (getPart s m part).inUse = true → (getPart s m part).job = job →
      tableFold (getPart s m part).table ≠ tableFold tbl → (∃ l ∈ (getPart s m part).loc, l.2 = .piers ∨ l.2 = .shadow) →
      exec (.placementTableWrite m part job hs tbl) s = .next s) ∧
    (∀ part job hs tbl, part < 8 → tableOk s job hs tbl = true → ¬((getPart s m part).inUse = true ∧ (getPart s m part).job = job) →
      ∃ s', exec (.placementTableWrite m part job hs tbl) s = .next s' ∧ (getPart s' m part).table = tbl ∧
        (getPart s' m part).job = job ∧ (getPart s' m part).inUse = true ∧ (getPart s' m part).savedTable = tbl ∧
        (∀ e ∈ s.piers, ¬(pkMod e.1 = m ∧ pkPart e.1 = part) → getPier s' e.1 = getPier s e.1) ∧
        (∀ k a, mget (getMod s' k).hbm a = mget (getMod s k).hbm a) ∧ (∀ k a, mget (getSite s' k).slice a = mget (getSite s k).slice a) ∧
        ∀ h < 8, hs.getLsbD h = true → (∀ q < 8, q ≠ part → locOf s m q h ≠ .piers) → locOf s' m part h = .piers) ∧
    (∀ id hdr ms,
      let op := Claims.fld hdr 60 3
      let ok := op ≤ 4 ∧ (op = 4 → 1 ≤ Claims.fld hdr 57 3 ∧ Claims.fld hdr 57 3 ≤ 6) ∧ 1 ≤ ms.length ∧ ms.length ≤ 65536 ∧
        (∀ a ∈ ms, (pkOfAddr s (awMod a) (awPier a) (hdr.extractLsb' 38 12)).isSome) ∧ Claims.fld hdr 52 5 < 30
      (id < 256 → ok → ∃ s', exec (.groupEntryWrite m id hdr ms) s = .next s' ∧ (fget (getMod s' m).groups id {}).hdr = hdr ∧
        (fget (getMod s' m).groups id {}).members = ms ∧ Claims.SameMemory s s' ∧ s'.piers = s.piers ∧
        ∀ j, j ≠ id → fget (getMod s' m).groups j {} = fget (getMod s m).groups j {}) ∧
      (¬ok → exec (.groupEntryWrite m id hdr ms) s = .next s)) ∧
    ∀ (o : Word) (p : BitVec 32) (sl : FMap Word),
      let start (i : Nat) := Claims.fld (fget sl i 0) 0 32
      let valid (i : Nat) : Prop := i < 16 ∧ (fget sl i 0).getLsbD 63 = true
      let bad := p.toNat < 65536 ∨ (∃ i, valid i ∧ p.toNat ≤ start i) ∨
        ∃ h < 8, ∃ i j, valid i ∧ valid j ∧ i ≠ j ∧ (fget sl i 0).getLsbD (48 + h) = true ∧ (fget sl j 0).getLsbD (48 + h) = true ∧
          (start j + p.toNat - start i) % p.toNat < 32768
      (bad → exec (.gangScheduleWrite m o p sl) s = .next s) ∧
      (¬bad → ∃ s', exec (.gangScheduleWrite m o p sl) s = .next s' ∧ (getMod s' m).gangO = o ∧ (getMod s' m).gangP = p ∧
        (∀ i < 16, fget (getMod s' m).gang i 0 = fget sl i 0) ∧ Claims.SameMemory s s' ∧ s'.piers = s.piers)

namespace Sys2Proof.Claims

/-- The triggers of ia and ib. -/
def integerTriggers (m : Mv) (u : Alu) : List Instr :=
  [.add m u, .sub m u, .and m u, .or m u, .xor m u, .andn m u, .shl m u, .shr m u, .sra m u, .rol m u, .min m u, .minU m u, .max m u,
    .maxU m u, .eq m u, .ne m u, .lt m u, .ltU m u, .le m u, .leU m u, .clz m u, .ctz m u, .popc m u, .brev m u, .bdep m u, .bext m u,
    .sext m u, .zext m u, .sel m u]

/-- The triggers of im. -/
def multiplyTriggers (m : Mv) : List Instr := [.mul m, .mulh m, .mulhU m, .mad m, .div m, .divU m, .rem m, .remU m]

/-- The triggers of vx. -/
def vectorTriggers (m : Mv) (t : VT) (r : RMode) : List Instr :=
  [.vadd m t, .vsub m t, .vmul m t, .vfma m t, .vmin m t, .vmax m t, .vabs m t, .vneg m t, .vceq m t, .vclt m t, .vcle m t, .vsel m t,
    .vand m, .vor m, .vxor m, .vshl m, .vshr m, .vcvt m r, .vshuf m t, .vrsum m t, .vrmax m t, .vrmaxMin m t, .vbcast m t, .vext m t,
    .vmask m, .viota m, .vcmul m, .vcmulConj m]

/-- Every byte memory stands in its canonical form: addresses strictly rising, no zero byte listed. -/
def Sorted (m : FMap Byte) : Prop := m.Pairwise (fun a b => a.1 < b.1) ∧ ∀ e ∈ m, e.2 ≠ 0

/-- HBM of every module, scratchpad of every pier context and weight-store slice of every site in canonical form. -/
def Canonical (s : State) : Prop :=
  (∀ m, Sorted (getMod s m).hbm) ∧ (∀ pk, Sorted (getPier s pk).spad) ∧ ∀ k, Sorted (getSite s k).slice

end Sys2Proof.Claims

/-- A trigger of the integer and vector units that takes no fault and does not hold leaves everything but its unit's result ports, and im's
divider, as it was: registers, other ports, other runs, memory, sluices, modules. -/
def Obligations.RegisterTriggersFrame : Prop :=
  ∀ (s s' : State) (m : Mv) (u : Alu) (t : VT) (r : RMode) (i : Instr) (unit : Nat),
    (i ∈ Claims.integerTriggers m u ∧ unit = u.unit) ∨ (i ∈ Claims.multiplyTriggers m ∧ unit = 3) ∨
      (i ∈ Claims.vectorTriggers m t r ∧ unit = 6) →
    s.issue.fault = none → exec i s = .next s' → s'.issue = s.issue → Claims.Frame s s' unit

/-- After any step every byte memory of the machine still has its canonical form. -/
def Obligations.StepsKeepMemoryCanonical : Prop :=
  ∀ s s' : State, Claims.Canonical s → step s = .next s' → Claims.Canonical s'

/-- What reset leaves: memory canonical and nothing placed, every actor free, every table entry invalid, every sluice off, the time base and the
counts zero, module 0 about to bring itself up. The model's choices: the one module (log entry 3), the values of registers that the rules give no
reset value (log entry 2), the bring-up as the first work (log entry 10), and the empty calendar (log entry 66). -/
def Obligations.ResetState : Prop :=
  Claims.Canonical State.reset ∧ State.reset.agenda = [.ev (.bringUp 0)] ∧ State.reset.cal = [] ∧ State.reset.cycle = 0 ∧
  ∀ m pk : Nat,
    (∀ n, getSluice State.reset pk n = {}) ∧ (∀ a, (getActor State.reset pk a).st = .free ∧ (getActor State.reset pk a).weir = 16) ∧
    (∀ n, fget (getPier State.reset pk).handlers n 0 = 0) ∧ (∀ n, fget (getPier State.reset pk).wins n 0 = 0) ∧
    (getPier State.reset pk).inbox = [] ∧ (getPier State.reset pk).outbox = [] ∧ (getPier State.reset pk).mq = [] ∧
    (getPier State.reset pk).jobStrands = 7 ∧ (getPier State.reset pk).age = 16 ∧ (getPier State.reset pk).laglim = 65536 ∧
    (getPier State.reset pk).savelim = 32768 ∧ (∀ st, (getStrand State.reset pk st).seed = 1) ∧
    (∀ p lp, lp < 1024 → (entryOf State.reset m p lp).getLsbD 31 = false ∧ ((entryOf State.reset m p lp).extractLsb' 10 10).toNat = lp ∧
      ((entryOf State.reset m p lp).extractLsb' 0 10).toNat = lp) ∧ (∀ g, (fget (getMod State.reset m).groups g {}).hdr = 0) ∧
    (getMod State.reset m).tb = 0 ∧ (getMod State.reset m).host.expected = 0 ∧ (getMod State.reset m).host.nextSeq = 0 ∧
    (∀ k, (getSite State.reset k).status = 0)

/-- The im opcodes: a trigger to unit 3 is one of the eight operations by its opcode 0x00 to 0x07, and an illegal operation by any other,
with every guard and every source. -/
def Obligations.ImOpcodes : Prop :=
  ∀ (wide : Bool) (w : BitVec 30) (src : Source), w.extractLsb' 13 2 = 1 → w.extractLsb' 8 5 = 3 →
    decodeSource wide (w.extractLsb' 15 11) = .ok src →
    let m : Mv := ⟨w.getLsbD 29, w.extractLsb' 26 3, src⟩
    decodeSlot wide w = match (w.extractLsb' 0 8).toNat with
      | 0x00 => .ok (.mul m)
      | 0x01 => .ok (.mulh m)
      | 0x02 => .ok (.mulhU m)
      | 0x03 => .ok (.div m)
      | 0x04 => .ok (.divU m)
      | 0x05 => .ok (.rem m)
      | 0x06 => .ok (.remU m)
      | 0x07 => .ok (.mad m)
      | _ => .error (.illegalOp (w.extractLsb' 0 8))

/-- The CRD and CWR accesses that fault and change nothing: job code at an index of 0x100 or above and job code that writes a read-only field
fault with privilege, any code at an index below 0x100 with no word with illegal operation and the index in w3. -/
def Obligations.ControlWordFaults : Prop :=
  ∀ (s : State) (m : Mv) (t a : Value), Claims.Fires s m t → t.poison = false → a.poison = false →
    (∀ p ∈ (curStrand s).pend, p.seed = false) →
    let assigned (n : Nat) : Prop := n ∈ Claims.jobWords ∨ ∃ f ∈ Claims.cwFields s, f.1 = n
    let writable (n : Nat) : Word := ((Claims.cwFields s).find? (·.1 == n)).elim 0 (·.2.1)
    (curService s = false → 0x100 ≤ (vsc t).toNat → exec (.crd m) s = .next (raise s 12 0x0D (moveWord s t) (vsc t))) ∧
    ((vsc t).toNat < 0x100 → ¬assigned (vsc t).toNat → exec (.crd m) s = .next (raise s 12 0x03 (moveWord s t) (vsc t))) ∧
    (Claims.Port s .syA a →
      (curService s = false → 0x100 ≤ (vsc a).toNat → exec (.cwr m) s = .next (raise s 12 0x0D (moveWord s t) (vsc a))) ∧
      ((vsc a).toNat < 0x100 → ¬assigned (vsc a).toNat → exec (.cwr m) s = .next (raise s 12 0x03 (moveWord s t) (vsc a))) ∧
      (curService s = false → (vsc a).toNat < 0x100 → assigned (vsc a).toNat →
        writable (vsc a).toNat = 0 ∨ vsc t &&& ~~~writable (vsc a).toNat ≠ 0 →
        exec (.cwr m) s = .next (raise s 12 0x0D (moveWord s t) (vsc a))))

/-- LDL checks alignment and then the region of its actor, with the address in w3 in either case; one that passes reads the scratchpad as it
issues, and its result lands three cycles on. -/
def Obligations.LdlChecks : Prop :=
  ∀ (s : State) (m : Mv) (t a : Value) (f : BitVec 3), Claims.Fires s m t → Claims.Port s .lsA a → t.poison = false → a.poison = false →
    acqPending s = false →
    let n := 2 ^ (f.toNat % 4)
    let addr := vsc a + vsc t
    let v := BitVec.ofNat (8 * n) (Claims.spadNum s s.issue.pk addr.toNat n)
    (addr.toNat % n ≠ 0 → exec (.ldl m f) s = .next (raise s 4 0x07 (moveWord s t) addr)) ∧
    (addr.toNat % n = 0 → ¬Claims.LsAllows s addr.toNat n → exec (.ldl m f) s = .next (raise s 4 0x06 (moveWord s t) addr)) ∧
    (Claims.LsAllows s addr.toNat n → exec (.ldl m f) s = .next (Claims.later s 4 3
      (Claims.scalar (if f.toNat < 4 then v.signExtend 64 else v.setWidth 64) (Claims.spadBad s s.issue.pk addr.toNat)) none))

/-! The statements that have several parts. -/

/-- Exactly the bundles of R88 are refused, and such a bundle faults with 0x01: `Claims.IllegalBundlesByEncoding`,
`Claims.IllegalBundleFaults`. -/
def Obligations.IllegalBundles : Prop :=
  Claims.IllegalBundlesByEncoding ∧
  Claims.IllegalBundleFaults

/-- A step is exec of the decoded instruction, with the issue around it: `Claims.StepRunsEvent`, `Claims.StepIssuesDecodedSlot`. The model's
choice: that what waited in a bundle of the pier is made behind the issue (log entry 15). -/
def Obligations.StepRunsDecodedInstruction : Prop :=
  Claims.StepRunsEvent ∧
  Claims.StepIssuesDecodedSlot

/-- Moves before triggers, triggers by unit, a waiting source holds the bundle: `Claims.SlotsRunInBundleOrder`, `Claims.PendingSourceHoldsBundle`.
The model's choice: that what waited in a bundle of the pier is made behind the issue (log entry 15). -/
def Obligations.SlotsRunInBundleOrder : Prop :=
  Claims.SlotsRunInBundleOrder ∧
  Claims.PendingSourceHoldsBundle

/-- MOVE and NOP: what each destination takes: `Claims.MoveWritesDestination`, `Claims.MovedValueConversions`. The model's choice: a poisoned value
moved into c0 is discarded without a fault (log entry 67). -/
def Obligations.MovesWriteDestinations : Prop :=
  Claims.MoveWritesDestination ∧
  Claims.MovedValueConversions

/-- JMP and JAL set the bundle address; a FENCE waits and issues: `Claims.JumpsSetBundleAddress`, `Claims.FenceWaitsThenIssues`. -/
def Obligations.JumpsAndFences : Prop :=
  Claims.JumpsSetBundleAddress ∧
  Claims.FenceWaitsThenIssues

/-- DONE ends the run; TRAP and BRK freeze it behind their bundle: `Claims.DoneEndsRun`, `Claims.TrapAndBreakpointFreeze`. -/
def Obligations.RunsEndAndFreeze : Prop :=
  Claims.DoneEndsRun ∧
  Claims.TrapAndBreakpointFreeze

/-- The results of every operation of ia and ib: `Claims.AluTwoOperandResults`, `Claims.AluBitPlacement`,
`Claims.AluOneOperandAndSelect`. -/
def Obligations.IntegerResults : Prop :=
  Claims.AluTwoOperandResults ∧
  Claims.AluBitPlacement ∧
  Claims.AluOneOperandAndSelect

/-- Products, quotients and remainders, and the one divider of a pier: `Claims.MultiplyResults`, `Claims.DivideStarts`,
`Claims.DivideCompletes`. -/
def Obligations.MultiplyAndDivide : Prop :=
  Claims.MultiplyResults ∧
  Claims.DivideStarts ∧
  Claims.DivideCompletes

/-- Taking a fault saves the run and sends its record; going on after it: `Claims.FaultFreezesRunAndSendsRecord`, `Claims.RunGoesOnAfterFault`. The
model's choice: a wait goes on under a fault other than that of a matrix entry (log entry 33). -/
def Obligations.FaultsTakenAndLeft : Prop :=
  Claims.FaultFreezesRunAndSendsRecord ∧
  Claims.RunGoesOnAfterFault

/-- An empty result port faults, and the fault of the lowest slot stands: `Claims.EmptyPortFaults`, `Claims.LowestSlotFaultStands`. -/
def Obligations.FaultsWithinBundle : Prop :=
  Claims.EmptyPortFaults ∧
  Claims.LowestSlotFaultStands

/-- LDL, VLDL, STL and VSTL: the bytes read and written, and no others: `Claims.LocalLoads`, `Claims.LocalStores`. -/
def Obligations.LocalLoadsAndStores : Prop :=
  Claims.LocalLoads ∧
  Claims.LocalStores

/-- ATL and CASL in one access; the faults of every ls access: `Claims.LocalAtomics`, `Claims.LocalAccessFaults`. -/
def Obligations.LocalAtomicsAndFaults : Prop :=
  Claims.LocalAtomics ∧
  Claims.LocalAccessFaults

/-- A gm access takes an entry and starts, or faults at its checks: `Claims.GlobalAccessStarts`, `Claims.GlobalAccessFaults`. The model's choice:
an aperture request is held behind one of its run to bytes of its own (log entry 81). -/
def Obligations.GlobalAccessIssues : Prop :=
  Claims.GlobalAccessStarts ∧
  Claims.GlobalAccessFaults

/-- One step of a page walk, and what its end does to the request: `Claims.PageWalkStep`, `Claims.MovingEntryIsReadAgain`,
`Claims.TranslationIssuesRequest`. -/
def Obligations.GlobalTranslation : Prop :=
  Claims.PageWalkStep ∧
  Claims.MovingEntryIsReadAgain ∧
  Claims.TranslationIssuesRequest

/-- An access at its home in HBM and the leases of the ingress cache: `Claims.HbmAccessAtHome`, `Claims.LeasesEnd`. -/
def Obligations.HbmAccess : Prop :=
  Claims.HbmAccessAtHome ∧
  Claims.LeasesEnd

/-- An aperture access at its target pier; the answer to a gm request: `Claims.ApertureAccessAtTarget`, `Claims.GlobalAnswerLands`. The model's
choice: an access to a fenced pier tries again 512 cycles later (log entry 22). -/
def Obligations.AperturesAndAnswers : Prop :=
  Claims.ApertureAccessAtTarget ∧
  Claims.GlobalAnswerLands

/-- The dirty log is merged; an invalidation runs to its completion: `Claims.DirtyLogMerged`, `Claims.InvalidationQueues`,
`Claims.AgentBeginsInvalidation`, `Claims.SiteInvalidates`, `Claims.AbutmentInvalidates`, `Claims.InvalidationCompletes`. The model's choices:
event 0x0003 carries eight bytes, zero but for the flag of R363 (log entry 84), the job that an invalidation of every job reaches is that of the
executing pier (log entry 85), and an invalidation does not wait for an entry of the log whose table node is being moved (log entry 86). -/
def Obligations.DirtyLogAndInvalidation : Prop :=
  Claims.DirtyLogMerged ∧
  Claims.InvalidationQueues ∧
  Claims.AgentBeginsInvalidation ∧
  Claims.SiteInvalidates ∧
  Claims.AbutmentInvalidates ∧
  Claims.InvalidationCompletes

/-- The results of every vx operation: `Claims.VectorElementwise`, `Claims.VectorBitsAndProducts`, `Claims.VectorMovement`,
`Claims.VectorReductions`, `Claims.VectorConversion`. -/
def Obligations.VectorResults : Prop :=
  Claims.VectorElementwise ∧
  Claims.VectorBitsAndProducts ∧
  Claims.VectorMovement ∧
  Claims.VectorReductions ∧
  Claims.VectorConversion

/-- An mx trigger joins the matrix queue, or faults: `Claims.MatrixTriggersQueue`, `Claims.MatrixTriggerFaults`. -/
def Obligations.MatrixTriggers : Prop :=
  Claims.MatrixTriggersQueue ∧
  Claims.MatrixTriggerFaults

/-- A cycle of the matrix queue, and the completion of an entry: `Claims.MatrixEntryChecks`, `Claims.MatrixSetsUp`, `Claims.MatrixProducts`,
`Claims.MatrixRowSteps`, `Claims.MatrixEntryCompletes`. The model's choices: the poison of a tile's row is the mark of its first slot (log entry
76), and poisoned metadata of an MMAS faults with 0x0C (log entry 24). -/
def Obligations.MatrixEntries : Prop :=
  Claims.MatrixEntryChecks ∧
  Claims.MatrixSetsUp ∧
  Claims.MatrixProducts ∧
  Claims.MatrixRowSteps ∧
  Claims.MatrixEntryCompletes

/-- A keystone operation from its trigger to its result: `Claims.KeystoneTriggers`, `Claims.KeystoneAccepts`, `Claims.KeystoneResultLands`. The
model's choice: where R115 gives a bound alone, the result is a free value within it (log entry 7); `Obligations.KeystoneValues` states the special
inputs of R116 and the correct and exact cases of R115. -/
def Obligations.Keystones : Prop :=
  Claims.KeystoneTriggers ∧
  Claims.KeystoneAccepts ∧
  Claims.KeystoneResultLands

/-- SEND, REPLY and FWD put their message into the outbox: `Claims.SendAndReply`, `Claims.ForwardKeepsSender`. -/
def Obligations.SendReplyForward : Prop :=
  Claims.SendAndReply ∧
  Claims.ForwardKeepsSender

/-- MCAST, SEND.red and MSTAT; what a send faults on and waits for: `Claims.GroupSends`, `Claims.SendFaultsAndHolds`, `Claims.MessageStatus`. The
model's choices: w3 of an MCAST of length 7 and of an illegal MSTAT item is the opcode (log entry 27), the outbox count stops at 64 (log entry 14),
and a count is cut to its field (log entry 64). -/
def Obligations.GroupSendsAndStatus : Prop :=
  Claims.GroupSends ∧
  Claims.SendFaultsAndHolds ∧
  Claims.MessageStatus

/-- SARM, SSET and SADD on a sluice, and the check after a firing: `Claims.SluiceArmAndSet`, `Claims.SluiceAddAndFire`,
`Claims.LocalSluiceReleases`, `Claims.SluiceChecksAgain`, `Claims.SluiceAtRest`. The model's choices: SADD, SSET and SARM are held as R152 holds a
release (log entry 42), beside a gm access of their own bundle they are owed (log entry 15), and SARM in mode off keeps the bits [46:0] of its
action word (log entry 68). -/
def Obligations.CounterSluices : Prop :=
  Claims.SluiceArmAndSet ∧
  Claims.SluiceAddAndFire ∧
  Claims.LocalSluiceReleases ∧
  Claims.SluiceChecksAgain ∧
  Claims.SluiceAtRest

/-- A firing posts and releases; SRADD sends; adds, arrives and notices land or are refused: `Claims.FiringPosts`, `Claims.FiringReleases`,
`Claims.StagedEntryTakesCredit`, `Claims.RemoteSluiceAdd`, `Claims.SluiceArrivalsRefused`, `Claims.SluiceArrivals`. The model's choice: a lead of 3
that is added to goes to 0 (log entry 79). -/
def Obligations.SluiceTraffic : Prop :=
  Claims.FiringPosts ∧
  Claims.FiringReleases ∧
  Claims.StagedEntryTakesCredit ∧
  Claims.RemoteSluiceAdd ∧
  Claims.SluiceArrivalsRefused ∧
  Claims.SluiceArrivals

/-- SARV, SWAIT, SWAIT.ph and SGET, and the faults of sl: `Claims.BarrierArrive`, `Claims.SluiceWaitsAndReads`, `Claims.SluiceFaults`. The model's
choices: a SARV beside a gm access of its own bundle that it covers blocks the strand until that is performed (log entry 15), and a lead of 3 that
is added to goes to 0 (log entry 79). -/
def Obligations.BarriersAndWaits : Prop :=
  Claims.BarrierArrive ∧
  Claims.SluiceWaitsAndReads ∧
  Claims.SluiceFaults

/-- A stream command leaves for its abutment and is taken, queued or resent there: `Claims.StreamCommandsStart`, `Claims.StreamCommandArrives`. The
model's choices: a command beside a gm access of its own bundle is owed (log entry 15), the answer of a command with an extension record or a
segment table waits until that is read (log entry 20), and an abutment that is halted for the command's partition has it sent on again later (log
entry 83). -/
def Obligations.StreamCommands : Prop :=
  Claims.StreamCommandsStart ∧
  Claims.StreamCommandArrives

/-- A stream opens at its pier and becomes active, and an abutment serves it turn by turn: `Claims.StreamOpens`, `Claims.StreamBegins`,
`Claims.ExtensionRead`, `Claims.SegmentTableRead`, `Claims.StreamReadsMemory`, `Claims.StreamWritesMemory`, `Claims.ExchangeTurns`. The model's
choices: a command with an extension record or a segment table is answered once that is read (log entry 20), a write stream has at most 64 flits
asked for and not yet written (log entry 31), and room for a chunk is taken in the buffers of both sides (log entry 69). -/
def Obligations.StreamsOpenAndRead : Prop :=
  Claims.StreamOpens ∧
  Claims.StreamBegins ∧
  Claims.ExtensionRead ∧
  Claims.SegmentTableRead ∧
  Claims.StreamReadsMemory ∧
  Claims.StreamWritesMemory ∧
  Claims.ExchangeTurns

/-- Flits land, are refused and sent again; exchanges pair and receive: `Claims.StreamFlitsLand`, `Claims.StreamFlitsResentAndIncrements`,
`Claims.ExchangesPairAndReceive`. The model's choices: a flit outside the region stops its stream with 0x12 (log entry 28), and flits of no bytes
tell the sides of an exchange of room and of a stop (log entry 69). -/
def Obligations.StreamFlits : Prop :=
  Claims.StreamFlitsLand ∧
  Claims.StreamFlitsResentAndIncrements ∧
  Claims.ExchangesPairAndReceive

/-- CRD gives each control word; CWR writes the fields it may: `Claims.ControlWordsRead`, `Claims.ControlWordsWritten`. The model's choices: the
steps of the table that are a CWR of one word do nothing where port a names another (log entry 12), cw.dlog reads a tail of head plus count, so
that a CWR of the head moves the tail (log entry 34), and counts show cut to their fields (log entry 64). -/
def Obligations.ControlWords : Prop :=
  Claims.ControlWordsRead ∧
  Claims.ControlWordsWritten

/-- ACRT creates an actor or nothing; ARET, GDONE, GCNCL and TLBI: `Claims.ActorsCreated`, `Claims.CompletionAndCancelTriggers`. The model's
choices: the opcode in w3 of ARET, GDONE and GCNCL and the 0 in that of TLBI (log entry 27), and −3 for low six bits of the region words (log entry
35). -/
def Obligations.ActorsAndJobTriggers : Prop :=
  Claims.ActorsCreated ∧
  Claims.CompletionAndCancelTriggers

/-- Messages return from a spillway; answers free, keep or report an outbox entry: `Claims.SpillwayReturns`, `Claims.OutboxAnswers`. The model's
choice: what returns from a spillway is the message as it was admitted (log entry 13). -/
def Obligations.SpillwaysAndOutboxAnswers : Prop :=
  Claims.SpillwayReturns ∧
  Claims.OutboxAnswers

/-- Multicast copies and laggards; reduction rounds and their results: `Claims.MulticastCopiesArrive`, `Claims.ReductionRounds`. The model's
choices: the laggard limit is that of the sender's pier (log entry 39), and the round of a reduction is kept in the root's module and its result is
poisoned word by word (log entry 43). -/
def Obligations.MulticastAndReduction : Prop :=
  Claims.MulticastCopiesArrive ∧
  Claims.ReductionRounds

/-- The job controller: completions, cancels, phases and holds: `Claims.JobControllerCancels`, `Claims.CancelsAtPiers`, `Claims.PhasesAndHolds`.
The model's choices: a cancel reaches the piers of every module of the job (log entry 38), and the record of code 0x16 is not discarded with its
level (log entry 71). -/
def Obligations.CancelsAndPhases : Prop :=
  Claims.JobControllerCancels ∧
  Claims.CancelsAtPiers ∧
  Claims.PhasesAndHolds

/-- A partition halts; a pier that does not is fenced and its row replaced: `Claims.PartitionsHalt`, `Claims.HungPiersAreFenced`. The model's
choices: the layout of what an abutment saves (log entry 5), that event 0x0004 carries the logical pier and what a spare row is loaded with (log
entry 46), and the data of event 0x0015 (log entry 84). -/
def Obligations.HaltsAndHungPiers : Prop :=
  Claims.PartitionsHalt ∧
  Claims.HungPiersAreFenced

/-- Swap, evict and restore of a partition; parked runs; gang slices: `Claims.PartitionsMove`, `Claims.ParkedRunsAndGangSlices`. The model's
choices: the place and layout of the save area, its images, contexts and parked frames (log entry 5), and that a slice waits for any switch of its
module (log entry 73). -/
def Obligations.PartitionsMove : Prop :=
  Claims.PartitionsMove ∧
  Claims.ParkedRunsAndGangSlices

/-- The job loader takes or refuses an image; the numbers of the host port: `Claims.JobLoaderRuns`, `Claims.HostPortNumbers`. The model's choices:
the number of the failed check as the data of event 0x0005 and what a load resets (log entry 44), the timer that starts again with a resend and the
numbering of frames (log entry 55), and the parsed image beside its sections (log entry 90). -/
def Obligations.LoaderAndPortNumbers : Prop :=
  Claims.JobLoaderRuns ∧
  Claims.HostPortNumbers

/-- The function that a keystone applies to an element: a NaN gives the canonical NaN, the special inputs of R116 give what its table says,
a logarithm and a root of a negative number give NaN; KEXP.2 of a whole number and KLOG.2 of a power of two are exact, and KRCP, KRSQ and KSQRT
are correctly rounded. -/
def Obligations.KeystoneValues : Prop :=
  let x (b : Nat) : FV := fvOf fmtFp32 b
  let one : FV := .fin false 1 0
  (∀ fn < 12, ∀ b < 2 ^ 32, 0x7F800000 < b % 2 ^ 31 → kfElem fn b = 0x7FC00000) ∧
  (∀ e ∈ Claims.keySpecials, [0xFF800000, 0x80000000, 0, 0x7F800000].map (kfElem e.1) = e.2) ∧
  (∀ fn ∈ [2, 3, 5, 6], ∀ b, 0x80000000 < b → b < 0xFF800000 → kfElem fn b = 0x7FC00000) ∧
  kfElem 2 0x3F800000 = 0 ∧ kfElem 3 0x3F800000 = 0 ∧
  (∀ b < 2 ^ 32, ∀ i : Int, fvEq (x b) (fvOfInt i) = true →
    (-149 ≤ i → i ≤ 127 → x (kfElem 1 b) = x (kfElem 1 b % 2 ^ 31) ∧ fvEq (x (kfElem 1 b)) (.fin false 1 i) = true) ∧
    (127 < i → kfElem 1 b = 0x7F800000)) ∧
  (∀ b < 2 ^ 31, ∀ i : Int, fvEq (x b) (.fin false 1 i) = true → fvEq (x (kfElem 3 b)) (fvOfInt i) = true) ∧
  (∀ b, 0 < b → b < 0x7F800000 →
    Claims.Correct (kfElem 4 b) (fun d => !fvLt one (fvMul d (x b))) (fun d => !fvLt (fvMul d (x b)) one) ∧
    kfElem 4 (b + 2 ^ 31) = kfElem 4 b + 2 ^ 31 ∧
    Claims.Correct (kfElem 5 b) (fun d => !fvLt one (fvMul (fvMul d d) (x b))) (fun d => !fvLt (fvMul (fvMul d d) (x b)) one) ∧
    Claims.Correct (kfElem 6 b) (fun d => !fvLt (x b) (fvMul d d)) (fun d => !fvLt (fvMul d d) (x b)))
end

