-- ==== Sys2Proof/Laws/State.lean ====
section
/-!
SUPPORT. The field lemmas of State: what each update of Machine/Ops.lean leaves as it was, each true by unfolding; and the laws
of the finite maps.
-/

namespace Sys2Proof.Machine

/-! Finite maps. -/

@[simp] theorem fget_fset_same {α : Type} (m : FMap α) (k : Nat) (v d : α) : fget (fset m k v) k d = v := by
  induction m with
  | nil => simp [fset, fget]
  | cons p m ih =>
    simp only [fset]
    split
    · simp [fget]
    · split
      · simp [fget]
      · rename_i h1 h2
        simp only [fget, h2, if_false, ih]

theorem fget_fset_other {α : Type} (m : FMap α) (k j : Nat) (v d : α) (h : j ≠ k) : fget (fset m k v) j d = fget m j d := by
  induction m with
  | nil => simp [fset, fget, Ne.symm h]
  | cons p m ih =>
    simp only [fset]
    split
    · simp [fget, Ne.symm h]
    · split
      · rename_i h1 h2
        have h3 : ¬ p.1 = j := fun e => h (e.symm.trans h2)
        simp [fget, Ne.symm h, h3]
      · simp only [fget, ih]

theorem fget_fdel_other {α : Type} (m : FMap α) (k j : Nat) (d : α) (h : j ≠ k) : fget (fdel m k) j d = fget m j d := by
  induction m with
  | nil => rfl
  | cons p m ih =>
    by_cases hp : p.1 = k
    · have h3 : ¬ p.1 = j := fun e => h (e.symm.trans hp)
      simp only [fdel] at ih
      simp [fdel, fget, hp, Ne.symm h, ih]
    · simp only [fdel] at ih
      simp [fdel, fget, hp, ih]

@[simp] theorem fget_fdel_same {α : Type} (m : FMap α) (k : Nat) (d : α) : fget (fdel m k) k d = d := by
  induction m with
  | nil => rfl
  | cons p m ih =>
    by_cases hp : p.1 = k
    · simp only [fdel] at ih
      simp [fdel, hp, ih]
    · simp only [fdel] at ih
      simp [fdel, fget, hp, ih]

@[simp] theorem fset_fset_same {α : Type} (m : FMap α) (k : Nat) (v w : α) : fset (fset m k v) k w = fset m k w := by
  induction m with
  | nil => simp [fset]
  | cons p m ih =>
    simp only [fset]
    split
    · simp [fset]
    · split
      · rename_i h1 h2
        simp [fset]
      · rename_i h1 h2
        simp only [fset, h1, h2, if_false, ih]

/-! The fields of State. -/

variable (s : State)

@[simp] theorem setMod_cycle (m : Nat) (x : Module) : (setMod s m x).cycle = s.cycle := rfl
@[simp] theorem setMod_agenda (m : Nat) (x : Module) : (setMod s m x).agenda = s.agenda := rfl
@[simp] theorem setMod_cal (m : Nat) (x : Module) : (setMod s m x).cal = s.cal := rfl
@[simp] theorem setMod_issue (m : Nat) (x : Module) : (setMod s m x).issue = s.issue := rfl
@[simp] theorem setMod_fresh (m : Nat) (x : Module) : (setMod s m x).fresh = s.fresh := rfl
@[simp] theorem setMod_tok (m : Nat) (x : Module) : (setMod s m x).tok = s.tok := rfl
@[simp] theorem setMod_torus (m : Nat) (x : Module) : (setMod s m x).torus = s.torus := rfl
@[simp] theorem setMod_piers (m : Nat) (x : Module) : (setMod s m x).piers = s.piers := rfl
@[simp] theorem setMod_sites (m : Nat) (x : Module) : (setMod s m x).sites = s.sites := rfl
@[simp] theorem setMod_jobs (m : Nat) (x : Module) : (setMod s m x).jobs = s.jobs := rfl
@[simp] theorem setMod_walks (m : Nat) (x : Module) : (setMod s m x).walks = s.walks := rfl

@[simp] theorem adjMod_cycle (m : Nat) (f : Module → Module) : (adjMod s m f).cycle = s.cycle := rfl
@[simp] theorem adjMod_agenda (m : Nat) (f : Module → Module) : (adjMod s m f).agenda = s.agenda := rfl
@[simp] theorem adjMod_cal (m : Nat) (f : Module → Module) : (adjMod s m f).cal = s.cal := rfl
@[simp] theorem adjMod_issue (m : Nat) (f : Module → Module) : (adjMod s m f).issue = s.issue := rfl
@[simp] theorem adjMod_fresh (m : Nat) (f : Module → Module) : (adjMod s m f).fresh = s.fresh := rfl
@[simp] theorem adjMod_tok (m : Nat) (f : Module → Module) : (adjMod s m f).tok = s.tok := rfl
@[simp] theorem adjMod_torus (m : Nat) (f : Module → Module) : (adjMod s m f).torus = s.torus := rfl
@[simp] theorem adjMod_piers (m : Nat) (f : Module → Module) : (adjMod s m f).piers = s.piers := rfl
@[simp] theorem adjMod_sites (m : Nat) (f : Module → Module) : (adjMod s m f).sites = s.sites := rfl
@[simp] theorem adjMod_jobs (m : Nat) (f : Module → Module) : (adjMod s m f).jobs = s.jobs := rfl
@[simp] theorem adjMod_walks (m : Nat) (f : Module → Module) : (adjMod s m f).walks = s.walks := rfl

@[simp] theorem setPier_cycle (pk : Nat) (p : Pier) : (setPier s pk p).cycle = s.cycle := rfl
@[simp] theorem setPier_agenda (pk : Nat) (p : Pier) : (setPier s pk p).agenda = s.agenda := rfl
@[simp] theorem setPier_cal (pk : Nat) (p : Pier) : (setPier s pk p).cal = s.cal := rfl
@[simp] theorem setPier_issue (pk : Nat) (p : Pier) : (setPier s pk p).issue = s.issue := rfl
@[simp] theorem setPier_fresh (pk : Nat) (p : Pier) : (setPier s pk p).fresh = s.fresh := rfl
@[simp] theorem setPier_tok (pk : Nat) (p : Pier) : (setPier s pk p).tok = s.tok := rfl
@[simp] theorem setPier_torus (pk : Nat) (p : Pier) : (setPier s pk p).torus = s.torus := rfl
@[simp] theorem setPier_mods (pk : Nat) (p : Pier) : (setPier s pk p).mods = s.mods := rfl
@[simp] theorem setPier_sites (pk : Nat) (p : Pier) : (setPier s pk p).sites = s.sites := rfl
@[simp] theorem setPier_jobs (pk : Nat) (p : Pier) : (setPier s pk p).jobs = s.jobs := rfl
@[simp] theorem setPier_walks (pk : Nat) (p : Pier) : (setPier s pk p).walks = s.walks := rfl

@[simp] theorem adjPier_cycle (pk : Nat) (f : Pier → Pier) : (adjPier s pk f).cycle = s.cycle := rfl
@[simp] theorem adjPier_agenda (pk : Nat) (f : Pier → Pier) : (adjPier s pk f).agenda = s.agenda := rfl
@[simp] theorem adjPier_cal (pk : Nat) (f : Pier → Pier) : (adjPier s pk f).cal = s.cal := rfl
@[simp] theorem adjPier_issue (pk : Nat) (f : Pier → Pier) : (adjPier s pk f).issue = s.issue := rfl
@[simp] theorem adjPier_fresh (pk : Nat) (f : Pier → Pier) : (adjPier s pk f).fresh = s.fresh := rfl
@[simp] theorem adjPier_tok (pk : Nat) (f : Pier → Pier) : (adjPier s pk f).tok = s.tok := rfl
@[simp] theorem adjPier_torus (pk : Nat) (f : Pier → Pier) : (adjPier s pk f).torus = s.torus := rfl
@[simp] theorem adjPier_mods (pk : Nat) (f : Pier → Pier) : (adjPier s pk f).mods = s.mods := rfl
@[simp] theorem adjPier_sites (pk : Nat) (f : Pier → Pier) : (adjPier s pk f).sites = s.sites := rfl
@[simp] theorem adjPier_jobs (pk : Nat) (f : Pier → Pier) : (adjPier s pk f).jobs = s.jobs := rfl
@[simp] theorem adjPier_walks (pk : Nat) (f : Pier → Pier) : (adjPier s pk f).walks = s.walks := rfl

@[simp] theorem setStrand_cycle (pk st : Nat) (x : Strand) : (setStrand s pk st x).cycle = s.cycle := rfl
@[simp] theorem setStrand_agenda (pk st : Nat) (x : Strand) : (setStrand s pk st x).agenda = s.agenda := rfl
@[simp] theorem setStrand_cal (pk st : Nat) (x : Strand) : (setStrand s pk st x).cal = s.cal := rfl
@[simp] theorem setStrand_issue (pk st : Nat) (x : Strand) : (setStrand s pk st x).issue = s.issue := rfl
@[simp] theorem setStrand_fresh (pk st : Nat) (x : Strand) : (setStrand s pk st x).fresh = s.fresh := rfl
@[simp] theorem setStrand_tok (pk st : Nat) (x : Strand) : (setStrand s pk st x).tok = s.tok := rfl
@[simp] theorem setStrand_torus (pk st : Nat) (x : Strand) : (setStrand s pk st x).torus = s.torus := rfl
@[simp] theorem setStrand_mods (pk st : Nat) (x : Strand) : (setStrand s pk st x).mods = s.mods := rfl
@[simp] theorem setStrand_sites (pk st : Nat) (x : Strand) : (setStrand s pk st x).sites = s.sites := rfl
@[simp] theorem setStrand_jobs (pk st : Nat) (x : Strand) : (setStrand s pk st x).jobs = s.jobs := rfl
@[simp] theorem setStrand_walks (pk st : Nat) (x : Strand) : (setStrand s pk st x).walks = s.walks := rfl

@[simp] theorem adjStrand_cycle (pk st : Nat) (f : Strand → Strand) : (adjStrand s pk st f).cycle = s.cycle := rfl
@[simp] theorem adjStrand_agenda (pk st : Nat) (f : Strand → Strand) : (adjStrand s pk st f).agenda = s.agenda := rfl
@[simp] theorem adjStrand_cal (pk st : Nat) (f : Strand → Strand) : (adjStrand s pk st f).cal = s.cal := rfl
@[simp] theorem adjStrand_issue (pk st : Nat) (f : Strand → Strand) : (adjStrand s pk st f).issue = s.issue := rfl
@[simp] theorem adjStrand_fresh (pk st : Nat) (f : Strand → Strand) : (adjStrand s pk st f).fresh = s.fresh := rfl
@[simp] theorem adjStrand_tok (pk st : Nat) (f : Strand → Strand) : (adjStrand s pk st f).tok = s.tok := rfl
@[simp] theorem adjStrand_torus (pk st : Nat) (f : Strand → Strand) : (adjStrand s pk st f).torus = s.torus := rfl
@[simp] theorem adjStrand_mods (pk st : Nat) (f : Strand → Strand) : (adjStrand s pk st f).mods = s.mods := rfl
@[simp] theorem adjStrand_sites (pk st : Nat) (f : Strand → Strand) : (adjStrand s pk st f).sites = s.sites := rfl
@[simp] theorem adjStrand_jobs (pk st : Nat) (f : Strand → Strand) : (adjStrand s pk st f).jobs = s.jobs := rfl
@[simp] theorem adjStrand_walks (pk st : Nat) (f : Strand → Strand) : (adjStrand s pk st f).walks = s.walks := rfl

@[simp] theorem adjActor_cycle (pk a : Nat) (f : Actor → Actor) : (adjActor s pk a f).cycle = s.cycle := rfl
@[simp] theorem adjActor_agenda (pk a : Nat) (f : Actor → Actor) : (adjActor s pk a f).agenda = s.agenda := rfl
@[simp] theorem adjActor_cal (pk a : Nat) (f : Actor → Actor) : (adjActor s pk a f).cal = s.cal := rfl
@[simp] theorem adjActor_issue (pk a : Nat) (f : Actor → Actor) : (adjActor s pk a f).issue = s.issue := rfl
@[simp] theorem adjActor_fresh (pk a : Nat) (f : Actor → Actor) : (adjActor s pk a f).fresh = s.fresh := rfl
@[simp] theorem adjActor_tok (pk a : Nat) (f : Actor → Actor) : (adjActor s pk a f).tok = s.tok := rfl
@[simp] theorem adjActor_torus (pk a : Nat) (f : Actor → Actor) : (adjActor s pk a f).torus = s.torus := rfl
@[simp] theorem adjActor_mods (pk a : Nat) (f : Actor → Actor) : (adjActor s pk a f).mods = s.mods := rfl
@[simp] theorem adjActor_sites (pk a : Nat) (f : Actor → Actor) : (adjActor s pk a f).sites = s.sites := rfl
@[simp] theorem adjActor_jobs (pk a : Nat) (f : Actor → Actor) : (adjActor s pk a f).jobs = s.jobs := rfl
@[simp] theorem adjActor_walks (pk a : Nat) (f : Actor → Actor) : (adjActor s pk a f).walks = s.walks := rfl

@[simp] theorem setSluice_cycle (pk n : Nat) (x : Sluice) : (setSluice s pk n x).cycle = s.cycle := rfl
@[simp] theorem setSluice_agenda (pk n : Nat) (x : Sluice) : (setSluice s pk n x).agenda = s.agenda := rfl
@[simp] theorem setSluice_cal (pk n : Nat) (x : Sluice) : (setSluice s pk n x).cal = s.cal := rfl
@[simp] theorem setSluice_issue (pk n : Nat) (x : Sluice) : (setSluice s pk n x).issue = s.issue := rfl
@[simp] theorem setSluice_fresh (pk n : Nat) (x : Sluice) : (setSluice s pk n x).fresh = s.fresh := rfl
@[simp] theorem setSluice_tok (pk n : Nat) (x : Sluice) : (setSluice s pk n x).tok = s.tok := rfl
@[simp] theorem setSluice_torus (pk n : Nat) (x : Sluice) : (setSluice s pk n x).torus = s.torus := rfl
@[simp] theorem setSluice_mods (pk n : Nat) (x : Sluice) : (setSluice s pk n x).mods = s.mods := rfl
@[simp] theorem setSluice_sites (pk n : Nat) (x : Sluice) : (setSluice s pk n x).sites = s.sites := rfl
@[simp] theorem setSluice_jobs (pk n : Nat) (x : Sluice) : (setSluice s pk n x).jobs = s.jobs := rfl
@[simp] theorem setSluice_walks (pk n : Nat) (x : Sluice) : (setSluice s pk n x).walks = s.walks := rfl

@[simp] theorem adjSite_cycle (k : Nat) (f : Site → Site) : (adjSite s k f).cycle = s.cycle := rfl
@[simp] theorem adjSite_agenda (k : Nat) (f : Site → Site) : (adjSite s k f).agenda = s.agenda := rfl
@[simp] theorem adjSite_cal (k : Nat) (f : Site → Site) : (adjSite s k f).cal = s.cal := rfl
@[simp] theorem adjSite_issue (k : Nat) (f : Site → Site) : (adjSite s k f).issue = s.issue := rfl
@[simp] theorem adjSite_fresh (k : Nat) (f : Site → Site) : (adjSite s k f).fresh = s.fresh := rfl
@[simp] theorem adjSite_tok (k : Nat) (f : Site → Site) : (adjSite s k f).tok = s.tok := rfl
@[simp] theorem adjSite_torus (k : Nat) (f : Site → Site) : (adjSite s k f).torus = s.torus := rfl
@[simp] theorem adjSite_mods (k : Nat) (f : Site → Site) : (adjSite s k f).mods = s.mods := rfl
@[simp] theorem adjSite_piers (k : Nat) (f : Site → Site) : (adjSite s k f).piers = s.piers := rfl
@[simp] theorem adjSite_jobs (k : Nat) (f : Site → Site) : (adjSite s k f).jobs = s.jobs := rfl
@[simp] theorem adjSite_walks (k : Nat) (f : Site → Site) : (adjSite s k f).walks = s.walks := rfl

@[simp] theorem adjJob_cycle (j : Nat) (f : Job → Job) : (adjJob s j f).cycle = s.cycle := rfl
@[simp] theorem adjJob_agenda (j : Nat) (f : Job → Job) : (adjJob s j f).agenda = s.agenda := rfl
@[simp] theorem adjJob_cal (j : Nat) (f : Job → Job) : (adjJob s j f).cal = s.cal := rfl
@[simp] theorem adjJob_issue (j : Nat) (f : Job → Job) : (adjJob s j f).issue = s.issue := rfl
@[simp] theorem adjJob_fresh (j : Nat) (f : Job → Job) : (adjJob s j f).fresh = s.fresh := rfl
@[simp] theorem adjJob_tok (j : Nat) (f : Job → Job) : (adjJob s j f).tok = s.tok := rfl
@[simp] theorem adjJob_torus (j : Nat) (f : Job → Job) : (adjJob s j f).torus = s.torus := rfl
@[simp] theorem adjJob_mods (j : Nat) (f : Job → Job) : (adjJob s j f).mods = s.mods := rfl
@[simp] theorem adjJob_piers (j : Nat) (f : Job → Job) : (adjJob s j f).piers = s.piers := rfl
@[simp] theorem adjJob_sites (j : Nat) (f : Job → Job) : (adjJob s j f).sites = s.sites := rfl
@[simp] theorem adjJob_walks (j : Nat) (f : Job → Job) : (adjJob s j f).walks = s.walks := rfl

@[simp] theorem adjPart_cycle (m p : Nat) (f : Part → Part) : (adjPart s m p f).cycle = s.cycle := rfl
@[simp] theorem adjPart_agenda (m p : Nat) (f : Part → Part) : (adjPart s m p f).agenda = s.agenda := rfl
@[simp] theorem adjPart_cal (m p : Nat) (f : Part → Part) : (adjPart s m p f).cal = s.cal := rfl
@[simp] theorem adjPart_issue (m p : Nat) (f : Part → Part) : (adjPart s m p f).issue = s.issue := rfl
@[simp] theorem adjPart_fresh (m p : Nat) (f : Part → Part) : (adjPart s m p f).fresh = s.fresh := rfl
@[simp] theorem adjPart_tok (m p : Nat) (f : Part → Part) : (adjPart s m p f).tok = s.tok := rfl
@[simp] theorem adjPart_torus (m p : Nat) (f : Part → Part) : (adjPart s m p f).torus = s.torus := rfl
@[simp] theorem adjPart_piers (m p : Nat) (f : Part → Part) : (adjPart s m p f).piers = s.piers := rfl
@[simp] theorem adjPart_sites (m p : Nat) (f : Part → Part) : (adjPart s m p f).sites = s.sites := rfl
@[simp] theorem adjPart_jobs (m p : Nat) (f : Part → Part) : (adjPart s m p f).jobs = s.jobs := rfl
@[simp] theorem adjPart_walks (m p : Nat) (f : Part → Part) : (adjPart s m p f).walks = s.walks := rfl

@[simp] theorem adjAbut_cycle (m a : Nat) (f : Abut → Abut) : (adjAbut s m a f).cycle = s.cycle := rfl
@[simp] theorem adjAbut_agenda (m a : Nat) (f : Abut → Abut) : (adjAbut s m a f).agenda = s.agenda := rfl
@[simp] theorem adjAbut_cal (m a : Nat) (f : Abut → Abut) : (adjAbut s m a f).cal = s.cal := rfl
@[simp] theorem adjAbut_issue (m a : Nat) (f : Abut → Abut) : (adjAbut s m a f).issue = s.issue := rfl
@[simp] theorem adjAbut_fresh (m a : Nat) (f : Abut → Abut) : (adjAbut s m a f).fresh = s.fresh := rfl
@[simp] theorem adjAbut_tok (m a : Nat) (f : Abut → Abut) : (adjAbut s m a f).tok = s.tok := rfl
@[simp] theorem adjAbut_torus (m a : Nat) (f : Abut → Abut) : (adjAbut s m a f).torus = s.torus := rfl
@[simp] theorem adjAbut_piers (m a : Nat) (f : Abut → Abut) : (adjAbut s m a f).piers = s.piers := rfl
@[simp] theorem adjAbut_sites (m a : Nat) (f : Abut → Abut) : (adjAbut s m a f).sites = s.sites := rfl
@[simp] theorem adjAbut_jobs (m a : Nat) (f : Abut → Abut) : (adjAbut s m a f).jobs = s.jobs := rfl
@[simp] theorem adjAbut_walks (m a : Nat) (f : Abut → Abut) : (adjAbut s m a f).walks = s.walks := rfl

@[simp] theorem adjAgent_cycle (m sp : Nat) (f : Agent → Agent) : (adjAgent s m sp f).cycle = s.cycle := rfl
@[simp] theorem adjAgent_agenda (m sp : Nat) (f : Agent → Agent) : (adjAgent s m sp f).agenda = s.agenda := rfl
@[simp] theorem adjAgent_cal (m sp : Nat) (f : Agent → Agent) : (adjAgent s m sp f).cal = s.cal := rfl
@[simp] theorem adjAgent_issue (m sp : Nat) (f : Agent → Agent) : (adjAgent s m sp f).issue = s.issue := rfl
@[simp] theorem adjAgent_fresh (m sp : Nat) (f : Agent → Agent) : (adjAgent s m sp f).fresh = s.fresh := rfl
@[simp] theorem adjAgent_tok (m sp : Nat) (f : Agent → Agent) : (adjAgent s m sp f).tok = s.tok := rfl
@[simp] theorem adjAgent_torus (m sp : Nat) (f : Agent → Agent) : (adjAgent s m sp f).torus = s.torus := rfl
@[simp] theorem adjAgent_piers (m sp : Nat) (f : Agent → Agent) : (adjAgent s m sp f).piers = s.piers := rfl
@[simp] theorem adjAgent_sites (m sp : Nat) (f : Agent → Agent) : (adjAgent s m sp f).sites = s.sites := rfl
@[simp] theorem adjAgent_jobs (m sp : Nat) (f : Agent → Agent) : (adjAgent s m sp f).jobs = s.jobs := rfl
@[simp] theorem adjAgent_walks (m sp : Nat) (f : Agent → Agent) : (adjAgent s m sp f).walks = s.walks := rfl

@[simp] theorem adjVeiv_cycle (m : Nat) (f : Veiv → Veiv) : (adjVeiv s m f).cycle = s.cycle := rfl
@[simp] theorem adjVeiv_agenda (m : Nat) (f : Veiv → Veiv) : (adjVeiv s m f).agenda = s.agenda := rfl
@[simp] theorem adjVeiv_cal (m : Nat) (f : Veiv → Veiv) : (adjVeiv s m f).cal = s.cal := rfl
@[simp] theorem adjVeiv_issue (m : Nat) (f : Veiv → Veiv) : (adjVeiv s m f).issue = s.issue := rfl
@[simp] theorem adjVeiv_fresh (m : Nat) (f : Veiv → Veiv) : (adjVeiv s m f).fresh = s.fresh := rfl
@[simp] theorem adjVeiv_tok (m : Nat) (f : Veiv → Veiv) : (adjVeiv s m f).tok = s.tok := rfl
@[simp] theorem adjVeiv_torus (m : Nat) (f : Veiv → Veiv) : (adjVeiv s m f).torus = s.torus := rfl
@[simp] theorem adjVeiv_piers (m : Nat) (f : Veiv → Veiv) : (adjVeiv s m f).piers = s.piers := rfl
@[simp] theorem adjVeiv_sites (m : Nat) (f : Veiv → Veiv) : (adjVeiv s m f).sites = s.sites := rfl
@[simp] theorem adjVeiv_jobs (m : Nat) (f : Veiv → Veiv) : (adjVeiv s m f).jobs = s.jobs := rfl
@[simp] theorem adjVeiv_walks (m : Nat) (f : Veiv → Veiv) : (adjVeiv s m f).walks = s.walks := rfl

@[simp] theorem adjHost_cycle (m : Nat) (f : HostPort → HostPort) : (adjHost s m f).cycle = s.cycle := rfl
@[simp] theorem adjHost_agenda (m : Nat) (f : HostPort → HostPort) : (adjHost s m f).agenda = s.agenda := rfl
@[simp] theorem adjHost_cal (m : Nat) (f : HostPort → HostPort) : (adjHost s m f).cal = s.cal := rfl
@[simp] theorem adjHost_issue (m : Nat) (f : HostPort → HostPort) : (adjHost s m f).issue = s.issue := rfl
@[simp] theorem adjHost_fresh (m : Nat) (f : HostPort → HostPort) : (adjHost s m f).fresh = s.fresh := rfl
@[simp] theorem adjHost_tok (m : Nat) (f : HostPort → HostPort) : (adjHost s m f).tok = s.tok := rfl
@[simp] theorem adjHost_torus (m : Nat) (f : HostPort → HostPort) : (adjHost s m f).torus = s.torus := rfl
@[simp] theorem adjHost_piers (m : Nat) (f : HostPort → HostPort) : (adjHost s m f).piers = s.piers := rfl
@[simp] theorem adjHost_sites (m : Nat) (f : HostPort → HostPort) : (adjHost s m f).sites = s.sites := rfl
@[simp] theorem adjHost_jobs (m : Nat) (f : HostPort → HostPort) : (adjHost s m f).jobs = s.jobs := rfl
@[simp] theorem adjHost_walks (m : Nat) (f : HostPort → HostPort) : (adjHost s m f).walks = s.walks := rfl

@[simp] theorem schedule_cycle (due : Nat) (i : Instr) : (schedule s due i).cycle = s.cycle := rfl
@[simp] theorem schedule_agenda (due : Nat) (i : Instr) : (schedule s due i).agenda = s.agenda := rfl
@[simp] theorem schedule_issue (due : Nat) (i : Instr) : (schedule s due i).issue = s.issue := rfl
@[simp] theorem schedule_fresh (due : Nat) (i : Instr) : (schedule s due i).fresh = s.fresh := rfl
@[simp] theorem schedule_tok (due : Nat) (i : Instr) : (schedule s due i).tok = s.tok := rfl
@[simp] theorem schedule_torus (due : Nat) (i : Instr) : (schedule s due i).torus = s.torus := rfl
@[simp] theorem schedule_mods (due : Nat) (i : Instr) : (schedule s due i).mods = s.mods := rfl
@[simp] theorem schedule_piers (due : Nat) (i : Instr) : (schedule s due i).piers = s.piers := rfl
@[simp] theorem schedule_sites (due : Nat) (i : Instr) : (schedule s due i).sites = s.sites := rfl
@[simp] theorem schedule_jobs (due : Nat) (i : Instr) : (schedule s due i).jobs = s.jobs := rfl
@[simp] theorem schedule_walks (due : Nat) (i : Instr) : (schedule s due i).walks = s.walks := rfl

@[simp] theorem nowDo_cycle (i : Instr) : (nowDo s i).cycle = s.cycle := rfl
@[simp] theorem nowDo_cal (i : Instr) : (nowDo s i).cal = s.cal := rfl
@[simp] theorem nowDo_issue (i : Instr) : (nowDo s i).issue = s.issue := rfl
@[simp] theorem nowDo_fresh (i : Instr) : (nowDo s i).fresh = s.fresh := rfl
@[simp] theorem nowDo_tok (i : Instr) : (nowDo s i).tok = s.tok := rfl
@[simp] theorem nowDo_torus (i : Instr) : (nowDo s i).torus = s.torus := rfl
@[simp] theorem nowDo_mods (i : Instr) : (nowDo s i).mods = s.mods := rfl
@[simp] theorem nowDo_piers (i : Instr) : (nowDo s i).piers = s.piers := rfl
@[simp] theorem nowDo_sites (i : Instr) : (nowDo s i).sites = s.sites := rfl
@[simp] theorem nowDo_jobs (i : Instr) : (nowDo s i).jobs = s.jobs := rfl
@[simp] theorem nowDo_walks (i : Instr) : (nowDo s i).walks = s.walks := rfl

@[simp] theorem tick1_cycle  : (tick1 s).cycle = s.cycle := rfl
@[simp] theorem tick1_agenda  : (tick1 s).agenda = s.agenda := rfl
@[simp] theorem tick1_cal  : (tick1 s).cal = s.cal := rfl
@[simp] theorem tick1_issue  : (tick1 s).issue = s.issue := rfl
@[simp] theorem tick1_tok  : (tick1 s).tok = s.tok := rfl
@[simp] theorem tick1_torus  : (tick1 s).torus = s.torus := rfl
@[simp] theorem tick1_mods  : (tick1 s).mods = s.mods := rfl
@[simp] theorem tick1_piers  : (tick1 s).piers = s.piers := rfl
@[simp] theorem tick1_sites  : (tick1 s).sites = s.sites := rfl
@[simp] theorem tick1_jobs  : (tick1 s).jobs = s.jobs := rfl
@[simp] theorem tick1_walks  : (tick1 s).walks = s.walks := rfl

@[simp] theorem adjCur_cycle (f : Strand → Strand) : (adjCur s f).cycle = s.cycle := rfl
@[simp] theorem adjCur_agenda (f : Strand → Strand) : (adjCur s f).agenda = s.agenda := rfl
@[simp] theorem adjCur_cal (f : Strand → Strand) : (adjCur s f).cal = s.cal := rfl
@[simp] theorem adjCur_issue (f : Strand → Strand) : (adjCur s f).issue = s.issue := rfl
@[simp] theorem adjCur_fresh (f : Strand → Strand) : (adjCur s f).fresh = s.fresh := rfl
@[simp] theorem adjCur_tok (f : Strand → Strand) : (adjCur s f).tok = s.tok := rfl
@[simp] theorem adjCur_torus (f : Strand → Strand) : (adjCur s f).torus = s.torus := rfl
@[simp] theorem adjCur_mods (f : Strand → Strand) : (adjCur s f).mods = s.mods := rfl
@[simp] theorem adjCur_sites (f : Strand → Strand) : (adjCur s f).sites = s.sites := rfl
@[simp] theorem adjCur_jobs (f : Strand → Strand) : (adjCur s f).jobs = s.jobs := rfl
@[simp] theorem adjCur_walks (f : Strand → Strand) : (adjCur s f).walks = s.walks := rfl

@[simp] theorem adjCurPier_cycle (f : Pier → Pier) : (adjCurPier s f).cycle = s.cycle := rfl
@[simp] theorem adjCurPier_agenda (f : Pier → Pier) : (adjCurPier s f).agenda = s.agenda := rfl
@[simp] theorem adjCurPier_cal (f : Pier → Pier) : (adjCurPier s f).cal = s.cal := rfl
@[simp] theorem adjCurPier_issue (f : Pier → Pier) : (adjCurPier s f).issue = s.issue := rfl
@[simp] theorem adjCurPier_fresh (f : Pier → Pier) : (adjCurPier s f).fresh = s.fresh := rfl
@[simp] theorem adjCurPier_tok (f : Pier → Pier) : (adjCurPier s f).tok = s.tok := rfl
@[simp] theorem adjCurPier_torus (f : Pier → Pier) : (adjCurPier s f).torus = s.torus := rfl
@[simp] theorem adjCurPier_mods (f : Pier → Pier) : (adjCurPier s f).mods = s.mods := rfl
@[simp] theorem adjCurPier_sites (f : Pier → Pier) : (adjCurPier s f).sites = s.sites := rfl
@[simp] theorem adjCurPier_jobs (f : Pier → Pier) : (adjCurPier s f).jobs = s.jobs := rfl
@[simp] theorem adjCurPier_walks (f : Pier → Pier) : (adjCurPier s f).walks = s.walks := rfl

@[simp] theorem markHeld_cycle  : (markHeld s).cycle = s.cycle := rfl
@[simp] theorem markHeld_agenda  : (markHeld s).agenda = s.agenda := rfl
@[simp] theorem markHeld_cal  : (markHeld s).cal = s.cal := rfl
@[simp] theorem markHeld_fresh  : (markHeld s).fresh = s.fresh := rfl
@[simp] theorem markHeld_tok  : (markHeld s).tok = s.tok := rfl
@[simp] theorem markHeld_torus  : (markHeld s).torus = s.torus := rfl
@[simp] theorem markHeld_mods  : (markHeld s).mods = s.mods := rfl
@[simp] theorem markHeld_piers  : (markHeld s).piers = s.piers := rfl
@[simp] theorem markHeld_sites  : (markHeld s).sites = s.sites := rfl
@[simp] theorem markHeld_jobs  : (markHeld s).jobs = s.jobs := rfl
@[simp] theorem markHeld_walks  : (markHeld s).walks = s.walks := rfl

@[simp] theorem noteFault_cycle (f : FaultInfo) : (noteFault s f).cycle = s.cycle := rfl
@[simp] theorem noteFault_agenda (f : FaultInfo) : (noteFault s f).agenda = s.agenda := rfl
@[simp] theorem noteFault_cal (f : FaultInfo) : (noteFault s f).cal = s.cal := rfl
@[simp] theorem noteFault_fresh (f : FaultInfo) : (noteFault s f).fresh = s.fresh := rfl
@[simp] theorem noteFault_tok (f : FaultInfo) : (noteFault s f).tok = s.tok := rfl
@[simp] theorem noteFault_torus (f : FaultInfo) : (noteFault s f).torus = s.torus := rfl
@[simp] theorem noteFault_mods (f : FaultInfo) : (noteFault s f).mods = s.mods := rfl
@[simp] theorem noteFault_piers (f : FaultInfo) : (noteFault s f).piers = s.piers := rfl
@[simp] theorem noteFault_sites (f : FaultInfo) : (noteFault s f).sites = s.sites := rfl
@[simp] theorem noteFault_jobs (f : FaultInfo) : (noteFault s f).jobs = s.jobs := rfl
@[simp] theorem noteFault_walks (f : FaultInfo) : (noteFault s f).walks = s.walks := rfl

/-! What was written is read back. -/

@[simp] theorem getPier_setPier_same (pk : Nat) (p : Pier) : getPier (setPier s pk p) pk = p := by simp [getPier, setPier]
theorem getPier_setPier_other (pk k : Nat) (p : Pier) (h : k ≠ pk) : getPier (setPier s pk p) k = getPier s k := by
  simp [getPier, setPier, fget_fset_other _ _ _ _ _ h]
@[simp] theorem getPier_adjPier_same (pk : Nat) (f : Pier → Pier) : getPier (adjPier s pk f) pk = f (getPier s pk) := by simp [adjPier]
theorem getPier_adjPier_other (pk k : Nat) (f : Pier → Pier) (h : k ≠ pk) : getPier (adjPier s pk f) k = getPier s k := by
  simp [adjPier, getPier_setPier_other, h]
@[simp] theorem getMod_setMod_same (m : Nat) (x : Module) : getMod (setMod s m x) m = x := by simp [getMod, setMod]
theorem getMod_setMod_other (m k : Nat) (x : Module) (h : k ≠ m) : getMod (setMod s m x) k = getMod s k := by
  simp [getMod, setMod, fget_fset_other _ _ _ _ _ h]
@[simp] theorem getMod_adjMod_same (m : Nat) (f : Module → Module) : getMod (adjMod s m f) m = f (getMod s m) := by simp [adjMod]
theorem getMod_adjMod_other (m k : Nat) (f : Module → Module) (h : k ≠ m) : getMod (adjMod s m f) k = getMod s k := by
  simp [adjMod, getMod_setMod_other, h]
@[simp] theorem getMod_setPier (pk m : Nat) (p : Pier) : getMod (setPier s pk p) m = getMod s m := rfl
@[simp] theorem getMod_adjPier (pk m : Nat) (f : Pier → Pier) : getMod (adjPier s pk f) m = getMod s m := rfl
@[simp] theorem getPier_setMod (pk m : Nat) (x : Module) : getPier (setMod s m x) pk = getPier s pk := rfl
@[simp] theorem getPier_adjMod (pk m : Nat) (f : Module → Module) : getPier (adjMod s m f) pk = getPier s pk := rfl
@[simp] theorem getPier_schedule (pk due : Nat) (i : Instr) : getPier (schedule s due i) pk = getPier s pk := rfl
@[simp] theorem getMod_schedule (m due : Nat) (i : Instr) : getMod (schedule s due i) m = getMod s m := rfl
@[simp] theorem getPier_tick1 (pk : Nat) : getPier (tick1 s) pk = getPier s pk := rfl
@[simp] theorem getMod_tick1 (m : Nat) : getMod (tick1 s) m = getMod s m := rfl
@[simp] theorem getPier_nowDo (pk : Nat) (i : Instr) : getPier (nowDo s i) pk = getPier s pk := rfl
@[simp] theorem getMod_nowDo (m : Nat) (i : Instr) : getMod (nowDo s i) m = getMod s m := rfl
@[simp] theorem getSite_setPier (k pk : Nat) (p : Pier) : getSite (setPier s pk p) k = getSite s k := rfl
@[simp] theorem getSite_adjPier (k pk : Nat) (f : Pier → Pier) : getSite (adjPier s pk f) k = getSite s k := rfl
@[simp] theorem getSite_adjMod (k m : Nat) (f : Module → Module) : getSite (adjMod s m f) k = getSite s k := rfl
@[simp] theorem getSite_adjSite_same (k : Nat) (f : Site → Site) : getSite (adjSite s k f) k = f (getSite s k) := by
  simp [getSite, adjSite]
@[simp] theorem getPier_adjSite (pk k : Nat) (f : Site → Site) : getPier (adjSite s k f) pk = getPier s pk := rfl
@[simp] theorem getMod_adjSite (m k : Nat) (f : Site → Site) : getMod (adjSite s k f) m = getMod s m := rfl
@[simp] theorem getJob_adjJob_same (j : Nat) (f : Job → Job) : getJob (adjJob s j f) j = f (getJob s j) := by simp [getJob, adjJob]
@[simp] theorem getJob_adjPier (j pk : Nat) (f : Pier → Pier) : getJob (adjPier s pk f) j = getJob s j := rfl
@[simp] theorem getStrand_setStrand_same (pk st : Nat) (x : Strand) : getStrand (setStrand s pk st x) pk st = x := by
  simp [getStrand, setStrand, pierStrand]
theorem getStrand_setStrand_other (pk st j : Nat) (x : Strand) (h : j ≠ st) :
    getStrand (setStrand s pk st x) pk j = getStrand s pk j := by
  simp [getStrand, setStrand, pierStrand, fget_fset_other _ _ _ _ _ h]
@[simp] theorem getStrand_adjStrand_same (pk st : Nat) (f : Strand → Strand) :
    getStrand (adjStrand s pk st f) pk st = f (getStrand s pk st) := by simp [adjStrand]
@[simp] theorem getSluice_setSluice_same (pk n : Nat) (x : Sluice) : getSluice (setSluice s pk n x) pk n = x := by
  simp [getSluice, setSluice, pierSluice]
@[simp] theorem getActor_adjActor_same (pk a : Nat) (f : Actor → Actor) : getActor (adjActor s pk a f) pk a = f (getActor s pk a) := by
  simp [getActor, adjActor, pierActor]
@[simp] theorem curStrand_adjCur (f : Strand → Strand) : curStrand (adjCur s f) = f (curStrand s) := by
  simp [curStrand, adjCur]
@[simp] theorem curStrand_schedule (due : Nat) (i : Instr) : curStrand (schedule s due i) = curStrand s := rfl
@[simp] theorem curStrand_tick1 : curStrand (tick1 s) = curStrand s := rfl

end Sys2Proof.Machine
end

