-- ==== Sys2Proof/Laws/Memory.lean ====
section
/-!
SUPPORT. The byte memories: every operation keeps the canonical form; a byte written is read back and every other byte is
left alone.
-/

namespace Sys2Proof.Machine

/-! The canonical form. -/

/-- Every key of a map lies above a bound. -/
def keysAbove {α : Type} (b : Nat) (m : FMap α) : Prop := ∀ p ∈ m, b < p.1

theorem rising_cons {α : Type} (p : Nat × α) (m : FMap α) :
    rising (p :: m) = true ↔ keysAbove p.1 m ∧ rising m = true := by
  induction m generalizing p with
  | nil => simp [rising, keysAbove]
  | cons q m ih =>
    rw [rising]
    simp only [Bool.and_eq_true, decide_eq_true_eq]
    constructor
    · rintro ⟨h1, h2⟩
      refine ⟨?_, h2⟩
      intro r hr
      rcases List.mem_cons.mp hr with h | h
      · rw [h]; exact h1
      · exact Nat.lt_trans h1 (((ih q).mp h2).1 r h)
    · rintro ⟨h1, h2⟩
      exact ⟨h1 q (List.mem_cons_self ..), h2⟩

theorem mem_fset {α : Type} (m : FMap α) (k : Nat) (v : α) (p : Nat × α) (h : p ∈ fset m k v) : p = (k, v) ∨ p ∈ m := by
  induction m with
  | nil => simpa [fset] using h
  | cons q m ih =>
    simp only [fset] at h
    split at h
    · simpa using h
    · split at h
      · rcases List.mem_cons.mp h with h | h
        · exact .inl h
        · exact .inr (List.mem_cons_of_mem _ h)
      · rcases List.mem_cons.mp h with h | h
        · exact .inr (h ▸ List.mem_cons_self ..)
        · rcases ih h with h | h
          · exact .inl h
          · exact .inr (List.mem_cons_of_mem _ h)

theorem rising_fset {α : Type} (m : FMap α) (k : Nat) (v : α) (h : rising m = true) : rising (fset m k v) = true := by
  induction m with
  | nil => rfl
  | cons q m ih =>
    have hq := (rising_cons q m).mp h
    simp only [fset]
    split
    · rename_i hk
      refine (rising_cons _ _).mpr ⟨?_, h⟩
      intro r hr
      rcases List.mem_cons.mp hr with e | e
      · rw [e]; exact hk
      · exact Nat.lt_trans hk (hq.1 r e)
    · split
      · rename_i hk1 hk2
        refine (rising_cons _ _).mpr ⟨?_, hq.2⟩
        intro r hr
        exact hk2 ▸ hq.1 r hr
      · rename_i hk1 hk2
        refine (rising_cons _ _).mpr ⟨?_, ih hq.2⟩
        intro r hr
        rcases mem_fset m k v r hr with e | e
        · rw [e]; show q.1 < k; omega
        · exact hq.1 r e

theorem rising_filter {α : Type} (m : FMap α) (f : Nat × α → Bool) (h : rising m = true) : rising (m.filter f) = true := by
  induction m with
  | nil => rfl
  | cons q m ih =>
    have hq := (rising_cons q m).mp h
    by_cases hf : f q = true
    · rw [List.filter_cons_of_pos hf]
      refine (rising_cons _ _).mpr ⟨?_, ih hq.2⟩
      intro r hr
      exact hq.1 r (List.mem_filter.mp hr).1
    · rw [List.filter_cons_of_neg hf]
      exact ih hq.2

theorem rising_fdel {α : Type} (m : FMap α) (k : Nat) (h : rising m = true) : rising (fdel m k) = true := rising_filter _ _ h

theorem memory_wf_nil : Memory.wf [] = true := rfl

theorem memory_wf_mset (m : FMap Byte) (a : Nat) (b : Byte) (h : Memory.wf m = true) : Memory.wf (mset m a b) = true := by
  simp only [Memory.wf, Bool.and_eq_true, List.all_eq_true] at h ⊢
  unfold mset
  split
  · refine ⟨rising_fdel _ _ h.1, ?_⟩
    intro p hp
    exact h.2 p (List.mem_filter.mp hp).1
  · rename_i hb
    refine ⟨rising_fset _ _ _ h.1, ?_⟩
    intro p hp
    rcases mem_fset _ _ _ _ hp with e | e
    · rw [e]; simpa using hb
    · exact h.2 p e

theorem memory_wf_mwrite (m : FMap Byte) (a n v : Nat) (h : Memory.wf m = true) : Memory.wf (mwrite m a n v) = true := by
  induction n generalizing m a v with
  | zero => exact h
  | succ n ih => exact ih _ _ _ (memory_wf_mset _ _ _ h)

theorem memory_wf_mwriteList (m : FMap Byte) (a : Nat) (l : List Byte) (h : Memory.wf m = true) :
    Memory.wf (mwriteList m a l) = true := by
  induction l generalizing m a with
  | nil => exact h
  | cons b l ih => exact ih _ _ (memory_wf_mset _ _ _ h)

/-! Read after write. -/

@[simp] theorem mget_mset_same (m : FMap Byte) (a : Nat) (b : Byte) : mget (mset m a b) a = b := by
  unfold mset mget
  split
  · rename_i h; simp [h]
  · simp

theorem mget_mset_other (m : FMap Byte) (a j : Nat) (b : Byte) (h : j ≠ a) : mget (mset m a b) j = mget m j := by
  unfold mset mget
  split
  · exact fget_fdel_other _ _ _ _ h
  · exact fget_fset_other _ _ _ _ _ h

theorem mget_mwrite_outside (m : FMap Byte) (a n v j : Nat) (h : j < a ∨ a + n ≤ j) : mget (mwrite m a n v) j = mget m j := by
  induction n generalizing m a v with
  | zero => rfl
  | succ n ih =>
    rw [mwrite, ih _ _ _ (by omega), mget_mset_other _ _ _ _ (by omega)]

theorem mget_mwrite_inside (m : FMap Byte) (a n v i : Nat) (h : i < n) :
    mget (mwrite m a n v) (a + i) = BitVec.ofNat 8 (v / 256 ^ i) := by
  induction n generalizing m a v i with
  | zero => omega
  | succ n ih =>
    rw [mwrite]
    cases i with
    | zero => rw [mget_mwrite_outside _ _ _ _ _ (by omega)]; simp
    | succ i =>
      have e : a + (i + 1) = a + 1 + i := by omega
      rw [e, ih _ _ _ _ (by omega), Nat.pow_succ', Nat.div_div_eq_div_mul]

theorem mread_mwrite_same (m : FMap Byte) (a n v : Nat) : mread (mwrite m a n v) a n = v % 256 ^ n := by
  have key : ∀ (k : Nat) (f : FMap Byte) (b v : Nat),
      (∀ i, i < k → mget f (b + i) = BitVec.ofNat 8 (v / 256 ^ i)) → mread f b k = v % 256 ^ k := by
    intro k
    induction k with
    | zero => intro f b v _; simp [mread, Nat.mod_one]
    | succ k ih =>
      intro f b v hf
      have h0 := hf 0 (by omega)
      have hr := ih f (b + 1) (v / 256) (fun i hi => by
        have h1 := hf (i + 1) (by omega)
        rw [show b + 1 + i = b + (i + 1) by omega, h1, Nat.pow_succ', Nat.div_div_eq_div_mul])
      rw [mread, hr]
      simp only [Nat.add_zero, Nat.pow_zero, Nat.div_one] at h0
      have e : v % 256 ^ (k + 1) = v % 256 + 256 * (v / 256 % 256 ^ k) := by
        rw [Nat.pow_succ', Nat.mod_mul (a := 256) (b := 256 ^ k) (x := v)]
      rw [h0, e, BitVec.toNat_ofNat]
  exact key n _ a v (fun i hi => mget_mwrite_inside m a n v i hi)

/-! The memories of the machine: HBM of each module, scratchpad of each pier, weight-store slice of each site. -/

/-- Every byte memory of a state has its canonical form. -/
def MemoriesWf (s : State) : Prop :=
  (∀ m, Memory.wf (getMod s m).hbm = true) ∧ (∀ pk, Memory.wf (getPier s pk).spad = true) ∧
    ∀ k, Memory.wf (getSite s k).slice = true

theorem memoriesWf_reset : MemoriesWf State.reset := by
  refine ⟨fun m => ?_, fun _ => rfl, fun _ => rfl⟩
  by_cases h : m = 0
  · subst h; rfl
  · have : (getMod State.reset m).hbm = [] := by
      simp [getMod, State.reset, fget, Ne.symm h]
    rw [this]; rfl

end Sys2Proof.Machine
end

