-- ==== Sys2Proof/Laws/Area.lean ====
section
/-!
SUPPORT. Rows of a save area: where they lie in the DRAM of their stack, what writing them leaves alone, and bytes that nothing has
written.
-/

namespace Sys2Proof.Machine

/-- The bytes of a row of 64 lie side by side in every domain (R144). -/
theorem dramLoc_row (dom l i : Nat) (h : l % 64 + i < 64) : dramLoc dom (l + i) = dramLoc dom l + i := by
  have h1 : (l + i) / 2 ^ 8 = l / 2 ^ 8 := by omega
  have h2 : (l + i) % 256 = l % 256 + i := by omega
  have d (k : Nat) : (l + i) / 2 ^ 8 / k = l / 2 ^ 8 / k := by rw [h1]
  have e9 : (l + i) / 2 ^ 9 = l / 2 ^ 9 := by have := d (2 ^ 1); omega
  have e10 : (l + i) / 2 ^ 10 = l / 2 ^ 10 := by have := d (2 ^ 2); omega
  have e11 : (l + i) / 2 ^ 11 = l / 2 ^ 11 := by have := d (2 ^ 3); omega
  have e15 : (l + i) / 2 ^ 15 = l / 2 ^ 15 := by have := d (2 ^ 7); omega
  have e16 : (l + i) / 2 ^ 16 = l / 2 ^ 16 := by have := d (2 ^ 8); omega
  have e18 : (l + i) / 2 ^ 18 = l / 2 ^ 18 := by have := d (2 ^ 10); omega
  have e36 : (l + i) / 2 ^ 36 = l / 2 ^ 36 := by have := d (2 ^ 28); omega
  have e37 : (l + i) / 2 ^ 37 = l / 2 ^ 37 := by have := d (2 ^ 29); omega
  unfold dramLoc
  split <;> simp only [h1, h2, e9, e10, e11, e15, e16, e18, e36, e37] <;> omega

/-- Where a stack-local address of a save area lies, an area number apart (R144, R226). -/
theorem dramLoc_area (a b r : Nat) (hb : b < 1024) (hr : r < 67108864) (ha : a = b * 67108864 + r) :
    dramLoc 2 a = dramLoc 2 r + b * 524288 := by
  have h1 : a / 2 ^ 36 = 0 := by omega
  have h2 : a / 2 ^ 8 % 128 = r / 2 ^ 8 % 128 := by omega
  have h3 : a / 2 ^ 15 % 2 ^ 21 = r / 2 ^ 15 + b * 2 ^ 11 := by omega
  have h4 : a % 256 = r % 256 := by omega
  have h5 : r / 2 ^ 36 = 0 := by omega
  have h6 : r / 2 ^ 15 % 2 ^ 21 = r / 2 ^ 15 := by omega
  simp only [dramLoc, h1, h2, h3, h4, h5, h6]; omega

/-- Bytes that no entry of a memory holds read as zero. -/
theorem mreadList_none (m : FMap Byte) (a n : Nat) (h : ∀ e ∈ m, e.1 < a ∨ a + n ≤ e.1) : mreadList m a n = List.replicate n 0 := by
  refine List.ext_getElem (by simp [mreadList]) fun i h1 h2 => ?_
  have hi : i < n := by simpa [mreadList] using h1
  simp only [mreadList, List.getElem_map, List.getElem_range, List.getElem_replicate, mget]
  have : ∀ l : FMap Byte, (∀ e ∈ l, e.1 < a ∨ a + n ≤ e.1) → fget l (a + i) 0 = 0 := by
    intro l
    induction l with
    | nil => intro _; rfl
    | cons e l ih =>
      intro hl
      have he := hl e (List.mem_cons_self ..)
      rw [fget, if_neg (by omega)]
      exact ih fun x hx => hl x (List.mem_cons_of_mem _ hx)
  exact this m h

/-- A memory moved by some bytes reads as it did, so far away. -/
theorem mreadList_shift (m : FMap Byte) (d a n : Nat) : mreadList (m.map fun e => (e.1 + d, e.2)) (a + d) n = mreadList m a n := by
  refine List.map_congr_left fun i _ => ?_
  simp only [mget]
  induction m with
  | nil => rfl
  | cons e m ih =>
    simp only [List.map_cons, fget]
    by_cases h : e.1 = a + i
    · rw [if_pos h, if_pos (by omega)]
    · rw [if_neg h, if_neg (by omega)]; exact ih

/-- A write to HBM changes nothing but its module. -/
theorem hbmWrite_frame (s : State) (m dom l n v : Nat) (b : Bool) :
    let t := hbmWrite s m dom l n v b
    t.cycle = s.cycle ∧ t.agenda = s.agenda ∧ t.issue = s.issue ∧ t.piers = s.piers ∧ t.sites = s.sites ∧ t.jobs = s.jobs ∧
      t.walks = s.walks ∧ t.torus = s.torus ∧ ∀ k, k ≠ m → getMod t k = getMod s k := by
  unfold hbmWrite endLease
  refine ⟨?_, ?_, ?_, ?_, ?_, ?_, ?_, ?_, fun k hk => ?_⟩
  all_goals first
    | (rw [getMod_adjMod_other _ _ _ _ hk]; split <;> first | rfl | exact getMod_adjMod_other _ _ _ _ hk)
    | (simp only [adjMod_cycle, adjMod_agenda, adjMod_issue, adjMod_piers, adjMod_sites, adjMod_jobs, adjMod_walks, adjMod_torus]; try (split <;> rfl))

/-- Rows written change nothing but their module. -/
theorem putRows_frame (m : Nat) (rs : List (Nat × Bool)) (s : State) (l : Nat) :
    let t := putRows s m l rs
    t.cycle = s.cycle ∧ t.agenda = s.agenda ∧ t.issue = s.issue ∧ t.piers = s.piers ∧ t.sites = s.sites ∧ t.jobs = s.jobs ∧
      t.walks = s.walks ∧ t.torus = s.torus ∧ ∀ k, k ≠ m → getMod t k = getMod s k := by
  induction rs generalizing s l with
  | nil => exact ⟨rfl, rfl, rfl, rfl, rfl, rfl, rfl, rfl, fun _ _ => rfl⟩
  | cons r rs ih =>
    obtain ⟨a1, a2, a3, a4, a5, a6, a7, a8, a9⟩ := ih (hbmWrite s m 2 l 64 r.1 r.2) (l + 64)
    obtain ⟨b1, b2, b3, b4, b5, b6, b7, b8, b9⟩ := hbmWrite_frame s m 2 l 64 r.1 r.2
    exact ⟨a1.trans b1, a2.trans b2, a3.trans b3, a4.trans b4, a5.trans b5, a6.trans b6, a7.trans b7, a8.trans b8,
      fun k hk => (a9 k hk).trans (b9 k hk)⟩

end Sys2Proof.Machine
end

