-- ==== Sys2Proof/Laws/Exec.lean ====
section
/-!
SUPPORT. Each arm of `exec` as an equation, so that no proof unfolds the whole dispatch; and the three ways of `step`.
-/

namespace Sys2Proof.Machine

theorem step_event (s : State) (i : Instr) (l : List Work) (h : s.agenda = .ev i :: l) :
    step s = exec i { s with agenda := l } := by
  simp only [step, h]

theorem step_issue (s : State) (pk : Nat) (l : List Work) (h : s.agenda = .issue pk :: l) :
    step s = issuePier exec pk { s with agenda := l } := by
  simp only [step, h]

theorem step_cycle (s : State) (h : s.agenda = []) : step s = .next (nextCycle s) := by
  simp only [step, h]

variable (s : State)

@[simp] theorem exec_jmp (m : Mv) : exec (.jmp m) s = execJmp m s := rfl
@[simp] theorem exec_jal (m : Mv) : exec (.jal m) s = execJal m s := rfl
@[simp] theorem exec_done (m : Mv) : exec (.done m) s = execDone m s := rfl
@[simp] theorem exec_trap (m : Mv) : exec (.trap m) s = execTrap m s := rfl
@[simp] theorem exec_brk (m : Mv) : exec (.brk m) s = execBrk m s := rfl
@[simp] theorem exec_fenceFull (m : Mv) (sc : Scope) : exec (.fenceFull m sc) s = execFenceFull m sc s := rfl
@[simp] theorem exec_fenceAcq (m : Mv) (sc : Scope) : exec (.fenceAcq m sc) s = execFenceAcq m sc s := rfl
@[simp] theorem exec_fenceRel (m : Mv) (sc : Scope) : exec (.fenceRel m sc) s = execFenceRel m sc s := rfl
@[simp] theorem exec_fenceEng (m : Mv) (sc : Scope) : exec (.fenceEng m sc) s = execFenceEng m sc s := rfl
@[simp] theorem exec_add (m : Mv) (u : Alu) : exec (.add m u) s = execAdd m u s := rfl
@[simp] theorem exec_sub (m : Mv) (u : Alu) : exec (.sub m u) s = execSub m u s := rfl
@[simp] theorem exec_and (m : Mv) (u : Alu) : exec (.and m u) s = execAnd m u s := rfl
@[simp] theorem exec_or (m : Mv) (u : Alu) : exec (.or m u) s = execOr m u s := rfl
@[simp] theorem exec_xor (m : Mv) (u : Alu) : exec (.xor m u) s = execXor m u s := rfl
@[simp] theorem exec_andn (m : Mv) (u : Alu) : exec (.andn m u) s = execAndn m u s := rfl
@[simp] theorem exec_shl (m : Mv) (u : Alu) : exec (.shl m u) s = execShl m u s := rfl
@[simp] theorem exec_shr (m : Mv) (u : Alu) : exec (.shr m u) s = execShr m u s := rfl
@[simp] theorem exec_sra (m : Mv) (u : Alu) : exec (.sra m u) s = execSra m u s := rfl
@[simp] theorem exec_rol (m : Mv) (u : Alu) : exec (.rol m u) s = execRol m u s := rfl
@[simp] theorem exec_min (m : Mv) (u : Alu) : exec (.min m u) s = execMin m u s := rfl
@[simp] theorem exec_minU (m : Mv) (u : Alu) : exec (.minU m u) s = execMinU m u s := rfl
@[simp] theorem exec_max (m : Mv) (u : Alu) : exec (.max m u) s = execMax m u s := rfl
@[simp] theorem exec_maxU (m : Mv) (u : Alu) : exec (.maxU m u) s = execMaxU m u s := rfl
@[simp] theorem exec_eq (m : Mv) (u : Alu) : exec (.eq m u) s = execEq m u s := rfl
@[simp] theorem exec_ne (m : Mv) (u : Alu) : exec (.ne m u) s = execNe m u s := rfl
@[simp] theorem exec_lt (m : Mv) (u : Alu) : exec (.lt m u) s = execLt m u s := rfl
@[simp] theorem exec_ltU (m : Mv) (u : Alu) : exec (.ltU m u) s = execLtU m u s := rfl
@[simp] theorem exec_le (m : Mv) (u : Alu) : exec (.le m u) s = execLe m u s := rfl
@[simp] theorem exec_leU (m : Mv) (u : Alu) : exec (.leU m u) s = execLeU m u s := rfl
@[simp] theorem exec_clz (m : Mv) (u : Alu) : exec (.clz m u) s = execClz m u s := rfl
@[simp] theorem exec_ctz (m : Mv) (u : Alu) : exec (.ctz m u) s = execCtz m u s := rfl
@[simp] theorem exec_popc (m : Mv) (u : Alu) : exec (.popc m u) s = execPopc m u s := rfl
@[simp] theorem exec_brev (m : Mv) (u : Alu) : exec (.brev m u) s = execBrev m u s := rfl
@[simp] theorem exec_bdep (m : Mv) (u : Alu) : exec (.bdep m u) s = execBdep m u s := rfl
@[simp] theorem exec_bext (m : Mv) (u : Alu) : exec (.bext m u) s = execBext m u s := rfl
@[simp] theorem exec_sext (m : Mv) (u : Alu) : exec (.sext m u) s = execSext m u s := rfl
@[simp] theorem exec_zext (m : Mv) (u : Alu) : exec (.zext m u) s = execZext m u s := rfl
@[simp] theorem exec_sel (m : Mv) (u : Alu) : exec (.sel m u) s = execSel m u s := rfl
@[simp] theorem exec_mul (m : Mv) : exec (.mul m) s = execMul m s := rfl
@[simp] theorem exec_mulh (m : Mv) : exec (.mulh m) s = execMulh m s := rfl
@[simp] theorem exec_mulhU (m : Mv) : exec (.mulhU m) s = execMulhU m s := rfl
@[simp] theorem exec_mad (m : Mv) : exec (.mad m) s = execMad m s := rfl
@[simp] theorem exec_div (m : Mv) : exec (.div m) s = execDiv m s := rfl
@[simp] theorem exec_divU (m : Mv) : exec (.divU m) s = execDivU m s := rfl
@[simp] theorem exec_rem (m : Mv) : exec (.rem m) s = execRem m s := rfl
@[simp] theorem exec_remU (m : Mv) : exec (.remU m) s = execRemU m s := rfl
@[simp] theorem exec_divideComplete (pk st tok : Nat) : exec (.divideComplete pk st tok) s = execDivideComplete pk st tok s := rfl
@[simp] theorem exec_ldl (m : Mv) (f : BitVec 3) : exec (.ldl m f) s = execLdl m f s := rfl
@[simp] theorem exec_stl (m : Mv) (z : BitVec 2) : exec (.stl m z) s = execStl m z s := rfl
@[simp] theorem exec_vldl (m : Mv) : exec (.vldl m) s = execVldl m s := rfl
@[simp] theorem exec_vstl (m : Mv) : exec (.vstl m) s = execVstl m s := rfl
@[simp] theorem exec_atl (m : Mv) (op : AtOp) (w : Bool) : exec (.atl m op w) s = execAtl m op w s := rfl
@[simp] theorem exec_casl (m : Mv) (w : Bool) : exec (.casl m w) s = execCasl m w s := rfl
@[simp] theorem exec_ldg (m : Mv) (f : BitVec 3) : exec (.ldg m f) s = execLdg m f s := rfl
@[simp] theorem exec_ldgAcq (m : Mv) (f : BitVec 3) : exec (.ldgAcq m f) s = execLdgAcq m f s := rfl
@[simp] theorem exec_stg (m : Mv) (z : BitVec 2) : exec (.stg m z) s = execStg m z s := rfl
@[simp] theorem exec_stgRel (m : Mv) (z : BitVec 2) : exec (.stgRel m z) s = execStgRel m z s := rfl
@[simp] theorem exec_vldg (m : Mv) : exec (.vldg m) s = execVldg m s := rfl
@[simp] theorem exec_vldgAcq (m : Mv) : exec (.vldgAcq m) s = execVldgAcq m s := rfl
@[simp] theorem exec_vstg (m : Mv) : exec (.vstg m) s = execVstg m s := rfl
@[simp] theorem exec_vstgRel (m : Mv) : exec (.vstgRel m) s = execVstgRel m s := rfl
@[simp] theorem exec_atg (m : Mv) (op : AtOp) (w : Bool) (o : Ord4) : exec (.atg m op w o) s = execAtg m op w o s := rfl
@[simp] theorem exec_casg (m : Mv) (w : Bool) (o : Ord4) : exec (.casg m w o) s = execCasg m w o s := rfl
@[simp] theorem exec_vadd (m : Mv) (t : VT) : exec (.vadd m t) s = execVadd m t s := rfl
@[simp] theorem exec_vsub (m : Mv) (t : VT) : exec (.vsub m t) s = execVsub m t s := rfl
@[simp] theorem exec_vmul (m : Mv) (t : VT) : exec (.vmul m t) s = execVmul m t s := rfl
@[simp] theorem exec_vfma (m : Mv) (t : VT) : exec (.vfma m t) s = execVfma m t s := rfl
@[simp] theorem exec_vmin (m : Mv) (t : VT) : exec (.vmin m t) s = execVmin m t s := rfl
@[simp] theorem exec_vmax (m : Mv) (t : VT) : exec (.vmax m t) s = execVmax m t s := rfl
@[simp] theorem exec_vabs (m : Mv) (t : VT) : exec (.vabs m t) s = execVabs m t s := rfl
@[simp] theorem exec_vneg (m : Mv) (t : VT) : exec (.vneg m t) s = execVneg m t s := rfl
@[simp] theorem exec_vceq (m : Mv) (t : VT) : exec (.vceq m t) s = execVceq m t s := rfl
@[simp] theorem exec_vclt (m : Mv) (t : VT) : exec (.vclt m t) s = execVclt m t s := rfl
@[simp] theorem exec_vcle (m : Mv) (t : VT) : exec (.vcle m t) s = execVcle m t s := rfl
@[simp] theorem exec_vsel (m : Mv) (t : VT) : exec (.vsel m t) s = execVsel m t s := rfl
@[simp] theorem exec_vand (m : Mv) : exec (.vand m) s = execVand m s := rfl
@[simp] theorem exec_vor (m : Mv) : exec (.vor m) s = execVor m s := rfl
@[simp] theorem exec_vxor (m : Mv) : exec (.vxor m) s = execVxor m s := rfl
@[simp] theorem exec_vshl (m : Mv) : exec (.vshl m) s = execVshl m s := rfl
@[simp] theorem exec_vshr (m : Mv) : exec (.vshr m) s = execVshr m s := rfl
@[simp] theorem exec_vcvt (m : Mv) (r : RMode) : exec (.vcvt m r) s = execVcvt m r s := rfl
@[simp] theorem exec_vshuf (m : Mv) (t : VT) : exec (.vshuf m t) s = execVshuf m t s := rfl
@[simp] theorem exec_vrsum (m : Mv) (t : VT) : exec (.vrsum m t) s = execVrsum m t s := rfl
@[simp] theorem exec_vrmax (m : Mv) (t : VT) : exec (.vrmax m t) s = execVrmax m t s := rfl
@[simp] theorem exec_vrmaxMin (m : Mv) (t : VT) : exec (.vrmaxMin m t) s = execVrmaxMin m t s := rfl
@[simp] theorem exec_vbcast (m : Mv) (t : VT) : exec (.vbcast m t) s = execVbcast m t s := rfl
@[simp] theorem exec_vext (m : Mv) (t : VT) : exec (.vext m t) s = execVext m t s := rfl
@[simp] theorem exec_vmask (m : Mv) : exec (.vmask m) s = execVmask m s := rfl
@[simp] theorem exec_viota (m : Mv) : exec (.viota m) s = execViota m s := rfl
@[simp] theorem exec_vcmul (m : Mv) : exec (.vcmul m) s = execVcmul m s := rfl
@[simp] theorem exec_vcmulConj (m : Mv) : exec (.vcmulConj m) s = execVcmulConj m s := rfl
@[simp] theorem exec_mcfg (m : Mv) : exec (.mcfg m) s = execMcfg m s := rfl
@[simp] theorem exec_mld (m : Mv) : exec (.mld m) s = execMld m s := rfl
@[simp] theorem exec_mldw (m : Mv) : exec (.mldw m) s = execMldw m s := rfl
@[simp] theorem exec_mstRaw (m : Mv) : exec (.mstRaw m) s = execMstRaw m s := rfl
@[simp] theorem exec_mstBf16 (m : Mv) : exec (.mstBf16 m) s = execMstBf16 m s := rfl
@[simp] theorem exec_mstF32 (m : Mv) : exec (.mstF32 m) s = execMstF32 m s := rfl
@[simp] theorem exec_mzero (m : Mv) : exec (.mzero m) s = execMzero m s := rfl
@[simp] theorem exec_mma (m : Mv) : exec (.mma m) s = execMma m s := rfl
@[simp] theorem exec_mmas (m : Mv) : exec (.mmas m) s = execMmas m s := rfl
@[simp] theorem exec_mmaf (m : Mv) : exec (.mmaf m) s = execMmaf m s := rfl
@[simp] theorem exec_cmma (m : Mv) : exec (.cmma m) s = execCmma m s := rfl
@[simp] theorem exec_matrixEntryExecute (pk : Nat) : exec (.matrixEntryExecute pk) s = execMatrixEntryExecute pk s := rfl
@[simp] theorem exec_kexp (m : Mv) (bf : Bool) : exec (.kexp m bf) s = execKexp m bf s := rfl
@[simp] theorem exec_kexp2 (m : Mv) (bf : Bool) : exec (.kexp2 m bf) s = execKexp2 m bf s := rfl
@[simp] theorem exec_klog (m : Mv) (bf : Bool) : exec (.klog m bf) s = execKlog m bf s := rfl
@[simp] theorem exec_klog2 (m : Mv) (bf : Bool) : exec (.klog2 m bf) s = execKlog2 m bf s := rfl
@[simp] theorem exec_krcp (m : Mv) (bf : Bool) : exec (.krcp m bf) s = execKrcp m bf s := rfl
@[simp] theorem exec_krsq (m : Mv) (bf : Bool) : exec (.krsq m bf) s = execKrsq m bf s := rfl
@[simp] theorem exec_ksqrt (m : Mv) (bf : Bool) : exec (.ksqrt m bf) s = execKsqrt m bf s := rfl
@[simp] theorem exec_ksin (m : Mv) (bf : Bool) : exec (.ksin m bf) s = execKsin m bf s := rfl
@[simp] theorem exec_kcos (m : Mv) (bf : Bool) : exec (.kcos m bf) s = execKcos m bf s := rfl
@[simp] theorem exec_ktanh (m : Mv) (bf : Bool) : exec (.ktanh m bf) s = execKtanh m bf s := rfl
@[simp] theorem exec_ksigm (m : Mv) (bf : Bool) : exec (.ksigm m bf) s = execKsigm m bf s := rfl
@[simp] theorem exec_kerf (m : Mv) (bf : Bool) : exec (.kerf m bf) s = execKerf m bf s := rfl
@[simp] theorem exec_keystoneAccept (mod k : Nat) : exec (.keystoneAccept mod k) s = execKeystoneAccept mod k s := rfl
@[simp] theorem exec_keystoneResult (pk st entry tok : Nat) (v : Value) : exec (.keystoneResult pk st entry tok v) s = execKeystoneResult pk st entry tok v s := rfl
@[simp] theorem exec_send (m : Mv) : exec (.send m) s = execSend m s := rfl
@[simp] theorem exec_sendRed (m : Mv) : exec (.sendRed m) s = execSendRed m s := rfl
@[simp] theorem exec_reply (m : Mv) : exec (.reply m) s = execReply m s := rfl
@[simp] theorem exec_fwd (m : Mv) : exec (.fwd m) s = execFwd m s := rfl
@[simp] theorem exec_mcast (m : Mv) : exec (.mcast m) s = execMcast m s := rfl
@[simp] theorem exec_mstat (m : Mv) : exec (.mstat m) s = execMstat m s := rfl
@[simp] theorem exec_sarm (m : Mv) : exec (.sarm m) s = execSarm m s := rfl
@[simp] theorem exec_sset (m : Mv) : exec (.sset m) s = execSset m s := rfl
@[simp] theorem exec_sadd (m : Mv) : exec (.sadd m) s = execSadd m s := rfl
@[simp] theorem exec_sradd (m : Mv) : exec (.sradd m) s = execSradd m s := rfl
@[simp] theorem exec_sarv (m : Mv) : exec (.sarv m) s = execSarv m s := rfl
@[simp] theorem exec_swait (m : Mv) : exec (.swait m) s = execSwait m s := rfl
@[simp] theorem exec_swaitPh (m : Mv) : exec (.swaitPh m) s = execSwaitPh m s := rfl
@[simp] theorem exec_sget (m : Mv) : exec (.sget m) s = execSget m s := rfl
@[simp] theorem exec_sread (m : Mv) : exec (.sread m) s = execSread m s := rfl
@[simp] theorem exec_swrite (m : Mv) : exec (.swrite m) s = execSwrite m s := rfl
@[simp] theorem exec_sgath (m : Mv) : exec (.sgath m) s = execSgath m s := rfl
@[simp] theorem exec_sscat (m : Mv) : exec (.sscat m) s = execSscat m s := rfl
@[simp] theorem exec_sseg (m : Mv) : exec (.sseg m) s = execSseg m s := rfl
@[simp] theorem exec_sxch (m : Mv) : exec (.sxch m) s = execSxch m s := rfl
@[simp] theorem exec_swld (m : Mv) : exec (.swld m) s = execSwld m s := rfl
@[simp] theorem exec_scanc (m : Mv) : exec (.scanc m) s = execScanc m s := rfl
@[simp] theorem exec_crd (m : Mv) : exec (.crd m) s = execCrd m s := rfl
@[simp] theorem exec_cwr (m : Mv) : exec (.cwr m) s = execCwr m s := rfl
@[simp] theorem exec_writeWindow (m : Mv) : exec (.writeWindow m) s = execWriteWindow m s := rfl
@[simp] theorem exec_writeWeir (m : Mv) : exec (.writeWeir m) s = execWriteWeir m s := rfl
@[simp] theorem exec_writeSeed (m : Mv) : exec (.writeSeed m) s = execWriteSeed m s := rfl
@[simp] theorem exec_writeSched (m : Mv) : exec (.writeSched m) s = execWriteSched m s := rfl
@[simp] theorem exec_writeXlroot (m : Mv) : exec (.writeXlroot m) s = execWriteXlroot m s := rfl
@[simp] theorem exec_acrt (m : Mv) : exec (.acrt m) s = execAcrt m s := rfl
@[simp] theorem exec_aret (m : Mv) : exec (.aret m) s = execAret m s := rfl
@[simp] theorem exec_gdone (m : Mv) : exec (.gdone m) s = execGdone m s := rfl
@[simp] theorem exec_gcncl (m : Mv) : exec (.gcncl m) s = execGcncl m s := rfl
@[simp] theorem exec_tlbi (m : Mv) : exec (.tlbi m) s = execTlbi m s := rfl
@[simp] theorem exec_move (m : Mv) (d : MoveDest) : exec (.move m d) s = execMove m d s := rfl
@[simp] theorem exec_nop : exec (.nop) s = execNop s := rfl
@[simp] theorem exec_messageAdmission (g : Msg) (frm : AckTo) : exec (.messageAdmission g frm) s = execMessageAdmission g frm s := rfl
@[simp] theorem exec_spillwayReturn (pk actor : Nat) : exec (.spillwayReturn pk actor) s = execSpillwayReturn pk actor s := rfl
@[simp] theorem exec_dispatch (pk : Nat) : exec (.dispatch pk) s = execDispatch pk s := rfl
@[simp] theorem exec_runEnd (pk st : Nat) : exec (.runEnd pk st) s = execRunEnd pk st s := rfl
@[simp] theorem exec_actorLockRelease (pk actor : Nat) : exec (.actorLockRelease pk actor) s = execActorLockRelease pk actor s := rfl
@[simp] theorem exec_actorRetireComplete (pk actor : Nat) : exec (.actorRetireComplete pk actor) s = execActorRetireComplete pk actor s := rfl
@[simp] theorem exec_watchdogExpiry (pk st : Nat) : exec (.watchdogExpiry pk st) s = execWatchdogExpiry pk st s := rfl
@[simp] theorem exec_outboxResend (e : AckTo) : exec (.outboxResend e) s = execOutboxResend e s := rfl
@[simp] theorem exec_acknowledgement (e : AckTo) (status : BitVec 3) : exec (.acknowledgement e status) s = execAcknowledgement e status s := rfl
@[simp] theorem exec_sluiceAddArrival (a : SlAdd) : exec (.sluiceAddArrival a) s = execSluiceAddArrival a s := rfl
@[simp] theorem exec_sluiceRecheck (pk sl : Nat) : exec (.sluiceRecheck pk sl) s = execSluiceRecheck pk sl s := rfl
@[simp] theorem exec_barrierArriveArrival (a : SlAdd) : exec (.barrierArriveArrival a) s = execBarrierArriveArrival a s := rfl
@[simp] theorem exec_phaseNoticeArrival (a : SlAdd) : exec (.phaseNoticeArrival a) s = execPhaseNoticeArrival a s := rfl
@[simp] theorem exec_gmTranslationDone (pk st entry tok : Nat) (o : WalkOut) : exec (.gmTranslationDone pk st entry tok o) s = execGmTranslationDone pk st entry tok o s := rfl
@[simp] theorem exec_gmReply (a : GmAns) : exec (.gmReply a) s = execGmReply a s := rfl
@[simp] theorem exec_apertureAccess (r : GmReq) : exec (.apertureAccess r) s = execApertureAccess r s := rfl
@[simp] theorem exec_hbmAccess (r : GmReq) : exec (.hbmAccess r) s = execHbmAccess r s := rfl
@[simp] theorem exec_ingressAtomic (r : GmReq) : exec (.ingressAtomic r) s = execIngressAtomic r s := rfl
@[simp] theorem exec_leaseExpiry (mod line tok : Nat) : exec (.leaseExpiry mod line tok) s = execLeaseExpiry mod line tok s := rfl
@[simp] theorem exec_leaseRecall (mod line : Nat) : exec (.leaseRecall mod line) s = execLeaseRecall mod line s := rfl
@[simp] theorem exec_pageWalk (w : Nat) : exec (.pageWalk w) s = execPageWalk w s := rfl
@[simp] theorem exec_walkMovingRetry (w : Nat) : exec (.walkMovingRetry w) s = execWalkMovingRetry w s := rfl
@[simp] theorem exec_dirtyLogMerge (pk : Nat) : exec (.dirtyLogMerge pk) s = execDirtyLogMerge pk s := rfl
@[simp] theorem exec_invalidationAgent (mod span : Nat) : exec (.invalidationAgent mod span) s = execInvalidationAgent mod span s := rfl
@[simp] theorem exec_invalidationPier (mod span lp : Nat) : exec (.invalidationPier mod span lp) s = execInvalidationPier mod span lp s := rfl
@[simp] theorem exec_invalidationAbutment (mod abut : Nat) : exec (.invalidationAbutment mod abut) s = execInvalidationAbutment mod abut s := rfl
@[simp] theorem exec_invalidationComplete (mod span : Nat) : exec (.invalidationComplete mod span) s = execInvalidationComplete mod span s := rfl
@[simp] theorem exec_tlbiResend (mod span : Nat) (r : TlbiReq) : exec (.tlbiResend mod span r) s = execTlbiResend mod span r s := rfl
@[simp] theorem exec_streamCommandAccept (mod abut : Nat) (c : StreamCmd) : exec (.streamCommandAccept mod abut c) s = execStreamCommandAccept mod abut c s := rfl
@[simp] theorem exec_streamCommandResend (mod abut : Nat) (c : StreamCmd) : exec (.streamCommandResend mod abut c) s = execStreamCommandResend mod abut c s := rfl
@[simp] theorem exec_streamOpen (mod abut sid : Nat) : exec (.streamOpen mod abut sid) s = execStreamOpen mod abut sid s := rfl
@[simp] theorem exec_streamOpenRetry (mod abut sid : Nat) : exec (.streamOpenRetry mod abut sid) s = execStreamOpenRetry mod abut sid s := rfl
@[simp] theorem exec_streamTurn (mod abut : Nat) : exec (.streamTurn mod abut) s = execStreamTurn mod abut s := rfl
@[simp] theorem exec_dataFlitArrival (f : Flit) : exec (.dataFlitArrival f) s = execDataFlitArrival f s := rfl
@[simp] theorem exec_flitResend (f : Flit) : exec (.flitResend f) s = execFlitResend f s := rfl
@[simp] theorem exec_weightFlitArrival (f : Flit) : exec (.weightFlitArrival f) s = execWeightFlitArrival f s := rfl
@[simp] theorem exec_scratchpadReadRequest (f : Flit) : exec (.scratchpadReadRequest f) s = execScratchpadReadRequest f s := rfl
@[simp] theorem exec_streamIncrement (mod abut sid : Nat) (cmd : StreamCmd) : exec (.streamIncrement mod abut sid cmd) s = execStreamIncrement mod abut sid cmd s := rfl
@[simp] theorem exec_sxchPair (mod abut sid : Nat) : exec (.sxchPair mod abut sid) s = execSxchPair mod abut sid s := rfl
@[simp] theorem exec_sxchWindowGrant (mod abut sid : Nat) : exec (.sxchWindowGrant mod abut sid) s = execSxchWindowGrant mod abut sid s := rfl
@[simp] theorem exec_multicastCopy (mod tok idx : Nat) : exec (.multicastCopy mod tok idx) s = execMulticastCopy mod tok idx s := rfl
@[simp] theorem exec_laggardDetach (mod tok idx : Nat) : exec (.laggardDetach mod tok idx) s = execLaggardDetach mod tok idx s := rfl
@[simp] theorem exec_reductionContribution (g : Msg) (frm : AckTo) : exec (.reductionContribution g frm) s = execReductionContribution g frm s := rfl
@[simp] theorem exec_gdoneForward (mod pk : Nat) (graph : BitVec 12) (add : BitVec 32) (frm : AckTo) : exec (.gdoneForward mod pk graph add frm) s = execGdoneForward mod pk graph add frm s := rfl
@[simp] theorem exec_cancel (mod job level id : Nat) : exec (.cancel mod job level id) s = execCancel mod job level id s := rfl
@[simp] theorem exec_cancelAtPier (pk job level id : Nat) : exec (.cancelAtPier pk job level id) s = execCancelAtPier pk job level id s := rfl
@[simp] theorem exec_flushMarker (mod tok : Nat) : exec (.flushMarker mod tok) s = execFlushMarker mod tok s := rfl
@[simp] theorem exec_cancelEnd (mod : Nat) : exec (.cancelEnd mod) s = execCancelEnd mod s := rfl
@[simp] theorem exec_phaseOpen (mod job phase : Nat) : exec (.phaseOpen mod job phase) s = execPhaseOpen mod job phase s := rfl
@[simp] theorem exec_partitionHalt (mod part hs : Nat) : exec (.partitionHalt mod part hs) s = execPartitionHalt mod part hs s := rfl
@[simp] theorem exec_haltAtPier (pk : Nat) : exec (.haltAtPier pk) s = execHaltAtPier pk s := rfl
@[simp] theorem exec_haltAtAbutment (mod part abut : Nat) : exec (.haltAtAbutment mod part abut) s = execHaltAtAbutment mod part abut s := rfl
@[simp] theorem exec_haltAck (mod part who : Nat) : exec (.haltAck mod part who) s = execHaltAck mod part who s := rfl
@[simp] theorem exec_saveLimitExpiry (pk : Nat) : exec (.saveLimitExpiry pk) s = execSaveLimitExpiry pk s := rfl
@[simp] theorem exec_shadowSwap (mod hs part : Nat) : exec (.shadowSwap mod hs part) s = execShadowSwap mod hs part s := rfl
@[simp] theorem exec_streamContextLoad (mod abut part : Nat) : exec (.streamContextLoad mod abut part) s = execStreamContextLoad mod abut part s := rfl
@[simp] theorem exec_partitionEvict (mod part hs : Nat) : exec (.partitionEvict mod part hs) s = execPartitionEvict mod part hs s := rfl
@[simp] theorem exec_partitionRestore (mod part hs : Nat) : exec (.partitionRestore mod part hs) s = execPartitionRestore mod part hs s := rfl
@[simp] theorem exec_parkedRunRestore (pk : Nat) : exec (.parkedRunRestore pk) s = execParkedRunRestore pk s := rfl
@[simp] theorem exec_gangSliceStart (mod slice : Nat) : exec (.gangSliceStart mod slice) s = execGangSliceStart mod slice s := rfl
@[simp] theorem exec_holdBroadcast (mod job : Nat) (on : Bool) : exec (.holdBroadcast mod job on) s = execHoldBroadcast mod job on s := rfl
@[simp] theorem exec_healthProbe (mod : Nat) : exec (.healthProbe mod) s = execHealthProbe mod s := rfl
@[simp] theorem exec_hungPier (pk : Nat) : exec (.hungPier pk) s = execHungPier pk s := rfl
@[simp] theorem exec_deferredFaultReport (d : Deferred) : exec (.deferredFaultReport d) s = execDeferredFaultReport d s := rfl
@[simp] theorem exec_createActor (pk : Nat) (g : Msg) : exec (.createActor pk g) s = execCreateActor pk g s := rfl
@[simp] theorem exec_resume (pk : Nat) (g : Msg) : exec (.resume pk g) s = execResume pk g s := rfl
@[simp] theorem exec_drop (pk : Nat) (g : Msg) : exec (.drop pk g) s = execDrop pk g s := rfl
@[simp] theorem exec_evictActor (pk : Nat) (g : Msg) : exec (.evictActor pk g) s = execEvictActor pk g s := rfl
@[simp] theorem exec_evictWaitTimeout (pk : Nat) (g : Msg) : exec (.evictWaitTimeout pk g) s = execEvictWaitTimeout pk g s := rfl
@[simp] theorem exec_restoreActor (pk : Nat) (g : Msg) : exec (.restoreActor pk g) s = execRestoreActor pk g s := rfl
@[simp] theorem exec_streamResume (pk : Nat) (g : Msg) : exec (.streamResume pk g) s = execStreamResume pk g s := rfl
@[simp] theorem exec_streamStop (pk : Nat) (g : Msg) : exec (.streamStop pk g) s = execStreamStop pk g s := rfl
@[simp] theorem exec_harvest (pk : Nat) (g : Msg) : exec (.harvest pk g) s = execHarvest pk g s := rfl
@[simp] theorem exec_harvestComplete (mod span : Nat) : exec (.harvestComplete mod span) s = execHarvestComplete mod span s := rfl
@[simp] theorem exec_phaseBegin (pk : Nat) (g : Msg) : exec (.phaseBegin pk g) s = execPhaseBegin pk g s := rfl
@[simp] theorem exec_reservedServiceCommand (pk : Nat) (g : Msg) : exec (.reservedServiceCommand pk g) s = execReservedServiceCommand pk g s := rfl
@[simp] theorem exec_serviceForwardToHost (pk : Nat) (g : Msg) : exec (.serviceForwardToHost pk g) s = execServiceForwardToHost pk g s := rfl
@[simp] theorem exec_faultRecordForward (pk : Nat) (g : Msg) : exec (.faultRecordForward pk g) s = execFaultRecordForward pk g s := rfl
@[simp] theorem exec_jobLoaderRun (mod job : Nat) : exec (.jobLoaderRun mod job) s = execJobLoaderRun mod job s := rfl
@[simp] theorem exec_frameResendTimeout (mod : Nat) : exec (.frameResendTimeout mod) s = execFrameResendTimeout mod s := rfl
@[simp] theorem exec_attestationSigned (mod tok : Nat) : exec (.attestationSigned mod tok) s = execAttestationSigned mod tok s := rfl
@[simp] theorem exec_powerMeasure (mod : Nat) : exec (.powerMeasure mod) s = execPowerMeasure mod s := rfl
@[simp] theorem exec_replayDivergence (pk : Nat) : exec (.replayDivergence pk) s = execReplayDivergence pk s := rfl
@[simp] theorem exec_portDown (mod port : Nat) : exec (.portDown mod port) s = execPortDown mod port s := rfl
@[simp] theorem exec_bringUp (mod : Nat) : exec (.bringUp mod) s = execBringUp mod s := rfl
@[simp] theorem exec_matrixEntryComplete (pk : Nat) : exec (.matrixEntryComplete pk) s = execMatrixEntryComplete pk s := rfl
@[simp] theorem exec_resultPortWrite (pk st unit tok : Nat) : exec (.resultPortWrite pk st unit tok) s = execResultPortWrite pk st unit tok s := rfl
@[simp] theorem exec_bankRefresh (mod bank : Nat) : exec (.bankRefresh mod bank) s = execBankRefresh mod bank s := rfl
@[simp] theorem exec_exchangeFlitArrival (f : Flit) : exec (.exchangeFlitArrival f) s = execExchangeFlitArrival f s := rfl
@[simp] theorem exec_portRetrainComplete (mod port : Nat) : exec (.portRetrainComplete mod port) s = execPortRetrainComplete mod port s := rfl
@[simp] theorem exec_frameJobLoad (mod : Nat) (f : Frame) (img : JobImage) (last : Bool) : exec (.frameJobLoad mod f img last) s = execFrameJobLoad mod f img last s := rfl
@[simp] theorem exec_framePut (mod : Nat) (f : Frame) : exec (.framePut mod f) s = execFramePut mod f s := rfl
@[simp] theorem exec_frameGet (mod : Nat) (f : Frame) : exec (.frameGet mod f) s = execFrameGet mod f s := rfl
@[simp] theorem exec_frameMessageInject (mod : Nat) (f : Frame) : exec (.frameMessageInject mod f) s = execFrameMessageInject mod f s := rfl
@[simp] theorem exec_frameSequenceQuery (mod : Nat) (f : Frame) : exec (.frameSequenceQuery mod f) s = execFrameSequenceQuery mod f s := rfl
@[simp] theorem exec_frameSequenceAnswer (mod : Nat) (f : Frame) : exec (.frameSequenceAnswer mod f) s = execFrameSequenceAnswer mod f s := rfl
@[simp] theorem exec_frameAckOnly (mod : Nat) (f : Frame) : exec (.frameAckOnly mod f) s = execFrameAckOnly mod f s := rfl
@[simp] theorem exec_statusGet (mod : Nat) (f : Frame) : exec (.statusGet mod f) s = execStatusGet mod f s := rfl
@[simp] theorem exec_attestationNonce (mod : Nat) (f : Frame) : exec (.attestationNonce mod f) s = execAttestationNonce mod f s := rfl
@[simp] theorem exec_attestationReportGet (mod : Nat) (f : Frame) : exec (.attestationReportGet mod f) s = execAttestationReportGet mod f s := rfl
@[simp] theorem exec_powerCapWrite (mod : Nat) (f : Frame) : exec (.powerCapWrite mod f) s = execPowerCapWrite mod f s := rfl
@[simp] theorem exec_telemetryGet (mod : Nat) (f : Frame) : exec (.telemetryGet mod f) s = execTelemetryGet mod f s := rfl
@[simp] theorem exec_freeze (mod : Nat) (f : Frame) : exec (.freeze mod f) s = execFreeze mod f s := rfl
@[simp] theorem exec_scanReadoutGet (mod : Nat) (f : Frame) : exec (.scanReadoutGet mod f) s = execScanReadoutGet mod f s := rfl
@[simp] theorem exec_rrOff (mod : Nat) (f : Frame) : exec (.rrOff mod f) s = execRrOff mod f s := rfl
@[simp] theorem exec_rrRecord (mod : Nat) (f : Frame) : exec (.rrRecord mod f) s = execRrRecord mod f s := rfl
@[simp] theorem exec_rrReplay (mod : Nat) (f : Frame) : exec (.rrReplay mod f) s = execRrReplay mod f s := rfl
@[simp] theorem exec_uncorrectableError (mod kind unit off : Nat) : exec (.uncorrectableError mod kind unit off) s = execUncorrectableError mod kind unit off s := rfl
@[simp] theorem exec_correctedError (mod kind : Nat) : exec (.correctedError mod kind) s = execCorrectedError mod kind s := rfl
@[simp] theorem exec_torusLaneFailure (mod port lane : Nat) : exec (.torusLaneFailure mod port lane) s = execTorusLaneFailure mod port lane s := rfl
@[simp] theorem exec_placementTableWrite (mod part : Nat) (job : BitVec 12) (halfspans : BitVec 8) (tbl : FMap (BitVec 32)) : exec (.placementTableWrite mod part job halfspans tbl) s = execPlacementTableWrite mod part job halfspans tbl s := rfl
@[simp] theorem exec_groupEntryWrite (mod id : Nat) (hdr : Word) (members : List (BitVec 28)) : exec (.groupEntryWrite mod id hdr members) s = execGroupEntryWrite mod id hdr members s := rfl
@[simp] theorem exec_gangScheduleWrite (mod : Nat) (o : Word) (p : BitVec 32) (slices : FMap Word) : exec (.gangScheduleWrite mod o p slices) s = execGangScheduleWrite mod o p slices s := rfl
@[simp] theorem exec_debugHalt (mod site : Nat) : exec (.debugHalt mod site) s = execDebugHalt mod site s := rfl
@[simp] theorem exec_debugRelease (mod site : Nat) : exec (.debugRelease mod site) s = execDebugRelease mod site s := rfl
@[simp] theorem exec_overtemp (mod die : Nat) (t : Word) : exec (.overtemp mod die t) s = execOvertemp mod die t s := rfl
@[simp] theorem exec_timeBaseFlit (mod : Nat) (v : Word) : exec (.timeBaseFlit mod v) s = execTimeBaseFlit mod v s := rfl
@[simp] theorem exec_spareHbmPc (mod stack pc : Nat) : exec (.spareHbmPc mod stack pc) s = execSpareHbmPc mod stack pc s := rfl
@[simp] theorem exec_spareAbutment (mod abut : Nat) : exec (.spareAbutment mod abut) s = execSpareAbutment mod abut s := rfl
@[simp] theorem exec_spareTorusLane (mod port lane : Nat) : exec (.spareTorusLane mod port lane) s = execSpareTorusLane mod port lane s := rfl
@[simp] theorem exec_sparePierRow (mod span row : Nat) : exec (.sparePierRow mod span row) s = execSparePierRow mod span row s := rfl

end Sys2Proof.Machine
end

