-- ==== Sys2Proof/Laws/PerInstr.lean ====
section
/-!
SUPPORT. Per-instruction facts: the destination field of every slot form decodes to the instruction (R87, R91 to R97).
-/

namespace Sys2Proof.Laws

/-- What a destination field of 15 bits stands for (R87). -/
def decodeField (m : Mv) (d : BitVec 15) : Option Instr :=
  match bitsOf d 13 2 with
  | 0 => (decodeDest (bitsOf d 0 13)).map (.move m)
  | 1 => decodeTrigger m (bitsOf d 8 5) (bitsOf d 0 8)
  | _ => none

/-- The field that the encoder gives a well-formed slot form is read back as that form. -/
def fieldDecodes.Statement (i : Instr) : Prop :=
  i.slotForm = true → i.wf = true → ∀ m d, i.fields = some (m, d) → decodeField m d = some i

theorem decodeField_trigField (m : Mv) (unit op : Nat) (hu : unit < 32) (ho : op < 256) :
    decodeField m (trigField unit op) = decodeTrigger m unit op := by
  have h : (trigField unit op).toNat = 0x2000 + unit * 0x100 + op := by
    simp only [trigField, BitVec.toNat_ofNat]; omega
  have h1 : bitsOf (trigField unit op) 13 2 = 1 := by simp only [bitsOf, h]; omega
  have h2 : bitsOf (trigField unit op) 8 5 = unit := by simp only [bitsOf, h]; omega
  have h3 : bitsOf (trigField unit op) 0 8 = op := by simp only [bitsOf, h]; omega
  simp only [decodeField, h1, h2, h3]

theorem fieldDecodes.jmp (m : Mv) : fieldDecodes.Statement (.jmp m) := by
  intro _ _ m' d h
  cases h
  exact (decodeField_trigField _ _ _ (by decide) (by decide)).trans rfl

theorem fieldDecodes.jal (m : Mv) : fieldDecodes.Statement (.jal m) := by
  intro _ _ m' d h
  cases h
  exact (decodeField_trigField _ _ _ (by decide) (by decide)).trans rfl

theorem fieldDecodes.done (m : Mv) : fieldDecodes.Statement (.done m) := by
  intro _ _ m' d h
  cases h
  exact (decodeField_trigField _ _ _ (by decide) (by decide)).trans rfl

theorem fieldDecodes.trap (m : Mv) : fieldDecodes.Statement (.trap m) := by
  intro _ _ m' d h
  cases h
  exact (decodeField_trigField _ _ _ (by decide) (by decide)).trans rfl

theorem fieldDecodes.brk (m : Mv) : fieldDecodes.Statement (.brk m) := by
  intro _ _ m' d h
  cases h
  exact (decodeField_trigField _ _ _ (by decide) (by decide)).trans rfl

theorem fieldDecodes.fenceFull (m : Mv) (sc : Scope) : fieldDecodes.Statement (.fenceFull m sc) := by
  intro _ _ m' d h
  cases h
  cases sc <;> exact (decodeField_trigField _ _ _ (by decide) (by decide)).trans rfl

theorem fieldDecodes.fenceAcq (m : Mv) (sc : Scope) : fieldDecodes.Statement (.fenceAcq m sc) := by
  intro _ _ m' d h
  cases h
  cases sc <;> exact (decodeField_trigField _ _ _ (by decide) (by decide)).trans rfl

theorem fieldDecodes.fenceRel (m : Mv) (sc : Scope) : fieldDecodes.Statement (.fenceRel m sc) := by
  intro _ _ m' d h
  cases h
  cases sc <;> exact (decodeField_trigField _ _ _ (by decide) (by decide)).trans rfl

theorem fieldDecodes.fenceEng (m : Mv) (sc : Scope) : fieldDecodes.Statement (.fenceEng m sc) := by
  intro _ _ m' d h
  cases h
  cases sc <;> exact (decodeField_trigField _ _ _ (by decide) (by decide)).trans rfl

theorem fieldDecodes.add (m : Mv) (u : Alu) : fieldDecodes.Statement (.add m u) := by
  intro _ _ m' d h
  cases h
  cases u <;> exact (decodeField_trigField _ _ _ (by decide) (by decide)).trans rfl

theorem fieldDecodes.sub (m : Mv) (u : Alu) : fieldDecodes.Statement (.sub m u) := by
  intro _ _ m' d h
  cases h
  cases u <;> exact (decodeField_trigField _ _ _ (by decide) (by decide)).trans rfl

theorem fieldDecodes.and (m : Mv) (u : Alu) : fieldDecodes.Statement (.and m u) := by
  intro _ _ m' d h
  cases h
  cases u <;> exact (decodeField_trigField _ _ _ (by decide) (by decide)).trans rfl

theorem fieldDecodes.or (m : Mv) (u : Alu) : fieldDecodes.Statement (.or m u) := by
  intro _ _ m' d h
  cases h
  cases u <;> exact (decodeField_trigField _ _ _ (by decide) (by decide)).trans rfl

theorem fieldDecodes.xor (m : Mv) (u : Alu) : fieldDecodes.Statement (.xor m u) := by
  intro _ _ m' d h
  cases h
  cases u <;> exact (decodeField_trigField _ _ _ (by decide) (by decide)).trans rfl

theorem fieldDecodes.andn (m : Mv) (u : Alu) : fieldDecodes.Statement (.andn m u) := by
  intro _ _ m' d h
  cases h
  cases u <;> exact (decodeField_trigField _ _ _ (by decide) (by decide)).trans rfl

theorem fieldDecodes.shl (m : Mv) (u : Alu) : fieldDecodes.Statement (.shl m u) := by
  intro _ _ m' d h
  cases h
  cases u <;> exact (decodeField_trigField _ _ _ (by decide) (by decide)).trans rfl

theorem fieldDecodes.shr (m : Mv) (u : Alu) : fieldDecodes.Statement (.shr m u) := by
  intro _ _ m' d h
  cases h
  cases u <;> exact (decodeField_trigField _ _ _ (by decide) (by decide)).trans rfl

theorem fieldDecodes.sra (m : Mv) (u : Alu) : fieldDecodes.Statement (.sra m u) := by
  intro _ _ m' d h
  cases h
  cases u <;> exact (decodeField_trigField _ _ _ (by decide) (by decide)).trans rfl

theorem fieldDecodes.rol (m : Mv) (u : Alu) : fieldDecodes.Statement (.rol m u) := by
  intro _ _ m' d h
  cases h
  cases u <;> exact (decodeField_trigField _ _ _ (by decide) (by decide)).trans rfl

theorem fieldDecodes.min (m : Mv) (u : Alu) : fieldDecodes.Statement (.min m u) := by
  intro _ _ m' d h
  cases h
  cases u <;> exact (decodeField_trigField _ _ _ (by decide) (by decide)).trans rfl

theorem fieldDecodes.minU (m : Mv) (u : Alu) : fieldDecodes.Statement (.minU m u) := by
  intro _ _ m' d h
  cases h
  cases u <;> exact (decodeField_trigField _ _ _ (by decide) (by decide)).trans rfl

theorem fieldDecodes.max (m : Mv) (u : Alu) : fieldDecodes.Statement (.max m u) := by
  intro _ _ m' d h
  cases h
  cases u <;> exact (decodeField_trigField _ _ _ (by decide) (by decide)).trans rfl

theorem fieldDecodes.maxU (m : Mv) (u : Alu) : fieldDecodes.Statement (.maxU m u) := by
  intro _ _ m' d h
  cases h
  cases u <;> exact (decodeField_trigField _ _ _ (by decide) (by decide)).trans rfl

theorem fieldDecodes.eq (m : Mv) (u : Alu) : fieldDecodes.Statement (.eq m u) := by
  intro _ _ m' d h
  cases h
  cases u <;> exact (decodeField_trigField _ _ _ (by decide) (by decide)).trans rfl

theorem fieldDecodes.ne (m : Mv) (u : Alu) : fieldDecodes.Statement (.ne m u) := by
  intro _ _ m' d h
  cases h
  cases u <;> exact (decodeField_trigField _ _ _ (by decide) (by decide)).trans rfl

theorem fieldDecodes.lt (m : Mv) (u : Alu) : fieldDecodes.Statement (.lt m u) := by
  intro _ _ m' d h
  cases h
  cases u <;> exact (decodeField_trigField _ _ _ (by decide) (by decide)).trans rfl

theorem fieldDecodes.ltU (m : Mv) (u : Alu) : fieldDecodes.Statement (.ltU m u) := by
  intro _ _ m' d h
  cases h
  cases u <;> exact (decodeField_trigField _ _ _ (by decide) (by decide)).trans rfl

theorem fieldDecodes.le (m : Mv) (u : Alu) : fieldDecodes.Statement (.le m u) := by
  intro _ _ m' d h
  cases h
  cases u <;> exact (decodeField_trigField _ _ _ (by decide) (by decide)).trans rfl

theorem fieldDecodes.leU (m : Mv) (u : Alu) : fieldDecodes.Statement (.leU m u) := by
  intro _ _ m' d h
  cases h
  cases u <;> exact (decodeField_trigField _ _ _ (by decide) (by decide)).trans rfl

theorem fieldDecodes.clz (m : Mv) (u : Alu) : fieldDecodes.Statement (.clz m u) := by
  intro _ _ m' d h
  cases h
  cases u <;> exact (decodeField_trigField _ _ _ (by decide) (by decide)).trans rfl

theorem fieldDecodes.ctz (m : Mv) (u : Alu) : fieldDecodes.Statement (.ctz m u) := by
  intro _ _ m' d h
  cases h
  cases u <;> exact (decodeField_trigField _ _ _ (by decide) (by decide)).trans rfl

theorem fieldDecodes.popc (m : Mv) (u : Alu) : fieldDecodes.Statement (.popc m u) := by
  intro _ _ m' d h
  cases h
  cases u <;> exact (decodeField_trigField _ _ _ (by decide) (by decide)).trans rfl

theorem fieldDecodes.brev (m : Mv) (u : Alu) : fieldDecodes.Statement (.brev m u) := by
  intro _ _ m' d h
  cases h
  cases u <;> exact (decodeField_trigField _ _ _ (by decide) (by decide)).trans rfl

theorem fieldDecodes.bdep (m : Mv) (u : Alu) : fieldDecodes.Statement (.bdep m u) := by
  intro _ _ m' d h
  cases h
  cases u <;> exact (decodeField_trigField _ _ _ (by decide) (by decide)).trans rfl

theorem fieldDecodes.bext (m : Mv) (u : Alu) : fieldDecodes.Statement (.bext m u) := by
  intro _ _ m' d h
  cases h
  cases u <;> exact (decodeField_trigField _ _ _ (by decide) (by decide)).trans rfl

theorem fieldDecodes.sext (m : Mv) (u : Alu) : fieldDecodes.Statement (.sext m u) := by
  intro _ _ m' d h
  cases h
  cases u <;> exact (decodeField_trigField _ _ _ (by decide) (by decide)).trans rfl

theorem fieldDecodes.zext (m : Mv) (u : Alu) : fieldDecodes.Statement (.zext m u) := by
  intro _ _ m' d h
  cases h
  cases u <;> exact (decodeField_trigField _ _ _ (by decide) (by decide)).trans rfl

theorem fieldDecodes.sel (m : Mv) (u : Alu) : fieldDecodes.Statement (.sel m u) := by
  intro _ _ m' d h
  cases h
  cases u <;> exact (decodeField_trigField _ _ _ (by decide) (by decide)).trans rfl

theorem fieldDecodes.mul (m : Mv) : fieldDecodes.Statement (.mul m) := by
  intro _ _ m' d h
  cases h
  exact (decodeField_trigField _ _ _ (by decide) (by decide)).trans rfl

theorem fieldDecodes.mulh (m : Mv) : fieldDecodes.Statement (.mulh m) := by
  intro _ _ m' d h
  cases h
  exact (decodeField_trigField _ _ _ (by decide) (by decide)).trans rfl

theorem fieldDecodes.mulhU (m : Mv) : fieldDecodes.Statement (.mulhU m) := by
  intro _ _ m' d h
  cases h
  exact (decodeField_trigField _ _ _ (by decide) (by decide)).trans rfl

theorem fieldDecodes.mad (m : Mv) : fieldDecodes.Statement (.mad m) := by
  intro _ _ m' d h
  cases h
  exact (decodeField_trigField _ _ _ (by decide) (by decide)).trans rfl

theorem fieldDecodes.div (m : Mv) : fieldDecodes.Statement (.div m) := by
  intro _ _ m' d h
  cases h
  exact (decodeField_trigField _ _ _ (by decide) (by decide)).trans rfl

theorem fieldDecodes.divU (m : Mv) : fieldDecodes.Statement (.divU m) := by
  intro _ _ m' d h
  cases h
  exact (decodeField_trigField _ _ _ (by decide) (by decide)).trans rfl

theorem fieldDecodes.rem (m : Mv) : fieldDecodes.Statement (.rem m) := by
  intro _ _ m' d h
  cases h
  exact (decodeField_trigField _ _ _ (by decide) (by decide)).trans rfl

theorem fieldDecodes.remU (m : Mv) : fieldDecodes.Statement (.remU m) := by
  intro _ _ m' d h
  cases h
  exact (decodeField_trigField _ _ _ (by decide) (by decide)).trans rfl

theorem fieldDecodes.divideComplete (pk st tok : Nat) : fieldDecodes.Statement (.divideComplete pk st tok) := by
  intro h; cases h

theorem fieldDecodes.ldl (m : Mv) (f : BitVec 3) : fieldDecodes.Statement (.ldl m f) := by
  intro _ _ m' d h
  cases h
  have hb : f = 0 ∨ f = 1 ∨ f = 2 ∨ f = 3 ∨ f = 4 ∨ f = 5 ∨ f = 6 ∨ f = 7 := by clear * -; revert f; decide
  rcases hb with rfl | rfl | rfl | rfl | rfl | rfl | rfl | rfl <;> exact (decodeField_trigField _ _ _ (by decide) (by decide)).trans rfl

theorem fieldDecodes.stl (m : Mv) (z : BitVec 2) : fieldDecodes.Statement (.stl m z) := by
  intro _ _ m' d h
  cases h
  have hb : z = 0 ∨ z = 1 ∨ z = 2 ∨ z = 3 := by clear * -; revert z; decide
  rcases hb with rfl | rfl | rfl | rfl <;> exact (decodeField_trigField _ _ _ (by decide) (by decide)).trans rfl

theorem fieldDecodes.vldl (m : Mv) : fieldDecodes.Statement (.vldl m) := by
  intro _ _ m' d h
  cases h
  exact (decodeField_trigField _ _ _ (by decide) (by decide)).trans rfl

theorem fieldDecodes.vstl (m : Mv) : fieldDecodes.Statement (.vstl m) := by
  intro _ _ m' d h
  cases h
  exact (decodeField_trigField _ _ _ (by decide) (by decide)).trans rfl

theorem fieldDecodes.atl (m : Mv) (op : AtOp) (w : Bool) : fieldDecodes.Statement (.atl m op w) := by
  intro _ hw m' d h
  replace hw : (m.wf && op.wf w) = true := hw
  cases h
  cases op <;> cases w <;> first | (simp [AtOp.wf] at hw; done) | exact (decodeField_trigField _ _ _ (by decide) (by decide)).trans rfl

theorem fieldDecodes.casl (m : Mv) (w : Bool) : fieldDecodes.Statement (.casl m w) := by
  intro _ _ m' d h
  cases h
  cases w <;> exact (decodeField_trigField _ _ _ (by decide) (by decide)).trans rfl

theorem fieldDecodes.ldg (m : Mv) (f : BitVec 3) : fieldDecodes.Statement (.ldg m f) := by
  intro _ _ m' d h
  cases h
  have hb : f = 0 ∨ f = 1 ∨ f = 2 ∨ f = 3 ∨ f = 4 ∨ f = 5 ∨ f = 6 ∨ f = 7 := by clear * -; revert f; decide
  rcases hb with rfl | rfl | rfl | rfl | rfl | rfl | rfl | rfl <;> exact (decodeField_trigField _ _ _ (by decide) (by decide)).trans rfl

theorem fieldDecodes.ldgAcq (m : Mv) (f : BitVec 3) : fieldDecodes.Statement (.ldgAcq m f) := by
  intro _ _ m' d h
  cases h
  have hb : f = 0 ∨ f = 1 ∨ f = 2 ∨ f = 3 ∨ f = 4 ∨ f = 5 ∨ f = 6 ∨ f = 7 := by clear * -; revert f; decide
  rcases hb with rfl | rfl | rfl | rfl | rfl | rfl | rfl | rfl <;> exact (decodeField_trigField _ _ _ (by decide) (by decide)).trans rfl

theorem fieldDecodes.stg (m : Mv) (z : BitVec 2) : fieldDecodes.Statement (.stg m z) := by
  intro _ _ m' d h
  cases h
  have hb : z = 0 ∨ z = 1 ∨ z = 2 ∨ z = 3 := by clear * -; revert z; decide
  rcases hb with rfl | rfl | rfl | rfl <;> exact (decodeField_trigField _ _ _ (by decide) (by decide)).trans rfl

theorem fieldDecodes.stgRel (m : Mv) (z : BitVec 2) : fieldDecodes.Statement (.stgRel m z) := by
  intro _ _ m' d h
  cases h
  have hb : z = 0 ∨ z = 1 ∨ z = 2 ∨ z = 3 := by clear * -; revert z; decide
  rcases hb with rfl | rfl | rfl | rfl <;> exact (decodeField_trigField _ _ _ (by decide) (by decide)).trans rfl

theorem fieldDecodes.vldg (m : Mv) : fieldDecodes.Statement (.vldg m) := by
  intro _ _ m' d h
  cases h
  exact (decodeField_trigField _ _ _ (by decide) (by decide)).trans rfl

theorem fieldDecodes.vldgAcq (m : Mv) : fieldDecodes.Statement (.vldgAcq m) := by
  intro _ _ m' d h
  cases h
  exact (decodeField_trigField _ _ _ (by decide) (by decide)).trans rfl

theorem fieldDecodes.vstg (m : Mv) : fieldDecodes.Statement (.vstg m) := by
  intro _ _ m' d h
  cases h
  exact (decodeField_trigField _ _ _ (by decide) (by decide)).trans rfl

theorem fieldDecodes.vstgRel (m : Mv) : fieldDecodes.Statement (.vstgRel m) := by
  intro _ _ m' d h
  cases h
  exact (decodeField_trigField _ _ _ (by decide) (by decide)).trans rfl

theorem fieldDecodes.atg (m : Mv) (op : AtOp) (w : Bool) (o : Ord4) : fieldDecodes.Statement (.atg m op w o) := by
  intro _ hw m' d h
  replace hw : (m.wf && op.wf w) = true := hw
  cases h
  cases op <;> cases w <;> cases o <;> first | (simp [AtOp.wf] at hw; done) | exact (decodeField_trigField _ _ _ (by decide) (by decide)).trans rfl

theorem fieldDecodes.casg (m : Mv) (w : Bool) (o : Ord4) : fieldDecodes.Statement (.casg m w o) := by
  intro _ _ m' d h
  cases h
  cases w <;> cases o <;> exact (decodeField_trigField _ _ _ (by decide) (by decide)).trans rfl

theorem fieldDecodes.vadd (m : Mv) (t : VT) : fieldDecodes.Statement (.vadd m t) := by
  intro _ _ m' d h
  cases h
  cases t <;> exact (decodeField_trigField _ _ _ (by decide) (by decide)).trans rfl

theorem fieldDecodes.vsub (m : Mv) (t : VT) : fieldDecodes.Statement (.vsub m t) := by
  intro _ _ m' d h
  cases h
  cases t <;> exact (decodeField_trigField _ _ _ (by decide) (by decide)).trans rfl

theorem fieldDecodes.vmul (m : Mv) (t : VT) : fieldDecodes.Statement (.vmul m t) := by
  intro _ hw m' d h
  replace hw : (m.wf && t.noComplex) = true := hw
  cases h
  cases t <;> first | (simp [VT.noComplex] at hw; done) | exact (decodeField_trigField _ _ _ (by decide) (by decide)).trans rfl

theorem fieldDecodes.vfma (m : Mv) (t : VT) : fieldDecodes.Statement (.vfma m t) := by
  intro _ hw m' d h
  replace hw : (m.wf && t.noComplex) = true := hw
  cases h
  cases t <;> first | (simp [VT.noComplex] at hw; done) | exact (decodeField_trigField _ _ _ (by decide) (by decide)).trans rfl

theorem fieldDecodes.vmin (m : Mv) (t : VT) : fieldDecodes.Statement (.vmin m t) := by
  intro _ hw m' d h
  replace hw : (m.wf && t.noComplex) = true := hw
  cases h
  cases t <;> first | (simp [VT.noComplex] at hw; done) | exact (decodeField_trigField _ _ _ (by decide) (by decide)).trans rfl

theorem fieldDecodes.vmax (m : Mv) (t : VT) : fieldDecodes.Statement (.vmax m t) := by
  intro _ hw m' d h
  replace hw : (m.wf && t.noComplex) = true := hw
  cases h
  cases t <;> first | (simp [VT.noComplex] at hw; done) | exact (decodeField_trigField _ _ _ (by decide) (by decide)).trans rfl

theorem fieldDecodes.vabs (m : Mv) (t : VT) : fieldDecodes.Statement (.vabs m t) := by
  intro _ hw m' d h
  replace hw : (m.wf && t.noComplex) = true := hw
  cases h
  cases t <;> first | (simp [VT.noComplex] at hw; done) | exact (decodeField_trigField _ _ _ (by decide) (by decide)).trans rfl

theorem fieldDecodes.vneg (m : Mv) (t : VT) : fieldDecodes.Statement (.vneg m t) := by
  intro _ _ m' d h
  cases h
  cases t <;> exact (decodeField_trigField _ _ _ (by decide) (by decide)).trans rfl

theorem fieldDecodes.vceq (m : Mv) (t : VT) : fieldDecodes.Statement (.vceq m t) := by
  intro _ _ m' d h
  cases h
  cases t <;> exact (decodeField_trigField _ _ _ (by decide) (by decide)).trans rfl

theorem fieldDecodes.vclt (m : Mv) (t : VT) : fieldDecodes.Statement (.vclt m t) := by
  intro _ hw m' d h
  replace hw : (m.wf && t.noComplex) = true := hw
  cases h
  cases t <;> first | (simp [VT.noComplex] at hw; done) | exact (decodeField_trigField _ _ _ (by decide) (by decide)).trans rfl

theorem fieldDecodes.vcle (m : Mv) (t : VT) : fieldDecodes.Statement (.vcle m t) := by
  intro _ hw m' d h
  replace hw : (m.wf && t.noComplex) = true := hw
  cases h
  cases t <;> first | (simp [VT.noComplex] at hw; done) | exact (decodeField_trigField _ _ _ (by decide) (by decide)).trans rfl

theorem fieldDecodes.vsel (m : Mv) (t : VT) : fieldDecodes.Statement (.vsel m t) := by
  intro _ _ m' d h
  cases h
  cases t <;> exact (decodeField_trigField _ _ _ (by decide) (by decide)).trans rfl

theorem fieldDecodes.vand (m : Mv) : fieldDecodes.Statement (.vand m) := by
  intro _ _ m' d h
  cases h
  exact (decodeField_trigField _ _ _ (by decide) (by decide)).trans rfl

theorem fieldDecodes.vor (m : Mv) : fieldDecodes.Statement (.vor m) := by
  intro _ _ m' d h
  cases h
  exact (decodeField_trigField _ _ _ (by decide) (by decide)).trans rfl

theorem fieldDecodes.vxor (m : Mv) : fieldDecodes.Statement (.vxor m) := by
  intro _ _ m' d h
  cases h
  exact (decodeField_trigField _ _ _ (by decide) (by decide)).trans rfl

theorem fieldDecodes.vshl (m : Mv) : fieldDecodes.Statement (.vshl m) := by
  intro _ _ m' d h
  cases h
  exact (decodeField_trigField _ _ _ (by decide) (by decide)).trans rfl

theorem fieldDecodes.vshr (m : Mv) : fieldDecodes.Statement (.vshr m) := by
  intro _ _ m' d h
  cases h
  exact (decodeField_trigField _ _ _ (by decide) (by decide)).trans rfl

theorem fieldDecodes.vcvt (m : Mv) (r : RMode) : fieldDecodes.Statement (.vcvt m r) := by
  intro _ _ m' d h
  cases h
  cases r <;> exact (decodeField_trigField _ _ _ (by decide) (by decide)).trans rfl

theorem fieldDecodes.vshuf (m : Mv) (t : VT) : fieldDecodes.Statement (.vshuf m t) := by
  intro _ _ m' d h
  cases h
  cases t <;> exact (decodeField_trigField _ _ _ (by decide) (by decide)).trans rfl

theorem fieldDecodes.vrsum (m : Mv) (t : VT) : fieldDecodes.Statement (.vrsum m t) := by
  intro _ _ m' d h
  cases h
  cases t <;> exact (decodeField_trigField _ _ _ (by decide) (by decide)).trans rfl

theorem fieldDecodes.vrmax (m : Mv) (t : VT) : fieldDecodes.Statement (.vrmax m t) := by
  intro _ hw m' d h
  replace hw : (m.wf && t.noComplex) = true := hw
  cases h
  cases t <;> first | (simp [VT.noComplex] at hw; done) | exact (decodeField_trigField _ _ _ (by decide) (by decide)).trans rfl

theorem fieldDecodes.vrmaxMin (m : Mv) (t : VT) : fieldDecodes.Statement (.vrmaxMin m t) := by
  intro _ hw m' d h
  replace hw : (m.wf && t.noComplex) = true := hw
  cases h
  cases t <;> first | (simp [VT.noComplex] at hw; done) | exact (decodeField_trigField _ _ _ (by decide) (by decide)).trans rfl

theorem fieldDecodes.vbcast (m : Mv) (t : VT) : fieldDecodes.Statement (.vbcast m t) := by
  intro _ _ m' d h
  cases h
  cases t <;> exact (decodeField_trigField _ _ _ (by decide) (by decide)).trans rfl

theorem fieldDecodes.vext (m : Mv) (t : VT) : fieldDecodes.Statement (.vext m t) := by
  intro _ _ m' d h
  cases h
  cases t <;> exact (decodeField_trigField _ _ _ (by decide) (by decide)).trans rfl

theorem fieldDecodes.vmask (m : Mv) : fieldDecodes.Statement (.vmask m) := by
  intro _ _ m' d h
  cases h
  exact (decodeField_trigField _ _ _ (by decide) (by decide)).trans rfl

theorem fieldDecodes.viota (m : Mv) : fieldDecodes.Statement (.viota m) := by
  intro _ _ m' d h
  cases h
  exact (decodeField_trigField _ _ _ (by decide) (by decide)).trans rfl

theorem fieldDecodes.vcmul (m : Mv) : fieldDecodes.Statement (.vcmul m) := by
  intro _ _ m' d h
  cases h
  exact (decodeField_trigField _ _ _ (by decide) (by decide)).trans rfl

theorem fieldDecodes.vcmulConj (m : Mv) : fieldDecodes.Statement (.vcmulConj m) := by
  intro _ _ m' d h
  cases h
  exact (decodeField_trigField _ _ _ (by decide) (by decide)).trans rfl

theorem fieldDecodes.mcfg (m : Mv) : fieldDecodes.Statement (.mcfg m) := by
  intro _ _ m' d h
  cases h
  exact (decodeField_trigField _ _ _ (by decide) (by decide)).trans rfl

theorem fieldDecodes.mld (m : Mv) : fieldDecodes.Statement (.mld m) := by
  intro _ _ m' d h
  cases h
  exact (decodeField_trigField _ _ _ (by decide) (by decide)).trans rfl

theorem fieldDecodes.mldw (m : Mv) : fieldDecodes.Statement (.mldw m) := by
  intro _ _ m' d h
  cases h
  exact (decodeField_trigField _ _ _ (by decide) (by decide)).trans rfl

theorem fieldDecodes.mstRaw (m : Mv) : fieldDecodes.Statement (.mstRaw m) := by
  intro _ _ m' d h
  cases h
  exact (decodeField_trigField _ _ _ (by decide) (by decide)).trans rfl

theorem fieldDecodes.mstBf16 (m : Mv) : fieldDecodes.Statement (.mstBf16 m) := by
  intro _ _ m' d h
  cases h
  exact (decodeField_trigField _ _ _ (by decide) (by decide)).trans rfl

theorem fieldDecodes.mstF32 (m : Mv) : fieldDecodes.Statement (.mstF32 m) := by
  intro _ _ m' d h
  cases h
  exact (decodeField_trigField _ _ _ (by decide) (by decide)).trans rfl

theorem fieldDecodes.mzero (m : Mv) : fieldDecodes.Statement (.mzero m) := by
  intro _ _ m' d h
  cases h
  exact (decodeField_trigField _ _ _ (by decide) (by decide)).trans rfl

theorem fieldDecodes.mma (m : Mv) : fieldDecodes.Statement (.mma m) := by
  intro _ _ m' d h
  cases h
  exact (decodeField_trigField _ _ _ (by decide) (by decide)).trans rfl

theorem fieldDecodes.mmas (m : Mv) : fieldDecodes.Statement (.mmas m) := by
  intro _ _ m' d h
  cases h
  exact (decodeField_trigField _ _ _ (by decide) (by decide)).trans rfl

theorem fieldDecodes.mmaf (m : Mv) : fieldDecodes.Statement (.mmaf m) := by
  intro _ _ m' d h
  cases h
  exact (decodeField_trigField _ _ _ (by decide) (by decide)).trans rfl

theorem fieldDecodes.cmma (m : Mv) : fieldDecodes.Statement (.cmma m) := by
  intro _ _ m' d h
  cases h
  exact (decodeField_trigField _ _ _ (by decide) (by decide)).trans rfl

theorem fieldDecodes.matrixEntryExecute (pk : Nat) : fieldDecodes.Statement (.matrixEntryExecute pk) := by
  intro h; cases h

theorem fieldDecodes.kexp (m : Mv) (bf : Bool) : fieldDecodes.Statement (.kexp m bf) := by
  intro _ _ m' d h
  cases h
  cases bf <;> exact (decodeField_trigField _ _ _ (by decide) (by decide)).trans rfl

theorem fieldDecodes.kexp2 (m : Mv) (bf : Bool) : fieldDecodes.Statement (.kexp2 m bf) := by
  intro _ _ m' d h
  cases h
  cases bf <;> exact (decodeField_trigField _ _ _ (by decide) (by decide)).trans rfl

theorem fieldDecodes.klog (m : Mv) (bf : Bool) : fieldDecodes.Statement (.klog m bf) := by
  intro _ _ m' d h
  cases h
  cases bf <;> exact (decodeField_trigField _ _ _ (by decide) (by decide)).trans rfl

theorem fieldDecodes.klog2 (m : Mv) (bf : Bool) : fieldDecodes.Statement (.klog2 m bf) := by
  intro _ _ m' d h
  cases h
  cases bf <;> exact (decodeField_trigField _ _ _ (by decide) (by decide)).trans rfl

theorem fieldDecodes.krcp (m : Mv) (bf : Bool) : fieldDecodes.Statement (.krcp m bf) := by
  intro _ _ m' d h
  cases h
  cases bf <;> exact (decodeField_trigField _ _ _ (by decide) (by decide)).trans rfl

theorem fieldDecodes.krsq (m : Mv) (bf : Bool) : fieldDecodes.Statement (.krsq m bf) := by
  intro _ _ m' d h
  cases h
  cases bf <;> exact (decodeField_trigField _ _ _ (by decide) (by decide)).trans rfl

theorem fieldDecodes.ksqrt (m : Mv) (bf : Bool) : fieldDecodes.Statement (.ksqrt m bf) := by
  intro _ _ m' d h
  cases h
  cases bf <;> exact (decodeField_trigField _ _ _ (by decide) (by decide)).trans rfl

theorem fieldDecodes.ksin (m : Mv) (bf : Bool) : fieldDecodes.Statement (.ksin m bf) := by
  intro _ _ m' d h
  cases h
  cases bf <;> exact (decodeField_trigField _ _ _ (by decide) (by decide)).trans rfl

theorem fieldDecodes.kcos (m : Mv) (bf : Bool) : fieldDecodes.Statement (.kcos m bf) := by
  intro _ _ m' d h
  cases h
  cases bf <;> exact (decodeField_trigField _ _ _ (by decide) (by decide)).trans rfl

theorem fieldDecodes.ktanh (m : Mv) (bf : Bool) : fieldDecodes.Statement (.ktanh m bf) := by
  intro _ _ m' d h
  cases h
  cases bf <;> exact (decodeField_trigField _ _ _ (by decide) (by decide)).trans rfl

theorem fieldDecodes.ksigm (m : Mv) (bf : Bool) : fieldDecodes.Statement (.ksigm m bf) := by
  intro _ _ m' d h
  cases h
  cases bf <;> exact (decodeField_trigField _ _ _ (by decide) (by decide)).trans rfl

theorem fieldDecodes.kerf (m : Mv) (bf : Bool) : fieldDecodes.Statement (.kerf m bf) := by
  intro _ _ m' d h
  cases h
  cases bf <;> exact (decodeField_trigField _ _ _ (by decide) (by decide)).trans rfl

theorem fieldDecodes.keystoneAccept (mod k : Nat) : fieldDecodes.Statement (.keystoneAccept mod k) := by
  intro h; cases h

theorem fieldDecodes.keystoneResult (pk st entry tok : Nat) (v : Value) : fieldDecodes.Statement (.keystoneResult pk st entry tok v) := by
  intro h; cases h

theorem fieldDecodes.send (m : Mv) : fieldDecodes.Statement (.send m) := by
  intro _ _ m' d h
  cases h
  exact (decodeField_trigField _ _ _ (by decide) (by decide)).trans rfl

theorem fieldDecodes.sendRed (m : Mv) : fieldDecodes.Statement (.sendRed m) := by
  intro _ _ m' d h
  cases h
  exact (decodeField_trigField _ _ _ (by decide) (by decide)).trans rfl

theorem fieldDecodes.reply (m : Mv) : fieldDecodes.Statement (.reply m) := by
  intro _ _ m' d h
  cases h
  exact (decodeField_trigField _ _ _ (by decide) (by decide)).trans rfl

theorem fieldDecodes.fwd (m : Mv) : fieldDecodes.Statement (.fwd m) := by
  intro _ _ m' d h
  cases h
  exact (decodeField_trigField _ _ _ (by decide) (by decide)).trans rfl

theorem fieldDecodes.mcast (m : Mv) : fieldDecodes.Statement (.mcast m) := by
  intro _ _ m' d h
  cases h
  exact (decodeField_trigField _ _ _ (by decide) (by decide)).trans rfl

theorem fieldDecodes.mstat (m : Mv) : fieldDecodes.Statement (.mstat m) := by
  intro _ _ m' d h
  cases h
  exact (decodeField_trigField _ _ _ (by decide) (by decide)).trans rfl

theorem fieldDecodes.sarm (m : Mv) : fieldDecodes.Statement (.sarm m) := by
  intro _ _ m' d h
  cases h
  exact (decodeField_trigField _ _ _ (by decide) (by decide)).trans rfl

theorem fieldDecodes.sset (m : Mv) : fieldDecodes.Statement (.sset m) := by
  intro _ _ m' d h
  cases h
  exact (decodeField_trigField _ _ _ (by decide) (by decide)).trans rfl

theorem fieldDecodes.sadd (m : Mv) : fieldDecodes.Statement (.sadd m) := by
  intro _ _ m' d h
  cases h
  exact (decodeField_trigField _ _ _ (by decide) (by decide)).trans rfl

theorem fieldDecodes.sradd (m : Mv) : fieldDecodes.Statement (.sradd m) := by
  intro _ _ m' d h
  cases h
  exact (decodeField_trigField _ _ _ (by decide) (by decide)).trans rfl

theorem fieldDecodes.sarv (m : Mv) : fieldDecodes.Statement (.sarv m) := by
  intro _ _ m' d h
  cases h
  exact (decodeField_trigField _ _ _ (by decide) (by decide)).trans rfl

theorem fieldDecodes.swait (m : Mv) : fieldDecodes.Statement (.swait m) := by
  intro _ _ m' d h
  cases h
  exact (decodeField_trigField _ _ _ (by decide) (by decide)).trans rfl

theorem fieldDecodes.swaitPh (m : Mv) : fieldDecodes.Statement (.swaitPh m) := by
  intro _ _ m' d h
  cases h
  exact (decodeField_trigField _ _ _ (by decide) (by decide)).trans rfl

theorem fieldDecodes.sget (m : Mv) : fieldDecodes.Statement (.sget m) := by
  intro _ _ m' d h
  cases h
  exact (decodeField_trigField _ _ _ (by decide) (by decide)).trans rfl

theorem fieldDecodes.sread (m : Mv) : fieldDecodes.Statement (.sread m) := by
  intro _ _ m' d h
  cases h
  exact (decodeField_trigField _ _ _ (by decide) (by decide)).trans rfl

theorem fieldDecodes.swrite (m : Mv) : fieldDecodes.Statement (.swrite m) := by
  intro _ _ m' d h
  cases h
  exact (decodeField_trigField _ _ _ (by decide) (by decide)).trans rfl

theorem fieldDecodes.sgath (m : Mv) : fieldDecodes.Statement (.sgath m) := by
  intro _ _ m' d h
  cases h
  exact (decodeField_trigField _ _ _ (by decide) (by decide)).trans rfl

theorem fieldDecodes.sscat (m : Mv) : fieldDecodes.Statement (.sscat m) := by
  intro _ _ m' d h
  cases h
  exact (decodeField_trigField _ _ _ (by decide) (by decide)).trans rfl

theorem fieldDecodes.sseg (m : Mv) : fieldDecodes.Statement (.sseg m) := by
  intro _ _ m' d h
  cases h
  exact (decodeField_trigField _ _ _ (by decide) (by decide)).trans rfl

theorem fieldDecodes.sxch (m : Mv) : fieldDecodes.Statement (.sxch m) := by
  intro _ _ m' d h
  cases h
  exact (decodeField_trigField _ _ _ (by decide) (by decide)).trans rfl

theorem fieldDecodes.swld (m : Mv) : fieldDecodes.Statement (.swld m) := by
  intro _ _ m' d h
  cases h
  exact (decodeField_trigField _ _ _ (by decide) (by decide)).trans rfl

theorem fieldDecodes.scanc (m : Mv) : fieldDecodes.Statement (.scanc m) := by
  intro _ _ m' d h
  cases h
  exact (decodeField_trigField _ _ _ (by decide) (by decide)).trans rfl

theorem fieldDecodes.crd (m : Mv) : fieldDecodes.Statement (.crd m) := by
  intro _ _ m' d h
  cases h
  exact (decodeField_trigField _ _ _ (by decide) (by decide)).trans rfl

theorem fieldDecodes.cwr (m : Mv) : fieldDecodes.Statement (.cwr m) := by
  intro _ _ m' d h
  cases h
  exact (decodeField_trigField _ _ _ (by decide) (by decide)).trans rfl

theorem fieldDecodes.writeWindow (m : Mv) : fieldDecodes.Statement (.writeWindow m) := by
  intro h; cases h

theorem fieldDecodes.writeWeir (m : Mv) : fieldDecodes.Statement (.writeWeir m) := by
  intro h; cases h

theorem fieldDecodes.writeSeed (m : Mv) : fieldDecodes.Statement (.writeSeed m) := by
  intro h; cases h

theorem fieldDecodes.writeSched (m : Mv) : fieldDecodes.Statement (.writeSched m) := by
  intro h; cases h

theorem fieldDecodes.writeXlroot (m : Mv) : fieldDecodes.Statement (.writeXlroot m) := by
  intro h; cases h

theorem fieldDecodes.acrt (m : Mv) : fieldDecodes.Statement (.acrt m) := by
  intro _ _ m' d h
  cases h
  exact (decodeField_trigField _ _ _ (by decide) (by decide)).trans rfl

theorem fieldDecodes.aret (m : Mv) : fieldDecodes.Statement (.aret m) := by
  intro _ _ m' d h
  cases h
  exact (decodeField_trigField _ _ _ (by decide) (by decide)).trans rfl

theorem fieldDecodes.gdone (m : Mv) : fieldDecodes.Statement (.gdone m) := by
  intro _ _ m' d h
  cases h
  exact (decodeField_trigField _ _ _ (by decide) (by decide)).trans rfl

theorem fieldDecodes.gcncl (m : Mv) : fieldDecodes.Statement (.gcncl m) := by
  intro _ _ m' d h
  cases h
  exact (decodeField_trigField _ _ _ (by decide) (by decide)).trans rfl

theorem fieldDecodes.tlbi (m : Mv) : fieldDecodes.Statement (.tlbi m) := by
  intro _ _ m' d h
  cases h
  exact (decodeField_trigField _ _ _ (by decide) (by decide)).trans rfl

theorem fieldDecodes.move (m : Mv) (d : MoveDest) : fieldDecodes.Statement (.move m d) := by
  intro _ _ m' d' h
  cases h
  cases d with
  | x r => 
    have hb : r = 0 ∨ r = 1 ∨ r = 2 ∨ r = 3 ∨ r = 4 ∨ r = 5 ∨ r = 6 ∨ r = 7 ∨ r = 8 ∨ r = 9 ∨ r = 10 ∨ r = 11 ∨ r = 12 ∨ r = 13 ∨ r = 14 ∨ r = 15 ∨ r = 16 ∨ r = 17 ∨ r = 18 ∨ r = 19 ∨ r = 20 ∨ r = 21 ∨ r = 22 ∨ r = 23 ∨ r = 24 ∨ r = 25 ∨ r = 26 ∨ r = 27 ∨ r = 28 ∨ r = 29 ∨ r = 30 ∨ r = 31 := by clear * -; revert r; decide
    rcases hb with rfl | rfl | rfl | rfl | rfl | rfl | rfl | rfl | rfl | rfl | rfl | rfl | rfl | rfl | rfl | rfl | rfl | rfl | rfl | rfl | rfl | rfl | rfl | rfl | rfl | rfl | rfl | rfl | rfl | rfl | rfl | rfl <;> rfl
  | v r =>
    have hb : r = 0 ∨ r = 1 ∨ r = 2 ∨ r = 3 ∨ r = 4 ∨ r = 5 ∨ r = 6 ∨ r = 7 ∨ r = 8 ∨ r = 9 ∨ r = 10 ∨ r = 11 ∨ r = 12 ∨ r = 13 ∨ r = 14 ∨ r = 15 ∨ r = 16 ∨ r = 17 ∨ r = 18 ∨ r = 19 ∨ r = 20 ∨ r = 21 ∨ r = 22 ∨ r = 23 ∨ r = 24 ∨ r = 25 ∨ r = 26 ∨ r = 27 ∨ r = 28 ∨ r = 29 ∨ r = 30 ∨ r = 31 := by clear * -; revert r; decide
    rcases hb with rfl | rfl | rfl | rfl | rfl | rfl | rfl | rfl | rfl | rfl | rfl | rfl | rfl | rfl | rfl | rfl | rfl | rfl | rfl | rfl | rfl | rfl | rfl | rfl | rfl | rfl | rfl | rfl | rfl | rfl | rfl | rfl <;> rfl
  | c r =>
    have hb : r = 0 ∨ r = 1 ∨ r = 2 ∨ r = 3 ∨ r = 4 ∨ r = 5 ∨ r = 6 ∨ r = 7 := by clear * -; revert r; decide
    rcases hb with rfl | rfl | rfl | rfl | rfl | rfl | rfl | rfl <;> rfl
  | q i => fin_cases i <;> rfl
  | port o => cases o <;> rfl

theorem fieldDecodes.nop : fieldDecodes.Statement (.nop) := by
  intro _ _ m d h; cases h

theorem fieldDecodes.messageAdmission (g : Msg) (frm : AckTo) : fieldDecodes.Statement (.messageAdmission g frm) := by
  intro h; cases h

theorem fieldDecodes.spillwayReturn (pk actor : Nat) : fieldDecodes.Statement (.spillwayReturn pk actor) := by
  intro h; cases h

theorem fieldDecodes.dispatch (pk : Nat) : fieldDecodes.Statement (.dispatch pk) := by
  intro h; cases h

theorem fieldDecodes.runEnd (pk st : Nat) : fieldDecodes.Statement (.runEnd pk st) := by
  intro h; cases h

theorem fieldDecodes.actorLockRelease (pk actor : Nat) : fieldDecodes.Statement (.actorLockRelease pk actor) := by
  intro h; cases h

theorem fieldDecodes.actorRetireComplete (pk actor : Nat) : fieldDecodes.Statement (.actorRetireComplete pk actor) := by
  intro h; cases h

theorem fieldDecodes.watchdogExpiry (pk st : Nat) : fieldDecodes.Statement (.watchdogExpiry pk st) := by
  intro h; cases h

theorem fieldDecodes.outboxResend (e : AckTo) : fieldDecodes.Statement (.outboxResend e) := by
  intro h; cases h

theorem fieldDecodes.acknowledgement (e : AckTo) (status : BitVec 3) : fieldDecodes.Statement (.acknowledgement e status) := by
  intro h; cases h

theorem fieldDecodes.sluiceAddArrival (a : SlAdd) : fieldDecodes.Statement (.sluiceAddArrival a) := by
  intro h; cases h

theorem fieldDecodes.sluiceRecheck (pk sl : Nat) : fieldDecodes.Statement (.sluiceRecheck pk sl) := by
  intro h; cases h

theorem fieldDecodes.barrierArriveArrival (a : SlAdd) : fieldDecodes.Statement (.barrierArriveArrival a) := by
  intro h; cases h

theorem fieldDecodes.phaseNoticeArrival (a : SlAdd) : fieldDecodes.Statement (.phaseNoticeArrival a) := by
  intro h; cases h

theorem fieldDecodes.gmTranslationDone (pk st entry tok : Nat) (o : WalkOut) : fieldDecodes.Statement (.gmTranslationDone pk st entry tok o) := by
  intro h; cases h

theorem fieldDecodes.gmReply (a : GmAns) : fieldDecodes.Statement (.gmReply a) := by
  intro h; cases h

theorem fieldDecodes.apertureAccess (r : GmReq) : fieldDecodes.Statement (.apertureAccess r) := by
  intro h; cases h

theorem fieldDecodes.hbmAccess (r : GmReq) : fieldDecodes.Statement (.hbmAccess r) := by
  intro h; cases h

theorem fieldDecodes.ingressAtomic (r : GmReq) : fieldDecodes.Statement (.ingressAtomic r) := by
  intro h; cases h

theorem fieldDecodes.leaseExpiry (mod line tok : Nat) : fieldDecodes.Statement (.leaseExpiry mod line tok) := by
  intro h; cases h

theorem fieldDecodes.leaseRecall (mod line : Nat) : fieldDecodes.Statement (.leaseRecall mod line) := by
  intro h; cases h

theorem fieldDecodes.pageWalk (w : Nat) : fieldDecodes.Statement (.pageWalk w) := by
  intro h; cases h

theorem fieldDecodes.walkMovingRetry (w : Nat) : fieldDecodes.Statement (.walkMovingRetry w) := by
  intro h; cases h

theorem fieldDecodes.dirtyLogMerge (pk : Nat) : fieldDecodes.Statement (.dirtyLogMerge pk) := by
  intro h; cases h

theorem fieldDecodes.invalidationAgent (mod span : Nat) : fieldDecodes.Statement (.invalidationAgent mod span) := by
  intro h; cases h

theorem fieldDecodes.invalidationPier (mod span lp : Nat) : fieldDecodes.Statement (.invalidationPier mod span lp) := by
  intro h; cases h

theorem fieldDecodes.invalidationAbutment (mod abut : Nat) : fieldDecodes.Statement (.invalidationAbutment mod abut) := by
  intro h; cases h

theorem fieldDecodes.invalidationComplete (mod span : Nat) : fieldDecodes.Statement (.invalidationComplete mod span) := by
  intro h; cases h

theorem fieldDecodes.tlbiResend (mod span : Nat) (r : TlbiReq) : fieldDecodes.Statement (.tlbiResend mod span r) := by
  intro h; cases h

theorem fieldDecodes.streamCommandAccept (mod abut : Nat) (c : StreamCmd) : fieldDecodes.Statement (.streamCommandAccept mod abut c) := by
  intro h; cases h

theorem fieldDecodes.streamCommandResend (mod abut : Nat) (c : StreamCmd) : fieldDecodes.Statement (.streamCommandResend mod abut c) := by
  intro h; cases h

theorem fieldDecodes.streamOpen (mod abut sid : Nat) : fieldDecodes.Statement (.streamOpen mod abut sid) := by
  intro h; cases h

theorem fieldDecodes.streamOpenRetry (mod abut sid : Nat) : fieldDecodes.Statement (.streamOpenRetry mod abut sid) := by
  intro h; cases h

theorem fieldDecodes.streamTurn (mod abut : Nat) : fieldDecodes.Statement (.streamTurn mod abut) := by
  intro h; cases h

theorem fieldDecodes.dataFlitArrival (f : Flit) : fieldDecodes.Statement (.dataFlitArrival f) := by
  intro h; cases h

theorem fieldDecodes.flitResend (f : Flit) : fieldDecodes.Statement (.flitResend f) := by
  intro h; cases h

theorem fieldDecodes.weightFlitArrival (f : Flit) : fieldDecodes.Statement (.weightFlitArrival f) := by
  intro h; cases h

theorem fieldDecodes.scratchpadReadRequest (f : Flit) : fieldDecodes.Statement (.scratchpadReadRequest f) := by
  intro h; cases h

theorem fieldDecodes.streamIncrement (mod abut sid : Nat) (cmd : StreamCmd) : fieldDecodes.Statement (.streamIncrement mod abut sid cmd) := by
  intro h; cases h

theorem fieldDecodes.sxchPair (mod abut sid : Nat) : fieldDecodes.Statement (.sxchPair mod abut sid) := by
  intro h; cases h

theorem fieldDecodes.sxchWindowGrant (mod abut sid : Nat) : fieldDecodes.Statement (.sxchWindowGrant mod abut sid) := by
  intro h; cases h

theorem fieldDecodes.multicastCopy (mod tok idx : Nat) : fieldDecodes.Statement (.multicastCopy mod tok idx) := by
  intro h; cases h

theorem fieldDecodes.laggardDetach (mod tok idx : Nat) : fieldDecodes.Statement (.laggardDetach mod tok idx) := by
  intro h; cases h

theorem fieldDecodes.reductionContribution (g : Msg) (frm : AckTo) : fieldDecodes.Statement (.reductionContribution g frm) := by
  intro h; cases h

theorem fieldDecodes.gdoneForward (mod pk : Nat) (graph : BitVec 12) (add : BitVec 32) (frm : AckTo) : fieldDecodes.Statement (.gdoneForward mod pk graph add frm) := by
  intro h; cases h

theorem fieldDecodes.cancel (mod job level id : Nat) : fieldDecodes.Statement (.cancel mod job level id) := by
  intro h; cases h

theorem fieldDecodes.cancelAtPier (pk job level id : Nat) : fieldDecodes.Statement (.cancelAtPier pk job level id) := by
  intro h; cases h

theorem fieldDecodes.flushMarker (mod tok : Nat) : fieldDecodes.Statement (.flushMarker mod tok) := by
  intro h; cases h

theorem fieldDecodes.cancelEnd (mod : Nat) : fieldDecodes.Statement (.cancelEnd mod) := by
  intro h; cases h

theorem fieldDecodes.phaseOpen (mod job phase : Nat) : fieldDecodes.Statement (.phaseOpen mod job phase) := by
  intro h; cases h

theorem fieldDecodes.partitionHalt (mod part hs : Nat) : fieldDecodes.Statement (.partitionHalt mod part hs) := by
  intro h; cases h

theorem fieldDecodes.haltAtPier (pk : Nat) : fieldDecodes.Statement (.haltAtPier pk) := by
  intro h; cases h

theorem fieldDecodes.haltAtAbutment (mod part abut : Nat) : fieldDecodes.Statement (.haltAtAbutment mod part abut) := by
  intro h; cases h

theorem fieldDecodes.haltAck (mod part who : Nat) : fieldDecodes.Statement (.haltAck mod part who) := by
  intro h; cases h

theorem fieldDecodes.saveLimitExpiry (pk : Nat) : fieldDecodes.Statement (.saveLimitExpiry pk) := by
  intro h; cases h

theorem fieldDecodes.shadowSwap (mod hs part : Nat) : fieldDecodes.Statement (.shadowSwap mod hs part) := by
  intro h; cases h

theorem fieldDecodes.streamContextLoad (mod abut part : Nat) : fieldDecodes.Statement (.streamContextLoad mod abut part) := by
  intro h; cases h

theorem fieldDecodes.partitionEvict (mod part hs : Nat) : fieldDecodes.Statement (.partitionEvict mod part hs) := by
  intro h; cases h

theorem fieldDecodes.partitionRestore (mod part hs : Nat) : fieldDecodes.Statement (.partitionRestore mod part hs) := by
  intro h; cases h

theorem fieldDecodes.parkedRunRestore (pk : Nat) : fieldDecodes.Statement (.parkedRunRestore pk) := by
  intro h; cases h

theorem fieldDecodes.gangSliceStart (mod slice : Nat) : fieldDecodes.Statement (.gangSliceStart mod slice) := by
  intro h; cases h

theorem fieldDecodes.holdBroadcast (mod job : Nat) (on : Bool) : fieldDecodes.Statement (.holdBroadcast mod job on) := by
  intro h; cases h

theorem fieldDecodes.healthProbe (mod : Nat) : fieldDecodes.Statement (.healthProbe mod) := by
  intro h; cases h

theorem fieldDecodes.hungPier (pk : Nat) : fieldDecodes.Statement (.hungPier pk) := by
  intro h; cases h

theorem fieldDecodes.deferredFaultReport (d : Deferred) : fieldDecodes.Statement (.deferredFaultReport d) := by
  intro h; cases h

theorem fieldDecodes.createActor (pk : Nat) (g : Msg) : fieldDecodes.Statement (.createActor pk g) := by
  intro h; cases h

theorem fieldDecodes.resume (pk : Nat) (g : Msg) : fieldDecodes.Statement (.resume pk g) := by
  intro h; cases h

theorem fieldDecodes.drop (pk : Nat) (g : Msg) : fieldDecodes.Statement (.drop pk g) := by
  intro h; cases h

theorem fieldDecodes.evictActor (pk : Nat) (g : Msg) : fieldDecodes.Statement (.evictActor pk g) := by
  intro h; cases h

theorem fieldDecodes.evictWaitTimeout (pk : Nat) (g : Msg) : fieldDecodes.Statement (.evictWaitTimeout pk g) := by
  intro h; cases h

theorem fieldDecodes.restoreActor (pk : Nat) (g : Msg) : fieldDecodes.Statement (.restoreActor pk g) := by
  intro h; cases h

theorem fieldDecodes.streamResume (pk : Nat) (g : Msg) : fieldDecodes.Statement (.streamResume pk g) := by
  intro h; cases h

theorem fieldDecodes.streamStop (pk : Nat) (g : Msg) : fieldDecodes.Statement (.streamStop pk g) := by
  intro h; cases h

theorem fieldDecodes.harvest (pk : Nat) (g : Msg) : fieldDecodes.Statement (.harvest pk g) := by
  intro h; cases h

theorem fieldDecodes.harvestComplete (mod span : Nat) : fieldDecodes.Statement (.harvestComplete mod span) := by
  intro h; cases h

theorem fieldDecodes.phaseBegin (pk : Nat) (g : Msg) : fieldDecodes.Statement (.phaseBegin pk g) := by
  intro h; cases h

theorem fieldDecodes.reservedServiceCommand (pk : Nat) (g : Msg) : fieldDecodes.Statement (.reservedServiceCommand pk g) := by
  intro h; cases h

theorem fieldDecodes.serviceForwardToHost (pk : Nat) (g : Msg) : fieldDecodes.Statement (.serviceForwardToHost pk g) := by
  intro h; cases h

theorem fieldDecodes.faultRecordForward (pk : Nat) (g : Msg) : fieldDecodes.Statement (.faultRecordForward pk g) := by
  intro h; cases h

theorem fieldDecodes.jobLoaderRun (mod job : Nat) : fieldDecodes.Statement (.jobLoaderRun mod job) := by
  intro h; cases h

theorem fieldDecodes.frameResendTimeout (mod : Nat) : fieldDecodes.Statement (.frameResendTimeout mod) := by
  intro h; cases h

theorem fieldDecodes.attestationSigned (mod tok : Nat) : fieldDecodes.Statement (.attestationSigned mod tok) := by
  intro h; cases h

theorem fieldDecodes.powerMeasure (mod : Nat) : fieldDecodes.Statement (.powerMeasure mod) := by
  intro h; cases h

theorem fieldDecodes.replayDivergence (pk : Nat) : fieldDecodes.Statement (.replayDivergence pk) := by
  intro h; cases h

theorem fieldDecodes.portDown (mod port : Nat) : fieldDecodes.Statement (.portDown mod port) := by
  intro h; cases h

theorem fieldDecodes.bringUp (mod : Nat) : fieldDecodes.Statement (.bringUp mod) := by
  intro h; cases h

theorem fieldDecodes.matrixEntryComplete (pk : Nat) : fieldDecodes.Statement (.matrixEntryComplete pk) := by
  intro h; cases h

theorem fieldDecodes.resultPortWrite (pk st unit tok : Nat) : fieldDecodes.Statement (.resultPortWrite pk st unit tok) := by
  intro h; cases h

theorem fieldDecodes.bankRefresh (mod bank : Nat) : fieldDecodes.Statement (.bankRefresh mod bank) := by
  intro h; cases h

theorem fieldDecodes.exchangeFlitArrival (f : Flit) : fieldDecodes.Statement (.exchangeFlitArrival f) := by
  intro h; cases h

theorem fieldDecodes.portRetrainComplete (mod port : Nat) : fieldDecodes.Statement (.portRetrainComplete mod port) := by
  intro h; cases h

theorem fieldDecodes.frameJobLoad (mod : Nat) (f : Frame) (img : JobImage) (last : Bool) : fieldDecodes.Statement (.frameJobLoad mod f img last) := by
  intro h; cases h

theorem fieldDecodes.framePut (mod : Nat) (f : Frame) : fieldDecodes.Statement (.framePut mod f) := by
  intro h; cases h

theorem fieldDecodes.frameGet (mod : Nat) (f : Frame) : fieldDecodes.Statement (.frameGet mod f) := by
  intro h; cases h

theorem fieldDecodes.frameMessageInject (mod : Nat) (f : Frame) : fieldDecodes.Statement (.frameMessageInject mod f) := by
  intro h; cases h

theorem fieldDecodes.frameSequenceQuery (mod : Nat) (f : Frame) : fieldDecodes.Statement (.frameSequenceQuery mod f) := by
  intro h; cases h

theorem fieldDecodes.frameSequenceAnswer (mod : Nat) (f : Frame) : fieldDecodes.Statement (.frameSequenceAnswer mod f) := by
  intro h; cases h

theorem fieldDecodes.frameAckOnly (mod : Nat) (f : Frame) : fieldDecodes.Statement (.frameAckOnly mod f) := by
  intro h; cases h

theorem fieldDecodes.statusGet (mod : Nat) (f : Frame) : fieldDecodes.Statement (.statusGet mod f) := by
  intro h; cases h

theorem fieldDecodes.attestationNonce (mod : Nat) (f : Frame) : fieldDecodes.Statement (.attestationNonce mod f) := by
  intro h; cases h

theorem fieldDecodes.attestationReportGet (mod : Nat) (f : Frame) : fieldDecodes.Statement (.attestationReportGet mod f) := by
  intro h; cases h

theorem fieldDecodes.powerCapWrite (mod : Nat) (f : Frame) : fieldDecodes.Statement (.powerCapWrite mod f) := by
  intro h; cases h

theorem fieldDecodes.telemetryGet (mod : Nat) (f : Frame) : fieldDecodes.Statement (.telemetryGet mod f) := by
  intro h; cases h

theorem fieldDecodes.freeze (mod : Nat) (f : Frame) : fieldDecodes.Statement (.freeze mod f) := by
  intro h; cases h

theorem fieldDecodes.scanReadoutGet (mod : Nat) (f : Frame) : fieldDecodes.Statement (.scanReadoutGet mod f) := by
  intro h; cases h

theorem fieldDecodes.rrOff (mod : Nat) (f : Frame) : fieldDecodes.Statement (.rrOff mod f) := by
  intro h; cases h

theorem fieldDecodes.rrRecord (mod : Nat) (f : Frame) : fieldDecodes.Statement (.rrRecord mod f) := by
  intro h; cases h

theorem fieldDecodes.rrReplay (mod : Nat) (f : Frame) : fieldDecodes.Statement (.rrReplay mod f) := by
  intro h; cases h

theorem fieldDecodes.uncorrectableError (mod kind unit off : Nat) : fieldDecodes.Statement (.uncorrectableError mod kind unit off) := by
  intro h; cases h

theorem fieldDecodes.correctedError (mod kind : Nat) : fieldDecodes.Statement (.correctedError mod kind) := by
  intro h; cases h

theorem fieldDecodes.torusLaneFailure (mod port lane : Nat) : fieldDecodes.Statement (.torusLaneFailure mod port lane) := by
  intro h; cases h

theorem fieldDecodes.placementTableWrite (mod part : Nat) (job : BitVec 12) (halfspans : BitVec 8) (tbl : FMap (BitVec 32)) : fieldDecodes.Statement (.placementTableWrite mod part job halfspans tbl) := by
  intro h; cases h

theorem fieldDecodes.groupEntryWrite (mod id : Nat) (hdr : Word) (members : List (BitVec 28)) : fieldDecodes.Statement (.groupEntryWrite mod id hdr members) := by
  intro h; cases h

theorem fieldDecodes.gangScheduleWrite (mod : Nat) (o : Word) (p : BitVec 32) (slices : FMap Word) : fieldDecodes.Statement (.gangScheduleWrite mod o p slices) := by
  intro h; cases h

theorem fieldDecodes.debugHalt (mod site : Nat) : fieldDecodes.Statement (.debugHalt mod site) := by
  intro h; cases h

theorem fieldDecodes.debugRelease (mod site : Nat) : fieldDecodes.Statement (.debugRelease mod site) := by
  intro h; cases h

theorem fieldDecodes.overtemp (mod die : Nat) (t : Word) : fieldDecodes.Statement (.overtemp mod die t) := by
  intro h; cases h

theorem fieldDecodes.timeBaseFlit (mod : Nat) (v : Word) : fieldDecodes.Statement (.timeBaseFlit mod v) := by
  intro h; cases h

theorem fieldDecodes.spareHbmPc (mod stack pc : Nat) : fieldDecodes.Statement (.spareHbmPc mod stack pc) := by
  intro h; cases h

theorem fieldDecodes.spareAbutment (mod abut : Nat) : fieldDecodes.Statement (.spareAbutment mod abut) := by
  intro h; cases h

theorem fieldDecodes.spareTorusLane (mod port lane : Nat) : fieldDecodes.Statement (.spareTorusLane mod port lane) := by
  intro h; cases h

theorem fieldDecodes.sparePierRow (mod span row : Nat) : fieldDecodes.Statement (.sparePierRow mod span row) := by
  intro h; cases h

end Sys2Proof.Laws
end

