-- ==== Sys2Proof/Laws/Send.lean ====
section
/-!
SUPPORT. What sending can do, said once: a flit that leaves, an answer, an outbox entry, a record. Nothing but the
calendar, the counters, the outbox of a pier, its paths and the copies of a group changes.
-/

namespace Sys2Proof.Machine

/-- A pier without its outbox and the times of its paths. -/
def Pier.noSend (p : Pier) : Pier := { p with outbox := [], pathLast := [] }
/-- A module without its multicast copies. -/
def Module.noCopies (m : Module) : Module := { m with copies := [] }

/-- The second state is the first after some sending. -/
structure SendsOnly (s t : State) : Prop where
  piers : ∀ pk, (getPier t pk).noSend = (getPier s pk).noSend
  mods : ∀ m, (getMod t m).noCopies = (getMod s m).noCopies
  rest : t.cycle = s.cycle ∧ t.agenda = s.agenda ∧ t.issue = s.issue ∧ t.torus = s.torus ∧ t.sites = s.sites ∧ t.jobs = s.jobs ∧
    t.walks = s.walks

theorem SendsOnly.refl (s : State) : SendsOnly s s := ⟨fun _ => rfl, fun _ => rfl, rfl, rfl, rfl, rfl, rfl, rfl, rfl⟩

theorem SendsOnly.trans {s t u : State} (h : SendsOnly s t) (k : SendsOnly t u) : SendsOnly s u := by
  refine ⟨fun pk => (k.piers pk).trans (h.piers pk), fun m => (k.mods m).trans (h.mods m), ?_⟩
  obtain ⟨a, b, c, d, e, f, g⟩ := h.rest
  obtain ⟨a', b', c', d', e', f', g'⟩ := k.rest
  exact ⟨a'.trans a, b'.trans b, c'.trans c, d'.trans d, e'.trans e, f'.trans f, g'.trans g⟩

/-- A change of the outbox and of the paths of a pier alone. -/
theorem sendsOnly_adjPier (s : State) (pk : Nat) (f : Pier → Pier) (hf : ∀ p, (f p).noSend = p.noSend) :
    SendsOnly s (adjPier s pk f) := by
  refine ⟨fun k => ?_, fun _ => rfl, rfl, rfl, rfl, rfl, rfl, rfl, rfl⟩
  by_cases h : k = pk
  · subst h; simp [hf]
  · simp [getPier_adjPier_other _ _ _ _ h]

/-- A change of the copies of a module alone. -/
theorem sendsOnly_adjMod (s : State) (m : Nat) (f : Module → Module) (hf : ∀ x, (f x).noCopies = x.noCopies) :
    SendsOnly s (adjMod s m f) := by
  refine ⟨fun _ => rfl, fun k => ?_, rfl, rfl, rfl, rfl, rfl, rfl, rfl⟩
  by_cases h : k = m
  · subst h; simp [hf]
  · simp [getMod_adjMod_other _ _ _ _ h]

theorem sendsOnly_schedule (s : State) (due : Nat) (i : Instr) : SendsOnly s (schedule s due i) :=
  ⟨fun _ => rfl, fun _ => rfl, rfl, rfl, rfl, rfl, rfl, rfl, rfl⟩

theorem sendsOnly_tick1 (s : State) : SendsOnly s (tick1 s) := ⟨fun _ => rfl, fun _ => rfl, rfl, rfl, rfl, rfl, rfl, rfl, rfl⟩

theorem sendsOnly_tok (s : State) (n : Nat) : SendsOnly s { s with tok := n } :=
  ⟨fun _ => rfl, fun _ => rfl, rfl, rfl, rfl, rfl, rfl, rfl, rfl⟩

theorem sendsOnly_launch (s : State) (lat : Nat) (i : Instr) : SendsOnly s (launch s lat i) := by
  unfold launch; split
  · exact sendsOnly_schedule ..
  · exact (sendsOnly_schedule ..).trans (sendsOnly_tick1 _)

theorem sendsOnly_launchOn (s : State) (pk key lat : Nat) (i : Instr) : SendsOnly s (launchOn s pk key lat i) :=
  ((sendsOnly_tick1 s).trans (sendsOnly_adjPier _ pk _ (by intro _; rfl))).trans (sendsOnly_schedule ..)

theorem sendsOnly_answer (s : State) (m : Nat) (pl : Place) (e : AckTo) (st : BitVec 3) : SendsOnly s (answer s m pl e st) := by
  unfold answer; split
  · exact .refl s
  · exact sendsOnly_launch ..

theorem sendsOnly_launchCopy (s : State) (c : MCopy) (i : Nat) : SendsOnly s (launchCopy s c i) := by
  unfold launchCopy
  simp only
  split
  · exact sendsOnly_launchOn ..
  · exact sendsOnly_launch ..

theorem sendsOnly_launchAll (c : MCopy) (l : List Nat) (s : State) : SendsOnly s (List.foldl (fun s i => launchCopy s c i) s l) := by
  induction l generalizing s with
  | nil => exact .refl s
  | cons i l ih => exact (sendsOnly_launchCopy ..).trans (ih ..)

theorem sendsOnly_startCopies (s : State) (pk gr e : Nat) (g : Msg) (x : Group) : SendsOnly s (startCopies s pk gr e g x) := by
  unfold startCopies
  simp only
  have h : ∀ c l, SendsOnly s (List.foldl (fun s i => launchCopy s c i)
      (adjMod { s with tok := s.tok + 1 } (pkMod pk) fun y => { y with copies := y.copies ++ [c] }) l) := fun c l =>
    ((sendsOnly_tok _ _).trans (sendsOnly_adjMod _ _ _ (by intro _; rfl))).trans (sendsOnly_launchAll ..)
  split
  · exact (h _ _).trans (sendsOnly_launch ..)
  · exact h _ _

theorem sendsOnly_sendEntry (s : State) (pk : Nat) (e : OutEntry) : SendsOnly s (sendEntry s pk e) := by
  unfold sendEntry
  simp only
  split
  · split
    · exact sendsOnly_launchOn ..
    · exact sendsOnly_answer ..
  · split
    · exact sendsOnly_launchOn ..
    · exact sendsOnly_answer ..
  · exact sendsOnly_launchOn ..
  · split
    · exact sendsOnly_startCopies ..
    · exact sendsOnly_answer ..
  · exact sendsOnly_launchOn ..

theorem sendsOnly_pumpList (pk : Nat) (l : List OutEntry) (s : State) (done : List OutEntry) :
    SendsOnly s (pumpList s pk done l) := by
  induction l generalizing s done with
  | nil => exact .refl s
  | cons e l ih =>
    unfold pumpList; split
    · exact ((sendsOnly_adjPier s pk _ (by intro _; rfl)).trans (sendsOnly_sendEntry ..)).trans (ih ..)
    · exact ih ..

theorem sendsOnly_pumpOutbox (s : State) (pk : Nat) : SendsOnly s (pumpOutbox s pk) := by
  unfold pumpOutbox; split
  · exact sendsOnly_pumpList ..
  · exact .refl s

/-- An entry that joins an outbox changes nothing but what sending changes. -/
theorem sendsOnly_enqueue (s : State) (pk : Nat) (key : StreamKey) (body : OutBody) (actor : Nat) (runid : BitVec 32)
    (bundle : BitVec 12) (strand : Nat) (move w3 : Word) (unit : BitVec 5) (slot : BitVec 2) (after : List Nat) :
    SendsOnly s (enqueue s pk key body actor runid bundle strand move w3 unit slot after) :=
  ((sendsOnly_tok s _).trans (sendsOnly_adjPier _ pk _ (by intro _; rfl))).trans (sendsOnly_pumpOutbox ..)

/-! What stays readable through it. -/

section
variable {s t : State} (h : SendsOnly s t)
include h

theorem SendsOnly.strands (pk : Nat) : (getPier t pk).strands = (getPier s pk).strands :=
  show (getPier t pk).noSend.strands = (getPier s pk).noSend.strands from by rw [h.piers]
theorem SendsOnly.actors (pk : Nat) : (getPier t pk).actors = (getPier s pk).actors :=
  show (getPier t pk).noSend.actors = (getPier s pk).noSend.actors from by rw [h.piers]
theorem SendsOnly.sluices (pk : Nat) : (getPier t pk).sluices = (getPier s pk).sluices :=
  show (getPier t pk).noSend.sluices = (getPier s pk).noSend.sluices from by rw [h.piers]
theorem SendsOnly.inbox (pk : Nat) : (getPier t pk).inbox = (getPier s pk).inbox :=
  show (getPier t pk).noSend.inbox = (getPier s pk).noSend.inbox from by rw [h.piers]
theorem SendsOnly.spad (pk : Nat) : (getPier t pk).spad = (getPier s pk).spad :=
  show (getPier t pk).noSend.spad = (getPier s pk).noSend.spad from by rw [h.piers]
theorem SendsOnly.code (pk : Nat) : (getPier t pk).code = (getPier s pk).code :=
  show (getPier t pk).noSend.code = (getPier s pk).noSend.code from by rw [h.piers]
theorem SendsOnly.getStrand (pk st : Nat) : getStrand t pk st = getStrand s pk st := by
  simp [Machine.getStrand, pierStrand, h.strands]
theorem SendsOnly.getActor (pk a : Nat) : getActor t pk a = getActor s pk a := by
  simp [Machine.getActor, pierActor, h.actors]
theorem SendsOnly.getSluice (pk n : Nat) : getSluice t pk n = getSluice s pk n := by
  simp [Machine.getSluice, pierSluice, h.sluices]
theorem SendsOnly.hbm (m : Nat) : (getMod t m).hbm = (getMod s m).hbm :=
  show (getMod t m).noCopies.hbm = (getMod s m).noCopies.hbm from by rw [h.mods]
theorem SendsOnly.parts (m : Nat) : (getMod t m).parts = (getMod s m).parts :=
  show (getMod t m).noCopies.parts = (getMod s m).noCopies.parts from by rw [h.mods]
theorem SendsOnly.getSite (k : Nat) : getSite t k = getSite s k := by simp [Machine.getSite, h.rest.2.2.2.2.1]

end

/-! The entries of an outbox survive its sending. -/

theorem pathLast_outbox (s : State) (pk k key due : Nat) :
    (getPier (adjPier s pk fun p => { p with pathLast := fset p.pathLast key due }) k).outbox = (getPier s k).outbox := by
  by_cases h : k = pk
  · subst h; simp
  · simp [getPier_adjPier_other _ _ _ _ h]

theorem launch_outbox (s : State) (lat : Nat) (i : Instr) (k : Nat) : (getPier (launch s lat i) k).outbox = (getPier s k).outbox := by
  unfold launch; split <;> rfl

theorem launchOn_outbox (s : State) (pk key lat : Nat) (i : Instr) (k : Nat) :
    (getPier (launchOn s pk key lat i) k).outbox = (getPier s k).outbox := pathLast_outbox ..

theorem answer_outbox (s : State) (m : Nat) (pl : Place) (e : AckTo) (st : BitVec 3) (k : Nat) :
    (getPier (answer s m pl e st) k).outbox = (getPier s k).outbox := by
  unfold answer; split
  · rfl
  · exact launch_outbox ..

theorem launchCopy_outbox (s : State) (c : MCopy) (i k : Nat) :
    (getPier (launchCopy s c i) k).outbox = (getPier s k).outbox := by
  unfold launchCopy
  simp only
  split
  · exact launchOn_outbox ..
  · exact launch_outbox ..

theorem launchAll_outbox (c : MCopy) (k : Nat) (l : List Nat) (s : State) :
    (getPier (l.foldl (fun s i => launchCopy s c i) s) k).outbox = (getPier s k).outbox := by
  induction l generalizing s with
  | nil => rfl
  | cons i l ih => exact (ih ..).trans (launchCopy_outbox ..)

theorem startCopies_outbox (s : State) (pk gr e : Nat) (g : Msg) (x : Group) (k : Nat) :
    (getPier (startCopies s pk gr e g x) k).outbox = (getPier s k).outbox := by
  unfold startCopies
  simp only
  split
  · exact (launch_outbox ..).trans (launchAll_outbox ..)
  · exact launchAll_outbox ..

theorem sendEntry_outbox (s : State) (pk : Nat) (e : OutEntry) (k : Nat) :
    (getPier (sendEntry s pk e) k).outbox = (getPier s k).outbox := by
  unfold sendEntry
  simp only
  split
  · split
    · exact launchOn_outbox ..
    · exact answer_outbox ..
  · split
    · exact launchOn_outbox ..
    · exact answer_outbox ..
  · exact launchOn_outbox ..
  · split
    · exact startCopies_outbox ..
    · exact answer_outbox ..
  · exact launchOn_outbox ..

/-- Two outboxes hold the same entries, but for what has been sent. -/
def SameEntries (a b : List OutEntry) : Prop := a.map (fun e => { e with sent := true }) = b.map fun e => { e with sent := true }

theorem SameEntries.mem {a b : List OutEntry} (h : SameEntries a b) {e : OutEntry} (he : e ∈ a) :
    ∃ x ∈ b, x.body = e.body ∧ x.tok = e.tok ∧ x.key = e.key ∧ x.actor = e.actor ∧ x.runid = e.runid ∧ x.bundle = e.bundle ∧
      x.strand = e.strand ∧ x.move = e.move ∧ x.after = e.after ∧ x.w3 = e.w3 ∧ x.unit = e.unit ∧ x.slot = e.slot := by
  have h1 : ({ e with sent := true } : OutEntry) ∈ b.map fun e => { e with sent := true } := by
    rw [← h]; exact List.mem_map.2 ⟨e, he, rfl⟩
  obtain ⟨x, hx, hxe⟩ := List.mem_map.1 h1
  simp only [OutEntry.mk.injEq, true_and] at hxe
  exact ⟨x, hx, by simp [hxe]⟩

theorem pumpList_outbox (pk : Nat) (l : List OutEntry) (s : State) (done : List OutEntry) (k : Nat) :
    SameEntries (getPier s k).outbox (getPier (pumpList s pk done l) k).outbox := by
  induction l generalizing s done with
  | nil => rfl
  | cons e l ih =>
    unfold pumpList; split
    · refine Eq.trans ?_ (ih ..)
      rw [sendEntry_outbox]
      by_cases h : k = pk
      · subst h
        simp only [getPier_adjPier_same, List.map_map]
        refine List.map_congr_left fun f _ => ?_
        simp only [Function.comp]
        split <;> rfl
      · simp [getPier_adjPier_other _ _ _ _ h]
    · exact ih ..

theorem pumpOutbox_outbox (s : State) (pk k : Nat) :
    SameEntries (getPier s k).outbox (getPier (pumpOutbox s pk) k).outbox := by
  unfold pumpOutbox; split
  · exact pumpList_outbox ..
  · rfl

/-- An entry that is enqueued stands in the outbox of its pier, behind those that were there. -/
theorem enqueue_outbox (s : State) (pk : Nat) (key : StreamKey) (body : OutBody) (actor : Nat) (runid : BitVec 32)
    (bundle : BitVec 12) (strand : Nat) (move w3 : Word) (unit : BitVec 5) (slot : BitVec 2) (after : List Nat) :
    SameEntries
      ((getPier s pk).outbox ++
        [{ tok := s.tok, key, body, sent := false, retry := false, refused := false, actor, runid, bundle, strand, move, w3,
           unit, slot, after }])
      (getPier (enqueue s pk key body actor runid bundle strand move w3 unit slot after) pk).outbox := by
  refine Eq.trans ?_ (pumpOutbox_outbox ..)
  rw [getPier_adjPier_same]
  rfl

end Sys2Proof.Machine
end

