-- ==== Sys2Proof/Laws/Trigger.lean ====
section
/-!
SUPPORT. What a slot can do, said once: the ways of a trigger through its checks, of a move, and what a change of the
strand in hand leaves alone.
-/

namespace Sys2Proof.Machine

theorem runTrigger_off {s : State} {m : Mv} (h : guardOn s m = false) (k hd b) : runTrigger s m k hd b = s := by
  simp [runTrigger, h]

theorem runTrigger_waits {s : State} {m : Mv} (h : guardOn s m = true) (h2 : readSource s m.src = .waits) (k hd b) :
    runTrigger s m k hd b = markHeld s := by simp [runTrigger, h, h2]

theorem runTrigger_empty {s : State} {m : Mv} {sel : Nat} (h : guardOn s m = true) (h2 : readSource s m.src = .emptyPort sel)
    (k hd b) : runTrigger s m k hd b =
      if hd s Value.zero (needed (curStrand s) k.a) (needed (curStrand s) k.b) then
        markHeld (raise s k.unit 0x04 (moveWord s Value.zero) (BitVec.ofNat 64 sel))
      else raise s k.unit 0x04 (moveWord s Value.zero) (BitVec.ofNat 64 sel) := by
  simp [runTrigger, h, h2]

/-- A trigger whose checks its body decides. -/
theorem runTrigger_value {s : State} {m : Mv} {t : Value} (h : guardOn s m = true) (h2 : readSource s m.src = .value t)
    (k : Need) (hd : State → Value → Value → Value → Bool) (b : State → Value → Value → Value → Trig) :
    runTrigger s m k hd b =
      match checked s k t b with
      | .fault code w3 =>
        if hd s t (needed (curStrand s) k.a) (needed (curStrand s) k.b) then markHeld (raise s k.unit code (moveWord s t) w3)
        else raise s k.unit code (moveWord s t) w3
      | .ok s1 => if hd s t (needed (curStrand s) k.a) (needed (curStrand s) k.b) then markHeld s else s1 := by
  simp only [runTrigger, h, h2]
  rfl

/-- A trigger whose steering values are clean and whose ports are written goes on to its own checks. -/
theorem checked_body {s : State} {k : Need} {t : Value} {b : State → Value → Value → Value → Trig}
    (h : ((k.steerT && t.poison) || (k.steerA && (needed (curStrand s) k.a).poison) ||
      (k.steerB && (needed (curStrand s) k.b).poison)) = false)
    (ha : missing (curStrand s) k.a = none) (hb : missing (curStrand s) k.b = none) :
    checked s k t b =
      b (adjCur s fun x => clearUnit x k.unit) t (needed (curStrand s) k.a) (needed (curStrand s) k.b) := by
  simp [checked, h, ha, hb]

@[simp] theorem missing_none (x : Strand) : missing x none = none := rfl
@[simp] theorem needed_none (x : Strand) : needed x none = Value.zero := rfl
theorem missing_port {x : Strand} {o : OpSel} {v : Value} (h : opPort x o = some v) : missing x (some o) = none := by
  simp [missing, h]
theorem missing_unwritten {x : Strand} {o : OpSel} (h : opPort x o = none) : missing x (some o) = some o := by
  simp [missing, h]
theorem needed_port {x : Strand} {o : OpSel} {v : Value} (h : opPort x o = some v) : needed x (some o) = v := by
  simp [needed, h]

theorem runMove_off {s : State} {m : Mv} (h : guardOn s m = false) (d) : runMove s m d = s := by simp [runMove, h]

theorem runMove_waits {s : State} {m : Mv} (h : guardOn s m = true) (h2 : readSource s m.src = .waits) (d) :
    runMove s m d = markHeld s := by simp [runMove, h, h2]

theorem runMove_value {s : State} {m : Mv} {v : Value} (h : guardOn s m = true) (h2 : readSource s m.src = .value v) (d) :
    runMove s m d = if (isGuard d && v.poison) = true then raise s 0 0x0C (moveWord s v) 0 else adjCur s fun x => writeDest x d v := by
  simp only [runMove, h, h2]
  rfl

theorem adjCur_adjCur (s : State) (f g : Strand → Strand) : adjCur (adjCur s f) g = adjCur s fun x => g (f x) := by
  simp [adjCur, adjStrand, setStrand, adjPier, setPier, getStrand, pierStrand, getPier]

theorem setResult_adjCur (s : State) (f : Strand → Strand) (i : Nat) (v : Value) :
    setResult (adjCur s f) i v = adjCur s fun x => { f x with res := fset (f x).res i (.full v) } := adjCur_adjCur ..

/-! What a change of the strand in hand leaves alone. -/

theorem getStrand_adjCur_other (s : State) (f : Strand → Strand) (pk st : Nat) (h : ¬(pk = s.issue.pk ∧ st = s.issue.strand)) :
    getStrand (adjCur s f) pk st = getStrand s pk st := by
  by_cases hp : pk = s.issue.pk
  · subst hp
    have hs : st ≠ s.issue.strand := fun e => h ⟨rfl, e⟩
    simp [adjCur, adjStrand, setStrand, getStrand, pierStrand, fget_fset_other _ _ _ _ _ hs]
  · simp [adjCur, adjStrand, setStrand, getStrand, pierStrand, getPier_adjPier_other _ _ _ _ hp]

/-- Whatever of a pier does not lie in its strands is as it was. -/
theorem getPier_adjCur {α : Type} (g : Pier → α) (hg : ∀ p l, g { p with strands := l } = g p) (s : State) (f : Strand → Strand)
    (pk : Nat) : g (getPier (adjCur s f) pk) = g (getPier s pk) := by
  by_cases hp : pk = s.issue.pk
  · subst hp; simp [adjCur, adjStrand, setStrand, hg]
  · simp [adjCur, adjStrand, setStrand, getPier_adjPier_other _ _ _ _ hp]

theorem getMod_adjCur (s : State) (f : Strand → Strand) (m : Nat) : getMod (adjCur s f) m = getMod s m := rfl
theorem getSite_adjCur (s : State) (f : Strand → Strand) (k : Nat) : getSite (adjCur s f) k = getSite s k := rfl

/-- A port that is not of a unit keeps what it holds when the unit's ports are emptied. -/
theorem resPort_clear_other (x : Strand) (u i : Nat) (h : i / 4 ≠ 0x20 + u) : resPort (clearUnit x u) i = resPort x i := by
  unfold resPort clearUnit
  simp only
  induction x.res with
  | nil => rfl
  | cons p l ih =>
    by_cases hp : p.1 / 4 = 0x20 + u
    · have hi : p.1 ≠ i := fun e => h (e ▸ hp)
      simp [hp, fget, hi, ih]
    · simp only [List.filter_cons, beq_eq_false_iff_ne.2 hp, Bool.not_false, if_true, fget, ih]

/-- A port of a unit whose ports are emptied is empty. -/
theorem resPort_clear_own (x : Strand) (u i : Nat) (h : i / 4 = 0x20 + u) : resPort (clearUnit x u) i = .empty := by
  unfold resPort clearUnit
  simp only
  induction x.res with
  | nil => rfl
  | cons p l ih =>
    by_cases hp : p.1 / 4 = 0x20 + u
    · simp [hp, ih]
    · have hi : p.1 ≠ i := fun e => hp (e ▸ h)
      simp only [List.filter_cons, beq_eq_false_iff_ne.2 hp, Bool.not_false, if_true, fget, hi, if_false, ih]

end Sys2Proof.Machine
end

