-- ==== Sys2Proof/Machine/Flits.lean ====
section
/-!
DEFINITION. Flits as links carry them: the sideband, endpoint codes, the bits of each kind, control codes, and what a link does with a
flit of a reserved kind (R241, R242, R245, R247). The steps of the machine pass the same fields as structures.
-/

namespace Sys2Proof.Machine

/-- Where a flit goes other than a pier site (R241). -/
inductive Endpoint where
  | abutment (a : Nat)
  | ingress
  | controller
  | hostPort
  | veiviush
  deriving DecidableEq, Repr

/-- The endpoint codes (R241). -/
def endpointCode : Endpoint → Nat
  | .abutment a => a % 128
  | .ingress => 0x080
  | .controller => 0x081
  | .hostPort => 0x082
  | .veiviush => 0x083

/-- The endpoint of a code: routers inject no other (R241). -/
def endpointOf (n : Nat) : Option Endpoint :=
  if n < 128 then some (.abutment n)
  else match n with
    | 0x080 => some .ingress
    | 0x081 => some .controller
    | 0x082 => some .hostPort
    | 0x083 => some .veiviush
    | _ => none

/-- The flit kinds with their own bits (R242). -/
inductive FlitKind where
  | message (poison : Nat)
  | data (handle offset : Nat) (add poison : Bool) (index : Nat)
  | replyData (slot : Nat) (poison : Bool)
  | ack (slot status handle : Nat)
  | weight (handle offset : Nat) (add poison : Bool) (index : Nat)
  | control (code operand : Nat)
  deriving DecidableEq, Repr

/-- The codes of control flits (R242). -/
def ctlTimeBase : Nat := 1
/-- A flush marker. -/
def ctlFlush : Nat := 2
/-- A hold. -/
def ctlHold : Nat := 3
/-- A cancel. -/
def ctlCancel : Nat := 4
/-- A halt. -/
def ctlHalt : Nat := 5
/-- A gang switch. -/
def ctlGang : Nat := 6

/-- The requester slot at a pier: strand and in-flight entry (R242). -/
def pierSlot (strand entry : Nat) : Nat := strand % 8 * 16 + entry % 16

/-- The requester slot at an abutment: stream context and buffer slot (R242). -/
def abutSlot (ctx buffer : Nat) : Nat := ctx % 16 * 8 + buffer % 8

/-- The number of a flit kind. -/
def kindCode : FlitKind → Nat
  | .message _ => 0
  | .data _ _ _ _ _ => 1
  | .replyData _ _ => 2
  | .ack _ _ _ => 3
  | .weight _ _ _ _ _ => 4
  | .control _ _ => 5

/-- The bits [36:0] of a sideband (R242): a data flit's offset is in bytes, as is a slice offset. -/
def kindBits : FlitKind → Nat
  | .message p => p % 64 * 2 ^ 31
  | .data h o a p i => h % 64 * 2 ^ 31 + o / 64 % 4096 * 2 ^ 19 + b2n a * 2 ^ 18 + b2n p * 2 ^ 17 + i % 2 ^ 17
  | .replyData r p => r % 128 * 2 ^ 30 + b2n p * 2 ^ 29
  | .ack r st h => r % 128 * 2 ^ 30 + st % 8 * 2 ^ 27 + h % 64 * 2 ^ 21
  | .weight h o a p i => h % 64 * 2 ^ 31 + o / 64 % 2 ^ 14 * 2 ^ 17 + b2n a * 2 ^ 16 + b2n p * 2 ^ 15 + i % 2 ^ 15
  | .control c w => c % 32 * 2 ^ 32 + w % 2 ^ 32

/-- The network of a flit (R245): answers, time base and hold on the reply network, everything else on the request network. -/
def onReply : FlitKind → Bool
  | .replyData _ _ => true
  | .ack _ _ _ => true
  | .control c _ => c == ctlTimeBase || c == ctlHold
  | _ => false

/-- The sideband of a flit (R241): module, site or endpoint, network, kind, the kind's own bits. -/
def sideband (mod : Nat) (dest : Nat ⊕ Endpoint) (k : FlitKind) : Word :=
  let d := match dest with | .inl site => site % 1024 | .inr e => endpointCode e
  let ep := match dest with | .inl _ => false | .inr _ => true
  BitVec.ofNat 64 (mod % 4096 * 2 ^ 52 + d * 2 ^ 42 + b2n (onReply k) * 2 ^ 41 + kindCode k * 2 ^ 38 + b2n ep * 2 ^ 37 + kindBits k)

/-- The 64 bytes of a put message's payload (R247): opcode, strand, entry and lane mask, then address and values. -/
def putPayload (r : GmReq) : List Word :=
  let mask : Nat := if r.op.toNat % 64 = 0x11 then (vmaskOf r.val).toNat else 0xFFFF
  let at_ : Word := if bitAt r.va 55 then r.va else BitVec.ofNat 64 (r.mod % 4096 * 2 ^ 40 + r.loc % 2 ^ 40)
  [BitVec.ofNat 64 (r.op.toNat + r.strand % 8 * 2 ^ 8 + r.entry % 16 * 2 ^ 11 + mask % 2 ^ 16 * 2 ^ 16), at_, vsc r.val, vsc r.exp]

/-- Whether a sideband names a reserved kind (R242). -/
def reservedKind (w : Word) : Bool := decide (6 ≤ bits w 38 3)

/-- A flit that a link of a module receives: one of a reserved kind is discarded and Veiviush hears of it (R242); any other goes on. -/
def linkTakes (s : State) (m : Nat) (w : Word) : Option State :=
  if reservedKind w then some (adjVeiv s m fun v => { v with badFlits := v.badFlits + 1 }) else none

end Sys2Proof.Machine
end

