-- ==== Sys2Proof/Safety.lean ====
section
/-!
DEFINITION. What a safe run is, in the terms the claims use: steps that end in a next state.
-/

namespace Sys2Proof

/-- The step of a state ends in a next state. -/
def Safety.Runs (s : Machine.State) : Prop := ∃ t, Machine.step s = .next t

/-- A run of `n` steps that neither faults nor is refused. -/
def Safety.RunsFor : Nat → Machine.State → Prop
  | 0, _ => True
  | n + 1, s => ∃ t, Machine.step s = .next t ∧ Safety.RunsFor n t

end Sys2Proof
end

