-- ==== Sys2Proof/Tests/Slice0.lean ====
section
/-!
SUPPORT. Tests: ill-formed instructions that the check refuses, words written out from the encoding tables of the manual
with what they decode to, its worked examples, and for every statement with hypotheses a state and operands that meet them.
Expected results come from the manual (R1 to R399) or by hand from it.
-/

namespace Sys2Proof.Tests

set_option Elab.async false

open Sys2Proof.Machine

/-! Well-formedness: an ill-formed term for each check. -/

theorem test_wf_inverted_c0 : (Instr.add ⟨true, 0, .x 1⟩ .ia).wf = false ∧ (Instr.add ⟨true, 1, .x 1⟩ .ia).wf = true := by decide
theorem test_wf_fadd_64 : (Instr.atl ⟨false, 0, .x 1⟩ .fadd false).wf = false ∧ (Instr.atg ⟨false, 0, .x 1⟩ .fadd false .plain).wf = false := by
  decide
theorem test_wf_complex : (Instr.vmul ⟨false, 0, .v 1⟩ .cf32).wf = false := by decide
theorem test_wf_nop_is_no_move : (Instr.move ⟨false, 0, .x 0⟩ (.x 0)).wf = false := by decide
theorem test_wf_strand : (Instr.divideComplete 0 8 0).wf = false ∧ (Instr.runEnd 0 8).wf = false := by decide
theorem test_wf_entry : (Instr.keystoneResult 0 0 16 0 Value.zero).wf = false ∧ (Instr.gmTranslationDone 0 8 0 0 .fail).wf = false := by
  decide
theorem test_wf_keystone : (Instr.keystoneAccept 0 64).wf = false := by decide
theorem test_wf_actor : (Instr.spillwayReturn 0 64).wf = false ∧ (Instr.actorLockRelease 0 64).wf = false := by decide
theorem test_wf_sluice : (Instr.sluiceRecheck 0 512).wf = false := by decide
theorem test_wf_span : (Instr.invalidationComplete 0 4).wf = false ∧ (Instr.harvestComplete 0 4).wf = false := by decide
theorem test_wf_abutment : (Instr.streamTurn 0 128).wf = false ∧ (Instr.spareAbutment 0 128).wf = false := by decide
theorem test_wf_half_span : (Instr.partitionHalt 0 8 0).wf = false ∧ (Instr.partitionHalt 0 0 8).wf = false := by decide
theorem test_wf_slice : (Instr.gangSliceStart 0 16).wf = false := by decide
theorem test_wf_row : (Instr.sparePierRow 0 4 0).wf = false ∧ (Instr.sparePierRow 0 0 16).wf = false := by decide
theorem test_wf_lane : (Instr.spareTorusLane 0 6 0).wf = false ∧ (Instr.torusLaneFailure 0 0 18).wf = false := by decide
theorem test_wf_channel : (Instr.spareHbmPc 0 8 0).wf = false ∧ (Instr.spareHbmPc 0 0 128).wf = false := by decide
theorem test_wf_bank : (Instr.bankRefresh 0 8).wf = false := by decide
theorem test_wf_group : (Instr.groupEntryWrite 0 256 0 []).wf = false := by decide

/-! Decoding: words written out from R85 to R97. -/

theorem test_decode_ct : decodeSlot false 0b0000_00000000001_01_00000_00000001#30 = .ok (.jal ⟨false, 0, .x 1⟩) := by decide
theorem test_decode_ia : decodeSlot false 0b1111_10000000101_01_00001_00000000#30 = .ok (.add ⟨true, 7, .imm 5⟩ .ia) := by decide
theorem test_decode_ib : decodeSlot false 0b0000_00001000101_01_00010_00100000#30 = .ok (.sel ⟨false, 0, .c 5⟩ .ib) := by decide
theorem test_decode_im : decodeSlot false 0b0000_11111111111_01_00011_00000111#30 = .ok (.mad ⟨false, 0, .imm (-1)⟩) := by decide
theorem test_decode_ls : decodeSlot false 0b0000_10000001000_01_00100_00000011#30 = .ok (.ldl ⟨false, 0, .imm 8⟩ 3) := by decide
theorem test_decode_ls_order : decodeSlot false 0b0000_10000001000_01_00100_01000011#30 = .error (.illegalOp 0x43) := by decide
theorem test_decode_gm : decodeSlot false 0b0000_00000000011_01_00101_10001010#30 = .ok (.stgRel ⟨false, 0, .x 3⟩ 2) := by decide
theorem test_decode_gm_atomic : decodeSlot false 0b0000_00000000011_01_00101_11111001#30 = .ok (.atg ⟨false, 0, .x 3⟩ .fadd true .ar) := by
  decide
theorem test_decode_vx : decodeSlot false 0b0000_00000111111_01_00110_10001010#30 = .ok (.vcvt ⟨false, 0, .v 31⟩ .sr) := by decide
theorem test_decode_mx : decodeSlot false 0b0000_00000000011_01_00111_00000101#30 = .ok (.mstBf16 ⟨false, 0, .x 3⟩) := by decide
theorem test_decode_kf : decodeSlot false 0b0000_00000100011_01_01000_10000001#30 = .ok (.kexp2 ⟨false, 0, .v 3⟩ true) := by decide
theorem test_decode_ms : decodeSlot false 0b0000_00001001000_01_01001_00000011#30 = .ok (.fwd ⟨false, 0, .p 0⟩) := by decide
theorem test_decode_sl : decodeSlot false 0b0000_10000000000_01_01010_00000110#30 = .ok (.swaitPh ⟨false, 0, .imm 0⟩) := by decide
theorem test_decode_sg : decodeSlot false 0b0000_10000000000_01_01011_00000111#30 = .ok (.scanc ⟨false, 0, .imm 0⟩) := by decide
theorem test_decode_sy : decodeSlot false 0b0000_10000000000_01_01100_00000110#30 = .ok (.tlbi ⟨false, 0, .imm 0⟩) := by decide
theorem test_decode_move : decodeSlot false 0b0000_00010001100_00_00000_00100000#30 = .ok (.move ⟨false, 0, .res .imR⟩ (.v 0)) := by decide
theorem test_decode_nop : decodeSlot false 0 = .ok .nop := by decide
theorem test_decode_unit_13 : decodeSlot false 0b0000_10000000000_01_01101_00000000#30 = .error (.illegalOp 0) := by decide

/-- The bundle that R97 works out: kind 00, a load, a move to ia.a, an add, a NOP. -/
theorem test_decode_worked_bundle :
    decodeBundle 0x000810900C0048084080A84000000000#128 = .ok ([0x02042403, 0x00048084, 0x0202A100, 0], none) ∧
    decodeSlot false 0x02042403 = .ok (.ldl ⟨false, 0, .imm 8⟩ 3) ∧ decodeSlot false 0x00048084 = .ok (.move ⟨false, 0, .x 9⟩ (.port .iaA)) ∧
    decodeSlot false 0x0202A100 = .ok (.add ⟨false, 0, .imm 5⟩ .ia) := by decide

theorem test_decode_kind_11 : decodeBundle (BitVec.ofNat 128 (3 * 2 ^ 126)) = .error .illegalBundle := by decide
theorem test_decode_same_unit : decodeBundle (BitVec.ofNat 128 (0x0202A100 * 2 ^ 60 + 0x0202A100)) = .error .illegalBundle := by decide

/-! A step fetches and runs the placed instruction. -/

theorem test_step_runs_placed_jump :
    (match step (State.reset.withFetchWord 30 0x02028000) with | .next t => some (getStrand t 0 0).pc | _ => none) = some 1 ∧
    (match step (State.reset.withFetchWord 30 0x0202A000) with | .next t => some (getStrand t 0 0).pc | _ => none) = some 5 := by
  decide +kernel

theorem test_decode_table_word : decodeTableWord 30 0x0202A000 = some (.jmp ⟨false, 0, .imm 5⟩) := by decide

/-! A small machine: module 0, up, with partition 0 of job 1 on half-span 0 of logical pier 0, where actor 1 runs on strand 0 with the
region 0x1000 to 0x1FFF, and a bundle of it issues. -/

/-- Every operand port of the run holds 3. -/
def tPorts (v : Value) : FMap (Option Value) :=
  [OpSel.iaA, .ibA, .ibB, .iaB, .imA, .imB, .lsA, .lsB, .gmA, .gmB, .vxA, .vxB, .mxA, .mxB, .msA, .slA, .slB, .syA].map fun o => (o.index, some v)

/-- The run of actor 1. -/
def tRun (v : Value := Value.ofWord 3) : Strand := { status := .running, actor := 1, runid := 9, pc := 6, op := tPorts v }

/-- Pier 0 with a run on strand 0. -/
def tPier (x : Strand) : Pier :=
  { strands := [(0, x)], actors := [(1, { st := .running, rgnbase := 0x1000, rgnlim := 0x2000 }), (63, { st := .idle })] }

/-- Module 0, whose partition 0 is resident. -/
def tMod : Module :=
  { present := true, veiv := { stage := 3 },
    parts := [(0, { job := 1, inUse := true, table := [(0, 0x80000000)], halfspans := 1, loc := [(0, .piers)] })] }

/-- The machine with a pier, at cycle 100. -/
def tWorld (p : Pier) (m : Module := tMod) : State :=
  { State.reset with agenda := [], cycle := 100, mods := [(0, m)], piers := [(0, p)],
                     jobs := [(1, { loaded := true, img := { job := 1, graphs := [{ graph := 0, mod := 0, pier := 0, sluice := 496, target := 9, phase := 0 }] } })] }

/-- The machine in which a slot of the run issues. -/
def tIssue (x : Strand) (f : Pier → Pier := id) (m : Module := tMod) : State :=
  { tWorld (f (tPier x)) m with issue := { pk := 0, strand := 0, addr := 5, pre := x } }

/-- The slot in hand: guard c0, source immediate. -/
def tMv (n : BitVec 10) : Mv := ⟨false, 0, .imm n⟩

/-- A field of the state a step gives. -/
def tNext {α : Type} (o : Host.Outcome State Fault Refusal) (f : State → α) : Option α := match o with | .next t => some (f t) | _ => none

/-! The examples that the manual works out (R59, R315, R310, R377, R114). -/

/-- Port r of the unit after an operation of ia on A and T. -/
def tIa (i : Mv → Instr) (a : Word) (t : BitVec 10) : Option ResPort :=
  tNext (exec (i (tMv t)) (tIssue (tRun (Value.ofWord a)))) fun s => resPort (curStrand s) 0x084

/-- The first result of an operation that lands later. -/
def tLater (i : Mv → Instr) (a : Word) (t : BitVec 10) (f : Pier → Pier := id) : Option (Option Value) :=
  tNext (exec (i (tMv t)) (tIssue (tRun (Value.ofWord a)) f)) fun s => ((curStrand s).pend.head?.bind (·.r))

theorem test_zext_example : tIa (.zext · .ia) 0xFFFFFFFFFFFFFFF6 31 = some (.full (Value.ofWord 0xFFFFFFF6)) := by decide +kernel
theorem test_add_wraps : tIa (.add · .ia) 0xFFFFFFFFFFFFFFFF 1 = some (.full (Value.ofWord 0)) := by decide +kernel
theorem test_sra_keeps_sign : tIa (.sra · .ia) 0x8000000000000000 63 = some (.full (Value.ofWord 0xFFFFFFFFFFFFFFFF)) := by decide +kernel
theorem test_mulh_example : tLater .mulh 0xFFFFFFFFFFFFFFFF 1 = some (some (Value.ofWord 0xFFFFFFFFFFFFFFFF)) := by decide +kernel
theorem test_mulhU_example : tLater .mulhU 0xFFFFFFFFFFFFFFFF 2 = some (some (Value.ofWord 1)) := by decide +kernel
theorem test_div_by_zero : tLater .div 7 0 = some (some (Value.ofWord 0xFFFFFFFFFFFFFFFF)) := by decide +kernel
theorem test_rem_by_zero : tLater .rem 7 0 = some (some (Value.ofWord 7)) := by decide +kernel

/-- With ls.a = 0x100 and 8 in the trigger the load reads offset 0x108 (R310), here in the region of the actor. -/
theorem test_ldl_example :
    tLater (.ldl · 3) 0x1100 8 (fun p => { p with spad := [(0x1108, 0xAB), (0x110F, 0x80)] }) =
      some (some (Value.ofWord 0x80000000000000AB)) := by decide +kernel

/-- A counter sluice with target 32, rearm 32 and a count, after an SADD (R59). -/
def tSadd (count target : BitVec 32) (t : BitVec 10) : Option (BitVec 32 × BitVec 32 × Bool) :=
  tNext (exec (.sadd (tMv t)) (tIssue (tRun (Value.ofWord 5)) fun p =>
    { p with sluices := [(5, { count, target, armed := true, action := 0x5000000000000020 })] })) fun s =>
    ((getSluice s 0 5).count, (getSluice s 0 5).target, (getSluice s 0 5).again)

theorem test_sadd_below_target : tSadd 0 32 20 = some (20, 32, false) := by decide +kernel
theorem test_sadd_fires : (tSadd 20 32 20).map (fun x => (x.1, x.2.1)) = some (40, 64) ∧
    (tSadd 70 96 60).map (fun x => (x.1, x.2.1)) = some (130, 128) := by decide +kernel

/-- The FP32 sum of lanes 2^24, 1, 1 and −2^24 is 1.0 in the tree of R114. -/
theorem test_vrsum_example :
    (tNext (exec (.vrsum ⟨false, 0, .v 1⟩ .f32) (tIssue { tRun with
      v := [(1, ⟨.vec (BitVec.ofNat 512 (0x4B800000 + 0x3F800000 * 2 ^ 32 + 0x3F800000 * 2 ^ 64 + 0xCB800000 * 2 ^ 96)) 0x000F, false⟩)] }))
      fun s => ((curStrand s).pend.head?.bind (·.r)).map fun v => (vlanes v).toNat % 2 ^ 32) = some (some 0x3F800000) := by decide +kernel

/-! Witnesses: states and operands that meet the hypotheses of the statements. -/

/-- The state most witnesses share, and a poisoned and a clean value of T. -/
def tS : State := tIssue tRun
/-- T for the slot in hand. -/
def tV (n : Word) : Value := Value.ofWord n

theorem fires_tS : Claims.Fires tS (tMv 8) (tV 8) := ⟨rfl, rfl⟩
theorem port_tS (o : OpSel) (h : opPort tRun o = some (tV 3)) : Claims.Port tS o (tV 3) := h

theorem witness_DecodeInvertsEncode : (Instr.add (tMv 5) .ia).slotForm = true ∧ (Instr.add (tMv 5) .ia).wf = true ∧
    encode (.add (tMv 5) .ia) = some 0x0202A100 := by decide
theorem witness_DecodeInvertsEncode_limm : (Instr.add ⟨false, 0, .limm⟩ .ia).wf = true ∧
    encode (.add ⟨false, 0, .limm⟩ .ia) = some 0x00302100 := by decide
theorem witness_EncodeInvertsDecode : decodeSlot false 0x0202A100 = .ok (.add (tMv 5) .ia) ∧ (0x0202A100#30).extractLsb' 26 4 ≠ 8 := by decide
theorem witness_ImOpcodes : (0x0202A308#30).extractLsb' 13 2 = 1 ∧ (0x0202A308#30).extractLsb' 8 5 = 3 ∧
    decodeSource false ((0x0202A308#30).extractLsb' 15 11) = .ok (.imm 5) := by decide

/-- A state that offers a bundle: its next work is the issue of pier 0. -/
def tOffer (w : Nat) : State := State.reset.withFetchWord 128 w

theorem offers_tOffer : Claims.Offers (tOffer 0x0202A100) 0 0 [] 0x0202A100 :=
  ⟨by decide +kernel, by decide +kernel, by decide +kernel, by decide +kernel⟩
theorem witness_IllegalBundles : Claims.Offers (tOffer (3 * 2 ^ 126)) 0 0 [] (BitVec.ofNat 128 (3 * 2 ^ 126)) ∧
    Claims.illegal (BitVec.ofNat 128 (3 * 2 ^ 126)) :=
  ⟨⟨by decide +kernel, by decide +kernel, by decide +kernel, by decide +kernel⟩, .inl (by decide)⟩
theorem witness_StepRunsEvent : State.reset.agenda = .ev (.bringUp 0) :: [] := rfl

/-- The slots of a bundle of kind 00 with one move slot in slot 3. -/
theorem only_tOffer (w : BitVec 30) (h : w ≠ 0) : Claims.OnlySlot [0, 0, 0, w] 3 w :=
  ⟨rfl, h, fun j v hj hn => by
    match j with
    | 0 | 1 | 2 => simp at hj; exact hj.symm
    | 3 => exact absurd rfl hn
    | j + 4 => simp at hj⟩

/-- A MOVE to x1 issues; an ADD with its port unwritten faults; a divide behind another one holds. -/
theorem witness_StepRunsDecodedInstruction :
    decodeBundle 0x02028001 = .ok ([0, 0, 0, 0x02028001], none) ∧ Claims.live (getStrand (tOffer 0x02028001) 0 0) 0x02028001 ∧
    decodeSlot false 0x02028001 = .ok (.move (tMv 5) (.x 1)) ∧
    tNext (exec (.move (tMv 5) (.x 1)) (Claims.inBundle (tOffer 0x02028001) 0 0 [] [0, 0, 0, 0x02028001] none 3))
      (fun t => t.issue.held = false ∧ t.issue.fault = none) = some True := by
  refine ⟨by decide, by unfold Claims.live; decide +kernel, by decide, ?_⟩
  show some (_ ∧ _) = some True
  congr 1
  exact eq_true (by decide +kernel)

/-! Witnesses of the statements about slots, faults, local and global accesses. -/

/-- Two slots of a bundle of kind 00. -/
theorem two_tOffer (v w : BitVec 30) (hv : v ≠ 0) (hw : w ≠ 0) : Claims.OnlyTwo [0, 0, v, w] 3 2 w v :=
  ⟨by decide, rfl, rfl, hw, hv, fun j u hj h3 h2 => by
    match j with
    | 0 | 1 => simp at hj; exact hj.symm
    | 2 => exact absurd rfl h2
    | 3 => exact absurd rfl h3
    | j + 4 => simp at hj⟩

/-- A move to x1 beside a DONE of unit 0, and an SEND of unit 9 beside a TRAP of unit 0. -/
theorem witness_SlotsRunInBundleOrder :
    ((0x02028001#30).extractLsb' 13 2 = 0 ∧ Claims.isTrigger 0x02002002 0) ∧
    (Claims.isTrigger 0x02002900 9 ∧ Claims.isTrigger 0x02002003 0) ∧
    Claims.live (getStrand (tOffer 0x02028001) 0 0) 0x02028001 :=
  ⟨⟨by decide, by unfold Claims.isTrigger; decide⟩, ⟨by unfold Claims.isTrigger; decide, by unfold Claims.isTrigger; decide⟩,
    by unfold Claims.live; decide +kernel⟩
theorem witness_FalseGuardDoesNothing : (Instr.add ⟨true, 0, .imm 5⟩ .ia).slotForm = true ∧ guardOn tS ⟨true, 0, .imm 5⟩ = false := by
  decide +kernel
/-- A slot that reads a result port that waits, and one that is empty. -/
theorem witness_PendingSourceHoldsBundle :
    readSource (tIssue { tRun with res := [(0x8C, .pending 4)] }) (.res .imR) = .waits := by decide +kernel
theorem witness_EmptyPortFaults : readSource tS (.res .imR) = .emptyPort 0x8C ∧ guardOn tS ⟨false, 0, .res .imR⟩ = true := by
  decide +kernel
theorem witness_LowestSlotFaultStands : (raise tS 3 5 0 0).issue.fault.isSome = true ∧ tS.issue.fault = none := by decide +kernel
theorem witness_MoveWritesDestination : Claims.Fires (tIssue { tRun with x := [(2, ⟨.scalar 7, true⟩)] }) ⟨false, 0, .x 2⟩ ⟨.scalar 7, true⟩ :=
  ⟨rfl, rfl⟩
theorem witness_DoneEndsRun (s : State) (h : s = tWorld { tPier tRun with strands := [(0, { tRun with donePending := true })] }) :
    (getStrand s 0 0).status = .running ∧ (getStrand s 0 0).donePending = true ∧ runDrained (getStrand s 0 0) = true ∧
    residentOpen s 0 = true ∧ (getActor s 0 (getStrand s 0 0).actor.toNat).retiring = false := by subst h; decide +kernel
/-- Ports a and b written. -/
theorem witness_ports : Claims.Port tS (aluA .ia) (tV 3) ∧ Claims.Port tS (aluA .ib) (tV 3) ∧ Claims.Port tS (aluB .ib) (tV 3) ∧
    Claims.Port tS .imA (tV 3) ∧ Claims.Port tS .imB (tV 3) ∧ Claims.Port tS .lsA (tV 3) ∧ Claims.Port tS .lsB (tV 3) ∧
    Claims.Port tS .gmA (tV 3) ∧ Claims.Port tS .gmB (tV 3) ∧ Claims.Port tS .vxA (tV 3) ∧ Claims.Port tS .vxB (tV 3) ∧
    Claims.Port tS .mxA (tV 3) ∧ Claims.Port tS .mxB (tV 3) ∧ Claims.Port tS .msA (tV 3) ∧ Claims.Port tS .slA (tV 3) ∧
    Claims.Port tS .syA (tV 3) := ⟨rfl, rfl, rfl, rfl, rfl, rfl, rfl, rfl, rfl, rfl, rfl, rfl, rfl, rfl, rfl, rfl⟩
theorem witness_port_unwritten : opPort (curStrand (tIssue { tRun with op := [] })) (aluA .ia) = none := rfl
theorem witness_DivideStarts : (curPier tS).divBusy = none ∧ freeEntry (curStrand tS) = some 0 ∧
    (curPier (tIssue tRun fun p => { p with divBusy := some 1 })).divBusy.isSome = true := by decide +kernel

/-- A result that waits to land. -/
def tPend (u : Nat) : Pending := { tok := 7, unit := u, r := some (tV 1), h := some (tV 2), create := none, seed := false, sample := none }
/-- A run whose unit waits for it. -/
def tWaits (u : Nat) : State :=
  tIssue { tRun with pend := [tPend u], res := [(0x80 + 4 * u, .pending 7), (0x81 + 4 * u, .pending 7)] } fun p => { p with divBusy := some 7 }
theorem witness_DivideCompletes : (getStrand (tWaits 3) 0 0).pend.find? (fun q => q.tok == 7) = some (tPend 3) ∧
    (getPier (tWaits 3) 0).divBusy = some 7 ∧ resPort (getStrand (tWaits 3) 0 0) 0x08D = .pending 7 := by decide +kernel
theorem witness_ResultLandsInWaitingPort : (getStrand (tWaits 1) 0 0).pend.find? (fun q => q.tok == 7) = some (tPend 1) ∧
    resPort (getStrand (tWaits 1) 0 0) 0x084 = .pending 7 := by decide +kernel
theorem witness_FaultFreezesRun : (getStrand tS 0 0).service = false := by decide +kernel

/-- The region check at its edges: the actor's first and last bytes, one below, one above, one that is not aligned; and the
whole scratchpad for actor 63 (R36, R132). -/
theorem witness_LsAllows : Claims.LsAllows tS 0x1000 8 ∧ Claims.LsAllows tS 0x1FF8 8 ∧ Claims.LsAllows tS 0x1FC0 64 ∧
    ¬Claims.LsAllows tS 0x0FF8 8 ∧ ¬Claims.LsAllows tS 0x2000 8 ∧ ¬Claims.LsAllows tS 0x1001 8 ∧
    Claims.LsAllows (tIssue { tRun with actor := 63 }) 0x3FFF8 8 ∧ ¬Claims.LsAllows (tIssue { tRun with actor := 63 }) 0x40000 8 := by
  unfold Claims.LsAllows; decide +kernel
theorem witness_LocalLoads : acqPending tS = false ∧ Claims.Port (tIssue (tRun (tV 0x1000))) .lsA (tV 0x1000) ∧
    ¬Claims.statusAt 0x1000 ∧ Claims.statusAt 0x3FF80 := ⟨by decide +kernel, rfl, by unfold Claims.statusAt; decide, by unfold Claims.statusAt; decide⟩
/-- A gm request of the run. -/
def tReq (op : BitVec 8) (va : Word) : GmReq :=
  { pk := 0, strand := 0, entry := 2, tok := 3, job := 1, op, va, val := tV 3, exp := tV 3, mod := 0, loc := 0x200000, dom := 0 }
/-- Its in-flight entry. -/
def tInf (issued : Bool) (r : GmReq) : Inflight := { kind := .gm, tok := 3, issued, bundle := 1, move := 0, tlow := 0, req := r }
/-- The run with it as entry 2, its result ports waiting. -/
def tFlight (issued : Bool) (r : GmReq) : Strand :=
  { tRun with inf := [(2, some (tInf issued r))], res := [(0x94, .pending 3), (0x95, .pending 3)] }
/-- An acquire that is not performed holds a local access. -/
theorem witness_LocalAccessFaults : acqPending (tIssue (tFlight true (tReq 0x43 0x10000))) = true ∧ acqPending tS = false ∧
    (Instr.ldl (tMv 8) 3, 8, true) ∈ Claims.lsForms (tMv 8) 3 0 .add false := ⟨by decide +kernel, by decide +kernel, by decide⟩

theorem witness_GmReady : Claims.GmReady tS 0x83 0x10000 0 :=
  ⟨by decide +kernel, by decide +kernel, by decide +kernel, by decide +kernel, by decide +kernel, by decide +kernel⟩
/-- Aperture offsets at their edges: the last scratchpad byte, the last slice byte for a read, none of these. -/
theorem witness_ApertureFits : Claims.ApertureFits 3 0x8000000003FFF8 ∧ ¬Claims.ApertureFits 3 0x80000000040000 ∧
    Claims.ApertureFits 3 0x800000800FFFF8 ∧ ¬Claims.ApertureFits 0x0B 0x80000080000000 ∧
    ¬Claims.ApertureFits 3 0x80000040000000 := by unfold Claims.ApertureFits Claims.fld; decide
theorem witness_gm_address : ((0xFFFFFFFFFFFFF8#64).toNat < 2 ^ 56) ∧ 2 ^ 56 ≤ (0x100000000000000#64).toNat ∧
    (0x10004#64).toNat % Claims.gmSize 3 ≠ 0 ∧ Claims.gmSize 0x10 = 64 ∧ Claims.gmSize 0x30 = 4 ∧ Claims.gmSize 0x2A = 8 := by decide

/-- Module 0 with one entry word of a page table. -/
def tHbm (e : Word) (bad : Bool := false) : Module :=
  { tMod with hbm := mwrite [] (dramLoc 0 0x100000) 8 e.toNat, hbmPoison := if bad then [(0x4000, true)] else [] }
/-- A walk of the run's request. -/
def tWalk (level retries : Nat) : Walk :=
  { who := .gm 0 0 2 3, job := 1, va := 0, need := 4, level, mod := 0, node := 0x100000, dom := 0, retries }
/-- The walk at that entry. -/
def tWalks (e : Word) (level retries : Nat) : State :=
  { tWorld (tPier (tFlight false (tReq 3 0))) (tHbm e) with walks := [(5, some (tWalk level retries))] }
theorem walkReads_tWalks (e : Word) (level retries : Nat) (h : Claims.walkAt (tWalk level retries) < 2 ^ 39)
    (hb : fget (getMod (tWalks e level retries) 0).hbmPoison (dramLoc 0 (Claims.walkAt (tWalk level retries)) / 64) false = false) :
    Claims.WalkReads (tWalks e level retries) 5 (tWalk level retries) 0 0 2 3 :=
  ⟨rfl, rfl, rfl, rfl, ⟨h, by show (0#2).toNat ≠ 3; decide⟩, hb⟩
/-- Entries of each kind at each level: moving with 15 and 16 retries, not valid, a table, and leaves that grant a load and do
not. -/
theorem witness_PageWalkStep :
    Claims.WalkReads (tWalks (BitVec.twoPow 64 54) 3 15) 5 (tWalk 3 15) 0 0 2 3 ∧
    (Claims.walkWord (tWalks (BitVec.twoPow 64 54) 3 16) (tWalk 3 16)).getLsbD 54 = true ∧
    (Claims.walkWord (tWalks 0 2 0) (tWalk 2 0)).getLsbD 63 = false ∧
    (let e := Claims.walkWord (tWalks 0x8000000000000200 3 0) (tWalk 3 0)
     e.getLsbD 63 = true ∧ e.getLsbD 54 = false ∧ Claims.fld e 55 2 ≠ 3 ∧ Claims.fld e 48 5 = 0 ∧ e.getLsbD 53 = false) ∧
    (let e := Claims.walkWord (tWalks 0xC000000000000000 0 0) (tWalk 0 0)
     e.extractLsb' 60 3 &&& (tWalk 0 0).need = 4 ∧ Claims.LeafAligned e 0 ∧ Claims.fld e 48 5 = 0) ∧
    (let e := Claims.walkWord (tWalks 0x8020000000000000 2 0) (tWalk 2 0)
     e.getLsbD 53 = true ∧ e.extractLsb' 60 3 &&& (tWalk 2 0).need = 0 ∧ Claims.LeafAligned e 2) := by
  refine ⟨walkReads_tWalks _ _ _ (by decide +kernel) (by decide +kernel), ?_⟩
  unfold Claims.LeafAligned
  decide +kernel

/-- A translation in the cache of the site: a leaf with read, write or neither permission. -/
def tCached (leaf : Word) : State :=
  { tWorld (tPier (tFlight false (tReq 3 0x10000))) with
    sites := [(0, { tcache := [{ job := 1, base := 0x10000, size := 0x10000, leaf, dirty := false }] })] }
theorem witness_TranslationIssuesRequest :
    fget (getStrand (tCached 0xC000000000000000) 0 0).inf 2 none = some (tInf false (tReq 3 0x10000)) ∧
    (cacheFind (getSite (tCached 0xC000000000000000) (siteKey (tCached 0xC000000000000000) 0)).tcache
      (jobOf (tCached 0xC000000000000000) 0) 0x10000).isSome = true ∧
    gmIsLoad 3 = true := by decide +kernel
theorem witness_TranslationIssuesRequest_grants : grants 0xC000000000000000 (gmNeed 3) = true ∧
    grants 0x8000000000000000 (gmNeed 3) = false ∧ physOf 0xC000000000000000 0 0x10000 < 2 ^ 39 := by decide +kernel
theorem witness_TranslationIssuesRequest_reach : reachable (tCached 0xC000000000000000) 0 0 = true := by decide +kernel
theorem witness_HbmAccessAtHome : (∀ l ∈ (getMod tS 0).leases, l.1 ≠ 5) ∧
    (∃ l ∈ (getMod (tIssue tRun id { tMod with leases := [(5, 1)] }) 0).leases, l.1 = 5) := by decide +kernel
/-- Aperture accesses to a pier of the partition and to one that it does not have, with and without a window, at the first and
last offsets. -/
theorem witness_ApertureAccessAtTarget :
    pkOfAddr tS 0 0 1 = some 0 ∧ pkOfAddr tS 0 1 1 = none ∧ residentOpen tS 0 = true ∧
    (getPier tS 0).lost = false ∧ winsOf tS 0 0 = List.replicate 8 0 ∧
    winAccepts 0 (tReq 3 0x80000000000000) 0 0 8 = false ∧ winAccepts 0xF800000004000000 (tReq 3 0x8000000003FFF8) 0 0 8 = true ∧
    residentOpen (tIssue tRun id { tMod with parts := [] }) 0 = false := by decide +kernel
theorem witness_GlobalAnswerLands : fget (getStrand (tWorld (tPier (tFlight true (tReq 0x2A 0x10000)))) 0 0).inf 2 none =
      some (tInf true (tReq 0x2A 0x10000)) ∧ Claims.gmSwaps 0x2A = true ∧ Claims.gmStores 0x2A = false := by decide +kernel

/-! Witnesses of the statements about translation caches and dirty logs. -/

/-- A dirty log with one entry, whose page has a leaf at level 3. -/
def tDlog : State := tWorld { tPier tRun with dlogCount := 1, xlroot := 0x100000 }
theorem witness_DirtyLogMerged : (getPier tDlog 0).dlogCount ≤ 256 ∧ (getPier tDlog 0).dlogCount = 1 := by decide +kernel
/-- An agent with a request under way at a site and an abutment, another waiting. -/
def tTlbi : TlbiReq := { pk := 0, a := 0, t := 0x1FF00010001 }
def tAgent (q : List TlbiReq) (cur : Option Inval) : State :=
  tIssue tRun id { tMod with agents := [(0, { queue := q, cur, origin := [(tTlbi, 1)] })] }
theorem witness_InvalidationQueues : (getAgent (tAgent [] none) 0 0).queue.length < 16 ∧
    16 ≤ (getAgent (tAgent (List.replicate 16 tTlbi) none) 0 0).queue.length := by decide +kernel
theorem witness_AgentBeginsInvalidation : (getAgent (tAgent [tTlbi] none) 0 0).cur = none ∧ (getAgent (tAgent [tTlbi] none) 0 0).queue = [tTlbi] := by
  decide +kernel
theorem witness_SiteInvalidates (i : Inval) (h : i = { req := tTlbi, sites := [0], abuts := [] }) :
    (getAgent (tAgent [] (some i)) 0 0).cur = some i ∧ 0 ∈ i.sites ∧
    (contextsAt (tAgent [] (some i)) 0 0).any (outstanding (tAgent [] (some i)) tTlbi) = false := by subst h; decide +kernel
theorem witness_InvalidationCompletes (i : Inval) (h : i = { req := tTlbi, sites := [], abuts := [] }) :
    (getAgent (tAgent [] (some i)) 0 0).cur = some i ∧ Claims.fld tTlbi.t 32 9 = 511 ∧
    (getAgent (tAgent [] (some i)) 0 0).origin = [(tTlbi, 1)] ∧ pkMod tTlbi.pk = 0 := by subst h; decide +kernel
theorem witness_QuietCounter : Claims.QuietCounter (tIssue tRun fun p => { p with sluices := [(5, { action := 0x4000000000000000 })] }) 0 5 :=
  ⟨by decide +kernel, by decide +kernel, by unfold Claims.NoWaits; decide +kernel⟩

/-! Witnesses of the statements about vx, mx, kf, ms and sl. -/

/-- A vector of sixteen lanes, all valid, none valid, and one. -/
def tVec (k : BitVec 16) : Value := ⟨.vec 0x0000000300000002 k, false⟩
/-- A run that has it in v1 and in the ports of vx. -/
def tVx (k : BitVec 16) : State := tIssue { tRun with v := [(1, tVec k)], op := [(OpSel.vxA.index, some (tVec k)), (OpSel.vxB.index, some (tVec k))] }
theorem witness_VectorElementwise : Claims.Fires (tVx 0xFFFF) ⟨false, 0, .v 1⟩ (tVec 0xFFFF) ∧ Claims.Port (tVx 0xFFFF) .vxA (tVec 0xFFFF) ∧
    Claims.Port (tVx 0xFFFF) .vxB (tVec 0xFFFF) ∧ Claims.validElem 64 0x3 0 = true ∧ Claims.validElem 64 0x1 0 = false ∧
    Claims.validElem 16 0x1 1 = true ∧ Claims.laneValid 16 (fun j => j == 0) 0 = false := by
  refine ⟨⟨rfl, rfl⟩, rfl, rfl, ?_⟩
  decide
theorem witness_VectorReductions : Claims.Fires (tVx 0) ⟨false, 0, .v 1⟩ (tVec 0) ∧ Claims.Fires (tVx 3) ⟨false, 0, .v 1⟩ (tVec 3) :=
  ⟨⟨rfl, rfl⟩, ⟨rfl, rfl⟩⟩
/-- The formats VCVT takes from FP32 to FP32, and the reserved code 9. -/
theorem witness_VectorConversion : Claims.Port (tIssue (tRun (tV 0x66))) .vxA (tV 0x66) ∧ Claims.fld 0x66 0 4 = 6 ∧ Claims.fld 0x66 4 4 = 6 ∧
    Claims.fld 0x66 8 3 = 0 ∧ ¬(Claims.fld 0x69 0 4 ∈ [0, 1, 2, 3, 4, 5, 6, 8]) := ⟨rfl, by decide⟩

/-- The sluices that a completion may name, with the last of the job's and the first of the service's. -/
theorem witness_MatrixTriggersQueue : (curPier tS).mq.length < 16 ∧ Claims.fld 8 10 9 < 496 ∧
    (Instr.mma (tMv 8), MOp.mma, false) ∈ Claims.mxForms (tMv 8) := by decide +kernel
theorem witness_mstSource : Claims.mstSource .mstRaw 19 ∧ ¬Claims.mstSource .mstRaw 20 ∧
    Claims.mstSource .mstBf16 16 ∧ ¬Claims.mstSource .mstBf16 15 ∧ Claims.mstSource .mstF32 18 ∧ ¬Claims.mstSource .mstF32 17 := by
  simp [Claims.mstSource]
/-- Configurations at their limits: BF16 rows of 32 elements, 64 rows of one slot, 64 rows of two, a format of 9. -/
theorem witness_TileFits : Claims.TileFits 0x7C01 ∧ Claims.TileFits (0x7C01 + 63 * 16) ∧ ¬Claims.TileFits (0xFC01 + 63 * 16) ∧ ¬Claims.TileFits 9 := by
  unfold Claims.TileFits Claims.fld; decide
/-- A queue whose head is given. -/
def tMq (e : MEntry) (run : Option Nat) (step : Nat) : State :=
  tWorld { tPier tRun with mq := [e], mrun := run, mstep := step, tileCfg := [(0, 0x7DF1)],
                           claims := [(0, some 1), (16, some 1)] }
/-- An entry. -/
def tEntry (op : MOp) (t : Word) (released : Bool) : MEntry :=
  { tok := 4, op, t, a := 2, released, at_ := 99, actor := 1, lp := 0, strand := 0, runid := 9, bundle := 5, move := 0 }
theorem witness_MatrixEntryExecutes : Claims.HeadBegins (tMq (tEntry .mzero 0x7FC00 true) none 0) 0 (tEntry .mzero 0x7FC00 true) [] ∧
    Claims.HeadBegins (tMq (tEntry .mcfg 0x7DF1 true) none 0) 0 (tEntry .mcfg 0x7DF1 true) [] ∧ (tEntry .mma 0 false).released = false :=
  ⟨⟨rfl, rfl, rfl, by decide⟩, ⟨rfl, rfl, rfl, by decide⟩, rfl⟩
theorem witness_MatrixEntryExecutes_faults :
    (mxCheck (tMq (tEntry .mma 0 true) none 0) 0 (tEntry .mma 0 true)).isSome = true := by decide +kernel
theorem witness_MatrixEntryCompletes : (getPier (tMq (tEntry .mzero 0x7FC00 true) (some 4) 16) 0).mrun = some 4 ∧
    Claims.fld (tEntry .mzero 0x7FC00 true).t 10 9 = 511 ∧
    mxSteps (getPier (tMq (tEntry .mcfg 0x7DF1 true) (some 4) 1) 0) (tEntry .mcfg 0x7DF1 true) ≤ 1 := by decide +kernel

/-- A request at keystone 0. -/
def tKReq : KReq := { pk := 0, strand := 0, entry := 0, tok := 3, fn := 0, bf := false, v := tVec 1 }
theorem witness_KeystoneTriggers : freeEntry (curStrand tS) = some 0 ∧ Claims.keystone tS 0 = 0 ∧ Claims.kfQueue tS 0 0 = [] := by decide +kernel
theorem witness_KeystoneAccepts : Claims.kfQueue (tIssue tRun id { tMod with keystones := [(0, { reqs := [tKReq] })] }) 0 0 = tKReq :: [] := rfl
/-- A keystone request in flight. -/
def tKf : Inflight := { (tInf true (tReq 0 0)) with kind := .kf }
theorem witness_KeystoneResultLands : fget (getStrand (tIssue { tRun with inf := [(0, some tKf)], res := [(0xA0, .pending 3)] }) 0 0).inf 0 none =
    some tKf := rfl

/-- An address of actor 1 on pier 0 for class 29, one for class 30 and one of class 31 to actor 63. -/
theorem witness_SendAndReply : Claims.SendReady tS ∧ Claims.Port (tIssue (tRun (tV 0x1D0000001))) .msA (tV 0x1D0000001) ∧
    Claims.fld 0x1D0000001 28 5 = 29 ∧ Claims.fld 0x1E0000001 28 5 = 30 ∧ Claims.fld 0x1F000003F 0 6 = 63 ∧
    Claims.fld 0x60000 16 3 = 6 ∧ Claims.fld 0x70000 16 3 = 7 ∧ curService tS = false ∧
    curService (tIssue { tRun with service := true }) = true :=
  ⟨⟨by decide +kernel, by decide +kernel⟩, rfl, by decide +kernel⟩
theorem witness_SendHolds : gmEntries (tIssue (tFlight true (tReq 8 0x10000))) ≠ [] := by decide +kernel
theorem witness_MessageStatus : Claims.fld 0 0 3 = 0 ∧ Claims.fld 1 0 3 = 1 ∧ Claims.fld 2 0 3 = 2 ∧ Claims.fld 3 0 3 = 3 := by decide

/-- A sluice of each mode, armed. -/
def tSl (action : Word) (count target : BitVec 32) (leads : List Nat := []) : State :=
  tIssue (tRun (tV 5)) fun p => { p with sluices := [(5, { action, count, target, armed := true, leads })] }
theorem quiet_tSl (action : Word) (c t : BitVec 32) (l : List Nat) : Claims.NoWaits (tSl action c t l) (tSl action c t l).issue.pk := by
  intro e he; simp [tSl, tIssue, tWorld, tPier, getPier, fget, tRun] at he; subst he; rfl
/-- The last sluice of the job and the first of the service. -/
theorem witness_SluiceArmAndSet : Claims.SlAllowed tS 495 ∧ ¬Claims.SlAllowed tS 496 ∧
    Claims.SlAllowed (tIssue { tRun with service := true }) 510 ∧ ¬Claims.reached 0 1 ∧ Claims.reached 1 1 ∧ Claims.reached 0x7FFFFFFF 0 ∧
    ¬Claims.reached 0x80000000 0 := by unfold Claims.SlAllowed Claims.reached; decide +kernel
/-- Action words of each mode: a home of 64 members and of 1, a member. -/
theorem witness_SluiceModes : Claims.fld 0 62 2 = 0 ∧ Claims.fld 0x4000000000000000 62 2 = 1 ∧
    Claims.fld 0x80000040FC000000 62 2 = 2 ∧ Claims.fld 0x80000040FC000000 32 7 = 64 ∧ Claims.fld 0x80000040FC000000 26 6 = 63 ∧
    Claims.fld 0x8000000100000000 32 7 = 1 ∧ Claims.fld 0xC000000000000000 62 2 = 3 ∧
    leadsUsed (curPier (tSl 0 0 0)) = 0 := by decide +kernel
theorem witness_SluiceAddAndFire : Claims.Port (tSl 0x4000000000000020 0 32) .slA (tV 5) ∧ Claims.slNo (tV 5) = 5 ∧
    (getSluice (tSl 0x4000000000000020 0 32) 0 5).armed = true ∧ (getSluice (tSl 0x4000000000000020 0 32) 0 5).firedAt = none ∧
    Claims.PlainAction (getSluice (tSl 0x4000000000000020 0 32) 0 5) :=
  ⟨rfl, by decide, rfl, rfl, ⟨by decide +kernel, by decide +kernel⟩⟩
/-- A post for actor 1. -/
theorem witness_FiringPosts : (let x : Word := 0x5040000000000020; x.getLsbD 60 = true ∧ x.getLsbD 61 = false ∧ Claims.fld x 54 6 = 1 ∧ Claims.fld x 62 2 = 1) ∧
    (getActor (tSl 0x5040000000000020 0 5) 0 1).st ≠ .free := by decide +kernel
theorem witness_BarrierArrive : (let x := getSluice (tSl 0xC000000000000000 2 0) 0 5; (x.count.toNat % 4 + 4 - x.phase.toNat) % 4 = 2) ∧
    (let x := getSluice (tSl 0xC000000000000000 3 0) 0 5; (x.count.toNat % 4 + 4 - x.phase.toNat) % 4 = 3) ∧ gmEntries (tSl 0 3 0) = [] := by
  decide +kernel
/-- An add from an outbox, for sluice 5 of pier 0. -/
def tAdd (form : BitVec 2) (member : BitVec 6) : SlAdd :=
  { mod := 0, pier := 0, job := 1, sl := 5, form, member, add := 1, cancelled := false, frm := .outbox 0 1 }
theorem witness_SluiceArrivals : Claims.Arrives (tSl 0x4000000000000000 0 9) (tAdd 0 0) 0 0 1 :=
  ⟨rfl, rfl, by decide +kernel, by decide +kernel, fun c h => by
    rw [show (getPier (tSl 0x4000000000000000 0 9) 0).cancels = [] from rfl] at h
    exact absurd h List.not_mem_nil⟩
theorem witness_SluiceArrivals_home : (0 : Nat) ∈ [1, 0].set 0 2 ∧ (0 : Nat) ∉ [1, 0].set 1 1 ∧
    (getSluice (tSl 0x8000000200000000 0 9 [1, 0]) 0 5).leads = [1, 0] := by decide +kernel
theorem witness_SluiceChecksAgain : (getSluice (tIssue tRun fun p => { p with sluices := [(5, { action := 0x4000000000000000, again := true })] }) 0 5).again = true := rfl

/-! Witnesses of the statements about streams, control words, actors and messages. -/

/-- The common part of a command of the run: a plain SREAD of 16 FP32 elements at address 0x10000, no sluice named. -/
def tCmd (kind : BitVec 3) (t : Word) : StreamCmd :=
  { pk := 0, lp := 0, strand := 0, entry := 0, tok := 3, actor := 1, runid := 9, bundle := 5, move := 0, kind, q0 := 0x10000,
    q1 := 0x3FFFF0000001, q2 := 0x6000001000, q3 := 0x400000010, q4 := 1, q5 := 0, t }
/-- Its stream. -/
def tStream (phase : StPhase) (kind : BitVec 3 := 0) : Stream :=
  { sid := 2, cmd := tCmd kind 0, phase, total := 1, answered := true }
/-- A pier beside an abutment 0 that has this context. -/
def tSg (a : Abut) (p : Pier := tPier tRun) : State := tWorld p { tMod with abuts := [(0, a)] }
theorem witness_StreamCommandsStart : Claims.Fires tS (tMv 0) (tV 0) ∧ freeEntry (curStrand tS) = some 0 ∧ gmEntries tS = [] ∧
    Claims.fld (0x80000#64) 19 45 ≠ 0 ∧ Claims.fld (0x7FFFF#64) 19 45 = 0 := ⟨⟨rfl, rfl⟩, by decide +kernel⟩
theorem acceptable_tCmd : Claims.Acceptable (tSg {}) 0 0 (tCmd 0 0) :=
  ⟨by decide, by unfold Claims.Extended; decide, by decide, by decide, by decide +kernel, by decide +kernel, by decide, by decide, by decide⟩
theorem witness_StreamCommandArrives_full : (let x : Abut := { queue := List.replicate 64 (tCmd 0 0) }; x.queue ≠ [] ∧ 64 ≤ x.queue.length) ∧
    (tCmd 7 0).kind.toNat = 7 ∧ (tSg {}).cal = [] ∧ (getAbut (tSg {}) 0 0).ctxs = [] := by decide +kernel
theorem witness_StreamCommandArrives_cancels (s : State) (h : s = tSg { ctxs := [(2, some (tStream .active))] }) :
    (getAbut s 0 0).ctxs = [((tStream .active).sid, some (tStream .active))] ∧ (tStream .active).cmd.pk = (tCmd 7 0).pk ∧
    (tStream .active).unacked = [] ∧ (tStream .active).peer = none ∧ (tStream .active).stop = none := by subst h; exact ⟨rfl, rfl, rfl, rfl, rfl⟩
/-- Its scratchpad side: the pier of the run, actor 1 not free, and free or retired. -/
theorem witness_StreamOpens (s : State) (h : s = tSg { ctxs := [(2, some (tStream .opening))] }) :
    fget (getAbut s 0 0).ctxs 2 none = some (tStream .opening) ∧ Claims.fld (tCmd 0 0).q1 0 6 = 1 ∧
    pkOfAddr s (Claims.fld (tCmd 0 0).q1 16 12) (Claims.fld (tCmd 0 0).q1 6 10) (jobOf s 0) = some 0 ∧ reachable s 0 0 = true ∧
    handleOf (getPier s 0) 0 0 2 = none ∧ (getActor s 0 1).st ≠ .free ∧ residentOpen s 0 = true := by subst h; decide +kernel
/-- A stream whose turn it is, with its page known. -/
def tTurn : Stream :=
  { (tStream .active) with scan := 1, extents := [{ job := 1, base := 0x10000, size := 0x10000, leaf := 0xC000000000000000, dirty := false }] }
theorem witness_StreamReadsMemory (s : State) (h : s = tSg { ctxs := [(2, some tTurn)], last := 2, left := 3 }) :
    (getAbut s 0 0).last = tTurn.sid ∧ 0 < (getAbut s 0 0).left ∧ tTurn.next < tTurn.total ∧ tTurn.next < tTurn.scan ∧
    fget tTurn.cross tTurn.next 0 ≤ s.cycle ∧
    tTurn.total = (Claims.streamBytes tTurn.cmd + 63) / 64 ∧ Claims.fld tTurn.cmd.q2 36 4 ≠ 4 ∧
    (extentOf tTurn (Claims.byteVa tTurn.cmd 63) 4).isSome = true ∧ 0 ≤ Claims.elemAt tTurn.cmd 63 := by subst h; decide +kernel
/-- A flit of the stream in the region of its actor, one outside it. -/
def tFlit (off : Nat) : Flit := { mod := 0, abut := 0, sid := 2, idx := 0, off, nb := 64, data := 1, poison := false, add := false }
/-- The pier has granted the stream its handle. -/
def tGranted : State :=
  tSg { ctxs := [(2, some (tStream .active))] } { tPier tRun with handles := [(0, some { mod := 0, abut := 0, sid := 2, job := 1, q1 := (tCmd 0 0).q1, ring := 0 })] }
theorem witness_StreamFlitsLand : Claims.AtItsPier tGranted (tFlit 0x1000) (tStream .active) 0 :=
  ⟨rfl, rfl, by decide +kernel, by decide +kernel, by decide +kernel⟩
theorem witness_StreamFlitsLand_region : Claims.InRegion tGranted (tStream .active) 0 (tFlit 0x1000) ∧
    Claims.InRegion tGranted (tStream .active) 0 (tFlit 0x1FC0) ∧ ¬Claims.InRegion tGranted (tStream .active) 0 (tFlit 0x2000) ∧
    ¬Claims.InRegion tGranted (tStream .active) 0 (tFlit 0xFC0) := by unfold Claims.InRegion; decide +kernel
theorem witness_StreamFlitsLand_goes : Claims.GoesOn (tStream .active) (tFlit 0) ∧ Claims.AddsTo tGranted (tStream .active) 0 (tFlit 0) ∧
    Claims.Credit tGranted (tStream .active) 0 0 0 ∧ refreshWait 4096 0 = 0 :=
  ⟨fun x h => by simp [tStream] at h, fun h => by simp [tFlit] at h, .inl (by decide), by decide⟩
theorem witness_StreamFlitsResent : (tStream .active).phase ≠ .ending ∧ (tStream .ending).phase = .ending ∧
    1 < ({ tStream .active with adds := 2 } : Stream).adds ∧ ∃ k ∈ ({ tStream .ending with unacked := [0, 1] } : Stream).unacked, k ≠ (tFlit 0).idx := by
  decide
/-- A side of an exchange and its partner on the same abutment of module 1. -/
def tSide (pk sid : Nat) : Stream :=
  { tStream .pairing 5 with sid, cmd := { tCmd 5 0 with pk, q2 := 0, q3 := 1, q4 := 1, q5 := 1 }, rtotal := 1 }
/-- Both sides. -/
def tPair : State :=
  { tWorld (tPier tRun) with
    torus := (2, 1, 1)
    mods := [(0, { tMod with abuts := [(0, { ctxs := [(2, some (tSide 0 2))] })] }),
             (1, { tMod with abuts := [(0, { ctxs := [(3, some (tSide 8192 3))] })] })] }
theorem witness_ExchangesPair : Claims.Partners tPair 0 0 (tSide 0 2) (tSide 8192 3) :=
  ⟨rfl, rfl, by decide, by decide, by decide, by decide, by decide, by decide, by decide +kernel⟩
theorem witness_ExchangesPair_reach : reachable tPair 0 1 = true ∧ (tSide 0 2).wlow < (tSide 0 2).rtotal := by decide +kernel

/-- The control words at the edges of their checks: weir 0, 1, 256 and 257, a window that ends past the job's scratchpad. -/
theorem witness_CwAllows : Claims.CwAllows 0x12 1 ∧ Claims.CwAllows 0x12 256 ∧ ¬Claims.CwAllows 0x12 0 ∧ ¬Claims.CwAllows 0x12 257 ∧
    Claims.CwAllows 0x13 12 ∧ ¬Claims.CwAllows 0x13 13 ∧ ¬Claims.CwAllows 0x108 5 ∧ Claims.CwAllows 0x108 0x100000000 ∧
    Claims.CwAllows 0x20 (BitVec.ofNat 64 (0xFC0 * 2 ^ 14)) ∧ ¬Claims.CwAllows 0x20 (BitVec.ofNat 64 (0xFC1 * 2 ^ 14)) := by
  simp [Claims.CwAllows, Claims.fld]
theorem witness_ControlWordsRead : Claims.Fires tS (tMv 4) (tV 4) ∧ (∀ p ∈ (curStrand tS).pend, p.seed = false) ∧ curService tS = false :=
  ⟨⟨rfl, rfl⟩, by decide +kernel, by decide +kernel⟩
theorem witness_ControlWordsWritten : Claims.Port (tIssue (tRun (tV 0x12))) .syA (tV 0x12) ∧ (0x12 : Nat) < 0x100 ∧
    (0x12, 0x1FF, 0x1FF) ∈ Claims.cwFields (tIssue (tRun (tV 0x12))) :=
  ⟨rfl, by decide, List.mem_append_left _ (.tail _ (.head _))⟩

/-- A record: any entry, region 0x1000 to 0x2000, weir 16, graph 0, no handlers. -/
def tRecord (w0 : Word) : List Word := [w0, 0x1000, 0x2000, 16, 0, 0, 0, 0]
/-- A creation of that record waits to take effect. -/
def tCreate (w0 : Word) : State :=
  tIssue { tRun with pend := [{ tok := 7, unit := 12, r := none, h := none, create := some (tRecord w0), seed := false, sample := none }],
                     res := [(0xB0, .pending 7)] }
theorem witness_RecordFits : Claims.RecordFits (tCreate 0x40) 1 fun i => (tRecord 0x40).getD i 0 :=
  ⟨by decide, by decide, by decide, by decide, by decide, ⟨by decide, by decide +kernel⟩, by decide, fun i h => absurd h (by decide +revert)⟩
theorem witness_RecordFits_not : ¬Claims.RecordFits (tCreate 0x3F) 1 fun i => (tRecord 0x3F).getD i 0 := fun h => absurd h.index (by decide)
theorem witness_AsksFor : Claims.AsksFor (getPier (tCreate 0x40) 0) 0x40 0 ∧ Claims.AsksFor (getPier (tCreate 0x40) 0) 5 5 ∧
    ¬Claims.AsksFor (getPier (tCreate 0x40) 0) 1 1 := by unfold Claims.AsksFor; decide +kernel
theorem witness_ActorsCreated : (0x1000#64).toNat % 64 = 0 ∧ (0x1001#64).toNat % 64 ≠ 0 ∧ Claims.spadNum tS 0 0x1038 8 % 64 = 0 ∧
    (freeHandlers (getPier (tCreate 0x40) 0)).length = 128 := by decide +kernel
theorem witness_CompletionTriggers : curService tS = false ∧ Claims.fld 3 0 2 = 3 ∧ Claims.fld 2 0 2 ≠ 3 ∧
    (getAgent tS (pkMod 0) (siteOf tS 0 / 256)).queue.length < 16 := by decide +kernel

/-- A message of class 1 to actor 1. -/
def tMsg : Msg := { dact := 1, cls := 1, sact := 2, job := 1, words := 1, pay := [7] }
/-- A pier whose actor 1 is idle, with the entry that binds class 1. -/
def tIdle (inbox : List Slot) : Pier :=
  { actors := [(1, { st := .idle }), (2, { st := .idle }), (63, { st := .idle })], handlers := [(0, 0x8210100000000000)], inbox }
theorem binds_tIdle (l : List Slot) : Claims.Binds (tIdle l) 1 1 0x8210100000000000 :=
  ⟨0, by decide, rfl, by unfold Claims.Binds.matches_; decide, fun k h => absurd h (Nat.not_lt_zero k)⟩
/-- An outbox with one entry, sent or refused. -/
def tOut (b : OutBody) (unit : BitVec 5) (retry : Bool) : OutEntry :=
  { tok := 4, key := .toPier 1 0 0, body := b, sent := !retry, retry, refused := retry, actor := 1, runid := 9, bundle := 5, strand := 0, move := 0,
    w3 := 0, unit }
/-- The pier with the entry of the message in its outbox. -/
def tPosted : State := tWorld { tIdle [] with outbox := [tOut (.msg tMsg) 9 false] }
theorem witness_MsgArrives : Claims.MsgArrives tPosted tMsg (tOut (.msg tMsg) 9 false) (.outbox 0 4) 0 0 4 :=
  ⟨rfl, rfl, by decide, rfl, by decide +kernel, rfl⟩
theorem witness_Taken : Claims.Taken (tIdle []) (tOut (.msg tMsg) 9 false) tMsg tMsg := ⟨0, by decide +kernel, by simp [tMsg]⟩
/-- A notice of actor 63, bound by no entry, keeps the urgent flag and has priority 3; a post of a sluice keeps its own. -/
theorem witness_Taken_notice (g : Msg) (h : g = { tMsg with sact := 63, cls := 30, flags := 1 }) :
    Claims.Taken (tIdle []) (tOut (.msg g) 9 false) g { g with prio := 3 } ∧ Claims.Taken (tIdle []) (tOut (.msg g) 10 false) g g := by
  subst h
  refine ⟨⟨3, by decide, ?_⟩, 0, by decide, by simp [tOut, tMsg]⟩
  rw [if_pos (by decide)]
  exact .inr ⟨fun n _ => by
    by_cases h : n = 0
    · subst h; decide
    · have : fget (tIdle []).handlers n 0 = 0 := by simp [tIdle, fget, Ne.symm h]
      rw [this]; decide, rfl⟩
/-- The module with a table at 0x100000 and one of level 2 below it, whose first entry is a leaf for addresses from 0. -/
def tMapped (leaf : Word) : Module :=
  { tMod with hbm := mwrite (mwrite [] (dramLoc 0 0x100000) 8 0x8000000000010200) (dramLoc 0 0x102000) 8 leaf.toNat }
/-- Actor 1 with a spillway of 1,024 messages at address 0, where a leaf grants writes or reads alone. -/
def tSpilling (leaf : Word) : State :=
  tWorld { tIdle [] with xlroot := 0x8000000000010000, actors := [(1, { st := .idle, weir := 0, spill := 0x10 }), (63, { st := .idle })] }
    (tMapped leaf)
theorem witness_spillFits : Claims.spillFits (tSpilling 0xE020000000000000) 0 1 ∧ ¬Claims.spillFits (tSpilling 0xC020000000000000) 0 1 := by
  unfold Claims.spillFits; decide +kernel
theorem witness_MessagesAdmitted : (getActor (tWorld (tIdle [])) 0 1).st ≠ .free ∧ ¬Claims.spills (getActor (tWorld (tIdle [])) 0 1) ∧
    Claims.held (tIdle []) 1 < (getActor (tWorld (tIdle [])) 0 1).weir.toNat ∧ Claims.used (tIdle []) < 496 ∧
    ¬(Claims.held (tIdle []) 1 < (getActor (tSpilling 0) 0 1).weir.toNat) ∧
    Claims.isExempt { tMsg with kind := 6 } = true := by unfold Claims.spills; decide +kernel
/-- A spillway with one message. -/
theorem witness_SpillwayReturns (a : Actor) (h : a = { st := .idle, spilled := [(tMsg, 90)], transit := 1 }) :
    a.spilled = [(tMsg, 90)] ∧ tMsg.flags.getLsbD 0 = false ∧ 1 ≤ a.transit ∧ a.transit ≤ 16 ∧ a.st ≠ .evicted := by subst h; decide
/-- Two slots that wait. -/
def tSlot (act : BitVec 6) (prio : BitVec 2) : Slot := { msg := { tMsg with dact := act, prio }, admitted := 50, since := 50, reserve := false, urgent := false }
theorem witness_MayDispatch : Claims.MayDispatch (tWorld (tIdle [tSlot 1 0])) 0 0 :=
  ⟨by decide +kernel, by decide +kernel, by decide +kernel, by decide +kernel, by decide +kernel, by decide +kernel⟩
theorem witness_Eligible : Claims.Eligible (tWorld (tIdle [tSlot 1 0])) 0 1 := ⟨by decide, by decide +kernel, by decide +kernel⟩
theorem witness_Unbound : Claims.Unbound (tIdle [tSlot 2 0]) 2 1 := by
  intro n _; by_cases h : n = 0
  · subst h; decide
  · have : fget (tIdle [tSlot 2 0]).handlers n 0 = 0 := by simp [tIdle, fget, Ne.symm h]
    rw [this]; decide
theorem witness_Dispatches : Claims.Waits (tWorld (tIdle [tSlot 1 0])) (tSlot 1 0) ∧
    Claims.effective (tWorld (tIdle [])) 0 (tSlot 2 0) < Claims.effective (tWorld (tIdle [])) 0 (tSlot 1 3) ∧
    (getActor (tWorld (tIdle [])) 0 63).st ≠ .running := by unfold Claims.Waits; decide +kernel
/-- An actor whose lock is free, one whose is not; a watchdog at and below its limit. -/
theorem witness_RunsEndAndExpire : (getActor (tWorld { tIdle [] with actors := [(1, { st := .idle, ending := true })] }) 0 1).ending = true ∧
    (getStrand (tIssue { tRun with wd := 1024 }) 0 0).status = .running ∧ 2 ^ ({ tRun with wd := 1024 } : Strand).wexp ≤ 1024 ∧
    1023 < 2 ^ ({ tRun with wd := 1023 } : Strand).wexp := by decide +kernel
theorem witness_OutboxAnswers (e : OutEntry) (h : e = tOut (.msg tMsg) 9 true) :
    (getPier (tWorld { tIdle [] with outbox := [e] }) 0).outbox = [e] ∧ e.retry = true ∧ e.sent = false ∧ e.after = [] ∧
    (tOut (.add (tAdd 0 0)) 10 false).actor ≠ 63 := by subst h; decide +kernel

/-! Witnesses of the statements about groups, cancels, halts, partitions, the service actor, the host port and Veiviush. -/

/-- Group 4 with one member, actor 1 of pier 0, and a copy for it; as a sum, with two members. -/
def tGroup (op : Nat) (ms : List (BitVec 28)) (detached : List Nat := []) : Group :=
  { hdr := BitVec.ofNat 64 (2 ^ 63 + op * 2 ^ 60 + 2 ^ 38 + 1), members := ms, detached }
/-- A copy that is not admitted yet, refused once; one that leaves for a spillway. -/
def tMCopy (left unicast : List Nat) : MCopy :=
  { tok := 4, pk := 0, entry := 1, group := 4, msg := tMsg, left, refused := left, unicast }
/-- The module with the group and the copy, where the count of the branch stands at a number. -/
def tMulti (g : Group) (lag : Nat) (c : MCopy := tMCopy [0] []) (p : Pier := tIdle []) : State :=
  tWorld p { tMod with groups := [(4, { g with lag := [(0, lag)] })], copies := [c] }
theorem witness_MulticastCopiesArrive : Claims.CopyArrives (tMulti (tGroup 0 [1]) 65536) 0 4 0 (tMCopy [0] []) 1 0 :=
  ⟨rfl, rfl, rfl, by decide +kernel, by decide +kernel, ⟨rfl, rfl, rfl⟩, by decide⟩
theorem witness_MulticastCopiesArrive_unicast (p : Pier) (h : p = { tIdle [] with actors := [(1, { st := .idle, spill := 0x10 })] }) :
    Claims.CopyArrives (tMulti (tGroup 0 [1] [0]) 0 (tMCopy [] [0]) p) 0 4 0 (tMCopy [] [0]) 1 0 := by
  subst h; exact ⟨rfl, rfl, rfl, by decide +kernel, by decide +kernel, ⟨rfl, rfl, rfl⟩, by decide⟩
/-- The laggard limit, and one cycle less; a detached branch. -/
theorem witness_MulticastCopiesArrive_limit :
    (let s := tMulti (tGroup 0 [1]) 65536
     max 4096 (getPier s 0).laglim.toNat ≤ fget (fget (getMod s 0).groups 4 {}).lag 0 0) ∧
    (let s := tMulti (tGroup 0 [1]) 65535
     fget (fget (getMod s 0).groups 4 {}).lag 0 0 < max 4096 (getPier s 0).laglim.toNat) ∧
    (tMCopy [] [0]).unicast.contains 0 = true ∧ pkMod (tMCopy [0] []).pk = 0 := by decide +kernel
/-- A contribution of actor 2 of pier 0 as member 1 of a sum. -/
def tContrib : Msg := { tMsg with sact := 2, smod := 0, spier := 0, kind := 7, pay := [0x3F8000003F800000] }
/-- The module with the group, the pier with the entry. -/
def tReduce (r : Round) : State :=
  tWorld { tIdle [] with outbox := [tOut (.reduce 4 tContrib) 9 false] } { tMod with groups := [(4, tGroup 1 [1, 2])], rounds := [(4, r)] }
theorem witness_ReductionRounds (r : Round) : Claims.Contributes (tReduce r) tContrib (.outbox 0 4) 4 1 1 :=
  ⟨⟨0, 4, tOut (.reduce 4 tContrib) 9 false, rfl, rfl, rfl, tContrib, rfl⟩, (by decide : (tGroup 1 [1, 2]).hdr.getLsbD 63 = true),
    (by decide : Claims.fld (tGroup 1 [1, 2]).hdr 38 12 = 1), ⟨(by decide : Claims.fld (tGroup 1 [1, 2]).hdr 60 3 = 1), by decide⟩,
    by
      show reachable (tReduce r) 0 (Claims.fld (tGroup 1 [1, 2]).hdr 16 12) = true
      rw [(by decide : Claims.fld (tGroup 1 [1, 2]).hdr 16 12 = 0)]
      rfl, rfl,
    fun j h => by
      have : j = 0 := by omega
      subst this
      show some (1 : BitVec 28) ≠ some 2
      decide⟩
theorem witness_ReductionRounds_last : fget ({ got := [(0, some tContrib)] } : Round).got 0 none = some tContrib ∧
    (∀ j < 2, fget (fset [(0, some tContrib)] 1 (some tContrib)) j none ≠ none ∧ 0 < fget (fadj [(0, 1)] 1 0 (· + 1)) j 0) ∧
    Claims.redOf 1 [(0, some tContrib), (1, some tContrib)] 2 0 = 0x40000000 ∧
    addF32 0x3F800000 0x3F800000 = 0x40000000 ∧ fvNan (fvOf fmtFp32 0x40000000) = false := by decide +kernel
/-- A cancel under way. -/
def tCancel (piers : List Nat) (markers : Nat) : State :=
  tWorld (tIdle []) { tMod with cancelRun := some { job := 1, level := 2, id := 1, piers, markers } }
theorem witness_JobControllerCancels : (getMod (tCancel [] 0) 0).cancelRun.isSome = true ∧ (getMod (tCancel [] 0) 0).cancels = [] ∧
    piersOfJob (tCancel [0] 0) 1 = [0] ∧ (getJob (tCancel [] 0) 1).img.graphs.length = 1 := by decide +kernel
theorem witness_CancelsAtPiers : residentOpen tS 0 = true ∧ (jobOf tS 0).toNat = 1 ∧ tS.mods.map (·.1) = [pkMod 0] ∧
    (getMod tS 0).abuts = [] ∧ (getPier tS 0).strands = [(0, tRun)] ∧ (getActor tS 0 1).st = .running := by decide +kernel
/-- A phase that module 0 has not opened yet. -/
theorem witness_PhasesAndHolds (s : State) (h : s = { tS with jobs := [(1, { waitOpen := [0], beginReq := some (0, tMsg) })] }) :
    (getJob s 1).waitOpen.contains 0 = true ∧ swldBusy s 0 1 = false ∧ (getJob s 1).beginReq = some (0, tMsg) ∧ partOfJob s 0 1 = some 0 := by
  subst h; decide +kernel

/-- A halt of partition 0 that waits for one who has not acknowledged. -/
def tHalt (who : Nat) : Halt := { parts := [(0, [0])], waiting := [(0, who)], start := 50, next := .stay }
/-- The machine under it. -/
def tHalting (who : Nat) (p : Pier) (cycle : Nat) (sp : FMap (Option Nat) := []) : State :=
  { tWorld p { tMod with halts := [tHalt who], veiv := { pierSpared := sp } } with cycle }
theorem haltWaits_tHalting (who : Nat) (p : Pier) (c : Nat) : Claims.HaltWaits (tHalting who p c) 0 0 who (tHalt who) := ⟨rfl, rfl⟩
theorem witness_PartitionsHalt : locOf tS 0 0 0 = .piers ∧ (getPier (tHalting 0 (tPier tRun) 100) 0).halting = false ∧
    pierDrained (tIdle []) = true ∧ streamAtRest (tStream .paused) = true := by decide +kernel
/-- A stream with a page walk under way is not at rest. -/
theorem witness_PartitionsHalt_busy : streamAtRest { tStream .active with unacked := [0] } = false := by decide +kernel
/-- A save limit at its edge: 32,768 cycles on, and one less; with and without a row that is spared. -/
theorem witness_HungPiersAreFenced (s : State) (h : s = tHalting 0 { tIdle [] with halting := true, haltCount := 100 } 32868 [(0, some 3)]) :
    max 16800 (getPier s 0).savelim.toNat ≤ s.cycle - (getPier s 0).haltCount ∧ (getPier s 0).fenced = false ∧
    ¬(max 16800 (getPier s 0).savelim.toNat ≤ s.cycle - 1 - (getPier s 0).haltCount) ∧
    fget (getMod s 0).veiv.pierSpared 0 none = some 3 ∧ fget (getMod tS 0).veiv.pierSpared 0 none = none := by subst h; decide +kernel
theorem witness_OnItsSite : Claims.OnItsSite tS 0 := ⟨by decide +kernel, by decide +kernel, by decide +kernel, by decide +kernel⟩
/-- Partition 1 in the shadow stores of half-span 0, partition 2 saved, partition 0 halted there. -/
def tMove : State :=
  tWorld (tIdle []) { tMod with parts := tMod.parts ++ [(1, { job := 2, inUse := true, table := [(0, 0x80000000)], halfspans := 1, loc := [(0, .shadow)] }),
    (2, { job := 3, inUse := true, table := [(0, 0x80000000)], savedTable := [(0, 0x80000000)], halfspans := 1, loc := [(0, .saved)] })] }
theorem witness_PartitionsMove : locOf tMove 0 1 0 = .shadow ∧ residentAt tMove 0 0 = some 0 ∧ (getMod tMove 0).gangBusy = [] ∧
    locOf tMove 0 2 0 = .saved ∧ shadowAt tMove 0 0 = some 1 ∧ piersAt tMove 0 1 0 = [1024] := by decide +kernel
theorem witness_PartitionsMove_quiet : Claims.Quiet tMove 0 1 0 := by unfold Claims.Quiet; decide +kernel
/-- A parked run, and a valid slice of half-span 0 for partition 1. -/
theorem witness_ParkedRunsAndGangSlices (p : Pier) (h : p = { tIdle [] with strands := [(8, { tRun with status := .parked })] }) :
    residentOpen (tWorld p) 0 = true ∧ (getPier (tWorld p) 0).strands = [(8, { tRun with status := .parked })] ∧
    (getStrand (tWorld p) 0 8).inf = [] ∧ 0 < (getPier (tWorld p) 0).jobStrands.toNat ∧
    (let w : Word := BitVec.ofNat 64 (2 ^ 63 + 2 ^ 48 + 2 ^ 45); w.getLsbD 63 = true ∧ Claims.fld w 48 8 = 2 ^ 0 ∧ Claims.fld w 45 3 = 1) := by
  subst h; decide +kernel

/-- A command to the service actor of pier 0 that names actor 1, and its run on strand 7. -/
def tCommand (n : Word) (p1 p2 : Word) : Msg :=
  { dact := 63, cls := 2, kind := 6, sact := 63, job := 1, words := 4, pay := [n, p1, p2, 0] }
/-- The pier while the service actor works on it. -/
def tServing (g : Msg) (st : ActorSt) : State :=
  tWorld { tIdle [] with
    strands := [(0, { tRun with status := .frozen }), (7, { status := .native, service := true, actor := 63, hdr := g })]
    actors := [(1, { st }), (63, { st := .running })] }
theorem serves_tServing (st : ActorSt) : Claims.Serves (tServing (tCommand 2 1 0) st) 0 (tCommand 2 1 0) 7 := by
  cases st <;> exact ⟨by decide +kernel, by decide +kernel, by decide +kernel⟩
theorem witness_CommandsOnActors : Claims.MayCommand (tServing (tCommand 2 1 0) .frozen) 0 1 (tCommand 2 1 0) ∧
    Claims.Exists (tServing (tCommand 2 1 0) .frozen) 0 1 ∧ Claims.IsFrozen (tServing (tCommand 2 1 0) .frozen) 0 1 0 7 :=
  ⟨⟨by decide +kernel, .inl rfl⟩, ⟨by decide, by decide +kernel⟩, ⟨by decide +kernel, by decide +kernel, by decide +kernel⟩⟩
/-- Areas and resume words at the edges of their ranges. -/
theorem witness_CommandsOnActors_forms : (0x10000#64).toNat % 65536 = 0 ∧ (0x18000#64).toNat % 65536 ≠ 0 ∧ Claims.fld 0x300 8 2 = 3 ∧
    Claims.fld 0x41 0 6 = 1 ∧ Claims.fld 0x5F 0 6 = 31 ∧ ¬(1 ≤ Claims.fld 0x40 0 6) ∧
    findStream (tServing (tCommand 6 0 0) .idle) 0 0 0 1 0 = none := by decide +kernel
theorem witness_ServiceActorWork : (Claims.word (tCommand 1 0x1000 0) 1).toNat % 64 = 0 ∧ (Claims.word (tCommand 1 0x1001 0) 1).toNat % 64 ≠ 0 ∧
    (tCommand 1 0 0).job = jobOf (tServing (tCommand 1 0 0) .idle) 0 := by decide +kernel

/-- The next frame for a module that is up. -/
def tFrame (addr operand : Word) (data : List Byte) (ackOnly : Bool := false) : Sys2Proof.Frame :=
  { seq := 0, ack := 0, job := 1, flags := if ackOnly then 1 else 0, addr, operand, data }
theorem witness_NextFrame (a o : Word) (d : List Byte) (h : d.length ≤ 8192) : Claims.NextFrame tS 0 (tFrame a o d) :=
  ⟨⟨⟨rfl, .inl (by decide)⟩, .inl rfl, rfl, h, rfl⟩, rfl, ⟨(by decide : (0 : BitVec 16).getLsbD 0 = false), rfl⟩, rfl, rfl⟩
/-- The lengths of a get at their edges; a job's address, Veiviush's, one outside both; an aperture's. -/
theorem witness_HostFramesAct : Claims.ofJob (tFrame 0x10000 8 []) ∧ Claims.ofJob (tFrame 0x0100000000000000 8 []) ∧
    ¬Claims.ofJob (tFrame 0xFE00000000000000 8 []) ∧ Claims.fld 8192 0 14 = 8192 ∧ 8192 < Claims.fld 8193 0 14 ∧ Claims.fld 0 0 14 = 0 ∧
    Claims.fld 0x0080000000000000 55 9 = 1 ∧ (tFrame 0 0 []).seq = (getMod tS 0).host.expected := by
  unfold Claims.ofJob; decide +kernel
theorem witness_JobLoaderRuns : imageCheck tS 0 { job := 1 } = none ∧ (imageCheck tS 0 { job := 7 }).isSome = true := by decide +kernel
/-- A module with a frame that the host has not acknowledged. -/
def tUnacked (last : Nat) : State :=
  { tWorld (tIdle []) { tMod with host := { unacked := [{ type := 5, seq := 0, job := 1, flags := 0, addr := 0, operand := 0, data := [] }], lastAdvance := last } } with
    cycle := 50000 }
theorem witness_HostPortNumbers : (getMod (tUnacked 8000) 0).host.lastAdvance + 42000 ≤ (tUnacked 8000).cycle ∧
    (tUnacked 8001).cycle < (getMod (tUnacked 8001) 0).host.lastAdvance + 42000 ∧ ((1 : BitVec 32) - 0).toNat = 1 ∧
    (tFrame 0 0 [] true).flags.getLsbD 0 = true ∧ (getMod (tUnacked 0) 0).host.unacked.length = 1 := by decide +kernel
/-- Caps at their limits, the freeze word, the lengths of the puts. -/
theorem witness_VeiviushSpace : Claims.atOffset (tFrame 0xFE00000000001000 8 []) 0x1000 ∧ Claims.atOffset (tFrame 0xFE00000000000000 8 []) 0 ∧
    dataWord (tFrame 0xFE00000000001000 8 [0x2C, 1]) 0 = 300 ∧ dataWord (tFrame 0 8 [8, 7]) 0 = 1800 ∧ dataWord (tFrame 0 8 [0x45, 0x5A, 0x52, 0x46]) 0 = 0x46525A45 := by
  unfold Claims.atOffset; decide +kernel
theorem witness_VeiviushWatches : (getMod tS 0).veiv.reportTok = 0 ∧ (List.replicate 64 (0 : Byte)).length = 64 ∧
    115 * 256 < (BitVec.ofInt 64 (115 * 256 + 1)).toInt ∧ (BitVec.ofInt 64 (115 * 256)).toInt ≤ 115 * 256 ∧
    contextAt tS 0 0 .piers = some 0 ∧ onSite tS 0 (siteOf tS 0) = some 0 := by decide +kernel
theorem witness_SparesApplied : Claims.NoSpare tS 0 ∧ residentAt tS 0 0 ≠ none ∧ sparing tS 0 = false := by
  unfold Claims.NoSpare; decide +kernel
/-- A table of one pier; one whose site lies in another span. -/
theorem witness_TablesAndBringUp : tableOk tS 1 1 [(0, 0x80000000)] = true ∧ (getPart tS 0 0).inUse = true ∧
    tableFold (getPart tS 0 0).table = tableFold [(0, 0x80000000)] := by decide +kernel
theorem witness_TablesAndBringUp_bad : Claims.tableBad [(0, 0x80000100)] 0xFF :=
  .inr (.inl ⟨0, by decide +kernel, by decide +kernel⟩)
/-- A period at its limit, and one below. -/
theorem witness_TablesAndBringUp_gang : (65535#32).toNat < 65536 ∧ ¬(65536#32).toNat < 65536 := by decide

/-- The machine right after reset meets the invariant, and so does one with bytes in its memories. -/
theorem witness_StepsKeepMemoryCanonical_sorted : Claims.Sorted [(1, 2), (5, 7)] ∧ ¬Claims.Sorted [(5, 7), (1, 2)] ∧ ¬Claims.Sorted [(1, 0)] := by
  unfold Claims.Sorted; decide
theorem witness_RegisterTriggersFrame : Instr.add (tMv 8) .ia ∈ Claims.integerTriggers (tMv 8) .ia ∧ tS.issue.fault = none ∧
    tNext (exec (.add (tMv 8) .ia) tS) (fun t => t.issue == tS.issue) = some true := ⟨.head _, rfl, by decide +kernel⟩
theorem witness_ControlWordFaults : (0x100 ≤ (0x100#64).toNat) ∧ (0x17#64).toNat < 0x100 ∧ 0x17 ∉ Claims.jobWords ∧
    (∀ f ∈ Claims.cwFields tS, f.1 ≠ 0x17) := by decide +kernel
theorem witness_LdlChecks : (0x1001#64).toNat % 8 ≠ 0 ∧ (0xFF8#64).toNat % 8 = 0 ∧ acqPending tS = false := by decide +kernel

/-! Witnesses of conditions that several statements have. -/

/-- A bundle that covers nothing; one beside an access to the own pier that is under way, and one beside one elsewhere. -/
theorem witness_NothingCovered : Claims.NothingCovered tS := ⟨by decide +kernel, rfl, by decide +kernel⟩
theorem witness_NothingCovered_not : (∃ e ∈ gmEntries (tIssue (tFlight true (tReq 8 0x80000000000000))), inScope (tIssue (tFlight true (tReq 8 0x80000000000000))) .pier e = true) ∧
    (∀ e ∈ gmEntries (tIssue (tFlight true (tReq 8 0x10000))), inScope (tIssue (tFlight true (tReq 8 0x10000))) .pier e = false) ∧
    gmHereIn { tIssue (tFlight true (tReq 8 0x80000000000000)) with issue := { pk := 0, strand := 0, addr := 5, pre := tRun } } .pier = true := by
  decide +kernel
/-- The head that begins, and one that goes on. -/
theorem witness_HeadSteps : Claims.HeadSteps (tMq (tEntry .mcfg 0x7DF1 true) none 0) 0 (tEntry .mcfg 0x7DF1 true) [] 0 ∧
    Claims.HeadSteps (tMq (tEntry .cmma 0 true) (some 4) 3) 0 (tEntry .cmma 0 true) [] 3 :=
  ⟨⟨rfl, .inl ⟨rfl, rfl, by decide, ⟨[], rfl, by simp⟩, rfl⟩⟩, ⟨rfl, .inr ⟨rfl, rfl⟩⟩⟩
/-- An access behind an earlier one of its run to its bytes, and one that is not. -/
theorem witness_gmBefore : gmBefore tS (tReq 3 0x10000) = false ∧
    gmBefore { tS with cal := [(101, .hbmAccess { tReq 8 0x10000 with tok := 2 })] } (tReq 3 0x10000) = true := by decide +kernel
/-- No creation and one that is still to be decided. -/
theorem witness_NoCreations : Claims.NoCreations tS 0 ∧ creationsOf (curPier tS) = [] ∧ creationsOf (getPier (tCreate 0x40) 0) = [7] :=
  ⟨⟨rfl, by decide +kernel⟩, by decide +kernel, by decide +kernel⟩
/-- Conversion codes of 8 and 32 bits, one without a width, and parts at their limits. -/
theorem witness_codeWidth : Claims.codeWidth 2 = some 8 ∧ Claims.codeWidth 6 = some 32 ∧ Claims.codeWidth 9 = none := by decide
/-- A retired actor that nothing delivers to. -/
theorem witness_RetireDone : Claims.RetireDone (tWorld { tIdle [] with actors := [(1, { st := .idle, retiring := true })] }) 0 1 := by
  refine ⟨⟨rfl, rfl, rfl⟩, fun e h => ?_, fun m hm x hx => ?_⟩
  · exact absurd h List.not_mem_nil
  · rw [List.mem_singleton.1 hm] at hx; exact absurd hx List.not_mem_nil
/-- A stream that delivers to actor 1, and one whose source it is. -/
theorem witness_delivers : Claims.delivers tS 0 1 (tCmd 0 0) ∧ ¬Claims.delivers tS 0 1 (tCmd 1 0) := by
  unfold Claims.delivers; decide +kernel
/-- A cancel that waits for pier 0 past its save limit, and one a cycle younger. -/
theorem witness_Overdue (s : State) (h : s = tWorld (tIdle []) { tMod with cancelRun := some { job := 1, level := 2, id := 1, piers := [0], markers := 0, start := 0 } }) :
    Claims.Overdue { s with cycle := 32768 } 0 ∧ ¬Claims.Overdue { s with cycle := 32767 } 0 := by
  subst h
  refine ⟨⟨_, List.mem_singleton_self _, _, rfl, List.mem_singleton_self _, by decide +kernel⟩, fun ⟨e, he, r, hr, _, hl⟩ => ?_⟩
  rw [List.mem_singleton.1 he] at hr
  cases hr
  exact absurd hl (by decide +kernel)
/-- A parked run. -/
def tAway : Strand := { status := .parked, actor := 1, runid := 9, pc := 6 }
/-- The bytes of its frame that are not zero: full masks, then its status `v`, pc, actor, id and seed. -/
def tFrameCells (v : Byte) : FMap Byte := (List.range 64).map (fun i => (4832280576 + i, 0xFF)) ++
  [(4832280641, v), (4832280644, 6), (4832280646, 1), (4832280656, 9), (4832280660, 1)]
/-- How far the save area of half-span 0 moves a DRAM byte of it. -/
def tArea (m part hs : Nat) : Nat := Config.saveArea m part hs % 1024 * 524288
/-- The pier with the run, whose frame stands at the start of the parked area of half-span 0. -/
def tParked (v : Byte := 2) : State :=
  tWorld { tIdle [] with strands := [(8, tAway)] } { tMod with hbm := (tFrameCells v).map fun e => (e.1 + tArea 0 0 0, e.2) }
/-- Row `i` of the frame. -/
def tFrameRow (v : Byte) (i : Nat) : List Byte :=
  if i = 36 then List.replicate 64 0xFF
  else if i = 37 then [0, v, 0, 0, 6, 0, 1, 0, 0, 0, 0, 0, 0, 0, 0, 0, 9, 0, 0, 0, 1] ++ List.replicate 43 0 else List.replicate 64 0
/-- Whether a list begins with `n` rows of the frame from row `i`. -/
def rowsAre (v : Byte) : Nat → Nat → List Byte → Bool
  | 0, _, _ => true
  | n + 1, i, l => l.take 64 == tFrameRow v i && rowsAre v n (i + 1) (l.drop 64)
theorem take_of_rowsAre (v : Byte) (n : Nat) : ∀ i l, rowsAre v n i l = true → l.take (64 * n) = (List.range' i n).flatMap (tFrameRow v) := by
  induction n with
  | zero => intros; rfl
  | succ n ih =>
    intro i l h
    simp only [rowsAre, Bool.and_eq_true, beq_iff_eq] at h
    rw [show 64 * (n + 1) = 64 + 64 * n by omega, List.take_add, h.1, ih _ _ h.2, List.range'_succ, List.flatMap_cons]
theorem rowsAre_getRows (v : Byte) (s : State) (r n : Nat) : ∀ i l, (∀ j < n, areaRead s 0 (l + 64 * j) 64 = tFrameRow v (i + j)) →
    rowsAre v n i (getRows s 0 l (n + r)) = true := by
  induction n with
  | zero => intros; rfl
  | succ n ih =>
    intro i l h
    have h0 : areaRead s 0 l 64 = tFrameRow v i := h 0 (by omega)
    have hl : (areaRead s 0 l 64).length = 64 := by simp [areaRead, mreadList]
    have e : getRows s 0 l (n + 1 + r) = areaRead s 0 l 64 ++ getRows s 0 (l + 64) (n + r) := by
      rw [show n + 1 + r = (n + r) + 1 by omega]; rfl
    rw [e, rowsAre, List.take_left' hl, List.drop_left' hl, h0, beq_self_eq_true, Bool.true_and]
    exact ih _ _ fun j hj => by
      have := h (j + 1) (by omega)
      rwa [show l + 64 * (j + 1) = l + 64 + 64 * j by omega, show i + (j + 1) = i + 1 + j by omega] at this
theorem tFrame_far : ∀ j < 84, j = 36 ∨ j = 37 ∨ dramLoc 2 (56623104 + 64 * j) + 64 ≤ 4832280576 ∨ 4832280704 ≤ dramLoc 2 (56623104 + 64 * j) := by
  decide +kernel
theorem tFrame_at : dramLoc 2 (56623104 + 64 * 36) = 4832280576 ∧ dramLoc 2 (56623104 + 64 * 37) = 4832280640 := by decide +kernel
theorem tFrame_zero (v : Byte) : ∀ j < 84, j = 36 ∨ j = 37 ∨ tFrameRow v j = List.replicate 64 0 := fun j _ => by
  by_cases h : j = 36
  · exact .inl h
  · by_cases k : j = 37
    · exact .inr (.inl k)
    · exact .inr (.inr (by rw [tFrameRow, if_neg h, if_neg k]))
theorem tFrame_cells (v : Byte) (h : v = 2 ∨ v = 3) : ∀ e ∈ tFrameCells v, 4832280576 ≤ e.1 ∧ e.1 < 4832280704 := by
  rcases h with rfl | rfl <;> decide +kernel
theorem tParked_hbm (v : Byte) : (getMod (tParked v) 0).hbm = (tFrameCells v).map fun e => (e.1 + tArea 0 0 0, e.2) := rfl
theorem saveArea_num (h c i j : Nat) :
    h * 2 ^ 36 + c * 2 ^ 26 + 0x3600000 + 8192 * i + 64 * j = h * 68719476736 + c * 67108864 + (56623104 + 8192 * i + 64 * j) := by omega
theorem tParked_at (m p h i j : Nat) (hh : h = 0) (hi : i = 0) (hj : j < 84) :
    dramLoc 2 (parkedAt m p h i + 64 * j) = dramLoc 2 (56623104 + 64 * j) + tArea m p h := by
  rw [tArea]
  exact dramLoc_area _ _ _ (Nat.mod_lt _ (by decide)) (by omega) (by rw [parkedAt, saveArea, saveArea_num]; omega)
theorem tFrame_rows (v : Byte) (h : v = 2 ∨ v = 3) :
    mreadList (tFrameCells v) 4832280576 64 = tFrameRow v 36 ∧ mreadList (tFrameCells v) 4832280640 64 = tFrameRow v 37 := by
  rcases h with rfl | rfl <;> decide +kernel
theorem frame_rows (v : Byte) (hv : v = 2 ∨ v = 3) (s : State) (l d : Nat) (hm : (getMod s 0).hbm = (tFrameCells v).map fun e => (e.1 + d, e.2))
    (hl : ∀ j < 84, dramLoc 2 (l + 64 * j) = dramLoc 2 (56623104 + 64 * j) + d) (j : Nat) (h : j < 84) :
    areaRead s 0 (l + 64 * j) 64 = tFrameRow v (0 + j) := by
  unfold areaRead
  rw [hm, hl j h, mreadList_shift, Nat.zero_add]
  rcases tFrame_far j h with rfl | rfl | hf
  · rw [tFrame_at.1]; exact (tFrame_rows v hv).1
  · rw [tFrame_at.2]; exact (tFrame_rows v hv).2
  · rw [mreadList_none _ _ _ fun e he => by have := tFrame_cells v hv e he; omega]
    rcases tFrame_zero v j h with rfl | rfl | hr
    · rw [tFrame_at.1] at hf; omega
    · rw [tFrame_at.2] at hf; omega
    · exact hr.symm
theorem tParked_frame (v : Byte) (hv : v = 2 ∨ v = 3) (fr : List Byte) (hf : rowsAre v 84 0 fr = true) :
    (getRows (tParked v) 0 (parkedAt 0 0 0 0) 128).take 0x1500 = fr.take 0x1500 :=
  (take_of_rowsAre v 84 0 _ (rowsAre_getRows v (tParked v) 44 84 0 (parkedAt 0 0 0 0)
    (frame_rows v hv (tParked v) _ (tArea 0 0 0) (tParked_hbm v) fun j h => tParked_at 0 0 0 0 j rfl rfl h))).trans (take_of_rowsAre v 84 0 _ hf).symm
theorem witness_parkedFrame :
    (getRows (tParked 2) 0 (parkedAt 0 0 (siteHs (siteOf (tParked 2) 0)) tAway.parkAt) 128).take 0x1500 = (frameBytes tAway [] false).take 0x1500 :=
  tParked_frame 2 (.inl rfl) _ (by decide +kernel)
/-- A frozen run that is parked. -/
theorem witness_ParkedThere : Claims.ParkedThere (tParked 3) 0 8 true :=
  ⟨rfl, ⟨by decide, by decide +kernel⟩, tParked_frame 3 (.inr rfl) _ (by decide +kernel)⟩
/-- Aperture frames that reach pier 0 with and without a window of the job, and one whose module is not there. -/
theorem witness_HostReaches : Claims.HostReaches tS 0 (tFrame 0x0080000000000000 8 []) 0 ∧
    reachable tS 0 (Claims.fld (0x0080000000000000 + BitVec.ofNat 64 (2 ^ 43)) 43 12) = false :=
  ⟨⟨by decide +kernel, by decide +kernel, by decide +kernel⟩, by decide +kernel⟩
theorem witness_HostWindow (s : State) (w : Word) (h : w = BitVec.ofNat 64 (2 ^ 63 + 2 ^ 62 + 2 ^ 61 + 2 ^ 59 + 2 ^ 14)) (hs : s = tIssue tRun fun p => { p with wins := [(0, w)] }) :
    Claims.HostWindow s 0 (tFrame 0x0080000000000000 64 []) 61 64 := by
  subst h; subst hs
  exact ⟨_, List.mem_of_elem_eq_true (by decide +kernel : List.elem (BitVec.ofNat 64 (2 ^ 63 + 2 ^ 62 + 2 ^ 61 + 2 ^ 59 + 2 ^ 14)) _ = true),
    by decide +kernel, by decide +kernel, by decide +kernel, by decide +kernel, by decide +kernel, by decide +kernel⟩
theorem witness_HostWindow_none : ¬Claims.HostWindow tS 0 (tFrame 0x0080000000000000 8 []) 61 8 := by
  rintro ⟨w, hw, hv, -⟩
  rw [(by decide +kernel : winsOf tS 0 (Claims.fld (tFrame 0x0080000000000000 8 []).addr 33 10) = List.replicate 8 0)] at hw
  rw [(List.mem_replicate.1 hw).2] at hv
  exact absurd hv (by decide)
/-- A page that is read. -/
theorem witness_hostWalks : vaRead (tSpilling 0xE020000000000000) 0 0x8000000000010000 0x10000 1 = .ok [(0, false)] := by decide +kernel
/-- An image whose target is resident, and one with weights for a pier that is not. -/
theorem witness_weightsWait : weightsWait tS { job := 1 } = false ∧ imageMoving tS 0 { job := 1 } = false ∧ imagePage tS 0 { job := 1 } = none ∧
    weightsWait { tMove with mods := [(0, { tMod with parts := [(0, { job := 1, inUse := true, table := [(0, 0x80000000)], halfspans := 1, loc := [(0, .saved)] })] })] }
      { job := 1, wst := [(0, 0, 0, [1])] } = true := by decide +kernel
/-- An actor with nothing under way, and one with a gm access. -/
theorem witness_evictBusy : evictBusy (tServing (tCommand 5 1 0) .idle) 0 1 = false ∧
    evictBusy (tWorld { tPier { tFlight true (tReq 3 0x10000) with status := .frozen } with actors := [(1, { st := .frozen })] }) 0 1 = true := by decide +kernel
/-- A half-span where no partition is. -/
theorem witness_residentNone : residentAt (tIssue tRun id { tMod with parts := [] }) 0 0 = none ∧ shadowAt tS 0 0 = none ∧
    sitesOn (getPart tS 0 0).table 0 = [(0, 0)] := by decide +kernel
/-- A report of the module, a lane and a count at the edge of 42. -/
theorem witness_bringUp : (List.replicate 64 (0 : Byte)).length = 64 ∧ Claims.apartBy 42 0 ≤ 42 ∧ ¬(Claims.apartBy 43 0 ≤ 42) ∧
    Claims.apartBy 43 0 < Claims.apartBy 44 0 := by decide

/-! Witnesses of the checks of matrix entries, of releases and of refused arrivals. -/

/-- The queue with a head, its tile 0 configured, and contents that are current. -/
def tMx (e : MEntry) (conf : Word) : State :=
  { tWorld { tPier tRun with mq := [e], tileCfg := [(0, conf)] } with
    sites := [(0, { tiles := [(0, { current := true }), (16, { current := true })] })] }
/-- An MMA of BF16 tiles of 32 by 32 passes its checks; with tile 0 not current it fails the first, and an MLD of a format of 9 does. -/
theorem witness_MatrixProducts : Claims.HeadBegins (tMx (tEntry .mma 0x7FC00 true) 0x7DF0) 0 (tEntry .mma 0x7FC00 true) [] ∧
    Claims.Passes (tMx (tEntry .mma 0x7FC00 true) 0x7DF0) 0 (tEntry .mma 0x7FC00 true) ∧ (⟨.mma, 0, [0], 32, 1, 32, 0, 0⟩ : Claims.ProductRow) ∈ Claims.productRows := by
  refine ⟨⟨rfl, rfl, rfl, by decide⟩, ⟨_, .inl ⟨⟨.mma, 0, [0], 32, 1, 32, 0, 0⟩, .head _, rfl, by decide +kernel, rfl⟩, ?_⟩, .head _⟩
  simp only [Claims.productChecks, List.map, List.forall_mem_cons, List.cons_append, List.nil_append, if_true, List.append_nil]
  refine ⟨?_, ?_, ?_, ?_, ⟨0, ?_⟩, fun _ h => absurd h List.not_mem_nil⟩ <;>
    simp only [Claims.mustBeCurrent, Claims.mustBeShaped, Claims.Shaped] <;> decide +kernel
theorem witness_MatrixEntryChecks : Claims.EntryChecks (tMx (tEntry .mld 0 true) 9) 0 (tEntry .mld 0 true) (Claims.loadChecks (tMx (tEntry .mld 0 true) 9) 0 (tEntry .mld 0 true)) ∧
    Claims.FirstFails (Claims.loadChecks (tMx (tEntry .mld 0 true) 9) 0 (tEntry .mld 0 true)) 0x0E 0 :=
  ⟨rfl, [], _, _, rfl, fun _ h => absurd h List.not_mem_nil, by decide +kernel, rfl, by decide +kernel⟩
theorem witness_MatrixEntryChecks_current (s : State) (h : s = tMq (tEntry .mma 0x7FC00 true) none 0) :
    Claims.FirstFails (Claims.noRowChecks s 0 (tEntry .mma 0x7FC00 true)) 0x17 0 := by
  subst h; exact ⟨[], _, _, rfl, fun _ h => absurd h List.not_mem_nil, by unfold Claims.mustBeCurrent; decide +kernel, rfl, by decide +kernel⟩

/-- A counter whose firing releases, with and without a staged entry of its key in the queue, and with all credits stored. -/
def tRel (q : List MEntry) (l : List Credit) : State :=
  tIssue (tRun (tV 5)) fun p => { p with mq := q, credits := l, sluices := [(5, { action := 0x6040000800000020, target := 5, armed := true })] }
theorem witness_FiringReleases : (let x := getSluice (tRel [] []) 0 5
      x.action.getLsbD 60 = false ∧ x.action.getLsbD 61 = true ∧ Claims.fld x.action 54 6 = 1 ∧ x.action.extractLsb' 32 9 = 8 ∧
      Claims.fld x.action 62 2 = 1 ∧ Claims.reached (x.count + 5) x.target) ∧
    (let e := tEntry .mzero (8 * 2 ^ 10) false; e.released = false ∧ e.actor.toNat = 1 ∧ e.t.extractLsb' 10 9 = 8) ∧
    Claims.NothingCovered (tRel [tEntry .mzero (8 * 2 ^ 10) false] []) ∧ Claims.NothingCovered (tRel [] (List.replicate 16 ⟨1, none⟩)) :=
  ⟨by unfold Claims.reached; decide +kernel, by decide +kernel, ⟨by decide +kernel, rfl, by decide +kernel⟩, by decide +kernel, rfl, by decide +kernel⟩
/-- A staged entry with a credit of its own key, with one that matches any, and with none. -/
theorem witness_StagedEntryTakesCredit : ((0x82000 : Word).getLsbD 19 = true ∧ Claims.fld 0x82000 10 9 = 8) ∧
    (⟨curActorIx (tRel [] [⟨1, some 8⟩]), some 8⟩ : Credit) ∈ (curPier (tRel [] [⟨1, some 8⟩])).credits ∧
    (⟨curActorIx (tRel [] [⟨1, none⟩]), some 8⟩ : Credit) ∉ (curPier (tRel [] [⟨1, none⟩])).credits := by decide +kernel
/-- An operation of strand 1 that waited and is made in this cycle. -/
theorem witness_LocalSluiceReleases (s : State) (h : s = tIssue tRun fun p =>
      { p with strands := p.strands ++ [(1, { tRun with owed := [⟨.sadd 4 1, 5, 0, 0⟩] })] }) : Claims.AnotherMade s := by
  subst h; exact ⟨(1, { tRun with owed := [⟨.sadd 4 1, 5, 0, 0⟩] }), .tail _ (.head _), Nat.one_ne_zero, fun _ h => absurd h List.not_mem_nil, ⟨.sadd 4 1, 5, 0, 0⟩, [], rfl, fun _ _ h => OwedOp.noConfusion h⟩
/-- An add for a job that is not there, for a pier that is lost, cancelled, fenced, and not resident. -/
theorem witness_SluiceArrivalsRefused : (tAdd 0 0).frm = .outbox 0 1 ∧ pkOfAddr tS 0 0 9 = none ∧
    (let s := tIssue tRun fun p => { p with lost := true }; pkOfAddr s 0 0 1 = some 0 ∧ (getPier s 0).lost = true) ∧
    (let s := tIssue tRun fun p => { p with cancels := [⟨1, 2, 1⟩] }
     ∃ c ∈ (getPier s 0).cancels, addBelongs s c { tAdd 0 0 with graph := some 0 } = true) ∧
    (let s := tIssue tRun fun p => { p with fenced := true }; (getPier s 0).fenced = true ∧ ∀ c ∈ (getPier s 0).cancels, addBelongs s c (tAdd 0 0) = false) := by
  decide +kernel
/-- What arrives: an add of form 3, one that says its level was cancelled, for a sluice of the service. -/
theorem witness_SluiceArrivals_forms : (tAdd 3 0).form = 3 ∧ (tAdd 3 0).cancelled = false ∧ 496 ≤ ({ tAdd 0 0 with sl := 496, cancelled := true } : SlAdd).sl.toNat ∧
    Claims.fld (getSluice tS 0 5).action 62 2 ≠ 1 ∧ (getSluice tS 0 5).again = false := by decide +kernel

/-! Witnesses of the turns of streams and exchanges. -/

/-- A command of one INT8 element at 0x10000; its page, at DRAM byte 0 of module 0, grants everything. -/
def tOne (kind : BitVec 3) (q5 : Word := 0) : StreamCmd := { tCmd kind 0 with q2 := 0x5000001000, q3 := 0x100000001, q5 }
/-- The page. -/
def tExt : TEntry := { job := 1, base := 0x10000, size := 0x10000, leaf := 0xF000000000000000, dirty := true }
/-- A stream of it, and the machine where it has its turn, with bytes at the start of the page. -/
def tOneS (kind : BitVec 3) (q5 : Word := 0) : Stream :=
  { sid := 2, cmd := tOne kind q5, phase := .active, total := 1, answered := true, scan := 1, extents := [tExt] }
/-- The machine. -/
def tTurns (t : Stream) (hbm : FMap Byte := []) : State :=
  tWorld (tPier tRun) { tMod with hbm, abuts := [(0, { ctxs := [(2, some t)], last := 2, left := 3 })] }
theorem turnOf_of (s : State) (t : Stream) (ha : getAbut s 0 0 = { ctxs := [(2, some t)], last := 2, left := 3 }) (hs : t.sid = 2) (hp : t.phase = .active)
    (hm : t.missAt = none) (hw : t.walked = []) : Claims.TurnOf s 0 0 t :=
  ⟨fun i u hu => by
      rw [ha] at hu
      by_cases h2 : 2 = i
      · subst h2; cases (hu : some t = some u); exact hs
      · exact absurd (show none = some u from by rw [← hu]; simp [fget, h2]) nofun,
    by rw [ha, hs]; rfl, by rw [hs]; decide, by rw [ha, hs]; exact ⟨rfl, Nat.zero_lt_succ 2⟩, by rw [ha]; exact ⟨rfl, hp, hm, hw⟩⟩
theorem turnOf_tTurns (t : Stream) (h : FMap Byte) (hs : t.sid = 2) (hp : t.phase = .active) (hm : t.missAt = none) (hw : t.walked = []) :
    Claims.TurnOf (tTurns t h) 0 0 t := turnOf_of _ t rfl hs hp hm hw
theorem tExt_at : ∀ b < 64, (decide (tExt.base ≤ (0x10000 + BitVec.ofNat 64 b : Word).toNat ∧ (0x10000 + BitVec.ofNat 64 b : Word).toNat < tExt.base + tExt.size)) = true ∧
    physOf tExt.leaf (sizeLevel tExt.size) (0x10000 + BitVec.ofNat 64 b) = b := by decide +kernel
theorem mapped_tExt (s : State) (u : Stream) (need : BitVec 3) (b : Nat) (hb : b < 64) (hx : u.extents = [tExt]) (hn : need = 4 ∨ need = 2 ∨ need = 6)
    (hr : reachable s 0 0 = true) (hf : (getMod s 0).veiv.frozen = false) :
    Claims.Mapped s 0 u need (0x10000 + BitVec.ofNat 64 b) (0, dramLoc 0 b) := by
  refine ⟨tExt, ?_, by rcases hn with rfl | rfl | rfl <;> decide, ?_, ?_, hr, hf⟩
  · unfold extentOf
    rw [hx, List.find?_cons_of_pos]
    show (_ && (_ || true)) = true
    rw [(tExt_at b hb).1, Bool.or_true]; rfl
  · rw [(tExt_at b hb).2]; exact Nat.lt_of_lt_of_le hb (by decide)
  · rw [(tExt_at b hb).2]; rfl
theorem mapped_tTurns (t u : Stream) (h : FMap Byte) (need : BitVec 3) (b : Nat) (hb : b < 64) (hx : u.extents = [tExt]) (hn : need = 4 ∨ need = 2 ∨ need = 6) :
    Claims.Mapped (tTurns t h) 0 u need (0x10000 + BitVec.ofNat 64 b) (0, dramLoc 0 b) := mapped_tExt _ u need b hb hx hn rfl rfl
theorem clean_tTurns (t : Stream) (h : FMap Byte) (l : Nat) : pget (getMod (tTurns t h) 0).hbmPoison l = false := rfl
/-- A word of `n` bytes of the page. -/
theorem word_tTurns (t u : Stream) (h : FMap Byte) (o n : Nat) (ho : o + n ≤ 64) (hx : u.extents = [tExt]) :
    Claims.MemoryWord (tTurns t h) 0 u (0x10000 + BitVec.ofNat 64 o) n
      (Claims.littleEndian (fun b => mget h (dramLoc 0 (o + b))) n) := by
  refine ⟨fun b => (0, dramLoc 0 (o + b)), fun b hb => ⟨?_, rfl⟩, rfl⟩
  rw [BitVec.add_assoc, ← BitVec.ofNat_add]
  exact mapped_tTurns t u h 4 (o + b) (by omega) hx (.inl rfl)
/-- The one byte of the stream's one flit. -/
theorem byteAt_tOneS (need : BitVec 3) (h : FMap Byte) (kind : BitVec 3) (hk : kind = 0 ∨ kind = 1 ∨ kind = 6) (hn : need = 4 ∨ need = 2 ∨ need = 6) :
    ∀ k < 1, Claims.ByteAt (tTurns (tOneS kind) h) 0 (tOneS kind) need 0 k (0, dramLoc 0 0) := by
  intro k hk1
  obtain rfl : k = 0 := by omega
  refine ⟨0x10000, ?_, by decide, by decide, mapped_tTurns _ _ h need 0 (by decide) rfl hn⟩
  rcases hk with rfl | rfl | rfl <;> rfl
theorem witness_StreamReadsMemory_turn : Claims.TurnOf (tTurns (tOneS 0) []) 0 0 (tOneS 0) ∧ ¬Claims.Extended (tOneS 0).cmd ∧
    Claims.FlitSize (tOneS 0) 0 1 ∧ (tOneS 0).total = (Claims.packed (tOneS 0) + 63) / 64 ∧
    reachable (tTurns (tOneS 0) []) 0 (Claims.fld (tOneS 0).cmd.q1 16 12) = true ∧
    (∀ k < 1, Claims.ByteAt (tTurns (tOneS 0) []) 0 (tOneS 0) 4 0 k (0, dramLoc 0 0)) ∧
    ∀ k < 1, Claims.ByteAt (tTurns (tOneS 6) []) 0 (tOneS 6) 4 0 k (0, dramLoc 0 0) :=
  ⟨turnOf_tTurns _ _ rfl rfl rfl rfl, fun h => absurd rfl h.2, by unfold Claims.FlitSize; rw [if_neg (by decide)]; decide +kernel, by decide +kernel, by decide +kernel,
    byteAt_tOneS 4 [] 0 (.inl rfl) (.inl rfl), byteAt_tOneS 4 [] 6 (.inr (.inr rfl)) (.inl rfl)⟩
/-- A gather takes the row from its index list; an SSEG's flit lies in its segment. -/
theorem witness_StreamReadsMemory_list : Claims.ByteAt (tTurns (tOneS 2 0x10000) []) 0 (tOneS 2 0x10000) 4 0 0 (0, dramLoc 0 0) :=
  ⟨0x10000, ⟨_, word_tTurns _ (tOneS 2 0x10000) [] 0 4 (by decide) rfl, by decide +kernel⟩, by decide, by decide, mapped_tTurns _ _ [] 4 0 (by decide) rfl (.inl rfl)⟩
/-- An SSEG whose table is read. -/
def tSeg : Stream := { tOneS 4 (2 ^ 55 + 0x10000) with segIdx := 2, segTotal := 1, segs := [(0, 0, 1)] }
theorem witness_StreamReadsMemory_segment : Claims.TurnOf (tTurns tSeg []) 0 0 tSeg ∧ Claims.fld tSeg.cmd.q5 55 9 < tSeg.segIdx ∧
    tSeg.next < tSeg.segTotal ∧ Claims.Segment tSeg 0 (0, 0, 1) ∧ Claims.FlitSize tSeg 0 1 ∧
    Claims.ByteAt (tTurns tSeg []) 0 tSeg 4 0 0 (0, dramLoc 0 0) :=
  have h : Claims.Segment tSeg 0 (0, 0, 1) := ⟨⟨[], [], rfl, fun _ h => absurd h List.not_mem_nil⟩, by decide, by decide +kernel⟩
  ⟨turnOf_tTurns _ _ rfl rfl rfl rfl, by decide +kernel, by decide, h, ⟨_, h, by decide +kernel⟩, 0x10000, ⟨_, h, by decide +kernel⟩, by decide, by decide,
    mapped_tTurns _ _ [] 4 0 (by decide) rfl (.inl rfl)⟩
/-- A stream with an extension record whose line has come, its counts 1. -/
def tExtd : Stream := { tOneS 0 0x10000 with answered := false, total := 0, line := some (0x400, 100) }
/-- The record. -/
def tRec : FMap Byte := mwrite (mwrite [] (dramLoc 0 0) 8 1) (dramLoc 0 16) 8 1
theorem witness_ExtensionRead : Claims.TurnOf (tTurns tExtd tRec) 0 0 tExtd ∧ Claims.Extended tExtd.cmd ∧ Claims.LineHere (tTurns tExtd tRec) tExtd tExtd.cmd.q5 ∧
    (∀ i < 4, Claims.MemoryWord (tTurns tExtd tRec) 0 tExtd (tExtd.cmd.q5 + BitVec.ofNat 64 (8 * i)) 8
      (Claims.littleEndian (fun b => mget tRec (dramLoc 0 (8 * i + b))) 8)) ∧
    (Claims.packed { tExtd with ext := some ((List.range 4).map fun i => BitVec.ofNat 64 (Claims.littleEndian (fun b => mget tRec (dramLoc 0 (8 * i + b))) 8)) } + 63) / 64 = 1 :=
  ⟨turnOf_tTurns _ _ rfl rfl rfl rfl, ⟨by decide, by decide⟩, ⟨100, by decide, rfl⟩, fun i h => word_tTurns _ _ _ (8 * i) 8 (by omega) rfl, by decide +kernel⟩
/-- An SSEG at the first word of its table, and one that has read all of it. -/
def tTable (idx : Nat) (answered : Bool) : Stream :=
  { tOneS 4 (2 ^ 55 + 0x10000) with segIdx := idx, answered, line := some (0x400, 100) }
theorem witness_SegmentTableRead : Claims.TurnOf (tTurns (tTable 0 false) []) 0 0 (tTable 0 false) ∧
    Claims.LineHere (tTurns (tTable 0 false) []) (tTable 0 false) 0x10000 ∧
    Claims.MemoryWord (tTurns (tTable 0 false) []) 0 (tTable 0 false) (0x10000 + BitVec.ofNat 64 0) 8 (Claims.littleEndian (fun b => mget [] (dramLoc 0 (0 + b))) 8) ∧
    (BitVec.ofNat 64 (Claims.fld (tTable 0 false).cmd.q5 3 52 * 8) + BitVec.ofNat 64 (8 * (tTable 0 false).segIdx) : Word) = 0x10000 ∧
    Claims.fld (tTable 2 false).cmd.q5 55 9 < (tTable 2 false).segIdx ∧ (tTable 2 true).segTotal ≤ (tTable 2 true).next :=
  ⟨turnOf_tTurns _ _ rfl rfl rfl rfl, ⟨100, by decide, rfl⟩, word_tTurns _ _ _ 0 8 (by decide) rfl, by decide +kernel, by decide +kernel, by decide⟩
/-- A SWRITE that asks for its flit, and one whose flit has come to be written. -/
def tWrites (buffer : List (Nat × Row × Bool)) : Stream := { tOneS 1 with buffer, wcross := [(0, 100)] }
theorem witness_StreamWritesMemory : Claims.TurnOf (tTurns (tWrites []) []) 0 0 (tWrites []) ∧ Claims.FlitSize (tWrites []) 0 1 ∧
    (tWrites []).total = (Claims.packed (tWrites []) + 63) / 64 ∧ (tWrites []).next - (tWrites []).low < 64 ∧
    Claims.TurnOf (tTurns (tWrites [(0, 7, false)]) []) 0 0 (tWrites [(0, 7, false)]) ∧
    fget (tWrites [(0, 7, false)]).wcross 0 101 ≤ 100 ∧
    Claims.ByteAt (tTurns (tWrites [(0, 7, false)]) []) 0 (tWrites [(0, 7, false)]) 2 0 0 (0, dramLoc 0 0) :=
  ⟨turnOf_tTurns _ _ rfl rfl rfl rfl, by unfold Claims.FlitSize; rw [if_neg (by decide)]; decide +kernel, by decide +kernel, by decide, turnOf_tTurns _ _ rfl rfl rfl rfl, by decide,
    0x10000, rfl, by decide, by decide, mapped_tTurns _ _ [] 2 0 (by decide) rfl (.inr (.inl rfl))⟩
/-- A side of an exchange of two INT8 elements with the other half of its pair, at context 3 of module 1. -/
def tX (rd claimed granted window rtotal : Nat) (buffer : List (Nat × Row × Bool)) : Stream :=
  { sid := 2, cmd := { tCmd 5 0 with q2 := 0, q3 := 2, q4 := 1, q5 := 1 }, phase := .active, total := 1, answered := true, scan := 1, extents := [tExt],
    peer := some 3, rtotal, rd, claimed, granted, window, buffer, wcross := [(0, 100)] }
/-- The two modules. -/
def tXs (t : Stream) : State :=
  { tWorld (tPier tRun) with
    torus := (2, 1, 1)
    mods := [(0, { tMod with abuts := [(0, { ctxs := [(2, some t)], last := 2, left := 3 })] }), (1, tMod)] }
theorem witness_ExchangeTurn : Claims.ExchangeTurn (tXs (tX 1 1 0 0 1 [])) 0 0 (tX 1 1 0 0 1 []) 3 ∧ Claims.ExchangeTurn (tXs (tX 0 1 1 0 1 [])) 0 0 (tX 0 1 1 0 1 []) 3 :=
  ⟨⟨turnOf_of _ _ rfl rfl rfl rfl rfl, by decide, rfl, ⟨0, by decide, by decide⟩, rfl, by decide +kernel⟩,
    turnOf_of _ _ rfl rfl rfl rfl rfl, by decide, rfl, ⟨0, by decide, by decide⟩, rfl, by decide +kernel⟩
/-- One that takes room, one that grants a window, one that writes what it received, one that sends, one that reads. -/
theorem witness_ExchangeTurns :
    ((tX 0 0 0 0 1 []).asking = false ∧ (tX 0 0 0 0 1 []).claimed < max (Claims.chunks 1) (Claims.chunks 1)) ∧
    (let t := tX 1 1 0 0 1 []; Claims.NoClaim 0 t ∧ t.granted < Claims.chunks t.rtotal ∧ t.granted < Claims.roomFor t ∧ Claims.ChunkRead t t.granted) ∧
    (let t := tX 0 1 1 0 2 [(0, 7, false)]; Claims.NoClaim 0 t ∧ Claims.NoGrant t ∧ fget t.wcross 0 101 ≤ 100 ∧
      1 = min 64 (Claims.exchangeBytes 0 t false - 64 * 0) ∧ ∀ k < 1, Claims.ExchangeAt (tXs t) 0 t 2 false 0 k (0, dramLoc 0 1)) ∧
    (let t := tX 1 1 1 1 1 []; Claims.NoClaim 0 t ∧ Claims.NoGrant t ∧ t.next < t.rd ∧ t.next / 1024 < t.window) ∧
    (let t := tX 0 1 1 0 1 []; Claims.NoClaim 0 t ∧ Claims.NoGrant t ∧ t.rd < t.total ∧ t.rd / 1024 < Claims.roomFor t ∧
      1 = min 64 (Claims.exchangeBytes 0 t true - 64 * t.rd) ∧ ∀ k < 1, Claims.ExchangeAt (tXs t) 0 t 6 true 0 k (0, dramLoc 0 1)) := by
  have at1 (t : Stream) (need : BitVec 3) (hn : need = 4 ∨ need = 2 ∨ need = 6) (h : t.extents = [tExt]) : Claims.Mapped (tXs t) 0 t need (BitVec.ofNat 64 0x10001) (0, dramLoc 0 1) :=
    mapped_tExt _ t need 1 (by decide) h hn rfl rfl
  refine ⟨by decide, by unfold Claims.NoClaim Claims.ChunkRead; decide +kernel, ⟨by unfold Claims.NoClaim; decide +kernel, by unfold Claims.NoGrant Claims.ChunkRead; decide +kernel, by decide, by decide +kernel, ?_⟩,
    by unfold Claims.NoClaim Claims.NoGrant Claims.ChunkRead; decide +kernel,
    by unfold Claims.NoClaim; decide +kernel, by unfold Claims.NoGrant Claims.ChunkRead; decide +kernel, by decide, by decide +kernel, by decide +kernel, ?_⟩
  all_goals
    intro k hk
    obtain rfl : k = 0 := by omega
    exact ⟨by decide +kernel, at1 _ _ (by simp) rfl⟩

/-! Witnesses of grants, control words, returns, cancels, moves of partitions, and the work of the service actor. -/

/-- Streams whose grant comes: one with flits, an exchange, an empty one with and without a sluice. -/
theorem witness_StreamBegins : (let s := tSg { ctxs := [(2, some (tStream .opening))] }
      fget (getAbut s 0 0).ctxs 2 none = some (tStream .opening) ∧ (tStream .opening).total ≠ 0 ∧ (getAbut s 0 0).queue = []) ∧
    (tStream .opening 5).cmd.kind.toNat = 5 ∧ ({ tStream .opening with total := 0 } : Stream).answered = true ∧
    Claims.fld (tStream .opening).cmd.q1 28 9 = 511 ∧ Claims.fld 0x50000001 28 9 ≠ 511 := by decide +kernel
/-- A request of the strand that an agent has turned away, and none. -/
theorem witness_TlbiOnItsWay (r : TlbiReq) (s : State) (hr : r = { tTlbi with tok := 5 }) (h : s = { tS with cal := [(700, .tlbiResend 0 0 tTlbi)] }) :
    Claims.TlbiOnItsWay s 0 0 r ∧ ¬Claims.TlbiOnItsWay tS 0 0 r := by
  subst hr h
  refine ⟨⟨tTlbi, rfl, rfl, by decide, .inl ⟨700, .head _⟩⟩, ?_⟩
  rintro ⟨q, -, -, -, ⟨due, h⟩ | h⟩
  · exact absurd h List.not_mem_nil
  · exact absurd h List.not_mem_nil
/-- Values that fail each check: weirs 0 and 257, a spillway of 2^13, no strands, a window of scope 3, of kind 2, of a slice past its end, with
an upper bound in the service area. -/
theorem witness_CwRefuses : Claims.CwRefuses 0x12 0 3 0 ∧ Claims.CwRefuses 0x12 257 3 257 ∧ Claims.CwRefuses 0x13 13 3 13 ∧ Claims.CwRefuses 0x108 5 3 5 ∧
    Claims.CwRefuses 0x20 0xC00000000000000 3 0xC00000000000000 ∧ Claims.CwRefuses 0x27 0x200000000000000 3 0x200000000000000 ∧
    Claims.CwRefuses 0x20 (BitVec.ofNat 64 (2 ^ 56 + 0x4001 * 2 ^ 14)) 3 (BitVec.ofNat 64 (2 ^ 56 + 0x4001 * 2 ^ 14)) ∧
    Claims.CwRefuses 0x20 (BitVec.ofNat 64 (0xFC1 * 2 ^ 14)) 0x0D 0x20 := by simp [Claims.CwRefuses, Claims.fld]
/-- A slot whose message is on its way back, behind one of another actor. -/
theorem witness_SpillwayReturns_slot (x : Slot) (h : x = { tSlot 1 0 with back := true }) : [tSlot 2 0, x] = [tSlot 2 0] ++ x :: [] ∧
    Claims.returning 1 x ∧ ∀ y ∈ [tSlot 2 0], ¬Claims.returning 1 y := by subst h; unfold Claims.returning; decide
/-- An active side of an exchange with its partner, with room and without. -/
theorem witness_ExchangesPairAndReceive (t : Stream) (h : t = { tSide 0 2 with phase := .active, peer := some 3, total := 2048, claimed := 2 }) :
    t.peer = some 3 ∧ t.low / 1024 + 2 ≤ t.claimed ∧ t.low < t.total ∧ t.claimed ≤ Claims.chunks t.total ∧
    ({ t with claimed := 1 } : Stream).claimed ≤ t.wlow / 1024 + 1 ∧ Claims.AtOnce (tSg {}) 0 0 t := by
  subst h; unfold Claims.AtOnce Claims.chunks; decide +kernel

/-- Actor 1 of graph 0 and messages of the job are of its levels. -/
theorem witness_InLevel : Claims.InLevel tS ⟨1, 0, 0⟩ 0 ∧ ¬Claims.InLevel tS ⟨1, 0, 5⟩ 5 ∧ Claims.InLevel tS ⟨1, 2, 1⟩ 7 ∧
    Claims.ActorIn tS ⟨1, 0, 0⟩ 0 1 ∧ ¬Claims.ActorIn tS ⟨1, 2, 1⟩ 0 63 :=
  ⟨⟨rfl, _, .head _, rfl⟩, fun ⟨_, l, hl, h⟩ => by rw [List.mem_singleton.1 hl] at h; exact absurd h (by decide), trivial,
    ⟨by decide, by decide +kernel, by decide +kernel, ⟨by decide +kernel, _, .head _, rfl⟩⟩, fun h => absurd h.1 (by decide)⟩
/-- A phase of a job with one, whose graph's link entry names the phase's sluice as its parent. -/
theorem witness_InLevel_phase (s : State) (h : s = { tWorld { tPier tRun with spad := mwrite [] 0x3FF00 8 (2 ^ 63 + 495 * 2 ^ 10) } with
      jobs := [(1, { loaded := true, img := { job := 1, phases := 1, sluice := 496 } })] }) : Claims.InLevel s ⟨1, 1, 0⟩ 0 := by
  subst h; exact ⟨by decide, _, .head _, by decide +kernel, 0, by decide, by decide +kernel⟩
theorem witness_MsgIn : Claims.MsgIn tS ⟨1, 2, 1⟩ tMsg ∧ Claims.EntryIn tS ⟨1, 2, 1⟩ 0 (tOut (.msg tMsg) 9 false) ∧
    ¬Claims.EntryIn tS ⟨1, 2, 1⟩ 0 (tOut (.gdone 0 1) 12 false) ∧ Claims.LevelSluice tS ⟨1, 0, 0⟩ 0 0 496 :=
  ⟨⟨rfl, by decide, .inl trivial⟩, ⟨rfl, by decide, .inl trivial⟩, id, [], _, [], rfl, rfl, fun _ h => absurd h List.not_mem_nil, rfl, rfl, rfl⟩
theorem witness_AddrIn : Claims.AddrIn tS ⟨1, 2, 1⟩ 1 1 := ⟨0, by decide +kernel, by decide, by decide +kernel, trivial⟩
theorem witness_CancelsAtPiers_premises : ((getPier tS 0).strands.map (·.1)).Nodup ∧ (getActor tS 0 1).retiring = false ∧ (getActor tS 0 1).evicting = none := by
  decide +kernel
/-- A completion sluice of the job with its link entry. -/
theorem witness_JobControllerCancels_link (p : Pier) (h : p = { tIdle [] with spad := mwrite [] 0x3FF00 8 (2 ^ 63) }) :
    (linkOf p 496).getLsbD 63 = true ∧ (tCancel [] 1).mods.map (·.1) = [0] ∧
    ((getMod (tCancel [] 1) 0).cancelRun.map (·.markers)) = some 1 := by subst h; decide +kernel

theorem witness_SamePlaces (x : FMap (BitVec 32)) : Claims.SamePlaces x x := fun _ _ => ⟨rfl, fun _ => ⟨rfl, rfl, rfl, rfl⟩⟩
theorem witness_NoEviction : Claims.NoEviction tMove 0 0 0 ∧
    ¬Claims.NoEviction { tMove with cal := [(101, .partitionEvict 0 0 0)] } 0 0 0 :=
  ⟨fun e h => absurd h List.not_mem_nil, fun h => absurd (h _ (.head _) rfl) (by decide)⟩
/-- A saved stream whose context is to be loaded: the area of the empty memory names a plain SREAD. -/
theorem witness_PartitionsMove_context (s : State) (h : s = tSg { savedCtxs := [(0, tStream .active)] }) :
    locOf s 0 0 0 = .piers ∧ (getMod s 0).halts = [] ∧ (getAbut s 0 0).savedCtxs = [(0, tStream .active)] ∧
    Claims.areaWord s 0 0 0 (Claims.ctxAt 0 + 8 * 7) / 2 ^ 9 % 8 ≠ 5 := by
  subst h
  refine ⟨by decide +kernel, rfl, rfl, ?_⟩
  have h : Claims.areaWord (tSg { savedCtxs := [(0, tStream .active)] }) 0 0 0 (Claims.ctxAt 0 + 8 * 7) = 0 := rfl
  rw [h]; decide
theorem witness_FreeStrand : Claims.FreeStrand (tServing (tCommand 5 1 0) .evicted) 0 1 :=
  ⟨by decide, by decide +kernel, by decide +kernel, fun k h => by obtain rfl : k = 0 := by omega
                                                                  exact .inl (by decide +kernel)⟩
/-- A pier with an evicted actor 1, whose save area at 0x200000 holds a record with a state. -/
def tArea1 (state : Nat) : State :=
  let g := tCommand 5 1 0x200000
  { tWorld { tIdle [] with
      xlroot := 0x8000000000010000
      strands := [(7, { status := .native, service := true, actor := 63, hdr := g })]
      actors := [(1, { st := .evicted }), (63, { st := .running })] }
    { tMod with hbm :=
        [(0, 1), (1, 0x1000), (2, 0x2000), (3, 16), (8, state)].foldl (fun h e => mwrite h (dramLoc 0 (0x200000 + 8 * e.1)) 8 e.2) (tMapped 0xE020000000000000).hbm } with
    cycle := 100 }
/-- Its words. -/
def tWords (i : Nat) : Word := lgetD [1, 0x1000, 0x2000, 16, 0, 0, 0, 0, 2] i 0
theorem witness_AreaFits : wordsOfBytes (areaBytes (tArea1 2) 0 0x200000 72) = [1, 0x1000, 0x2000, 16, 0, 0, 0, 0, 2] ∧
    Claims.AreaFits (tArea1 2) 0 1 tWords ∧ vaWritable (tArea1 2) 0 (getPier (tArea1 2) 0).xlroot 0x200000 4 0x50000 = none ∧
    vaMoving (tArea1 2) 0 (getPier (tArea1 2) 0).xlroot 0x200000 4 0x50000 = false ∧
    vaWritable (tArea1 2) 0 (getPier (tArea1 2) 0).xlroot 0x200000 2 0x50000 = none ∧ (getActor (tArea1 2) 0 1).owed = [] :=
  ⟨by decide +kernel,
    ⟨by decide, by decide, ⟨⟨by decide, .inr (by decide)⟩, by decide, by decide, by decide, by decide, ⟨by decide, _, .head _, rfl⟩, by decide,
      fun i h => absurd h (Nat.not_lt_zero i)⟩, .inr (by decide)⟩,
    by decide +kernel, by decide +kernel, by decide +kernel, by decide +kernel⟩
/-- A harvest under way whose pier has one entry. -/
theorem witness_ServiceActorWork_harvest (s : State) (h : s = tIssue (tRun) (fun p => { p with dlogCount := 1 })
      { tMod with agents := [(0, { harvests := [(0, tCommand 8 0 0, [(0, 1)])] })] }) :
    (getAgent s 0 0).harvests = (0, tCommand 8 0 0, [(0, 1)]) :: [] ∧ 1 ≤ (getPier s 0).dlogCount ∧ (getPier s 0).dlogCount ≤ 256 := by
  subst h; decide +kernel

/-! Witnesses of the host port, the Veiviush space and the keystones. -/

/-- The flits of a put or get are back. -/
def tBack (type : Nat) (f : Sys2Proof.Frame) (p : Pier := tPier tRun) (m : Module := tMod) (r : Nat := 0) : State :=
  tWorld p { m with host := { expected := 1, waiting := [{ type, frame := f, img := none, at_ := 100, away := true, retries := r }] } }
theorem witness_FrameBack (a o : Word) (d : List Byte) (r : Nat) : Claims.FrameBack (tBack 2 (tFrame a o d) (r := r)) 0 2 (tFrame a o d) r :=
  ⟨⟨_, rfl, rfl, rfl, rfl, rfl, Nat.le_refl _, rfl⟩, rfl, rfl⟩
/-- Aperture addresses of a scratchpad, of a weight store for a get, and of neither; what a frozen module holds and what it does not. -/
theorem witness_apertureForm : Claims.apertureForm (tFrame 0x0080000000000000 8 [1]) true ∧ Claims.apertureForm (tFrame 0x0080000080000000 8 []) false ∧
    ¬Claims.apertureForm (tFrame 0x0080000080000000 8 [1]) true ∧ ¬Claims.apertureForm (tFrame 0x0080000000040000 8 [1]) true ∧
    Claims.fld (tFrame 0x0080000000000000 8 [1]).addr 55 9 = 1 := by unfold Claims.apertureForm; decide
theorem witness_HostFramesAct_trip : hostStuck tS 0 (tFrame 0x0080000000000000 8 [1]) 1 = false ∧ hostTrip tS 0 (tFrame 0x0080000000000000 8 [1]) 1 ≠ 0 ∧
    hostTrip tS 0 (tFrame 0x0100000000000000 8 [1]) 1 = 0 ∧
    hostStuck (tWorld (tPier tRun) { tMod with veiv := { stage := 3, frozen := true } }) 0 (tFrame 0x0080000000000000 8 [1]) 1 = true := by decide +kernel
/-- A slice that the job owns; a site that carries no valid slice. -/
theorem witness_HostFramesAct_slice : (let x : Site := { status := 2 ^ 63 + 1 }
      x.status.getLsbD 63 = true ∧ x.status.getLsbD 62 = false ∧ x.status.extractLsb' 0 12 = (tFrame 0 8 []).job) ∧
    ¬((getSite tS 0).status.getLsbD 63 = true) := by decide +kernel
/-- Spare commands at the edges of their unit words; one that is applied, one that is used up. -/
theorem witness_SpareUnit : Claims.SpareUnit 1 0xF03 ∧ Claims.SpareUnit 2 127 ∧ Claims.SpareUnit 3 0x1105 ∧ Claims.SpareUnit 4 0x7F07 ∧
    ¬Claims.SpareUnit 2 128 ∧ ¬Claims.SpareUnit 0 0 ∧ dataWord (tFrame 0xFE00000000003000 0 ([3, 0, 0, 0, 0, 0, 0, 0, 5] ++ List.replicate 7 0)) 8 = 5 :=
  ⟨.inl ⟨rfl, 3, 15, by decide, by decide, by decide⟩, .inr (.inl ⟨rfl, by decide⟩), .inr (.inr (.inl ⟨rfl, 5, 17, by decide, by decide, by decide⟩)),
    .inr (.inr (.inr ⟨rfl, 7, 127, by decide, by decide, by decide⟩)),
    by rintro (⟨h, -⟩ | ⟨-, h⟩ | ⟨h, -⟩ | ⟨h, -⟩) <;> exact absurd h (by decide),
    by rintro (⟨h, -⟩ | ⟨h, -⟩ | ⟨h, -⟩ | ⟨h, -⟩) <;> exact absurd h (by decide), by decide +kernel⟩
theorem witness_Sparing : Claims.Sparing (tWorld (tIdle []) { tMod with halts := [{ tHalt 0 with next := .abut 3 }] }) 0 ∧ ¬Claims.Sparing tS 0 ∧
    Claims.SpareLeft tS 0 1 3 ∧ ¬Claims.SpareLeft (tIssue tRun id { tMod with veiv := { stage := 3, abutSpared := [(1, some 20)] } }) 0 2 20 ∧
    ¬Claims.linked tS 0 ∧ Claims.linked tPair 0 := by
  refine ⟨.inl ⟨_, .head _, .inr (.inl ⟨3, rfl⟩)⟩, ?_, ⟨fun _ => rfl, fun h => absurd h (by decide), fun h => absurd h (by decide), fun h => absurd h (by decide)⟩,
    fun h => absurd (h.2.1 rfl) (by decide +kernel), fun h => absurd rfl (h.1 rfl), fun _ => by decide, fun h => absurd h (by decide), fun h => absurd h (by decide)⟩
  rintro (⟨h, hh, -⟩ | ⟨p, hp, -⟩)
  · exact absurd hh List.not_mem_nil
  · exact absurd hp List.not_mem_nil
/-- Host walks of a put, which needs no right, and of a get. -/
theorem witness_hostWalks_put :
    hostWalk (tSpilling 0xC020000000000000) 0 0x8000000000010000 0 (pieces 0x10000 8) = none ∧
    hostWalk (tSpilling 0xA020000000000000) 0 0x8000000000010000 4 (pieces 0x10000 8) = some (0x10000, .ends .permission) ∧
    (hostWalk (tSpilling 0) 0 0x8000000000010000 0 (pieces 0x10000 8)).isSome = true ∧
    hostWalk (tSpilling (BitVec.twoPow 64 54)) 0 0x8000000000010000 0 (pieces 0x10000 8) = some (0x10000, .moving) := by decide +kernel
/-- FP32 numbers that are whole, powers of two, negative, and none of these. -/
theorem witness_KeystoneValues : fvEq (fvOf fmtFp32 0x40400000) (fvOfInt 3) = true ∧ fvEq (fvOf fmtFp32 0x43800000) (fvOfInt 256) = true ∧
    fvEq (fvOf fmtFp32 1) (.fin false 1 (-149)) = true ∧ (0x7F800000 : Nat) < 0x7F800001 % 2 ^ 31 := by decide +kernel

/-- R224: bytes 8 to 15 of a strand frame are x1. -/
theorem test_frameWritten : (frameInto (bytesOfNat 0x1500 (7 * 2 ^ 64)) {}).x.head? = some (1, Value.ofWord 7) := by decide +kernel

/-- Pier 0 halted by debug. -/
def tHalted : State := tIssue tRun fun p => { p with debugHalted := true }

theorem witness_debugRelease : (contextsOn tHalted 0 (siteOf tHalted 0)).find? (fun k => (getPier tHalted k).debugHalted) = some 0 ∧
    (piersOfJob tHalted (jobOf tHalted 0)).all (fun k => k == 0 || !(getPier tHalted k).debugHalted) = true ∧
    (List.replicate 0x2000 (0 : Byte)).length = 0x2000 ∧ (getPier tHalted 0).debugFrames = [] ∧
    (getPier (tIssue tRun fun p => { p with debugHalted := true, debugFrames := [(7, List.replicate 0x2000 0)] }) 0).debugFrames =
      [(7, List.replicate 0x2000 0)] := ⟨by decide +kernel, by decide +kernel, List.length_replicate, rfl, rfl⟩

end Sys2Proof.Tests
end

section
/-!
The byte memories of a machine, apart from everything else that its state holds: what the operations on the state leave of them, and the
canonical form that O57 is about. A function `f` of the model either leaves the byte memories as they are (`memories_f`), or it writes them
by `mwrite` and its like and so keeps their canonical form (`wf_f`); either is stated once, in the order of the model.
-/

namespace Sys2Proof.Machine

/-! What a state holds of bytes. -/

/-- The byte memories of a machine: HBM by module, scratchpad by pier context, weight-store slice by site. -/
structure Memories where
  hbm : Nat → FMap Byte
  spad : Nat → FMap Byte
  slice : Nat → FMap Byte

/-- The byte memories of a state. -/
def memories (s : State) : Memories :=
  ⟨fun m => (getMod s m).hbm, fun pk => (getPier s pk).spad, fun k => (getSite s k).slice⟩

/-- Every byte memory has its canonical form. -/
def Memories.Wf (x : Memories) : Prop :=
  (∀ m, Memory.wf (x.hbm m) = true) ∧ (∀ pk, Memory.wf (x.spad pk) = true) ∧ ∀ k, Memory.wf (x.slice k) = true

/-- It is the form of which `MemoriesWf` speaks. -/
theorem wf_memories (s : State) : (memories s).Wf ↔ MemoriesWf s := Iff.rfl

theorem getPier_spad (s : State) (pk : Nat) : (getPier s pk).spad = (memories s).spad pk := rfl
theorem wf_hbm {s : State} (h : (memories s).Wf) (m : Nat) : Memory.wf (getMod s m).hbm = true := h.1 m
theorem wf_spad {s : State} (h : (memories s).Wf) (pk : Nat) : Memory.wf (getPier s pk).spad = true := h.2.1 pk
theorem wf_slice {s : State} (h : (memories s).Wf) (k : Nat) : Memory.wf (getSite s k).slice = true := h.2.2 k

/-! Changes that leave the byte memories as they are. -/

/-- The fields of a state that hold no byte memory. -/
@[simp] theorem memories_mk (s : State) (cycle : Nat) (agenda : List Work) (cal : List (Nat × Instr)) (issue : Issue) (fresh tok : Nat)
    (torus : Nat × Nat × Nat) (jobs : FMap Job) (walks : FMap (Option Walk)) :
    memories ⟨cycle, agenda, cal, issue, fresh, tok, torus, s.mods, s.piers, s.sites, jobs, walks⟩ = memories s := rfl

theorem memories_setMod (s : State) (m : Nat) (x : Module) (h : x.hbm = (getMod s m).hbm) : memories (setMod s m x) = memories s := by
  simp only [memories, Memories.mk.injEq]
  refine ⟨funext fun k => ?_, rfl, rfl⟩
  by_cases hk : k = m
  · subst hk; simp [h]
  · rw [getMod_setMod_other _ _ _ _ hk]

theorem memories_setPier (s : State) (pk : Nat) (p : Pier) (h : p.spad = (memories s).spad pk) :
    memories (setPier s pk p) = memories s := by
  simp only [memories, Memories.mk.injEq]
  refine ⟨rfl, funext fun k => ?_, rfl⟩
  by_cases hk : k = pk
  · subst hk; simpa using h.trans (getPier_spad s k).symm
  · rw [getPier_setPier_other _ _ _ _ hk]

@[simp] theorem memories_adjMod (s : State) (m : Nat) (f : Module → Module) (h : ∀ x, (f x).hbm = x.hbm) :
    memories (adjMod s m f) = memories s := memories_setMod _ _ _ (h _)

@[simp] theorem memories_adjPier (s : State) (pk : Nat) (f : Pier → Pier) (h : ∀ p, (f p).spad = p.spad) :
    memories (adjPier s pk f) = memories s := memories_setPier _ _ _ (h _)

@[simp] theorem memories_adjSite (s : State) (k : Nat) (f : Site → Site) (h : ∀ x, (f x).slice = x.slice) :
    memories (adjSite s k f) = memories s := by
  simp only [memories, Memories.mk.injEq]
  refine ⟨rfl, rfl, funext fun j => ?_⟩
  by_cases hj : j = k
  · subst hj; simp [h]
  · simp [getSite, adjSite, fget_fset_other _ _ _ _ _ hj]

/-- A site changed in all but its slice. -/
theorem memories_fadjSite (s : State) (k : Nat) (f : Site → Site) (hf : ∀ x, (f x).slice = x.slice) :
    memories { s with sites := fadj s.sites k {} f } = memories s := memories_adjSite s k f hf

@[simp] theorem memories_foldl {α : Type} (f : State → α → State) (h : ∀ s a, memories (f s a) = memories s) (l : List α)
    (s : State) : memories (l.foldl f s) = memories s := by
  induction l generalizing s with
  | nil => rfl
  | cons a l ih => exact (ih _).trans (h s a)

@[simp] theorem memories_ite (c : Prop) [Decidable c] (s t : State) :
    memories (if c then s else t) = if c then memories s else memories t := apply_ite ..

@[simp] theorem hbm_ite (c : Prop) [Decidable c] (x y : Module) : (if c then x else y).hbm = if c then x.hbm else y.hbm := apply_ite ..
@[simp] theorem spad_ite (c : Prop) [Decidable c] (x y : Pier) : (if c then x else y).spad = if c then x.spad else y.spad := apply_ite ..

/-- A map changed entry by entry reads as it did, where the changes keep what is read. -/
theorem fget_map {α β : Type} (g : α → β) (f : Nat × α → α) (hf : ∀ e, g (f e) = g e.2) (m : FMap α) (k : Nat) (d : α) :
    g (fget (m.map fun e => (e.1, f e)) k d) = g (fget m k d) := by
  induction m with
  | nil => rfl
  | cons e m ih =>
    simp only [List.map_cons, fget]
    split
    · exact hf e
    · exact ih

theorem memories_mapPiers (s : State) (f : Nat × Pier → Pier) (h : ∀ e, (f e).spad = e.2.spad) :
    memories { s with piers := s.piers.map fun e => (e.1, f e) } = memories s := by
  simp only [memories, Memories.mk.injEq]
  exact ⟨rfl, funext fun pk => fget_map Pier.spad f h s.piers pk {}, rfl⟩

theorem memories_mapMods (s : State) (f : Nat × Module → Module) (h : ∀ e, (f e).hbm = e.2.hbm) :
    memories { s with mods := s.mods.map fun e => (e.1, f e) } = memories s := by
  simp only [memories, Memories.mk.injEq]
  exact ⟨funext fun m => fget_map Module.hbm f h s.mods m {}, rfl, rfl⟩

/-- What sending leaves alone. -/
theorem SendsOnly.memories {s t : State} (h : SendsOnly s t) : memories t = memories s := by
  simp only [Machine.memories, h.hbm, h.spad, h.getSite]

/-! Changes that keep their canonical form. -/

@[simp] theorem memories_wf_ite (c : Prop) [Decidable c] (x y : Memories) :
    (if c then x else y).Wf = if c then x.Wf else y.Wf := apply_ite ..

theorem wf_setMod {s : State} (h : (memories s).Wf) (m : Nat) (x : Module) (hx : Memory.wf x.hbm = true) :
    (memories (setMod s m x)).Wf := by
  obtain ⟨hh, hp, hs⟩ := h
  refine ⟨fun k => ?_, hp, hs⟩
  by_cases hk : k = m
  · subst hk; simpa [memories] using hx
  · simpa [memories, getMod_setMod_other _ _ _ _ hk] using hh k

theorem wf_setPier {s : State} (h : (memories s).Wf) (pk : Nat) (p : Pier) (hx : Memory.wf p.spad = true) :
    (memories (setPier s pk p)).Wf := by
  obtain ⟨hh, hp, hs⟩ := h
  refine ⟨hh, fun k => ?_, hs⟩
  by_cases hk : k = pk
  · subst hk; simpa [memories] using hx
  · simpa [memories, getPier_setPier_other _ _ _ _ hk] using hp k

@[simp] theorem wf_adjMod {s : State} (h : (memories s).Wf) (m : Nat) (f : Module → Module)
    (hf : ∀ x, Memory.wf x.hbm = true → Memory.wf (f x).hbm = true) : (memories (adjMod s m f)).Wf :=
  wf_setMod h _ _ (hf _ (wf_hbm h m))

@[simp] theorem wf_adjPier {s : State} (h : (memories s).Wf) (pk : Nat) (f : Pier → Pier)
    (hf : ∀ p, Memory.wf p.spad = true → Memory.wf (f p).spad = true) : (memories (adjPier s pk f)).Wf :=
  wf_setPier h _ _ (hf _ (wf_spad h pk))

@[simp] theorem wf_adjSite {s : State} (h : (memories s).Wf) (k : Nat) (f : Site → Site)
    (hf : ∀ x, Memory.wf x.slice = true → Memory.wf (f x).slice = true) : (memories (adjSite s k f)).Wf := by
  obtain ⟨hh, hp, hs⟩ := h
  refine ⟨hh, hp, fun j => ?_⟩
  by_cases hj : j = k
  · subst hj; simpa [memories] using hf _ (hs j)
  · simpa [memories, getSite, adjSite, fget_fset_other _ _ _ _ _ hj] using hs j

theorem wf_foldl {α : Type} {f : State → α → State} (hf : ∀ s a, (memories s).Wf → (memories (f s a)).Wf) (l : List α)
    {s : State} (h : (memories s).Wf) : (memories (l.foldl f s)).Wf := by
  induction l generalizing s with
  | nil => exact h
  | cons a l ih => exact ih (hf s a h)

/-- A map without the entries of some keys reads as it did at the others. -/
theorem fget_filter {α : Type} (q : Nat → Bool) (m : FMap α) (k : Nat) (d : α) :
    fget (m.filter fun e => q e.1) k d = if q k then fget m k d else d := by
  induction m with
  | nil => simp [fget]
  | cons e m ih =>
    rw [List.filter_cons]
    by_cases hk : e.1 = k
    · subst hk
      by_cases hq : q e.1 = true
      · simp [fget, hq]
      · simpa [hq] using ih
    · by_cases hq : q e.1 = true
      · simp [fget, hq, hk, ih]
      · simp [fget, hq, hk, ih]

theorem wf_filterSites {s : State} (h : (memories s).Wf) (q : Nat → Bool) :
    (memories { s with sites := s.sites.filter fun e => q e.1 }).Wf := by
  obtain ⟨hh, hp, hs⟩ := h
  refine ⟨hh, hp, fun k => ?_⟩
  simp only [memories, getSite, fget_filter]
  split
  · exact hs k
  · rfl

theorem wf_filterPiers {s : State} (h : (memories s).Wf) (q : Nat → Bool) :
    (memories { s with piers := s.piers.filter fun e => q e.1 }).Wf := by
  obtain ⟨hh, hp, hs⟩ := h
  refine ⟨hh, fun pk => ?_, hs⟩
  simp only [memories, getPier, fget_filter]
  split
  · exact hp pk
  · rfl

/-- What holds of the entries that two maps give a key holds of the entry that both together give it. -/
theorem fget_append {α : Type} {P : α → Prop} (a b : FMap α) (k : Nat) (d : α) (ha : P (fget a k d)) (hb : P (fget b k d)) :
    P (fget (a ++ b) k d) := by
  induction a with
  | nil => exact hb
  | cons e a ih =>
    simp only [List.cons_append, fget] at ha ⊢
    split
    · rename_i he
      rwa [if_pos he] at ha
    · rename_i he
      rw [if_neg he] at ha
      exact ih ha

theorem memory_wf_fset (m : FMap Byte) (k : Nat) (b : Byte) (hm : Memory.wf m = true) (hb : b ≠ 0) : Memory.wf (fset m k b) = true := by
  have hw := memory_wf_mset m k b hm
  rwa [mset, if_neg hb] at hw

theorem memory_ne_zero {m : FMap Byte} (h : Memory.wf m = true) {e : Nat × Byte} (he : e ∈ m) : e.2 ≠ 0 := by
  simp only [Memory.wf, Bool.and_eq_true, List.all_eq_true] at h
  simpa using h.2 e he

/-! Claims about the memories, carried through the results of triggers, of frames of the host and of steps. -/

/-- What is said of the memories that a trigger leaves, said of how its checks and effect end. -/
def Trig.Leaves (P : Memories → Prop) : Trig → Prop
  | .fault _ _ => True
  | .ok s => P (memories s)

@[simp] theorem leaves_fault (P : Memories → Prop) (c : Nat) (w : Word) : (Trig.fault c w).Leaves P := trivial
@[simp] theorem leaves_ok (P : Memories → Prop) (s : State) : (Trig.ok s).Leaves P = P (memories s) := rfl

@[simp] theorem leaves_ite (P : Memories → Prop) (c : Prop) [Decidable c] (x y : Trig) :
    (if c then x else y).Leaves P = if c then x.Leaves P else y.Leaves P := apply_ite ..

/-- What is said of where a put or get ends well. -/
def HostEnd.All {α : Type} (P : α → Prop) : HostEnd α → Prop
  | .done x => P x
  | _ => True

/-- What is said of the memories that a frame's action leaves where it is done. -/
def FrameEnd.Leaves (P : Memories → Prop) : FrameEnd → Prop
  | .done s => P (memories s)
  | _ => True

theorem FrameEnd.Leaves.wf {s : State} {e : FrameEnd} (he : e.Leaves (· = memories s)) (h : (memories s).Wf) : e.Leaves Memories.Wf := by
  cases e with
  | done t =>
    have ht : memories t = memories s := he
    rw [FrameEnd.Leaves, ht]
    exact h
  | _ => trivial

/-- What is said of a step: that where it answers a next state, the byte memories have their canonical form there. -/
def OutWf : Out → Prop
  | .next s => (memories s).Wf
  | _ => True

@[simp] theorem outWf_go (s : State) : OutWf (go s) = (memories s).Wf := rfl
@[simp] theorem outWf_next (s : State) : OutWf (.next s) = (memories s).Wf := rfl

theorem outWf_of_eq {s t : State} (ht : memories t = memories s) (h : (memories s).Wf) : OutWf (go t) := by
  rwa [outWf_go, ht]

end Sys2Proof.Machine
end

section
/-!
The shared operations of the machine: the calendar, outboxes, records, events and sluices. Of them only a link entry is written to scratchpad.
-/

namespace Sys2Proof.Machine

@[simp] theorem memories_setStrand (s : State) (pk st x) : memories (setStrand s pk st x) = memories s := by simp [setStrand]
@[simp] theorem memories_adjStrand (s : State) (pk st f) : memories (adjStrand s pk st f) = memories s := by simp [adjStrand]
@[simp] theorem memories_adjActor (s : State) (pk a f) : memories (adjActor s pk a f) = memories s := by simp [adjActor]
@[simp] theorem memories_setSluice (s : State) (pk n x) : memories (setSluice s pk n x) = memories s := by simp [setSluice]
@[simp] theorem memories_adjPart (s : State) (m p f) : memories (adjPart s m p f) = memories s := by simp [adjPart]
@[simp] theorem memories_adjAbut (s : State) (m a f) : memories (adjAbut s m a f) = memories s := by simp [adjAbut]
@[simp] theorem memories_adjAgent (s : State) (m sp f) : memories (adjAgent s m sp f) = memories s := by simp [adjAgent]
@[simp] theorem memories_adjJob (s : State) (j f) : memories (adjJob s j f) = memories s := by simp [adjJob]
@[simp] theorem memories_adjVeiv (s : State) (m f) : memories (adjVeiv s m f) = memories s := by simp [adjVeiv]
@[simp] theorem memories_adjHost (s : State) (m f) : memories (adjHost s m f) = memories s := by simp [adjHost]
@[simp] theorem memories_schedule (s : State) (due i) : memories (schedule s due i) = memories s := by simp [schedule]
@[simp] theorem memories_nowDo (s : State) (i) : memories (nowDo s i) = memories s := by simp [nowDo]
@[simp] theorem memories_tick1 (s : State) : memories (tick1 s) = memories s := by simp [tick1]
@[simp] theorem memories_launch (s : State) (lat i) : memories (launch s lat i) = memories s := by simp [launch]
@[simp] theorem memories_launchOn (s : State) (pk key lat i) : memories (launchOn s pk key lat i) = memories s := by simp [launchOn]

@[simp] theorem memories_answer (s : State) (m pl e status) : memories (answer s m pl e status) = memories s := by
  unfold answer
  split <;> simp

@[simp] theorem memories_launchCopy (s : State) (c i) : memories (launchCopy s c i) = memories s := by simp [launchCopy]

@[simp] theorem memories_pumpList (s : State) (pk) (l done : List OutEntry) : memories (pumpList s pk done l) = memories s :=
  (sendsOnly_pumpList ..).memories

@[simp] theorem memories_pumpOutbox (s : State) (pk) : memories (pumpOutbox s pk) = memories s := by simp [pumpOutbox]

@[simp] theorem memories_enqueue (s : State) (pk key body actor runid bundle strand move w3 unit slot after) :
    memories (enqueue s pk key body actor runid bundle strand move w3 unit slot after) = memories s := by simp [enqueue]

@[simp] theorem memories_sendDevice (s : State) (pk lp dst cls prio kind graph words pay flags actor move w3 unit) :
    memories (sendDevice s pk lp dst cls prio kind graph words pay flags actor move w3 unit) = memories s := by simp [sendDevice]

@[simp] theorem memories_sendRecord (s : State) (pk lp actor w0 w1 w2 w3 w4 w5) :
    memories (sendRecord s pk lp actor w0 w1 w2 w3 w4 w5) = memories s := by simp [sendRecord]

@[simp] theorem memories_takeFault (s : State) (pk st f bundle stop) : memories (takeFault s pk st f bundle stop) = memories s := by
  simp [takeFault]

@[simp] theorem memories_returnFault (s : State) (pk st pc) : memories (returnFault s pk st pc) = memories s := by simp [returnFault]
@[simp] theorem memories_sendDeferred (s : State) (d) : memories (sendDeferred s d) = memories s := by simp [sendDeferred]

@[simp] theorem memories_sendSluiceRecord (s : State) (pk action n deferred) :
    memories (sendSluiceRecord s pk action n deferred) = memories s := by simp [sendSluiceRecord]

@[simp] theorem memories_sendFrame (s : State) (m type job flags addr operand data) :
    memories (sendFrame s m type job flags addr operand data) = memories s := by simp [sendFrame]

@[simp] theorem memories_sendEvent (s : State) (m code job data) : memories (sendEvent s m code job data) = memories s := by
  simp [sendEvent]

@[simp] theorem spad_mqRelease (p : Pier) (cycle actor key) : (mqRelease p cycle actor key).1.spad = p.spad := by
  simp only [mqRelease]
  repeat' split
  all_goals simp

@[simp] theorem memories_slPost (s : State) (pk n action phase count cancelled) :
    memories (slPost s pk n action phase count cancelled) = memories s := by simp [slPost]

@[simp] theorem memories_slRelease (s : State) (pk n action key c) : memories (slRelease s pk n action key c) = memories s := by
  simp only [slRelease]
  split
  · simp
  · exact memories_setPier _ _ _ (spad_mqRelease ..)

@[simp] theorem memories_slAction (s : State) (pk n action phase count cancelled c) :
    memories (slAction s pk n action phase count cancelled c) = memories s := by simp [slAction]

@[simp] theorem wf_setLink {s : State} (h : (memories s).Wf) (pk n w) : (memories (setLink s pk n w)).Wf :=
  wf_adjPier h _ _ fun _ hp => memory_wf_mwrite _ _ _ _ hp

@[simp] theorem memories_slComplete (s : State) (pk link count) : memories (slComplete s pk link count) = memories s := by simp [slComplete]
@[simp] theorem memories_slFire (s : State) (pk n c) : memories (slFire s pk n c) = memories s := by simp [slFire]
@[simp] theorem memories_slCheck (s : State) (pk n c) : memories (slCheck s pk n c) = memories s := by simp [slCheck]
@[simp] theorem memories_slUpdate (s : State) (pk n f c) : memories (slUpdate s pk n f c) = memories s := by simp [slUpdate]
@[simp] theorem memories_slAdd (s : State) (pk n v c) : memories (slAdd s pk n v c) = memories s := by simp [slAdd]

@[simp] theorem memories_enterNotices (s : State) (pk n) (l : List Nat) : memories (enterNotices s pk n l) = memories s := by
  induction l generalizing s with
  | nil => rfl
  | cons j l ih => simp only [enterNotices]; split <;> simp [ih]

@[simp] theorem memories_enterAllNotices (s : State) (pk) (l : List Nat) : memories (enterAllNotices s pk l) = memories s := by
  induction l generalizing s with
  | nil => rfl
  | cons j l ih => simp [enterAllNotices, ih]

@[simp] theorem memories_homeCheck (s : State) (pk n c) : memories (homeCheck s pk n c) = memories s := by simp [homeCheck]

@[simp] theorem memories_homeArrive (s : State) (pk n member frm c) : memories (homeArrive s pk n member frm c) = memories s := by
  simp [homeArrive]

@[simp] theorem memories_sarvArrive (s : State) (pk st n bundle move slot after) :
    memories (sarvArrive s pk st n bundle move slot after) = memories s := by simp [sarvArrive]

@[simp] theorem memories_sarvRetry (s : State) (pk n st) : memories (sarvRetry s pk n st) = memories s := by
  simp only [sarvRetry]
  repeat' split
  all_goals simp

@[simp] theorem memories_sarvWake (s : State) (pk n) : memories (sarvWake s pk n) = memories s := by simp [sarvWake]
@[simp] theorem memories_slSettle (s : State) (pk n) : memories (slSettle s pk n) = memories s := by simp [slSettle]

theorem memories_slAddAt {s : State} {pk n v c} {t : State} (h : slAddAt s pk n v c = some t) : memories t = memories s := by
  unfold slAddAt at h
  split at h
  · rw [← Option.some.inj h]; simp
  · simp at h

end Sys2Proof.Machine
end

section
/-!
Operands, results and the common course of a trigger: what holds of every effect that a trigger can have holds of the trigger.
-/

namespace Sys2Proof.Machine

@[simp] theorem memories_adjCur (s : State) (f) : memories (adjCur s f) = memories s := by simp [adjCur]

@[simp] theorem memories_adjCurPier (s : State) (f : Pier → Pier) (h : ∀ p, (f p).spad = p.spad) :
    memories (adjCurPier s f) = memories s := memories_adjPier _ _ _ h

@[simp] theorem memories_markHeld (s : State) : memories (markHeld s) = memories s := by simp [markHeld]
@[simp] theorem memories_noteFault (s : State) (f) : memories (noteFault s f) = memories s := by simp [noteFault]
@[simp] theorem memories_raise (s : State) (unit code w2 w3) : memories (raise s unit code w2 w3) = memories s := by simp [raise]
@[simp] theorem memories_setResult (s : State) (idx v) : memories (setResult s idx v) = memories s := by simp [setResult]

@[simp] theorem memories_pendResult (s : State) (u lat r h seed create) : memories (pendResult s u lat r h seed create) = memories s := by
  simp [pendResult]

theorem leaves_checked {P : Memories → Prop} {s : State} {k : Need} {t : Value} {body : State → Value → Value → Value → Trig}
    (hb : ∀ s' a b, memories s' = memories s → (body s' t a b).Leaves P) : (checked s k t body).Leaves P := by
  simp only [checked]
  split
  · trivial
  · split
    · trivial
    · split
      · trivial
      · exact hb _ _ _ (by simp)

theorem leaves_runTrigger {P : Memories → Prop} {s : State} (h : P (memories s)) (m : Mv) (k : Need)
    (hold : State → Value → Value → Value → Bool) {body : State → Value → Value → Value → Trig}
    (hb : ∀ s' t a b, memories s' = memories s → (body s' t a b).Leaves P) : P (memories (runTrigger s m k hold body)) := by
  simp only [runTrigger]
  split
  · exact h
  · split
    · simpa using h
    · simpa using h
    · rename_i t _
      have hc : (checked s k t body).Leaves P := leaves_checked fun s' a b => hb s' t a b
      split
      · simpa using h
      · rename_i he
        rw [he] at hc
        split
        · simpa using h
        · exact hc

@[simp] theorem memories_runTrigger (s : State) (m : Mv) (k : Need) (hold : State → Value → Value → Value → Bool)
    (body : State → Value → Value → Value → Trig) (hb : ∀ s' t a b, (body s' t a b).Leaves (· = memories s')) :
    memories (runTrigger s m k hold body) = memories s :=
  leaves_runTrigger (P := (· = memories s)) rfl m k hold fun s' t a b hs => hs ▸ hb s' t a b

theorem wf_runTrigger {s : State} (h : (memories s).Wf) (m : Mv) (k : Need) (hold : State → Value → Value → Value → Bool)
    {body : State → Value → Value → Value → Trig} (hb : ∀ s' t a b, (memories s').Wf → (body s' t a b).Leaves Memories.Wf) :
    (memories (runTrigger s m k hold body)).Wf :=
  leaves_runTrigger h m k hold fun s' t a b hs => hb s' t a b (hs ▸ h)

@[simp] theorem memories_runMove (s : State) (m d) : memories (runMove s m d) = memories s := by
  simp only [runMove]
  repeat' split
  all_goals simp

end Sys2Proof.Machine
end

section
/-!
Control, moves and the integer units.
-/

namespace Sys2Proof.Machine

@[simp] theorem memories_setPc (s : State) (pc) : memories (setPc s pc) = memories s := by simp [setPc]

theorem wf_execJmp {s : State} (h : (memories s).Wf) (m) : OutWf (execJmp m s) := by
  exact outWf_of_eq (memories_runTrigger _ _ _ _ _ fun _ _ _ _ => by simp) h

theorem wf_execJal {s : State} (h : (memories s).Wf) (m) : OutWf (execJal m s) := by
  exact outWf_of_eq (memories_runTrigger _ _ _ _ _ fun _ _ _ _ => by simp) h

theorem wf_execDone {s : State} (h : (memories s).Wf) (m) : OutWf (execDone m s) := by
  exact outWf_of_eq (memories_runTrigger _ _ _ _ _ fun _ _ _ _ => by simp) h

@[simp] theorem memories_softTrap (brk) (s : State) (t) : memories (softTrap brk s t) = memories s := by simp [softTrap]

theorem wf_execTrap {s : State} (h : (memories s).Wf) (m) : OutWf (execTrap m s) := by
  exact outWf_of_eq (memories_runTrigger _ _ _ _ _ fun _ _ _ _ => by simp) h

theorem wf_execBrk {s : State} (h : (memories s).Wf) (m) : OutWf (execBrk m s) := by
  exact outWf_of_eq (memories_runTrigger _ _ _ _ _ fun _ _ _ _ => by simp) h

@[simp] theorem memories_runFence (s : State) (m kind sc) : memories (runFence s m kind sc) = memories s :=
  memories_runTrigger _ _ _ _ _ fun _ _ _ _ => by simp

@[simp] theorem memories_runAlu2 (s : State) (m u f) : memories (runAlu2 s m u f) = memories s :=
  memories_runTrigger _ _ _ _ _ fun _ _ _ _ => by simp

@[simp] theorem memories_runAlu1 (s : State) (m u f) : memories (runAlu1 s m u f) = memories s :=
  memories_runTrigger _ _ _ _ _ fun _ _ _ _ => by simp

theorem wf_execSel {s : State} (h : (memories s).Wf) (m u) : OutWf (execSel m u s) := by
  exact outWf_of_eq (memories_runTrigger _ _ _ _ _ fun _ _ _ _ => by simp) h

@[simp] theorem memories_runMul (s : State) (m f) : memories (runMul s m f) = memories s :=
  memories_runTrigger _ _ _ _ _ fun _ _ _ _ => by simp

theorem wf_execMad {s : State} (h : (memories s).Wf) (m) : OutWf (execMad m s) := by
  exact outWf_of_eq (memories_runTrigger _ _ _ _ _ fun _ _ _ _ => by simp) h

@[simp] theorem memories_runDivide (s : State) (m signed remFirst) : memories (runDivide s m signed remFirst) = memories s :=
  memories_runTrigger _ _ _ _ _ fun _ _ _ _ => by simp

end Sys2Proof.Machine
end

section
/-!
Loads, stores and atomics on the scratchpad.
-/

namespace Sys2Proof.Machine

@[simp] theorem wf_spadPut {s : State} (h : (memories s).Wf) (pk a n v g) : (memories (spadPut s pk a n v g)).Wf := by
  simp only [spadPut]
  split
  · refine wf_adjPier (by simpa using h) _ _ fun p hp => ?_
    split
    · exact hp
    · exact memory_wf_mwrite _ _ _ _ hp
  · exact wf_adjPier h _ _ fun p hp => memory_wf_mwrite _ _ _ _ hp

@[simp] theorem wf_spadWrite {s : State} (h : (memories s).Wf) (pk a n v poison) : (memories (spadWrite s pk a n v poison)).Wf := by
  simp [spadWrite, h]

@[simp] theorem wf_spadWriteVec {s : State} (h : (memories s).Wf) (pk a row mask poison) :
    (memories (spadWriteVec s pk a row mask poison)).Wf := by simp [spadWriteVec, h]

@[simp] theorem wf_spadAtom {s : State} (h : (memories s).Wf) (pk a n x) : (memories (spadAtom s pk a n x)).Wf := by simp [spadAtom, h]

theorem leaves_lsChecked {P : Memories → Prop} {k : Trig} (h : k.Leaves P) (s addr n) : (lsChecked s addr n k).Leaves P := by
  simp [lsChecked, h]

theorem wf_execLdl {s : State} (h : (memories s).Wf) (m f) : OutWf (execLdl m f s) :=
  wf_runTrigger h _ _ _ fun _ _ _ _ hs => leaves_lsChecked (by simp [hs]) ..

theorem wf_execStl {s : State} (h : (memories s).Wf) (m z) : OutWf (execStl m z s) :=
  wf_runTrigger h _ _ _ fun _ _ _ _ hs => leaves_lsChecked (by simp [hs]) ..

theorem wf_execVldl {s : State} (h : (memories s).Wf) (m) : OutWf (execVldl m s) :=
  wf_runTrigger h _ _ _ fun _ _ _ _ hs => leaves_lsChecked (by simp [hs]) ..

theorem wf_execVstl {s : State} (h : (memories s).Wf) (m) : OutWf (execVstl m s) :=
  wf_runTrigger h _ _ _ fun _ _ _ _ hs => leaves_lsChecked (by simp [hs]) ..

@[simp] theorem memories_atomResult (s : State) (r h) : memories (atomResult s r h) = memories s := by simp [atomResult]

theorem wf_execAtl {s : State} (h : (memories s).Wf) (m op w) : OutWf (execAtl m op w s) :=
  wf_runTrigger h _ _ _ fun _ _ _ _ hs => leaves_lsChecked (by simp [hs]) ..

theorem wf_execCasl {s : State} (h : (memories s).Wf) (m w) : OutWf (execCasl m w s) :=
  wf_runTrigger h _ _ _ fun _ _ _ _ hs => leaves_lsChecked (by simp [hs]) ..

end Sys2Proof.Machine
end

section
/-!
Writes by virtual address, leases and the dirty logs.
-/

namespace Sys2Proof.Machine

@[simp] theorem memories_endLease (s : State) (m loc) : memories (endLease s m loc) = memories s := by simp [endLease]

@[simp] theorem wf_hbmWrite {s : State} (h : (memories s).Wf) (m dom l n v poison) : (memories (hbmWrite s m dom l n v poison)).Wf :=
  wf_adjMod (by simpa using h) _ _ fun _ hx => memory_wf_mwrite _ _ _ _ hx

@[simp] theorem wf_hbmOr {s : State} (h : (memories s).Wf) (m dom l bit) : (memories (hbmOr s m dom l bit)).Wf :=
  wf_adjMod (by simpa using h) _ _ fun _ hx => memory_wf_mwrite _ _ _ _ hx

@[simp] theorem wf_dlogAppend {s : State} (h : (memories s).Wf) (pk e) : (memories (dlogAppend s pk e)).Wf := by
  simp only [dlogAppend]
  split
  all_goals
    simp only [memories_schedule, memories_adjSite, implies_true]
    exact wf_adjPier h _ _ fun _ hp => memory_wf_mwrite _ _ _ _ hp

@[simp] theorem wf_dlogMergeOne {s : State} (h : (memories s).Wf) (pk) : (memories (dlogMergeOne s pk)).Wf := by
  simp only [dlogMergeOne]
  split
  · exact h
  · refine wf_adjPier ?_ _ _ fun _ hp => memory_wf_mwrite _ _ _ _ hp
    split <;> simp [h]

@[simp] theorem wf_dlogMerge {s : State} (h : (memories s).Wf) (pk n) : (memories (dlogMerge s pk n)).Wf := by
  induction n generalizing s with
  | zero => exact h
  | succ n ih => simp only [dlogMerge]; split <;> simp [h, ih]

theorem wf_dlogMergeAll {s : State} (h : (memories s).Wf) (l : List Nat) :
    (memories (l.foldl (fun s pk => dlogMerge s pk (getPier s pk).dlogCount) s)).Wf :=
  wf_foldl (fun _ _ hs => wf_dlogMerge hs ..) l h

@[simp] theorem memories_vaTouch (s : State) (m root va n) : memories (vaTouch s m root va n) = memories s := by
  refine memories_foldl _ (fun s i => ?_) _ _
  simp only
  split <;> simp

@[simp] theorem wf_vaPoke {s : State} (h : (memories s).Wf) (from_ root va b poison) : (memories (vaPoke s from_ root va b poison)).Wf := by
  unfold vaPoke
  split <;> simp [h]

@[simp] theorem wf_vaWrite {s : State} (h : (memories s).Wf) (from_ root va) (l : List Byte) :
    (memories (vaWrite s from_ root va l)).Wf := by
  induction l generalizing s va with
  | nil => exact h
  | cons b l ih => exact ih (by simp [h]) _

@[simp] theorem memories_vaClear (s : State) (from_ root va n) : memories (vaClear s from_ root va n) = memories s := by
  induction n generalizing s va with
  | zero => rfl
  | succ n ih =>
    simp only [vaClear, ih]
    split
    · split <;> simp
    · rfl

end Sys2Proof.Machine
end

section
/-!
Accesses of the gm unit: translation, requests, and their effect at the home.
-/

namespace Sys2Proof.Machine

theorem leaves_gmChecked {P : Memories → Prop} {k : Trig} (h : k.Leaves P) (op va) : (gmChecked op va k).Leaves P := by simp [gmChecked, h]
@[simp] theorem memories_launchAperture (s : State) (r) : memories (launchAperture s r) = memories s := by simp [launchAperture]
@[simp] theorem memories_launchPaged (s : State) (r) : memories (launchPaged s r) = memories s := by simp [launchPaged]
@[simp] theorem memories_pierCache (s : State) (pk e) : memories (pierCache s pk e) = memories s := by simp [pierCache]
@[simp] theorem memories_agentAdd (s : State) (pk e) : memories (agentAdd s pk e) = memories s := by simp [agentAdd]
@[simp] theorem memories_newWalk (s : State) (w) : memories (newWalk s w) = memories s := by simp [newWalk]

@[simp] theorem memories_startTranslation (s : State) (pk st entry e) : memories (startTranslation s pk st entry e) = memories s := by
  simp only [startTranslation]
  repeat' split
  all_goals simp

@[simp] theorem memories_startEntry (s : State) (pk st i e) : memories (startEntry s pk st i e) = memories s := by simp [startEntry]
@[simp] theorem memories_replayAwaiting (s : State) (pk st) : memories (replayAwaiting s pk st) = memories s := by simp [replayAwaiting]
@[simp] theorem memories_gmStart (s : State) (op va t b) : memories (gmStart s op va t b) = memories s := by simp [gmStart]

@[simp] theorem memories_runGm (s : State) (m op) : memories (runGm s m op) = memories s :=
  memories_runTrigger _ _ _ _ _ fun _ _ _ _ => leaves_gmChecked (by simp) ..

@[simp] theorem memories_gmFault (s : State) (pk st i e code notRes) : memories (gmFault s pk st i e code notRes) = memories s := by
  simp [gmFault]

@[simp] theorem wf_issueEntry {s : State} (h : (memories s).Wf) (pk st i e c) : (memories (issueEntry s pk st i e c)).Wf := by
  simp [issueEntry, h]

theorem wf_execGmTranslationDone {s : State} (h : (memories s).Wf) (pk st entry tok o) :
    OutWf (execGmTranslationDone pk st entry tok o s) := by
  simp only [execGmTranslationDone]
  repeat' split
  all_goals simp [h]

@[simp] theorem memories_setCtx (s : State) (m a t) : memories (setCtx s m a t) = memories s := by simp [setCtx]
@[simp] theorem memories_restartWalks (s : State) (m sp) : memories (restartWalks s m sp) = memories s := by simp [restartWalks]

@[simp] theorem memories_walkEnds (s : State) (w k o) : memories (walkEnds s w k o) = memories s := by
  simp only [walkEnds]
  repeat' split
  all_goals simp

theorem wf_execPageWalk {s : State} (h : (memories s).Wf) (w) : OutWf (execPageWalk w s) := by
  simp only [execPageWalk]
  repeat' split
  all_goals simp [h]

@[simp] theorem wf_hbmDo {s : State} (h : (memories s).Wf) (r) : (memories (hbmDo s r).1).Wf := by
  simp only [hbmDo]
  split
  · exact wf_adjMod h _ _ fun _ hx => memory_wf_mwrite _ _ _ _ hx
  · exact h

theorem wf_execIngressAtomic {s : State} (h : (memories s).Wf) (r) : OutWf (execIngressAtomic r s) := by
  simp only [execIngressAtomic]
  split
  · simpa using h
  · rw [outWf_go, memories_launch]
    refine wf_hbmDo ?_ _
    split
    · exact h
    · rw [memories_schedule, memories_mk]
      simpa using h

@[simp] theorem wf_apertureDo {s : State} (h : (memories s).Wf) (pk r) : (memories (apertureDo s pk r).1).Wf := by
  simp only [apertureDo]
  repeat' split
  all_goals simp [h]

@[simp] theorem memories_refuseAperture (s : State) (r m pl status) : memories (refuseAperture s r m pl status) = memories s := by
  simp [refuseAperture]

theorem wf_execApertureAccess {s : State} (h : (memories s).Wf) (r) : OutWf (execApertureAccess r s) := by
  simp only [execApertureAccess]
  repeat' split
  all_goals simp [h]

theorem wf_execGmReply {s : State} (h : (memories s).Wf) (a) : OutWf (execGmReply a s) := by
  simp only [execGmReply]
  repeat' split
  all_goals simp [h]

end Sys2Proof.Machine
end

section
/-!
The matrix unit: its queue and the steps of its entries.
-/

namespace Sys2Proof.Machine

@[simp] theorem memories_mxQueue (s : State) (op t a) : memories (mxQueue s op t a) = memories s := by simp [mxQueue]
theorem leaves_mxChecked {P : Memories → Prop} {k : Trig} (h : k.Leaves P) (s t) : (mxChecked s t k).Leaves P := by simp [mxChecked, h]

@[simp] theorem memories_runMx (s : State) (m op port) : memories (runMx s m op port) = memories s :=
  memories_runTrigger _ _ _ _ _ fun _ _ _ _ => leaves_mxChecked (by simp) ..

@[simp] theorem memories_runMst (s : State) (m op opc) : memories (runMst s m op opc) = memories s :=
  memories_runTrigger _ _ _ _ _ fun _ _ _ _ => leaves_mxChecked (by split <;> simp) ..

@[simp] theorem memories_adjTile (s : State) (pk i f) : memories (adjTile s pk i f) = memories s := by simp [adjTile]

@[simp] theorem memories_prodDo (s : State) (pk e) : memories (prodDo s pk e) = memories s := by
  unfold prodDo
  split <;> simp

@[simp] theorem memories_cmmaDo (s : State) (pk e) : memories (cmmaDo s pk e) = memories s := by simp [cmmaDo]

@[simp] theorem memories_loadStep (s : State) (pk i spr rb r j v pz) : memories (loadStep s pk i spr rb r j v pz) = memories s := by
  simp [loadStep]

@[simp] theorem memories_mldStep (s : State) (pk e k) : memories (mldStep s pk e k) = memories s := by simp [mldStep]
@[simp] theorem wf_mstStep {s : State} (h : (memories s).Wf) (pk e k) : (memories (mstStep s pk e k)).Wf := by simp [mstStep, h]
@[simp] theorem memories_claim (s : State) (pk i e) : memories (claim s pk i e) = memories s := by simp [claim]

@[simp] theorem wf_mxStep {s : State} (h : (memories s).Wf) (pk e k) : (memories (mxStep s pk e k)).Wf := by
  unfold mxStep
  split <;> simp [h]

@[simp] theorem memories_mxLast (s : State) (pk e) : memories (mxLast s pk e) = memories s := by
  unfold mxLast
  split <;> simp

@[simp] theorem wf_mxAdvance {s : State} (h : (memories s).Wf) (pk e k) : (memories (mxAdvance s pk e k)).Wf := by simp [mxAdvance, h]
@[simp] theorem memories_mxFault (s : State) (pk e code w3) : memories (mxFault s pk e code w3) = memories s := by simp [mxFault]

theorem wf_execMatrixEntryExecute {s : State} (h : (memories s).Wf) (pk) : OutWf (execMatrixEntryExecute pk s) := by
  simp only [execMatrixEntryExecute]
  repeat' split
  all_goals simp [h]

theorem wf_execMatrixEntryComplete {s : State} (h : (memories s).Wf) (pk) : OutWf (execMatrixEntryComplete pk s) := by
  simp only [execMatrixEntryComplete]
  split
  · exact h
  · split
    · exact h
    · split
      · simpa using h
      · split
        · rename_i hs
          rw [outWf_go, memories_slAddAt hs]
          simpa using h
        · simpa using h

end Sys2Proof.Machine
end

section
/-!
Invalidations.
-/

namespace Sys2Proof.Machine

@[simp] theorem memories_tlbiArrive (s : State) (m sp r) : memories (tlbiArrive s m sp r) = memories s := by simp [tlbiArrive]

@[simp] theorem memories_tlbiForward (s : State) (m r) (l : List (Nat × Nat)) : memories (tlbiForward s m r l) = memories s := by
  induction l generalizing s with
  | nil => rfl
  | cons a l ih => simp [tlbiForward, ih]

theorem wf_execInvalidationAgent {s : State} (h : (memories s).Wf) (mod span) : OutWf (execInvalidationAgent mod span s) := by
  simp only [execInvalidationAgent]
  split
  · split <;> simpa using wf_dlogMergeAll (by simpa using h) _
  · exact h

@[simp] theorem memories_invalAcked (s : State) (m sp i) : memories (invalAcked s m sp i) = memories s := by simp [invalAcked]

theorem wf_execInvalidationPier {s : State} (h : (memories s).Wf) (mod span lp) : OutWf (execInvalidationPier mod span lp s) := by
  simp only [execInvalidationPier]
  split
  · exact h
  · split
    · exact h
    · split
      · rw [outWf_go, memories_schedule, memories_fadjSite]
        exacts [h, fun _ => rfl]
      · rw [outWf_go, memories_invalAcked, memories_fadjSite]
        exacts [h, fun _ => rfl]

theorem wf_execInvalidationAbutment {s : State} (h : (memories s).Wf) (mod abut) : OutWf (execInvalidationAbutment mod abut s) := by
  simp only [execInvalidationAbutment]
  repeat' split
  all_goals simp [h]

@[simp] theorem memories_invalDone (s : State) (m r) : memories (invalDone s m r) = memories s := by
  simp only [invalDone]
  split
  · simp
  · split
    · rename_i h
      simp [memories_slAddAt h]
    · simp

theorem wf_execInvalidationComplete {s : State} (h : (memories s).Wf) (mod span) : OutWf (execInvalidationComplete mod span s) := by
  simp only [execInvalidationComplete]
  repeat' split
  all_goals simp [h]

end Sys2Proof.Machine
end

section
/-!
Sluice triggers and what arrives at sluices.
-/

namespace Sys2Proof.Machine

theorem leaves_slChecked {P : Memories → Prop} {k : Trig} (h : k.Leaves P) (s n f) : (slChecked s n f k).Leaves P := by simp [slChecked, h]
@[simp] theorem memories_sarmSet (s : State) (pk n t c) : memories (sarmSet s pk n t c) = memories s := by simp [sarmSet]

theorem leaves_sarmAt (s : State) (pk n t) : (sarmAt s pk n t).Leaves (· = memories s) := by
  unfold sarmAt
  split <;> simp

/-- A sluice operation is made at once, or it waits in its bundle and nothing is changed yet. -/
theorem leaves_coverHere {P : Memories → Prop} {s now : State} (h : P (memories s)) (hn : P (memories now)) (o) :
    P (memories (coverHere s o now)) := by
  simp only [coverHere]
  split
  · simpa using h
  · exact hn

theorem leaves_sarmDo (s : State) (n t) : (sarmDo s n t).Leaves (· = memories s) := by
  simp only [sarmDo]
  split
  · trivial
  · exact leaves_coverHere (P := (· = memories s)) rfl (by simp) _

theorem wf_execSarm {s : State} (h : (memories s).Wf) (m) : OutWf (execSarm m s) :=
  outWf_of_eq (memories_runTrigger _ _ _ _ _ fun _ _ _ _ => leaves_slChecked (leaves_sarmDo ..) ..) h

@[simp] theorem memories_ssetAt (s : State) (pk n a t c) : memories (ssetAt s pk n a t c) = memories s := by simp [ssetAt]

@[simp] theorem memories_ssetDo (s : State) (n a t) : memories (ssetDo s n a t) = memories s :=
  leaves_coverHere (P := (· = memories s)) rfl (by simp) _

theorem wf_execSset {s : State} (h : (memories s).Wf) (m) : OutWf (execSset m s) :=
  wf_runTrigger h _ _ _ fun _ _ _ _ hs => leaves_slChecked (by simp [hs]) ..

@[simp] theorem memories_saddAt (s : State) (pk n v c) : memories (saddAt s pk n v c) = memories s := by simp [saddAt]

@[simp] theorem memories_saddDo (s : State) (n t) : memories (saddDo s n t) = memories s :=
  leaves_coverHere (P := (· = memories s)) rfl (by simp) _

theorem wf_execSadd {s : State} (h : (memories s).Wf) (m) : OutWf (execSadd m s) :=
  wf_runTrigger h _ _ _ fun _ _ _ _ hs => leaves_slChecked (by simp [hs]) ..

@[simp] theorem memories_enqueueCur (s : State) (key body w2 w3 unit) : memories (enqueueCur s key body w2 w3 unit) = memories s := by
  simp [enqueueCur]

@[simp] theorem memories_sarvDo (s : State) (n t) : memories (sarvDo s n t) = memories s := by simp [sarvDo]

theorem wf_execSarv {s : State} (h : (memories s).Wf) (m) : OutWf (execSarv m s) :=
  wf_runTrigger h _ _ _ fun _ _ _ _ hs => leaves_slChecked (by simp [hs]) ..

@[simp] theorem memories_startWait (s : State) (w) : memories (startWait s w) = memories s := by simp [startWait]

theorem wf_execSwait {s : State} (h : (memories s).Wf) (m) : OutWf (execSwait m s) :=
  wf_runTrigger h _ _ _ fun _ _ _ _ hs => leaves_slChecked (by simp [hs]) ..

theorem wf_execSwaitPh {s : State} (h : (memories s).Wf) (m) : OutWf (execSwaitPh m s) :=
  wf_runTrigger h _ _ _ fun _ _ _ _ hs => leaves_slChecked (by simp [hs]) ..

theorem wf_execSget {s : State} (h : (memories s).Wf) (m) : OutWf (execSget m s) :=
  wf_runTrigger h _ _ _ fun _ _ _ _ hs => leaves_slChecked (by simp [hs]) ..

@[simp] theorem wf_markCancelled {s : State} (h : (memories s).Wf) (pk n c) : (memories (markCancelled s pk n c)).Wf := by
  simp [markCancelled, h]

@[simp] theorem wf_addArrive {s : State} (h : (memories s).Wf) (a) : (memories (addArrive s a)).Wf := by
  simp only [addArrive]
  split
  · simpa using h
  · split
    · simpa using h
    · split
      · rename_i hs
        simp [memories_slAddAt hs, h]
      · simpa using h

@[simp] theorem memories_barrierArrive (s : State) (a) : memories (barrierArrive s a) = memories s := by
  unfold barrierArrive
  split <;> simp

@[simp] theorem memories_noticeArrive (s : State) (a) : memories (noticeArrive s a) = memories s := by
  unfold noticeArrive
  split <;> simp

@[simp] theorem wf_slMessage {s : State} (h : (memories s).Wf) (g frm) : (memories (slMessage s g frm)).Wf := by simp [slMessage, h]

end Sys2Proof.Machine
end

section
/-!
Stream commands and the triggers that wait in their bundles.
-/

namespace Sys2Proof.Machine

theorem leaves_sgChecked {P : Memories → Prop} {k : Trig} (h : k.Leaves P) (s kind q t) : (sgChecked s kind q t k).Leaves P := by
  simp [sgChecked, h]

@[simp] theorem memories_sgSend (s : State) (pk a c) : memories (sgSend s pk a c) = memories s := by simp [sgSend]
@[simp] theorem memories_sgStart (s : State) (kind q t) : memories (sgStart s kind q t) = memories s := by simp [sgStart]

@[simp] theorem memories_owedDo (s : State) (pk st runid o) : memories (owedDo s pk st runid o) = memories s := by
  unfold owedDo
  split <;> simp

@[simp] theorem memories_owedMake (s : State) (pk st live lp actor runid o) :
    memories (owedMake s pk st live lp actor runid o) = memories s := by
  unfold owedMake
  split <;> simp

@[simp] theorem memories_owedSettle (s : State) (pk rank st) : memories (owedSettle s pk rank st) = memories s := by
  simp only [owedSettle]
  repeat' split
  all_goals simp

@[simp] theorem memories_owedLeftSettle (s : State) (pk rank) : memories (owedLeftSettle s pk rank) = memories s := by simp [owedLeftSettle]
@[simp] theorem memories_owedAll (s : State) (pk) : memories (owedAll s pk) = memories s := by simp [owedAll]

@[simp] theorem memories_runSg (s : State) (m kind) : memories (runSg s m kind) = memories s := by
  refine memories_runTrigger _ _ _ _ _ fun s t _ _ => ?_
  split
  · trivial
  · exact leaves_sgChecked (by simp) ..

@[simp] theorem memories_streamRecord (s : State) (m a c code w2 w3 pos) : memories (streamRecord s m a c code w2 w3 pos) = memories s := by
  simp [streamRecord]

@[simp] theorem memories_adjPending (s : State) (pk st tok f) : memories (adjPending s pk st tok f) = memories s := by
  simp only [adjPending]
  split
  · exact memories_mapPiers _ _ fun _ => rfl
  · simp

@[simp] theorem memories_sgAnswer (s : State) (m a pk strand tok v) : memories (sgAnswer s m a pk strand tok v) = memories s := by
  simp [sgAnswer]

@[simp] theorem memories_dropHandle (s : State) (m a sid c) : memories (dropHandle s m a sid c) = memories s := by
  simp only [dropHandle]
  repeat' split
  all_goals simp

@[simp] theorem memories_refuseCommand (s : State) (m a c f) : memories (refuseCommand s m a c f) = memories s := by simp [refuseCommand]

@[simp] theorem memories_acceptInto (s : State) (m a sid c) : memories (acceptInto s m a sid c) = memories s := by
  unfold acceptInto
  split <;> simp

@[simp] theorem memories_acceptQueued (s : State) (m a n) : memories (acceptQueued s m a n) = memories s := by
  induction n generalizing s with
  | zero => rfl
  | succ n ih => simp only [acceptQueued]; split <;> simp [ih]

@[simp] theorem memories_streamFinish (s : State) (m a t) : memories (streamFinish s m a t) = memories s := by
  unfold streamFinish
  split <;> simp

@[simp] theorem memories_settleStream (s : State) (m a sid) : memories (settleStream s m a sid) = memories s := by
  unfold settleStream
  split <;> simp

@[simp] theorem memories_xchTell (s : State) (m a t q w) : memories (xchTell s m a t q w) = memories s := by simp [xchTell]

@[simp] theorem memories_stopPartner (s : State) (m a t) : memories (stopPartner s m a t) = memories s := by
  unfold stopPartner
  split <;> simp

@[simp] theorem memories_stopStream (s : State) (m a t f) : memories (stopStream s m a t f) = memories s := by simp [stopStream]

theorem memories_unqueue {s : State} {m a pk actor tag} {t : State} (h : unqueue s m a pk actor tag = some t) :
    memories t = memories s := by
  unfold unqueue at h
  split at h
  · rw [← Option.some.inj h]; simp
  · split at h
    · rw [← Option.some.inj h]; simp
    · simp at h

@[simp] theorem memories_cancelStream (s : State) (m a c) : memories (cancelStream s m a c) = memories s := by
  simp only [cancelStream]
  split
  · simp
  · split
    · rename_i h
      simp [memories_unqueue h]
    · simp

@[simp] theorem memories_resendCommand (s : State) (m a c) : memories (resendCommand s m a c) = memories s := by simp [resendCommand]

@[simp] theorem memories_commandArrives (s : State) (m a c) : memories (commandArrives s m a c) = memories s := by
  simp only [commandArrives]
  repeat' split
  all_goals simp

end Sys2Proof.Machine
end

section
/-!
Streams: their steps, flits, increments and exchanges.
-/

namespace Sys2Proof.Machine

@[simp] theorem memories_oweAdds (s : State) (m a t n back) : memories (oweAdds s m a t n back) = memories s := by simp [oweAdds]

@[simp] theorem memories_streamDone (s : State) (m a sid) : memories (streamDone s m a sid) = memories s := by
  unfold streamDone
  split <;> simp

@[simp] theorem memories_streamBegin (s : State) (m a t) : memories (streamBegin s m a t) = memories s := by simp [streamBegin]

@[simp] theorem memories_openAt (s : State) (m a sid) : memories (openAt s m a sid) = memories s := by
  simp only [openAt]
  repeat' split
  all_goals simp

@[simp] theorem memories_touchPlaces (s : State) (l) : memories (touchPlaces s l) = memories s := by simp [touchPlaces]
@[simp] theorem memories_touchWord (s : State) (m t va n) : memories (touchWord s m t va n) = memories s := by simp [touchWord]

@[simp] theorem wf_extPoke {s : State} (h : (memories s).Wf) (e va b poison) : (memories (extPoke s e va b poison)).Wf := by
  simp [extPoke, h]

@[simp] theorem wf_writeFlit {s : State} (h : (memories s).Wf) (l row bad) : (memories (writeFlit s l row bad)).Wf := by
  have hw := wf_foldl (f := fun s (x : Nat × Word × TEntry) => extPoke s x.2.2 x.2.1 (BitVec.ofNat 8 (row.toNat / 256 ^ x.1)) bad)
    (fun s x hs => wf_extPoke hs ..) ((List.range l.length).zip l) h
  simp only [writeFlit]
  split
  · exact hw
  · split
    · simpa using hw
    · exact hw

@[simp] theorem memories_walkStream (s : State) (m a t va need) : memories (walkStream s m a t va need) = memories s := by
  unfold walkStream
  split <;> simp

@[simp] theorem memories_walkFailed (s : State) (m a t va o f) : memories (walkFailed s m a t va o f) = memories s := by simp [walkFailed]

@[simp] theorem memories_stuck {α : Type} (s : State) (m a t f) (g : Got α) : memories (stuck s m a t f g) = memories s := by
  unfold stuck
  split
  · simp
  · split
    · simp
    · split <;> simp
  · simp

@[simp] theorem memories_translateAhead (s : State) (m a t) : memories (translateAhead s m a t) = memories s := by
  simp only [translateAhead]
  repeat' split
  all_goals simp

@[simp] theorem memories_launchFlit (s : State) (m a t f wait i) : memories (launchFlit s m a t f wait i) = memories s := by
  simp [launchFlit]

@[simp] theorem memories_sendFlit (s : State) (m a t f n back) : memories (sendFlit s m a t f n back) = memories s := by simp [sendFlit]
@[simp] theorem memories_touchList (s : State) (m t f n) : memories (touchList s m t f n) = memories s := by simp [touchList]

@[simp] theorem memories_sendNext (s : State) (m a t last) : memories (sendNext s m a t last).1 = memories s := by
  simp only [sendNext]
  repeat' split
  all_goals simp

@[simp] theorem memories_segSend (s : State) (m a t) : memories (segSend s m a t).1 = memories s := by simp [segSend]

@[simp] theorem memories_segStep (s : State) (m a t) : memories (segStep s m a t).1 = memories s := by
  simp only [segStep]
  repeat' split
  all_goals simp

@[simp] theorem memories_readExt (s : State) (m a t) : memories (readExt s m a t).1 = memories s := by
  simp only [readExt]
  repeat' split
  all_goals simp

@[simp] theorem wf_writeNext {s : State} (h : (memories s).Wf) (m a t x) : (memories (writeNext s m a t x).1).Wf := by
  simp only [writeNext]
  repeat' split
  all_goals simp [h]

@[simp] theorem memories_askNext (s : State) (m a t) : memories (askNext s m a t).1 = memories s := by
  simp only [askNext]
  repeat' split
  all_goals simp

@[simp] theorem wf_writeStep {s : State} (h : (memories s).Wf) (m a t0) : (memories (writeStep s m a t0).1).Wf := by
  simp only [writeStep]
  repeat' split
  all_goals simp [h]

theorem memories_claimNext {s s' : State} {m a t} (h : claimNext s m a t = some s') : memories s' = memories s := by
  unfold claimNext at h
  split at h
  · simp at h
  · split at h
    · rw [← Option.some.inj h]; simp
    · simp at h

theorem memories_grantNext {s s' : State} {m a t} (h : grantNext s m a t = some s') : memories s' = memories s := by
  unfold grantNext at h
  split at h
  · simp at h
  · simp only at h
    split at h
    · rw [← Option.some.inj h]; simp
    · simp at h

@[simp] theorem wf_xchWrite {s : State} (h : (memories s).Wf) (m a t x) : (memories (xchWrite s m a t x)).Wf := by
  unfold xchWrite
  split <;> simp [h]

@[simp] theorem memories_xchRead (s : State) (m a t) : memories (xchRead s m a t).1 = memories s := by
  simp only [xchRead]
  repeat' split
  all_goals simp

@[simp] theorem memories_xchSend (s : State) (m a t q) : memories (xchSend s m a t q) = memories s := by
  simp only [xchSend]
  split <;> rw [memories_launch, memories_setCtx]

@[simp] theorem wf_xchStep {s : State} (h : (memories s).Wf) (m a t) : (memories (xchStep s m a t).1).Wf := by
  simp only [xchStep]
  split
  · simpa using h
  · split
    · rename_i hs
      exact memories_claimNext hs ▸ h
    · split
      · rename_i hs
        exact memories_grantNext hs ▸ h
      · repeat' split
        all_goals simp [h]

@[simp] theorem wf_ctxStep {s : State} (h : (memories s).Wf) (m a t) : (memories (ctxStep s m a t).1).Wf := by
  simp only [ctxStep]
  repeat' split
  all_goals simp [h]

@[simp] theorem memories_aheadAll (s : State) (m a) : memories (aheadAll s m a) = memories s := by
  refine memories_foldl _ (fun s i => ?_) _ _
  split
  · simp
  · rfl

theorem wf_tryCtxs {s : State} (h : (memories s).Wf) (m a) (l : List Nat) : (memories (tryCtxs s m a l).1).Wf := by
  induction l generalizing s with
  | nil => exact h
  | cons i l ih =>
    simp only [tryCtxs]
    split
    · exact ih h
    · split
      · simp [h]
      · exact ih (by simp [h])

theorem wf_execStreamTurn {s : State} (h : (memories s).Wf) (mod abut) : OutWf (execStreamTurn mod abut s) := by
  have ht (l) := wf_tryCtxs (s := aheadAll s mod abut) (by simpa using h) mod abut l
  simp only [execStreamTurn]
  split
  · exact ht _
  · simpa using ht _

@[simp] theorem memories_ackFlit (s : State) (c f status) : memories (ackFlit s c f status) = memories s := by simp [ackFlit]
@[simp] theorem memories_refuseFlit (s : State) (m a t f stop) : memories (refuseFlit s m a t f stop) = memories s := by simp [refuseFlit]

@[simp] theorem memories_flitAdd (s : State) (pk c f) : memories (flitAdd s pk c f).1 = memories s := by
  simp only [flitAdd]
  split
  · split
    · rename_i h
      simp [memories_slAddAt h]
    · rfl
  · rfl

theorem wf_execDataFlitArrival {s : State} (h : (memories s).Wf) (f) : OutWf (execDataFlitArrival f s) := by
  simp only [execDataFlitArrival]
  repeat' split
  all_goals simp [h]

@[simp] theorem wf_weightWrite {s : State} (h : (memories s).Wf) (pk off nb v poison) : (memories (weightWrite s pk off nb v poison)).Wf :=
  wf_adjSite h _ _ fun _ hx => memory_wf_mwrite _ _ _ _ hx

theorem wf_execWeightFlitArrival {s : State} (h : (memories s).Wf) (f) : OutWf (execWeightFlitArrival f s) := by
  simp only [execWeightFlitArrival]
  repeat' split
  all_goals simp [h]

theorem wf_execScratchpadReadRequest {s : State} (h : (memories s).Wf) (f) : OutWf (execScratchpadReadRequest f s) := by
  simp only [execScratchpadReadRequest]
  repeat' split
  all_goals simp [h]

theorem wf_execFlitResend {s : State} (h : (memories s).Wf) (f) : OutWf (execFlitResend f s) := by
  unfold execFlitResend
  split <;> simp [h]

@[simp] theorem memories_refusedFlit (s : State) (m a t idx hold) : memories (refusedFlit s m a t idx hold) = memories s := by
  simp [refusedFlit]

@[simp] theorem memories_flitAck (s : State) (m a sid idx status) : memories (flitAck s m a sid idx status) = memories s := by
  simp only [flitAck]
  repeat' split
  all_goals simp

@[simp] theorem memories_addLess (s : State) (m a sid cmd) : memories (addLess s m a sid cmd) = memories s := by
  unfold addLess
  split <;> simp

@[simp] theorem memories_addRefused (s : State) (m a sid cmd) : memories (addRefused s m a sid cmd) = memories s := by
  unfold addRefused
  split <;> simp

theorem wf_execStreamIncrement {s : State} (h : (memories s).Wf) (mod abut sid cmd) : OutWf (execStreamIncrement mod abut sid cmd s) := by
  simp only [execStreamIncrement]
  split
  · simpa using h
  · split
    · simpa using h
    · simpa using h
    · split
      · rename_i hs
        rw [outWf_go, memories_addLess, memories_slAddAt hs]
        exact h
      · simpa using h

@[simp] theorem memories_pairUp (s : State) (m a t u) : memories (pairUp s m a t u) = memories s := by simp [pairUp]
@[simp] theorem memories_pairDone (s : State) (m a t) : memories (pairDone s m a t) = memories s := by simp [pairDone]

theorem wf_execSxchPair {s : State} (h : (memories s).Wf) (mod abut sid) : OutWf (execSxchPair mod abut sid s) := by
  simp only [execSxchPair]
  repeat' split
  all_goals simp [h]

@[simp] theorem memories_adjSaved (s : State) (m a x f) : memories (adjSaved s m a x f) = memories s := by simp [adjSaved]

theorem wf_execSxchWindowGrant {s : State} (h : (memories s).Wf) (mod abut sid) : OutWf (execSxchWindowGrant mod abut sid s) := by
  simp only [execSxchWindowGrant]
  repeat' split
  all_goals simp [h]

@[simp] theorem memories_execWord (s : State) (f) : memories (execWord s f) = memories s := by
  simp only [execWord]
  repeat' split
  all_goals simp

theorem wf_execExchangeFlitArrival {s : State} (h : (memories s).Wf) (f) : OutWf (execExchangeFlitArrival f s) := by
  simp only [execExchangeFlitArrival]
  repeat' split
  all_goals simp [h]

end Sys2Proof.Machine
end

section
/-!
Messages that a strand sends.
-/

namespace Sys2Proof.Machine

@[simp] theorem memories_nextSeq (s : State) : memories (nextSeq s) = memories s := by simp [nextSeq]

theorem leaves_sendChecked {P : Memories → Prop} {k : Trig} (h : k.Leaves P) (s addressed a t) :
    (sendChecked s addressed a t k).Leaves P := by
  unfold sendChecked
  split
  · trivial
  · split
    · trivial
    · exact h

@[simp] theorem memories_sendTo (s : State) (kind t a) : memories (sendTo s kind t a) = memories s := by simp [sendTo]

theorem wf_execSend {s : State} (h : (memories s).Wf) (m) : OutWf (execSend m s) :=
  wf_runTrigger h _ _ _ fun _ _ _ _ hs => leaves_sendChecked (by simp [hs]) ..

theorem wf_execReply {s : State} (h : (memories s).Wf) (m) : OutWf (execReply m s) :=
  wf_runTrigger h _ _ _ fun _ _ _ _ hs => leaves_sendChecked (by simp [hs]) ..

@[simp] theorem memories_sendRedDo (s : State) (t a) : memories (sendRedDo s t a) = memories s := by simp [sendRedDo]

theorem wf_execSendRed {s : State} (h : (memories s).Wf) (m) : OutWf (execSendRed m s) :=
  wf_runTrigger h _ _ _ fun _ _ _ _ hs => leaves_sendChecked (by simp [hs]) ..

@[simp] theorem memories_fwdDo (s : State) (t a) : memories (fwdDo s t a) = memories s := by simp [fwdDo]

theorem wf_execFwd {s : State} (h : (memories s).Wf) (m) : OutWf (execFwd m s) :=
  wf_runTrigger h _ _ _ fun _ _ _ _ hs => leaves_sendChecked (by simp [hs]) ..

@[simp] theorem memories_mcastDo (s : State) (t a) : memories (mcastDo s t a) = memories s := by simp [mcastDo]

theorem wf_execMstat {s : State} (h : (memories s).Wf) (m) : OutWf (execMstat m s) := by
  refine wf_runTrigger h _ _ _ fun s t a b hs => ?_
  simp only
  split
  · split
    · trivial
    · simpa using hs
  · split
    · trivial
    · simpa using hs

end Sys2Proof.Machine
end

section
/-!
Control words, the creation of actors, and their end.
-/

namespace Sys2Proof.Machine

@[simp] theorem memories_cwActor (s : State) (f) : memories (cwActor s f) = memories s := by simp [cwActor]

@[simp] theorem memories_cwWrite (s : State) (n v) : memories (cwWrite s n v) = memories s := by
  simp only [cwWrite]
  repeat' split
  all_goals simp

theorem wf_execCrd {s : State} (h : (memories s).Wf) (m) : OutWf (execCrd m s) := by
  refine wf_runTrigger h _ _ _ fun s t a b hs => ?_
  simp only
  split
  · trivial
  · simpa using hs

@[simp] theorem memories_runCwr (s : State) (m) : memories (runCwr s m) = memories s := by
  refine memories_runTrigger _ _ _ _ _ fun s t a _ => ?_
  simp only
  split
  · trivial
  · split <;> simp

@[simp] theorem memories_runCwrOf (s : State) (m words) : memories (runCwrOf s m words) = memories s := by
  unfold runCwrOf
  split <;> simp

@[simp] theorem spad_putHandlers (p : Pier) (a l) : (putHandlers p a l).spad = p.spad := by simp [putHandlers]

theorem memories_createActor (s : State) (pk lp w) : memories (createActor s pk lp w).2 = memories s := by
  simp only [createActor]
  split
  · rfl
  · split
    · rfl
    · split
      · rfl
      · exact memories_setPier _ _ _ (by simp [getPier_spad])

theorem wf_execAcrt {s : State} (h : (memories s).Wf) (m) : OutWf (execAcrt m s) := by
  refine wf_runTrigger h _ _ _ fun s t a b hs => ?_
  simp only
  generalize (if bits (lgetD (spadWords s s.issue.pk (vsc t).toNat 8) 7 0) 0 6 ≤ 32 then _ else _) = n
  split
  · trivial
  · split
    · trivial
    · split
      · trivial
      · split
        · trivial
        · simpa using hs

end Sys2Proof.Machine
end

section
/-!
Admission, dispatch and the end of runs; answers to outbox entries.
-/

namespace Sys2Proof.Machine

@[simp] theorem wf_spillPut {s : State} (h : (memories s).Wf) (pk d g admitted) : (memories (spillPut s pk d g admitted)).Wf := by
  simp [spillPut, h]

@[simp] theorem wf_admitOne {s : State} (h : (memories s).Wf) (pk g device) : (memories (admitOne s pk g device).1).Wf := by
  simp only [admitOne]
  split
  · exact h
  · split
    · exact h
    · split
      · exact h
      · split
        · exact h
        · exact h
        · rw [memories_setPier _ _ _ (by simp [putSlot, getPier_spad])]
          exact h
        · split
          · exact wf_spillPut h ..
          · exact h

theorem wf_execMessageAdmission {s : State} (h : (memories s).Wf) (g frm) : OutWf (execMessageAdmission g frm s) := by
  simp only [execMessageAdmission]
  repeat' split
  all_goals simp [h]

@[simp] theorem memories_drainSpill (s : State) (pk a n) : memories (drainSpill s pk a n) = memories s := by
  induction n generalizing s with
  | zero => rfl
  | succ n ih =>
    simp only [drainSpill]
    split
    · rw [ih, memories_schedule, memories_setPier _ _ _ (by simp [getPier_spad])]
      simp
    · rfl

@[simp] theorem memories_bindService (s : State) (pk st x) : memories (bindService s pk st x) = memories s := by
  simp only [bindService, memories_schedule, memories_tick1]
  exact memories_setPier _ _ _ rfl

@[simp] theorem memories_noHandler (s : State) (pk g) : memories (noHandler s pk g) = memories s := by simp [noHandler]

@[simp] theorem memories_bindRun (s : State) (pk st a x) : memories (bindRun s pk st a x) = memories s := by
  simp only [bindRun]
  split
  · rw [memories_noHandler]
    exact memories_setPier _ _ _ rfl
  · exact memories_setPier _ _ _ rfl

@[simp] theorem wf_traceRecord {s : State} (h : (memories s).Wf) (pk g) : (memories (traceRecord s pk g)).Wf := by simp [traceRecord, h]
@[simp] theorem memories_traceTry (s : State) (pk) : memories (traceTry s pk) = memories s := by simp [traceTry]

@[simp] theorem wf_dispatchJob {s : State} (h : (memories s).Wf) (pk st lvl a x replay) :
    (memories (dispatchJob s pk st lvl a x replay)).Wf := by simp [dispatchJob, h]

theorem wf_execDispatch {s : State} (h : (memories s).Wf) (pk) : OutWf (execDispatch pk s) := by
  simp only [execDispatch]
  repeat' split
  all_goals simp [h]

@[simp] theorem spad_retireClear (p : Pier) (a) : (retireClear p a).spad = p.spad := by simp [retireClear]
@[simp] theorem memories_endRun (s : State) (pk st) : memories (endRun s pk st) = memories s := by simp [endRun]

theorem wf_execResultPortWrite {s : State} (h : (memories s).Wf) (pk st unit tok) : OutWf (execResultPortWrite pk st unit tok s) := by
  simp only [execResultPortWrite]
  split
  · split
    · rw [outWf_go, memories_createActor]
      simpa using h
    · split <;> simpa using h
  · split
    · simpa using h
    · rw [outWf_go, memories_adjStrand, memories_createActor]
      exact h

@[simp] theorem memories_freeEntryOf (s : State) (pk tok) : memories (freeEntryOf s pk tok) = memories s := by simp [freeEntryOf]
@[simp] theorem memories_retryEntry (s : State) (pk tok) : memories (retryEntry s pk tok) = memories s := by simp [retryEntry]

@[simp] theorem memories_entryRecord (s : State) (pk e code w3) : memories (entryRecord s pk e code w3) = memories s := by
  simp [entryRecord]

@[simp] theorem memories_redirectRecord (s : State) (pk e g) : memories (redirectRecord s pk e g) = memories s := by simp [redirectRecord]

@[simp] theorem memories_noSuchActor (s : State) (pk e) : memories (noSuchActor s pk e) = memories s := by
  unfold noSuchActor
  split <;> simp

@[simp] theorem memories_misusedEntry (s : State) (pk e) : memories (misusedEntry s pk e) = memories s := by
  unfold misusedEntry
  split <;> simp

@[simp] theorem memories_entryAnswered (s : State) (pk0 tok status) : memories (entryAnswered s pk0 tok status) = memories s := by
  simp only [entryAnswered]
  repeat' split
  all_goals simp

@[simp] theorem memories_pumpInject (s : State) (m) (l done : List InjEntry) : memories (pumpInject s m done l) = memories s := by
  induction l generalizing s done with
  | nil => rfl
  | cons e l ih =>
    simp only [pumpInject]
    split <;> simp [ih]

@[simp] theorem memories_pumpHost (s : State) (m) : memories (pumpHost s m) = memories s := by simp [pumpHost]

@[simp] theorem memories_injectAnswered (s : State) (m tok status) : memories (injectAnswered s m tok status) = memories s := by
  simp only [injectAnswered]
  repeat' split
  all_goals simp

@[simp] theorem memories_putCopy (s : State) (m d) : memories (putCopy s m d) = memories s := by simp [putCopy]

@[simp] theorem memories_branchNext (s : State) (m g i) : memories (branchNext s m g i) = memories s := by
  unfold branchNext
  split <;> simp

@[simp] theorem memories_copyDone (s : State) (m c idx) : memories (copyDone s m c idx) = memories s := by simp [copyDone]

@[simp] theorem memories_copyAnswered (s : State) (m tok idx status) : memories (copyAnswered s m tok idx status) = memories s := by
  simp only [copyAnswered]
  repeat' split
  all_goals simp

theorem wf_execAcknowledgement {s : State} (h : (memories s).Wf) (e status) : OutWf (execAcknowledgement e status s) := by
  unfold execAcknowledgement
  split <;> simp [h]

theorem wf_execOutboxResend {s : State} (h : (memories s).Wf) (e) : OutWf (execOutboxResend e s) := by
  unfold execOutboxResend
  split <;> simp [h]

end Sys2Proof.Machine
end

section
/-!
Multicast copies and rounds of reductions.
-/

namespace Sys2Proof.Machine

@[simp] theorem wf_spillOnly {s : State} (h : (memories s).Wf) (pk g) : (memories (spillOnly s pk g).1).Wf := by
  simp only [spillOnly]
  repeat' split
  all_goals simp [h]

@[simp] theorem memories_copySent (s : State) (m tok idx) : memories (copySent s m tok idx) = memories s := by simp [copySent]

theorem wf_execMulticastCopy {s : State} (h : (memories s).Wf) (mod tok idx) : OutWf (execMulticastCopy mod tok idx s) := by
  simp only [execMulticastCopy]
  repeat' split
  all_goals simp [h]

@[simp] theorem memories_detachCopies (s : State) (m i) (l : List MCopy) : memories (detachCopies s m i l) = memories s := by
  induction l generalizing s with
  | nil => rfl
  | cons c l ih => simp [detachCopies, ih]

theorem wf_execLaggardDetach {s : State} (h : (memories s).Wf) (mod tok idx) : OutWf (execLaggardDetach mod tok idx s) := by
  unfold execLaggardDetach
  split <;> simp [h]

@[simp] theorem memories_setRound (s : State) (m g x) : memories (setRound s m g x) = memories s := by simp [setRound]

@[simp] theorem memories_sendResult (s : State) (hdr r n) : memories (sendResult s hdr r n) = memories s := by
  simp only [sendResult]
  repeat' split
  all_goals simp

@[simp] theorem memories_closeRound (s : State) (hdr m g n k) : memories (closeRound s hdr m g n k) = memories s := by
  induction k generalizing s with
  | zero => rfl
  | succ k ih => simp only [closeRound]; split <;> simp [ih]

@[simp] theorem memories_mergeAt (s : State) (hdr rm g i n) : memories (mergeAt s hdr rm g i n) = memories s := by simp [mergeAt]
@[simp] theorem memories_towardRoot (s : State) (g gid i) : memories (towardRoot s g gid i) = memories s := by simp [towardRoot]

@[simp] theorem memories_contribute (s : State) (g frm gid) : memories (contribute s g frm gid) = memories s := by
  simp only [contribute]
  repeat' split
  all_goals simp

theorem wf_execReductionContribution {s : State} (h : (memories s).Wf) (g frm) : OutWf (execReductionContribution g frm s) := by
  simp only [execReductionContribution]
  repeat' split
  all_goals simp [h]

end Sys2Proof.Machine
end

section
/-!
Graphs, cancels, phases and holds.
-/

namespace Sys2Proof.Machine

theorem wf_execGdoneForward {s : State} (h : (memories s).Wf) (mod pk graph add frm) : OutWf (execGdoneForward mod pk graph add frm s) := by
  unfold execGdoneForward
  split <;> simp [h]

@[simp] theorem memories_discardCopies (s : State) (pk c) : memories (discardCopies s pk c) = memories s := by
  refine memories_foldl _ (fun s d => memories_foldl _ (fun s i => ?_) _ _) _ _
  split <;> simp

@[simp] theorem memories_discardOf (s : State) (pk c f) : memories (discardOf s pk c f) = memories s := by simp [discardOf]
@[simp] theorem memories_cancelDiscard (s : State) (pk c) : memories (cancelDiscard s pk c) = memories s := by simp [cancelDiscard]

theorem memories_endStream {s : State} {m a pk actor tag} {t : State} (h : endStream s m a pk actor tag = some t) :
    memories t = memories s := by
  unfold endStream at h
  split at h
  · rw [← Option.some.inj h]; simp
  · exact memories_unqueue h

@[simp] theorem memories_endSaved (s : State) (pk a) : memories (endSaved s pk a) = memories s := by simp [endSaved]

@[simp] theorem memories_cancelStreams (s : State) (pk a) : memories (cancelStreams s pk a) = memories s := by
  rw [cancelStreams, memories_endSaved]
  refine memories_foldl _ (fun s x => ?_) _ _
  cases h : endStream s (pkMod pk) x.1 pk a x.2 with
  | none => rfl
  | some t => exact memories_endStream h

@[simp] theorem memories_dropRun (s : State) (pk st) : memories (dropRun s pk st) = memories s := by simp [dropRun]
@[simp] theorem memories_cancelRuns (s : State) (pk c a) : memories (cancelRuns s pk c a) = memories s := by simp [cancelRuns]
@[simp] theorem memories_cancelActor (s : State) (pk c a) : memories (cancelActor s pk c a) = memories s := by simp [cancelActor]
@[simp] theorem memories_cancelNotice (s : State) (pk c a) : memories (cancelNotice s pk c a) = memories s := by simp [cancelNotice]
@[simp] theorem memories_owedCancel (s : State) (pk a c) : memories (owedCancel s pk a c) = memories s := by simp [owedCancel]
@[simp] theorem memories_owedCancels (s : State) (pk a) : memories (owedCancels s pk a) = memories s := by simp [owedCancels]

@[simp] theorem wf_markLevel {s : State} (h : (memories s).Wf) (c) : (memories (markLevel s c)).Wf := by
  unfold markLevel
  split <;> simp [h]

@[simp] theorem wf_startCancel {s : State} (h : (memories s).Wf) (m c) : (memories (startCancel s m c)).Wf := by simp [startCancel, h]

@[simp] theorem memories_cancelAcked (s : State) (pk c m) : memories (cancelAcked s pk c m) = memories s := by
  unfold cancelAcked
  split <;> simp

theorem wf_execFlushMarker {s : State} (h : (memories s).Wf) (mod tok) : OutWf (execFlushMarker mod tok s) := by
  unfold execFlushMarker
  split <;> simp [h]

@[simp] theorem memories_cancelNotices (s : State) (pk c) : memories (cancelNotices s pk c) = memories s := by simp [cancelNotices]

@[simp] theorem memories_cancelFire (s : State) (c) : memories (cancelFire s c) = memories s := by
  unfold cancelFire
  split <;> simp

theorem wf_execCancelEnd {s : State} (h : (memories s).Wf) (mod) : OutWf (execCancelEnd mod s) := by
  simp only [execCancelEnd]
  repeat' split
  all_goals simp [h]

@[simp] theorem memories_serviceReply (s : State) (pk g result p1) : memories (serviceReply s pk g result p1) = memories s := by
  simp [serviceReply]

theorem wf_execPhaseOpen {s : State} (h : (memories s).Wf) (mod job phase) : OutWf (execPhaseOpen mod job phase s) := by
  simp only [execPhaseOpen]
  repeat' split
  all_goals simp [h]

theorem wf_execHoldBroadcast {s : State} (h : (memories s).Wf) (mod job on) : OutWf (execHoldBroadcast mod job on s) := by
  simp only [execHoldBroadcast]
  repeat' split
  all_goals simp [h]

end Sys2Proof.Machine
end

section
/-!
The job loader.
-/

namespace Sys2Proof.Machine

@[simp] theorem memories_imageCode (s : State) (img f) : memories (imageCode s img f) = memories s := by
  refine memories_foldl _ (fun s c => ?_) _ _
  split <;> simp

@[simp] theorem wf_imageSpad {s : State} (h : (memories s).Wf) (img f) : (memories (imageSpad s img f)).Wf := by
  refine wf_foldl (fun s c hs => ?_) _ h
  split
  · exact wf_adjPier hs _ _ fun _ hp => memory_wf_mwriteList _ _ _ hp
  · exact hs

@[simp] theorem wf_loadWeights {s : State} (h : (memories s).Wf) (pk k off l) : (memories (loadWeights s pk k off l)).Wf := by
  induction k generalizing s off l with
  | zero => exact h
  | succ k ih =>
    simp only [loadWeights]
    split
    · exact h
    · exact ih (wf_weightWrite h ..) _ _

@[simp] theorem wf_imageWst {s : State} (h : (memories s).Wf) (img f) : (memories (imageWst s img f)).Wf := by
  refine wf_foldl (fun s c hs => ?_) _ h
  split
  · exact wf_loadWeights hs ..
  · exact hs

@[simp] theorem wf_imageHbm {s : State} (h : (memories s).Wf) (m img) : (memories (imageHbm s m img)).Wf := by
  refine wf_foldl (fun s c hs => ?_) _ h
  simp [hs]

@[simp] theorem memories_imageActors (s : State) (img f) : memories (imageActors s img f) = memories s := by
  refine memories_foldl _ (fun s a => ?_) _ _
  split <;> simp

@[simp] theorem memories_loadSluice (s : State) (pk n action count target) :
    memories (loadSluice s pk n action count target) = memories s := by
  have ha := leaves_sarmAt s pk n action
  simp only [loadSluice, memories_ssetAt]
  split
  · simp
  · split
    · rename_i t ht
      rw [ht] at ha
      exact ha
    · rfl

@[simp] theorem memories_imageSluices (s : State) (img f) : memories (imageSluices s img f) = memories s := by
  refine memories_foldl _ (fun s l => ?_) _ _
  split <;> simp

@[simp] theorem wf_loadCompletion {s : State} (h : (memories s).Wf) (img m lp n target link) :
    (memories (loadCompletion s img m lp n target link)).Wf := by
  unfold loadCompletion
  split <;> simp [h]

@[simp] theorem wf_imageCompletions {s : State} (h : (memories s).Wf) (img) : (memories (imageCompletions s img)).Wf :=
  wf_loadCompletion (wf_foldl (fun _ _ hs => wf_loadCompletion hs ..) _ (wf_foldl (fun _ _ hs => wf_loadCompletion hs ..) _ h)) ..

@[simp] theorem spad_loadReset (p : Pier) : (loadReset p).spad = p.spad := by simp [loadReset]

@[simp] theorem wf_loadImage {s : State} (h : (memories s).Wf) (m img) : (memories (loadImage s m img)).Wf := by
  simp only [loadImage, memories_imageSluices]
  refine wf_imageCompletions ?_ _
  rw [memories_imageActors]
  refine wf_imageHbm (wf_imageWst (wf_imageSpad ?_ ..) ..) ..
  simpa using h

@[simp] theorem memories_loadFrameDone (s : State) (m img) : memories (loadFrameDone s m img) = memories s := by simp [loadFrameDone]

theorem wf_execJobLoaderRun {s : State} (h : (memories s).Wf) (mod job) : OutWf (execJobLoaderRun mod job s) := by
  simp only [execJobLoaderRun]
  repeat' split
  all_goals simp [h]

@[simp] theorem wf_reloadPier {s : State} (h : (memories s).Wf) (pk) : (memories (reloadPier s pk)).Wf := by
  simp only [reloadPier, memories_imageSluices, memories_imageActors]
  refine wf_imageSpad ?_ ..
  rw [memories_imageCode]
  exact wf_setPier h _ _ memory_wf_nil

end Sys2Proof.Machine
end

section
/-!
Save areas: images written and read back.
-/

namespace Sys2Proof.Machine

@[simp] theorem wf_putRows {s : State} (h : (memories s).Wf) (m l) (rs : List (Nat × Bool)) : (memories (putRows s m l rs)).Wf := by
  induction rs generalizing s l with
  | nil => exact h
  | cons r rs ih => exact ih (wf_hbmWrite h ..) _

@[simp] theorem spad_regDecode (s : State) (pk l p) : (regDecode s pk l p).spad = p.spad := by
  simp only [regDecode]

theorem wf_spadBack {p : Pier} (hp : Memory.wf p.spad = true) (s : State) (m l) : Memory.wf (spadBack s m l p).spad = true := by
  refine List.foldlRecOn (motive := fun q : Pier => Memory.wf q.spad = true) _ _ hp fun q hq i _ => ?_
  simp only
  split <;> exact memory_wf_mwrite _ _ _ _ hq

@[simp] theorem spad_codeBack (s : State) (m l p) : (codeBack s m l p).spad = p.spad :=
  List.foldlRecOn (motive := fun q : Pier => q.spad = p.spad) _ _ rfl fun _ hq _ _ => hq

@[simp] theorem spad_framesFrom (s : State) (pk f p) : (framesFrom s pk f p).spad = p.spad := by simp [framesFrom]

@[simp] theorem spad_framesBack (s : State) (pk m l p) : (framesBack s pk m l p).spad = p.spad :=
  spad_framesFrom ..

@[simp] theorem spad_inboxBack (s : State) (pk l p) : (inboxBack s pk l p).spad = p.spad := rfl

@[simp] theorem wf_writeRecord {s : State} (h : (memories s).Wf) (m part hs) : (memories (writeRecord s m part hs)).Wf := by
  simp [writeRecord, h]

@[simp] theorem wf_saveImages {s : State} (h : (memories s).Wf) (m part hs) : (memories (saveImages s m part hs)).Wf :=
  wf_writeRecord (wf_foldl (fun _ _ ht => wf_putRows ht ..) _ h) ..

@[simp] theorem memories_areaTouch (s : State) (m l rows) : memories (areaTouch s m l rows) = memories s := by simp [areaTouch]

@[simp] theorem wf_imageBack {s : State} (h : (memories s).Wf) (pk m l) : (memories (imageBack s pk m l)).Wf := by
  rw [imageBack]
  refine wf_setPier (by simpa using h) _ _ ?_
  rw [spad_framesBack, spad_inboxBack, spad_codeBack]
  exact wf_spadBack (wf_spad h pk) s m l

@[simp] theorem wf_loadImages {s : State} (h : (memories s).Wf) (m part hs) : (memories (loadImages s m part hs)).Wf :=
  wf_foldl (fun _ _ ht => wf_imageBack ht ..) _ h

@[simp] theorem wf_saveStreams {s : State} (h : (memories s).Wf) (m part a) : (memories (saveStreams s m part a)).Wf :=
  wf_foldl (fun _ _ ht => wf_putRows ht ..) _ (wf_foldl (fun _ _ ht => wf_putRows ht ..) _ h)

@[simp] theorem memories_loadTouch (s : State) (m part a) : memories (loadTouch s m part a) = memories s := by simp [loadTouch]

@[simp] theorem wf_parkFrame {s : State} (h : (memories s).Wf) (m part hs pk st) : (memories (parkFrame s m part hs pk st)).Wf := by
  simp [parkFrame, h]

@[simp] theorem wf_parkFrames {s : State} (h : (memories s).Wf) (m part hs pk first) : (memories (parkFrames s m part hs pk first)).Wf :=
  wf_foldl (fun _ _ ht => wf_parkFrame (by simpa using ht) ..) _ h

end Sys2Proof.Machine
end

section
/-!
Halts, fences, shadow swaps, evictions and the streams that come back.
-/

namespace Sys2Proof.Machine

@[simp] theorem memories_lostRecord (s : State) (pk x) : memories (lostRecord s pk x) = memories s := by simp [lostRecord]
@[simp] theorem memories_restartOne (s : State) (pk x) : memories (restartOne s pk x) = memories s := by simp [restartOne]
@[simp] theorem memories_restartAll (s : State) (pk) : memories (restartAll s pk) = memories s := by simp [restartAll]
@[simp] theorem memories_resumePier (s : State) (pk) : memories (resumePier s pk) = memories s := by simp [resumePier]
@[simp] theorem memories_clearTiles (s : State) (k) : memories (clearTiles s k) = memories s := by simp [clearTiles]
@[simp] theorem memories_setLoc (s : State) (m part hs l) : memories (setLoc s m part hs l) = memories s := by simp [setLoc]

@[simp] theorem memories_becomeResident (s : State) (m part hs) : memories (becomeResident s m part hs) = memories s := by
  simp [becomeResident]

@[simp] theorem memories_startHalt (s : State) (m parts next) : memories (startHalt s m parts next) = memories s := by simp [startHalt]
@[simp] theorem memories_abandonWalks (s : State) (pk) : memories (abandonWalks s pk) = memories s := by simp [abandonWalks]

theorem wf_execHaltAtAbutment {s : State} (h : (memories s).Wf) (mod part abut) : OutWf (execHaltAtAbutment mod part abut s) := by
  simp only [execHaltAtAbutment]
  split
  · exact h
  · split
    · rw [outWf_go, memories_launch]
      refine wf_saveStreams ?_ ..
      rw [memories_adjAbut, memories_mk]
      simpa using h
    · simpa using h

@[simp] theorem memories_overrunEvent (s : State) (m part who) : memories (overrunEvent s m part who) = memories s := by simp [overrunEvent]
@[simp] theorem memories_spareEvent (s : State) (m kind unit) : memories (spareEvent s m kind unit) = memories s := by simp [spareEvent]

@[simp] theorem wf_moveRow {s : State} (h : (memories s).Wf) (m span row) : (memories (moveRow s m span row)).Wf := by
  simp only [moveRow, memories_spareEvent]
  exact wf_filterSites (by simpa using h) fun k => !(k / 1024 == m && k % 1024 / 16 == span * 16 + row)

@[simp] theorem wf_applyRow {s : State} (h : (memories s).Wf) (m span row) : (memories (applyRow s m span row)).Wf := by
  simp only [applyRow]
  split
  · exact wf_foldl (fun _ _ hs => wf_reloadPier hs _) _ (wf_moveRow h ..)
  · simpa using h

@[simp] theorem memories_applyAbut (s : State) (m a) : memories (applyAbut s m a) = memories s := by simp [applyAbut]
@[simp] theorem memories_applyChannel (s : State) (m stack pc) : memories (applyChannel s m stack pc) = memories s := by simp [applyChannel]

@[simp] theorem memories_haltUndo (s : State) (m parts) : memories (haltUndo s m parts) = memories s := by
  refine memories_foldl _ (fun s x => memories_foldl _ (fun s hs => ?_) _ _) _ _
  split <;> simp

@[simp] theorem wf_haltDone {s : State} (hw : (memories s).Wf) (m h) : (memories (haltDone s m h)).Wf := by
  unfold haltDone
  split <;> simp [hw]

@[simp] theorem wf_settleHalts {s : State} (h : (memories s).Wf) (m) : (memories (settleHalts s m)).Wf :=
  wf_foldl (fun _ _ hs => wf_haltDone hs ..) _ (by simpa using h)

@[simp] theorem wf_haltAcked {s : State} (h : (memories s).Wf) (m x) : (memories (haltAcked s m x)).Wf := by simp [haltAcked, h]
@[simp] theorem memories_fencePier (s : State) (pk) : memories (fencePier s pk) = memories s := by simp [fencePier]

@[simp] theorem memories_switchEnds (s : State) (m hs) : memories (switchEnds s m hs) = memories s := by
  simp only [switchEnds]
  repeat' split
  all_goals simp

theorem wf_execShadowSwap {s : State} (h : (memories s).Wf) (mod hs part) : OutWf (execShadowSwap mod hs part s) := by
  simp only [execShadowSwap]
  repeat' split
  all_goals simp [h]

@[simp] theorem memories_renumber (s : State) (m a t sid) : memories (renumber s m a t sid) = memories s := by
  simp only [renumber]
  repeat' split
  all_goals simp

@[simp] theorem memories_resendAllOf (s : State) (m a t) : memories (resendAllOf s m a t) = memories s := by simp [resendAllOf]

theorem memories_loadStream {s s' : State} {m a t} (h : loadStream s m a t = some s') : memories s' = memories s := by
  simp only [loadStream] at h
  split at h
  · simp at h
  · split at h
    · simp at h
    · rw [← Option.some.inj h]
      repeat' split
      all_goals simp

@[simp] theorem memories_loadStreams (s : State) (m a) (l : List (Nat × Stream)) : memories (loadStreams s m a l) = memories s := by
  induction l generalizing s with
  | nil => rfl
  | cons x l ih =>
    simp only [loadStreams]
    split
    · rename_i hs
      rw [ih, memories_loadStream hs]
    · simp [ih]

theorem wf_execPartitionEvict {s : State} (h : (memories s).Wf) (mod part hs) : OutWf (execPartitionEvict mod part hs s) := by
  simp only [execPartitionEvict]
  split
  · split
    · simpa using wf_dlogMergeAll h _
    · simpa using wf_saveImages (wf_dlogMergeAll h _) ..
  · exact h

end Sys2Proof.Machine
end

section
/-!
Merged images of a restore under another table, restores, parked runs and gang slices.
-/

namespace Sys2Proof.Machine

theorem wf_foldSrc {f : Fold} (h : (memories f.s).Wf) (lp) : Memory.wf (foldSrc f lp).spad = true := by
  simp only [foldSrc]
  split
  · exact wf_spad h _
  · rfl

theorem memory_wf_mergeRanges {b src : FMap Byte} (hb : Memory.wf b = true) (hs : Memory.wf src = true) (l) :
    Memory.wf (mergeRanges b src l) = true :=
  List.foldlRecOn (motive := fun b => Memory.wf b = true) _ _ hb fun b hb e he =>
    memory_wf_fset b e.1 e.2 hb (memory_ne_zero hs (List.mem_filter.mp he).1)

@[simp] theorem wf_foldSpill {s : State} (h : (memories s).Wf) (pk l) : (memories (foldSpill s pk l)).Wf := by
  rw [foldSpill, memories_foldl _ fun _ _ => by simp]
  exact wf_foldl (fun _ _ hs => wf_spillPut hs ..) _ h

theorem wf_foldPier {f : Fold} (h : (memories f.s).Wf) (c) : Memory.wf (foldPier f c).spad = true := by
  have hputs (l : List (Nat × Word)) (p : Pier) : (l.foldl (fun p h => putHandlers p h.1 [h.2]) p).spad = p.spad :=
    List.foldlRecOn (motive := fun q : Pier => q.spad = p.spad) _ _ rfl fun q hq h _ => by simpa using hq
  simp only [foldPier, hputs]
  exact List.foldlRecOn (motive := fun m => Memory.wf m = true) _ _ (memory_wf_mergeRanges memory_wf_nil (wf_foldSrc h _) _)
    fun m hm lp _ => memory_wf_mergeRanges hm (wf_foldSrc h _) _

@[simp] theorem wf_parkAll {s : State} (h : (memories s).Wf) (f) : (memories (parkAll f s)).Wf := by
  refine wf_foldl (fun s hs ht => ?_) _ h
  exact List.foldlRecOn (motive := fun x : State × Nat => (memories x.1).Wf) _ _ ht fun x hx c _ => wf_parkFrames hx ..

theorem wf_refold {f : Fold} (h : (memories f.s).Wf) : (memories (refold f)).Wf := by
  have h0 := wf_foldl (f := fun s c => setPier s (pkOf f.m f.part c) (foldPier f c))
    (fun _ c hs => wf_setPier hs _ _ (wf_foldPier h c)) (carriersOf f.new) h
  have h1 := wf_foldl (f := fun s c => foldSpill s (pkOf f.m f.part c) (foldExtra (foldInbox f (groupOf f.new c))))
    (fun _ _ hs => wf_foldSpill hs ..) (carriersOf f.new) h0
  have h2 := wf_parkAll (s := adjPart _ f.m f.part fun p => { p with savedTable := f.new }) (by simpa using h1) f
  exact wf_foldl (fun _ _ hs => wf_saveImages hs ..) _ (wf_foldl (fun _ _ hs => wf_saveStreams hs ..) _ (by simpa using h2))

@[simp] theorem memories_restoreTo (s : State) (m part hs) : memories (restoreTo s m part hs) = memories s := by simp [restoreTo]

theorem wf_execPartitionRestore {s : State} (h : (memories s).Wf) (mod part hs) : OutWf (execPartitionRestore mod part hs s) := by
  simp only [execPartitionRestore]
  split
  · exact h
  · split
    · simpa using h
    · split
      · simpa using wf_loadImages h ..
      · split
        · exact h
        · have hl := wf_foldl (f := fun s h => loadImages s mod part h) (fun _ _ ht => wf_loadImages ht ..) (List.range 8) h
          split
          · simpa using h
          · rw [outWf_go, memories_switchEnds, memories_restoreTo]
            refine wf_refold ?_
            simpa only using hl

@[simp] theorem wf_placeParked {s : State} (h : (memories s).Wf) (pk st old) : (memories (placeParked s pk st old)).Wf := by
  simp only [placeParked]
  have hw (y : Strand) (l n m hs) : (memories (writeRecord (setPier (areaTouch s (pkMod pk) l 128) pk
      { getPier s pk with strands := fset (fdel (getPier s pk).strands old) st y }) n m hs)).Wf := by
    refine wf_writeRecord ?_ ..
    rw [memories_setPier _ _ _ (by simp [getPier_spad])]
    simpa using h
  repeat' split
  all_goals simp [hw]

theorem wf_execParkedRunRestore {s : State} (h : (memories s).Wf) (pk) : OutWf (execParkedRunRestore pk s) := by
  simp only [execParkedRunRestore]
  repeat' split
  all_goals simp [h]

@[simp] theorem memories_sliceOne (s : State) (m part hs) : memories (sliceOne s m part hs) = memories s := by
  unfold sliceOne
  split <;> simp

@[simp] theorem memories_startSlice (s : State) (m slice) : memories (startSlice s m slice) = memories s := by simp [startSlice]

@[simp] theorem memories_startSlices (n) (s : State) (m) : memories (startSlices n s m) = memories s := by
  induction n generalizing s with
  | zero => rfl
  | succ n ih =>
    simp only [startSlices]
    split <;> simp [ih]

end Sys2Proof.Machine
end

section
/-!
The work of the service actor.
-/

namespace Sys2Proof.Machine

@[simp] theorem memories_serviceEnd (s : State) (pk st) : memories (serviceEnd s pk st) = memories s := by simp [serviceEnd]

theorem wf_asService {s : State} (h : (memories s).Wf) (pk g i) {f : State → Nat → State × Bool}
    (hf : ∀ s k, (memories s).Wf → (memories (f s k).1).Wf) : (memories (asService s pk g i f)).Wf := by
  simp only [asService]
  split
  · exact h
  · split
    · simpa using h
    · split
      · simpa using hf _ _ h
      · exact hf _ _ h

theorem wf_asMemory {s : State} (h : (memories s).Wf) (k g i va need n) {f : State × Bool} (hf : (memories f.1).Wf) :
    (memories (asMemory s k g i va need n f).1).Wf := by
  simp only [asMemory]
  split
  · split
    · simpa using h
    · exact hf
  · exact hf

theorem wf_asCommand {s : State} (h : (memories s).Wf) (pk g i who) {f : State → Nat → State × Int}
    (hf : ∀ s k, (memories s).Wf → (memories (f s k).1).Wf) : (memories (asCommand s pk g i who f)).Wf :=
  wf_asService h _ _ _ fun s k hs => by simpa using hf s k hs

theorem wf_execCreateActor {s : State} (h : (memories s).Wf) (pk g) : OutWf (execCreateActor pk g s) := by
  refine wf_asService h _ _ _ fun s k hs => ?_
  simp only
  split
  · simpa using hs
  · split
    · simpa using hs
    · split
      · simpa using hs
      · refine wf_asMemory hs _ _ _ _ _ _ ?_
        split
        · simpa using hs
        · rw [memories_serviceReply, memories_createActor]
          simpa using hs

@[simp] theorem wf_resumeRun {s : State} (h : (memories s).Wf) (k st g) : (memories (resumeRun s k st g)).Wf := by simp [resumeRun, h]

theorem wf_execResume {s : State} (h : (memories s).Wf) (pk g) : OutWf (execResume pk g s) := by
  refine wf_asCommand h _ _ _ _ fun s k hs => ?_
  simp only
  repeat' split
  all_goals simp [hs]

theorem wf_execDrop {s : State} (h : (memories s).Wf) (pk g) : OutWf (execDrop pk g s) := by
  refine wf_asCommand h _ _ _ _ fun s k hs => ?_
  simp only
  repeat' split
  all_goals simp [hs]

@[simp] theorem wf_vaPut {s : State} (h : (memories s).Wf) (k va l bad) : (memories (vaPut s k va l bad)).Wf := by
  refine wf_foldl (fun s i hs => ?_) _ (by simp [h])
  split <;> simp [hs]

@[simp] theorem wf_evictDo {s : State} (h : (memories s).Wf) (k d va) : (memories (evictDo s k d va)).Wf := by
  simp only [evictDo]
  split
  all_goals
    simp only [memories_adjPier, memories_tick1, implies_true]
    refine wf_vaPut (wf_vaPut ?_ ..) ..
    split <;> simp [h]

@[simp] theorem memories_evictFails (s : State) (k d) : memories (evictFails s k d) = memories s := by simp [evictFails]

theorem wf_execEvictActor {s : State} (h : (memories s).Wf) (pk g) : OutWf (execEvictActor pk g s) := by
  refine wf_asService h _ _ _ fun s k hs => ?_
  simp only
  split
  · simpa using hs
  · split
    · simpa using hs
    · split
      · simpa using hs
      · split
        · simpa using hs
        · split
          · split <;> simpa using hs
          · refine wf_asMemory (by simpa using hs) _ _ _ _ _ _ ?_
            split <;> simp [hs]

theorem wf_execEvictWaitTimeout {s : State} (h : (memories s).Wf) (pk g) : OutWf (execEvictWaitTimeout pk g s) := by
  refine wf_asService h _ _ _ fun s k hs => ?_
  simp only
  split <;> simpa using hs

@[simp] theorem wf_restoreDo {s : State} (h : (memories s).Wf) (k d va st) : (memories (restoreDo s k d va st)).Wf := by
  simp only [restoreDo, memories_owedCancels]
  split
  · rw [memories_setStrand]
    exact wf_adjPier h _ _ fun _ hp => memory_wf_mwriteList _ _ _ (by simpa using hp)
  · exact wf_adjPier h _ _ fun _ hp => memory_wf_mwriteList _ _ _ (by simpa using hp)

@[simp] theorem wf_restoreResult {s : State} (h : (memories s).Wf) (k d va) : (memories (restoreResult s k d va).1).Wf := by
  simp only [restoreResult]
  repeat' split
  all_goals simp [h]

theorem wf_execRestoreActor {s : State} (h : (memories s).Wf) (pk g) : OutWf (execRestoreActor pk g s) := by
  refine wf_asService h _ _ _ fun s k hs => ?_
  simp only
  split
  · simpa using hs
  · split
    · simpa using hs
    · split
      · simpa using hs
      · split
        · simpa using hs
        · exact wf_asMemory hs _ _ _ _ _ _ (by simp [hs])

theorem wf_asStream {s : State} (h : (memories s).Wf) (pk g i) {f : State → Nat → State × Int}
    (hf : ∀ s k, (memories s).Wf → (memories (f s k).1).Wf) : (memories (asStream s pk g i f)).Wf := by
  refine wf_asService h _ _ _ fun s k hs => ?_
  split
  · simpa using hs
  · simpa using hf s k hs

theorem wf_execStreamResume {s : State} (h : (memories s).Wf) (pk g) : OutWf (execStreamResume pk g s) := by
  refine wf_asStream h _ _ _ fun s k hs => ?_
  simp only
  repeat' split
  all_goals simp [hs]

theorem wf_execStreamStop {s : State} (h : (memories s).Wf) (pk g) : OutWf (execStreamStop pk g s) := by
  refine wf_asStream h _ _ _ fun s k hs => ?_
  simp only
  split
  · exact hs
  · split
    · rename_i ht
      rw [memories_endStream ht]
      exact hs
    · exact hs

theorem wf_execHarvest {s : State} (h : (memories s).Wf) (pk g) : OutWf (execHarvest pk g s) := by
  refine wf_asService h _ _ _ fun s k hs => ?_
  simp only
  split <;> simpa using hs

@[simp] theorem wf_harvestLogs {s : State} (h : (memories s).Wf) (l) : (memories (harvestLogs s l).1).Wf := by
  induction l generalizing s with
  | nil => exact h
  | cons x l ih => exact ih (wf_dlogMerge h ..)

theorem wf_execHarvestComplete {s : State} (h : (memories s).Wf) (mod span) : OutWf (execHarvestComplete mod span s) := by
  unfold execHarvestComplete
  split <;> simp [h]

theorem wf_execPhaseBegin {s : State} (h : (memories s).Wf) (pk g) : OutWf (execPhaseBegin pk g s) := by
  refine wf_asService h _ _ _ fun s k hs => ?_
  simp only
  repeat' split
  all_goals simpa using hs

theorem wf_execReservedServiceCommand {s : State} (h : (memories s).Wf) (pk g) : OutWf (execReservedServiceCommand pk g s) :=
  wf_asCommand h _ _ _ _ fun _ _ hs => hs

theorem wf_execServiceForwardToHost {s : State} (h : (memories s).Wf) (pk g) : OutWf (execServiceForwardToHost pk g s) :=
  wf_asService h _ _ _ fun _ _ hs => by simpa using hs

theorem wf_execFaultRecordForward {s : State} (h : (memories s).Wf) (pk g) : OutWf (execFaultRecordForward pk g s) := by
  refine wf_asService h _ _ _ fun s k hs => ?_
  simp only
  split <;> simpa using hs

end Sys2Proof.Machine
end

section
/-!
Veiviush: bring-up, errors, spares, debug halts and tables.
-/

namespace Sys2Proof.Machine

theorem wf_execBringUp {s : State} (h : (memories s).Wf) (mod) : OutWf (execBringUp mod s) := by
  have hmod (x : Module) (hx : x.hbm = (getMod s mod).hbm) (m : Nat) : Memory.wf (getMod (setMod s mod x) m).hbm = true :=
    wf_hbm (wf_setMod h mod x (hx ▸ wf_hbm h mod)) m
  have hsite (q : Nat → Bool) (k : Nat) : Memory.wf (fget (s.sites.filter fun e => q e.1) k {}).slice = true :=
    wf_slice (wf_filterSites h q) k
  have hpier (pk : Nat) : Memory.wf (fget (s.piers.filter fun p => pkMod p.1 != mod) pk {}).spad = true :=
    wf_spad (wf_filterPiers h fun k => pkMod k != mod) pk
  refine ⟨hmod _ rfl, hpier, fun k => ?_⟩
  refine fget_append (P := fun x : Site => Memory.wf x.slice = true) _ _ k {} (hsite (fun k => k / 1024 != mod) k) ?_
  rw [fget_map Site.slice (fun e => { slice := e.2.slice, slicePoison := e.2.slicePoison }) fun _ => rfl]
  exact hsite (fun k => k / 1024 == mod) k

@[simp] theorem memories_startReport (s : State) (m nonce) : memories (startReport s m nonce) = memories s := by simp [startReport]

@[simp] theorem memories_throttleEvent (s : State) (m old new) : memories (throttleEvent s m old new) = memories s := by
  simp [throttleEvent]

@[simp] theorem memories_freezeModule (s : State) (m) : memories (freezeModule s m) = memories s := by simp [freezeModule]
@[simp] theorem spad_poisonOutbox (p : Pier) (i) : (poisonOutbox p i).spad = p.spad := by simp [poisonOutbox]
@[simp] theorem spad_poisonImage (p : Pier) (off) : (poisonImage p off).spad = p.spad := by simp [poisonImage]
@[simp] theorem memories_poisonTile (s : State) (k cfg off) : memories (poisonTile s k cfg off) = memories s := by simp [poisonTile]

@[simp] theorem memories_errorEvent (s : State) (m kind unit off lost job) :
    memories (errorEvent s m kind unit off lost job) = memories s := by simp [errorEvent]

theorem wf_execUncorrectableError {s : State} (h : (memories s).Wf) (mod kind unit off) :
    OutWf (execUncorrectableError mod kind unit off s) := by
  simp only [execUncorrectableError]
  repeat' split
  all_goals simp [h]

@[simp] theorem memories_spareRow (s : State) (m span row) : memories (spareRow s m span row) = memories s := by simp [spareRow]
@[simp] theorem memories_spareAbut (s : State) (m a) : memories (spareAbut s m a) = memories s := by simp [spareAbut]
@[simp] theorem memories_spareLane (s : State) (m port lane) : memories (spareLane s m port lane) = memories s := by simp [spareLane]
@[simp] theorem memories_spareChannel (s : State) (m stack pc) : memories (spareChannel s m stack pc) = memories s := by simp [spareChannel]

@[simp] theorem memories_spareDo (s : State) (m kind u) : memories (spareDo s m kind u) = memories s := by
  unfold spareDo
  split <;> simp

@[simp] theorem memories_spareIfLeft (s : State) (m x) : memories (spareIfLeft s m x) = memories s := by simp [spareIfLeft]
@[simp] theorem memories_spareStep (s : State) (m kind u) : memories (spareStep s m kind u) = memories s := by simp [spareStep]

@[simp] theorem memories_spareTurn (s : State) (m) : memories (spareTurn s m) = memories s := by
  unfold spareTurn
  split <;> simp

theorem wf_execDebugHalt {s : State} (h : (memories s).Wf) (mod site) : OutWf (execDebugHalt mod site s) := by
  unfold execDebugHalt
  split <;> simp [h]

@[simp] theorem memories_writeFrames (s : State) (pk frames) : memories (writeFrames s pk frames) = memories s := by
  simp only [writeFrames]
  split
  · rfl
  · exact memories_setPier _ _ _ (by simp [getPier_spad])

theorem wf_execDebugRelease {s : State} (h : (memories s).Wf) (mod site) : OutWf (execDebugRelease mod site s) := by
  unfold execDebugRelease
  split <;> simp [h]

@[simp] theorem memories_setTrace (s : State) (m mode job base) : memories (setTrace s m mode job base) = memories s := by
  unfold setTrace
  split <;> simp

@[simp] theorem memories_placeOn (s : State) (m part out hs) : memories (placeOn s m part out hs) = memories s := by simp [placeOn]

@[simp] theorem wf_newContexts {s : State} (h : (memories s).Wf) (m part) : (memories (newContexts s m part)).Wf :=
  wf_foldl (fun _ _ hs => wf_setPier hs _ _ memory_wf_nil) _ h

@[simp] theorem wf_placeParts {s : State} (h : (memories s).Wf) (m part halfspans) : (memories (placeParts s m part halfspans)).Wf := by
  simp [placeParts, h]

@[simp] theorem wf_replaceTable {s : State} (h : (memories s).Wf) (m part halfspans tbl out) :
    (memories (replaceTable s m part halfspans tbl out)).Wf := by simp [replaceTable, h]

theorem wf_execPlacementTableWrite {s : State} (h : (memories s).Wf) (mod part job halfspans tbl) :
    OutWf (execPlacementTableWrite mod part job halfspans tbl s) := by
  simp only [execPlacementTableWrite]
  split
  · exact h
  · split
    · split
      · exact h
      · exact wf_replaceTable h ..
    · refine wf_placeParts ?_ ..
      rw [memories_adjPart]
      exact wf_filterPiers h fun k => !(pkMod k == mod && pkPart k == part)

end Sys2Proof.Machine
end

section
/-!
The host port.
-/

namespace Sys2Proof.Machine

theorem wf_atPort {s : State} (h : (memories s).Wf) (m f) {act : State → Frame → State}
    (ha : ∀ s f, (memories s).Wf → (memories (act s f)).Wf) : (memories (atPort s m f act)).Wf := by
  simp only [atPort]
  split
  · exact h
  · split
    · simpa using h
    · split
      · exact h
      · exact ha _ _ (by simpa using h)

@[simp] theorem memories_takeAck (s : State) (m ack) : memories (takeAck s m ack) = memories s := by simp [takeAck]
@[simp] theorem memories_resendAll (s : State) (m) : memories (resendAll s m) = memories s := by simp [resendAll]
@[simp] theorem memories_settleAck (s : State) (m again) : memories (settleAck s m again) = memories s := by simp [settleAck]
@[simp] theorem memories_getData (s : State) (m f err data) : memories (getData s m f err data) = memories s := by simp [getData]

@[simp] theorem wf_hostMarks {s : State} (h : (memories s).Wf) (m root need l) : (memories (hostMarks s m root need l)).Wf := by
  refine wf_foldl (fun s va hs => ?_) _ h
  split
  · split <;> simp [hs]
  · exact hs

theorem wf_aperturePut {s : State} (h : (memories s).Wf) (m f) : (aperturePut s m f).All fun t => (memories t).Wf := by
  simp only [aperturePut]
  split
  · trivial
  · trivial
  · exact wf_adjPier h _ _ fun _ hp => memory_wf_mwriteList _ _ _ hp

theorem wf_putAt {s : State} (h : (memories s).Wf) (m f) : (putAt s m f).All fun t => (memories t).Wf := by
  simp only [putAt]
  split
  · trivial
  · split
    · exact wf_aperturePut h m f
    · split
      · trivial
      · trivial
      · trivial
      · simp [HostEnd.All, h]

theorem wf_apertureGet {s : State} (h : (memories s).Wf) (m f n) : (apertureGet s m f n).All fun r => (memories r.1).Wf := by
  simp only [apertureGet]
  split
  · trivial
  · trivial
  · split
    · split
      · trivial
      · exact h
    · exact h

theorem wf_getAt {s : State} (h : (memories s).Wf) (m f n) : (getAt s m f n).All fun r => (memories r.1).Wf := by
  simp only [getAt]
  split
  · trivial
  · split
    · exact wf_apertureGet h m f n
    · split
      · trivial
      · trivial
      · trivial
      · split
        · trivial
        · simp [HostEnd.All, h]

@[simp] theorem memories_hostFault (s : State) (m f code w3) : memories (hostFault s m f code w3) = memories s := by simp [hostFault]

theorem wf_frameEnd {s : State} (h : (memories s).Wf) (m w) {α : Type} {e : HostEnd α} {f : α → State}
    (he : e.All fun x => (memories (f x)).Wf) : (frameEnd s m w e f).Leaves Memories.Wf := by
  unfold frameEnd
  split
  · exact he
  · simpa [FrameEnd.Leaves] using h
  · trivial
  · split
    · simpa [FrameEnd.Leaves] using h
    · trivial

theorem wf_putDo {s : State} (h : (memories s).Wf) (m w) : (putDo s m w).Leaves Memories.Wf := wf_frameEnd h m w (wf_putAt h ..)

theorem wf_getDo {s : State} (h : (memories s).Wf) (m w) : (getDo s m w).Leaves Memories.Wf := by
  simp only [getDo]
  split
  · simpa [FrameEnd.Leaves] using h
  · refine wf_frameEnd h m w ?_
    have hg := wf_getAt h m w.frame (bits w.frame.operand 0 14)
    generalize getAt s m w.frame (bits w.frame.operand 0 14) = e at hg
    cases e with
    | done r =>
      simp only [HostEnd.All]
      split
      · simpa using h
      · rw [memories_getData]
        exact hg
    | _ => trivial

theorem wf_afterTrip {P : Memories → Prop} {act : FrameEnd} (h : act.Leaves P) (s : State) (m w n) :
    (afterTrip s m w n act).Leaves P := by
  simp only [afterTrip]
  split
  · trivial
  · split
    · exact h
    · trivial

@[simp] theorem memories_doStatusGet (s : State) (m f) : memories (doStatusGet s m f) = memories s := by simp [doStatusGet]
@[simp] theorem memories_doNonce (s : State) (m f) : memories (doNonce s m f) = memories s := by simp [doNonce]

@[simp] theorem memories_doReportGet (s : State) (m f) : memories (doReportGet s m f) = memories s := by
  unfold doReportGet
  split <;> simp

@[simp] theorem memories_doCapPut (s : State) (m f) : memories (doCapPut s m f) = memories s := by simp [doCapPut]
@[simp] theorem memories_doCapGet (s : State) (m f) : memories (doCapGet s m f) = memories s := by simp [doCapGet]
@[simp] theorem memories_doTelemetryGet (s : State) (m f) : memories (doTelemetryGet s m f) = memories s := by simp [doTelemetryGet]

theorem leaves_doSpare (s : State) (m f) : (doSpare s m f).Leaves (· = memories s) := by
  simp only [doSpare]
  repeat' split
  all_goals simp [FrameEnd.Leaves]

@[simp] theorem memories_doFreeze (s : State) (m f) : memories (doFreeze s m f) = memories s := by simp [doFreeze]
@[simp] theorem memories_doScanGet (s : State) (m f) : memories (doScanGet s m f) = memories s := by simp [doScanGet]
@[simp] theorem memories_doTrace (s : State) (m f) : memories (doTrace s m f) = memories s := by simp [doTrace]

theorem leaves_veivPut (s : State) (m f) : (veivPut s m f).Leaves (· = memories s) := by
  simp only [veivPut]
  repeat' split
  case' isFalse.isFalse.isTrue => exact leaves_doSpare s m f
  all_goals simp [FrameEnd.Leaves]

@[simp] theorem memories_veivGet (s : State) (m f) : memories (veivGet s m f) = memories s := by simp [veivGet]

theorem leaves_injectDo (s : State) (m f) : (injectDo s m f).Leaves (· = memories s) := by
  simp only [injectDo]
  split
  · trivial
  · simp [FrameEnd.Leaves]

theorem leaves_loadDo (s : State) (w) : (loadDo s w).Leaves (· = memories s) := by
  simp only [loadDo]
  split <;> simp [FrameEnd.Leaves]

theorem wf_frameAct {s : State} (h : (memories s).Wf) (m w) : (frameAct s m w).Leaves Memories.Wf := by
  simp only [frameAct]
  split
  · exact (leaves_veivPut ..).wf h
  · split
    · simpa [FrameEnd.Leaves] using h
    · split
      · exact h
      · split
        · exact (leaves_loadDo ..).wf h
        · exact wf_afterTrip (wf_putDo h ..) ..
        · exact wf_afterTrip (wf_getDo h ..) ..
        · exact (leaves_injectDo ..).wf h
        · exact h

@[simp] theorem memories_popFrame (s : State) (m) : memories (popFrame s m) = memories s := by simp [popFrame]

@[simp] theorem memories_holdFrame (s : State) (m w cycles moving) : memories (holdFrame s m w cycles moving) = memories s := by
  simp [holdFrame]

@[simp] theorem memories_sendFrameOut (s : State) (m w cycles) : memories (sendFrameOut s m w cycles) = memories s := by simp [sendFrameOut]
@[simp] theorem memories_loaderNext (s : State) (m img) : memories (loaderNext s m img) = memories s := by simp [loaderNext]

@[simp] theorem wf_hostWork (n) {s : State} (h : (memories s).Wf) (m) : (memories (hostWork n s m)).Wf := by
  induction n generalizing s with
  | zero => exact h
  | succ n ih =>
    simp only [hostWork]
    split
    · exact h
    · rename_i w _ _
      have ha := wf_frameAct h m w
      split
      · exact h
      · split
        · simpa using h
        · simpa using h
        · rename_i he _
          rw [he] at ha
          have ha : (memories _).Wf := ha
          split
          · exact ih (by simpa using ha)
          · split
            · exact h
            · simpa using ha
        · rename_i he _
          rw [he] at ha
          exact ih (by rw [memories_popFrame]; exact ha)

@[simp] theorem wf_hostTurn {s : State} (h : (memories s).Wf) (m) : (memories (hostTurn s m)).Wf := by
  rw [hostTurn, memories_settleAck]
  exact wf_hostWork _ h _

@[simp] theorem wf_receive {s : State} (h : (memories s).Wf) (m type f img) : (memories (receive s m type f img)).Wf := by
  refine wf_atPort h _ _ fun s f hs => ?_
  simp only
  repeat' split
  all_goals simp [hs]

theorem wf_execFrameSequenceQuery {s : State} (h : (memories s).Wf) (mod f) : OutWf (execFrameSequenceQuery mod f s) :=
  wf_atPort h _ _ fun _ _ hs => by simpa using hs

theorem wf_execFrameSequenceAnswer {s : State} (h : (memories s).Wf) (mod f) : OutWf (execFrameSequenceAnswer mod f s) :=
  wf_atPort h _ _ fun _ _ hs => by
    split <;> simpa using hs

theorem wf_execFrameAckOnly {s : State} (h : (memories s).Wf) (mod f) : OutWf (execFrameAckOnly mod f s) :=
  wf_atPort h _ _ fun _ _ hs => by
    split <;> simpa using hs

@[simp] theorem wf_veivFrame {s : State} (h : (memories s).Wf) (m type off f) : (memories (veivFrame s m type off f)).Wf := by
  unfold veivFrame
  split <;> simp [h]

@[simp] theorem wf_traceFrame {s : State} (h : (memories s).Wf) (m mode f) : (memories (traceFrame s m mode f)).Wf := by
  unfold traceFrame
  split <;> simp [h]

end Sys2Proof.Machine
end

section
/-!
The vector unit.
-/

namespace Sys2Proof.Machine

@[simp] theorem memories_vxResult (s : State) (lat v poison seed) : memories (vxResult s lat v poison seed) = memories s := by
  simp [vxResult]

@[simp] theorem memories_runVx1 (s : State) (m lat f) : memories (runVx1 s m lat f) = memories s :=
  memories_runTrigger _ _ _ _ _ fun _ _ _ _ => by simp

@[simp] theorem memories_runVx2 (s : State) (m lat f) : memories (runVx2 s m lat f) = memories s :=
  memories_runTrigger _ _ _ _ _ fun _ _ _ _ => by simp

@[simp] theorem memories_runVx3 (s : State) (m lat f) : memories (runVx3 s m lat f) = memories s :=
  memories_runTrigger _ _ _ _ _ fun _ _ _ _ => by simp

theorem wf_execVext {s : State} (h : (memories s).Wf) (m t) : OutWf (execVext m t s) := by
  exact outWf_of_eq (memories_runTrigger _ _ _ _ _ fun _ _ _ _ => by simp) h

theorem wf_execViota {s : State} (h : (memories s).Wf) (m) : OutWf (execViota m s) := by
  exact outWf_of_eq (memories_runTrigger _ _ _ _ _ fun _ _ _ _ => by simp) h

theorem wf_execVmask {s : State} (h : (memories s).Wf) (m) : OutWf (execVmask m s) := by
  exact outWf_of_eq (memories_runTrigger _ _ _ _ _ fun _ _ _ _ => by simp) h

end Sys2Proof.Machine
end

section
/-!
The keystones.
-/

namespace Sys2Proof.Machine

@[simp] theorem memories_setKs (s : State) (m k x) : memories (setKs s m k x) = memories s := by simp [setKs]

@[simp] theorem memories_runKf (s : State) (m fn bf) : memories (runKf s m fn bf) = memories s :=
  memories_runTrigger _ _ _ _ _ fun _ _ _ _ => by simp

theorem wf_execKeystoneAccept {s : State} (h : (memories s).Wf) (mod k) : OutWf (execKeystoneAccept mod k s) := by
  simp only [execKeystoneAccept]
  repeat' split
  all_goals simp [h]

end Sys2Proof.Machine
end

section
/-!
The turn of the clock.
-/

namespace Sys2Proof.Machine

theorem tickPier_fst (s : State) (e : Nat × Pier) : (tickPier s e).1 = e.1 := by
  simp only [tickPier]
  split <;> rfl

theorem spad_tickPier (s : State) (e : Nat × Pier) : (tickPier s e).2.spad = e.2.spad := by
  simp only [tickPier]
  split <;> rfl

theorem hbm_tickMod (s : State) (m) (x : Module) : (tickMod s m x).hbm = x.hbm := by
  unfold tickMod
  split <;> rfl

@[simp] theorem memories_settlePier (s : State) (pk) : memories (settlePier s pk) = memories s := by
  simp only [settlePier]
  rw [memories_foldl _ fun s st => by split <;> simp]
  simp

@[simp] theorem memories_tickAll (s : State) : memories (tickAll s) = memories s := by
  have hp : s.piers.map (tickPier s) = s.piers.map fun e => (e.1, (tickPier s e).2) :=
    List.map_congr_left fun e _ => Prod.ext (tickPier_fst s e) rfl
  have hm := memories_mapMods { s with cycle := s.cycle + 1 } (fun e => tickMod s e.1 e.2) fun e => hbm_tickMod s e.1 e.2
  rw [tickAll, hp]
  exact (memories_mapPiers _ (fun e => (tickPier s e).2) (spad_tickPier s)).trans hm

@[simp] theorem wf_nextCycle {s : State} (h : (memories s).Wf) : (memories (nextCycle s)).Wf := by
  simp only [nextCycle]
  exact wf_foldl (fun s m hs => wf_hostTurn (by simpa using hs) m) _ (by simpa using h)

end Sys2Proof.Machine
end

section
/-!
Every step of the table keeps the canonical form of the byte memories.
-/

namespace Sys2Proof.Machine

theorem wf_exec {s : State} (h : (memories s).Wf) (i : Instr) : OutWf (exec i s) := by
  cases i with
  | jmp m => rw [exec_jmp]; exact wf_execJmp h ..
  | jal m => rw [exec_jal]; exact wf_execJal h ..
  | done m => rw [exec_done]; exact wf_execDone h ..
  | trap m => rw [exec_trap]; exact wf_execTrap h ..
  | brk m => rw [exec_brk]; exact wf_execBrk h ..
  | fenceFull m sc => simp [execFenceFull, h]
  | fenceAcq m sc => simp [execFenceAcq, h]
  | fenceRel m sc => simp [execFenceRel, h]
  | fenceEng m sc => simp [execFenceEng, h]
  | add m u => simp [execAdd, h]
  | sub m u => simp [execSub, h]
  | and m u => simp [execAnd, h]
  | or m u => simp [execOr, h]
  | xor m u => simp [execXor, h]
  | andn m u => simp [execAndn, h]
  | shl m u => simp [execShl, h]
  | shr m u => simp [execShr, h]
  | sra m u => simp [execSra, h]
  | rol m u => simp [execRol, h]
  | min m u => simp [execMin, h]
  | minU m u => simp [execMinU, h]
  | max m u => simp [execMax, h]
  | maxU m u => simp [execMaxU, h]
  | eq m u => simp [execEq, h]
  | ne m u => simp [execNe, h]
  | lt m u => simp [execLt, h]
  | ltU m u => simp [execLtU, h]
  | le m u => simp [execLe, h]
  | leU m u => simp [execLeU, h]
  | clz m u => simp [execClz, h]
  | ctz m u => simp [execCtz, h]
  | popc m u => simp [execPopc, h]
  | brev m u => simp [execBrev, h]
  | bdep m u => simp [execBdep, h]
  | bext m u => simp [execBext, h]
  | sext m u => simp [execSext, h]
  | zext m u => simp [execZext, h]
  | sel m u => rw [exec_sel]; exact wf_execSel h ..
  | mul m => simp [execMul, h]
  | mulh m => simp [execMulh, h]
  | mulhU m => simp [execMulhU, h]
  | mad m => rw [exec_mad]; exact wf_execMad h ..
  | div m => simp [execDiv, h]
  | divU m => simp [execDivU, h]
  | rem m => simp [execRem, h]
  | remU m => simp [execRemU, h]
  | divideComplete pk st tok => simp [execDivideComplete, h]
  | ldl m f => rw [exec_ldl]; exact wf_execLdl h ..
  | stl m z => rw [exec_stl]; exact wf_execStl h ..
  | vldl m => rw [exec_vldl]; exact wf_execVldl h ..
  | vstl m => rw [exec_vstl]; exact wf_execVstl h ..
  | atl m op w => rw [exec_atl]; exact wf_execAtl h ..
  | casl m w => rw [exec_casl]; exact wf_execCasl h ..
  | ldg m f => simp [execLdg, h]
  | ldgAcq m f => simp [execLdgAcq, h]
  | stg m z => simp [execStg, h]
  | stgRel m z => simp [execStgRel, h]
  | vldg m => simp [execVldg, h]
  | vldgAcq m => simp [execVldgAcq, h]
  | vstg m => simp [execVstg, h]
  | vstgRel m => simp [execVstgRel, h]
  | atg m op w o => simp [execAtg, h]
  | casg m w o => simp [execCasg, h]
  | vadd m t => simp [execVadd, h]
  | vsub m t => simp [execVsub, h]
  | vmul m t => simp [execVmul, h]
  | vfma m t => simp [execVfma, h]
  | vmin m t => simp [execVmin, h]
  | vmax m t => simp [execVmax, h]
  | vabs m t => simp [execVabs, h]
  | vneg m t => simp [execVneg, h]
  | vceq m t => simp [execVceq, h]
  | vclt m t => simp [execVclt, h]
  | vcle m t => simp [execVcle, h]
  | vsel m t => simp [execVsel, h]
  | vand m => simp [execVand, h]
  | vor m => simp [execVor, h]
  | vxor m => simp [execVxor, h]
  | vshl m => simp [execVshl, h]
  | vshr m => simp [execVshr, h]
  | vcvt m r => simp [execVcvt, h]
  | vshuf m t => simp [execVshuf, h]
  | vrsum m t => simp [execVrsum, h]
  | vrmax m t => simp [execVrmax, h]
  | vrmaxMin m t => simp [execVrmaxMin, h]
  | vbcast m t => simp [execVbcast, h]
  | vext m t => rw [exec_vext]; exact wf_execVext h ..
  | vmask m => rw [exec_vmask]; exact wf_execVmask h ..
  | viota m => rw [exec_viota]; exact wf_execViota h ..
  | vcmul m => simp [execVcmul, h]
  | vcmulConj m => simp [execVcmulConj, h]
  | mcfg m => simp [execMcfg, h]
  | mld m => simp [execMld, h]
  | mldw m => simp [execMldw, h]
  | mstRaw m => simp [execMstRaw, h]
  | mstBf16 m => simp [execMstBf16, h]
  | mstF32 m => simp [execMstF32, h]
  | mzero m => simp [execMzero, h]
  | mma m => simp [execMma, h]
  | mmas m => simp [execMmas, h]
  | mmaf m => simp [execMmaf, h]
  | cmma m => simp [execCmma, h]
  | matrixEntryExecute pk => rw [exec_matrixEntryExecute]; exact wf_execMatrixEntryExecute h ..
  | kexp m bf => simp [execKexp, h]
  | kexp2 m bf => simp [execKexp2, h]
  | klog m bf => simp [execKlog, h]
  | klog2 m bf => simp [execKlog2, h]
  | krcp m bf => simp [execKrcp, h]
  | krsq m bf => simp [execKrsq, h]
  | ksqrt m bf => simp [execKsqrt, h]
  | ksin m bf => simp [execKsin, h]
  | kcos m bf => simp [execKcos, h]
  | ktanh m bf => simp [execKtanh, h]
  | ksigm m bf => simp [execKsigm, h]
  | kerf m bf => simp [execKerf, h]
  | keystoneAccept mod k => rw [exec_keystoneAccept]; exact wf_execKeystoneAccept h ..
  | keystoneResult pk st entry tok v => simp [execKeystoneResult, h]
  | send m => rw [exec_send]; exact wf_execSend h ..
  | sendRed m => rw [exec_sendRed]; exact wf_execSendRed h ..
  | reply m => rw [exec_reply]; exact wf_execReply h ..
  | fwd m => rw [exec_fwd]; exact wf_execFwd h ..
  | mcast m => simp [execMcast, h]
  | mstat m => rw [exec_mstat]; exact wf_execMstat h ..
  | sarm m => rw [exec_sarm]; exact wf_execSarm h ..
  | sset m => rw [exec_sset]; exact wf_execSset h ..
  | sadd m => rw [exec_sadd]; exact wf_execSadd h ..
  | sradd m => simp [execSradd, h]
  | sarv m => rw [exec_sarv]; exact wf_execSarv h ..
  | swait m => rw [exec_swait]; exact wf_execSwait h ..
  | swaitPh m => rw [exec_swaitPh]; exact wf_execSwaitPh h ..
  | sget m => rw [exec_sget]; exact wf_execSget h ..
  | sread m => simp [execSread, h]
  | swrite m => simp [execSwrite, h]
  | sgath m => simp [execSgath, h]
  | sscat m => simp [execSscat, h]
  | sseg m => simp [execSseg, h]
  | sxch m => simp [execSxch, h]
  | swld m => simp [execSwld, h]
  | scanc m => simp [execScanc, h]
  | crd m => rw [exec_crd]; exact wf_execCrd h ..
  | cwr m => simp [execCwr, h]
  | writeWindow m => simp [execWriteWindow, h]
  | writeWeir m => simp [execWriteWeir, h]
  | writeSeed m => simp [execWriteSeed, h]
  | writeSched m => simp [execWriteSched, h]
  | writeXlroot m => simp [execWriteXlroot, h]
  | acrt m => rw [exec_acrt]; exact wf_execAcrt h ..
  | aret m => simp [execAret, h]
  | gdone m => simp [execGdone, h]
  | gcncl m => simp [execGcncl, h]
  | tlbi m => simp [execTlbi, h]
  | move m d => simp [execMove, h]
  | nop => simp [execNop, h]
  | messageAdmission g frm => rw [exec_messageAdmission]; exact wf_execMessageAdmission h ..
  | spillwayReturn pk actor => simp [execSpillwayReturn, h]
  | dispatch pk => rw [exec_dispatch]; exact wf_execDispatch h ..
  | runEnd pk st => simp [execRunEnd, h]
  | actorLockRelease pk actor => simp [execActorLockRelease, h]
  | actorRetireComplete pk actor => simp [execActorRetireComplete, h]
  | watchdogExpiry pk st => simp [execWatchdogExpiry, h]
  | outboxResend e => rw [exec_outboxResend]; exact wf_execOutboxResend h ..
  | acknowledgement e status => rw [exec_acknowledgement]; exact wf_execAcknowledgement h ..
  | sluiceAddArrival a => simp [execSluiceAddArrival, h]
  | sluiceRecheck pk sl => simp [execSluiceRecheck, h]
  | barrierArriveArrival a => simp [execBarrierArriveArrival, h]
  | phaseNoticeArrival a => simp [execPhaseNoticeArrival, h]
  | gmTranslationDone pk st entry tok o => rw [exec_gmTranslationDone]; exact wf_execGmTranslationDone h ..
  | gmReply a => rw [exec_gmReply]; exact wf_execGmReply h ..
  | apertureAccess r => rw [exec_apertureAccess]; exact wf_execApertureAccess h ..
  | hbmAccess r => simp [execHbmAccess, h]
  | ingressAtomic r => rw [exec_ingressAtomic]; exact wf_execIngressAtomic h ..
  | leaseExpiry mod line tok => simp [execLeaseExpiry, h]
  | leaseRecall mod line => simp [execLeaseRecall, h]
  | pageWalk w => rw [exec_pageWalk]; exact wf_execPageWalk h ..
  | walkMovingRetry w => simp [execWalkMovingRetry, h]
  | dirtyLogMerge pk => simp [execDirtyLogMerge, h]
  | invalidationAgent mod span => rw [exec_invalidationAgent]; exact wf_execInvalidationAgent h ..
  | invalidationPier mod span lp => rw [exec_invalidationPier]; exact wf_execInvalidationPier h ..
  | invalidationAbutment mod abut => rw [exec_invalidationAbutment]; exact wf_execInvalidationAbutment h ..
  | invalidationComplete mod span => rw [exec_invalidationComplete]; exact wf_execInvalidationComplete h ..
  | tlbiResend mod span r => simp [execTlbiResend, h]
  | streamCommandAccept mod abut c => simp [execStreamCommandAccept, h]
  | streamCommandResend mod abut c => simp [execStreamCommandResend, h]
  | streamOpen mod abut sid => simp [execStreamOpen, h]
  | streamOpenRetry mod abut sid => simp [execStreamOpenRetry, h]
  | streamTurn mod abut => rw [exec_streamTurn]; exact wf_execStreamTurn h ..
  | dataFlitArrival f => rw [exec_dataFlitArrival]; exact wf_execDataFlitArrival h ..
  | flitResend f => rw [exec_flitResend]; exact wf_execFlitResend h ..
  | weightFlitArrival f => rw [exec_weightFlitArrival]; exact wf_execWeightFlitArrival h ..
  | scratchpadReadRequest f => rw [exec_scratchpadReadRequest]; exact wf_execScratchpadReadRequest h ..
  | streamIncrement mod abut sid cmd => rw [exec_streamIncrement]; exact wf_execStreamIncrement h ..
  | sxchPair mod abut sid => rw [exec_sxchPair]; exact wf_execSxchPair h ..
  | sxchWindowGrant mod abut sid => rw [exec_sxchWindowGrant]; exact wf_execSxchWindowGrant h ..
  | multicastCopy mod tok idx => rw [exec_multicastCopy]; exact wf_execMulticastCopy h ..
  | laggardDetach mod tok idx => rw [exec_laggardDetach]; exact wf_execLaggardDetach h ..
  | reductionContribution g frm => rw [exec_reductionContribution]; exact wf_execReductionContribution h ..
  | gdoneForward mod pk graph add frm => rw [exec_gdoneForward]; exact wf_execGdoneForward h ..
  | cancel mod job level id => simp [execCancel, h]
  | cancelAtPier pk job level id => simp [execCancelAtPier, h]
  | flushMarker mod tok => rw [exec_flushMarker]; exact wf_execFlushMarker h ..
  | cancelEnd mod => rw [exec_cancelEnd]; exact wf_execCancelEnd h ..
  | phaseOpen mod job phase => rw [exec_phaseOpen]; exact wf_execPhaseOpen h ..
  | partitionHalt mod part hs => simp [execPartitionHalt, h]
  | haltAtPier pk => simp [execHaltAtPier, h]
  | haltAtAbutment mod part abut => rw [exec_haltAtAbutment]; exact wf_execHaltAtAbutment h ..
  | haltAck mod part who => simp [execHaltAck, h]
  | saveLimitExpiry pk => simp [execSaveLimitExpiry, h]
  | shadowSwap mod hs part => rw [exec_shadowSwap]; exact wf_execShadowSwap h ..
  | streamContextLoad mod abut part => simp [execStreamContextLoad, h]
  | partitionEvict mod part hs => rw [exec_partitionEvict]; exact wf_execPartitionEvict h ..
  | partitionRestore mod part hs => rw [exec_partitionRestore]; exact wf_execPartitionRestore h ..
  | parkedRunRestore pk => rw [exec_parkedRunRestore]; exact wf_execParkedRunRestore h ..
  | gangSliceStart mod slice => simp [execGangSliceStart, h]
  | holdBroadcast mod job on => rw [exec_holdBroadcast]; exact wf_execHoldBroadcast h ..
  | healthProbe mod => simp [execHealthProbe, h]
  | hungPier pk => simp [execHungPier, h]
  | deferredFaultReport d => simp [execDeferredFaultReport, h]
  | createActor pk g => rw [exec_createActor]; exact wf_execCreateActor h ..
  | resume pk g => rw [exec_resume]; exact wf_execResume h ..
  | drop pk g => rw [exec_drop]; exact wf_execDrop h ..
  | evictActor pk g => rw [exec_evictActor]; exact wf_execEvictActor h ..
  | evictWaitTimeout pk g => rw [exec_evictWaitTimeout]; exact wf_execEvictWaitTimeout h ..
  | restoreActor pk g => rw [exec_restoreActor]; exact wf_execRestoreActor h ..
  | streamResume pk g => rw [exec_streamResume]; exact wf_execStreamResume h ..
  | streamStop pk g => rw [exec_streamStop]; exact wf_execStreamStop h ..
  | harvest pk g => rw [exec_harvest]; exact wf_execHarvest h ..
  | harvestComplete mod span => rw [exec_harvestComplete]; exact wf_execHarvestComplete h ..
  | phaseBegin pk g => rw [exec_phaseBegin]; exact wf_execPhaseBegin h ..
  | reservedServiceCommand pk g => rw [exec_reservedServiceCommand]; exact wf_execReservedServiceCommand h ..
  | serviceForwardToHost pk g => rw [exec_serviceForwardToHost]; exact wf_execServiceForwardToHost h ..
  | faultRecordForward pk g => rw [exec_faultRecordForward]; exact wf_execFaultRecordForward h ..
  | jobLoaderRun mod job => rw [exec_jobLoaderRun]; exact wf_execJobLoaderRun h ..
  | frameResendTimeout mod => simp [execFrameResendTimeout, h]
  | attestationSigned mod tok => simp [execAttestationSigned, h]
  | powerMeasure mod => simp [execPowerMeasure, h]
  | replayDivergence pk => simp [execReplayDivergence, h]
  | portDown mod port => simp [execPortDown, h]
  | bringUp mod => rw [exec_bringUp]; exact wf_execBringUp h ..
  | matrixEntryComplete pk => rw [exec_matrixEntryComplete]; exact wf_execMatrixEntryComplete h ..
  | resultPortWrite pk st unit tok => rw [exec_resultPortWrite]; exact wf_execResultPortWrite h ..
  | bankRefresh mod bank => simp [execBankRefresh, h]
  | exchangeFlitArrival f => rw [exec_exchangeFlitArrival]; exact wf_execExchangeFlitArrival h ..
  | portRetrainComplete mod port => simp [execPortRetrainComplete, h]
  | frameJobLoad mod f img last => simp [execFrameJobLoad, h]
  | framePut mod f => simp [execFramePut, h]
  | frameGet mod f => simp [execFrameGet, h]
  | frameMessageInject mod f => simp [execFrameMessageInject, h]
  | frameSequenceQuery mod f => rw [exec_frameSequenceQuery]; exact wf_execFrameSequenceQuery h ..
  | frameSequenceAnswer mod f => rw [exec_frameSequenceAnswer]; exact wf_execFrameSequenceAnswer h ..
  | frameAckOnly mod f => rw [exec_frameAckOnly]; exact wf_execFrameAckOnly h ..
  | statusGet mod f => simp [execStatusGet, h]
  | attestationNonce mod f => simp [execAttestationNonce, h]
  | attestationReportGet mod f => simp [execAttestationReportGet, h]
  | powerCapWrite mod f => simp [execPowerCapWrite, h]
  | telemetryGet mod f => simp [execTelemetryGet, h]
  | freeze mod f => simp [execFreeze, h]
  | scanReadoutGet mod f => simp [execScanReadoutGet, h]
  | rrOff mod f => simp [execRrOff, h]
  | rrRecord mod f => simp [execRrRecord, h]
  | rrReplay mod f => simp [execRrReplay, h]
  | uncorrectableError mod kind unit off => rw [exec_uncorrectableError]; exact wf_execUncorrectableError h ..
  | correctedError mod kind => simp [execCorrectedError, h]
  | torusLaneFailure mod port lane => simp [execTorusLaneFailure, h]
  | placementTableWrite mod part job halfspans tbl => rw [exec_placementTableWrite]; exact wf_execPlacementTableWrite h ..
  | groupEntryWrite mod id hdr members => simp [execGroupEntryWrite, h]
  | gangScheduleWrite mod o p slices => simp [execGangScheduleWrite, h]
  | debugHalt mod site => rw [exec_debugHalt]; exact wf_execDebugHalt h ..
  | debugRelease mod site => rw [exec_debugRelease]; exact wf_execDebugRelease h ..
  | overtemp mod die t => simp [execOvertemp, h]
  | timeBaseFlit mod v => simp [execTimeBaseFlit, h]
  | spareHbmPc mod stack pc => simp [execSpareHbmPc, h]
  | spareAbutment mod abut => simp [execSpareAbutment, h]
  | spareTorusLane mod port lane => simp [execSpareTorusLane, h]
  | sparePierRow mod span row => simp [execSparePierRow, h]

end Sys2Proof.Machine
end

section
/-!
The issue of bundles keeps it too.
-/

namespace Sys2Proof.Machine

theorem wf_runSlots {s : State} (h : (memories s).Wf) (l : List (Nat × Nat × Instr)) : OutWf (runSlots exec l s) := by
  induction l generalizing s with
  | nil => exact h
  | cons r l ih =>
    have he := wf_exec (s := { s with issue := { s.issue with slot := BitVec.ofNat 2 r.2.1 } }) h r.2.2
    simp only [runSlots]
    split
    · rename_i hs
      rw [hs] at he
      exact ih he
    · exact he

/-- What is said of a strand's turn: that it leaves the byte memories in canonical form, or ends the step as `OutWf` says. -/
def TurnWf : Turn → Prop
  | .held => True
  | .done s => (memories s).Wf
  | .stop o => OutWf o

theorem wf_issueSlots {s : State} (h : (memories s).Wf) (pk st slots limm) : TurnWf (issueSlots exec s pk st slots limm) := by
  have hr (ctx f l) : OutWf (runSlots exec l (adjStrand { s with issue := ctx } pk st f)) := wf_runSlots (by simpa using h) l
  simp only [issueSlots]
  split
  · rename_i s1 hs
    have h1 : OutWf (.next s1) := by
      rw [← hs]
      exact hr ..
    rw [outWf_next] at h1
    split
    · split
      · trivial
      · simpa [TurnWf] using h
    · split
      · trivial
      · simpa [TurnWf] using h1
  · exact hr ..

theorem wf_tryIssue {s : State} (h : (memories s).Wf) (pk st) : TurnWf (tryIssue exec s pk st) := by
  simp only [tryIssue]
  split
  · split <;> trivial
  · split
    · simpa [TurnWf] using h
    · exact wf_issueSlots h ..

theorem wf_issueTurns {s : State} (h : (memories s).Wf) (pk) (l : List Nat) : OutWf (issueTurns exec s pk l) := by
  induction l with
  | nil => exact h
  | cons st l ih =>
    have ht := wf_tryIssue h pk st
    simp only [issueTurns]
    split
    · split
      · exact ih
      · rename_i hs
        rw [hs] at ht
        exact ht
      · rename_i hs
        rw [hs] at ht
        exact ht
    · exact ih

theorem wf_issuePier {s : State} (h : (memories s).Wf) (pk) : OutWf (issuePier exec pk s) := by
  have ht := wf_issueTurns h pk ((List.range 8).map fun i => ((getPier s pk).lastIssue + 1 + i) % 8)
  simp only [issuePier]
  split
  · rename_i hs
    rw [hs] at ht
    rw [outWf_next, memories_owedAll]
    exact ht
  · exact ht

end Sys2Proof.Machine
end

section
/-!
Every step of the machine keeps the canonical form of the byte memories (O57).
-/

namespace Sys2Proof.Machine

theorem wf_step {s : State} (h : (memories s).Wf) : OutWf (step s) := by
  unfold step
  split
  · refine wf_exec ?_ _
    exact h
  · refine wf_issuePier ?_ _
    exact h
  · exact wf_nextCycle h

theorem rising_iff_pairwise {α : Type} (m : FMap α) : rising m = true ↔ m.Pairwise fun a b => a.1 < b.1 := by
  induction m with
  | nil => simp [rising]
  | cons e m ih => rw [rising_cons, ih, List.pairwise_cons, keysAbove]

theorem sorted_iff_wf (m : FMap Byte) : Claims.Sorted m ↔ Memory.wf m = true := by simp [Claims.Sorted, Memory.wf, rising_iff_pairwise]

theorem canonical_iff_wf (s : State) : Claims.Canonical s ↔ (memories s).Wf := by
  rw [wf_memories, Claims.Canonical, MemoriesWf]
  simp only [sorted_iff_wf]

/-- Settles O57: a step does a step of the table, issues a bundle or turns the clock, and each keeps the canonical form. -/
theorem stepsKeepMemoryCanonical : Obligations.StepsKeepMemoryCanonical := by
  unfold Obligations.StepsKeepMemoryCanonical
  intro s s' h hs
  have hw := wf_step ((canonical_iff_wf s).mp h)
  rw [hs] at hw
  exact (canonical_iff_wf s').mpr hw

end Sys2Proof.Machine
end

section
/-!
What all later sections use: how a statement about the memories, a calendar entry or a pier follows from what an operation changes.
-/

namespace Sys2Proof.Machine

/-- Every byte memory and every code store reads as before. -/
theorem sameMemory_of_code {s t : State} (hm : memories t = memories s) (hc : ∀ pk, (getPier t pk).code = (getPier s pk).code) :
    Claims.SameMemory s t := by
  obtain ⟨hh, hp, hs⟩ := Memories.mk.inj hm
  exact ⟨fun m a => by rw [congrFun hh m], fun k a => by rw [congrFun hs k], fun pk a => by rw [congrFun hp pk],
    fun pk a => by rw [hc]⟩

/-- A change of modules, calendar and sites that leaves the byte memories alone leaves the code stores alone. -/
theorem sameMemory_of_piers {s t : State} (hm : memories t = memories s) (hp : t.piers = s.piers) : Claims.SameMemory s t :=
  sameMemory_of_code hm fun pk => by rw [getPier, hp, getPier]

end Sys2Proof.Machine
end

section
/-!
Elements of rows and lanes of masks: a row that is made of elements gives them back.
-/

namespace Sys2Proof.Machine

theorem natOfElems_elem (w : Nat) (l : List Nat) (j : Nat) : natOfElems w l / 2 ^ (w * j) % 2 ^ w = l[j]?.getD 0 % 2 ^ w := by
  induction l generalizing j with
  | nil => simp [natOfElems]
  | cons e l ih =>
    cases j with
    | zero => simp [natOfElems, Nat.add_mod]
    | succ j =>
      have hlow : (e % 2 ^ w + 2 ^ w * natOfElems w l) / 2 ^ w = natOfElems w l := by
        rw [Nat.add_mul_div_left _ _ (Nat.two_pow_pos w), Nat.div_eq_of_lt (Nat.mod_lt _ (Nat.two_pow_pos w)), Nat.zero_add]
      rw [natOfElems, Nat.mul_succ, Nat.add_comm (w * j), Nat.pow_add, ← Nat.div_div_eq_div_mul, hlow, ih]
      simp

theorem natOfElems_lt (w : Nat) (l : List Nat) : natOfElems w l < 2 ^ (w * l.length) := by
  induction l with
  | nil => simp [natOfElems]
  | cons e l ih =>
    have he : e % 2 ^ w < 2 ^ w := Nat.mod_lt _ (Nat.two_pow_pos w)
    rw [natOfElems, List.length_cons, Nat.mul_succ, Nat.pow_add]
    calc e % 2 ^ w + 2 ^ w * natOfElems w l < 2 ^ w * (natOfElems w l + 1) := by rw [Nat.mul_succ]; omega
      _ ≤ 2 ^ w * 2 ^ (w * l.length) := Nat.mul_le_mul_left _ ih
      _ = _ := Nat.mul_comm ..

/-- Element `j` of a row that is made of elements. -/
theorem elem_rowOfElems {w n j : Nat} (f : Nat → Nat) (hn : w * n ≤ 512) (hj : j < n) :
    Claims.elem w (rowOfElems w n f) j = f j % 2 ^ w := by
  have hlen : w * ((List.range n).map f).length ≤ 512 := by simpa using hn
  have hlt := Nat.lt_of_lt_of_le (natOfElems_lt w ((List.range n).map f)) (Nat.pow_le_pow_right Nat.two_pos hlen)
  rw [Claims.elem, rowOfElems, BitVec.toNat_ofNat, Nat.mod_eq_of_lt hlt, natOfElems_elem]
  simp [hj]

theorem natOfBits_testBit (l : List Bool) (i : Nat) : (natOfBits l).testBit i = l[i]?.getD false := by
  induction l generalizing i with
  | nil => simp [natOfBits]
  | cons b l ih =>
    cases i with
    | zero => cases b <;> simp [natOfBits, b2n, Nat.testBit_zero]
    | succ i => cases b <;> simp [natOfBits, b2n, Nat.testBit_succ, ← ih, Nat.add_mul_div_left _ _ (Nat.succ_pos 1)]

theorem laneOk_eq (m : BitVec 16) (i : Nat) : laneOk m i = m.getLsbD i := by
  rw [laneOk, BitVec.getLsbD, Nat.testBit_eq_decide_div_mod_eq]
  rfl

/-- A mask made of the lanes of a mask is that mask. -/
theorem maskOf_laneOk (m : BitVec 16) : maskOf (laneOk m) = m := by
  refine BitVec.eq_of_getLsbD_eq fun i hi => ?_
  rw [maskOf, BitVec.getLsbD_ofNat, natOfBits_testBit]
  simp [hi, laneOk_eq]

/-- An operation on each element of 32 bits: a valid lane has its value, any other is zero. -/
theorem elem_map1Vec_f32 (f : Nat → Nat) (a : Vec) {i : Nat} (hi : i < 16) :
    Claims.elem 32 (map1Vec .f32 f a).row i = if a.mask.getLsbD i then f (Claims.elem 32 a.row i) % 2 ^ 32 else 0 := by
  have hm : maskOfElems .f32 (elemOk .f32 a.mask) = a.mask := maskOf_laneOk a.mask
  have hv : ∀ j, elemOk .f32 a.mask j = a.mask.getLsbD j := laneOk_eq a.mask
  simp only [map1Vec, mapVec, hm]
  rw [elemBits, elemCount, elem_rowOfElems _ (by decide) (by simpa [elemBits] using hi), hv, apply_ite (· % 2 ^ 32)]
  rfl

theorem mask_map1Vec_f32 (f : Nat → Nat) (a : Vec) : (map1Vec .f32 f a).mask = a.mask := maskOf_laneOk a.mask

theorem maskOfElems_bf16 (m : BitVec 16) : maskOfElems .bf16 (elemOk .bf16 m) = m := by
  have hb : ∀ i, (elemOk .bf16 m (2 * i) && elemOk .bf16 m (2 * i + 1)) = laneOk m i := fun i => by
    rw [elemOk, elemOk, Nat.mul_div_cancel_left _ (by decide), Nat.mul_add_div (by decide)]
    simp
  simp only [maskOfElems, hb]
  exact maskOf_laneOk m

/-- An operation on each element of 16 bits: both elements of a valid lane have their values, any others are zero. -/
theorem elem_map1Vec_bf16 (f : Nat → Nat) (a : Vec) {i : Nat} (hi : i < 32) :
    Claims.elem 16 (map1Vec .bf16 f a).row i = if a.mask.getLsbD (i / 2) then f (Claims.elem 16 a.row i) % 2 ^ 16 else 0 := by
  have hv : ∀ j, elemOk .bf16 a.mask j = a.mask.getLsbD (j / 2) := fun j => laneOk_eq a.mask (j / 2)
  simp only [map1Vec, mapVec, maskOfElems_bf16]
  rw [elemBits, elemCount, elem_rowOfElems _ (by decide) (by simpa [elemBits] using hi), hv, apply_ite (· % 2 ^ 16)]
  rfl

theorem mask_map1Vec_bf16 (f : Nat → Nat) (a : Vec) : (map1Vec .bf16 f a).mask = a.mask := maskOfElems_bf16 a.mask

end Sys2Proof.Machine
end

section
/-!
The keystones (O28): a trigger joins the requests of its keystone, an acceptance takes the first in turn, a result lands.
-/

namespace Sys2Proof.Machine

/-- Result ports and in-flight entries are no registers. -/
theorem sameRegs_res_inf (x : Strand) (res : FMap ResPort) (inf : FMap (Option Inflight)) :
    Claims.SameRegs x { x with res, inf } :=
  ⟨fun _ => rfl, fun _ => rfl, fun _ => rfl, fun _ => rfl, fun _ => rfl, fun _ => rfl, rfl, rfl, rfl, rfl, rfl, rfl, rfl, rfl⟩

/-! A trigger (R307 to R309). -/

/-- Each keystone trigger is a request with the number of its function. -/
theorem exec_kfForm {m : Mv} {bf : Bool} {i : Instr} {fn : Nat} (h : (i, fn) ∈ Claims.kfForms m bf) (s : State) :
    exec i s = .next (runKf s m fn bf) := by
  simp only [Claims.kfForms, List.mem_cons, List.not_mem_nil, or_false] at h
  obtain ⟨rfl, rfl⟩ | ⟨rfl, rfl⟩ | ⟨rfl, rfl⟩ | ⟨rfl, rfl⟩ | ⟨rfl, rfl⟩ | ⟨rfl, rfl⟩ | ⟨rfl, rfl⟩ | ⟨rfl, rfl⟩ | ⟨rfl, rfl⟩ |
    ⟨rfl, rfl⟩ | ⟨rfl, rfl⟩ | ⟨rfl, rfl⟩ := h <;> rfl

/-- A trigger without operand ports whose value steers nothing fails no check. -/
theorem runTrigger_unsteered {s : State} {m : Mv} {t : Value} (h : Claims.Fires s m t) {u : Nat}
    (hd : State → Value → Value → Value → Bool) (b : State → Value → Value → Value → Trig) {s' : State}
    (hb : b (adjCur s fun x => clearUnit x u) t Value.zero Value.zero = .ok s') :
    runTrigger s m { unit := u } hd b = if hd s t Value.zero Value.zero then markHeld s else s' := by
  rw [runTrigger_value h.1 h.2, checked_body (by simp) rfl rfl]
  simp only [needed_none, hb]
  rfl

/-- What a keystone trigger does to the strand: its port waits, its in-flight entry is taken. -/
def kfStrand (tok n : Nat) (e : Inflight) (x : Strand) : Strand :=
  { x with res := fset (clearUnit x 8).res 0xA0 (.pending tok), inf := fset x.inf n (some e) }

/-- The state after a keystone trigger that is not held: strand, then keystone. -/
def kfJoined (s : State) (n fn : Nat) (bf : Bool) (t : Value) (e : Inflight) : State :=
  let pk := s.issue.pk
  let ks := getKs s (pkMod pk) (keystoneOf s pk)
  setKs (adjCur { s with tok := s.tok + 1 } (kfStrand s.tok n e)) (pkMod pk) (keystoneOf s pk)
    { ks with reqs := ks.reqs ++ [{ pk, strand := s.issue.strand, entry := n, tok := s.tok, fn, bf, v := t }] }

/-- The in-flight entry of a keystone trigger. -/
def kfInflight (s : State) (t : Value) : Inflight :=
  { kind := .kf, tok := s.tok, issued := true, bundle := s.issue.addr, move := moveOf s,
    tlow := BitVec.ofNat 32 (vsc t).toNat, req := { runKf.noReqKf with pk := s.issue.pk }, slot := s.issue.slot }

theorem freeEntry_clearUnit (x : Strand) (u : Nat) : freeEntry (clearUnit x u) = freeEntry x := rfl

/-- A keystone trigger is held, or it joins. -/
theorem runKf_fires {s : State} {m : Mv} {t : Value} (h : Claims.Fires s m t) (fn : Nat) (bf : Bool) :
    runKf s m fn bf = if kfHeld s t Value.zero Value.zero then markHeld s
      else kfJoined s ((freeEntry (curStrand s)).getD 0) fn bf t (kfInflight s t) := by
  refine runTrigger_unsteered h _ _ (congrArg Trig.ok ?_)
  rw [curStrand_adjCur, freeEntry_clearUnit]
  exact congrArg (fun x => setKs x _ _ _) (adjCur_adjCur { s with tok := s.tok + 1 } (fun x => clearUnit x 8) _)

theorem kfHeld_iff (s : State) (t a b : Value) : kfHeld s t a b = true ↔ freeEntry (curStrand s) = none ∨
    32 ≤ ((Claims.kfQueue s (pkMod s.issue.pk) (Claims.keystone s s.issue.pk)).filter fun r => r.pk == s.issue.pk).length := by
  rw [kfHeld, Bool.or_eq_true, decide_eq_true_iff, Option.isNone_iff_eq_none]
  exact Iff.rfl

section
variable (s : State) (n fn : Nat) (bf : Bool) (t : Value) (e : Inflight)

theorem kfJoined_strand : curStrand (kfJoined s n fn bf t e) = kfStrand s.tok n e (curStrand s) :=
  curStrand_adjCur { s with tok := s.tok + 1 } _

theorem kfJoined_queue : Claims.kfQueue (kfJoined s n fn bf t e) (pkMod s.issue.pk) (Claims.keystone s s.issue.pk) =
    Claims.kfQueue s (pkMod s.issue.pk) (Claims.keystone s s.issue.pk) ++
      [{ pk := s.issue.pk, strand := s.issue.strand, entry := n, tok := s.tok, fn, bf, v := t }] := by
  simp only [Claims.kfQueue, kfJoined, setKs, getMod_adjMod_same, Claims.keystone, keystoneOf, fget_fset_same]
  rfl

/-- Whatever of a pier does not lie in its strands is as it was. -/
theorem kfJoined_pier {α : Type} (g : Pier → α) (hg : ∀ p l, g { p with strands := l } = g p) (pk : Nat) :
    g (getPier (kfJoined s n fn bf t e) pk) = g (getPier s pk) := getPier_adjCur g hg { s with tok := s.tok + 1 } _ pk

theorem kfJoined_memory : Claims.SameMemory s (kfJoined s n fn bf t e) :=
  sameMemory_of_code (by simp [kfJoined]) (kfJoined_pier s n fn bf t e Pier.code fun _ _ => rfl)

theorem kfStrand_port (tok : Nat) (x : Strand) {i : Nat} (hi : i / 4 ≠ 0x28) : resPort (kfStrand tok n e x) i = resPort x i := by
  have h0 : i ≠ 0xA0 := fun h => hi (by simp [h])
  rw [← resPort_clear_other x 8 i hi]
  exact fget_fset_other _ _ _ _ _ h0

theorem kfJoined_frame : Claims.RunFrame s (kfJoined s n fn bf t e) 8 where
  regs := by
    rw [kfJoined_strand]
    exact sameRegs_res_inf ..
  ports i hi := by rw [kfJoined_strand, kfStrand_port _ _ _ _ hi]
  strands := getStrand_adjCur_other { s with tok := s.tok + 1 } _
  actors := kfJoined_pier s n fn bf t e Pier.actors fun _ _ => rfl
  sluices := kfJoined_pier s n fn bf t e Pier.sluices fun _ _ => rfl
  messages pk := ⟨kfJoined_pier s n fn bf t e Pier.inbox (fun _ _ => rfl) pk, kfJoined_pier s n fn bf t e Pier.outbox (fun _ _ => rfl) pk⟩
  control pk := ⟨kfJoined_pier s n fn bf t e Pier.wins (fun _ _ => rfl) pk, kfJoined_pier s n fn bf t e Pier.handlers (fun _ _ => rfl) pk,
    kfJoined_pier s n fn bf t e Pier.xlroot (fun _ _ => rfl) pk, kfJoined_pier s n fn bf t e Pier.divBusy (fun _ _ => rfl) pk⟩
  issue := rfl

end

theorem keystoneTriggers : Claims.KeystoneTriggers := by
  intro s m bf t i fn hf hi
  rw [exec_kfForm hi, runKf_fires hf]
  refine ⟨fun hh => by rw [if_pos ((kfHeld_iff ..).mpr hh)], fun n hn hm => ?_⟩
  have hh : ¬kfHeld s t Value.zero Value.zero = true := by
    rw [kfHeld_iff, hn]
    rintro (h | h)
    · cases h
    · exact absurd hm (Nat.not_lt.mpr h)
  rw [if_neg hh, hn, Option.getD_some]
  refine ⟨kfJoined s n fn bf t (kfInflight s t), rfl, ?_, ⟨kfInflight s t, ?_, rfl, rfl⟩, kfJoined_queue .., kfJoined_memory ..,
    kfJoined_frame ..⟩
  · rw [kfJoined_strand]
    exact fget_fset_same ..
  · rw [kfJoined_strand]
    exact fget_fset_same ..

/-! An acceptance (R190, R308, R309). -/

theorem kfVec_f32 (fn : Nat) (a : Vec) : kfVec fn false a = map1Vec .f32 (kfElem fn) a := by
  rw [kfVec, if_neg Bool.false_ne_true]

theorem kfVec_bf16 (fn : Nat) (a : Vec) :
    kfVec fn true a = map1Vec .bf16 (fun b => rne fmtBf16 (fvOf fmtFp32 (kfElem fn (b * 2 ^ 16)))) a := by rw [kfVec, if_pos rfl]

/-- A keystone's result has a valid lane where its operand has. -/
theorem mask_kfVec (fn : Nat) (bf : Bool) (a : Vec) : (kfVec fn bf a).mask = a.mask := by
  cases bf
  · rw [kfVec_f32, mask_map1Vec_f32]
  · rw [kfVec_bf16, mask_map1Vec_bf16]

/-- The pick goes through the rows in turn, from the one after the row served last; of the first row that has a request it takes the
oldest. -/
theorem kfPick_eq {s : State} {k : Keystone} {r : KReq} {pre post : List KReq} (hq : k.reqs = pre ++ r :: post)
    (after : KReq → Nat) (ha : ∀ q, after q = (siteOf s q.pk / 16 % 16 + 15 * (k.last + 1)) % 16)
    (hpre : ∀ q ∈ pre, after r < after q) (hpost : ∀ q ∈ post, after r ≤ after q) : kfPick s k = some r := by
  have hrow : ∀ q i, i < 16 → (siteOf s q.pk / 16 % 16 = (k.last + 1 + i) % 16 ↔ after q = i) := fun q i hi => by rw [ha]; omega
  have hr : after r < 16 := by rw [ha]; omega
  have hle : ∀ q ∈ k.reqs, after r ≤ after q := fun q hm => by
    rw [hq, List.mem_append, List.mem_cons] at hm
    obtain hm | rfl | hm := hm
    · exact (hpre q hm).le
    · exact le_rfl
    · exact hpost q hm
  have hearlier : ∀ i < after r, k.reqs.find? (fun q => siteOf s q.pk / 16 % 16 == (k.last + 1 + i) % 16) = none := fun i hi =>
    List.find?_eq_none.mpr fun q hm he => by
      have := (hrow q i (hi.trans hr)).mp (beq_iff_eq.mp he)
      have := hle q hm
      omega
  have hhere : k.reqs.find? (fun q => siteOf s q.pk / 16 % 16 == (k.last + 1 + after r) % 16) = some r := by
    rw [hq, List.find?_append, List.find?_eq_none.mpr, Option.none_or, List.find?_cons_of_pos]
    · exact beq_iff_eq.mpr ((hrow r _ hr).mpr rfl)
    · intro q hm he
      have := (hrow q _ hr).mp (beq_iff_eq.mp he)
      have := hpre q hm
      omega
  have hsplit : List.range 16 = List.range (after r) ++ after r :: (List.range (16 - (after r + 1))).map (after r + 1 + ·) := by
    conv_lhs => rw [show 16 = (after r + 1) + (16 - (after r + 1)) by omega, List.range_add, List.range_succ]
    simp
  rw [kfPick, List.findSome?_map, hsplit, List.findSome?_append, List.findSome?_eq_none_iff.mpr, Option.none_or]
  · rw [List.findSome?_cons, Function.comp, hhere]
  · exact fun i hi => hearlier i (List.mem_range.mp hi)

/-- Of requests with tokens of their own the one that is taken leaves the others. -/
theorem filter_taken {r : KReq} {pre post : List KReq} (h : ∀ q ∈ pre ++ post, q.tok ≠ r.tok) :
    (pre ++ r :: post).filter (fun q => !(q.tok == r.tok)) = pre ++ post := by
  rw [List.filter_append, List.filter_cons_of_neg (by simp), ← List.filter_append]
  exact List.filter_eq_self.mpr fun q hq => by simpa using h q hq

theorem keystoneAccepts : Claims.KeystoneAccepts := by
  intro s m k r pre post hq htok
  dsimp only
  intro hpre hpost
  have hp : kfPick s (getKs s m k) = some r := kfPick_eq hq
    (fun q => (siteOf s q.pk / 16 % 16 + 15 * ((getKs s m k).last + 1)) % 16) (fun _ => rfl) hpre hpost
  have hreqs : (getKs s m k).reqs = pre ++ r :: post := hq
  let v := kfVec r.fn r.bf (vecOf r.v)
  let ks : Keystone := { reqs := pre ++ post, last := siteOf s r.pk / 16 % 16 }
  let s' := schedule (setKs s m k ks) (s.cycle + 24) (.keystoneResult r.pk r.strand r.entry r.tok ⟨.vec v.row v.mask, r.v.poison⟩)
  have hks : fget (getMod s' m).keystones k {} = ks := by simp [s', setKs]
  refine ⟨s', v.row, v.mask, ?_, by rw [Claims.kfQueue, hks], by rw [hks], by simp [s', schedule], mask_kfVec ..,
    fun hbf i hi => ?_, fun hbf i hi => ?_, sameMemory_of_piers (by simp [s']) rfl⟩
  · simp only [exec_keystoneAccept, execKeystoneAccept, hp, hreqs, filter_taken htok]
    rfl
  · simp only [v, hbf, kfVec_f32]
    exact elem_map1Vec_f32 _ _ hi
  · simp only [v, hbf, kfVec_bf16]
    exact elem_map1Vec_bf16 _ _ hi

/-! A result (R81, R308). -/

/-- A value that lands changes the ports alone. -/
theorem landPort_eq (x : Strand) (idx tok : Nat) (v : Value) :
    landPort x idx tok (some v) = { x with res := if resPort x idx = .pending tok then fset x.res idx (.full v) else x.res } := by
  rw [landPort]
  split <;> rfl

/-- A port that does not wait for the operation keeps what it holds. -/
theorem resPort_landPort_other {x : Strand} {idx tok i : Nat} (v : Value) (hi : resPort x i ≠ .pending tok) :
    resPort (landPort x idx tok (some v)) i = resPort x i := by
  rw [landPort]
  split
  · rename_i h
    exact fget_fset_other _ _ _ _ _ fun e => hi (e ▸ h)
  · rfl

theorem resPort_landPort_same {x : Strand} {idx tok : Nat} (v : Value) (h : resPort x idx = .pending tok) :
    resPort (landPort x idx tok (some v)) idx = .full v := by
  rw [landPort, if_pos h]
  exact fget_fset_same ..

theorem keystoneResultLands : Claims.KeystoneResultLands := by
  intro s pk st entry tok v e he htok
  let f (x : Strand) : Strand := dropEntry (landPort x 0xA0 tok (some v)) entry
  have hx : exec (.keystoneResult pk st entry tok v) s = .next (adjStrand s pk st fun _ => f (getStrand s pk st)) := by
    simp only [exec_keystoneResult, execKeystoneResult, adjStrand, he, if_pos htok]
    rfl
  refine ⟨_, hx, ?_⟩
  rw [getStrand_adjStrand_same]
  refine ⟨fget_fdel_same .., resPort_landPort_same v, fun i hi => resPort_landPort_other v hi, ?_, sameMemory_of_code (by simp) ?_⟩
  · simp only [f, landPort_eq]
    exact sameRegs_res_inf ..
  · intro k
    by_cases hk : k = pk
    · subst hk
      simp [adjStrand, setStrand]
    · simp [adjStrand, setStrand, getPier_adjPier_other _ _ _ _ hk]

/-- Settles O28: a trigger joins, the keystone takes the first in turn, the result lands in the port that waits for it. -/
theorem keystones : Obligations.Keystones := ⟨keystoneTriggers, keystoneAccepts, keystoneResultLands⟩

end Sys2Proof.Machine
end

section
/-!
What the steps of Veiviush and of halts share: calendar entries that are added, events to the host, changes of one module.
-/

namespace Sys2Proof.Machine

/-! Steps on their way. -/

/-- The second state is the first with some steps added to its calendar. -/
structure Schedules (s t : State) : Prop where
  cal : ∀ e ∈ s.cal, e ∈ t.cal
  rest : t = { s with cal := t.cal, fresh := t.fresh }

theorem Schedules.refl (s : State) : Schedules s s := ⟨fun _ he => he, rfl⟩

theorem Schedules.trans {s t u : State} (h : Schedules s t) (k : Schedules t u) : Schedules s u :=
  ⟨fun e he => k.cal e (h.cal e he), by rw [k.rest, h.rest]⟩

theorem schedules_schedule (s : State) (due : Nat) (i : Instr) : Schedules s (schedule s due i) :=
  ⟨fun _ he => List.mem_append_left _ he, rfl⟩

theorem schedules_tick1 (s : State) : Schedules s (tick1 s) := ⟨fun _ he => he, rfl⟩

theorem schedules_launch (s : State) (lat : Nat) (i : Instr) : Schedules s (launch s lat i) := by
  unfold launch
  split
  · exact schedules_schedule ..
  · exact (schedules_schedule ..).trans (schedules_tick1 _)

theorem schedules_foldl {α : Type} {f : State → α → State} (hf : ∀ s a, Schedules s (f s a)) (l : List α) (s : State) :
    Schedules s (l.foldl f s) := by
  induction l generalizing s with
  | nil => exact .refl s
  | cons a l ih => exact (hf s a).trans (ih _)

section
variable {s t : State} (h : Schedules s t)
include h

theorem Schedules.cycle : t.cycle = s.cycle := by rw [h.rest]
theorem Schedules.agenda : t.agenda = s.agenda := by rw [h.rest]
theorem Schedules.mods : t.mods = s.mods := by rw [h.rest]
theorem Schedules.piers : t.piers = s.piers := by rw [h.rest]
theorem Schedules.walks : t.walks = s.walks := by rw [h.rest]
theorem Schedules.getMod (m : Nat) : getMod t m = getMod s m := by rw [Machine.getMod, h.mods, Machine.getMod]
theorem Schedules.getPier (pk : Nat) : getPier t pk = getPier s pk := by rw [Machine.getPier, h.piers, Machine.getPier]
theorem Schedules.memories : memories t = memories s := by
  rw [h.rest]
  exact memories_mk ..

end

/-- A step on its way stays on its way. -/
theorem Schedules.coming {s t u : State} {i : Instr} (h : Schedules t u) (hc : Claims.Coming s t i) : Claims.Coming s u i := by
  obtain ⟨due, hd, hm⟩ := hc
  exact ⟨due, hd, h.cal _ hm⟩

/-- A flit that takes some cycles is on its way. -/
theorem launch_coming (s : State) {lat : Nat} (hl : 0 < lat) (i : Instr) : Claims.Coming s (launch s lat i) i := by
  unfold launch
  split
  · exact ⟨s.cycle + 1, by omega, by simp [schedule]⟩
  · exact ⟨s.cycle + lat + Config.fabricWait s.fresh, by omega, by simp [schedule]⟩

/-- What one of the flits sent has put on its way is on its way behind all of them. -/
theorem coming_foldl {α : Type} {f : State → α → State} (hf : ∀ s a, Schedules s (f s a)) {l : List α} {a : α} (ha : a ∈ l)
    {i : Instr} {s : State} (hc : ∀ t, Schedules s t → Claims.Coming t (f t a) i) : Claims.Coming s (l.foldl f s) i := by
  induction l generalizing s with
  | nil => cases ha
  | cons b l ih =>
    obtain rfl | hl := List.mem_cons.mp ha
    · exact (schedules_foldl hf l _).coming (hc s (.refl s))
    · obtain ⟨due, hd, hm⟩ := ih hl fun t ht => hc t ((hf s b).trans ht)
      exact ⟨due, by rwa [(hf s b).cycle] at hd, hm⟩

/-! Events to the host (R261). -/

theorem wordBytes_eq (w : Word) : wordBytes w = Claims.bytes8 w := by
  have hb : ∀ n k, bytesOfNat n (w.toNat / 2 ^ k) = (List.range n).map fun i => w.extractLsb' (k + 8 * i) 8 := by
    intro n
    induction n with
    | zero => intro k; rfl
    | succ n ih =>
      intro k
      have hnext : w.toNat / 2 ^ k / 256 = w.toNat / 2 ^ (k + 8) := by rw [Nat.div_div_eq_div_mul, Nat.pow_add]
      rw [bytesOfNat, hnext, ih, List.range_succ_eq_map, List.map_cons, List.map_map]
      congr 1
      · exact BitVec.eq_of_toNat_eq (by simp [Nat.shiftRight_eq_div_pow])
      · refine List.map_congr_left fun i _ => ?_
        rw [Function.comp, Nat.mul_succ, Nat.add_assoc, Nat.add_comm 8]
  simpa [wordBytes, Claims.bytes8] using hb 8 0

/-- An event that is sent stands among the frames to the host. -/
theorem hostEvent_sendEvent (s : State) (m code : Nat) (job : BitVec 12) (data : List Byte) :
    Claims.HostEvent (sendEvent s m code job data) m job code data := by
  simp only [Claims.HostEvent, sendEvent, sendFrame, adjHost, getMod_adjMod_same]
  exact ⟨_, List.mem_append_right _ (List.mem_singleton_self _), rfl, rfl, rfl, rfl⟩

/-- It stands there as long as the frames stay. -/
theorem hostEvent_mono {s t : State} {m code : Nat} {job : BitVec 12} {data : List Byte}
    (h : (getMod s m).host.unacked ⊆ (getMod t m).host.unacked) (he : Claims.HostEvent s m job code data) :
    Claims.HostEvent t m job code data := by
  obtain ⟨f, hf, hrest⟩ := he
  exact ⟨f, h hf, hrest⟩

/-- An event changes the host port alone. -/
theorem getMod_sendEvent (s : State) (m code : Nat) (job : BitVec 12) (data : List Byte) :
    ∃ x, getMod (sendEvent s m code job data) m = { getMod s m with host := x } ∧ (getMod s m).host.unacked ⊆ x.unacked := by
  simp only [sendEvent, sendFrame, adjHost, getMod_adjMod_same]
  exact ⟨_, rfl, List.subset_append_left ..⟩

/-! Changes of one module. -/

theorem sameMemory_trans {s t u : State} (h : Claims.SameMemory s t) (k : Claims.SameMemory t u) :
    Claims.SameMemory s u :=
  ⟨fun m a => (k.hbm m a).trans (h.hbm m a), fun n a => (k.slice n a).trans (h.slice n a),
    fun pk a => (k.spad pk a).trans (h.spad pk a), fun pk a => (k.code pk a).trans (h.code pk a)⟩

end Sys2Proof.Machine
end

section
/-!
The begin of a halt (R221): who it waits for, and that it is sent to each of them.
-/

namespace Sys2Proof.Machine

/-- The halt that begins. -/
def haltOf (s : State) (m : Nat) (parts : List (Nat × List Nat)) (next : HaltNext) : Halt :=
  { parts, waiting := parts.flatMap fun x => x.2.flatMap fun hs => haltWho s m x.1 hs, start := s.cycle, next }

/-- One more halt under way on a module. -/
def addHalt (s : State) (m : Nat) (h : Halt) : State := adjMod s m fun x => { x with halts := x.halts ++ [h] }

/-- The halt sent to one whom it waits for. -/
def haltFlit (m : Nat) (s : State) (x : Nat × Nat) : State :=
  if x.2 < 1024 then launch s (latency s m .die m (placeOf s (pkOf m x.1 x.2))) (.haltAtPier (pkOf m x.1 x.2))
  else launch s (latency s m .die m (.abut (x.2 - 1024))) (.haltAtAbutment m x.1 (x.2 - 1024))

/-- A halt that waits for nobody ends in this cycle; any other is sent to all whom it waits for. -/
theorem startHalt_eq (s : State) (m : Nat) (parts : List (Nat × List Nat)) (next : HaltNext) :
    startHalt s m parts next =
      if (haltOf s m parts next).waiting = [] then nowDo (addHalt s m (haltOf s m parts next)) (.haltAck m 0 4096)
      else (haltOf s m parts next).waiting.foldl (haltFlit m) (addHalt s m (haltOf s m parts next)) := rfl

theorem schedules_haltFlit (m : Nat) (s : State) (x : Nat × Nat) : Schedules s (haltFlit m s x) := by
  unfold haltFlit
  split <;> exact schedules_launch ..

theorem latency_site_die (s : State) (m n : Nat) : 0 < latency s m (.site n) m .die := by
  rw [latency, if_pos rfl]
  exact Nat.add_pos_right _ (by decide)
theorem latency_die_site (s : State) (m n : Nat) : 0 < latency s m .die m (.site n) := by
  rw [latency, if_pos rfl]
  exact Nat.add_pos_right _ (by decide)
theorem latency_abut_die (s : State) (m a : Nat) : 0 < latency s m (.abut a) m .die := by
  rw [latency, if_pos rfl]
  exact Nat.add_pos_right _ (by decide)
theorem latency_die_abut (s : State) (m a : Nat) : 0 < latency s m .die m (.abut a) := by
  rw [latency, if_pos rfl]
  exact Nat.add_pos_right _ (by decide)

/-- Nothing but the halts of its module, the calendar and the agenda changes as a halt begins. -/
theorem startHalt_mods (s : State) (m : Nat) (parts : List (Nat × List Nat)) (next : HaltNext) :
    (startHalt s m parts next).mods = (addHalt s m (haltOf s m parts next)).mods := by
  rw [startHalt_eq]
  split
  · rfl
  · exact (schedules_foldl (schedules_haltFlit m) _ _).mods

theorem startHalt_piers (s : State) (m : Nat) (parts : List (Nat × List Nat)) (next : HaltNext) :
    (startHalt s m parts next).piers = s.piers := by
  rw [startHalt_eq]
  split
  · rfl
  · exact (schedules_foldl (schedules_haltFlit m) _ _).piers

theorem startHalt_memory (s : State) (m : Nat) (parts : List (Nat × List Nat)) (next : HaltNext) :
    Claims.SameMemory s (startHalt s m parts next) := sameMemory_of_piers (by simp [startHalt]) (startHalt_piers ..)

theorem getMod_startHalt (s : State) (m : Nat) (parts : List (Nat × List Nat)) (next : HaltNext) :
    getMod (startHalt s m parts next) m =
      { getMod s m with halts := (getMod s m).halts ++ [haltOf s m parts next] } := by
  rw [getMod, startHalt_mods]
  exact getMod_adjMod_same ..

theorem getPier_startHalt (s : State) (m : Nat) (parts : List (Nat × List Nat)) (next : HaltNext) (pk : Nat) :
    getPier (startHalt s m parts next) pk = getPier s pk := by rw [getPier, startHalt_piers, getPier]

/-- A halt that waits for somebody is on its way to each pier and abutment that it waits for. -/
theorem startHalt_coming {s : State} {m : Nat} {parts : List (Nat × List Nat)} {next : HaltNext} {x : Nat × Nat}
    (hx : x ∈ (haltOf s m parts next).waiting) {i : Instr}
    (hi : ∀ t, Claims.Coming t (haltFlit m t x) i) : Claims.Coming s (startHalt s m parts next) i := by
  rw [startHalt_eq, if_neg (List.ne_nil_of_mem hx)]
  exact coming_foldl (schedules_haltFlit m) (s := addHalt s m (haltOf s m parts next)) hx fun t _ => hi t

theorem haltFlit_pier (m part : Nat) {lp : Nat} (hl : lp < 1024) (t : State) :
    Claims.Coming t (haltFlit m t (part, lp)) (.haltAtPier (pkOf m part lp)) := by
  rw [haltFlit, if_pos hl]
  exact launch_coming _ (latency_die_site ..) _

theorem haltFlit_abut (m part a : Nat) (t : State) :
    Claims.Coming t (haltFlit m t (part, 1024 + a)) (.haltAtAbutment m part a) := by
  rw [haltFlit, if_neg (Nat.not_lt.mpr (Nat.le_add_right ..)), Nat.add_sub_cancel_left]
  exact launch_coming _ (latency_die_abut ..) _

/-! Who a halt waits for. -/

theorem mem_haltWho_pier {s : State} {m part hs pk : Nat} (hl : locOf s m part hs = .piers) (hp : pk ∈ piersAt s m part hs)
    (hf : (getPier s pk).fenced = false) (hlost : (getPier s pk).lost = false) : (part, pkLp pk) ∈ haltWho s m part hs := by
  rw [haltWho, if_pos hl]
  exact List.mem_append_left _ (List.mem_map.mpr ⟨pk, List.mem_filter.mpr ⟨hp, by simp [hf, hlost]⟩, rfl⟩)

theorem mem_haltWho_abut {s : State} {m part hs : Nat} (hl : locOf s m part hs = .piers) {i : Nat} (hi : i < 16) :
    (part, 1024 + hs * 16 + i) ∈ haltWho s m part hs := by
  rw [haltWho, if_pos hl]
  exact List.mem_append_right _ (List.mem_map.mpr ⟨i, List.mem_range.mpr hi, rfl⟩)

theorem haltOf_one (s : State) (m part hs : Nat) (next : HaltNext) :
    (haltOf s m [(part, [hs])] next).waiting = haltWho s m part hs := by simp [haltOf]

/-- The carriers of a partition are pier contexts of it. -/
theorem piersOf_pkOf {s : State} {m part pk : Nat} {q : Nat → Bool} (h : pk ∈ piersOf s m part q) :
    ∃ lp < 1024, pk = pkOf m part lp := by
  obtain ⟨e, he, rfl⟩ := List.mem_map.mp h
  obtain ⟨hv, hq⟩ := List.mem_filter.mp he
  simp only [Bool.and_eq_true, beq_iff_eq] at hq
  exact ⟨e.1, hq.1.2 ▸ Nat.mod_lt _ (by decide), rfl⟩

theorem pkLp_pkOf (m part : Nat) {lp : Nat} (h : lp < 1024) : pkLp (pkOf m part lp) = lp := by
  rw [pkLp, pkOf]
  omega

theorem pkOf_parts (pk : Nat) : pkOf (pkMod pk) (pkPart pk) (pkLp pk) = pk := by
  rw [pkOf, pkMod, pkPart, pkLp]
  omega

theorem pkLp_lt (pk : Nat) : pkLp pk < 1024 := Nat.mod_lt _ (by decide)

/-! The resident partitions of half-spans. -/

theorem residentAt_some {s : State} {m hs p : Nat} (h : residentAt s m hs = some p) : p < 8 ∧ locOf s m p hs = .piers :=
  ⟨List.mem_range.mp (List.mem_of_find?_eq_some h),
    beq_iff_eq.mp (List.find?_some (p := fun p => fget (getPart s m p).loc hs .none == .piers) h)⟩

theorem rowParts_eq (s : State) (m span row : Nat) : rowParts s m span row = residentParts s m [span * 2 + row / 8] := by
  rw [rowParts, residentParts, List.filterMap_cons, List.filterMap_nil]
  cases residentAt s m (span * 2 + row / 8) <;> rfl

/-- A halt of the resident partitions of some half-spans waits for somebody where there is one. -/
theorem haltOf_resident_waits {s : State} {m : Nat} {hss : List Nat} {hs : Nat} (hm : hs ∈ hss) (hr : residentAt s m hs ≠ none)
    (next : HaltNext) : (haltOf s m (residentParts s m hss) next).waiting ≠ [] := by
  obtain ⟨p, hp⟩ := Option.ne_none_iff_exists'.mp hr
  refine List.ne_nil_of_mem (a := (p, 1024 + hs * 16 + 0)) (List.mem_flatMap.mpr ⟨(p, [hs]), ?_, ?_⟩)
  · exact List.mem_filterMap.mpr ⟨hs, hm, by rw [hp]; rfl⟩
  · exact List.mem_flatMap.mpr ⟨hs, List.mem_singleton_self _, mem_haltWho_abut (residentAt_some hp).2 (by decide)⟩

/-- Where no partition is resident it waits for nobody. -/
theorem haltOf_resident_empty {s : State} {m : Nat} {hss : List Nat} (h : ∀ hs ∈ hss, residentAt s m hs = none) (next : HaltNext) :
    (haltOf s m (residentParts s m hss) next).waiting = [] := by
  have hp : residentParts s m hss = [] := List.filterMap_eq_nil_iff.mpr fun hs hm => by rw [h hs hm]; rfl
  rw [hp]
  rfl

end Sys2Proof.Machine
end

section
/-!
The spares (O54): a command waits while another is applied, begins behind a halt or retrains its port, and is told to the host.
-/

namespace Sys2Proof.Machine

/-! Changes that stay within one module and leave its partitions, groups and gang schedule. -/

theorem onlyVeiv_trans {s t u : State} {m : Nat} (h : Claims.OnlyVeiv s t m) (k : Claims.OnlyVeiv t u m) : Claims.OnlyVeiv s u m := by
  obtain ⟨hp, hs, hj, hw, hi⟩ := h.piers
  obtain ⟨kp, ks, kj, kw, ki⟩ := k.piers
  obtain ⟨hparts, hgroups, hgang⟩ := h.parts
  obtain ⟨kparts, kgroups, kgang⟩ := k.parts
  exact ⟨sameMemory_trans h.memory k.memory, ⟨kp.trans hp, ks.trans hs, kj.trans hj, kw.trans hw, ki.trans hi⟩,
    fun n hn => (k.mods n hn).trans (h.mods n hn), kparts.trans hparts, kgroups.trans hgroups, kgang.trans hgang⟩

theorem onlyVeiv_adjMod (s : State) (m : Nat) (f : Module → Module) (hm : ∀ x, (f x).hbm = x.hbm)
    (hf : ∀ x, (f x).parts = x.parts ∧ (f x).groups = x.groups ∧ (f x).gang = x.gang) : Claims.OnlyVeiv s (adjMod s m f) m where
  memory := sameMemory_of_piers (memories_adjMod s m f hm) rfl
  piers := ⟨rfl, rfl, rfl, rfl, rfl⟩
  mods k hk := getMod_adjMod_other s m k f hk
  parts := by
    rw [getMod_adjMod_same]
    exact hf _

/-- A change of ports. -/
theorem onlyVeiv_ports (s : State) (m : Nat) (f : FMap Port → FMap Port) :
    Claims.OnlyVeiv s (adjMod s m fun x => { x with ports := f x.ports }) m :=
  onlyVeiv_adjMod s m _ (fun _ => rfl) fun _ => ⟨rfl, rfl, rfl⟩

theorem onlyVeiv_adjVeiv (s : State) (m : Nat) (f : Veiv → Veiv) : Claims.OnlyVeiv s (adjVeiv s m f) m :=
  onlyVeiv_adjMod s m _ (fun _ => rfl) fun _ => ⟨rfl, rfl, rfl⟩

theorem onlyVeiv_sendEvent (s : State) (m code : Nat) (job : BitVec 12) (data : List Byte) :
    Claims.OnlyVeiv s (sendEvent s m code job data) m := by
  unfold sendEvent sendFrame adjHost
  exact onlyVeiv_adjMod s m _ (fun _ => rfl) fun _ => ⟨rfl, rfl, rfl⟩

/-- Work that is added to the calendar or the agenda is no change of a module. -/
theorem onlyVeiv_work (s : State) (m : Nat) (agenda : List Work) (cal : List (Nat × Instr)) (fresh : Nat) :
    Claims.OnlyVeiv s { s with agenda, cal, fresh } m :=
  ⟨⟨fun _ _ => rfl, fun _ _ => rfl, fun _ _ => rfl, fun _ _ => rfl⟩, ⟨rfl, rfl, rfl, rfl, rfl⟩, fun _ _ => rfl, rfl, rfl, rfl⟩

/-! The words of the statement, as the model computes them. -/

theorem sparing_iff (s : State) (m : Nat) : sparing s m = true ↔ Claims.Sparing s m := by
  rw [sparing, Bool.or_eq_true, List.any_eq_true, List.any_eq_true, Claims.Sparing]
  refine or_congr (exists_congr fun h => and_congr_right fun _ => ?_) Iff.rfl
  cases h.next <;> simp

theorem portLinked_iff (s : State) {p : Nat} : portLinked s p = true ↔ Claims.linked s p := by
  rw [portLinked, Claims.linked, bne_iff_ne]
  match hp : p / 2 with
  | 0 => simp
  | 1 => simp
  | n + 2 => simp

theorem not_sparing {s : State} {m : Nat} (h : ¬Claims.Sparing s m) : sparing s m = false :=
  Bool.eq_false_iff.mpr fun he => h ((sparing_iff s m).mp he)

/-- A module on which nothing is replaced. -/
theorem noSpare_sparing {s : State} {m : Nat} (h : Claims.NoSpare s m) : ¬Claims.Sparing s m := by
  obtain ⟨hh, hp, -⟩ := h
  rintro (⟨h, hm, -⟩ | ⟨p, hm, hr⟩)
  · rw [hh] at hm
    cases hm
  · rw [hp p hm] at hr
    cases hr

/-! A spare command, of its kind and unit. -/

/-- The four steps by which a spare is applied, with the kind and the unit of each (R266). -/
inductive IsSpare (m : Nat) : Instr → Nat → Nat → Prop
  | row {span row : Nat} (hs : span < 4) (hr : row < 16) : IsSpare m (.sparePierRow m span row) 1 (span + row * 256)
  | abut {a : Nat} (ha : a < 128) : IsSpare m (.spareAbutment m a) 2 a
  | lane {p l : Nat} (hp : p < 6) (hl : l < 18) : IsSpare m (.spareTorusLane m p l) 3 (p + l * 256)
  | channel {st c : Nat} (hst : st < 8) (hc : c < 128) : IsSpare m (.spareHbmPc m st c) 4 (st + c * 256)

/-- The fields of a unit word of two numbers. -/
theorem unit_fields {n k a b : Nat} (ha : a < 2 ^ n) (hn : n ≤ 8) (hb : b < 2 ^ k) (hk : k ≤ 8) :
    (BitVec.ofNat 64 (a + b * 256)).toNat = a + b * 256 ∧ bits (BitVec.ofNat 64 (a + b * 256)) 0 n = a ∧
      bits (BitVec.ofNat 64 (a + b * 256)) 8 k = b := by
  have ha8 : a < 256 := Nat.lt_of_lt_of_le ha (Nat.pow_le_pow_right Nat.two_pos hn : 2 ^ n ≤ 2 ^ 8)
  have hb8 : b < 256 := Nat.lt_of_lt_of_le hb (Nat.pow_le_pow_right Nat.two_pos hk : 2 ^ k ≤ 2 ^ 8)
  have hw : (BitVec.ofNat 64 (a + b * 256)).toNat = a + b * 256 := by
    rw [BitVec.toNat_ofNat]
    omega
  have h256 : 256 = 2 ^ n * 2 ^ (8 - n) := by rw [← Nat.pow_add, Nat.add_sub_cancel' hn]
  refine ⟨hw, ?_, ?_⟩
  · rw [bits, hw, Nat.pow_zero, Nat.div_one, h256, ← Nat.mul_assoc, Nat.mul_right_comm, Nat.add_mul_mod_self_right, Nat.mod_eq_of_lt ha]
  · have hdiv : (a + b * 256) / 2 ^ 8 = b := by omega
    rw [bits, hw, hdiv, Nat.mod_eq_of_lt hb]

section
variable {m kind u : Nat} {i : Instr} (h : IsSpare m i kind u) (s : State)
include h

/-- Its step applies the spare of that unit. -/
theorem IsSpare.exec_eq : exec i s = .next (spareStep s m kind (BitVec.ofNat 64 u)) := by
  cases h <;> rfl

theorem IsSpare.unitOk : spareUnitOk kind (BitVec.ofNat 64 u) = true := by
  cases h with
  | row hs hr =>
    obtain ⟨hw, hlow, hhigh⟩ := unit_fields (n := 2) hs (by decide) (k := 4) hr (by decide)
    simp [spareUnitOk, hw, hlow, hhigh]
  | abut ha =>
    have hw : (BitVec.ofNat 64 u).toNat = u := by rw [BitVec.toNat_ofNat]; omega
    simp [spareUnitOk, bits, hw, Nat.mod_eq_of_lt ha]
  | lane hp hl =>
    obtain ⟨hw, hlow, hhigh⟩ := unit_fields (n := 3) (hp.trans (by decide)) (by decide) (k := 5) (hl.trans (by decide)) (by decide)
    simp [spareUnitOk, hw, hlow, hhigh, Nat.le_of_lt_succ hp, Nat.le_of_lt_succ hl]
  | channel hst hc =>
    obtain ⟨hw, hlow, hhigh⟩ := unit_fields (n := 3) hst (by decide) (k := 7) hc (by decide)
    simp [spareUnitOk, hw, hlow, hhigh]

theorem IsSpare.left : spareLeft s m kind (BitVec.ofNat 64 u) = true ↔ Claims.SpareLeft s m kind (BitVec.ofNat 64 u) := by
  cases h with
  | row hs hr => simp [spareLeft, Claims.SpareLeft, bits, Claims.fld]
  | abut ha =>
    have hf : Claims.fld (BitVec.ofNat 64 u) 4 3 = bits (BitVec.ofNat 64 u) 0 7 / 16 := by
      rw [Claims.fld, bits]
      omega
    simp [spareLeft, Claims.SpareLeft, hf]
  | lane hp hl => simp [spareLeft, Claims.SpareLeft, bits, Claims.fld]
  | channel hst hc => simp [spareLeft, Claims.SpareLeft, bits, Claims.fld]

/-- A spare that comes while another is applied, or others wait, waits. -/
theorem IsSpare.waits (hb : Claims.Sparing s m ∨ (getMod s m).veiv.spareQueue ≠ []) :
    exec i s = .next (adjVeiv s m fun v => { v with spareQueue := v.spareQueue ++ [(kind, BitVec.ofNat 64 u)] }) := by
  rw [← sparing_iff] at hb
  rw [h.exec_eq, spareStep, h.unitOk, if_neg (by decide), if_pos hb]

/-- Any other is applied at once where one of its kind is left. -/
theorem IsSpare.applied (hs : ¬Claims.Sparing s m) (hq : (getMod s m).veiv.spareQueue = []) :
    exec i s = .next (spareIfLeft s m (kind, BitVec.ofNat 64 u)) := by
  have hb : ¬(sparing s m = true ∨ (getMod s m).veiv.spareQueue ≠ []) := by simp [not_sparing hs, hq]
  rw [h.exec_eq, spareStep, h.unitOk, if_neg (by decide), if_neg hb]

/-- What stands alone in the queue is applied by the turn as by a command that finds nothing under way. -/
theorem IsSpare.turn (hq : (getMod s m).veiv.spareQueue = [(kind, BitVec.ofNat 64 u)]) (hs : ¬Claims.Sparing s m) :
    exec i (adjVeiv s m fun v => { v with spareQueue := [] }) = .next (spareTurn s m) := by
  have ht : spareTurn s m = spareIfLeft (adjVeiv s m fun v => { v with spareQueue := [] }) m (kind, BitVec.ofNat 64 u) := by
    simp [spareTurn, hq, not_sparing hs]
  rw [ht]
  refine h.applied _ ?_ (by simp [adjVeiv])
  rwa [Claims.Sparing, adjVeiv, getMod_adjMod_same]

end

theorem spareTurn_waits {s : State} {m : Nat} (hs : Claims.Sparing s m) : spareTurn s m = s := by
  unfold spareTurn
  split
  · rfl
  · rw [if_pos ((sparing_iff s m).mpr hs)]

/-! A spare behind a halt (R235, R266). -/

/-- The spares that are applied behind a halt: the half-spans whose resident partitions are halted, and what follows. -/
inductive Behind (m : Nat) : Instr → Nat → Nat → List Nat → HaltNext → Prop
  | row {span row : Nat} (hs : span < 4) (hr : row < 16) :
    Behind m (.sparePierRow m span row) 1 (span + row * 256) [span * 2 + row / 8] (.row span row)
  | abut {a : Nat} (ha : a < 128) : Behind m (.spareAbutment m a) 2 a [a / 32 * 2, a / 32 * 2 + 1] (.abut a)
  | channel {st c : Nat} (hst : st < 8) (hc : c < 128) :
    Behind m (.spareHbmPc m st c) 4 (st + c * 256) (List.range 8) (.channel st c)

section
variable {m kind u : Nat} {i : Instr} {hss : List Nat} {next : HaltNext} (h : Behind m i kind u hss next)
include h

theorem Behind.isSpare : IsSpare m i kind u := by
  cases h with
  | row hs hr => exact .row hs hr
  | abut ha => exact .abut ha
  | channel hst hc => exact .channel hst hc

theorem Behind.spareDo (s : State) : spareDo s m kind (BitVec.ofNat 64 u) = startHalt s m (residentParts s m hss) next := by
  cases h with
  | row hs hr =>
    obtain ⟨-, hlow, hhigh⟩ := unit_fields (n := 2) hs (by decide) (k := 4) hr (by decide)
    simp only [Machine.spareDo, spareRow, hlow, hhigh, rowParts_eq]
  | abut ha =>
    have hb : bits (BitVec.ofNat 64 u) 0 7 = u := by
      rw [bits, BitVec.toNat_ofNat]
      omega
    simp only [Machine.spareDo, spareAbut, hb]
  | channel hst hc =>
    obtain ⟨-, hlow, hhigh⟩ := unit_fields (n := 3) hst (by decide) (k := 7) hc (by decide)
    simp only [Machine.spareDo, spareChannel, hlow, hhigh]

/-- Where a spare is left and nothing is replaced, the halt of the resident partitions begins. -/
theorem Behind.exec {s : State} (hl : Claims.SpareLeft s m kind (BitVec.ofNat 64 u)) (hn : Claims.NoSpare s m) :
    exec i s = .next (startHalt s m (residentParts s m hss) next) := by
  rw [h.isSpare.applied s (noSpare_sparing hn) hn.2.2, spareIfLeft, if_pos ((h.isSpare.left s).mpr hl), h.spareDo]

end

/-- A halt that a spare follows is the one halt of its module. -/
theorem startHalt_spare {s : State} {m : Nat} (hh : (getMod s m).halts = []) (parts : List (Nat × List Nat)) (next : HaltNext) :
    (getMod (startHalt s m parts next) m).halts = [haltOf s m parts next] := by
  rw [getMod_startHalt, hh, List.nil_append]

/-- A halt that waits for nobody ends in its cycle. -/
theorem startHalt_ends {s : State} {m : Nat} {parts : List (Nat × List Nat)} {next : HaltNext}
    (h : (haltOf s m parts next).waiting = []) : Work.ev (.haltAck m 0 4096) ∈ (startHalt s m parts next).agenda := by
  rw [startHalt_eq, if_pos h]
  exact List.mem_append_right _ (List.mem_singleton_self _)

/-! Torus lanes (R249, R266). -/

/-- A port with a lane replaced. -/
def laneSpared (lane : Nat) (on : Bool) (due : Nat) (p : Port) : Port :=
  { p with spared := p.spared ++ [lane], retraining := on, retrainEnd := if on then due else p.retrainEnd }

/-- The state after a lane is replaced, but for the end of the retraining. -/
def laneTold (s : State) (m port lane due : Nat) : State :=
  spareEvent (adjMod s m fun x => { x with ports := fadj x.ports port {} (laneSpared lane (portLinked s port) due) }) m 3
    (BitVec.ofNat 64 (port + lane * 2 ^ 8))

/-- The cycle in which a port that begins to retrain now has retrained. -/
def retrained (s : State) : Nat := s.cycle + 1 + Config.latency s.fresh % 420000

theorem spareLane_eq (s : State) (m port lane : Nat) : spareLane s m port lane =
    if portLinked s port then tick1 (schedule (laneTold s m port lane (retrained s)) (retrained s) (.portRetrainComplete m port))
    else laneTold s m port lane (retrained s) := rfl

theorem retrained_bounds (s : State) : s.cycle < retrained s ∧ retrained s ≤ s.cycle + 420000 := by
  rw [retrained]
  omega

theorem port_laneTold (s : State) (m port lane due : Nat) : fget (getMod (laneTold s m port lane due) m).ports port {} =
    laneSpared lane (portLinked s port) due (fget (getMod s m).ports port {}) := by
  obtain ⟨x, hx, -⟩ := getMod_sendEvent (adjMod s m fun x =>
    { x with ports := fadj x.ports port {} (laneSpared lane (portLinked s port) due) }) m 0x12 0
      (wordBytes (BitVec.ofNat 64 3) ++ wordBytes (BitVec.ofNat 64 (port + lane * 2 ^ 8)))
  rw [laneTold, spareEvent, hx, getMod_adjMod_same]
  exact fget_fset_same ..

/-- The modules of the state after a lane is replaced; only the calendar still tells a port with a link from one without. -/
theorem spareLane_mods (s : State) (m port lane : Nat) : (spareLane s m port lane).mods = (laneTold s m port lane (retrained s)).mods := by
  rw [spareLane_eq]
  split <;> rfl

theorem port_spareLane (s : State) (m port lane : Nat) : fget (getMod (spareLane s m port lane) m).ports port {} =
    laneSpared lane (portLinked s port) (retrained s) (fget (getMod s m).ports port {}) := by
  rw [getMod, spareLane_mods]
  exact port_laneTold ..

theorem spareLane_told (s : State) (m port lane : Nat) : Claims.spareTold (spareLane s m port lane) m 3 (port + lane * 256) := by
  refine hostEvent_mono (s := laneTold s m port lane (retrained s)) ?_ ?_
  · rw [getMod, getMod, spareLane_mods]
    exact List.Subset.refl _
  · rw [← wordBytes_eq, ← wordBytes_eq]
    exact hostEvent_sendEvent ..

theorem spareLane_onlyVeiv (s : State) (m port lane : Nat) : Claims.OnlyVeiv s (spareLane s m port lane) m := by
  have ht : Claims.OnlyVeiv s (laneTold s m port lane (retrained s)) m :=
    onlyVeiv_trans (onlyVeiv_ports s m fun l => fadj l port {} (laneSpared lane (portLinked s port) (retrained s)))
      (onlyVeiv_sendEvent ..)
  rw [spareLane_eq]
  split
  · exact onlyVeiv_trans ht (onlyVeiv_work _ m _ _ _)
  · exact ht

/-! The settling of the statement. -/

/-- A lane of a port is replaced at once, with its port retraining where it has a link. -/
theorem spareTorusLane_applied {s : State} {m p l : Nat} (hp : p < 6) (hl : l < 18)
    (hsp : (fget (getMod s m).ports p {}).spared.length < 2) (hn : Claims.NoSpare s m) :
    exec (.spareTorusLane m p l) s = .next (spareLane s m p l) := by
  have h : IsSpare m (.spareTorusLane m p l) 3 (p + l * 256) := .lane hp hl
  obtain ⟨-, hlow, hhigh⟩ := unit_fields (n := 3) (hp.trans (by decide)) (by decide) (k := 5) (hl.trans (by decide)) (by decide)
  have hleft : spareLeft s m 3 (BitVec.ofNat 64 (p + l * 256)) = true := by simpa [spareLeft, hlow] using hsp
  rw [h.applied s (noSpare_sparing hn) hn.2.2, spareIfLeft, if_pos hleft]
  simp only [spareDo, hlow, hhigh]

/-- A port that has retrained. -/
theorem portRetrainComplete_port (s : State) (m p : Nat) :
    ∃ s', exec (.portRetrainComplete m p) s = .next s' ∧
      fget (getMod s' m).ports p {} = { fget (getMod s m).ports p {} with retraining := false } ∧ Claims.OnlyVeiv s s' m ∧
      (getMod s' m).veiv = (getMod s m).veiv := by
  refine ⟨_, rfl, ?_, onlyVeiv_ports s m fun l => fadj l p {} fun p => { p with retraining := false }, ?_⟩
  · rw [getMod_adjMod_same]
    exact fget_fset_same ..
  · rw [getMod_adjMod_same]

/-- A lane noted as failed. -/
def laneFailed (s : State) (m p l : Nat) : State :=
  adjMod s m fun x => { x with ports := fadj x.ports p {} fun p => { p with failed := p.failed ++ [l] } }

theorem port_laneFailed (s : State) (m p l : Nat) : fget (getMod (laneFailed s m p l) m).ports p {} =
    { fget (getMod s m).ports p {} with failed := (fget (getMod s m).ports p {}).failed ++ [l] } := by
  rw [laneFailed, getMod_adjMod_same]
  exact fget_fset_same ..

theorem execTorusLaneFailure_eq (s : State) (m p l : Nat) (hk : portLinked s p = true) : execTorusLaneFailure m p l s =
    .next (if goodLanes (getMod (laneFailed s m p l) m) p < 16 then nowDo (laneFailed s m p l) (.portDown m p)
      else if (fget (getMod (laneFailed s m p l) m).ports p {}).spared.length < 2 then spareLane (laneFailed s m p l) m p l
      else laneFailed s m p l) := by
  rw [execTorusLaneFailure, hk]
  rfl

theorem goodLanes_lt (x : Module) (p : Nat) : goodLanes x p < 16 ↔ 2 < (fget x.ports p {}).failed.eraseDups.length := by
  rw [goodLanes]
  omega

/-- A lane of a port with a link fails. -/
theorem torusLaneFailure_linked {s : State} {m p l : Nat} (hk : portLinked s p = true) :
    let port (t : State) : Port := fget (getMod t m).ports p {}
    ∃ s', exec (.torusLaneFailure m p l) s = .next s' ∧ Claims.OnlyVeiv s s' m ∧ (port s').failed = (port s).failed ++ [l] ∧
      (2 < ((port s).failed ++ [l]).eraseDups.length → s'.agenda = s.agenda ++ [.ev (.portDown m p)]) ∧
      (((port s).failed ++ [l]).eraseDups.length ≤ 2 → (port s).spared.length < 2 →
        (port s').spared = (port s).spared ++ [l] ∧ (port s').retraining = true ∧ Claims.spareTold s' m 3 (p + l * 256)) := by
  intro port
  have hport := port_laneFailed s m p l
  have hlost := goodLanes_lt (getMod (laneFailed s m p l) m) p
  have hfailed : Claims.OnlyVeiv s (laneFailed s m p l) m :=
    onlyVeiv_ports s m fun x => fadj x p {} fun p => { p with failed := p.failed ++ [l] }
  simp only [hport] at hlost
  rw [exec_torusLaneFailure, execTorusLaneFailure_eq s m p l hk, hport]
  refine ⟨_, rfl, ?_⟩
  split_ifs with hdown hsp
  · refine ⟨onlyVeiv_trans hfailed (onlyVeiv_work _ m _ _ _), congrArg Port.failed hport, fun _ => rfl, fun hle => ?_⟩
    exact absurd (hlost.mp hdown) (Nat.not_lt.mpr hle)
  · have hspared := port_spareLane (laneFailed s m p l) m p l
    rw [hport] at hspared
    refine ⟨onlyVeiv_trans hfailed (spareLane_onlyVeiv ..), congrArg Port.failed hspared, fun hlt => absurd (hlost.mpr hlt) hdown,
      fun _ _ => ⟨congrArg Port.spared hspared, ?_, spareLane_told ..⟩⟩
    exact (congrArg Port.retraining hspared).trans hk
  · exact ⟨hfailed, congrArg Port.failed hport, fun hlt => absurd (hlost.mpr hlt) hdown, fun _ hlt => absurd hlt hsp⟩

/-- A port with too few good lanes is down, and the host hears of it. -/
theorem portDown_told {s : State} {m p : Nat} (hf : 2 < (fget (getMod s m).ports p {}).failed.eraseDups.length)
    (hd : (fget (getMod s m).ports p {}).down = false) :
    ∃ s', exec (.portDown m p) s = .next s' ∧
      fget (getMod s' m).ports p {} = { fget (getMod s m).ports p {} with down := true } ∧ Claims.OnlyVeiv s s' m ∧
      Claims.HostEvent s' m 0 (Config.reportCode 1) (Claims.bytes8 (BitVec.ofNat 64 p)) := by
  let s1 := adjMod s m fun x => { x with ports := fadj x.ports p {} fun p => { p with down := true } }
  have hx : exec (.portDown m p) s = .next (sendEvent s1 m (Config.reportCode 1) 0 (wordBytes (BitVec.ofNat 64 p))) := by
    rw [exec_portDown, execPortDown, if_pos ⟨(goodLanes_lt ..).mpr hf, hd⟩]
    rfl
  refine ⟨_, hx, ?_, ?_, ?_⟩
  · obtain ⟨y, hy, -⟩ := getMod_sendEvent s1 m (Config.reportCode 1) 0 (wordBytes (BitVec.ofNat 64 p))
    rw [hy, getMod_adjMod_same]
    exact fget_fset_same ..
  · exact onlyVeiv_trans (onlyVeiv_ports s m fun x => fadj x p {} fun p => { p with down := true }) (onlyVeiv_sendEvent ..)
  · rw [← wordBytes_eq]
    exact hostEvent_sendEvent ..

/-- Settles O54: a spare waits, does nothing, or begins, by what is under way and what is left of its kind. -/
theorem sparesApplied : Obligations.SparesApplied := by
  intro s m v port halting spares next
  have hbehind : ∀ i kind u busy nx, (i, kind, u, busy, nx) ∈ halting → ∃ hss n, Behind m i kind u hss n ∧ nx = (· = n) ∧
      busy = ∃ hs ∈ hss, residentAt s m hs ≠ none := by
    intro i kind u busy nx h
    obtain h | h := List.mem_append.mp h
    · obtain h | h := List.mem_append.mp h
      · obtain ⟨span, hs, h⟩ := List.mem_flatMap.mp h
        obtain ⟨row, hr, he⟩ := List.mem_map.mp h
        cases he
        exact ⟨_, _, .row (List.mem_range.mp hs) (List.mem_range.mp hr), rfl, by simp⟩
      · obtain ⟨a, ha, he⟩ := List.mem_map.mp h
        cases he
        exact ⟨_, _, .abut (List.mem_range.mp ha), rfl, by simp⟩
    · obtain ⟨st, hst, h⟩ := List.mem_flatMap.mp h
      obtain ⟨c, hc, he⟩ := List.mem_map.mp h
      cases he
      exact ⟨_, _, .channel (List.mem_range.mp hst) (List.mem_range.mp hc), rfl, by simp⟩
  have hspare : ∀ i kind u, (i, kind, u) ∈ spares → IsSpare m i kind u := by
    intro i kind u h
    obtain h | h := List.mem_append.mp h
    · obtain ⟨⟨_, _, _, busy, nx⟩, hx, he⟩ := List.mem_map.mp h
      cases he
      obtain ⟨_, _, hb, -⟩ := hbehind _ _ _ _ _ hx
      exact hb.isSpare
    · obtain ⟨p, hp, h⟩ := List.mem_flatMap.mp h
      obtain ⟨l, hl, he⟩ := List.mem_map.mp h
      cases he
      exact .lane (List.mem_range.mp hp) (List.mem_range.mp hl)
  refine ⟨fun i kind u h => ?_, fun i kind u busy nx h hleft hn => ?_, fun p l hp hl => ?_⟩
  · have hi := hspare i kind u h
    refine ⟨fun hb => ⟨_, hi.waits s hb, onlyVeiv_adjVeiv .., rfl, rfl, congrArg Module.veiv (getMod_adjMod_same ..)⟩,
      fun hs hq hl => ?_, fun hq => ⟨spareTurn_waits, hi.turn s hq⟩⟩
    rw [hi.applied s hs hq, spareIfLeft, if_neg (mt (hi.left s).mp hl)]
  · obtain ⟨hss, n, hb, rfl, rfl⟩ := hbehind i kind u busy nx h
    refine ⟨_, _, hb.exec hleft hn, startHalt_spare hn.1 _ n, rfl, startHalt_memory .., ?_, fun hnone => ?_⟩
    · rintro ⟨hs, hm, hr⟩
      exact haltOf_resident_waits hm hr n
    · have hw := haltOf_resident_empty (fun hs hm => by_contra fun hr => hnone ⟨hs, hm, hr⟩) n
      exact ⟨hw, startHalt_ends hw⟩
  · refine ⟨fun hsp hn => ?_, portRetrainComplete_port s m p, fun hk => ?_, fun hk => torusLaneFailure_linked ((portLinked_iff s).mpr hk),
      fun hf _ hd => portDown_told hf hd⟩
    · have hport := port_spareLane s m p l
      refine ⟨_, spareTorusLane_applied hp hl hsp hn, spareLane_onlyVeiv .., congrArg Port.spared hport, spareLane_told .., fun hk => ?_,
        fun hk => ?_⟩
      · have hoff : portLinked s p = false := Bool.eq_false_iff.mpr (mt (portLinked_iff s).mp hk)
        refine ⟨(congrArg Port.retraining hport).trans hoff, ?_⟩
        rw [spareLane_eq, hoff]
        rfl
      · have hon : portLinked s p = true := (portLinked_iff s).mpr hk
        refine ⟨(congrArg Port.retraining hport).trans hon, retrained s, (retrained_bounds s).1, (retrained_bounds s).2, ?_, ?_⟩
        · exact (congrArg Port.retrainEnd hport).trans (if_pos hon)
        · rw [spareLane_eq, if_pos hon]
          exact List.mem_append_right _ (List.mem_singleton_self _)
    · rw [exec_torusLaneFailure, execTorusLaneFailure, if_pos (Bool.eq_false_iff.mpr (mt (portLinked_iff s).mp hk))]
      rfl

end Sys2Proof.Machine
end

section
/-!
Halts at piers and at the job controller (O46): a halt is sent, a pier drains and acknowledges, the last acknowledgement ends the halt.
-/

namespace Sys2Proof.Machine

/-! A partition is halted (R221 step 1). -/

theorem partitionHalt_begins {s : State} {m part hs : Nat} (hl : locOf s m part hs = .piers) :
    ∃ s' h, exec (.partitionHalt m part hs) s = .next s' ∧ (getMod s' m).halts = (getMod s m).halts ++ [h] ∧ h.start = s.cycle ∧
      (∀ pk ∈ piersAt s m part hs, (getPier s pk).fenced = false → (getPier s pk).lost = false →
        (part, pkLp pk) ∈ h.waiting ∧ Claims.Coming s s' (.haltAtPier (pkOf m part (pkLp pk)))) ∧
      (∀ i < 16, (part, 1024 + hs * 16 + i) ∈ h.waiting ∧ Claims.Coming s s' (.haltAtAbutment m part (hs * 16 + i))) ∧
      Claims.SameMemory s s' := by
  refine ⟨startHalt s m [(part, [hs])] .stay, haltOf s m [(part, [hs])] .stay, rfl, by rw [getMod_startHalt], rfl,
    fun pk hp hf hlost => ?_, fun i hi => ?_, startHalt_memory ..⟩
  · have hw : (part, pkLp pk) ∈ (haltOf s m [(part, [hs])] .stay).waiting := by
      rw [haltOf_one]
      exact mem_haltWho_pier hl hp hf hlost
    exact ⟨hw, startHalt_coming hw (haltFlit_pier m part (pkLp_lt pk))⟩
  · have hw : (part, 1024 + hs * 16 + i) ∈ (haltOf s m [(part, [hs])] .stay).waiting := by
      rw [haltOf_one]
      exact mem_haltWho_abut hl hi
    exact ⟨hw, startHalt_coming hw (by rw [Nat.add_assoc]; exact haltFlit_abut m part _)⟩

/-! A halt reaches a pier (R221 steps 2, 3 and 5). -/

theorem haltWaits_of_mem {s : State} {m : Nat} {h : Halt} {x : Nat × Nat} (hh : (getMod s m).halts = [h]) (hx : x ∈ h.waiting) :
    haltWaits s m x = true := by simpa [haltWaits, hh] using hx

theorem haltWaits_of_waits {s : State} {m part who : Nat} {h : Halt} (hw : Claims.HaltWaits s m part who h) :
    haltWaits s m (part, who) = true := haltWaits_of_mem hw.one (by rw [hw.waiting]; exact List.mem_singleton_self _)

/-- A pier stops at its bundle boundary: its walks are abandoned and its save limit runs. -/
def stopPier (s : State) (pk : Nat) : State :=
  schedule (abandonWalks (adjPier s pk fun p => { p with halting := true, haltCount := s.cycle }) pk)
    (s.cycle + saveLimit (getPier s pk)) (.saveLimitExpiry pk)

theorem getPier_stopPier (s : State) (pk : Nat) :
    getPier (stopPier s pk) pk = { getPier s pk with halting := true, haltCount := s.cycle } :=
  getPier_adjPier_same s pk fun p => { p with halting := true, haltCount := s.cycle }

theorem getPier_stopPier_other (s : State) {pk k : Nat} (hk : k ≠ pk) : getPier (stopPier s pk) k = getPier s k :=
  getPier_adjPier_other s pk k (fun p => { p with halting := true, haltCount := s.cycle }) hk

theorem stopPier_memory (s : State) (pk : Nat) : Claims.SameMemory s (stopPier s pk) := by
  refine sameMemory_of_code (by simp [stopPier]) fun k => ?_
  by_cases hk : k = pk
  · subst hk
    rw [getPier_stopPier]
  · rw [getPier_stopPier_other s hk]

/-- What a map gives is its default, or it stands in the map. -/
theorem fget_mem {α : Type} {l : FMap α} {k : Nat} {d x : α} (h : fget l k d = x) (hx : x ≠ d) : (k, x) ∈ l := by
  induction l with
  | nil => exact absurd h.symm hx
  | cons e l ih =>
    rw [fget] at h
    split at h
    · rename_i he
      exact List.mem_cons.mpr (.inl (Prod.ext he.symm h.symm))
    · exact List.mem_cons_of_mem _ (ih h)

theorem stopPier_walks {s : State} {pk w : Nat} {k : Walk} (h : fget (stopPier s pk).walks w none = some k) (st e tok : Nat) :
    k.who ≠ .gm pk st e tok := by
  intro hg
  have hm := (List.mem_filter.mp (fget_mem h (Option.some_ne_none k))).2
  simp [hg] at hm

theorem pierDrained_stopPier (s : State) (pk : Nat) : pierDrained (getPier (stopPier s pk) pk) = pierDrained (getPier s pk) := by
  rw [getPier_stopPier]
  rfl

/-- A pier that the halt reaches for the first time stops; drained it acknowledges, or else it looks again in the next cycle. -/
theorem execHaltAtPier_stops {s : State} {pk : Nat} (hw : haltWaits s (pkMod pk) (pkPart pk, pkLp pk) = true)
    (hh : (getPier s pk).halting = false) : execHaltAtPier pk s =
      .next (if pierDrained (getPier s pk) then
        launch (stopPier s pk) (latency s (pkMod pk) (placeOf s pk) (pkMod pk) .die) (.haltAck (pkMod pk) (pkPart pk) (pkLp pk))
      else schedule (stopPier s pk) (s.cycle + 1) (.haltAtPier pk)) := by
  rw [← pierDrained_stopPier]
  simp only [execHaltAtPier, hw, hh]
  rfl

theorem haltAtPier_stops {s : State} {pk : Nat} {h : Halt} (hw : Claims.HaltWaits s (pkMod pk) (pkPart pk) (pkLp pk) h)
    (hh : (getPier s pk).halting = false) :
    ∃ s', exec (.haltAtPier pk) s = .next s' ∧ (getPier s' pk).halting = true ∧ (getPier s' pk).haltCount = s.cycle ∧
      (s.cycle + max 16800 (getPier s pk).savelim.toNat, Instr.saveLimitExpiry pk) ∈ s'.cal ∧
      (∀ w k st e tok, fget s'.walks w none = some k → k.who ≠ .gm pk st e tok) ∧
      (pierDrained (getPier s pk) = true → Claims.Coming s s' (.haltAck (pkMod pk) (pkPart pk) (pkLp pk))) ∧
      (pierDrained (getPier s pk) = false → (s.cycle + 1, Instr.haltAtPier pk) ∈ s'.cal) ∧ Claims.SameMemory s s' := by
  have hwaits := haltWaits_of_waits hw
  -- Whatever the pier goes on to schedule, it has stopped.
  have hrest : ∀ s', Schedules (stopPier s pk) s' → (getPier s' pk).halting = true ∧ (getPier s' pk).haltCount = s.cycle ∧
      (s.cycle + max 16800 (getPier s pk).savelim.toNat, Instr.saveLimitExpiry pk) ∈ s'.cal ∧
      (∀ w k st e tok, fget s'.walks w none = some k → k.who ≠ .gm pk st e tok) ∧ Claims.SameMemory s s' := fun s' hs => by
    rw [hs.getPier, getPier_stopPier, hs.walks]
    exact ⟨rfl, rfl, hs.cal _ (List.mem_append_right _ (List.mem_singleton_self _)), fun w k st e tok hk => stopPier_walks hk st e tok,
      sameMemory_trans (stopPier_memory s pk) (sameMemory_of_piers hs.memories hs.piers)⟩
  rw [exec_haltAtPier, execHaltAtPier_stops hwaits hh]
  refine ⟨_, rfl, ?_⟩
  split
  · rename_i hd
    obtain ⟨h1, h2, h3, h4, h5⟩ := hrest _ (schedules_launch ..)
    exact ⟨h1, h2, h3, h4, fun _ => launch_coming (stopPier s pk) (latency_site_die ..) _, fun hn => absurd (hd.symm.trans hn) (by decide), h5⟩
  · rename_i hd
    obtain ⟨h1, h2, h3, h4, h5⟩ := hrest _ (schedules_schedule ..)
    exact ⟨h1, h2, h3, h4, fun hy => absurd hy hd, fun _ => List.mem_append_right _ (List.mem_singleton_self _), h5⟩

/-! An acknowledgement reaches the job controller (R221 step 5, R234). -/

/-- The halts of a module replaced. -/
def withHalts (s : State) (m : Nat) (l : List Halt) : State := setMod s m { getMod s m with halts := l }

theorem withHalts_memory (s : State) (m : Nat) (l : List Halt) : Claims.SameMemory s (withHalts s m l) :=
  sameMemory_of_piers (memories_setMod s m _ rfl) rfl

theorem getMod_withHalts (s : State) (m : Nat) (l : List Halt) : getMod (withHalts s m l) m = { getMod s m with halts := l } :=
  getMod_setMod_same ..

theorem setMod_setMod (s : State) (m : Nat) (x y : Module) : setMod (setMod s m x) m y = setMod s m y := by
  simp [setMod]

/-- Of one halt an acknowledgement is noted; with the last one what was to follow the halt is done. -/
theorem haltAcked_one {s : State} {m : Nat} {h : Halt} (hh : (getMod s m).halts = [h]) (x : Nat × Nat) :
    haltAcked s m x =
      let h' : Halt := { h with waiting := h.waiting.filter (· != x) }
      if h'.waiting = [] then haltDone (withHalts s m []) m h' else withHalts s m [h'] := by
  by_cases hw : h.waiting.filter (· != x) = []
  · simp [haltAcked, settleHalts, adjMod, setMod_setMod, hh, hw, withHalts]
  · simp [haltAcked, settleHalts, adjMod, setMod_setMod, hh, hw, withHalts]

theorem haltAcked_last {s : State} {m : Nat} {h : Halt} {x : Nat × Nat} (hh : (getMod s m).halts = [h]) (hw : h.waiting = [x])
    (hn : h.next = .stay) : haltAcked s m x = withHalts s m [] := by
  rw [haltAcked_one hh]
  simp [hw, haltDone, hn]

theorem haltAcked_more {s : State} {m : Nat} {h : Halt} {x : Nat × Nat} (hh : (getMod s m).halts = [h])
    (hw : ∃ y ∈ h.waiting, y ≠ x) : haltAcked s m x = withHalts s m [{ h with waiting := h.waiting.filter (· != x) }] := by
  obtain ⟨y, hy, hne⟩ := hw
  have hleft : h.waiting.filter (· != x) ≠ [] := List.ne_nil_of_mem (List.mem_filter.mpr ⟨hy, by simpa using hne⟩)
  rw [haltAcked_one hh]
  exact if_neg hleft

/-- The event of a late pier changes no halt and no memory. -/
theorem overrunEvent_keeps (s : State) (m part who : Nat) :
    (getMod (overrunEvent s m part who) m).halts = (getMod s m).halts ∧ Claims.SameMemory s (overrunEvent s m part who) := by
  unfold overrunEvent
  dsimp only
  split
  · obtain ⟨x, hx, -⟩ := getMod_sendEvent s m 0x15 (jobOf s (pkOf m part who)) (wordBytes (BitVec.ofNat 64 who))
    exact ⟨by rw [hx], sameMemory_of_piers (by simp) rfl⟩
  · exact ⟨rfl, sameMemory_of_piers rfl rfl⟩

theorem exec_haltAck_one {s : State} {m part who : Nat} {h : Halt} (hh : (getMod s m).halts = [h]) (hx : (part, who) ∈ h.waiting) :
    exec (.haltAck m part who) s = .next (haltAcked (overrunEvent s m part who) m (part, who)) := by
  rw [exec_haltAck, execHaltAck, if_pos (haltWaits_of_mem hh hx)]
  rfl

theorem haltAck_one {s : State} {m part who : Nat} {h : Halt} (hh : (getMod s m).halts = [h]) (hx : (part, who) ∈ h.waiting) :
    (h.waiting = [(part, who)] → h.next = .stay →
      ∃ s', exec (.haltAck m part who) s = .next s' ∧ (getMod s' m).halts = [] ∧ Claims.SameMemory s s') ∧
    ((∃ x ∈ h.waiting, x ≠ (part, who)) → ∃ s', exec (.haltAck m part who) s = .next s' ∧
      (getMod s' m).halts = [{ h with waiting := h.waiting.filter (· != (part, who)) }] ∧ Claims.SameMemory s s') := by
  obtain ⟨hkeep, hmem⟩ := overrunEvent_keeps s m part who
  rw [exec_haltAck_one hh hx]
  refine ⟨fun hw hn => ⟨_, rfl, ?_⟩, fun hmore => ⟨_, rfl, ?_⟩⟩
  · rw [haltAcked_last (hkeep.trans hh) hw hn]
    exact ⟨by rw [getMod_withHalts], sameMemory_trans hmem (withHalts_memory ..)⟩
  · rw [haltAcked_more (hkeep.trans hh) hmore]
    exact ⟨by rw [getMod_withHalts], sameMemory_trans hmem (withHalts_memory ..)⟩

/-- Of a pier that acknowledges late the host hears. -/
theorem haltAck_late {s : State} {pk : Nat} {h : Halt} (hw : Claims.HaltWaits s (pkMod pk) (pkPart pk) (pkLp pk) h)
    (hh : (getPier s pk).halting = true) (hlate : 16800 < s.cycle - (getPier s pk).haltCount) (hn : h.next = .stay) :
    ∃ s', exec (.haltAck (pkMod pk) (pkPart pk) (pkLp pk)) s = .next s' ∧ (getMod s' (pkMod pk)).halts = [] ∧
      Claims.HostEvent s' (pkMod pk) (jobOf s pk) 0x15 (Claims.bytes8 (BitVec.ofNat 64 (pkLp pk))) := by
  obtain ⟨hkeep, -⟩ := overrunEvent_keeps s (pkMod pk) (pkPart pk) (pkLp pk)
  have hsent : overrunEvent s (pkMod pk) (pkPart pk) (pkLp pk) =
      sendEvent s (pkMod pk) 0x15 (jobOf s pk) (Claims.bytes8 (BitVec.ofNat 64 (pkLp pk))) := by
    rw [overrunEvent, pkOf_parts, wordBytes_eq]
    exact if_pos ⟨pkLp_lt pk, hlate, hh⟩
  rw [exec_haltAck_one hw.one (by rw [hw.waiting]; exact List.mem_singleton_self _), haltAcked_last (hkeep.trans hw.one) hw.waiting hn]
  refine ⟨_, rfl, by rw [getMod_withHalts], hostEvent_mono ?_ (hsent ▸ hostEvent_sendEvent s _ _ _ _)⟩
  rw [getMod_withHalts]
  exact List.Subset.refl _

end Sys2Proof.Machine
end

section
/-!
Save areas (R226): rows of bytes that are written to the stack of a half-span, and the words of a saved stream context read back from them.
-/

namespace Sys2Proof.Machine

/-! Bytes and the numbers that they make. -/

theorem natOfBytes_byte (l : List Byte) (i : Nat) : BitVec.ofNat 8 (natOfBytes l / 256 ^ i) = l[i]?.getD 0 := by
  induction l generalizing i with
  | nil => simp [natOfBytes]
  | cons b l ih =>
    have hn : natOfBytes (b :: l) = b.toNat + 256 * natOfBytes l := rfl
    have hb := b.isLt
    cases i with
    | zero =>
      refine BitVec.eq_of_toNat_eq ?_
      simp [hn, Nat.mod_eq_of_lt (show b.toNat < 256 from hb)]
    | succ i =>
      have hd : (b.toNat + 256 * natOfBytes l) / 256 = natOfBytes l := by omega
      rw [hn, Nat.pow_succ', ← Nat.div_div_eq_div_mul, hd, ih]
      rfl

theorem getElem?_bytesOfNat (n v : Nat) {i : Nat} (hi : i < n) : (bytesOfNat n v)[i]? = some (BitVec.ofNat 8 (v / 256 ^ i)) := by
  induction n generalizing v i with
  | zero => omega
  | succ n ih =>
    cases i with
    | zero => simp [bytesOfNat]
    | succ i =>
      rw [bytesOfNat, List.getElem?_cons_succ, ih _ (by omega), Nat.pow_succ', Nat.div_div_eq_div_mul]

theorem length_bytesOfNat (n v : Nat) : (bytesOfNat n v).length = n := by
  induction n generalizing v with
  | zero => rfl
  | succ n ih => rw [bytesOfNat, List.length_cons, ih]

/-- The bytes of a list of words, eight for each. -/
theorem getElem?_words (ws : List Nat) (k : Nat) {i : Nat} (hi : i < 8) :
    ((ws.flatMap (bytesOfNat 8))[8 * k + i]?).getD 0 = BitVec.ofNat 8 (ws[k]?.getD 0 / 256 ^ i) := by
  induction ws generalizing k with
  | nil => simp
  | cons w ws ih =>
    rw [List.flatMap_cons]
    cases k with
    | zero =>
      rw [Nat.mul_zero, Nat.zero_add, List.getElem?_append_left (by rwa [length_bytesOfNat]), getElem?_bytesOfNat _ _ hi]
      rfl
    | succ k =>
      rw [List.getElem?_append_right (by rw [length_bytesOfNat]; omega), length_bytesOfNat,
        show 8 * (k + 1) + i - 8 = 8 * k + i by omega, ih]
      rfl

theorem littleEndian_congr {f g : Nat → Byte} {n : Nat} (h : ∀ i < n, f i = g i) : Claims.littleEndian f n = Claims.littleEndian g n := by
  induction n generalizing f g with
  | zero => rfl
  | succ n ih => rw [Claims.littleEndian, Claims.littleEndian, h 0 n.succ_pos, ih fun i hi => h (i + 1) (by omega)]

theorem littleEndian_bytes (v n : Nat) : Claims.littleEndian (fun i => BitVec.ofNat 8 (v / 256 ^ i)) n = v % 256 ^ n := by
  induction n generalizing v with
  | zero => simp [Claims.littleEndian, Nat.mod_one]
  | succ n ih =>
    have hnext : ∀ i, v / 256 ^ (i + 1) = v / 256 / 256 ^ i := fun i => by rw [Nat.pow_succ', Nat.div_div_eq_div_mul]
    simp only [Claims.littleEndian, hnext, ih]
    have hp : 256 ^ (n + 1) = 256 * 256 ^ n := Nat.pow_succ'
    rw [Nat.pow_zero, Nat.div_one, BitVec.toNat_ofNat, hp, Nat.mod_mul]

theorem getElem?_padTo (l : List Byte) {n o : Nat} (ho : o < n) : ((padTo n l)[o]?).getD 0 = l[o]?.getD 0 := by
  rw [padTo, List.getElem?_take_of_lt ho, List.getElem?_append]
  split
  · rfl
  · rename_i hl
    rw [List.getElem?_replicate, if_pos (by omega), List.getElem?_eq_none (by omega)]
    rfl

/-! Rows in the stack of a half-span (R144). -/

/-- The fields of a DRAM byte are read back from its number: stack, pseudo-channel, row and byte. -/
theorem dram_fields {st pc row low d : Nat} (hpc : pc < 128) (hrow : row < 2 ^ 21) (hlow : low < 256)
    (hd : d = (st * 128 + pc) * 2 ^ 29 + row * 256 + low) :
    d / 2 ^ 36 * 2 ^ 36 + d % 2 ^ 29 / 256 * 2 ^ 15 + d / 2 ^ 29 % 128 * 2 ^ 8 + d % 2 ^ 29 % 256 =
      st * 2 ^ 36 + row * 2 ^ 15 + pc * 2 ^ 8 + low := by
  have hhigh : d / 2 ^ 29 = st * 128 + pc := by omega
  have hrest : d % 2 ^ 29 = row * 256 + low := by omega
  have hstack : d / 2 ^ 36 = st := by omega
  rw [hhigh, hrest, hstack]
  omega

/-- A stack-local address is read back from its place in the DRAM. -/
theorem dramLocal_dramLoc {x : Nat} (hx : x < 2 ^ 39) : dramLocal 2 (dramLoc 2 x) = x := by
  have hsum : x / 2 ^ 36 % 8 * 2 ^ 36 + x / 2 ^ 15 % 2 ^ 21 * 2 ^ 15 + x / 2 ^ 8 % 128 * 2 ^ 8 + x % 256 = x := by omega
  have hfields := dram_fields (st := x / 2 ^ 36 % 8) (d := dramLoc 2 x) (Nat.mod_lt (x / 2 ^ 8) (by decide)) (Nat.mod_lt (x / 2 ^ 15) (by decide)) (Nat.mod_lt x (by decide)) rfl
  exact hfields.trans hsum

/-- Stack-local addresses lie apart. -/
theorem dramLoc_inj {x y : Nat} (hx : x < 2 ^ 39) (hy : y < 2 ^ 39) (h : dramLoc 2 x = dramLoc 2 y) : x = y := by
  rw [← dramLocal_dramLoc hx, h, dramLocal_dramLoc hy]

theorem hbm_hbmWrite (s : State) (m dom l n v : Nat) (b : Bool) :
    (getMod (hbmWrite s m dom l n v b) m).hbm = mwrite (getMod s m).hbm (dramLoc dom l) n v := by
  rw [hbmWrite, getMod_adjMod_same, endLease]
  split
  · rw [getMod_adjMod_same]
  · rfl

/-- A row changes the 64 bytes at its address. -/
theorem hbmWrite_row (s : State) (m v : Nat) (b : Bool) {l : Nat} (hl : l % 64 = 0) :
    (∀ i < 64, mget (getMod (hbmWrite s m 2 l 64 v b) m).hbm (dramLoc 2 (l + i)) = BitVec.ofNat 8 (v / 256 ^ i)) ∧
    ∀ x, (∀ i < 64, dramLoc 2 (l + i) ≠ x) → mget (getMod (hbmWrite s m 2 l 64 v b) m).hbm x = mget (getMod s m).hbm x := by
  have hrow : ∀ i < 64, dramLoc 2 (l + i) = dramLoc 2 l + i := fun i hi => dramLoc_row 2 l i (by omega)
  rw [hbm_hbmWrite]
  refine ⟨fun i hi => by rw [hrow i hi, mget_mwrite_inside _ _ _ _ _ hi], fun x hx => mget_mwrite_outside _ _ _ _ _ ?_⟩
  by_contra hin
  have hi : x - dramLoc 2 l < 64 := by omega
  exact hx _ hi (by rw [hrow _ hi]; omega)

/-- Rows change no byte elsewhere. -/
theorem putRows_outside (m : Nat) (rs : List (Nat × Bool)) (s : State) {l x : Nat} (hl : l % 64 = 0)
    (hx : ∀ o < 64 * rs.length, dramLoc 2 (l + o) ≠ x) : mget (getMod (putRows s m l rs) m).hbm x = mget (getMod s m).hbm x := by
  induction rs generalizing s l with
  | nil => rfl
  | cons r rs ih =>
    rw [List.length_cons] at hx
    rw [putRows, ih _ (by omega) fun o ho => by rw [Nat.add_assoc]; exact hx _ (by omega)]
    exact (hbmWrite_row s m r.1 r.2 hl).2 x fun i hi => hx i (by omega)

/-- A list of bytes written row by row stands there byte by byte. -/
theorem putRows_bytes (m n : Nat) (L : List Byte) (s : State) {l o : Nat} (hl : l % 64 = 0) (hb : l + 64 * n ≤ 2 ^ 39) (ho : o < 64 * n) :
    mget (getMod (putRows s m l ((rowsOfBytes n L).map fun v => (v, false))) m).hbm (dramLoc 2 (l + o)) = L[o]?.getD 0 := by
  induction n generalizing L s l o with
  | zero => omega
  | succ n ih =>
    rw [rowsOfBytes, List.map_cons, putRows]
    by_cases h : o < 64
    · rw [putRows_outside m _ _ (by omega), (hbmWrite_row s m _ false hl).1 o h, natOfBytes_byte, List.getElem?_take_of_lt h]
      intro j hj he
      have hlen : ∀ n (L : List Byte), (rowsOfBytes n L).length = n := fun n => by
        induction n with
        | zero => exact fun _ => rfl
        | succ n ih => exact fun L => congrArg Nat.succ (ih _)
      rw [List.length_map, hlen] at hj
      have := dramLoc_inj (by omega) (by omega) he
      omega
    · have hnext := ih (L.drop 64) (hbmWrite s m 2 l 64 (natOfBytes (L.take 64)) false) (l := l + 64) (o := o - 64) (by omega) (by omega)
        (by omega)
      rw [List.getElem?_drop, Nat.add_sub_cancel' (by omega), show l + 64 + (o - 64) = l + o by omega] at hnext
      exact hnext

end Sys2Proof.Machine
end

section
/-!
A halt at an abutment (O46): once the partition's stream is at rest, its context is saved and the abutment acknowledges.
-/

namespace Sys2Proof.Machine

/-! The state behind the rows that are written. -/

/-- A module without its DRAM: the bytes, their poison, the leases on them. -/
def Module.noDram (x : Module) : Module := { x with hbm := [], hbmPoison := [], leases := [] }

theorem hbmWrite_noDram (s : State) (m dom l n v : Nat) (b : Bool) :
    (getMod (hbmWrite s m dom l n v b) m).noDram = (getMod s m).noDram := by
  rw [hbmWrite, getMod_adjMod_same, endLease]
  split
  · rw [getMod_adjMod_same]
    rfl
  · rfl

theorem putRows_noDram (m : Nat) (rs : List (Nat × Bool)) (s : State) (l : Nat) :
    (getMod (putRows s m l rs) m).noDram = (getMod s m).noDram := by
  induction rs generalizing s l with
  | nil => rfl
  | cons r rs ih => exact (ih ..).trans (hbmWrite_noDram ..)

theorem getAbut_putRows (s : State) (m l a : Nat) (rs : List (Nat × Bool)) : getAbut (putRows s m l rs) m a = getAbut s m a := by
  show fget (getMod (putRows s m l rs) m).noDram.abuts a {} = fget (getMod s m).noDram.abuts a {}
  rw [putRows_noDram]

theorem getAbut_adjAbut (s : State) (m a : Nat) (f : Abut → Abut) : getAbut (adjAbut s m a f) m a = f (getAbut s m a) := by
  rw [getAbut, adjAbut, getMod_adjMod_same]
  exact fget_fset_same ..

/-- Two changes of an abutment that do the same to it are one. -/
theorem adjAbut_congr {s : State} {m a : Nat} {f g : Abut → Abut} (h : f (getAbut s m a) = g (getAbut s m a)) :
    adjAbut s m a f = adjAbut s m a g := by
  simp only [getAbut] at h
  simp only [adjAbut, adjMod, h]

/-! The words of a stream context (R226). -/

/-- The words of a stream context as it is saved: the command's, what names its run, the position. -/
def ctxWords (t : Stream) : List Nat :=
  let c := t.cmd
  [c.q0.toNat, c.q1.toNat, c.q2.toNat, c.q3.toNat, c.q4.toNat, c.q5.toNat, c.t.toNat,
    c.actor % 64 + c.strand % 8 * 2 ^ 6 + c.kind.toNat * 2 ^ 9 + c.bundle.toNat * 2 ^ 16 + c.runid.toNat * 2 ^ 32,
    t.total, t.next, t.low, t.landed, t.rd / 1024, t.wlow]

theorem contextBytes_eq (t : Stream) : contextBytes t = padTo 4096 ((ctxWords t).flatMap (bytesOfNat 8)) := by
  simp [contextBytes, cmdBytes, ctxWords, wordBytes]

/-- The rows of a stream context. -/
def ctxRows (t : Stream) : List (Nat × Bool) := (rowsOfBytes 64 (contextBytes t)).map fun v => (v, false)

theorem length_ctxRows (t : Stream) : (ctxRows t).length = 64 := rfl

theorem saveArea_bounds (m part : Nat) {hs : Nat} (h : hs < 8) : saveArea m part hs % 64 = 0 ∧ saveArea m part hs + 2 ^ 26 ≤ 2 ^ 39 := by
  rw [saveArea]
  have := Nat.mod_lt (Config.saveArea m part hs) (show 0 < 1024 by decide)
  omega

theorem ctxAreaAt_eq (m part a : Nat) : ctxAreaAt m part a 0 = saveArea m part (a / 16) + Claims.ctxAt a := by
  rw [ctxAreaAt, Claims.ctxAt]
  omega

theorem ctxAt_bounds (a : Nat) : Claims.ctxAt a % 64 = 0 ∧ Claims.ctxAt a + 4096 ≤ 2 ^ 26 := by
  rw [Claims.ctxAt]
  omega

/-- A word of a context that has been written to the save area, as the area holds it. -/
theorem areaWord_ctxRows (s : State) (m part a : Nat) (t : Stream) {k : Nat} (ha : a / 16 < 8) (hk : k < 512) :
    Claims.areaWord (putRows s m (ctxAreaAt m part a 0) (ctxRows t)) m part (a / 16) (Claims.ctxAt a + 8 * k) =
      (ctxWords t)[k]?.getD 0 % 2 ^ 64 := by
  obtain ⟨hmod, hle⟩ := saveArea_bounds m part ha
  obtain ⟨hcmod, hcle⟩ := ctxAt_bounds a
  have hbyte : ∀ i < 8, mget (getMod (putRows s m (ctxAreaAt m part a 0) (ctxRows t)) m).hbm
      (dramLoc 2 (saveArea m part (a / 16) + (Claims.ctxAt a + 8 * k)) + i) = BitVec.ofNat 8 ((ctxWords t)[k]?.getD 0 / 256 ^ i) := by
    intro i hi
    rw [← dramLoc_row 2 _ i (by omega), ← Nat.add_assoc, ← ctxAreaAt_eq, Nat.add_assoc, ctxRows,
      putRows_bytes m 64 _ s (by rw [ctxAreaAt_eq]; omega) (by rw [ctxAreaAt_eq]; omega) (by omega), contextBytes_eq,
      getElem?_padTo _ (by omega), getElem?_words _ _ hi]
  rw [Claims.areaWord, Claims.hbmNum, littleEndian_congr hbyte, littleEndian_bytes]
  rfl

/-- A context is written within the save area of its half-span. -/
theorem ctxRows_savesOnly (s : State) (m part a : Nat) (t : Stream) :
    Claims.SavesOnly s (putRows s m (ctxAreaAt m part a 0) (ctxRows t)) m part (a / 16) := by
  obtain ⟨hcmod, hcle⟩ := ctxAt_bounds a
  obtain ⟨-, -, -, hpiers, hsites, -, -, -, hmods⟩ := putRows_frame m (ctxRows t) s (ctxAreaAt m part a 0)
  have hpier : ∀ pk, getPier (putRows s m (ctxAreaAt m part a 0) (ctxRows t)) pk = getPier s pk := fun pk => by
    rw [getPier, hpiers, getPier]
  have hlow : ctxAreaAt m part a 0 % 64 = 0 := by
    rw [ctxAreaAt, saveArea]
    omega
  refine ⟨fun x hx => putRows_outside m _ s hlow fun o ho => ?_, fun k x hk => by rw [hmods k hk],
    fun k x => by rw [getSite, hsites, getSite], fun pk x => by rw [hpier], fun pk x => by rw [hpier]⟩
  rw [length_ctxRows] at ho
  rw [ctxAreaAt_eq, Nat.add_assoc]
  exact hx _ (by omega)

/-! The step. -/

/-- A stream as it is saved (R226). -/
theorem saved_eq (t : Stream) : Claims.Saved t = savedForm t := by
  have h1 : t.cmd.kind = 1 ↔ t.cmd.kind.toNat = 1 := ⟨fun h => by rw [h]; rfl, fun h => BitVec.eq_of_toNat_eq h⟩
  have h3 : t.cmd.kind = 3 ↔ t.cmd.kind.toNat = 3 := ⟨fun h => by rw [h]; rfl, fun h => BitVec.eq_of_toNat_eq h⟩
  have h5 : t.cmd.kind = 5 ↔ t.cmd.kind.toNat = 5 := ⟨fun h => by rw [h]; rfl, fun h => BitVec.eq_of_toNat_eq h⟩
  have hw : cmdWrites t.cmd = true ↔ t.cmd.kind = 1 ∨ t.cmd.kind = 3 := by
    rw [h1, h3]
    simp [cmdWrites, cmdKind]
  have hscan : scanBase t = if t.cmd.kind = 1 ∨ t.cmd.kind = 3 then t.low else if t.cmd.kind = 5 then t.rd else t.next := by
    simp only [scanBase, hw, h5, cmdKind]
    rfl
  rw [savedForm, hscan]
  rfl

/-- The abutment is halted for a partition. -/
def haltAbut (s : State) (m part a : Nat) : State :=
  adjAbut s m a fun x => { x with haltedFor := part :: x.haltedFor.filter (· != part) }

/-- Whether a command is of a partition. -/
def ofPart (m part : Nat) (c : StreamCmd) : Bool := pkMod c.pk == m && pkPart c.pk == part

/-- The streams of a partition at an abutment. -/
def partStreams (m part : Nat) (x : Abut) : List Stream :=
  x.ctxs.filterMap fun c => match c.2 with | some t => if ofPart m part t.cmd then some t else none | none => none

/-- Its streams and commands of a partition are saved, and what of them was refused is not sent again. -/
def savePart (s : State) (m part a : Nat) : State :=
  adjAbut { s with cal := s.cal.filter fun e => !(partStreams m part (getAbut s m a)).any fun t => isResend m a t e } m a fun y =>
    { y with
      ctxs := y.ctxs.filter fun c => match c.2 with | some t => !ofPart m part t.cmd | none => false
      queue := y.queue.filter fun c => !ofPart m part c
      savedCtxs := y.savedCtxs ++ (partStreams m part (getAbut s m a)).map fun t => (part, savedForm t)
      savedQueue := y.savedQueue ++ (y.queue.filter (ofPart m part)).zipIdx.map fun c =>
        (part, maxList ((y.savedQueue.filter fun d => d.1 == part).map fun d => d.2.1 + 1) + c.2, c.1) }

/-- A halt at an abutment that is waited for: it saves what it holds of the partition, or looks again. -/
theorem execHaltAtAbutment_waited {s : State} {m part a : Nat} (h : haltWaits s m (part, 1024 + a) = true) :
    execHaltAtAbutment m part a s =
      .next (if (partStreams m part (getAbut (haltAbut s m part a) m a)).all streamAtRest then
        launch (saveStreams (savePart (haltAbut s m part a) m part a) m part a)
          (latency s m (.abut a) m .die) (.haltAck m part (1024 + a))
      else schedule (haltAbut s m part a) (s.cycle + 1) (.haltAtAbutment m part a)) := by
  rw [execHaltAtAbutment, if_neg (by rw [h]; decide)]
  rfl

/-- Its one stream is saved for the partition, and what of it was refused is not sent again. -/
def saveStream (s : State) (m part a : Nat) (t : Stream) : State :=
  adjAbut { haltAbut s m part a with cal := (haltAbut s m part a).cal.filter fun e => !isResend m a t e } m a fun y =>
    { y with ctxs := [], savedCtxs := y.savedCtxs ++ [(part, savedForm t)] }

theorem getAbut_haltAbut (s : State) (m part a : Nat) : getAbut (haltAbut s m part a) m a =
    { getAbut s m a with haltedFor := part :: (getAbut s m a).haltedFor.filter (· != part) } := getAbut_adjAbut ..

theorem getAbut_saveStream (s : State) (m part a : Nat) (t : Stream) : getAbut (saveStream s m part a t) m a =
    { getAbut s m a with
      haltedFor := part :: (getAbut s m a).haltedFor.filter (· != part), ctxs := [],
      savedCtxs := (getAbut s m a).savedCtxs ++ [(part, savedForm t)] } := by
  rw [saveStream, getAbut_adjAbut]
  exact congrArg (fun y : Abut => { y with ctxs := [], savedCtxs := y.savedCtxs ++ [(part, savedForm t)] }) (getAbut_haltAbut ..)

theorem saveStream_memory (s : State) (m part a : Nat) (t : Stream) : Claims.SameMemory s (saveStream s m part a t) :=
  sameMemory_of_piers (calc
    memories (saveStream s m part a t) = memories (haltAbut s m part a) := memories_adjAbut ..
    _ = memories s := memories_adjAbut ..) rfl

/-- What is saved of a partition of which nothing else is saved is one context at its place. -/
theorem saveStreams_one {s : State} {m part a : Nat} {t : Stream} {l : List (Nat × Stream)}
    (hc : (getAbut s m a).savedCtxs = l ++ [(part, t)]) (hl : ∀ c ∈ l, c.1 ≠ part) (hq : ∀ c ∈ (getAbut s m a).savedQueue, c.1 ≠ part) :
    saveStreams s m part a = putRows s m (ctxAreaAt m part a 0) (ctxRows t) := by
  have hctx : savedFor (getAbut s m a) part = [t] := by
    rw [savedFor, hc, List.filter_append, List.filter_eq_nil_iff.mpr fun c hm => by simpa using hl c hm]
    simp
  have hqueue : queuedFor (getAbut s m a) part = [] := by
    rw [queuedFor, List.filter_eq_nil_iff.mpr fun c hm => by simpa using hq c hm]
    rfl
  rw [saveStreams, hctx, hqueue]
  rfl

section
variable {s : State} {m part a : Nat} {t : Stream} (hc : (getAbut s m a).ctxs = [(t.sid, some t)]) (hm : pkMod t.cmd.pk = m)
  (hp : pkPart t.cmd.pk = part)
include hc hm hp

theorem partStreams_one : partStreams m part (getAbut (haltAbut s m part a) m a) = [t] := by
  have hmine : ofPart m part t.cmd = true := by simp [ofPart, hm, hp]
  simp [partStreams, getAbut_haltAbut, hc, hmine]

/-- With one stream and no commands that stream is what is saved. -/
theorem savePart_one (hq : (getAbut s m a).queue = []) : savePart (haltAbut s m part a) m part a = saveStream s m part a t := by
  have hmine : ofPart m part t.cmd = true := by simp [ofPart, hm, hp]
  rw [savePart, partStreams_one hc hm hp]
  simp only [List.any_cons, List.any_nil, Bool.or_false]
  refine adjAbut_congr ?_
  have hx : ∀ l, getAbut { haltAbut s m part a with cal := l } m a =
    { getAbut s m a with haltedFor := part :: (getAbut s m a).haltedFor.filter (· != part) } := fun _ => getAbut_haltAbut ..
  simp [hx, hc, hq, hmine]

end

theorem Schedules.sameMemory {s t : State} (h : Schedules s t) : Claims.SameMemory s t := sameMemory_of_piers h.memories h.piers

theorem savesOnly_between {s t u v : State} {m part hs : Nat} (h : Claims.SameMemory s t) (k : Claims.SavesOnly t u m part hs)
    (l : Claims.SameMemory u v) : Claims.SavesOnly s v m part hs :=
  ⟨fun x hx => (l.hbm m x).trans ((k.area x hx).trans (h.hbm m x)), fun n x hn => (l.hbm n x).trans ((k.hbm n x hn).trans (h.hbm n x)),
    fun n x => (l.slice n x).trans ((k.slice n x).trans (h.slice n x)), fun pk x => (l.spad pk x).trans ((k.spad pk x).trans (h.spad pk x)),
    fun pk x => (l.code pk x).trans ((k.code pk x).trans (h.code pk x))⟩

section
variable {s : State} {m part a : Nat} {h : Halt} {t : Stream} (hw : Claims.HaltWaits s m part (1024 + a) h)
  (hc : (getAbut s m a).ctxs = [(t.sid, some t)]) (hm : pkMod t.cmd.pk = m) (hp : pkPart t.cmd.pk = part)
include hw hc hm hp

/-- A stream at rest is saved in its place, and the abutment acknowledges. -/
theorem haltAtAbutment_rest (hq : (getAbut s m a).queue = []) (ha : a / 16 < 8) (hsc : ∀ c ∈ (getAbut s m a).savedCtxs, c.1 ≠ part)
    (hsq : ∀ c ∈ (getAbut s m a).savedQueue, c.1 ≠ part) (hr : streamAtRest t = true) :
    ∃ s', exec (.haltAtAbutment m part a) s = .next s' ∧ (getAbut s' m a).ctxs = [] ∧
      (getAbut s' m a).savedCtxs = (getAbut s m a).savedCtxs ++ [(part, Claims.Saved t)] ∧
      (∀ k < 512, Claims.areaWord s' m part (a / 16) (Claims.ctxAt a + 8 * k) = (ctxWords (savedForm t))[k]?.getD 0 % 2 ^ 64) ∧
      Claims.Coming s s' (.haltAck m part (1024 + a)) ∧ Claims.SavesOnly s s' m part (a / 16) := by
  have hwaits := haltWaits_of_waits hw
  let s1 := saveStream s m part a t
  let s2 := putRows s1 m (ctxAreaAt m part a 0) (ctxRows (savedForm t))
  have hsave : saveStreams s1 m part a = s2 := by
    have habut := getAbut_saveStream s m part a t
    exact saveStreams_one (congrArg Abut.savedCtxs habut) hsc (by rw [habut]; exact hsq)
  have hx : exec (.haltAtAbutment m part a) s = .next (launch s2 (latency s m (.abut a) m .die) (.haltAck m part (1024 + a))) := by
    rw [exec_haltAtAbutment, execHaltAtAbutment_waited hwaits, partStreams_one hc hm hp, savePart_one hc hm hp hq, hsave]
    simp [hr]
  have hgo : Schedules s2 (launch s2 (latency s m (.abut a) m .die) (.haltAck m part (1024 + a))) := schedules_launch ..
  have habut : getAbut (launch s2 (latency s m (.abut a) m .die) (.haltAck m part (1024 + a))) m a = getAbut s1 m a := by
    rw [getAbut, hgo.getMod, ← getAbut, getAbut_putRows]
  refine ⟨_, hx, by rw [habut, getAbut_saveStream], by rw [habut, getAbut_saveStream, saved_eq], fun k hk => ?_, ?_,
    savesOnly_between (saveStream_memory s m part a t) (ctxRows_savesOnly ..) hgo.sameMemory⟩
  · have hnum : ∀ x, Claims.areaWord (launch s2 (latency s m (.abut a) m .die) (.haltAck m part (1024 + a))) m part (a / 16) x =
        Claims.areaWord s2 m part (a / 16) x := fun x => by simp only [Claims.areaWord, Claims.hbmNum, hgo.getMod]
    rw [hnum]
    exact areaWord_ctxRows s1 m part a (savedForm t) ha hk
  · obtain ⟨due, hd, hmem⟩ := launch_coming s2 (latency_abut_die s m a) (.haltAck m part (1024 + a))
    have hcycle : s2.cycle = s.cycle := (putRows_frame m (ctxRows (savedForm t)) s1 (ctxAreaAt m part a 0)).1
    exact ⟨due, hcycle ▸ hd, hmem⟩

/-- A stream that is not at rest stays, and is looked at again in the next cycle. -/
theorem haltAtAbutment_busy (hr : streamAtRest t = false) :
    ∃ s', exec (.haltAtAbutment m part a) s = .next s' ∧ (getAbut s' m a).ctxs = (getAbut s m a).ctxs ∧
      (s.cycle + 1, Instr.haltAtAbutment m part a) ∈ s'.cal := by
  have hwaits := haltWaits_of_waits hw
  refine ⟨schedule (haltAbut s m part a) (s.cycle + 1) (.haltAtAbutment m part a), ?_, ?_,
    List.mem_append_right _ (List.mem_singleton_self _)⟩
  · rw [exec_haltAtAbutment, execHaltAtAbutment_waited hwaits, partStreams_one hc hm hp]
    simp [hr]
  · show (getAbut (haltAbut s m part a) m a).ctxs = _
    rw [getAbut_haltAbut]

end

/-- The halt of a partition (R221), from its begin at the job controller to its last acknowledgement. -/
theorem partitionsHalt : Claims.PartitionsHalt := by
  intro s m part hs _ _
  refine ⟨partitionHalt_begins, fun pk h hm hp hw hh => ?_, fun h a t hw hc hm hp hq ha hsc hsq => ⟨fun hr => ?_, fun hr => ?_⟩,
    fun h who hh hx => haltAck_one hh hx, fun h pk hm hp _ hw hh hlate hn => ?_⟩
  · subst hm hp
    exact haltAtPier_stops hw hh
  · obtain ⟨s', hx, hctx, hsaved, hwords, hack, honly⟩ := haltAtAbutment_rest hw hc hm hp hq ha hsc hsq hr
    have hword : ∀ k (w : Word), k < 512 → (ctxWords (savedForm t))[k]?.getD 0 = w.toNat →
        Claims.areaWord s' m part (a / 16) (Claims.ctxAt a + 8 * k) = w.toNat := fun k w hk hval => by
      rw [hwords k hk, hval, Nat.mod_eq_of_lt w.isLt]
    exact ⟨s', hx, hctx, hsaved, ⟨hword 0 t.cmd.q0 (by decide) rfl, hword 1 t.cmd.q1 (by decide) rfl, hword 2 t.cmd.q2 (by decide) rfl,
      hword 3 t.cmd.q3 (by decide) rfl, hword 4 t.cmd.q4 (by decide) rfl, hword 5 t.cmd.q5 (by decide) rfl,
      hword 6 t.cmd.t (by decide) rfl, hwords 8 (by decide), hwords 9 (by decide), hwords 10 (by decide)⟩, hack, honly⟩
  · exact haltAtAbutment_busy hw hc hm hp hr
  · subst hm hp
    exact haltAck_late hw hh hlate hn

end Sys2Proof.Machine
end

section
/-!
What sluices, messages and the reload of a pier leave of the modules (O46): all but the copies under way and the host port, whose frames
to the host only grow in number.
-/

namespace Sys2Proof.Machine

/-- A module without what sending changes: copies under way and the host port. -/
def Module.noTraffic (m : Module) : Module := { m with copies := [], host := {} }

/-- Modules change by traffic alone, and every frame to the host stays. -/
structure KeepsMods (s t : State) : Prop where
  rest : ∀ m, (getMod t m).noTraffic = (getMod s m).noTraffic
  frames : ∀ m, (getMod s m).host.unacked ⊆ (getMod t m).host.unacked

theorem KeepsMods.refl (s : State) : KeepsMods s s := ⟨fun _ => rfl, fun _ => List.Subset.refl _⟩

theorem KeepsMods.trans {s t u : State} (h : KeepsMods s t) (k : KeepsMods t u) : KeepsMods s u :=
  ⟨fun m => (k.rest m).trans (h.rest m), fun m => List.Subset.trans (h.frames m) (k.frames m)⟩

section
variable {s t : State} (h : KeepsMods s t)
include h

theorem KeepsMods.halts (m : Nat) : (getMod t m).halts = (getMod s m).halts := congrArg (·.halts) (h.rest m)
theorem KeepsMods.siteMap (m : Nat) : (getMod t m).siteMap = (getMod s m).siteMap := congrArg (·.siteMap) (h.rest m)
theorem KeepsMods.parts (m : Nat) : (getMod t m).parts = (getMod s m).parts := congrArg (·.parts) (h.rest m)
theorem KeepsMods.veiv (m : Nat) : (getMod t m).veiv = (getMod s m).veiv := congrArg (·.veiv) (h.rest m)
theorem KeepsMods.hostEvent {m code : Nat} {job : BitVec 12} {data : List Byte} (he : Claims.HostEvent s m job code data) :
    Claims.HostEvent t m job code data := hostEvent_mono (h.frames m) he

end

theorem keepsMods_congr {s₀ s t : State} (h : t.mods = s.mods) : KeepsMods s₀ t ↔ KeepsMods s₀ s := by
  have hm : ∀ m, getMod t m = getMod s m := fun m => by rw [getMod, h, getMod]
  constructor <;> exact fun k => ⟨fun m => hm m ▸ k.rest m, fun m => hm m ▸ k.frames m⟩

section
variable {s₀ : State} (s : State)

@[simp] theorem keepsMods_setPier (pk : Nat) (p : Pier) : KeepsMods s₀ (setPier s pk p) ↔ KeepsMods s₀ s := keepsMods_congr rfl
@[simp] theorem keepsMods_adjPier (pk : Nat) (f : Pier → Pier) : KeepsMods s₀ (adjPier s pk f) ↔ KeepsMods s₀ s := keepsMods_congr rfl
@[simp] theorem keepsMods_adjActor (pk a : Nat) (f : Actor → Actor) : KeepsMods s₀ (adjActor s pk a f) ↔ KeepsMods s₀ s :=
  keepsMods_congr rfl
@[simp] theorem keepsMods_adjStrand (pk st : Nat) (f : Strand → Strand) : KeepsMods s₀ (adjStrand s pk st f) ↔ KeepsMods s₀ s :=
  keepsMods_congr rfl
@[simp] theorem keepsMods_setSluice (pk n : Nat) (x : Sluice) : KeepsMods s₀ (setSluice s pk n x) ↔ KeepsMods s₀ s := keepsMods_congr rfl
@[simp] theorem keepsMods_adjJob (j : Nat) (f : Job → Job) : KeepsMods s₀ (adjJob s j f) ↔ KeepsMods s₀ s := keepsMods_congr rfl
@[simp] theorem keepsMods_nowDo (i : Instr) : KeepsMods s₀ (nowDo s i) ↔ KeepsMods s₀ s := keepsMods_congr rfl
@[simp] theorem keepsMods_schedule (due : Nat) (i : Instr) : KeepsMods s₀ (schedule s due i) ↔ KeepsMods s₀ s := keepsMods_congr rfl

end

theorem SendsOnly.keepsMods {s t : State} (h : SendsOnly s t) : KeepsMods s t :=
  ⟨fun m => congrArg (·.noTraffic) (h.mods m), fun m =>
    (congrArg (·.host.unacked) (h.mods m) : (getMod t m).host.unacked = (getMod s m).host.unacked) ▸ List.Subset.refl _⟩

theorem keepsMods_foldl {α : Type} {s₀ s : State} (h : KeepsMods s₀ s) {f : State → α → State}
    (hf : ∀ s a, KeepsMods s₀ s → KeepsMods s₀ (f s a)) (l : List α) : KeepsMods s₀ (l.foldl f s) := by
  induction l generalizing s with
  | nil => exact h
  | cons a l ih => exact ih (hf s a h)

theorem sarmAt_ok {s t : State} {pk n : Nat} {w : Word} (h : sarmAt s pk n w = .ok t) : t = sarmSet s pk n w := by
  rw [sarmAt] at h
  split at h
  · cases h
  · exact (Trig.ok.inj h).symm

section
variable {s₀ s : State} (h : KeepsMods s₀ s)
include h

/-! Messages, events, faults. -/

@[simp] theorem keepsMods_enqueue (pk key body actor runid bundle strand move w3 unit slot after) :
    KeepsMods s₀ (enqueue s pk key body actor runid bundle strand move w3 unit slot after) :=
  h.trans (sendsOnly_enqueue ..).keepsMods

@[simp] theorem keepsMods_sendEvent (m code job data) : KeepsMods s₀ (sendEvent s m code job data) := by
  refine h.trans ⟨fun k => ?_, fun k => ?_⟩
  · by_cases hk : k = m
    · subst hk
      obtain ⟨x, hx, -⟩ := getMod_sendEvent s k code job data
      rw [hx]
      rfl
    · exact congrArg Module.noTraffic (getMod_adjMod_other _ _ _ _ hk)
  · by_cases hk : k = m
    · subst hk
      obtain ⟨x, hx, hsub⟩ := getMod_sendEvent s k code job data
      rw [hx]
      exact hsub
    · rw [sendEvent, sendFrame, adjHost, getMod_adjMod_other _ _ _ _ hk]
      exact List.Subset.refl _

@[simp] theorem keepsMods_sendDevice (pk lp dst cls prio kind graph words pay flags actor move w3 unit) :
    KeepsMods s₀ (sendDevice s pk lp dst cls prio kind graph words pay flags actor move w3 unit) := by simp [sendDevice, h]

@[simp] theorem keepsMods_sendRecord (pk lp actor w0 w1 w2 w3 w4 w5) :
    KeepsMods s₀ (sendRecord s pk lp actor w0 w1 w2 w3 w4 w5) := by simp [sendRecord, h]

@[simp] theorem keepsMods_takeFault (pk st f bundle stop) : KeepsMods s₀ (takeFault s pk st f bundle stop) := by
  simp only [takeFault]
  split <;> simp [h]

/-! Sluices. -/

@[simp] theorem keepsMods_slPost (pk n action phase count cancelled) : KeepsMods s₀ (slPost s pk n action phase count cancelled) := by
  simp [slPost, h]

@[simp] theorem keepsMods_slRelease (pk n action key c) : KeepsMods s₀ (slRelease s pk n action key c) := by
  simp only [slRelease]
  split <;> simp [h]

@[simp] theorem keepsMods_slAction (pk n action phase count cancelled c) :
    KeepsMods s₀ (slAction s pk n action phase count cancelled c) := by
  have hpost : KeepsMods s₀ (if bitAt action 60 then slPost s pk n action phase count cancelled else s) := by split <;> simp [h]
  simp only [slAction]
  split
  · exact keepsMods_slRelease hpost ..
  · exact hpost

@[simp] theorem keepsMods_slComplete (pk link count) : KeepsMods s₀ (slComplete s pk link count) := by
  have hphase : ∀ f j, KeepsMods s₀ (if bits link 61 2 = 1 then adjJob s j f else s) := fun f j => by split <;> simp [h]
  simp only [slComplete]
  split <;> simp [hphase]

@[simp] theorem keepsMods_slFire (pk n c) : KeepsMods s₀ (slFire s pk n c) := by
  simp only [slFire]
  split <;> simp [h]

@[simp] theorem keepsMods_slCheck (pk n c) : KeepsMods s₀ (slCheck s pk n c) := by
  simp only [slCheck]
  repeat' split
  all_goals simp [h]

@[simp] theorem keepsMods_slUpdate (pk n f c) : KeepsMods s₀ (slUpdate s pk n f c) := by simp [slUpdate, h]

@[simp] theorem keepsMods_enterNotices (pk n l) : KeepsMods s₀ (enterNotices s pk n l) := by
  induction l generalizing s with
  | nil => exact h
  | cons j l ih =>
    simp only [enterNotices]
    split
    · exact ih h
    · exact ih (by simp [h])

@[simp] theorem keepsMods_homeCheck (pk n c) : KeepsMods s₀ (homeCheck s pk n c) := by
  simp only [homeCheck]
  split <;> simp [h]

@[simp] theorem keepsMods_homeArrive (pk n member frm c) : KeepsMods s₀ (homeArrive s pk n member frm c) := by simp [homeArrive, h]

@[simp] theorem keepsMods_sarvArrive (pk st n bundle move slot after) : KeepsMods s₀ (sarvArrive s pk st n bundle move slot after) := by
  simp only [sarvArrive]
  split <;> simp [h]

@[simp] theorem keepsMods_sarvRetry (pk n st) : KeepsMods s₀ (sarvRetry s pk n st) := by
  simp only [sarvRetry]
  repeat' split
  all_goals simp [h]

@[simp] theorem keepsMods_slSettle (pk n) : KeepsMods s₀ (slSettle s pk n) :=
  keepsMods_foldl h (fun _ _ hs => keepsMods_sarvRetry hs ..) _

@[simp] theorem keepsMods_sarmSet (pk n t c) : KeepsMods s₀ (sarmSet s pk n t c) := by
  refine keepsMods_slSettle ?_ ..
  split <;> simp [h]

@[simp] theorem keepsMods_ssetAt (pk n a t c) : KeepsMods s₀ (ssetAt s pk n a t c) := by simp [ssetAt, h]

/-! The image of a job, for the piers that are loaded again. -/

@[simp] theorem keepsMods_loadSluice (pk n action count target) : KeepsMods s₀ (loadSluice s pk n action count target) := by
  refine keepsMods_ssetAt ?_ ..
  split
  · simp [h]
  · split
    · rename_i t ht
      rw [sarmAt_ok ht]
      simp [h]
    · exact h

@[simp] theorem keepsMods_imageCode (img f) : KeepsMods s₀ (imageCode s img f) :=
  keepsMods_foldl h (fun s c hs => by split <;> simp [hs]) _

@[simp] theorem keepsMods_imageSpad (img f) : KeepsMods s₀ (imageSpad s img f) :=
  keepsMods_foldl h (fun s c hs => by split <;> simp [hs]) _

@[simp] theorem keepsMods_imageActors (img f) : KeepsMods s₀ (imageActors s img f) :=
  keepsMods_foldl h (fun s c hs => by split <;> simp [hs]) _

@[simp] theorem keepsMods_imageSluices (img f) : KeepsMods s₀ (imageSluices s img f) :=
  keepsMods_foldl h (fun s c hs => by split <;> simp [hs]) _

@[simp] theorem keepsMods_reloadPier (pk) : KeepsMods s₀ (reloadPier s pk) :=
  keepsMods_imageSluices (keepsMods_imageActors (keepsMods_imageSpad (keepsMods_imageCode ((keepsMods_setPier ..).mpr h) ..) ..) ..) ..

end

end Sys2Proof.Machine
end

section
/-!
Hung piers (O46): a pier past its save limit or found hung is fenced, and its row moves or the pier is lost (R234, R235).
-/

namespace Sys2Proof.Machine

/-! Fencing. -/

theorem keepsMods_fencePier (s : State) (pk : Nat) : KeepsMods s (fencePier s pk) := by
  have h := KeepsMods.refl s
  unfold fencePier
  split <;> simp [h]

theorem fencePier_eq {s : State} {pk : Nat} (hf : (getPier s pk).fenced = false) :
    fencePier s pk = sendEvent (adjPier s pk fun p => { p with fenced := true }) (pkMod pk) 4 (jobOf s pk)
      (wordBytes (BitVec.ofNat 64 (pkLp pk))) := by simp [fencePier, hf]

theorem getPier_fencePier {s : State} {pk : Nat} (hf : (getPier s pk).fenced = false) :
    getPier (fencePier s pk) pk = { getPier s pk with fenced := true } := by
  rw [fencePier_eq hf]
  exact getPier_adjPier_same s pk fun p => { p with fenced := true }

theorem getPier_fencePier_other {s : State} {pk k : Nat} (hf : (getPier s pk).fenced = false) (hk : k ≠ pk) :
    getPier (fencePier s pk) k = getPier s k := by
  rw [fencePier_eq hf]
  exact getPier_adjPier_other s pk k (fun p => { p with fenced := true }) hk

theorem fencePier_memory {s : State} {pk : Nat} (hf : (getPier s pk).fenced = false) : Claims.SameMemory s (fencePier s pk) := by
  refine sameMemory_of_code (by simp [fencePier_eq hf]) fun k => ?_
  by_cases hk : k = pk
  · subst hk
    rw [getPier_fencePier hf]
  · rw [getPier_fencePier_other hf hk]

/-- Of a pier that is fenced the host hears. -/
theorem hostEvent_fencePier {s : State} {pk : Nat} (hf : (getPier s pk).fenced = false) :
    Claims.HostEvent (fencePier s pk) (pkMod pk) (jobOf s pk) 4 (Claims.bytes8 (BitVec.ofNat 64 (pkLp pk))) := by
  rw [fencePier_eq hf, wordBytes_eq]
  exact hostEvent_sendEvent ..

/-! A row without a spare is lost, another moves. -/

/-- A pier context that no spare row takes. -/
def losePier (s : State) (pk : Nat) : State :=
  adjPier s pk fun p =>
    { p with lost := true, fenced := false, strands := [], inbox := [], outbox := [], mq := [], mrun := none, restart := p.restart ++ lostActors p }

/-- The contexts of a row on whose sites a fenced pier stands. -/
def fencedContexts (s : State) (m span row : Nat) : List Nat :=
  (((List.range 16).map fun c => span * 256 + row * 16 + c).filter fun k =>
    (contextsOn s m k).any fun pk => (getPier s pk).fenced).flatMap (contextsOn s m)

theorem applyRow_lost {s : State} {m span row k : Nat} (h : fget (getMod s m).veiv.pierSpared span none = some k) :
    applyRow s m span row = (fencedContexts s m span row).foldl losePier s := by
  rw [applyRow, h]
  rfl

theorem applyRow_moved {s : State} {m span row : Nat} (h : fget (getMod s m).veiv.pierSpared span none = none) :
    applyRow s m span row = (fencedContexts s m span row).foldl reloadPier (moveRow s m span row) := by
  rw [applyRow, h]
  rfl

theorem lost_losePier (s : State) (k pk : Nat) (h : k = pk ∨ (getPier s pk).lost = true) : (getPier (losePier s k) pk).lost = true := by
  by_cases hk : pk = k
  · subst hk
    rw [losePier, getPier_adjPier_same]
  · rw [losePier, getPier_adjPier_other _ _ _ _ hk]
    exact h.resolve_left (Ne.symm hk)

theorem lost_foldl {l : List Nat} {pk : Nat} (s : State) (h : pk ∈ l ∨ (getPier s pk).lost = true) :
    (getPier (l.foldl losePier s) pk).lost = true := by
  induction l generalizing s with
  | nil => exact h.resolve_left List.not_mem_nil
  | cons k l ih =>
    refine ih _ (h.elim (fun hm => ?_) fun hl => .inr (lost_losePier s k pk (.inr hl)))
    exact (List.mem_cons.mp hm).elim (fun he => .inr (lost_losePier s k pk (.inl he.symm))) .inl

theorem key_mem_fset {α : Type} (l : FMap α) (k : Nat) (v : α) : k ∈ (fset l k v).map (·.1) := by
  induction l with
  | nil => simp [fset]
  | cons e l ih =>
    rw [fset]
    repeat' split
    all_goals simp [ih]

/-- A pier alone on its site stands there fenced as well. -/
theorem onItsSite_fencePier {s : State} {pk : Nat} (h : Claims.OnItsSite s pk) (hf : (getPier s pk).fenced = false) :
    Claims.OnItsSite (fencePier s pk) pk ∧ siteOf (fencePier s pk) pk = siteOf s pk := by
  have hpart : ∀ m p, getPart (fencePier s pk) m p = getPart s m p := fun m p => by
    rw [getPart, (keepsMods_fencePier s pk).parts, getPart]
  have hentry : ∀ m p lp, entryOf (fencePier s pk) m p lp = entryOf s m p lp := fun m p lp => by simp only [entryOf, hpart]
  have hsite : siteOf (fencePier s pk) pk = siteOf s pk := by simp only [siteOf, hentry]
  refine ⟨⟨?_, ?_, (hentry ..).symm ▸ h.carrier, hsite ▸ h.row⟩, hsite⟩
  · rw [fencePier_eq hf]
    exact key_mem_fset ..
  · rw [pierLoc, hsite, hpart]
    exact h.resident

/-- A fenced pier on its site is among the contexts of its row. -/
theorem mem_fencedContexts {s : State} {pk : Nat} (h : Claims.OnItsSite s pk) (hf : (getPier s pk).fenced = true) :
    pk ∈ fencedContexts s (pkMod pk) (siteOf s pk / 256) (siteOf s pk / 16 % 16) := by
  have hon : pk ∈ contextsOn s (pkMod pk) (siteOf s pk) :=
    List.mem_filter.mpr ⟨h.listed, by simp [h.carrier, h.resident]⟩
  refine List.mem_flatMap.mpr ⟨siteOf s pk, List.mem_filter.mpr ⟨List.mem_map.mpr ⟨siteOf s pk % 16, ?_, ?_⟩, ?_⟩, hon⟩
  · exact List.mem_range.mpr (Nat.mod_lt _ (by decide))
  · omega
  · exact List.any_eq_true.mpr ⟨pk, hon, hf⟩

/-- The row stands on the spare row of its span; the host does not know yet. -/
def rowMoved (s : State) (m span row : Nat) : State :=
  let s1 := { s with sites := s.sites.filter fun x => !(x.1 / 1024 == m && x.1 % 1024 / 16 == span * 16 + row) }
  adjVeiv (adjMod s1 m fun x => { x with siteMap := fset x.siteMap (span * 16 + row) (some 16) }) m fun v =>
    { v with pierSpared := fset v.pierSpared span (some row) }

theorem moveRow_eq (s : State) (m span row : Nat) :
    moveRow s m span row = spareEvent (rowMoved s m span row) m 1 (BitVec.ofNat 64 (span + row * 2 ^ 8)) := rfl

theorem getMod_rowMoved (s : State) (m span row : Nat) : getMod (rowMoved s m span row) m =
    { getMod s m with
      siteMap := fset (getMod s m).siteMap (span * 16 + row) (some 16)
      veiv := { (getMod s m).veiv with pierSpared := fset (getMod s m).veiv.pierSpared span (some row) } } := by
  rw [rowMoved, adjVeiv, getMod_adjMod_same, getMod_adjMod_same]
  rfl

theorem keepsMods_spareEvent (s : State) (m kind : Nat) (unit : Word) : KeepsMods s (spareEvent s m kind unit) :=
  keepsMods_sendEvent (.refl s) ..

/-- A pier that no spare row takes is lost; the halt waits on unchanged. -/
theorem applyRow_loses {s : State} {m span row k : Nat} (h : fget (getMod s m).veiv.pierSpared span none = some k) :
    KeepsMods s (applyRow s m span row) ∧ ∀ pk ∈ fencedContexts s m span row, (getPier (applyRow s m span row) pk).lost = true := by
  rw [applyRow_lost h]
  exact ⟨keepsMods_foldl (.refl s) (fun _ _ hs => (keepsMods_adjPier ..).mpr hs) _, fun pk hm => lost_foldl s (.inl hm)⟩

/-- A row that moves stands on the spare row, its contexts loaded again. -/
theorem applyRow_moves {s : State} {m span row : Nat} (h : fget (getMod s m).veiv.pierSpared span none = none) :
    KeepsMods (rowMoved s m span row) (applyRow s m span row) := by
  rw [applyRow_moved h, moveRow_eq]
  exact keepsMods_foldl (keepsMods_spareEvent ..) (fun _ _ hs => keepsMods_reloadPier hs ..) _

/-! The save limit of a halt passes (R234). -/

theorem cancelOverdue_iff (s : State) (pk : Nat) : cancelOverdue s pk = true ↔ Claims.Overdue s pk := by
  simp only [cancelOverdue, Claims.Overdue, List.any_eq_true]
  refine exists_congr fun e => and_congr_right fun _ => ?_
  cases e.2.cancelRun with
  | none => simp
  | some r =>
    simp only [Bool.and_eq_true, List.contains_iff_mem, decide_eq_true_eq, Option.some.injEq, exists_eq_left']
    rfl

section
variable {s : State} {pk : Nat} {h : Halt} (hw : Claims.HaltWaits s (pkMod pk) (pkPart pk) (pkLp pk) h)
  (hh : (getPier s pk).halting = true)

include hw hh in
/-- A pier whose limit has passed is fenced, its row is moved, and the halt no longer waits for it. -/
theorem exec_saveLimitExpiry_passed (hl : max 16800 (getPier s pk).savelim.toNat ≤ s.cycle - (getPier s pk).haltCount) :
    exec (.saveLimitExpiry pk) s = .next (haltAcked
      (applyRow (fencePier s pk) (pkMod pk) (siteOf s pk / 256) (siteOf s pk / 16 % 16)) (pkMod pk) (pkPart pk, pkLp pk)) := by
  have hwaits := haltWaits_of_waits hw
  rw [exec_saveLimitExpiry, execSaveLimitExpiry, if_pos ⟨hwaits, hh, hl⟩]
  rfl

/-- Before its limit a pier is only looked at for a cancel that it owes. -/
theorem exec_saveLimitExpiry_early (hl : s.cycle - (getPier s pk).haltCount < max 16800 (getPier s pk).savelim.toNat) :
    exec (.saveLimitExpiry pk) s = .next (if cancelOverdue s pk then nowDo s (.hungPier pk) else s) := by
  rw [exec_saveLimitExpiry, execSaveLimitExpiry, if_neg fun hc => Nat.not_le_of_lt hl hc.2.2]
  rfl

include hw hh

/-- Without a spare row the pier is lost. -/
theorem saveLimitExpiry_loses (hn : h.next = .stay) (hf : (getPier s pk).fenced = false)
    (hl : max 16800 (getPier s pk).savelim.toNat ≤ s.cycle - (getPier s pk).haltCount) {k : Nat}
    (hk : fget (getMod s (pkMod pk)).veiv.pierSpared (siteOf s pk / 256) none = some k) (hsite : Claims.OnItsSite s pk) :
    ∃ s', exec (.saveLimitExpiry pk) s = .next s' ∧
      Claims.HostEvent s' (pkMod pk) (jobOf s pk) 4 (Claims.bytes8 (BitVec.ofNat 64 (pkLp pk))) ∧
      (getPier s' pk).lost = true ∧ (getMod s' (pkMod pk)).halts = [] := by
  have hfence := keepsMods_fencePier s pk
  obtain ⟨hsite', hsame⟩ := onItsSite_fencePier hsite hf
  obtain ⟨hrow, hlost⟩ := applyRow_loses (s := fencePier s pk) (row := siteOf s pk / 16 % 16) (by rw [hfence.veiv]; exact hk)
  have hkeep := hfence.trans hrow
  rw [exec_saveLimitExpiry_passed hw hh hl, haltAcked_last ((hkeep.halts _).trans hw.one) hw.waiting hn]
  refine ⟨_, rfl, hostEvent_mono ?_ (hrow.hostEvent (hostEvent_fencePier hf)), ?_, by rw [getMod_withHalts]⟩
  · rw [getMod_withHalts]
    exact List.Subset.refl _
  · refine hlost pk (hsame ▸ mem_fencedContexts hsite' ?_)
    rw [getPier_fencePier hf]

/-- With one its row moves there. -/
theorem saveLimitExpiry_moves (hn : h.next = .stay) (hf : (getPier s pk).fenced = false)
    (hl : max 16800 (getPier s pk).savelim.toNat ≤ s.cycle - (getPier s pk).haltCount)
    (hk : fget (getMod s (pkMod pk)).veiv.pierSpared (siteOf s pk / 256) none = none) :
    ∃ s', exec (.saveLimitExpiry pk) s = .next s' ∧
      Claims.HostEvent s' (pkMod pk) (jobOf s pk) 4 (Claims.bytes8 (BitVec.ofNat 64 (pkLp pk))) ∧ (getMod s' (pkMod pk)).halts = [] ∧
      fget (getMod s' (pkMod pk)).siteMap (siteOf s pk / 256 * 16 + siteOf s pk / 16 % 16) none = some 16 ∧
      fget (getMod s' (pkMod pk)).veiv.pierSpared (siteOf s pk / 256) none = some (siteOf s pk / 16 % 16) := by
  have hfence := keepsMods_fencePier s pk
  have hrow := applyRow_moves (s := fencePier s pk) (row := siteOf s pk / 16 % 16) (by rw [hfence.veiv]; exact hk)
  have hmod := getMod_rowMoved (fencePier s pk) (pkMod pk) (siteOf s pk / 256) (siteOf s pk / 16 % 16)
  have hhalts := (hrow.halts (pkMod pk)).trans ((congrArg Module.halts hmod).trans ((hfence.halts _).trans hw.one))
  rw [exec_saveLimitExpiry_passed hw hh hl, haltAcked_last hhalts hw.waiting hn]
  have htold := hrow.hostEvent (hostEvent_mono (by rw [hmod]; exact List.Subset.refl _) (hostEvent_fencePier hf))
  refine ⟨_, rfl, hostEvent_mono ?_ htold, by rw [getMod_withHalts], ?_, ?_⟩
  · rw [getMod_withHalts]
    exact List.Subset.refl _
  · rw [getMod_withHalts, hrow.siteMap, hmod]
    exact fget_fset_same ..
  · rw [getMod_withHalts, hrow.veiv, hmod]
    exact fget_fset_same ..

end

/-! A hung pier (R235). -/

/-- A fenced pier is not waited for. -/
theorem haltOf_fenced {s : State} {pk : Nat} (hf : (getPier s pk).fenced = true) (parts : List (Nat × List Nat)) (next : HaltNext) :
    ∀ x ∈ (haltOf s (pkMod pk) parts next).waiting, x ≠ (pkPart pk, pkLp pk) := by
  intro x hx he
  obtain ⟨y, -, hy⟩ := List.mem_flatMap.mp hx
  obtain ⟨hs, -, hwho⟩ := List.mem_flatMap.mp hy
  rw [haltWho] at hwho
  split at hwho
  case isFalse => cases hwho
  obtain hp | ha := List.mem_append.mp hwho
  · obtain ⟨k, hk, rfl⟩ := List.mem_map.mp hp
    obtain ⟨hat, hopen⟩ := List.mem_filter.mp hk
    obtain ⟨lp, hlp, rfl⟩ := piersOf_pkOf hat
    obtain ⟨hpart, hpier⟩ := Prod.ext_iff.mp he
    simp only [pkLp_pkOf _ _ hlp] at hpart hpier
    rw [hpart, hpier, pkOf_parts, hf] at hopen
    simp at hopen
  · obtain ⟨i, -, rfl⟩ := List.mem_map.mp ha
    have := pkLp_lt pk
    have := (Prod.ext_iff.mp he).2
    simp only at this
    omega

theorem exec_hungPier_open {s : State} {pk : Nat} (hf : (getPier s pk).fenced = false) (hl : (getPier s pk).lost = false) :
    exec (.hungPier pk) s = .next (startHalt (fencePier s pk) (pkMod pk)
      (rowParts s (pkMod pk) (siteOf s pk / 256) (siteOf s pk / 16 % 16)) (.row (siteOf s pk / 256) (siteOf s pk / 16 % 16))) := by
  rw [exec_hungPier, execHungPier, if_neg (by simp [hf, hl])]
  rfl

theorem hungPier_halts {s : State} {pk : Nat} (hf : (getPier s pk).fenced = false) (hl : (getPier s pk).lost = false) :
    ∃ s' h, exec (.hungPier pk) s = .next s' ∧ (getPier s' pk).fenced = true ∧
      Claims.HostEvent s' (pkMod pk) (jobOf s pk) 4 (Claims.bytes8 (BitVec.ofNat 64 (pkLp pk))) ∧ h ∈ (getMod s' (pkMod pk)).halts ∧
      h.next = .row (siteOf s pk / 256) (siteOf s pk / 16 % 16) ∧ (∀ x ∈ h.waiting, x ≠ (pkPart pk, pkLp pk)) ∧
      Claims.SameMemory s s' := by
  have hfenced : (getPier (fencePier s pk) pk).fenced = true := by rw [getPier_fencePier hf]
  generalize hparts : rowParts s (pkMod pk) (siteOf s pk / 256) (siteOf s pk / 16 % 16) = parts
  generalize hnext : HaltNext.row (siteOf s pk / 256) (siteOf s pk / 16 % 16) = next
  refine ⟨_, haltOf (fencePier s pk) (pkMod pk) parts next, hparts ▸ hnext ▸ exec_hungPier_open hf hl, ?_,
    hostEvent_mono ?_ (hostEvent_fencePier hf), ?_, rfl, haltOf_fenced hfenced parts next,
    sameMemory_trans (fencePier_memory hf) (startHalt_memory ..)⟩
  · rw [getPier_startHalt, hfenced]
  · rw [getMod_startHalt]
    exact List.Subset.refl _
  · rw [getMod_startHalt]
    exact List.mem_append_right _ (List.mem_singleton_self _)

theorem hungPier_done {s : State} {pk : Nat} (h : (getPier s pk).fenced = true ∨ (getPier s pk).lost = true) :
    exec (.hungPier pk) s = .next s := by
  rw [exec_hungPier, execHungPier, if_pos h]
  rfl

/-! The health probe (R235). -/

/-- What one of the steps scheduled puts in the calendar stands there behind all of them. -/
theorem cal_foldl {α : Type} {f : State → α → State} (hf : ∀ s a, Schedules s (f s a)) {l : List α} {a : α} (ha : a ∈ l)
    {e : Nat × Instr} {s : State} (he : ∀ t, Schedules s t → e ∈ (f t a).cal) : e ∈ (l.foldl f s).cal := by
  induction l generalizing s with
  | nil => cases ha
  | cons b l ih =>
    obtain rfl | hl := List.mem_cons.mp ha
    · exact (schedules_foldl hf l _).cal _ (he s (.refl s))
    · exact ih hl fun t ht => he t ((hf s b).trans ht)

/-- The piers of a module whose service actor cannot answer. -/
def frozenPiers (s : State) (m : Nat) : List Nat :=
  (s.piers.map (·.1)).filter fun pk =>
    pkMod pk == m && pierLoc s pk == .piers && (getActor s pk 63).st == .frozen && !(getPier s pk).fenced && !(getPier s pk).lost

/-- A pier is looked at again after its save limit. -/
def probePier (s : State) (pk : Nat) : State := schedule s (s.cycle + saveLimit (getPier s pk)) (.hungPier pk)

theorem exec_healthProbe_eq (s : State) (m : Nat) : exec (.healthProbe m) s = .next ((frozenPiers s m).foldl probePier s) := rfl

theorem schedules_probePier (s : State) (pk : Nat) : Schedules s (probePier s pk) := schedules_schedule ..

theorem healthProbe_finds (s : State) (pk : Nat) :
    ∃ s', exec (.healthProbe (pkMod pk)) s = .next s' ∧ Claims.SameMemory s s' ∧ (∀ q, getPier s' q = getPier s q) ∧
      (pk ∈ s.piers.map (·.1) → pierLoc s pk = .piers → (getActor s pk 63).st = .frozen → (getPier s pk).fenced = false →
        (getPier s pk).lost = false → (s.cycle + max 16800 (getPier s pk).savelim.toNat, Instr.hungPier pk) ∈ s'.cal) ∧
      ((∀ q ∈ s.piers.map (·.1), (getActor s q 63).st ≠ .frozen) → s' = s) := by
  have hall := schedules_foldl schedules_probePier (frozenPiers s (pkMod pk)) s
  refine ⟨_, exec_healthProbe_eq s _, hall.sameMemory, hall.getPier, fun hk hr ha hf hl => ?_, fun hn => ?_⟩
  · have hmem : pk ∈ frozenPiers s (pkMod pk) := List.mem_filter.mpr ⟨hk, by simp [hr, ha, hf, hl]⟩
    refine cal_foldl schedules_probePier hmem fun t ht => ?_
    rw [probePier, ht.cycle, ht.getPier]
    exact List.mem_append_right _ (List.mem_singleton_self _)
  · have hnone : frozenPiers s (pkMod pk) = [] := List.filter_eq_nil_iff.mpr fun q hq => by simp [hn q hq]
    rw [hnone]
    rfl

theorem hungPiersAreFenced : Claims.HungPiersAreFenced := by
  refine fun s pk => ⟨fun h hw hn hh hf => ⟨fun hl => ⟨fun k hk hsite => ?_, fun hk => ?_⟩, fun hl => ?_⟩, hungPier_halts, hungPier_done,
    healthProbe_finds s pk⟩
  · exact saveLimitExpiry_loses hw hh hn hf hl hk hsite
  · exact saveLimitExpiry_moves hw hh hn hf hl hk
  · rw [exec_saveLimitExpiry_early hl, ← cancelOverdue_iff]
    exact ⟨fun hno => by rw [if_neg hno], fun hyes => by rw [if_pos hyes]⟩

/-- Settles O46: a halt from its begin to its last acknowledgement, and the piers that a halt or the health probe finds hung. -/
theorem haltsAndHungPiers : Obligations.HaltsAndHungPiers := ⟨partitionsHalt, hungPiersAreFenced⟩

end Sys2Proof.Machine
end

section
/-!
What a trigger does under a true guard with a value in its source, said once for the units: its effect, a hold or a fault; the state that
its body gets; and what a change of the strand in hand leaves alone.
-/

namespace Sys2Proof.Machine

/-! The code stores, which no operation of a run writes. -/

/-- The code stores of a machine, by pier context. -/
def codes (s : State) : Nat → FMap (BitVec 128) := fun pk => (getPier s pk).code

theorem sameMemory_of {s t : State} (hm : memories t = memories s) (hc : codes t = codes s) : Claims.SameMemory s t :=
  sameMemory_of_code hm (congrFun hc)

theorem codes_setPier (s : State) (pk : Nat) (p : Pier) (h : p.code = codes s pk) : codes (setPier s pk p) = codes s := by
  refine funext fun k => ?_
  by_cases hk : k = pk
  · subst hk
    simpa [codes] using h
  · simp only [codes, getPier_setPier_other _ _ _ _ hk]

@[simp] theorem codes_adjPier (s : State) (pk : Nat) (f : Pier → Pier) (h : ∀ p, (f p).code = p.code) : codes (adjPier s pk f) = codes s :=
  codes_setPier _ _ _ (h _)

@[simp] theorem codes_mk (s : State) (cycle : Nat) (agenda : List Work) (cal : List (Nat × Instr)) (issue : Issue) (fresh tok : Nat)
    (torus : Nat × Nat × Nat) (mods : FMap Module) (sites : FMap Site) (jobs : FMap Job) (walks : FMap (Option Walk)) :
    codes ⟨cycle, agenda, cal, issue, fresh, tok, torus, mods, s.piers, sites, jobs, walks⟩ = codes s := rfl

theorem SendsOnly.codes {s t : State} (h : SendsOnly s t) : codes t = codes s := funext h.code

theorem SendsOnly.sameMemory {s t : State} (h : SendsOnly s t) : Claims.SameMemory s t := sameMemory_of h.memories h.codes

theorem sameMemory_refl (s : State) : Claims.SameMemory s s := sameMemory_of rfl rfl

@[simp] theorem codes_setStrand (s : State) (pk st : Nat) (x : Strand) : codes (setStrand s pk st x) = codes s := by simp [setStrand]
@[simp] theorem codes_adjStrand (s : State) (pk st : Nat) (f : Strand → Strand) : codes (adjStrand s pk st f) = codes s := by
  simp [adjStrand]
@[simp] theorem codes_adjActor (s : State) (pk a : Nat) (f : Actor → Actor) : codes (adjActor s pk a f) = codes s := by simp [adjActor]
@[simp] theorem codes_setSluice (s : State) (pk n : Nat) (x : Sluice) : codes (setSluice s pk n x) = codes s := by simp [setSluice]
@[simp] theorem codes_adjCur (s : State) (f : Strand → Strand) : codes (adjCur s f) = codes s := codes_adjStrand ..
@[simp] theorem codes_adjCurPier (s : State) (f : Pier → Pier) (h : ∀ p, (f p).code = p.code) : codes (adjCurPier s f) = codes s :=
  codes_adjPier _ _ _ h
@[simp] theorem codes_schedule (s : State) (due : Nat) (i : Instr) : codes (schedule s due i) = codes s := rfl
@[simp] theorem codes_nowDo (s : State) (i : Instr) : codes (nowDo s i) = codes s := rfl
@[simp] theorem codes_tick1 (s : State) : codes (tick1 s) = codes s := rfl
@[simp] theorem codes_adjMod (s : State) (m : Nat) (f : Module → Module) : codes (adjMod s m f) = codes s := rfl
@[simp] theorem codes_adjJob (s : State) (j : Nat) (f : Job → Job) : codes (adjJob s j f) = codes s := rfl

/-! Fields of words. -/

theorem fld_eq_bits (w : Word) (lo n : Nat) : Claims.fld w lo n = bits w lo n := rfl

theorem getLsbD_eq_bitAt (w : Word) (i : Nat) : w.getLsbD i = bitAt w i := by
  rw [bitAt, BitVec.getLsbD, Nat.testBit_eq_decide_div_mod_eq]
  rfl

/-! The ways of a trigger (R78, R80, R89). -/

section
variable {s : State} {m : Mv} {t : Value} (h : Claims.Fires s m t) {k : Need} {hd : State → Value → Value → Value → Bool}
  {b : State → Value → Value → Value → Trig}
include h

theorem runTrigger_ok {s' : State} (hc : checked s k t b = .ok s')
    (hh : hd s t (needed (curStrand s) k.a) (needed (curStrand s) k.b) = false) : runTrigger s m k hd b = s' := by
  rw [runTrigger_value h.1 h.2, hc]
  simp [hh]

theorem runTrigger_held {s' : State} (hc : checked s k t b = .ok s')
    (hh : hd s t (needed (curStrand s) k.a) (needed (curStrand s) k.b) = true) : runTrigger s m k hd b = markHeld s := by
  rw [runTrigger_value h.1 h.2, hc]
  simp [hh]

theorem runTrigger_fault {code : Nat} {w3 : Word} (hc : checked s k t b = .fault code w3)
    (hh : hd s t (needed (curStrand s) k.a) (needed (curStrand s) k.b) = false) :
    runTrigger s m k hd b = raise s k.unit code (moveWord s t) w3 := by
  rw [runTrigger_value h.1 h.2, hc]
  simp [hh]

end

/-- The state that the body of a trigger of a unit gets: the unit's result ports are empty. -/
def cleared (s : State) (u : Nat) : State := adjCur s fun x => clearUnit x u

section
variable {s : State} {t : Value} {b : State → Value → Value → Value → Trig}

/-- A trigger without operand ports whose value is clean goes on to its own checks. -/
theorem checked_clean {u : Nat} (ht : t.poison = false) :
    checked s { unit := u, steerT := true } t b = b (cleared s u) t Value.zero Value.zero := checked_body (by simp [ht]) rfl rfl

/-- So does one whose port a is written and clean. -/
theorem checked_portA {u : Nat} {o : OpSel} {a : Value} (hp : Claims.Port s o a) (ht : t.poison = false) (ha : a.poison = false) :
    checked s { unit := u, a := some o, steerT := true, steerA := true } t b = b (cleared s u) t a Value.zero := by
  have hn := needed_port hp
  rw [checked_body (by simp [ht, hn, ha]) (missing_port hp) rfl, hn]
  rfl

theorem checked_portsAB {u : Nat} {o o' : OpSel} {a c : Value} (hp : Claims.Port s o a) (hq : Claims.Port s o' c) (ht : t.poison = false)
    (ha : a.poison = false) (hc : c.poison = false) :
    checked s { unit := u, a := some o, b := some o', steerT := true, steerA := true, steerB := true } t b = b (cleared s u) t a c := by
  have hn := needed_port hp
  have hm := needed_port hq
  rw [checked_body (by simp [ht, hn, ha, hm, hc]) (missing_port hp) (missing_port hq), hn, hm]
  rfl

/-- A poisoned value that steers the unit is consumed. -/
theorem checked_poisoned {k : Need} (hk : k.steerT = true) (ht : t.poison = true) : checked s k t b = .fault 0x0C 0 := by
  simp [checked, hk, ht]

end

/-! What the body of a trigger reads is as it was. -/

section
variable (s : State) (u : Nat)

theorem getPier_cleared {α : Type} (g : Pier → α) (hg : ∀ p l, g { p with strands := l } = g p) (pk : Nat) :
    g (getPier (cleared s u) pk) = g (getPier s pk) := getPier_adjCur g hg s _ pk

@[simp] theorem cleared_issue : (cleared s u).issue = s.issue := rfl
@[simp] theorem cleared_cycle : (cleared s u).cycle = s.cycle := rfl
@[simp] theorem cleared_tok : (cleared s u).tok = s.tok := rfl
@[simp] theorem cleared_cal : (cleared s u).cal = s.cal := rfl
@[simp] theorem cleared_agenda : (cleared s u).agenda = s.agenda := rfl
@[simp] theorem cleared_fresh : (cleared s u).fresh = s.fresh := rfl
@[simp] theorem cleared_mods : (cleared s u).mods = s.mods := rfl
@[simp] theorem cleared_jobs : (cleared s u).jobs = s.jobs := rfl
@[simp] theorem cleared_sites : (cleared s u).sites = s.sites := rfl
@[simp] theorem cleared_walks : (cleared s u).walks = s.walks := rfl
@[simp] theorem cleared_torus : (cleared s u).torus = s.torus := rfl
@[simp] theorem getMod_cleared (m : Nat) : getMod (cleared s u) m = getMod s m := rfl
@[simp] theorem getJob_cleared (j : Nat) : getJob (cleared s u) j = getJob s j := rfl
@[simp] theorem jobOf_cleared (pk : Nat) : jobOf (cleared s u) pk = jobOf s pk := rfl
@[simp] theorem moveWord_cleared (t : Value) : moveWord (cleared s u) t = moveWord s t := rfl
@[simp] theorem gmEntries_cleared : gmEntries (cleared s u) = gmEntries s := rfl
@[simp] theorem memories_cleared : memories (cleared s u) = memories s := by simp [cleared]
@[simp] theorem codes_cleared : codes (cleared s u) = codes s := by simp [cleared]
@[simp] theorem curStrand_cleared : curStrand (cleared s u) = clearUnit (curStrand s) u := curStrand_adjCur ..
@[simp] theorem curService_cleared : curService (cleared s u) = curService s := by rw [curService, curStrand_cleared]; rfl
@[simp] theorem curActorIx_cleared : curActorIx (cleared s u) = curActorIx s := by rw [curActorIx, curStrand_cleared]; rfl
@[simp] theorem curLp_cleared : curLp (cleared s u) = curLp s := by rw [curLp, curStrand_cleared]; rfl
@[simp] theorem actors_cleared (pk : Nat) : (getPier (cleared s u) pk).actors = (getPier s pk).actors :=
  getPier_cleared s u Pier.actors (fun _ _ => rfl) pk
@[simp] theorem sluices_cleared (pk : Nat) : (getPier (cleared s u) pk).sluices = (getPier s pk).sluices :=
  getPier_cleared s u Pier.sluices (fun _ _ => rfl) pk
@[simp] theorem outbox_cleared (pk : Nat) : (getPier (cleared s u) pk).outbox = (getPier s pk).outbox :=
  getPier_cleared s u Pier.outbox (fun _ _ => rfl) pk
@[simp] theorem inbox_cleared (pk : Nat) : (getPier (cleared s u) pk).inbox = (getPier s pk).inbox :=
  getPier_cleared s u Pier.inbox (fun _ _ => rfl) pk
@[simp] theorem mq_cleared (pk : Nat) : (getPier (cleared s u) pk).mq = (getPier s pk).mq :=
  getPier_cleared s u Pier.mq (fun _ _ => rfl) pk
@[simp] theorem credits_cleared (pk : Nat) : (getPier (cleared s u) pk).credits = (getPier s pk).credits :=
  getPier_cleared s u Pier.credits (fun _ _ => rfl) pk
@[simp] theorem spad_cleared (pk : Nat) : (getPier (cleared s u) pk).spad = (getPier s pk).spad :=
  getPier_cleared s u Pier.spad (fun _ _ => rfl) pk
@[simp] theorem getActor_cleared (pk a : Nat) : getActor (cleared s u) pk a = getActor s pk a := by simp [getActor, pierActor]
@[simp] theorem curActor_cleared : curActor (cleared s u) = curActor s := by simp [curActor]
@[simp] theorem getSluice_cleared (pk n : Nat) : getSluice (cleared s u) pk n = getSluice s pk n := by simp [getSluice, pierSluice]
theorem getStrand_cleared_other {pk st : Nat} (h : ¬(pk = s.issue.pk ∧ st = s.issue.strand)) :
    getStrand (cleared s u) pk st = getStrand s pk st := getStrand_adjCur_other s _ pk st h
@[simp] theorem inScope_cleared (sc : Scope) (e : Inflight) : inScope (cleared s u) sc e = inScope s sc e := by simp [inScope]
@[simp] theorem entriesOf_clearUnit (x : Strand) : entriesOf (clearUnit x u) = entriesOf x := rfl
@[simp] theorem gmHere_cleared : gmHere (cleared s u) = gmHere s := by simp [gmHere]
@[simp] theorem gmHereIn_cleared (sc : Scope) : gmHereIn (cleared s u) sc = gmHereIn s sc := by simp [gmHereIn]

/-- What is done to the strand in hand after its unit's ports are emptied. -/
theorem adjCur_cleared (f : Strand → Strand) : adjCur (cleared s u) f = adjCur s fun x => f (clearUnit x u) := adjCur_adjCur ..

end

/-! Frames of a change of the strand in hand. -/

theorem sameRegs_refl (x : Strand) : Claims.SameRegs x x :=
  ⟨fun _ => rfl, fun _ => rfl, fun _ => rfl, fun _ => rfl, fun _ => rfl, fun _ => rfl, rfl, rfl, rfl, rfl, rfl, rfl, rfl, rfl⟩

/-- What a strand holds beside registers, ports of operands and its identity. -/
theorem sameRegs_update (x : Strand) (wait : Wait) (owed : List Owed) (donePending : Bool) (pc stop : BitVec 12) (res : FMap ResPort)
    (inf : FMap (Option Inflight)) (pend : List Pending) (wd start tries parkAt : Nat) :
    Claims.SameRegs x { x with wait, owed, donePending, pc, stop, res, inf, pend, wd, start, tries, parkAt } :=
  ⟨fun _ => rfl, fun _ => rfl, fun _ => rfl, fun _ => rfl, fun _ => rfl, fun _ => rfl, rfl, rfl, rfl, rfl, rfl, rfl, rfl, rfl⟩

theorem sameRegs_clearUnit (x : Strand) (u : Nat) : Claims.SameRegs x (clearUnit x u) := sameRegs_update ..

/-- A trigger that changes the strand in hand alone, its registers and other units' ports apart, has the frame of its unit, whatever it
puts on its way. -/
theorem frame_of_strand {s t : State} {u : Nat} {f : Strand → Strand} (hp : t.piers = (adjCur s f).piers)
    (hr : Claims.SameRegs (curStrand s) (f (curStrand s)))
    (hport : ∀ i, i / 4 ≠ 0x20 + u → resPort (f (curStrand s)) i = resPort (curStrand s) i)
    (hrest : t.mods = s.mods ∧ t.sites = s.sites ∧ t.jobs = s.jobs ∧ t.walks = s.walks ∧ t.issue = s.issue ∧ t.cycle = s.cycle) :
    Claims.Frame s t u := by
  have hpier : ∀ pk, getPier t pk = getPier (adjCur s f) pk := fun pk => by rw [getPier, hp, getPier]
  have hcur : curStrand t = f (curStrand s) := by
    rw [curStrand, hrest.2.2.2.2.1, getStrand, hpier, ← curStrand_adjCur s f]
    rfl
  have hmod : ∀ m, getMod t m = getMod s m := fun m => by rw [getMod, hrest.1, getMod]
  have hsite : ∀ k, getSite t k = getSite s k := fun k => by rw [getSite, hrest.2.1, getSite]
  exact
    { regs := hcur ▸ hr
      ports := hcur ▸ hport
      strands := fun pk st h => by rw [getStrand, hpier]; exact getStrand_adjCur_other s f pk st h
      piers := fun pk => by rw [hpier]; exact getPier_adjCur Claims.noStrands (fun _ _ => rfl) s f pk
      divider := fun _ pk => by rw [hpier]; exact getPier_adjCur Pier.divBusy (fun _ _ => rfl) s f pk
      memory := ⟨fun m a => by rw [hmod], fun k a => by rw [hsite],
        fun pk a => by rw [hpier, getPier_adjCur Pier.spad (fun _ _ => rfl)],
        fun pk a => by rw [hpier, getPier_adjCur Pier.code (fun _ _ => rfl)]⟩
      rest := hrest }

/-- A trigger of another unit than im that leaves all but its strand alone leaves what messages and sluices hold. -/
theorem runFrame_of_frame {s t : State} {u : Nat} (h : Claims.Frame s t u) (hu : u ≠ 3) : Claims.RunFrame s t u where
  regs := h.regs
  ports := h.ports
  strands := h.strands
  actors pk := (congrArg Pier.actors (h.piers pk) :)
  sluices pk := (congrArg Pier.sluices (h.piers pk) :)
  messages pk := ⟨(congrArg Pier.inbox (h.piers pk) :), (congrArg Pier.outbox (h.piers pk) :)⟩
  control pk := ⟨(congrArg Pier.wins (h.piers pk) :), (congrArg Pier.handlers (h.piers pk) :), (congrArg Pier.xlroot (h.piers pk) :), h.divider hu pk⟩
  issue := h.rest.2.2.2.2.1

end Sys2Proof.Machine
end

section
/-!
The state that reset leaves (O58).
-/

namespace Sys2Proof.Machine

/-- Every module reads at reset as one that nothing has written, but for its presence. -/
theorem getMod_reset (m : Nat) : getMod State.reset m = { present := (getMod State.reset m).present } := by
  by_cases hm : m = 0
  · subst hm
    rfl
  · simp [getMod, State.reset, fget, Ne.symm hm]

theorem getPier_reset (pk : Nat) : getPier State.reset pk = {} := rfl

theorem canonical_reset : Claims.Canonical State.reset := (canonical_iff_wf _).mpr ((wf_memories _).mpr memoriesWf_reset)

/-- An entry that nothing has written is not valid and names its own index as carrier and as site (R195). -/
theorem blankEntry_fields {lp : Nat} (h : lp < 1024) : (blankEntry lp).getLsbD 31 = false ∧
    ((blankEntry lp).extractLsb' 10 10).toNat = lp ∧ ((blankEntry lp).extractLsb' 0 10).toNat = lp := by
  have hn : (blankEntry lp).toNat = lp * 1024 + lp := by
    rw [blankEntry, BitVec.toNat_ofNat, Nat.mod_eq_of_lt h]
    omega
  have hd : (lp * 1024 + lp) / 1024 = lp := by
    rw [Nat.mul_comm, Nat.mul_add_div (by decide), Nat.div_eq_of_lt h, Nat.add_zero]
  refine ⟨?_, ?_, ?_⟩
  · rw [BitVec.getLsbD, hn]
    exact Nat.testBit_lt_two_pow (by omega)
  · simp only [BitVec.extractLsb'_toNat, hn, Nat.shiftRight_eq_div_pow, Nat.reducePow, hd]
    omega
  · simp only [BitVec.extractLsb'_toNat, hn, Nat.shiftRight_eq_div_pow, Nat.reducePow]
    omega

theorem entryOf_reset (m p lp : Nat) : entryOf State.reset m p lp = blankEntry lp := by
  rw [entryOf, getPart, getMod_reset]
  rfl

/-- Settles O58: a pier, a site and every module but for its presence are what nothing has written. -/
theorem resetState : Obligations.ResetState := by
  refine ⟨canonical_reset, rfl, rfl, rfl, fun m pk => ?_⟩
  rw [getMod_reset]
  refine ⟨fun _ => rfl, fun _ => ⟨rfl, rfl⟩, fun _ => rfl, fun _ => rfl, rfl, rfl, rfl, rfl, rfl, rfl, rfl, fun _ => rfl, fun p lp h => ?_,
    fun _ => rfl, rfl, rfl, rfl, fun _ => rfl⟩
  rw [entryOf_reset]
  exact blankEntry_fields h

end Sys2Proof.Machine
end

section
/-!
Runs that end or freeze behind their bundle (O11).
-/

namespace Sys2Proof.Machine

/-! DONE (R299). -/

/-- DONE marks the strand in hand. -/
def doneStrand (x : Strand) : Strand := { clearUnit x 0 with donePending := true }

theorem execDone_fires {s : State} {m : Mv} {t : Value} (h : Claims.Fires s m t) (ht : t.poison = false) :
    exec (.done m) s = .next (adjCur s doneStrand) := by
  rw [exec_done, execDone, runTrigger_ok h (checked_clean ht) rfl, adjCur_cleared]
  rfl

theorem done_marks {s : State} {m : Mv} {t : Value} (h : Claims.Fires s m t) (ht : t.poison = false) :
    ∃ s', exec (.done m) s = .next s' ∧ Claims.Frame s s' 0 ∧ (curStrand s').donePending = true ∧ resPort (curStrand s') 0x080 = .empty := by
  refine ⟨_, execDone_fires h ht, ?_, ?_, ?_⟩
  · exact frame_of_strand rfl (sameRegs_update ..) (fun i hi => resPort_clear_other _ _ _ hi) ⟨rfl, rfl, rfl, rfl, rfl, rfl⟩
  · rw [curStrand_adjCur]
    rfl
  · rw [curStrand_adjCur]
    exact resPort_clear_own _ 0 _ (by decide)

/-! The end of a run (R51, R83). -/

/-- A pier after the end of a run: the strand keeps its seed, and what it left under way stays. -/
def pierEnded (p : Pier) (st : Nat) : Pier :=
  let x := pierStrand p st
  { p with
    strands := fset p.strands st { seed := x.seed }
    late := p.late ++ lateOf x st
    creating := p.creating ++ creationsLeft x
    owedLeft := p.owedLeft ++ owedLeft x st
    actors := fset p.actors x.actor.toNat { pierActor p x.actor.toNat with
      st := .idle, ending := (pierActor p x.actor.toNat).ending || !(lateOf x st).isEmpty } }

/-- Where the actor is not retiring the end of its run clears nothing else. -/
theorem endRun_live {s : State} {pk st : Nat} (h : (getActor s pk (getStrand s pk st).actor.toNat).retiring = false) :
    endRun s pk st = setPier s pk (pierEnded (getPier s pk) st) := by
  have hx : pierStrand (getPier s pk) st = getStrand s pk st := rfl
  have ha : ∀ a, getActor s pk a = pierActor (getPier s pk) a := fun _ => rfl
  rw [ha] at h
  simp only [endRun, adjActor, adjPier, setPier, getActor, getPier, fget_fset_same, fset_fset_same, pierActor, pierEnded] at h ⊢
  rw [if_neg (by simpa [getPier] using h)]
  rfl

theorem run_ends {s : State} {pk st : Nat} (hr : (getStrand s pk st).status = .running) (hd : (getStrand s pk st).donePending = true)
    (hdr : runDrained (getStrand s pk st) = true) (ho : residentOpen s pk = true)
    (ha : (getActor s pk (getStrand s pk st).actor.toNat).retiring = false) :
    ∃ s', exec (.runEnd pk st) s = .next s' ∧ getStrand s' pk st = { seed := (getStrand s pk st).seed } ∧
      (getActor s' pk (getStrand s pk st).actor.toNat).st = .idle ∧ (∀ n, n ≠ st → getStrand s' pk n = getStrand s pk n) ∧
      Claims.SameMemory s s' := by
  refine ⟨setPier s pk (pierEnded (getPier s pk) st), ?_, ?_, ?_, fun n hn => ?_, sameMemory_of ?_ ?_⟩
  · rw [exec_runEnd, execRunEnd, if_pos ⟨hr, hd, hdr, ho⟩, endRun_live ha]
    rfl
  · rw [getStrand, getPier_setPier_same]
    exact fget_fset_same ..
  · rw [getActor, getPier_setPier_same, pierActor, getStrand, pierEnded, fget_fset_same]
  · rw [getStrand, getPier_setPier_same]
    exact fget_fset_other _ _ _ _ _ hn
  · exact memories_setPier _ _ _ rfl
  · exact codes_setPier _ _ _ rfl

theorem doneEndsRun : Claims.DoneEndsRun :=
  ⟨fun _ _ _ h ht => done_marks h ht, fun _ _ _ hr hd hdr ho ha => run_ends hr hd hdr ho ha⟩

/-! TRAP and BRK (R285, R364). -/

theorem trapAndBreakpointFreeze : Claims.TrapAndBreakpointFreeze := by
  intro s m t b h ht
  have hrun : ∀ brk, runTrigger s m needCt noHold (fun s t _ _ => .ok (softTrap brk s t)) = softTrap brk (cleared s 0) t := fun brk =>
    runTrigger_ok h (checked_clean ht) rfl
  cases b
  · exact congrArg Host.Outcome.next (hrun false)
  · exact congrArg Host.Outcome.next (hrun true)

/-- Settles O11: DONE marks the run, which ends once nothing of it is open; TRAP and BRK freeze it behind their bundle. -/
theorem runsEndAndFreeze : Obligations.RunsEndAndFreeze := ⟨doneEndsRun, trapAndBreakpointFreeze⟩

end Sys2Proof.Machine
end

section
/-!
The triggers of mx (O26): an entry joins the matrix queue, or the trigger faults; a staged entry takes a credit (O32).
-/

namespace Sys2Proof.Machine

/-! The forms, as one trigger. -/

/-- Whether a store of tiles and accumulators refuses its source (R330); no other form has one. -/
def mstRefuses (op : MOp) (src : Nat) : Bool :=
  match op with
  | .mstRaw | .mstBf16 | .mstF32 => !mstLegal op src
  | _ => false

theorem mstRefuses_iff (op : MOp) (src : Nat) : mstRefuses op src = true ↔ ¬Claims.mstSource op src := by
  cases op
  case mstRaw => simp [mstRefuses, mstLegal, Claims.mstSource]
  case mstBf16 =>
    simp [mstRefuses, mstLegal, Claims.mstSource]
    omega
  case mstF32 => simp [mstRefuses, mstLegal, Claims.mstSource]
  all_goals simp [mstRefuses, Claims.mstSource]

/-- The body of an mx trigger other than MCFG; `opc` is w3 where its source is refused. -/
def mxBody (op : MOp) (opc : Word) (s : State) (t a : Value) : Trig :=
  mxChecked s (vsc t) (if mstRefuses op (bits (vsc t) 0 5) then .fault 0x03 opc else .ok (mxQueue s op (vsc t) (vsc a)))

theorem exec_mxForm {m : Mv} {i : Instr} {op : MOp} {port : Bool} (h : (i, op, port) ∈ Claims.mxForms m) :
    ∃ opc, ∀ s, exec i s = .next (runTrigger s m (needMx port) mxHeld fun s t a _ => mxBody op opc s t a) := by
  have hmst : ∀ op opc s, (∀ n, mstRefuses op n = !mstLegal op n) →
      runMst s m op opc = runTrigger s m (needMx true) mxHeld fun s t a _ => mxBody op opc s t a := fun op opc s ho => by
    simp [runMst, mxBody, ho]
  simp only [Claims.mxForms, List.mem_cons, List.not_mem_nil, or_false] at h
  obtain ⟨rfl, rfl, rfl⟩ | ⟨rfl, rfl, rfl⟩ | ⟨rfl, rfl, rfl⟩ | ⟨rfl, rfl, rfl⟩ | ⟨rfl, rfl, rfl⟩ | ⟨rfl, rfl, rfl⟩ | ⟨rfl, rfl, rfl⟩ |
    ⟨rfl, rfl, rfl⟩ | ⟨rfl, rfl, rfl⟩ | ⟨rfl, rfl, rfl⟩ := h
  · exact ⟨0, fun _ => rfl⟩
  · exact ⟨0, fun _ => rfl⟩
  · exact ⟨4, fun s => congrArg Host.Outcome.next (hmst _ _ s fun _ => rfl)⟩
  · exact ⟨5, fun s => congrArg Host.Outcome.next (hmst _ _ s fun _ => rfl)⟩
  · exact ⟨6, fun s => congrArg Host.Outcome.next (hmst _ _ s fun _ => rfl)⟩
  all_goals exact ⟨0, fun _ => rfl⟩

theorem mxForm_op {m : Mv} {i : Instr} {op : MOp} {port : Bool} (h : (i, op, port) ∈ Claims.mxForms m) : (op != .mcfg) = true := by
  simp only [Claims.mxForms, List.mem_cons, List.not_mem_nil, or_false] at h
  obtain ⟨-, rfl, -⟩ | ⟨-, rfl, -⟩ | ⟨-, rfl, -⟩ | ⟨-, rfl, -⟩ | ⟨-, rfl, -⟩ | ⟨-, rfl, -⟩ | ⟨-, rfl, -⟩ | ⟨-, rfl, -⟩ | ⟨-, rfl, -⟩ |
    ⟨-, rfl, -⟩ := h
  all_goals rfl

/-- Where the operands of an mx trigger are clean its body gets them; a form without port a gets zero. -/
theorem checked_mx {s : State} {t a : Value} {port : Bool} {b : State → Value → Value → Value → Trig} (ht : t.poison = false)
    (hp : port = true → Claims.Port s .mxA a ∧ a.poison = false) :
    checked s (needMx port) t b = b (cleared s 7) t (if port then a else Value.zero) Value.zero := by
  cases port
  · exact checked_body (by simp [needMx, ht, Value.zero, Value.ofWord]) rfl rfl
  · exact checked_portA (hp rfl).1 ht (hp rfl).2

theorem mxHeld_iff (s : State) (t a b : Value) : mxHeld s t a b = decide (16 ≤ (curPier s).mq.length) := rfl

/-! The entry. -/

/-- A pier without its matrix queue and its credits. -/
def Pier.noQueue (p : Pier) : Pier := { p with mq := [], credits := [] }

/-- A change of the queue and the credits of a pier leaves the frame of a trigger. -/
theorem runFrame_adjPier {s t : State} {u : Nat} (h : Claims.RunFrame s t u) (pk : Nat) {f : Pier → Pier}
    (hf : ∀ p, (f p).noQueue = p.noQueue) : Claims.RunFrame s (adjPier t pk f) u := by
  have hq : ∀ k, (getPier (adjPier t pk f) k).noQueue = (getPier t k).noQueue := fun k => by
    by_cases hk : k = pk
    · subst hk
      rw [getPier_adjPier_same, hf]
    · rw [getPier_adjPier_other _ _ _ _ hk]
  have hst : ∀ k n, getStrand (adjPier t pk f) k n = getStrand t k n := fun k n =>
    (congrArg (fun p => pierStrand p n) (hq k) :)
  have hcur : curStrand (adjPier t pk f) = curStrand t := hst ..
  exact
    { regs := hcur ▸ h.regs
      ports := hcur ▸ h.ports
      strands := fun k n hk => (hst k n).trans (h.strands k n hk)
      actors := fun k => (congrArg Pier.actors (hq k) :).trans (h.actors k)
      sluices := fun k => (congrArg Pier.sluices (hq k) :).trans (h.sluices k)
      messages := fun k => ⟨(congrArg Pier.inbox (hq k) :).trans (h.messages k).1, (congrArg Pier.outbox (hq k) :).trans (h.messages k).2⟩
      control := fun k => ⟨(congrArg Pier.wins (hq k) :).trans (h.control k).1, (congrArg Pier.handlers (hq k) :).trans (h.control k).2.1,
        (congrArg Pier.xlroot (hq k) :).trans (h.control k).2.2.1, (congrArg Pier.divBusy (hq k) :).trans (h.control k).2.2.2⟩
      issue := h.issue }

theorem frame_cleared (s : State) (u : Nat) : Claims.Frame s (cleared s u) u :=
  frame_of_strand rfl (sameRegs_clearUnit ..) (fun _ hi => resPort_clear_other _ _ _ hi) ⟨rfl, rfl, rfl, rfl, rfl, rfl⟩

/-- The credits left where the entry of a staged operation takes one (R60). -/
def creditTaken (s : State) (op : MOp) (t : Word) : Option (List Credit) :=
  if (op != .mcfg && bitAt t 19) = true then takeCredit (curPier s).credits (curActorIx s) (t.extractLsb' 10 9) else none

/-- The entry that a trigger of the run in hand puts into the queue. -/
def mxEntry (s : State) (op : MOp) (t a : Word) : MEntry :=
  { tok := s.tok, op, t, a, released := !(op != .mcfg && bitAt t 19) || (creditTaken s op t).isSome, at_ := s.cycle,
    actor := (curStrand s).actor, lp := (curStrand s).lp, strand := s.issue.strand, runid := (curStrand s).runid,
    bundle := s.issue.addr, move := moveOf s, slot := s.issue.slot }

theorem mxQueue_cleared (s : State) (op : MOp) (t a : Word) :
    mxQueue (cleared s 7) op t a = adjPier { cleared s 7 with tok := s.tok + 1 } s.issue.pk fun p =>
      { p with mq := p.mq ++ [mxEntry s op t a], credits := (creditTaken s op t).getD p.credits } := by
  have hc : (curPier (cleared s 7)).credits = (curPier s).credits := credits_cleared ..
  simp only [mxQueue, hc, curStrand_cleared]
  rfl

theorem mq_mxQueue (s : State) (op : MOp) (t a : Word) :
    (curPier (mxQueue (cleared s 7) op t a)).mq = (curPier s).mq ++ [mxEntry s op t a] ∧
      (curPier (mxQueue (cleared s 7) op t a)).credits = (creditTaken s op t).getD (curPier s).credits := by
  have hp : ∀ s', getPier { s' with tok := s.tok + 1 } s.issue.pk = getPier s' s.issue.pk := fun _ => rfl
  have hi : ∀ f : Pier → Pier, (adjPier { cleared s 7 with tok := s.tok + 1 } s.issue.pk f).issue.pk = s.issue.pk := fun _ => rfl
  rw [mxQueue_cleared, curPier, hi, getPier_adjPier_same, hp]
  simp [curPier]

/-- An entry that is not staged is born released, one that is staged is not where no credit waits. -/
theorem queued_mxQueue (s : State) (op : MOp) (t a : Word) : Claims.Queued s (mxQueue (cleared s 7) op t a) op t a where
  entry := by
    refine ⟨_, (mq_mxQueue s op t a).1, rfl, rfl, rfl, rfl, rfl, rfl, rfl, rfl, fun h => ?_, fun ho ht hc => ?_⟩
    · obtain rfl | h := h
      · rfl
      · rw [getLsbD_eq_bitAt] at h
        simp [mxEntry, h]
    · rw [getLsbD_eq_bitAt] at ht
      simp [mxEntry, creditTaken, ho, ht, hc, takeCredit]
  memory := sameMemory_of (by simp) (by simp [mxQueue])
  frame := by
    rw [mxQueue_cleared]
    exact runFrame_adjPier (runFrame_of_frame (frame_of_strand (s := s) (t := { cleared s 7 with tok := s.tok + 1 })
      (f := fun x => clearUnit x 7) rfl (sameRegs_clearUnit ..)
      (fun _ hi => resPort_clear_other _ _ _ hi) ⟨rfl, rfl, rfl, rfl, rfl, rfl⟩) (by decide)) _ fun _ => rfl

/-! The checks. -/

/-- Whether the run may name the completion sluice of the entry (R289, R319). -/
theorem mxChecked_allowed {s : State} {t : Word} (h : bits t 10 9 < 496 ∨ bits t 10 9 = 511 ∨ curService s = true) (k : Trig) :
    mxChecked s t k = k := by
  rw [mxChecked, if_neg]
  rintro ⟨h1, h2, h3⟩
  rw [mxSluice] at h1 h2
  obtain h | h | h := h
  · omega
  · omega
  · rw [h] at h3; cases h3

theorem mcfgLegal_iff (w : Word) : mcfgLegal w = true ↔ Claims.TileFits w := by
  unfold Claims.TileFits
  simp only [fld_eq_bits, mcfgLegal, rowBytes, rowSlots, tileRows]
  split
  case _ hf => simp [hf, tileBytes, or_assoc]
  case _ hf => simp [hf, tileBytes, or_assoc]
  case _ hf => simp [hf, tileBytes, or_assoc]
  case _ hf => simp [hf, tileBytes, or_assoc]
  · rename_i h0 h1 h6 h7
    have ht : tileBytes (bits w 0 4) = 1 := by
      rw [tileBytes, if_neg fun h => (Nat.le_one_iff_eq_zero_or_eq_one.mp h).elim h0 h1, if_neg h6, if_neg h7]
    simp [ht, or_assoc, and_assoc]

section
variable {s : State} {op : MOp} {opc : Word} {t a : Value}

theorem mxBody_ok (hn : bits (vsc t) 10 9 < 496 ∨ bits (vsc t) 10 9 = 511 ∨ curService s = true)
    (hs : Claims.mstSource op (bits (vsc t) 0 5)) : mxBody op opc (cleared s 7) t a = .ok (mxQueue (cleared s 7) op (vsc t) (vsc a)) := by
  have hsrc : mstRefuses op (bits (vsc t) 0 5) = false := Bool.eq_false_iff.mpr fun hr => (mstRefuses_iff ..).mp hr hs
  rw [mxBody, mxChecked_allowed (by simpa using hn), hsrc]
  rfl

theorem mxBody_source (hn : bits (vsc t) 10 9 < 496 ∨ bits (vsc t) 10 9 = 511 ∨ curService s = true)
    (hs : ¬Claims.mstSource op (bits (vsc t) 0 5)) : mxBody op opc (cleared s 7) t a = .fault 0x03 opc := by
  rw [mxBody, mxChecked_allowed (by simpa using hn), if_pos ((mstRefuses_iff ..).mpr hs)]

theorem mxBody_refused (hc : curService s = false) (h1 : 496 ≤ bits (vsc t) 10 9) (h2 : bits (vsc t) 10 9 ≤ 510) :
    mxBody op opc s t a = .fault 0x0D (BitVec.ofNat 64 (bits (vsc t) 10 9)) := if_pos ⟨h1, h2, hc⟩

end

section
variable {s : State} {m : Mv} {t a : Value} (h : Claims.Fires s m t)
include h

/-- A form whose checks hold joins the queue. -/
theorem mxForm_joins {i : Instr} {op : MOp} {port : Bool} (hi : (i, op, port) ∈ Claims.mxForms m) (ht : t.poison = false)
    (hq : (curPier s).mq.length < 16) (hn : bits (vsc t) 10 9 < 496 ∨ bits (vsc t) 10 9 = 511 ∨ curService s = true)
    (hp : port = true → Claims.Port s .mxA a ∧ a.poison = false) (hs : Claims.mstSource op (bits (vsc t) 0 5)) :
    exec i s = .next (mxQueue (cleared s 7) op (vsc t) (if port then vsc a else 0)) := by
  obtain ⟨opc, he⟩ := exec_mxForm hi
  have hv : vsc (if port then a else Value.zero) = if port then vsc a else 0 := by cases port <;> rfl
  rw [he, runTrigger_ok h ((checked_mx ht hp).trans (mxBody_ok hn hs)) (by simpa [mxHeld_iff] using hq), hv]

end

theorem matrixTriggersQueue : Claims.MatrixTriggersQueue := by
  intro s m t a h ht hq
  refine ⟨fun i op port hi hn hp hs => ⟨_, mxForm_joins h hi ht hq hn hp hs, queued_mxQueue ..⟩, fun hp ha hf => ?_⟩
  refine ⟨_, ?_, queued_mxQueue s .mcfg (vsc t) (vsc a)⟩
  have hl : mcfgLegal (vsc t) = true := (mcfgLegal_iff _).mpr hf
  rw [exec_mcfg, execMcfg, runTrigger_ok h (s' := mxQueue (cleared s 7) .mcfg (vsc t) (vsc a)) ?_ (by simpa [mxHeld_iff] using hq)]
  · rfl
  · rw [checked_mx (port := true) ht fun _ => ⟨hp, ha⟩]
    simp [hl]

theorem matrixTriggerFaults : Claims.MatrixTriggerFaults := by
  intro s m t a h hp ha
  have hport : ∀ port : Bool, port = true → Claims.Port s .mxA a ∧ a.poison = false := fun _ _ => ⟨hp, ha⟩
  refine ⟨fun hq => ?_, fun hq ht hn i op port hi hs => ?_⟩
  · have hh : ∀ a b, mxHeld s t a b = false := fun a b => by simpa [mxHeld_iff] using hq
    refine ⟨fun i op port hi => ?_, fun ht hf => ?_⟩
    · obtain ⟨opc, he⟩ := exec_mxForm hi
      refine ⟨fun ht => ?_, fun ht h1 h2 hc => ?_, fun ht hn hs => ⟨opc, ?_⟩⟩
      · rw [he, runTrigger_fault h (checked_poisoned rfl ht) (hh _ _)]
        rfl
      · rw [he, runTrigger_fault h ((checked_mx ht (hport port)).trans (mxBody_refused (by simpa using hc) h1 h2)) (hh _ _)]
        rfl
      · rw [he, runTrigger_fault h ((checked_mx ht (hport port)).trans (mxBody_source (.inl hn) hs)) (hh _ _)]
        rfl
    · have hl : mcfgLegal (vsc t) = false := Bool.eq_false_iff.mpr fun hl => hf ((mcfgLegal_iff _).mp hl)
      rw [exec_mcfg, execMcfg, runTrigger_fault h ((checked_mx ht (hport true)).trans (if_pos hl)) (hh _ _)]
      rfl
  · obtain ⟨opc, he⟩ := exec_mxForm hi
    rw [he, runTrigger_held h ((checked_mx ht (hport port)).trans (mxBody_ok (.inl hn) hs)) (by simpa [mxHeld_iff] using hq)]

/-- Settles O26: the ten forms that share a shape are one trigger, MCFG has its own check. -/
theorem matrixTriggers : Obligations.MatrixTriggers := ⟨matrixTriggersQueue, matrixTriggerFaults⟩

/-! The credit of a staged entry (R60). -/

theorem stagedEntryTakesCredit : Claims.StagedEntryTakesCredit := by
  intro s m t a i op port hi h ht hq hstg hn hp hs keyed any l
  have hop : (op != .mcfg) = true := mxForm_op hi
  have hct : creditTaken s op (vsc t) = takeCredit l (curActorIx s) ((vsc t).extractLsb' 10 9) := by
    rw [creditTaken, if_pos (by rw [hop, ← getLsbD_eq_bitAt, hstg]; rfl)]
  have hrel : ∀ a', (mxEntry s op (vsc t) a').released = (creditTaken s op (vsc t)).isSome := fun a' => by
    simp [mxEntry, hop, ← getLsbD_eq_bitAt, hstg]
  obtain ⟨hmq, hcr⟩ := mq_mxQueue s op (vsc t) (if port then vsc a else 0)
  refine ⟨_, _, mxForm_joins h hi ht hq (.inl hn) hp hs, hmq, rfl, fun hk => ?_, fun hk ha => ?_, fun hk ha => ?_⟩
  · have hc : takeCredit l (curActorIx s) ((vsc t).extractLsb' 10 9) = some (l.erase keyed) := if_pos (by simpa using hk)
    rw [hrel, hcr, hct, hc]
    exact ⟨rfl, rfl⟩
  · have hc : takeCredit l (curActorIx s) ((vsc t).extractLsb' 10 9) = some (l.erase any) := by
      rw [takeCredit, if_neg (by simpa using hk), if_pos (by simpa using ha)]
    rw [hrel, hcr, hct, hc]
    exact ⟨rfl, rfl⟩
  · have hc : takeCredit l (curActorIx s) ((vsc t).extractLsb' 10 9) = none := by
      rw [takeCredit, if_neg (by simpa using hk), if_neg (by simpa using ha)]
    rw [hrel, hcr, hct, hc]
    exact ⟨rfl, rfl⟩

end Sys2Proof.Machine
end

section
/-!
Sends to a group, what a send faults on and waits for, and the message state (O30).
-/

namespace Sys2Proof.Machine

/-! Addresses (R32). -/

theorem msgDst_parts (a : BitVec 28) :
    (BitVec.ofNat 12 (awMod a) ++ BitVec.ofNat 10 (awPier a) ++ BitVec.ofNat 6 (awActor a) : BitVec 28) = a := by
  have ha := a.isLt
  refine BitVec.eq_of_toNat_eq ?_
  simp only [BitVec.toNat_append, BitVec.toNat_ofNat, awMod, awPier, awActor, Nat.shiftLeft_eq]
  rw [← Nat.shiftLeft_eq, ← Nat.shiftLeft_eq, ← Nat.shiftLeft_add_eq_or_of_lt (by omega), ← Nat.shiftLeft_add_eq_or_of_lt (by omega)]
  simp only [Nat.shiftLeft_eq]
  omega

/-! An update of an actor. -/

section
variable (s : State) (pk a : Nat) (f : Actor → Actor)

@[simp] theorem getStrand_adjActor (k st : Nat) : getStrand (adjActor s pk a f) k st = getStrand s k st := by
  by_cases hk : k = pk
  · subst hk
    rw [getStrand, adjActor, getPier_adjPier_same]
    rfl
  · rw [getStrand, adjActor, getPier_adjPier_other _ _ _ _ hk]
    rfl

@[simp] theorem curStrand_adjActor : curStrand (adjActor s pk a f) = curStrand s := getStrand_adjActor ..

@[simp] theorem getSluice_adjActor (k n : Nat) : getSluice (adjActor s pk a f) k n = getSluice s k n := by
  by_cases hk : k = pk
  · subst hk
    rw [getSluice, adjActor, getPier_adjPier_same]
    rfl
  · rw [getSluice, adjActor, getPier_adjPier_other _ _ _ _ hk]
    rfl

@[simp] theorem outbox_adjActor (k : Nat) : (getPier (adjActor s pk a f) k).outbox = (getPier s k).outbox := by
  by_cases hk : k = pk
  · subst hk
    rw [adjActor, getPier_adjPier_same]
  · rw [adjActor, getPier_adjPier_other _ _ _ _ hk]

theorem getActor_adjActor_other (k n : Nat) (h : ¬(k = pk ∧ n = a)) : getActor (adjActor s pk a f) k n = getActor s k n := by
  by_cases hk : k = pk
  · subst hk
    rw [getActor, adjActor, getPier_adjPier_same]
    exact fget_fset_other _ _ _ _ _ fun hn => h ⟨rfl, hn⟩
  · rw [getActor, adjActor, getPier_adjPier_other _ _ _ _ hk]
    rfl

end

/-! A send of the run in hand (R338). -/

theorem ofNat_bits (w : Word) (lo n : Nat) : BitVec.ofNat n (bits w lo n) = w.extractLsb' lo n := by
  refine BitVec.eq_of_toNat_eq ?_
  rw [BitVec.toNat_ofNat, bits, Nat.mod_mod, BitVec.extractLsb'_toNat, Nat.shiftRight_eq_div_pow]

/-- Two outboxes that hold the same entries are as long as each other. -/
theorem SameEntries.length {a b : List OutEntry} (h : SameEntries a b) : a.length = b.length := by
  simpa using congrArg List.length h

/-- An entry of the run in hand that counts as a message of its actor. -/
def sendCur (s : State) (key : StreamKey) (body : OutBody) (w2 w3 : Word) : State :=
  nextSeq (enqueueCur (cleared s 9) key body w2 w3 9)

theorem sent_sendCur (s : State) (key : StreamKey) (body : OutBody) (w2 w3 : Word) :
    Claims.Sent s (sendCur s key body w2 w3) fun e => e.body = body := by
  have hs : SendsOnly (cleared s 9) (enqueueCur (cleared s 9) key body w2 w3 9) := sendsOnly_enqueue ..
  have ho := enqueue_outbox (cleared s 9) s.issue.pk key body (curStrand (cleared s 9)).actor.toNat (curStrand (cleared s 9)).runid
    s.issue.addr s.issue.strand w2 w3 (BitVec.ofNat 5 9) s.issue.slot (gmHere (cleared s 9))
  have hi : (enqueueCur (cleared s 9) key body w2 w3 9).issue = s.issue := hs.rest.2.2.1
  have hi' : (sendCur s key body w2 w3).issue = s.issue := hi
  have hcur : curStrand (enqueueCur (cleared s 9) key body w2 w3 9) = clearUnit (curStrand s) 9 := by
    rw [curStrand, hi, hs.getStrand, ← curStrand_cleared, curStrand, cleared_issue]
  have hcur' : curStrand (sendCur s key body w2 w3) = clearUnit (curStrand s) 9 := (curStrand_adjActor ..).trans hcur
  have hix : curActorIx (enqueueCur (cleared s 9) key body w2 w3 9) = curActorIx s := by rw [curActorIx, hcur]; rfl
  have hn : sendCur s key body w2 w3 = adjActor (enqueueCur (cleared s 9) key body w2 w3 9) s.issue.pk (curActorIx s)
      fun a => { a with seq := a.seq + 1 } := by rw [sendCur, nextSeq, hix, hi]
  have hobox : (curPier (sendCur s key body w2 w3)).outbox = (getPier (enqueueCur (cleared s 9) key body w2 w3 9) s.issue.pk).outbox := by
    rw [curPier, hi', hn, outbox_adjActor]
  exact
    { entry := by
        obtain ⟨e, he, hb, htok, -, hact, hrun, hbun, hst, -⟩ := ho.mem (List.mem_append_right _ (List.mem_singleton_self _))
        rw [curStrand_cleared] at hact hrun
        exact ⟨e, hobox ▸ he, htok, hact, hrun, hbun, hst, hb⟩
      length := by
        rw [hobox, enqueueCur, cleared_issue, ← ho.length, List.length_append, outbox_cleared]
        rfl
      count := by
        have hc : getActor (enqueueCur (cleared s 9) key body w2 w3 9) s.issue.pk (curActorIx s) = curActor s := by
          rw [hs.getActor, getActor_cleared]
          rfl
        rw [curActor, curActorIx, hcur', hi', hn]
        exact (congrArg Actor.seq (getActor_adjActor_same ..)).trans (by rw [hc])
      memory := sameMemory_of (by rw [hn]; simp [hs.memories]) (by rw [hn]; simp [hs.codes])
      regs := hcur' ▸ sameRegs_clearUnit ..
      ports := fun i h => by rw [hcur']; exact resPort_clear_other _ _ _ h
      strands := fun pk st h => by rw [hn, getStrand_adjActor, hs.getStrand, getStrand_cleared_other _ _ h]
      actors := fun n h => by rw [hn, getActor_adjActor_other _ _ _ _ _ _ fun hh => h hh.2, hs.getActor, getActor_cleared]
      sluices := fun pk n => by rw [hn, getSluice_adjActor, hs.getSluice, getSluice_cleared] }

/-- What is true of every entry with the body of a send is true of the send. -/
theorem sent_of_body {s t : State} {body : OutBody} {ok : OutEntry → Prop} (h : Claims.Sent s t fun e => e.body = body)
    (hok : ∀ e, e.body = body → ok e) : Claims.Sent s t ok :=
  have he : ∃ e ∈ (curPier t).outbox, e.tok = s.tok ∧ e.actor = (curStrand s).actor.toNat ∧ e.runid = (curStrand s).runid ∧
      e.bundle = s.issue.addr ∧ e.strand = s.issue.strand ∧ ok e := by
    obtain ⟨e, he, htok, hact, hrun, hbun, hst, hb⟩ := h.entry
    exact ⟨e, he, htok, hact, hrun, hbun, hst, hok e hb⟩
  { h with entry := he }

theorem carries_qPay (x : Strand) (n : Nat) (g : Msg) (hp : g.pay = (qPay x n).1) (hq : g.poison = (qPay x n).2) :
    Claims.Carries g (readQ x) n := by
  refine ⟨hp, fun i hi => ?_⟩
  have hl : ∀ l : List Bool, (BitVec.ofNat 6 (natOfBits l)).getLsbD i = l[i]?.getD false := fun l => by
    rw [BitVec.getLsbD_ofNat, natOfBits_testBit, decide_eq_true hi, Bool.true_and]
  rw [hq, qPay, hl]
  simp [hi]

/-- A message that is built after the ports of a unit are emptied is one of the run. -/
theorem fromRun_buildMsg (s : State) (u : Nat) (dst : BitVec 28) (cls prio kind : Nat) (t : Word) (pay : List Word × BitVec 6) :
    Claims.FromRun s (buildMsg (cleared s u) dst cls prio kind t pay) := by
  constructor <;> simp [buildMsg, clearUnit]

theorem qPay_cleared (s : State) (u n : Nat) : qPay (curStrand (cleared s u)) n = qPay (curStrand s) n := by
  rw [curStrand_cleared]
  rfl

/-! The ways of a send. -/

/-- With room in the outbox and no earlier gm request open a send is not held. -/
theorem sendHeld_ready {s : State} (h : Claims.SendReady s) (t a b : Value) : sendHeld s t a b = false := by
  obtain ⟨ho, hg⟩ := h
  simp [sendHeld, outShut, outFull, holdRelease, hg, ho]

theorem sendHeld_shut {s : State} (h : (64 ≤ (curPier s).outbox.length ∧ s.issue.fault = none) ∨ gmEntries s ≠ []) (t a b : Value) :
    sendHeld s t a b = true := by
  obtain ⟨ho, hf⟩ | hg := h
  · simp [sendHeld, outShut, outFull, hf, ho]
  · simp [sendHeld, holdRelease, List.length_pos_iff.mpr hg]

section
variable {s : State} {a t : Word} {b : Bool} {k : Trig}

theorem sendChecked_ok (hn : bits t 16 3 ≤ 6) (hs : b = false ∨ bits a 28 5 < 30 ∨ bits a 0 6 = 63) : sendChecked s b a t k = k := by
  rw [sendChecked, if_neg (by omega), if_neg]
  rintro ⟨h1, -, h2, h3⟩
  obtain h | h | h := hs
  · rw [h] at h1; cases h1
  · omega
  · exact h3 h

theorem sendChecked_length (hn : bits t 16 3 = 7) : sendChecked s b a t k = .fault 0x03 t := if_pos hn

theorem sendChecked_class (hn : bits t 16 3 ≤ 6) (hc : 30 ≤ bits a 28 5) (ha : bits a 0 6 ≠ 63) (hs : curService s = false) :
    sendChecked s true a t k = .fault 0x0D a := by rw [sendChecked, if_neg (by omega), if_pos ⟨rfl, hs, hc, ha⟩]

end

/-- The sends that share their check (R337): each is that check before what it puts into the outbox. -/
theorem exec_sends (m : Mv) {i : Instr} (hi : i ∈ [Instr.send m, .reply m, .fwd m, .sendRed m]) : ∃ (addressed : Bool) (f : State → Value → Value → State),
    (i ∈ [Instr.send m, .reply m, .fwd m] → addressed = true) ∧ ∀ s, exec i s = .next (runTrigger s m needMs sendHeld fun s t a _ =>
      sendChecked s addressed (vsc a) (vsc t) (.ok (f s t a))) := by
  simp only [List.mem_cons, List.not_mem_nil, or_false] at hi
  obtain rfl | rfl | rfl | rfl := hi
  · exact ⟨true, fun s t a => sendTo s 0 t a, fun _ => rfl, fun _ => rfl⟩
  · exact ⟨true, fun s t a => sendTo s 1 t a, fun _ => rfl, fun _ => rfl⟩
  · exact ⟨true, fwdDo, fun _ => rfl, fun _ => rfl⟩
  · exact ⟨false, sendRedDo, fun h => by simp at h, fun _ => rfl⟩

/-- A send whose operands are clean goes on to its own check. -/
theorem checked_ms {s : State} {t a : Value} {b : State → Value → Value → Value → Trig} {r : Trig} (hp : Claims.Port s .msA a)
    (ht : t.poison = false) (ha : a.poison = false) (hb : b (cleared s 9) t a Value.zero = r) : checked s needMs t b = r :=
  (checked_portA hp ht ha).trans hb

theorem groupSends : Claims.GroupSends := by
  intro s m t a h hp ht ha hr hn gid hdr
  have hready : ∀ t a b, sendHeld s t a b = false := sendHeld_ready hr
  have hn7 : bits (vsc t) 16 3 ≠ 7 := fun h7 => by rw [fld_eq_bits] at hn; omega
  have hgid : (vsc a).toNat % 256 = gid := by simp [gid, Claims.fld]
  refine ⟨⟨mcastDo (cleared s 9) t a, ?_, ?_⟩, ⟨sendRedDo (cleared s 9) t a, ?_, ?_⟩⟩
  · rw [exec_mcast, execMcast, runTrigger_ok h (checked_ms hp ht ha (if_neg hn7)) (hready ..)]
    rfl
  · refine sent_of_body (sent_sendCur ..) fun e he => ⟨_, hgid ▸ he, ?_⟩
    refine ⟨?_, ofNat_bits .., ofNat_bits .., ?_, ?_⟩
    · exact { fromRun_buildMsg s 9 0 (bits hdr 52 5) (bits hdr 50 2) 0 (vsc t) (qPay (curStrand (cleared s 9)) (bits (vsc t) 16 3)) with }
    · simp
    · exact carries_qPay _ _ _ (by rw [← qPay_cleared s 9]; rfl) (by rw [← qPay_cleared s 9]; rfl)
  · rw [exec_sendRed, execSendRed, runTrigger_ok h (checked_ms hp ht ha (sendChecked_ok hn (.inl rfl))) (hready ..)]
    rfl
  · refine sent_of_body (sent_sendCur ..) fun e he => ⟨_, hgid ▸ he, ?_⟩
    refine ⟨?_, rfl, ?_, ?_⟩
    · exact { fromRun_buildMsg s 9 (hdr.extractLsb' 0 28) (bits hdr 52 5) (bits hdr 50 2) 7 (setBits (vsc t) 19 1 0) (qPay (curStrand (cleared s 9)) (bits (vsc t) 16 3)) with }
    · exact msgDst_parts _
    · exact carries_qPay _ _ _ (by rw [← qPay_cleared s 9]; rfl) (by rw [← qPay_cleared s 9]; rfl)

theorem sendFaultsAndHolds : Claims.SendFaultsAndHolds := by
  intro s m t a h hp ht ha
  refine ⟨fun hr hn i hi => ?_, fun hr hn => ?_, fun hr hn hc hd hs i hi => ?_, fun hh hn hc i hi => ?_⟩
  · obtain ⟨b, f, -, he⟩ := exec_sends m hi
    rw [he, runTrigger_fault h (checked_ms hp ht ha (sendChecked_length hn)) (sendHeld_ready hr ..)]
    rfl
  · rw [exec_mcast, execMcast, runTrigger_fault h (checked_ms hp ht ha (if_pos hn)) (sendHeld_ready hr ..)]
    rfl
  · obtain ⟨b, f, hb, he⟩ := exec_sends m (List.mem_append_left [Instr.sendRed m] hi)
    have hcheck := hb hi ▸ sendChecked_class (s := cleared s 9) (k := .ok (f (cleared s 9) t a)) hn hc hd (by simpa using hs)
    rw [he, runTrigger_fault h (checked_ms hp ht ha hcheck) (sendHeld_ready hr ..)]
    rfl
  · obtain hi | hi := List.mem_append.mp (show i ∈ [Instr.send m, .reply m, .fwd m, .sendRed m] ++ [.mcast m] from hi)
    · obtain ⟨b, f, -, he⟩ := exec_sends m hi
      rw [he, runTrigger_held h (checked_ms hp ht ha (sendChecked_ok hn (.inr hc))) (sendHeld_shut hh ..)]
    · have hn7 : ¬bits (vsc t) 16 3 = 7 := fun h7 => by rw [fld_eq_bits] at hn; omega
      rw [List.mem_singleton.mp hi, exec_mcast, execMcast, runTrigger_held h (checked_ms hp ht ha (if_neg hn7)) (sendHeld_shut hh ..)]
      rfl

/-! MSTAT (R332). -/

/-- A result of fixed latency that the body of a trigger gives. -/
theorem pendResult_cleared (s : State) (u lat : Nat) (r : Value) (seed : Bool) :
    pendResult (cleared s u) u lat (some r) none seed none = Claims.later s u lat r none seed := by
  have h : ∀ f, adjCur { cleared s u with tok := (cleared s u).tok + 1 } f = adjCur { s with tok := s.tok + 1 } fun x => f (clearUnit x u) := fun f =>
    adjCur_adjCur { s with tok := s.tok + 1 } (fun x => clearUnit x u) f
  simp only [pendResult, h]
  rfl

theorem entryFor_cleared (s : State) (u a : Nat) (dst : BitVec 28) : entryFor (cleared s u) a dst = entryFor s a dst := rfl

theorem mstatItem_cleared (s : State) (u item : Nat) (a : Word) : mstatItem (cleared s u) item a = mstatItem s item a := by
  simp [mstatItem, curPier, entryFor_cleared, slotsOf]

/-- Fields of a word that is given as a number. -/
theorem fld_ofNat (n lo w : Nat) (h : lo + w ≤ 64) : Claims.fld (BitVec.ofNat 64 n) lo w = n / 2 ^ lo % 2 ^ w := by
  rw [Claims.fld, BitVec.toNat_ofNat]
  have h64 : 2 ^ 64 = 2 ^ lo * 2 ^ (64 - lo) := by rw [← Nat.pow_add]; congr 1; omega
  rw [h64, Nat.mod_mul_right_div_self, Nat.mod_mod_of_dvd _ (Nat.pow_dvd_pow 2 (by omega))]

/-- The body of MSTAT: port a is needed for item 010 alone. -/
def mstatBody (s : State) (t : Value) : Trig :=
  let item := (vsc t).toNat % 8
  if item = 2 then
    match opPort (curStrand s) .msA with
    | none => .fault 0x05 (BitVec.ofNat 64 OpSel.msA.index)
    | some a => .ok (pendResult s 9 2 (some ⟨.scalar (mstatItem s 2 (vsc a)), t.poison || a.poison⟩) none false none)
  else if 3 ≤ item then .fault 0x03 5
  else .ok (pendResult s 9 2 (some ⟨.scalar (mstatItem s item 0), t.poison⟩) none false none)

theorem exec_mstatBody (m : Mv) (s : State) :
    exec (.mstat m) s = .next (runTrigger s m { unit := 9 } noHold fun s t _ _ => mstatBody s t) := rfl

theorem fld_bit (w : Word) (i : Nat) : decide (Claims.fld w i 1 = 1) = w.getLsbD i := by
  rw [getLsbD_eq_bitAt]
  rfl

theorem decide_b2n (b : Bool) : decide (b2n b = 1) = b := by cases b <;> rfl

theorem b2n_le (b : Bool) : b2n b ≤ 1 := by cases b <;> decide

theorem messageStatus : Claims.MessageStatus := by
  intro s m t h item gives
  have hitem : (vsc t).toNat % 8 = item := by simp [item, Claims.fld]
  have hc : checked s { unit := 9 } t (fun s t _ _ => mstatBody s t) = mstatBody (cleared s 9) t := checked_body rfl rfl rfl
  have hp : opPort (curStrand (cleared s 9)) .msA = opPort (curStrand s) .msA := by rw [curStrand_cleared]; rfl
  have hok : ∀ r p, mstatBody (cleared s 9) t = .ok (pendResult (cleared s 9) 9 2 (some ⟨.scalar r, p⟩) none false none) → gives r p :=
    fun r p hb => by rw [pendResult_cleared] at hb; exact congrArg Host.Outcome.next (runTrigger_ok h (hc.trans hb) rfl)
  have hitems : ∀ n, item = n → n ≠ 2 → ¬3 ≤ n → gives (mstatItem s n 0) t.poison := fun n hn h2 h3 => hok _ _ (by
    rw [mstatBody, hitem, hn, if_neg h2, if_neg h3, mstatItem_cleared])
  refine ⟨fun h0 => ⟨_, hitems 0 h0 (by decide) (by decide), ?_⟩, fun h1 => ⟨_, hitems 1 h1 (by decide) (by decide), ?_⟩,
    fun a h2 ha => ⟨_, hok (mstatItem s 2 (vsc a)) _ (by
      rw [mstatBody, hitem, if_pos h2, hp, show opPort (curStrand s) .msA = some a from ha, ← mstatItem_cleared s 9]), ?_⟩, fun h2 ha => ?_,
    fun h3 => ?_⟩
  · have hq := (curActor s).seq.isLt
    rw [mstatItem, fld_ofNat _ 0 8 (by decide), fld_ofNat _ 8 8 (by decide), fld_ofNat _ 16 16 (by decide)]
    omega
  · have hb := b2n_le (spilling (curActor s))
    rw [mstatItem, fld_ofNat _ 0 16 (by decide), fld_ofNat _ 32 32 (by decide)]
    refine ⟨?_, ?_, ?_⟩
    · rw [slotsOf]
      omega
    · have hbit : ((slotsOf (curPier s) (curActorIx s)).length % 1024 + b2n (spilling (curActor s)) * 2 ^ 16 +
          (curActor s).spilled.length * 2 ^ 32) / 2 ^ 16 % 2 ^ 1 = b2n (spilling (curActor s)) := by omega
      rw [← fld_bit, fld_ofNat _ 16 1 (by decide), hbit, decide_b2n]
      rfl
    · omega
  · intro l
    have hitem2 : mstatItem s 2 (vsc a) = BitVec.ofNat 64 (l.length % 128 + b2n (l.head?.elim false OutEntry.refused) * 2 ^ 8) := by
      show BitVec.ofNat 64 (l.length % 128 + b2n (match l.head? with | some e => e.refused | none => false) * 2 ^ 8) = _
      cases l.head? <;> rfl
    have hb := b2n_le (l.head?.elim false OutEntry.refused)
    have hbit : (l.length % 128 + b2n (l.head?.elim false OutEntry.refused) * 2 ^ 8) / 2 ^ 8 % 2 ^ 1 =
        b2n (l.head?.elim false OutEntry.refused) := by omega
    have hrefused : (mstatItem s 2 (vsc a)).getLsbD 8 = l.head?.elim false OutEntry.refused := by
      rw [← fld_bit, hitem2, fld_ofNat _ 8 1 (by decide), hbit, decide_b2n]
    refine ⟨?_, fun e he => by rw [hrefused, he]; rfl, fun he => by rw [hrefused, he]; rfl⟩
    rw [hitem2, fld_ofNat _ 0 8 (by decide)]
    omega
  · refine congrArg Host.Outcome.next (runTrigger_fault h (hc.trans ?_) rfl)
    rw [mstatBody, hitem, if_pos h2, hp, ha]
  · refine congrArg Host.Outcome.next (runTrigger_fault h (hc.trans ?_) rfl)
    rw [mstatBody, hitem, if_neg (by omega), if_pos h3]

/-- Settles O30. -/
theorem groupSendsAndStatus : Obligations.GroupSendsAndStatus := ⟨groupSends, sendFaultsAndHolds, messageStatus⟩

end Sys2Proof.Machine
end

section
/-!
Control words (O37): what CRD reads, and what CWR writes.
-/

namespace Sys2Proof.Machine

/-! The words there are, and who may write which field (R34, R72, R294). -/

/-- The control words below the windows and above them that have writable fields, with the fields. -/
def fixedWords : List (Nat × Word × Word) :=
  [ (0x04, 0xFFFFFFFF, 0xFFFFFFFF), (0x12, 0x1FF, 0x1FF), (0x14, 0x1FFFFFFF, 0x1FFFFFFF), (0x10, 0, 0x7FFC0), (0x11, 0, 0x7FFC0)
  , (0x13, 0, 0x7FFFFFFFFF001F), (0x15, 0, 0xFFF), (0x100, 0, 0xFFFFFFFFFFFFFFFF), (0x101, 0, 0xFF0000), (0x108, 0, 0x70000003F)
  , (0x10A, 0, 0xFFFFFFFF), (0x10B, 0, 0xFFFFFFFF) ]

theorem mem_cwFields {s : State} {f : Nat × Word × Word} :
    f ∈ Claims.cwFields s ↔ f ∈ fixedWords ∨ ∃ j < 8 / curFold s, (0x20 + j, 0xFF000FFFFFFFC000, 0xFF000FFFFFFFC000) = f := by
  rw [Claims.cwFields, List.mem_append, List.mem_map]
  simp only [List.mem_range]
  rfl

theorem foldWindows (s : State) : 8 / curFold s ≤ 8 := Nat.div_le_self ..

/-- The fields of a word with writable fields, as the model's masks. -/
theorem cwFields_masks {s : State} {n : Nat} {j v : Word} (h : (n, j, v) ∈ Claims.cwFields s) :
    j.toNat = cwRw n ∧ v.toNat = cwRw n ||| cwRs n := by
  obtain h | ⟨i, hi, h⟩ := mem_cwFields.mp h
  · have hall : ∀ f ∈ fixedWords, f.2.1.toNat = cwRw f.1 ∧ f.2.2.toNat = cwRw f.1 ||| cwRs f.1 := by decide
    exact hall _ h
  · obtain ⟨rfl, rfl, rfl⟩ := h
    have h8 : ∀ i < 8, (0xFF000FFFFFFFC000 : Word).toNat = cwRw (0x20 + i) ∧
        (0xFF000FFFFFFFC000 : Word).toNat = cwRw (0x20 + i) ||| cwRs (0x20 + i) := by decide
    exact h8 i (Nat.lt_of_lt_of_le hi (foldWindows s))

/-- The words with no check of the windows: those of the lists and those of the windows there are. -/
def cwIn (s : State) (n : Nat) : Prop := n ∈ Claims.jobWords ++ Claims.serviceWords ∨ ∃ f ∈ Claims.cwFields s, f.1 = n

theorem cwIn_iff (s : State) (n : Nat) :
    cwIn s n ↔ n ∈ Claims.jobWords ++ Claims.serviceWords ∨ 0x20 ≤ n ∧ n - 0x20 < 8 / curFold s := by
  have hfixed : ∀ f ∈ fixedWords, f.1 ∈ Claims.jobWords ++ Claims.serviceWords := by decide
  constructor
  · rintro (h | ⟨f, hf, rfl⟩)
    · exact .inl h
    · obtain h | ⟨i, hi, rfl⟩ := mem_cwFields.mp hf
      · exact .inl (hfixed f h)
      · exact .inr ⟨by omega, by simpa using hi⟩
  · rintro (h | ⟨h1, h2⟩)
    · exact .inl h
    · exact .inr ⟨_, mem_cwFields.mpr (.inr ⟨n - 0x20, h2, rfl⟩), by simp; omega⟩

theorem mem_words (n : Nat) : n ∈ Claims.jobWords ++ Claims.serviceWords ↔ n ≤ 4 ∨ (0x10 ≤ n ∧ n ≤ 0x16) ∨ n = 0x28 ∨ n = 0x30 ∨ n = 0x100 ∨
    n = 0x101 ∨ (0x108 ≤ n ∧ n ≤ 0x10C) := by
  simp [Claims.jobWords, Claims.serviceWords]
  omega

/-- Checks 1 to 3 of R294. -/
theorem cwIndexFault_service {s : State} {n : Nat} (hs : curService s = false) (hn : 0x100 ≤ n) : cwIndexFault s n = some 0x0D :=
  if_pos ⟨hs, hn⟩

section
variable {s : State} {n : Nat} (hs : curService s = true ∨ n < 0x100)
include hs

theorem cwIndexFault_unknown (hn : ¬cwIn s n) : cwIndexFault s n = some 0x03 := by
  rw [cwIn_iff, mem_words] at hn
  have h8 := foldWindows s
  rw [cwIndexFault, if_neg (by rcases hs with h | h <;> simp [h])]
  split
  · rfl
  · rename_i hk
    simp only [cwKnown, Bool.not_eq_false, Bool.or_eq_true, Bool.and_eq_true, decide_eq_true_eq, beq_iff_eq] at hk
    rw [if_pos (by omega)]

theorem cwIndexFault_known (hn : cwIn s n) : cwIndexFault s n = none := by
  rw [cwIn_iff, mem_words] at hn
  have h8 := foldWindows s
  have hk : cwKnown n = true := by
    simp only [cwKnown, Bool.or_eq_true, Bool.and_eq_true, decide_eq_true_eq, beq_iff_eq]
    omega
  rw [cwIndexFault, if_neg (by rcases hs with h | h <;> simp [h]), if_neg (by simp [hk]), if_neg (by omega)]

end

/-! CRD (R293 to R296). -/

@[simp] theorem curFold_cleared (s : State) (u : Nat) : curFold (cleared s u) = curFold s := by
  rw [curFold, curLp_cleared]
  rfl

@[simp] theorem winIndex_cleared (s : State) (u j : Nat) : winIndex (cleared s u) j = winIndex s j := by
  rw [winIndex, curLp_cleared, curFold_cleared]
  rfl

theorem windowOf_cleared (s : State) (u : Nat) : Claims.windowOf (cleared s u) = Claims.windowOf s := funext (winIndex_cleared s u)

theorem winIndex_eq (s : State) (j : Nat) : winIndex s j = Claims.windowOf s j := rfl

theorem cwIndexFault_cleared (s : State) (u n : Nat) : cwIndexFault (cleared s u) n = cwIndexFault s n := by simp [cwIndexFault]

theorem curPier_cleared {α : Type} (g : Pier → α) (hg : ∀ p l, g { p with strands := l } = g p) (s : State) (u : Nat) :
    g (curPier (cleared s u)) = g (curPier s) := getPier_cleared s u g hg _

/-- What a control word reads is not in the ports of a unit. -/
theorem cwRead_cleared (s : State) (u n : Nat) : cwRead (cleared s u) n = cwRead s n := by
  have hp : ∀ {α : Type} (g : Pier → α), (∀ p l, g { p with strands := l } = g p) → g (curPier (cleared s u)) = g (curPier s) :=
    fun g hg => curPier_cleared g hg s u
  have hph : physicalOf (cleared s u) = physicalOf s := rfl
  simp only [cwRead, winIndex_cleared, curActor_cleared, curStrand_cleared, clearUnit, pierId, curLp_cleared, cleared_issue, curActorIx_cleared,
    jobOf_cleared, getMod_cleared, hph]
  rw [hp Pier.wins fun _ _ => rfl, hp Pier.hold fun _ _ => rfl, hp Pier.xlroot fun _ _ => rfl, hp Pier.dlogCount fun _ _ => rfl,
    hp Pier.dlogHead fun _ _ => rfl, hp Pier.jobStrands fun _ _ => rfl, hp Pier.age fun _ _ => rfl, hp Pier.laglim fun _ _ => rfl,
    hp Pier.savelim fun _ _ => rfl, hp Pier.debugHalted fun _ _ => rfl, hp (fun p => occupancy p (curActorIx s)) fun _ _ => rfl]

/-- The body of CRD at a word there is. -/
theorem crdBody_known {s : State} {t : Value} (hs : curService s = true ∨ (vsc t).toNat < 0x100) (hk : cwIn s (vsc t).toNat) :
    (match cwIndexFault (cleared s 12) (vsc t).toNat with
      | some c => Trig.fault c (vsc t)
      | none => .ok (pendResult (cleared s 12) 12 2 (some (Value.ofWord (cwRead (cleared s 12) (vsc t).toNat))) none ((vsc t).toNat == 4) none)) =
      .ok (pendResult (cleared s 12) 12 2 (some (Value.ofWord (cwRead s (vsc t).toNat))) none ((vsc t).toNat == 4) none) := by
  rw [cwIndexFault_cleared, cwIndexFault_known hs hk, cwRead_cleared]

section
variable {s : State} {m : Mv} {t : Value} (h : Claims.Fires s m t) (ht : t.poison = false)
include h ht

theorem crd_busy (hn : (vsc t).toNat = 4) (hb : seedBusy s = true) : exec (.crd m) s = .next (markHeld s) := by
  have hk : cwIn s (vsc t).toNat := .inl (by rw [hn]; decide)
  refine congrArg Host.Outcome.next (runTrigger_held h ((checked_clean ht).trans (crdBody_known ?_ hk)) ?_)
  · exact .inr (by omega)
  · simp [hn, hb]

variable (hn : (vsc t).toNat ≠ 4 ∨ seedBusy s = false)
include hn

/-- A CRD that nothing holds gives its word two cycles later. -/
theorem crd_gives (hs : curService s = true ∨ (vsc t).toNat < 0x100) (hk : cwIn s (vsc t).toNat) :
    exec (.crd m) s = .next (Claims.later s 12 2 (Value.ofWord (cwRead s (vsc t).toNat)) none ((vsc t).toNat == 4)) := by
  refine congrArg Host.Outcome.next (runTrigger_ok h ((checked_clean ht).trans ?_) ?_)
  · exact (crdBody_known hs hk).trans (by rw [pendResult_cleared])
  · rcases hn with hn | hn <;> simp [hn]

theorem crd_faults {c : Nat} (hc : cwIndexFault s (vsc t).toNat = some c) : exec (.crd m) s = .next (raise s 12 c (moveWord s t) (vsc t)) := by
  refine congrArg Host.Outcome.next (runTrigger_fault h ((checked_clean ht).trans ?_) ?_)
  · simp only [cwIndexFault_cleared, hc]
  · rcases hn with hn | hn <;> simp [hn]

end

theorem cwRead_window (s : State) {j : Nat} (hj : j < 8) : cwRead s (0x20 + j) = fget (curPier s).wins (Claims.windowOf s j) 0 := by
  have hw : cwRead s (0x20 + j) = fget (curPier s).wins (winIndex s (0x20 + j - 0x20)) 0 := if_pos (by omega)
  rw [hw, Nat.add_sub_cancel_left, winIndex_eq]

theorem cwField_window (s : State) {j : Nat} (hj : j < 8) :
    Claims.cwField s (0x20 + j) = fget (curPier s).wins (Claims.windowOf s j) 0 := by
  have hw : Claims.cwField s (0x20 + j) = fget (curPier s).wins (Claims.windowOf s (0x20 + j - 0x20)) 0 := if_pos (by omega)
  rw [hw, Nat.add_sub_cancel_left]

theorem schedWord (j : BitVec 3) (a : BitVec 6) :
    BitVec.ofNat 64 (j.toNat * 2 ^ 32 + a.toNat) = j.setWidth 64 <<< 32 ||| a.setWidth 64 := by
  have hj := j.isLt
  have ha := a.isLt
  refine BitVec.eq_of_toNat_eq ?_
  simp only [BitVec.toNat_or, BitVec.toNat_shiftLeft, BitVec.toNat_setWidth, BitVec.toNat_ofNat]
  rw [Nat.mod_eq_of_lt (show a.toNat < 2 ^ 64 by omega), Nat.mod_eq_of_lt (show j.toNat < 2 ^ 64 by omega), Nat.shiftLeft_eq,
    Nat.mod_eq_of_lt (show j.toNat * 2 ^ 32 < 2 ^ 64 by omega), ← Nat.shiftLeft_eq, ← Nat.shiftLeft_add_eq_or_of_lt (by omega),
    Nat.shiftLeft_eq, Nat.mod_eq_of_lt (by omega)]

/-- The writable fields of a control word are what it reads, but for cw.weir and cw.dlog. -/
theorem cwRead_writable {s : State} {n : Nat} (hf : ∃ f ∈ Claims.cwFields s, f.1 = n) (hw : n ≠ 0x12) (hd : n ≠ 0x101) :
    cwRead s n = Claims.cwField s n := by
  obtain ⟨f, hf, rfl⟩ := hf
  obtain hf | ⟨j, hj, rfl⟩ := mem_cwFields.mp hf
  · have hn : f.1 ∈ fixedWords.map (·.1) := List.mem_map_of_mem hf
    generalize f.1 = n at hn hw hd
    simp only [fixedWords, List.map_cons, List.map_nil, List.mem_cons, List.not_mem_nil, or_false] at hn
    obtain rfl | rfl | rfl | rfl | rfl | rfl | rfl | rfl | rfl | rfl | rfl | rfl := hn
    · exact BitVec.ofNat_toNat ..
    · exact absurd rfl hw
    · rfl
    · rfl
    · rfl
    · rfl
    · exact BitVec.ofNat_toNat ..
    · rfl
    · exact absurd rfl hd
    · exact schedWord ..
    · exact BitVec.ofNat_toNat ..
    · exact BitVec.ofNat_toNat ..
  · have h8 := Nat.lt_of_lt_of_le hj (foldWindows s)
    rw [cwRead_window s h8, cwField_window s h8]

theorem seedBusy_iff (s : State) : seedBusy s = true ↔ ∃ p ∈ (curStrand s).pend, p.seed = true := by simp [seedBusy]

theorem seedBusy_false (s : State) : seedBusy s = false ↔ ∀ p ∈ (curStrand s).pend, p.seed = false := by simp [seedBusy]

theorem b2n_shift (b : Bool) (n : Nat) : b2n b * n = if b then n else 0 := by cases b <;> simp [b2n]

theorem spilling_iff (a : Actor) : spilling a = true ↔ a.spilled ≠ [] ∨ a.transit ≠ 0 := by simp [spilling]

theorem controlWordsRead : Claims.ControlWordsRead := by
  intro s m t h ht n known gives
  refine ⟨fun h4 hb => crd_busy h ht h4 ((seedBusy_iff s).mpr hb), fun hn => ?_⟩
  rw [← seedBusy_false] at hn
  have hgive : ∀ v, (curService s = true ∨ n < 0x100) → cwIn s n → cwRead s n = v → gives v := fun v hs hk hv =>
    hv ▸ crd_gives h ht hn hs hk
  have hjob : ∀ k v, n = k → k < 0x100 → k ∈ Claims.jobWords ++ Claims.serviceWords → cwRead s k = v → gives v := fun k v hk hlt hm hv =>
    hgive v (.inr (hk ▸ hlt)) (.inl (hk ▸ hm)) (hk ▸ hv)
  have hserv : ∀ k v, curService s = true → n = k → k ∈ Claims.jobWords ++ Claims.serviceWords → cwRead s k = v → gives v :=
    fun k v hs hk hm hv => hgive v (.inl hs) (.inl (hk ▸ hm)) (hk ▸ hv)
  refine ⟨fun hge hs => crd_faults h ht hn (cwIndexFault_service hs hge), fun hs hk => crd_faults h ht hn (cwIndexFault_unknown hs hk),
    fun hs hf hw hd => hgive _ hs (.inr hf) (cwRead_writable hf hw hd), fun hk => hjob 0 _ hk (by decide) (by decide) rfl,
    fun hk => hjob 1 _ hk (by decide) (by decide) (BitVec.ofNat_toNat ..), fun hk => hjob 2 _ hk (by decide) (by decide) rfl,
    fun hk => hjob 3 _ hk (by decide) (by decide) (BitVec.ofNat_toNat ..), fun hk => hjob 0x30 _ hk (by decide) (by decide) (BitVec.ofNat_toNat ..),
    fun hk => hjob 0x12 _ hk (by decide) (by decide) ?_, fun hk => hjob 0x16 _ hk (by decide) (by decide) ?_,
    fun hk => hjob 0x28 _ hk (by decide) (by decide) rfl, fun hs => ⟨fun hk => hserv 0x101 _ hs hk (by decide) rfl,
      fun hk => hserv 0x109 _ hs hk (by decide) rfl, fun hk => hserv 0x10C _ hs hk (by decide) ?_⟩⟩
  · show BitVec.ofNat 64 (b2n (spilling (curActor s)) * 2 ^ 31 + _ + _) = _
    rw [b2n_shift, if_congr (spilling_iff _) rfl rfl]
    rfl
  · show BitVec.ofNat 64 (b2n (curPier s).hold * 2 ^ 63 + _ + _) = _
    rw [b2n_shift]
  · show BitVec.ofNat 64 (b2n (curPier s).hold * 2 ^ 63 + b2n (curPier s).debugHalted * 2 ^ 62) = _
    rw [b2n_shift, b2n_shift]

/-! CWR (R293 to R296). -/

/-- The writable fields of the control words, of the parts of a state that hold them; `w` numbers the windows. -/
def cwView (seed : BitVec 32) (a : Actor) (p : Pier) (w : Nat → Nat) (n : Nat) : Word :=
  if 0x20 ≤ n ∧ n < 0x28 then fget p.wins (w (n - 0x20)) 0
  else match n with
    | 0x04 => seed.setWidth 64
    | 0x10 => a.rgnbase
    | 0x11 => a.rgnlim
    | 0x12 => a.weir.setWidth 64
    | 0x13 => a.spill
    | 0x14 => a.fault
    | 0x15 => a.graph.setWidth 64
    | 0x100 => p.xlroot
    | 0x101 => p.dlogHead.setWidth 64 <<< 16
    | 0x108 => p.jobStrands.setWidth 64 <<< 32 ||| p.age.setWidth 64
    | 0x10A => p.laglim.setWidth 64
    | 0x10B => p.savelim.setWidth 64
    | _ => 0

theorem cwField_eq (s : State) (n : Nat) :
    Claims.cwField s n = cwView (curStrand s).seed (curActor s) (curPier s) (Claims.windowOf s) n := rfl

/-- The strands and actors of a pier hold none of its own words. -/
theorem cwView_pier (seed : BitVec 32) (a : Actor) (p : Pier) (l : FMap Strand) (m : FMap Actor) (w : Nat → Nat) (n : Nat) :
    cwView seed a { p with strands := l, actors := m } w n = cwView seed a p w n := rfl

/-- The seed is the word 4 alone. -/
theorem cwView_seed (x y : BitVec 32) (a : Actor) (p : Pier) (w : Nat → Nat) {n : Nat} (h : n ≠ 4) : cwView x a p w n = cwView y a p w n := by
  unfold cwView
  split
  · rfl
  · split
    · exact absurd rfl h
    all_goals rfl

/-- A pier without its actors and control words. -/
def Pier.noWords (p : Pier) : Pier :=
  { p with actors := [], wins := [], xlroot := 0, dlogHead := 0, jobStrands := 0, age := 0, laglim := 0, savelim := 0 }

/-- The state after a CWR: cw.seed of the run, and the actors and control words of its pier. -/
def cwState (s : State) (seed : BitVec 32) (f : Pier → Pier) : State :=
  adjPier (adjCur s fun x => { clearUnit x 12 with seed }) s.issue.pk f

theorem windowOf_eq {s t : State} (hm : t.mods = s.mods) (hi : t.issue = s.issue) (hl : curLp t = curLp s) :
    Claims.windowOf t = Claims.windowOf s := by
  funext j
  rw [Claims.windowOf, Claims.windowOf, entryOf, entryOf, getPart, getPart, getMod, getMod, hm, hi, hl]

section
variable {s : State} {seed : BitVec 32} {f : Pier → Pier} (hf : ∀ p, (f p).noWords = p.noWords)

theorem curPier_cwState : curPier (cwState s seed f) = f (getPier (adjCur s fun x => { clearUnit x 12 with seed }) s.issue.pk) :=
  getPier_adjPier_same ..

include hf

theorem getStrand_cwState (pk st : Nat) :
    getStrand (cwState s seed f) pk st = getStrand (adjCur s fun x => { clearUnit x 12 with seed }) pk st := by
  by_cases hk : pk = s.issue.pk
  · subst hk
    rw [getStrand, cwState, getPier_adjPier_same]
    exact (congrArg (fun p => pierStrand p st) (hf _) :)
  · rw [getStrand, cwState, getPier_adjPier_other _ _ _ _ hk]
    rfl

theorem curStrand_cwState : curStrand (cwState s seed f) = { clearUnit (curStrand s) 12 with seed } :=
  (getStrand_cwState hf ..).trans (curStrand_adjCur ..)

theorem curActorIx_cwState : curActorIx (cwState s seed f) = curActorIx s := by rw [curActorIx, curStrand_cwState hf]; rfl

theorem windowOf_cwState : Claims.windowOf (cwState s seed f) = Claims.windowOf s :=
  windowOf_eq rfl rfl (by rw [curLp, curStrand_cwState hf]; rfl)

/-- What a control word reads after a CWR, where the update of the pier says nothing of its strands. -/
theorem cwField_cwState (hs : ∀ p l, f { p with strands := l } = { f p with strands := l }) (n : Nat) :
    Claims.cwField (cwState s seed f) n = cwView seed (pierActor (f (curPier s)) (curActorIx s)) (f (curPier s)) (Claims.windowOf s) n := by
  have hp : ∀ {α : Type} (g : Pier → α), (∀ p l, g { p with strands := l } = g p) → g (curPier (cwState s seed f)) = g (f (curPier s)) := by
    intro α g hg
    rw [curPier_cwState]
    exact getPier_adjCur (fun p => g (f p)) (fun p l => by rw [hs, hg]) s _ _
  rw [cwField_eq, windowOf_cwState hf, curStrand_cwState hf, curActor, curActorIx_cwState hf]
  rw [show getActor (cwState s seed f) (cwState s seed f).issue.pk (curActorIx s) = pierActor (curPier (cwState s seed f)) (curActorIx s) from rfl,
    hp (fun p => pierActor p (curActorIx s)) fun _ _ => rfl]
  exact hp (fun p => cwView seed (pierActor (f (curPier s)) (curActorIx s)) p (Claims.windowOf s) n) fun _ _ => rfl

/-- A CWR changes nothing but the words of which it says otherwise. -/
theorem cwOnly_cwState (hs : ∀ p l, f { p with strands := l } = { f p with strands := l }) {n : Nat}
    (hact : ∀ a, a ≠ curActorIx s → ∀ p, pierActor (f p) a = pierActor p a)
    (hview : ∀ k, (∃ e ∈ Claims.cwFields s, e.1 = k) → k ≠ n →
      cwView seed (pierActor (f (curPier s)) (curActorIx s)) (f (curPier s)) (Claims.windowOf s) k = Claims.cwField s k) :
    Claims.CwOnly s (cwState s seed f) n := by
  have hcur : ∀ {α : Type} (g : Pier → α), (∀ p l, g { p with strands := l } = g p) → (∀ p, g (f p) = g p) →
      g (curPier (cwState s seed f)) = g (curPier s) := by
    intro α g hg hfg
    rw [curPier_cwState, hfg]
    exact getPier_adjCur g hg s _ _
  exact
    { fields := fun e he hn => (cwField_cwState hf hs e.1).trans (hview _ ⟨e, he, rfl⟩ hn)
      regs := fun r => by rw [curStrand_cwState hf]; exact ⟨rfl, rfl, rfl⟩
      ports := fun i hi => by rw [curStrand_cwState hf]; exact resPort_clear_other (curStrand s) 12 i hi
      strands := fun pk st h => (getStrand_cwState hf pk st).trans (getStrand_adjCur_other s _ pk st h)
      actors := fun a ha => hcur (fun p => pierActor p a) (fun _ _ => rfl) (hact a ha)
      others := fun pk hk => by
        rw [cwState, getPier_adjPier_other _ _ _ _ hk]
        exact getPier_setPier_other _ _ _ _ hk
      sluices := hcur Pier.sluices (fun _ _ => rfl) fun p => (congrArg Pier.sluices (hf p) :)
      messages := ⟨hcur Pier.inbox (fun _ _ => rfl) fun p => (congrArg Pier.inbox (hf p) :),
        hcur Pier.outbox (fun _ _ => rfl) fun p => (congrArg Pier.outbox (hf p) :)⟩
      memory := by
        have hspad : ∀ p, (f p).spad = p.spad := fun p => (congrArg Pier.spad (hf p) :)
        have hcode : ∀ p, (f p).code = p.code := fun p => (congrArg Pier.code (hf p) :)
        exact sameMemory_of (by rw [cwState, memories_adjPier _ _ _ hspad, memories_adjCur])
          (by rw [cwState, codes_adjPier _ _ _ hcode, codes_adjCur]) }

end

/-- What a CWR of a word makes of the pier: `ix` is the actor of the run, `w` numbers its windows. -/
def cwPut (ix : Nat) (w : Nat → Nat) (n : Nat) (v : Word) (p : Pier) : Pier :=
  let actor (f : Actor → Actor) : Pier := { p with actors := fset p.actors ix (f (pierActor p ix)) }
  if 0x20 ≤ n ∧ n ≤ 0x27 then { p with wins := fset p.wins (w (n - 0x20)) v }
  else
    match n with
    | 0x10 => actor fun a => { a with rgnbase := v }
    | 0x11 => actor fun a => { a with rgnlim := v }
    | 0x12 => actor fun a => { a with weir := v.extractLsb' 0 9 }
    | 0x13 => actor fun a => { a with spill := v }
    | 0x14 => actor fun a => { a with fault := v }
    | 0x15 => actor fun a => { a with graph := v.extractLsb' 0 12 }
    | 0x100 => { p with xlroot := v }
    | 0x101 => { p with dlogHead := v.extractLsb' 16 8 }
    | 0x108 => { p with jobStrands := v.extractLsb' 32 3, age := v.extractLsb' 0 6 }
    | 0x10A => { p with laglim := v.extractLsb' 0 32 }
    | 0x10B => { p with savelim := v.extractLsb' 0 32 }
    | _ => p

/-- What it makes of cw.seed, where 0 becomes 1 (R72). -/
def cwSeed (seed : BitVec 32) (n : Nat) (v : Word) : BitVec 32 :=
  if n = 4 then if v.extractLsb' 0 32 = (0 : BitVec 32) then 1 else v.extractLsb' 0 32 else seed

theorem adjPier_same (s : State) (f : Strand → Strand) : adjPier (adjCur s f) s.issue.pk (fun p => p) = adjCur s f := by
  simp [adjPier, setPier, adjCur, adjStrand, setStrand, getPier]

theorem cwState_seed (s : State) (f : Pier → Pier) : cwState s (curStrand s).seed f = adjPier (cleared s 12) s.issue.pk f := rfl

theorem cwWrite_cleared (s : State) (n : Nat) (v : Word) :
    cwWrite (cleared s 12) n v = cwState s (cwSeed (curStrand s).seed n v) (cwPut (curActorIx s) (Claims.windowOf s) n v) := by
  by_cases h4 : n = 4
  · subst h4
    have hv : cwSeed (curStrand s).seed 4 v = if v.extractLsb' 0 32 = (0 : BitVec 32) then 1 else v.extractLsb' 0 32 := if_pos rfl
    rw [hv]
    exact (adjCur_cleared s 12 fun x => { x with seed := if v.extractLsb' 0 32 = (0 : BitVec 32) then 1 else v.extractLsb' 0 32 }).trans
      (adjPier_same s _).symm
  · rw [cwSeed, if_neg h4, cwState_seed]
    unfold cwWrite cwPut
    simp only [winIndex_eq, windowOf_cleared, cleared_issue]
    split
    · rfl
    · split
      · exact absurd rfl h4
      · simp [cwActor, adjActor]
      · simp [cwActor, adjActor]
      · simp [cwActor, adjActor]
      · simp [cwActor, adjActor]
      · simp [cwActor, adjActor]
      · simp [cwActor, adjActor]
      · rfl
      · rfl
      · rfl
      · rfl
      · rfl
      · split
        case h_12 => exact (adjPier_same s _).symm
        all_goals contradiction

theorem cwView_cwPut (ix : Nat) (w : Nat → Nat) (hw : ∀ i j, w i = w j → i = j) (n : Nat) (v : Word) (seed : BitVec 32) (p : Pier) {k : Nat}
    (hk : k ≠ n) :
    cwView (cwSeed seed n v) (pierActor (cwPut ix w n v p) ix) (cwPut ix w n v p) w k = cwView seed (pierActor p ix) p w k := by
  by_cases h4 : n = 4
  · subst h4
    exact cwView_seed _ _ _ _ _ hk
  · rw [cwSeed, if_neg h4]
    unfold cwPut
    split
    · unfold cwView
      split
      · exact fget_fset_other _ _ _ _ _ fun h => hk (by have := hw _ _ h; omega)
      · rfl
    · split
      case h_12 => rfl
      all_goals
        simp only [pierActor, fget_fset_same]
        unfold cwView
        split
        · rfl
        · split
          all_goals try contradiction
          all_goals rfl

section
variable (ix : Nat) (w : Nat → Nat) (n : Nat) (v : Word) (p : Pier)

theorem noWords_cwPut : (cwPut ix w n v p).noWords = p.noWords := by
  unfold cwPut
  split
  · rfl
  · split
    all_goals rfl

theorem strands_cwPut (l : FMap Strand) : cwPut ix w n v { p with strands := l } = { cwPut ix w n v p with strands := l } := by
  unfold cwPut
  split
  · rfl
  · split
    all_goals rfl

theorem pierActor_cwPut {a : Nat} (h : a ≠ ix) : pierActor (cwPut ix w n v p) a = pierActor p a := by
  unfold cwPut
  split
  · rfl
  · split
    all_goals try exact fget_fset_other _ _ _ _ _ h
    all_goals rfl

end

/-- The low bits of a word that has no others. -/
theorem low_and (v m : Word) (n : Nat) (hm : ∀ i < 64, n ≤ i → m.getLsbD i = false) : ((v &&& m).extractLsb' 0 n).setWidth 64 = v &&& m := by
  refine BitVec.eq_of_getLsbD_eq fun i hi => ?_
  simp only [BitVec.getLsbD_setWidth, BitVec.getLsbD_extractLsb', BitVec.getLsbD_and, Nat.zero_add, hi, decide_true, Bool.true_and]
  by_cases h : i < n
  · simp [h]
  · simp [h, hm i hi (by omega)]

theorem dlog_and (v m : Word) (hm : ∀ i < 64, ¬(16 ≤ i ∧ i < 24) → m.getLsbD i = false) :
    ((v &&& m).extractLsb' 16 8).setWidth 64 <<< 16 = v &&& m := by
  refine BitVec.eq_of_getLsbD_eq fun i hi => ?_
  simp only [BitVec.getLsbD_shiftLeft, BitVec.getLsbD_setWidth, BitVec.getLsbD_extractLsb', BitVec.getLsbD_and, hi, decide_true, Bool.true_and]
  by_cases h : 16 ≤ i ∧ i < 24
  · simp [show 16 + (i - 16) = i by omega, show ¬i < 16 by omega, show i - 16 < 64 by omega, show i - 16 < 8 by omega]
  · rw [hm i hi h]
    by_cases h16 : i < 16
    · simp [h16]
    · simp [show ¬i - 16 < 8 by omega]

theorem sched_and (v m : Word) (hm : ∀ i < 64, ¬(i < 6 ∨ 32 ≤ i ∧ i < 35) → m.getLsbD i = false) :
    ((v &&& m).extractLsb' 32 3).setWidth 64 <<< 32 ||| ((v &&& m).extractLsb' 0 6).setWidth 64 = v &&& m := by
  refine BitVec.eq_of_getLsbD_eq fun i hi => ?_
  simp only [BitVec.getLsbD_or, BitVec.getLsbD_shiftLeft, BitVec.getLsbD_setWidth, BitVec.getLsbD_extractLsb', BitVec.getLsbD_and, hi,
    decide_true, Bool.true_and, Nat.zero_add]
  by_cases h : i < 6 ∨ 32 ≤ i ∧ i < 35
  · obtain h | h := h
    · simp [h, show i < 32 by omega]
    · simp [show 32 + (i - 32) = i by omega, show ¬i < 32 by omega, show i - 32 < 64 by omega, show i - 32 < 3 by omega, show ¬i < 6 by omega]
  · rw [hm i hi h]
    by_cases h32 : i < 32
    · simp [h32, show ¬i < 6 by omega]
    · simp [show ¬i - 32 < 3 by omega]

theorem seed_and (v m : Word) (hm : ∀ i < 64, 32 ≤ i → m.getLsbD i = false) :
    (if (v &&& m).extractLsb' 0 32 = 0 then 1 else (v &&& m).extractLsb' 0 32 : BitVec 32).setWidth 64 = if v &&& m = 0 then 1 else v &&& m := by
  have hl := low_and v m 32 hm
  by_cases h : (v &&& m).extractLsb' 0 32 = 0
  · rw [if_pos h, if_pos (by rw [← hl, h]; rfl)]
    rfl
  · rw [if_neg h, if_neg fun h0 => h (by rw [h0]; rfl), hl]

/-- A word reads what it was given in its fields, 1 for a seed of 0. -/
theorem cwView_cwPut_same {s : State} {n : Nat} {j sv : Word} (h : (n, j, sv) ∈ Claims.cwFields s) (m : Word) (hm : m = j ∨ m = sv)
    (ix : Nat) (w : Nat → Nat) (x : Word) (seed : BitVec 32) (p : Pier) :
    cwView (cwSeed seed n (x &&& m)) (pierActor (cwPut ix w n (x &&& m) p) ix) (cwPut ix w n (x &&& m) p) w n =
      if n = 4 ∧ x &&& m = 0 then 1 else x &&& m := by
  have hact : ∀ f : Actor → Actor, pierActor { p with actors := fset p.actors ix (f (pierActor p ix)) } ix = f (pierActor p ix) := fun f =>
    fget_fset_same ..
  obtain h | ⟨i, hi, h⟩ := mem_cwFields.mp h
  · simp only [fixedWords, List.mem_cons, List.not_mem_nil, or_false] at h
    obtain ⟨rfl, rfl, rfl⟩ | ⟨rfl, rfl, rfl⟩ | ⟨rfl, rfl, rfl⟩ | ⟨rfl, rfl, rfl⟩ | ⟨rfl, rfl, rfl⟩ | ⟨rfl, rfl, rfl⟩ | ⟨rfl, rfl, rfl⟩ |
      ⟨rfl, rfl, rfl⟩ | ⟨rfl, rfl, rfl⟩ | ⟨rfl, rfl, rfl⟩ | ⟨rfl, rfl, rfl⟩ | ⟨rfl, rfl, rfl⟩ := h
    · have hs : cwSeed seed 4 (x &&& m) = if (x &&& m).extractLsb' 0 32 = 0 then 1 else (x &&& m).extractLsb' 0 32 := if_pos rfl
      rw [hs, if_congr (and_iff_right rfl) rfl rfl]
      exact seed_and x m (by rcases hm with rfl | rfl <;> decide)
    · rw [if_neg fun h => absurd h.1 (by decide)]
      exact (congrArg (fun a : Actor => a.weir.setWidth 64) (hact fun a => { a with weir := (x &&& m).extractLsb' 0 9 })).trans
        (low_and x m 9 (by rcases hm with rfl | rfl <;> decide))
    · rw [if_neg fun h => absurd h.1 (by decide)]
      exact congrArg Actor.fault (hact fun a => { a with fault := x &&& m })
    · rw [if_neg fun h => absurd h.1 (by decide)]
      exact congrArg Actor.rgnbase (hact fun a => { a with rgnbase := x &&& m })
    · rw [if_neg fun h => absurd h.1 (by decide)]
      exact congrArg Actor.rgnlim (hact fun a => { a with rgnlim := x &&& m })
    · rw [if_neg fun h => absurd h.1 (by decide)]
      exact congrArg Actor.spill (hact fun a => { a with spill := x &&& m })
    · rw [if_neg fun h => absurd h.1 (by decide)]
      exact (congrArg (fun a : Actor => a.graph.setWidth 64) (hact fun a => { a with graph := (x &&& m).extractLsb' 0 12 })).trans
        (low_and x m 12 (by rcases hm with rfl | rfl <;> decide))
    · rw [if_neg fun h => absurd h.1 (by decide)]
      rfl
    · rw [if_neg fun h => absurd h.1 (by decide)]
      exact dlog_and x m (by rcases hm with rfl | rfl <;> decide)
    · rw [if_neg fun h => absurd h.1 (by decide)]
      exact sched_and x m (by rcases hm with rfl | rfl <;> decide)
    · rw [if_neg fun h => absurd h.1 (by decide)]
      exact low_and x m 32 (by rcases hm with rfl | rfl <;> decide)
    · rw [if_neg fun h => absurd h.1 (by decide)]
      exact low_and x m 32 (by rcases hm with rfl | rfl <;> decide)
  · obtain ⟨rfl, -, -⟩ := h
    have h8 := Nat.lt_of_lt_of_le hi (foldWindows s)
    have hput : cwPut ix w (0x20 + i) (x &&& m) p = { p with wins := fset p.wins (w (0x20 + i - 0x20)) (x &&& m) } := if_pos (by omega)
    rw [if_neg (by omega), hput]
    exact (if_pos (by omega)).trans (fget_fset_same ..)

/-- Different windows of a run have different carrier windows. -/
theorem windowOf_inj (s : State) (i j : Nat) (h : Claims.windowOf s i = Claims.windowOf s j) : i = j := by
  simp only [Claims.windowOf] at h
  omega

/-- A CWR of a word that passes its checks. -/
theorem cwOnly_cwWrite (s : State) (n : Nat) (v : Word) : Claims.CwOnly s (cwWrite (cleared s 12) n v) n := by
  rw [cwWrite_cleared]
  exact cwOnly_cwState (noWords_cwPut _ _ _ _) (strands_cwPut _ _ _ _) (fun a ha p => pierActor_cwPut _ _ _ _ p ha) fun k _ hk =>
    cwView_cwPut _ _ (windowOf_inj s) n v _ _ hk

theorem cwField_cwWrite {s : State} {n : Nat} {j sv : Word} (h : (n, j, sv) ∈ Claims.cwFields s) (m : Word) (hm : m = j ∨ m = sv) (x : Word) :
    Claims.cwField (cwWrite (cleared s 12) n (x &&& m)) n = if n = 4 ∧ x &&& m = 0 then 1 else x &&& m := by
  rw [cwWrite_cleared, cwField_cwState (noWords_cwPut _ _ _ _) (strands_cwPut _ _ _ _)]
  exact cwView_cwPut_same h m hm ..

/-- Whether the running code may not write a word with a value (check 4 of R294). -/
def cwMayNot (s : State) (n : Nat) (v : Word) : Prop := curService s = false ∧ (cwRw n = 0 ∨ v.toNat &&& (2 ^ 64 - 1 - cwRw n) ≠ 0)

theorem cwMayNot_iff {s : State} {n : Nat} {v : Word} {j sv : Word} (h : (n, j, sv) ∈ Claims.cwFields s) :
    cwMayNot s n v ↔ curService s = false ∧ (j = 0 ∨ v &&& ~~~j ≠ 0) := by
  have hj : cwRw n = 0 ↔ j = 0 := by rw [← (cwFields_masks h).1]; exact BitVec.toNat_eq_nat.trans (by simp)
  have hn : (v.toNat &&& (2 ^ 64 - 1 - cwRw n)) = (v &&& ~~~j).toNat := by rw [BitVec.toNat_and, BitVec.toNat_not, (cwFields_masks h).1]
  rw [cwMayNot, hj, hn]
  exact and_congr_right fun _ => or_congr_right (not_congr (BitVec.toNat_eq_nat.trans (by simp)))

theorem cwMay {s : State} {n : Nat} {v : Word} {j sv : Word} (h : (n, j, sv) ∈ Claims.cwFields s)
    (hm : curService s = true ∨ (j ≠ 0 ∧ v &&& ~~~j = 0)) : ¬cwMayNot s n v := by
  rw [cwMayNot_iff h]
  rintro ⟨hs, hw⟩
  obtain hm | ⟨h0, hm⟩ := hm
  · rw [hm] at hs; cases hs
  · exact hw.elim h0 fun hw => hw hm

theorem cwValueFault_mayNot {s : State} {n : Nat} {v : Word} (h : cwMayNot s n v) : cwValueFault s n v = some (0x0D, BitVec.ofNat 64 n) := if_pos h

/-- The checks of a window register, by the two ways in which they allow a value (R134). -/
theorem winFault_none {n : Nat} {v : Word} (h58 : bits v 58 2 ≠ 3)
    (h : (bits v 56 2 = 0 ∧ bits v 14 15 ≤ 0xFC0) ∨ (bits v 56 2 = 1 ∧ bits v 60 2 = 0 ∧ bits v 14 15 ≤ 0x4000)) : winFault n v = none := by
  rw [winFault, if_neg (by omega), if_neg (by omega), if_neg (by omega), if_neg (by omega)]

theorem cwValueFault_allowed {s : State} {n : Nat} {v : Word} (hm : ¬cwMayNot s n v) (hv : Claims.CwAllows n v) : cwValueFault s n v = none := by
  obtain ⟨hweir, hspill, hsched, hwin⟩ := hv
  simp only [fld_eq_bits] at hweir hspill hsched hwin
  rw [cwMayNot] at hm
  rw [cwValueFault, if_neg hm, if_neg fun h => by have := hweir h.1; omega, if_neg fun h => by have := hspill h.1; omega,
    if_neg fun h => hsched h.1 h.2]
  split
  · have hw := hwin (by omega)
    exact winFault_none hw.1 hw.2
  · rfl

theorem cwValueFault_refused {s : State} {n : Nat} {v : Word} (hm : ¬cwMayNot s n v) {code : Nat} {w3 : Word}
    (hv : Claims.CwRefuses n v code w3) : cwValueFault s n v = some (code, w3) := by
  simp only [Claims.CwRefuses, fld_eq_bits] at hv
  rw [cwMayNot] at hm
  rw [cwValueFault, if_neg hm]
  obtain ⟨rfl, rfl, ⟨hn, h⟩ | ⟨hn, h⟩ | ⟨hn, h⟩ | ⟨hn, h⟩⟩ | ⟨rfl, rfl, hn, h58, h56, h14⟩ := hv
  · rw [if_pos ⟨hn, h⟩]
  · rw [if_neg (by omega), if_pos ⟨hn, h⟩]
  · rw [if_neg (by omega), if_neg (by omega), if_pos ⟨hn, h⟩]
  · rw [if_neg (by omega), if_neg (by omega), if_neg (by omega), if_pos (by omega), winFault]
    split
    · rfl
    · split
      · rfl
      · rw [if_neg (by omega), if_pos (by omega)]
  · rw [if_neg (by omega), if_neg (by omega), if_neg (by omega), if_pos (by omega), winFault, if_neg (by omega), if_neg (by omega),
      if_pos ⟨h56, h14⟩]

/-! CWR itself. -/

theorem cwrHeld_free {s : State} {a : Value} (hp : Claims.Port s .syA a) (hn : (vsc a).toNat ≠ 4 ∨ seedBusy s = false) : ((vsc (needed (curStrand s) (some .syA))).toNat == 4 && seedBusy s) = false := by
  rw [needed_port hp]
  rcases hn with hn | hn <;> simp [hn]

section
variable {s : State} {m : Mv} {t a : Value} (h : Claims.Fires s m t) (hp : Claims.Port s .syA a) (ht : t.poison = false)
  (ha : a.poison = false) (hn : (vsc a).toNat ≠ 4 ∨ seedBusy s = false)
include h hp ht ha hn

theorem cwr_indexFault {c : Nat} (hc : cwIndexFault s (vsc a).toNat = some c) : runCwr s m = raise s 12 c (moveWord s t) (vsc a) := by
  refine runTrigger_fault h ((checked_portA hp ht ha).trans ?_) (cwrHeld_free hp hn)
  simp only [cwIndexFault_cleared, hc]

theorem cwr_valueFault (hc : cwIndexFault s (vsc a).toNat = none) {f : Nat × Word} (hv : cwValueFault s (vsc a).toNat (vsc t) = some f) :
    runCwr s m = raise s 12 f.1 (moveWord s t) f.2 := by
  refine runTrigger_fault h ((checked_portA hp ht ha).trans ?_) (cwrHeld_free hp hn)
  have hv' : cwValueFault (cleared s 12) (vsc a).toNat (vsc t) = some f := by rw [cwValueFault, curService_cleared]; exact hv
  simp only [cwIndexFault_cleared, hc, hv']

theorem cwr_writes (hc : cwIndexFault s (vsc a).toNat = none) (hv : cwValueFault s (vsc a).toNat (vsc t) = none) :
    runCwr s m = cwWrite (cleared s 12) (vsc a).toNat (BitVec.ofNat 64 ((vsc t).toNat &&& cwMask s (vsc a).toNat)) := by
  refine runTrigger_ok h ((checked_portA hp ht ha).trans ?_) (cwrHeld_free hp hn)
  have hv' : cwValueFault (cleared s 12) (vsc a).toNat (vsc t) = none := by rw [cwValueFault, curService_cleared]; exact hv
  have hmask : cwMask (cleared s 12) (vsc a).toNat = cwMask s (vsc a).toNat := by simp [cwMask]
  simp only [cwIndexFault_cleared, hc, hv', hmask]

end

/-- The forms of CWR: one that stands for the word in port a is CWR, another does nothing (log entry 12). -/
theorem exec_cwrForm {s : State} {m : Mv} {a : Value} {i : Instr} {here : Nat → Prop} (hi : (i, here) ∈ Claims.cwrForms m)
    (hp : Claims.Port s .syA a) :
    (here (vsc a).toNat → exec i s = .next (runCwr s m)) ∧ (¬here (vsc a).toNat → exec i s = .next s) := by
  have hof : ∀ words : Nat → Bool, go (runCwrOf s m words) = .next (if words (vsc a).toNat then runCwr s m else s) := fun words => by
    rw [runCwrOf, show opPort (curStrand s) .syA = some a from hp]
    rfl
  have hword : ∀ (words : Nat → Bool), (words (vsc a).toNat = true ↔ here (vsc a).toNat) → exec i s = go (runCwrOf s m words) →
      (here (vsc a).toNat → exec i s = .next (runCwr s m)) ∧ (¬here (vsc a).toNat → exec i s = .next s) := fun words hw he => by
    rw [he, hof]
    exact ⟨fun h => by rw [if_pos (hw.mpr h)], fun h => by rw [if_neg fun hh => h (hw.mp hh)]⟩
  simp only [Claims.cwrForms, List.mem_cons, List.not_mem_nil, or_false] at hi
  obtain ⟨rfl, rfl⟩ | ⟨rfl, rfl⟩ | ⟨rfl, rfl⟩ | ⟨rfl, rfl⟩ | ⟨rfl, rfl⟩ | ⟨rfl, rfl⟩ := hi
  · exact ⟨fun _ => rfl, fun h => absurd trivial h⟩
  · exact hword (fun n => 0x20 ≤ n && n ≤ 0x27) (by simp; omega) rfl
  · exact hword (fun n => n == 0x12) (by simp) rfl
  · exact hword (fun n => n == 4) (by simp) rfl
  · exact hword (fun n => n == 0x108) (by simp) rfl
  · exact hword (fun n => n == 0x100) (by simp) rfl

/-- Below 0x100 or as service code the index of a word there is passes. -/
theorem cwIn_ofFields {s : State} {n : Nat} {j sv : Word} (h : (n, j, sv) ∈ Claims.cwFields s) : cwIn s n := .inr ⟨_, h, rfl⟩

/-- Job code writes no field of a word from 0x100. -/
theorem jobMask_low {s : State} {n : Nat} {j sv : Word} (h : (n, j, sv) ∈ Claims.cwFields s) (hj : j ≠ 0) : n < 0x100 := by
  obtain h | ⟨i, hi, h⟩ := mem_cwFields.mp h
  · have hall : ∀ f ∈ fixedWords, f.2.1 ≠ 0 → f.1 < 0x100 := by decide
    exact hall _ h hj
  · obtain ⟨rfl, -, -⟩ := h
    have h8 := foldWindows s
    omega

/-- A word without writable fields has none in the model's masks. -/
theorem cwMask_none {s : State} {n : Nat} (hm : n ∈ Claims.jobWords ++ Claims.serviceWords) (hf : ∀ f ∈ Claims.cwFields s, f.1 ≠ n) :
    cwRw n = 0 ∧ (n = 0x12 → False) ∧ (n = 0x13 → False) ∧ (n = 0x108 → False) ∧ ¬(0x20 ≤ n ∧ n < 0x28) := by
  have hfix : ∀ f ∈ fixedWords, f.1 ≠ n := fun f h => hf f (mem_cwFields.mpr (.inl h))
  have hall : ∀ n ∈ Claims.jobWords ++ Claims.serviceWords, (∀ f ∈ fixedWords, f.1 ≠ n) →
      cwRw n = 0 ∧ (n = 0x12 → False) ∧ (n = 0x13 → False) ∧ (n = 0x108 → False) ∧ ¬(0x20 ≤ n ∧ n < 0x28) := by decide
  exact hall n hm hfix

theorem controlWordsWritten : Claims.ControlWordsWritten := by
  intro s m t a i here h hp ht ha hi n
  obtain ⟨hhere, hnot⟩ := exec_cwrForm hi hp
  refine ⟨hnot, fun hh hn => ?_⟩
  rw [← seedBusy_false] at hn
  rw [hhere hh]
  have hjob : ∀ {j sv : Word}, (n, j, sv) ∈ Claims.cwFields s → (curService s = true ∨ (j ≠ 0 ∧ vsc t &&& ~~~j = 0)) →
      curService s = true ∨ n < 0x100 := fun hf hm => hm.imp_right fun hj => jobMask_low hf hj.1
  refine ⟨?_, fun j sv code w3 hf hm hv => ?_, fun hs h1 h2 => ?_, fun hk hf => ⟨fun hs => ⟨_, rfl, ?_⟩,
    fun hs hlt => ?_⟩, fun hs hge => ?_, fun j sv hf hlt hs hm => ?_⟩
  · intro j sv hf mask hm hv
    have hmask : BitVec.ofNat 64 ((vsc t).toNat &&& cwMask s n) = vsc t &&& mask := by
      obtain ⟨hj, hsv⟩ := cwFields_masks hf
      have hc : cwMask s n = mask.toNat := by
        rw [cwMask, apply_ite BitVec.toNat, hj, hsv]
      rw [hc, ← BitVec.toNat_and, BitVec.ofNat_toNat, BitVec.setWidth_eq]
    have hor : mask = j ∨ mask = sv := by
      simp only [mask]
      split
      · exact .inr rfl
      · exact .inl rfl
    rw [cwr_writes h hp ht ha hn (cwIndexFault_known (hjob hf hm) (cwIn_ofFields hf)) (cwValueFault_allowed (cwMay hf hm) hv), hmask]
    exact ⟨_, rfl, cwOnly_cwWrite .., cwField_cwWrite hf mask hor _⟩
  · rw [cwr_valueFault h hp ht ha hn (cwIndexFault_known (hjob hf hm) (cwIn_ofFields hf)) (cwValueFault_refused (cwMay hf hm) hv)]
  · rw [cwr_indexFault h hp ht ha hn (cwIndexFault_unknown hs fun hk => hk.elim h1 fun ⟨f, hf, he⟩ => h2 f hf he)]
  · obtain ⟨-, h12, h13, h108, hwin⟩ := cwMask_none hk hf
    have hmay : ¬cwMayNot s n (vsc t) := fun hmay => by rw [hmay.1] at hs; cases hs
    rw [cwr_writes h hp ht ha hn (cwIndexFault_known (.inl hs) (.inl hk)) (cwValueFault_allowed hmay
      ⟨fun hn => absurd hn h12, fun hn => absurd hn h13, fun hn => absurd hn h108, fun hn => absurd hn hwin⟩)]
    exact cwOnly_cwWrite ..
  · rw [cwr_valueFault h hp ht ha hn (cwIndexFault_known (.inr hlt) (.inl hk)) (cwValueFault_mayNot ⟨hs, .inl (cwMask_none hk hf).1⟩)]
    simp
  · rw [cwr_indexFault h hp ht ha hn (cwIndexFault_service hs hge)]
  · rw [cwr_valueFault h hp ht ha hn (cwIndexFault_known (.inr hlt) (cwIn_ofFields hf)) (cwValueFault_mayNot ((cwMayNot_iff hf).mpr ⟨hs, hm⟩))]
    simp

/-- Settles O37. -/
theorem controlWords : Obligations.ControlWords := ⟨controlWordsRead, controlWordsWritten⟩

end Sys2Proof.Machine
end

section
/-!
ARET, GDONE, GCNCL and TLBI (O39).
-/

namespace Sys2Proof.Machine

/-! Frames of what leaves the run alone. -/

@[simp] theorem codes_launch (s : State) (lat : Nat) (i : Instr) : codes (launch s lat i) = codes s := by
  funext pk
  rw [codes, (schedules_launch s lat i).getPier, codes]

@[simp] theorem codes_launchOn (s : State) (pk key lat : Nat) (i : Instr) : codes (launchOn s pk key lat i) = codes s := by
  simp [launchOn]

theorem codes_of_piers {s t : State} (h : t.piers = s.piers) : codes t = codes s := by
  funext pk
  rw [codes, getPier, h, codes, getPier]

/-- A trigger that leaves every pier as the emptying of its ports does. -/
theorem runFrame_of_piers {s t : State} {u : Nat} (hp : t.piers = (cleared s u).piers) (hi : t.issue = s.issue) : Claims.RunFrame s t u := by
  have hpier : ∀ pk, getPier t pk = getPier (cleared s u) pk := fun pk => by rw [getPier, hp, getPier]
  have hcur : curStrand t = clearUnit (curStrand s) u := by
    rw [← curStrand_cleared, curStrand, hi, getStrand, hpier]
    rfl
  exact
    { regs := hcur ▸ sameRegs_clearUnit ..
      ports := fun i h => hcur ▸ resPort_clear_other _ _ _ h
      strands := fun pk st h => by rw [getStrand, hpier]; exact getStrand_cleared_other s u h
      actors := fun pk => by rw [hpier, actors_cleared]
      sluices := fun pk => by rw [hpier, sluices_cleared]
      messages := fun pk => ⟨by rw [hpier, inbox_cleared], by rw [hpier, outbox_cleared]⟩
      control := fun pk => ⟨by rw [hpier, getPier_cleared s u Pier.wins fun _ _ => rfl], by rw [hpier, getPier_cleared s u Pier.handlers fun _ _ => rfl],
        by rw [hpier, getPier_cleared s u Pier.xlroot fun _ _ => rfl], by rw [hpier, getPier_cleared s u Pier.divBusy fun _ _ => rfl]⟩
      issue := hi }

/-- What sends, without a change of an outbox, keeps the frame. -/
theorem runFrame_sends {s t v : State} {u : Nat} (h : Claims.RunFrame s t u) (hs : SendsOnly t v)
    (ho : ∀ pk, (getPier v pk).outbox = (getPier t pk).outbox) : Claims.RunFrame s v u := by
  have hcur : curStrand v = curStrand t := by
    rw [curStrand, hs.rest.2.2.1, hs.getStrand]
    rfl
  have hsend : ∀ {α : Type} (g : Pier → α) pk, (∀ p, g p.noSend = g p) → g (getPier v pk) = g (getPier t pk) := fun g pk hg => by
    rw [← hg, hs.piers, hg]
  exact
    { regs := hcur ▸ h.regs
      ports := hcur ▸ h.ports
      strands := fun pk st hk => (hs.getStrand pk st).trans (h.strands pk st hk)
      actors := fun pk => (hs.actors pk).trans (h.actors pk)
      sluices := fun pk => (hs.sluices pk).trans (h.sluices pk)
      messages := fun pk => ⟨(hs.inbox pk).trans (h.messages pk).1, (ho pk).trans (h.messages pk).2⟩
      control := fun pk => ⟨(hsend Pier.wins pk fun _ => rfl).trans (h.control pk).1, (hsend Pier.handlers pk fun _ => rfl).trans (h.control pk).2.1,
        (hsend Pier.xlroot pk fun _ => rfl).trans (h.control pk).2.2.1, (hsend Pier.divBusy pk fun _ => rfl).trans (h.control pk).2.2.2⟩
      issue := hs.rest.2.2.1.trans h.issue }

/-- A flit of a pier that takes some cycles is on its way, however long the pier's earlier ones to that place hold it. -/
theorem launchOn_coming (s : State) (pk key : Nat) {lat : Nat} (hl : 0 < lat) (i : Instr) : Claims.Coming s (launchOn s pk key lat i) i :=
  ⟨_, Nat.lt_of_lt_of_le (Nat.lt_add_right _ (Nat.lt_add_of_pos_right hl)) (Nat.le_max_left ..), List.mem_append_right _ (List.mem_singleton_self _)⟩

/-! ARET (R280). -/

theorem curActor_adjActor (s : State) (f : Actor → Actor) :
    curActor (adjActor s s.issue.pk (curActorIx s) f) = f (curActor s) := by
  have hix : curActorIx (adjActor s s.issue.pk (curActorIx s) f) = curActorIx s := by rw [curActorIx, curStrand_adjActor]; rfl
  rw [curActor, hix]
  exact getActor_adjActor_same ..

section
variable {s : State} {m : Mv} {t : Value} (h : Claims.Fires s m t) (ht : t.poison = false)
include h ht

theorem aret_service (hs : curService s = true) : exec (.aret m) s = .next (raise s 12 0x03 (moveWord s t) 3) := by
  refine congrArg Host.Outcome.next (runTrigger_fault h ((checked_clean ht).trans ?_) rfl)
  rw [curService_cleared, if_pos hs]

theorem aret_retires (hs : curService s = false) : ∃ s', exec (.aret m) s = .next s' ∧ curActor s' = { curActor s with retiring := true } ∧
    (∀ n, n ≠ curActorIx s → getActor s' s.issue.pk n = getActor s s.issue.pk n) ∧ Claims.SameMemory s s' ∧
    Claims.SameRegs (curStrand s) (curStrand s') ∧ s'.cal = s.cal ∧ s'.mods = s.mods := by
  refine ⟨adjActor (cleared s 12) s.issue.pk (curActorIx s) fun a => { a with retiring := true },
    congrArg Host.Outcome.next (runTrigger_ok h ((checked_clean ht).trans ?_) rfl), ?_, fun n hn => ?_, sameMemory_of (by simp) (by simp), ?_, rfl, rfl⟩
  · simp [hs]
  · have hc := curActor_adjActor (cleared s 12) fun a => { a with retiring := true }
    rwa [curActorIx_cleared, curActor_cleared] at hc
  · rw [getActor_adjActor_other _ _ _ _ _ _ fun hh => hn hh.2, getActor_cleared]
  · rw [curStrand_adjActor, curStrand_cleared]
    exact sameRegs_clearUnit ..

/-! GDONE (R305). -/

theorem gdone_service (hr : Claims.SendReady s) (hs : curService s = true) : exec (.gdone m) s = .next (raise s 12 0x03 (moveWord s t) 4) := by
  refine congrArg Host.Outcome.next (runTrigger_fault h ((checked_clean ht).trans ?_) (sendHeld_ready hr ..))
  rw [curService_cleared, if_pos hs]

theorem gdone_sends (hr : Claims.SendReady s) (hs : curService s = false) : ∃ s' e, exec (.gdone m) s = .next s' ∧ e ∈ (curPier s').outbox ∧
    e.tok = s.tok ∧ e.body = .gdone (curActor s).graph ((vsc t).extractLsb' 0 32) ∧ e.key = .toController (curActorIx s) ∧
    Claims.SameMemory s s' ∧ Claims.SameRegs (curStrand s) (curStrand s') ∧ (∀ q k, getSluice s' q k = getSluice s q k) ∧
    ∀ q, (getPier s' q).actors = (getPier s q).actors := by
  let key : StreamKey := .toController (curActorIx s)
  let body : OutBody := .gdone (curActor s).graph ((vsc t).extractLsb' 0 32)
  have hsend : SendsOnly (cleared s 12) (enqueueCur (cleared s 12) key body (moveWord s t) 0x1FF 12) := sendsOnly_enqueue ..
  have hi : (enqueueCur (cleared s 12) key body (moveWord s t) 0x1FF 12).issue = s.issue := hsend.rest.2.2.1
  obtain ⟨e, he, hb, htok, hkey, -⟩ := (enqueue_outbox (cleared s 12) s.issue.pk key body (curStrand (cleared s 12)).actor.toNat
    (curStrand (cleared s 12)).runid s.issue.addr s.issue.strand (moveWord s t) 0x1FF (BitVec.ofNat 5 12) s.issue.slot
    (gmHere (cleared s 12))).mem (List.mem_append_right _ (List.mem_singleton_self _))
  refine ⟨_, e, congrArg Host.Outcome.next (runTrigger_ok h ((checked_clean ht).trans ?_) (sendHeld_ready hr ..)), ?_, htok, hb, hkey,
    sameMemory_of (hsend.memories.trans (memories_cleared ..)) (hsend.codes.trans (codes_cleared ..)), ?_, fun q k => ?_, fun q => ?_⟩
  · rw [curService_cleared, if_neg (by simp [hs]), curActor_cleared, curActorIx_cleared]
    rfl
  · rw [curPier, hi]
    exact he
  · have hcur : curStrand (enqueueCur (cleared s 12) key body (moveWord s t) 0x1FF 12) = clearUnit (curStrand s) 12 := by
      rw [curStrand, hi, hsend.getStrand]
      exact curStrand_cleared s 12
    rw [hcur]
    exact sameRegs_clearUnit ..
  · rw [hsend.getSluice, getSluice_cleared]
  · rw [hsend.actors, actors_cleared]

/-! GCNCL (R304). -/

theorem gcncl_level (hl : bits (vsc t) 0 2 = 3) : exec (.gcncl m) s = .next (raise s 12 0x03 (moveWord s t) 5) :=
  congrArg Host.Outcome.next (runTrigger_fault h ((checked_clean ht).trans (if_pos hl)) rfl)

theorem gcncl_sends (hl : bits (vsc t) 0 2 ≠ 3) : ∃ s', exec (.gcncl m) s = .next s' ∧
    Claims.Coming s s' (.cancel (pkMod s.issue.pk) (jobOf s s.issue.pk).toNat (bits (vsc t) 0 2)
      (if bits (vsc t) 0 2 = 2 then (jobOf s s.issue.pk).toNat else bits (vsc t) 32 12)) ∧
    Claims.SameMemory s s' ∧ Claims.RunFrame s s' 12 := by
  refine ⟨_, congrArg Host.Outcome.next (runTrigger_ok h ((checked_clean ht).trans (if_neg hl)) rfl), ?_, ?_, ?_⟩
  · exact launchOn_coming (cleared s 12) _ _ (latency_site_die ..) _
  · exact sameMemory_of (by simp) (by simp)
  · exact runFrame_sends (runFrame_of_piers (t := cleared s 12) rfl rfl) (sendsOnly_launchOn ..) fun pk => launchOn_outbox ..

end

/-! TLBI (R362, R363). -/

/-- The body of TLBI; `a` is port a. -/
def tlbiBody (s : State) (t : Value) (a : Option Value) : Trig :=
  let kind := bits (vsc t) 0 2
  let va := match a with | some v => vsc v | none => 0
  let bad : Bool := match a with | some v => v.poison | none => false
  if kind = 0 ∧ bad = true then .fault 0x0C 0
  else if kind = 0 ∧ a.isNone then .fault 0x05 0xB0
  else if curService s = false then .fault 0x0D 0
  else if kind = 3 ∨ tlbiReserved (vsc t) = true then .fault 0x03 (vsc t)
  else if kind = 0 ∧ bits va 55 9 ≠ 0 then .fault 0x03 va
  else
    let pk := s.issue.pk
    let c := causeHere s
    let r : TlbiReq :=
      { pk, a := if kind = 0 then va else 0, t := vsc t, strand := c.strand, runid := c.runid, bundle := c.bundle, tok := s.tok }
    .ok (tlbiArrive { s with tok := s.tok + 1 } (pkMod pk) (spanOf s pk) r)

/-- The request that a TLBI of the run in hand makes. -/
def tlbiOf (s : State) (t a : Word) : TlbiReq :=
  { pk := s.issue.pk, a := if bits t 0 2 = 0 then a else 0, t, strand := s.issue.strand, runid := (causeHere s).runid, bundle := s.issue.addr,
    tok := s.tok }

/-- Whether a step brings an earlier request of the strand of a request to its agent. -/
def tlbiEarlier (m sp : Nat) (r : TlbiReq) (i : Instr) : Bool :=
  match i with
  | .tlbiResend m' sp' q => m' == m && sp' == sp && q.pk == r.pk && q.strand == r.strand && decide (q.tok < r.tok)
  | _ => false

theorem tlbiEarlier_iff {m sp : Nat} {r : TlbiReq} {i : Instr} (h : tlbiEarlier m sp r i = true) :
    ∃ q, i = .tlbiResend m sp q ∧ q.pk = r.pk ∧ q.strand = r.strand ∧ q.tok < r.tok := by
  unfold tlbiEarlier at h
  split at h
  · rename_i m' sp' q
    simp only [Bool.and_eq_true, beq_iff_eq, decide_eq_true_eq] at h
    obtain ⟨⟨⟨⟨rfl, rfl⟩, hpk⟩, hst⟩, htok⟩ := h
    exact ⟨q, rfl, hpk, hst, htok⟩
  · cases h

theorem onItsWay_of_behind {s : State} {m sp : Nat} {r : TlbiReq} (h : tlbiBehind s m sp r = true) : Claims.TlbiOnItsWay s m sp r := by
  have hor : s.cal.any (fun e => tlbiEarlier m sp r e.2) = true ∨
      s.agenda.any (fun w => match w with | .ev i => tlbiEarlier m sp r i | .issue _ => false) = true := Bool.or_eq_true_iff.mp h
  obtain hc | hw := hor
  · obtain ⟨⟨due, i⟩, he, hi⟩ := List.any_eq_true.mp hc
    obtain ⟨q, rfl, hpk, hst, htok⟩ := tlbiEarlier_iff hi
    exact ⟨q, hpk, hst, htok, .inl ⟨due, he⟩⟩
  · obtain ⟨w, he, hi⟩ := List.any_eq_true.mp hw
    cases w with
    | issue k => cases hi
    | ev i =>
      obtain ⟨q, rfl, hpk, hst, htok⟩ := tlbiEarlier_iff hi
      exact ⟨q, hpk, hst, htok, .inr he⟩

@[simp] theorem getAgent_adjAgent_same (s : State) (m sp : Nat) (f : Agent → Agent) : getAgent (adjAgent s m sp f) m sp = f (getAgent s m sp) := by
  simp [getAgent, adjAgent]

/-- With no earlier request of its strand on its way and room in the queue, a request joins it. -/
theorem tlbiArrive_joins {s : State} {m sp : Nat} {r : TlbiReq} (hq : (getAgent s m sp).queue.length < 16)
    (hb : ¬Claims.TlbiOnItsWay s m sp r) :
    (getAgent (tlbiArrive s m sp r) m sp).queue = (getAgent s m sp).queue ++ [r] ∧
      ((getAgent s m sp).cur = none → (getAgent s m sp).queue = [] → Work.ev (.invalidationAgent m sp) ∈ (tlbiArrive s m sp r).agenda) ∧
      (tlbiArrive s m sp r).piers = s.piers ∧ (tlbiArrive s m sp r).issue = s.issue := by
  have hbehind : tlbiBehind s m sp r = false := Bool.eq_false_iff.mpr fun hbe => hb (onItsWay_of_behind hbe)
  have hqueue := congrArg Agent.queue (getAgent_adjAgent_same s m sp fun x => { x with queue := x.queue ++ [r] })
  rw [tlbiArrive, if_neg (by simp [hbehind, hq])]
  split
  · exact ⟨hqueue, fun _ _ => List.mem_append_right _ (List.mem_singleton_self _), rfl, rfl⟩
  · rename_i hc
    exact ⟨hqueue, fun hcur hempty => absurd ⟨by rw [hcur]; rfl, hempty⟩ hc, rfl, rfl⟩

section
variable {s : State} {m : Mv} {t a : Value} (h : Claims.Fires s m t) (ht : t.poison = false) (hp : Claims.Port s .syA a)
  (ha : a.poison = false)

include ht hp in
theorem checked_tlbi : checked s { unit := 12, steerT := true } t (fun s t _ _ => tlbiBody s t (opPort (curStrand s) .syA)) =
    tlbiBody (cleared s 12) t (some a) := by
  rw [checked_clean ht, curStrand_cleared, show opPort (clearUnit (curStrand s) 12) .syA = some a from hp]

include h ht hp

include ha in
theorem tlbi_job (hs : curService s = false) : exec (.tlbi m) s = .next (raise s 12 0x0D (moveWord s t) 0) := by
  refine congrArg Host.Outcome.next (runTrigger_fault h ((checked_tlbi ht hp).trans ?_) rfl)
  simp [tlbiBody, ha, hs]

theorem tlbi_kind (hs : curService s = true) (hk : bits (vsc t) 0 2 = 3) :
    exec (.tlbi m) s = .next (raise s 12 0x03 (moveWord s t) (vsc t)) := by
  refine congrArg Host.Outcome.next (runTrigger_fault h ((checked_tlbi ht hp).trans ?_) rfl)
  simp [tlbiBody, hs, hk]

include ha in
/-- A request of service code whose fields are legal. -/
theorem tlbi_legal (hs : curService s = true) (hk : bits (vsc t) 0 2 < 3) (h5 : bits (vsc t) 5 11 = 0) (h28 : bits (vsc t) 28 4 = 0)
    (h41 : bits (vsc t) 41 23 = 0) (hva : bits (vsc t) 0 2 = 0 → bits (vsc a) 55 9 = 0) :
    exec (.tlbi m) s = .next (tlbiArrive { cleared s 12 with tok := s.tok + 1 } (pkMod s.issue.pk) (siteOf s s.issue.pk / 256)
      (tlbiOf s (vsc t) (vsc a))) := by
  have hcause : (causeHere (cleared s 12)).runid = (causeHere s).runid := (congrArg Strand.runid (curStrand_cleared s 12) :)
  refine congrArg Host.Outcome.next (runTrigger_ok h ((checked_tlbi ht hp).trans ?_) rfl)
  have hres : tlbiReserved (vsc t) = false := by simp [tlbiReserved, h5, h28, h41]
  simp only [tlbiBody, ha, Bool.false_eq_true, and_false, if_false, Option.isNone_some, curService_cleared, hs, Bool.true_eq_false, hres, or_false,
    if_neg (show ¬bits (vsc t) 0 2 = 3 by omega), if_neg (show ¬(bits (vsc t) 0 2 = 0 ∧ bits (vsc a) 55 9 ≠ 0) from fun h => h.2 (hva h.1))]
  rw [hcause]
  rfl

include ha in
theorem tlbi_joins (hs : curService s = true) (hk : bits (vsc t) 0 2 < 3) (h5 : bits (vsc t) 5 11 = 0) (h28 : bits (vsc t) 28 4 = 0)
    (h41 : bits (vsc t) 41 23 = 0) (hva : bits (vsc t) 0 2 = 0 → bits (vsc a) 55 9 = 0)
    (hq : (getAgent s (pkMod s.issue.pk) (siteOf s s.issue.pk / 256)).queue.length < 16)
    (hb : ∀ r : TlbiReq, r.pk = s.issue.pk → r.strand = s.issue.strand → r.tok = s.tok →
      ¬Claims.TlbiOnItsWay s (pkMod s.issue.pk) (siteOf s s.issue.pk / 256) r) :
    ∃ s' r, exec (.tlbi m) s = .next s' ∧
      (getAgent s' (pkMod s.issue.pk) (siteOf s s.issue.pk / 256)).queue =
        (getAgent s (pkMod s.issue.pk) (siteOf s s.issue.pk / 256)).queue ++ [r] ∧
      r.pk = s.issue.pk ∧ r.strand = s.issue.strand ∧ r.tok = s.tok ∧ r.t = vsc t ∧ (bits (vsc t) 0 2 = 0 → r.a = vsc a) ∧
      ((getAgent s (pkMod s.issue.pk) (siteOf s s.issue.pk / 256)).cur = none →
        (getAgent s (pkMod s.issue.pk) (siteOf s s.issue.pk / 256)).queue = [] →
        Work.ev (.invalidationAgent (pkMod s.issue.pk) (siteOf s s.issue.pk / 256)) ∈ s'.agenda) ∧
      Claims.SameMemory s s' ∧ Claims.RunFrame s s' 12 := by
  obtain ⟨hqueue, hagenda, hpiers, hissue⟩ :=
    tlbiArrive_joins (s := { cleared s 12 with tok := s.tok + 1 }) (r := tlbiOf s (vsc t) (vsc a)) hq (hb _ rfl rfl rfl)
  exact ⟨_, tlbiOf s (vsc t) (vsc a), tlbi_legal h ht hp ha hs hk h5 h28 h41 hva, hqueue, rfl, rfl, rfl, rfl, fun h0 => if_pos h0, hagenda,
    sameMemory_of ((memories_tlbiArrive ..).trans (memories_cleared s 12)) ((codes_of_piers hpiers).trans (codes_cleared s 12)), runFrame_of_piers hpiers hissue⟩

end

theorem completionAndCancelTriggers : Claims.CompletionAndCancelTriggers := by
  intro s m t h ht pk
  refine ⟨aret_service h ht, aret_retires h ht, fun hr => ⟨gdone_service h ht hr, gdone_sends h ht hr⟩, gcncl_level h ht, gcncl_sends h ht,
    fun a hp ha => ⟨tlbi_job h ht hp ha, tlbi_joins h ht hp ha, tlbi_kind h ht hp⟩⟩

end Sys2Proof.Machine
end

section
/-!
ACRT (O39): what it reads when it issues, and what its creation makes of the actors and the handler entries.
-/

namespace Sys2Proof.Machine

/-! Words of scratchpad. -/

theorem mread_eq_littleEndian (m : FMap Byte) (a n : Nat) : mread m a n = Claims.littleEndian (fun k => mget m (a + k)) n := by
  induction n generalizing a with
  | zero => rfl
  | succ n ih =>
    rw [mread, ih, Claims.littleEndian]
    simp only [Nat.add_assoc, Nat.add_comm 1, Nat.add_zero]

/-- An aligned word reads as its bytes, in the slice status word too (R130, R141). -/
theorem spadRead_eq_spadNum (s : State) (pk : Nat) {o : Nat} (h : o % 8 = 0) : spadRead s pk o 8 = Claims.spadNum s pk o 8 := by
  by_cases hs : o = 0x3FF80
  · subst hs
    have hin : inStatus 0x3FF80 = true := by decide
    rw [spadRead, hin, if_pos rfl, if_pos (by decide), Claims.spadNum]
    refine Eq.trans ?_ ((littleEndian_bytes (getSite s (siteKey s pk)).status.toNat 8).symm.trans (littleEndian_congr fun i hi => ?_))
    · simp
    · rw [Claims.spadByte, if_pos (by omega), Nat.add_sub_cancel_left]
      refine BitVec.eq_of_toNat_eq ?_
      rw [BitVec.extractLsb'_toNat, BitVec.toNat_ofNat, Nat.shiftRight_eq_div_pow, Nat.pow_mul]
  · have hin : inStatus o = false := by
      rw [inStatus, beq_eq_false_iff_ne]
      omega
    rw [spadRead, hin, if_neg (by decide), mread_eq_littleEndian, Claims.spadNum]
    refine littleEndian_congr fun i hi => ?_
    rw [Claims.spadByte, if_neg (by omega)]

/-! The calendar's last creation (R276). -/

theorem le_foldl_max (l : List Nat) (a : Nat) : a ≤ l.foldl max a := by
  induction l generalizing a with
  | nil => exact Nat.le_refl a
  | cons b l ih => exact Nat.le_trans (Nat.le_max_left a b) (ih _)

theorem le_maxList {l : List Nat} {n : Nat} (h : n ∈ l) : n ≤ maxList l := by
  rw [maxList]
  generalize 0 = a
  induction l generalizing a with
  | nil => cases h
  | cons b l ih =>
    obtain rfl | h := List.mem_cons.mp h
    · exact Nat.le_trans (Nat.le_max_right a n) (le_foldl_max l _)
    · exact ih h _

theorem maxList_zero {l : List Nat} (h : ∀ n ∈ l, n = 0) : maxList l = 0 := by
  rw [maxList]
  induction l with
  | nil => rfl
  | cons b l ih =>
    rw [List.foldl_cons, h b (List.mem_cons_self ..)]
    exact ih fun n hn => h n (List.mem_cons_of_mem _ hn)

/-- A part of the entry at a key is a part of the map's entries. -/
theorem mem_flatMap_of_fget {α β : Type} (m : FMap α) (k : Nat) (d : α) (g : α → List β) (hd : g d = []) {b : β} (h : b ∈ g (fget m k d)) :
    b ∈ m.flatMap fun e => g e.2 := by
  induction m with
  | nil => simp [fget, hd] at h
  | cons p m ih =>
    rw [List.flatMap_cons, List.mem_append]
    by_cases hp : p.1 = k
    · rw [fget, if_pos hp] at h
      exact .inl h
    · rw [fget, if_neg hp] at h
      exact .inr (ih h)

/-- The parts of a finite map's entries are those of its update by an entry with the same parts. -/
theorem mem_flatMap_fset {α β : Type} (m : FMap α) (k : Nat) (v d : α) (g : α → List β) (hd : g d = []) (hv : g v = g (fget m k d)) (b : β) :
    b ∈ (fset m k v).flatMap (fun e => g e.2) ↔ b ∈ m.flatMap fun e => g e.2 := by
  induction m with
  | nil => simp [fset, hv, fget, hd]
  | cons p m ih =>
    rw [fset]
    split
    · rw [List.flatMap_cons, List.mem_append]
      exact ⟨fun h => h.elim (fun h => mem_flatMap_of_fget _ k d g hd (hv ▸ h)) id, .inr⟩
    · split
      · rename_i hp
        rw [fget, if_pos hp] at hv
        simp only [List.flatMap_cons, hv]
      · rename_i hp
        rw [fget, if_neg hp] at hv
        simp only [List.flatMap_cons, List.mem_append, ih hv]

/-- The creations of a pier that are not decided yet are not in the ports of a unit. -/
theorem mem_creationsOf_cleared (s : State) (u tok : Nat) : tok ∈ creationsOf (curPier (cleared s u)) ↔ tok ∈ creationsOf (curPier s) := by
  have hc : (curPier (cleared s u)).creating = (curPier s).creating := curPier_cleared Pier.creating (fun _ _ => rfl) s u
  have hs : (curPier (cleared s u)).strands = fset (curPier s).strands s.issue.strand (clearUnit (curStrand s) u) := by
    rw [curPier, cleared_issue, cleared, adjCur, adjStrand, setStrand, getPier_adjPier_same]
    rfl
  rw [creationsOf, creationsOf, hc, List.mem_append, List.mem_append, hs]
  exact or_congr_right (mem_flatMap_fset (curPier s).strands s.issue.strand (clearUnit (curStrand s) u) {}
    (fun x => (x.pend.filter fun q => q.create.isSome).map (·.tok)) rfl rfl tok)

/-- No creation that its pier has triggered earlier is decided after the last. -/
theorem le_lastCreation {s : State} {d q k tok : Nat} (h : (d, Instr.resultPortWrite q k 12 tok) ∈ s.cal)
    (ht : tok ∈ creationsOf (curPier s)) : d ≤ lastCreation s s.issue.pk := by
  refine le_maxList (List.mem_map.mpr ⟨_, h, ?_⟩)
  simp [curPier] at ht
  simp [ht]

theorem lastCreation_none {s : State} (h : creationsOf (curPier s) = []) : lastCreation s s.issue.pk = 0 := by
  refine maxList_zero fun n hn => ?_
  obtain ⟨e, -, rfl⟩ := List.mem_map.mp hn
  rw [show creationsOf (getPier s s.issue.pk) = [] from h]
  split
  · rfl
  · rfl

/-! The trigger (R274 to R276). -/

/-- The number of words that ACRT reads: the record and the entries it counts, where the count is legal. -/
def acrtWords (s : State) (o : Nat) : Nat :=
  if Claims.spadNum s s.issue.pk (o + 56) 8 % 64 ≤ 32 then 8 + Claims.spadNum s s.issue.pk (o + 56) 8 % 64 else 8

/-- When the creation takes effect. -/
def acrtLat (s : State) : Nat := max (2 + Config.latency s.fresh % 63) (lastCreation s s.issue.pk - s.cycle)

theorem spadNum_cleared (s : State) (u pk a n : Nat) : Claims.spadNum (cleared s u) pk a n = Claims.spadNum s pk a n := by
  refine littleEndian_congr fun i _ => ?_
  rw [Claims.spadByte, Claims.spadByte, spad_cleared]
  rfl

theorem regionActor_cleared (s : State) (u pk a : Nat) : regionActor (cleared s u) pk a = regionActor s pk a := by
  rw [regionActor, regionActor, getActor_cleared]

theorem inRegion_of_inside {s : State} {o n : Nat} (h : if curActorIx s = 63 then o + n ≤ 0x40000
    else Claims.fld (curActor s).rgnbase 6 13 * 64 ≤ o ∧ o + n ≤ Claims.fld (curActor s).rgnlim 6 13 * 64) :
    inRegion (regionActor s s.issue.pk (curActorIx s)) o n = true := by
  rw [inRegion, decide_eq_true_eq, regionActor]
  by_cases h63 : curActorIx s = 63
  · rw [if_pos h63] at h
    have hbase : bits 0 6 13 * 64 = 0 := by decide
    have hlim : bits 0x40000 6 13 * 64 = 0x40000 := by decide
    rw [if_pos h63]
    show bits 0 6 13 * 64 ≤ o ∧ o + n ≤ bits 0x40000 6 13 * 64
    rw [hbase, hlim]
    exact ⟨Nat.zero_le _, h⟩
  · rw [if_neg h63] at h
    rw [if_neg h63]
    exact h

/-- The words of scratchpad that ACRT reads at an aligned offset. -/
theorem spadWords_getD (s : State) (pk : Nat) {o n i : Nat} (ho : o % 8 = 0) (hi : i < n) :
    lgetD (spadWords s pk o n) i 0 = BitVec.ofNat 64 (Claims.spadNum s pk (o + 8 * i) 8) := by
  rw [lgetD, spadWords, List.getElem?_map, List.getElem?_range hi, Option.map_some, Option.getD_some, spadRead_eq_spadNum s pk (by omega)]

/-- A number of bytes is less than the next. -/
theorem littleEndian_lt (f : Nat → Byte) (n : Nat) : Claims.littleEndian f n < 256 ^ n := by
  induction n generalizing f with
  | zero => simp [Claims.littleEndian]
  | succ n ih =>
    have h0 := (f 0).isLt
    have := ih fun k => f (k + 1)
    rw [Claims.littleEndian, Nat.pow_succ']
    omega

/-- The body of ACRT. -/
def acrtBody (s : State) (t : Value) : Trig :=
  let pk := s.issue.pk
  let o := (vsc t).toNat
  let r := regionActor s pk (curActorIx s)
  let k := bits (lgetD (spadWords s pk o 8) 7 0) 0 6
  let n := if k ≤ 32 then 64 + 8 * k else 64
  if o % 64 ≠ 0 then .fault 0x07 (vsc t)
  else if inRegion r o 64 = false then .fault 0x06 (vsc t)
  else if inRegion r o n = false then .fault 0x06 (BitVec.ofNat 64 (o + 64))
  else
    match firstPoison s pk o n with
    | some x => .fault 0x0C (BitVec.ofNat 64 x)
    | none => .ok (pendResult (tick1 s) 12 (acrtLat s) none none false (some (spadWords s pk o (n / 8))))

/-- Where the checks pass, ACRT reads its words and puts its creation on its way. -/
theorem acrtBody_ok {s : State} {t : Value} (ho : (vsc t).toNat % 64 = 0) (hr : Claims.LsAllows s (vsc t).toNat 64)
    (hn : inRegion (regionActor s s.issue.pk (curActorIx s)) (vsc t).toNat (8 * acrtWords s (vsc t).toNat) = true)
    (hp : ∀ i < 8 * acrtWords s (vsc t).toNat, Claims.spadBad s s.issue.pk ((vsc t).toNat + i) = false) :
    acrtBody s t = .ok (pendResult (tick1 s) 12 (acrtLat s) none none false
      (some (spadWords s s.issue.pk (vsc t).toNat (acrtWords s (vsc t).toNat)))) := by
  have hk : bits (lgetD (spadWords s s.issue.pk (vsc t).toNat 8) 7 0) 0 6 = Claims.spadNum s s.issue.pk ((vsc t).toNat + 56) 8 % 64 := by
    have hlt : Claims.spadNum s s.issue.pk ((vsc t).toNat + 8 * 7) 8 < 2 ^ 64 := littleEndian_lt ..
    rw [spadWords_getD _ _ (by omega) (by decide), bits, BitVec.toNat_ofNat, Nat.mod_eq_of_lt hlt]
    simp
  have hbytes : (if bits (lgetD (spadWords s s.issue.pk (vsc t).toNat 8) 7 0) 0 6 ≤ 32 then
      64 + 8 * bits (lgetD (spadWords s s.issue.pk (vsc t).toNat 8) 7 0) 0 6 else 64) = 8 * acrtWords s (vsc t).toNat := by
    rw [hk, acrtWords]
    split
    · omega
    · rfl
  have hclean : firstPoison s s.issue.pk (vsc t).toNat (8 * acrtWords s (vsc t).toNat) = none := by
    rw [firstPoison, List.find?_eq_none]
    intro x hx
    obtain ⟨i, hi, rfl⟩ := List.mem_map.mp hx
    rw [List.mem_range] at hi
    have := hp (64 * i) (by omega)
    simpa [spadPoisoned, pget, Claims.spadBad] using this
  simp only [acrtBody, hbytes, ho, inRegion_of_inside hr.2, hn, hclean]
  rw [Nat.mul_div_cancel_left _ (by decide)]
  rfl

/-- A record and its entries are inside the region where the record is and they end there. -/
theorem inRegion_record {s : State} {o n : Nat} (h : Claims.LsAllows s o 64)
    (hn : if curActorIx s = 63 then o + n ≤ 0x40000 else o + n ≤ Claims.fld (curActor s).rgnlim 6 13 * 64) :
    inRegion (regionActor s s.issue.pk (curActorIx s)) o n = true := by
  have hi := h.2
  refine inRegion_of_inside ?_
  by_cases h63 : curActorIx s = 63
  · rw [if_pos h63] at hn ⊢
    exact hn
  · rw [if_neg h63] at hn hi ⊢
    exact ⟨hi.1, hn⟩

/-- The strand behind an ACRT: sy.r waits for the creation. -/
def acrtStrand (s : State) (w : List Word) (x : Strand) : Strand :=
  { pendPort (clearUnit x 12) 0x0B0 s.tok true with
    pend := x.pend ++ [{ tok := s.tok, unit := 12, r := none, h := none, create := some w, seed := false, sample := none }] }

/-- The state behind an ACRT. -/
def acrtDone (s : State) (w : List Word) : State :=
  schedule (adjCur { tick1 s with tok := s.tok + 1 } (acrtStrand s w)) (s.cycle + acrtLat (cleared s 12))
    (.resultPortWrite s.issue.pk s.issue.strand 12 s.tok)

theorem pendResult_acrt (s : State) (w : List Word) :
    pendResult (tick1 (cleared s 12)) 12 (acrtLat (cleared s 12)) none none false (some w) = acrtDone s w := by
  have h : ∀ f, adjCur { tick1 (cleared s 12) with tok := (cleared s 12).tok + 1 } f =
      adjCur { tick1 s with tok := s.tok + 1 } fun x => f (clearUnit x 12) := fun f =>
    adjCur_adjCur { tick1 s with tok := s.tok + 1 } (fun x => clearUnit x 12) f
  exact congrArg (fun x => schedule x (s.cycle + acrtLat (cleared s 12)) (.resultPortWrite s.issue.pk s.issue.strand 12 s.tok)) (h _)

theorem frame_acrtDone (s : State) (w : List Word) : Claims.Frame s (acrtDone s w) 12 := by
  refine frame_of_strand (f := acrtStrand s w) rfl (sameRegs_update ..) (fun i hi => ?_) ⟨rfl, rfl, rfl, rfl, rfl, rfl⟩
  exact (fget_fset_other _ _ _ _ _ fun h => hi (by rw [h])).trans (resPort_clear_other (curStrand s) 12 i hi)

theorem acrt_waits {s : State} {m : Mv} {t : Value} (h : Claims.Fires s m t) (ht : t.poison = false) (ha : acqPending s = false)
    (ho : (vsc t).toNat % 64 = 0) (hr : Claims.LsAllows s (vsc t).toNat 64)
    (hn : if curActorIx s = 63 then (vsc t).toNat + 8 * acrtWords s (vsc t).toNat ≤ 0x40000
      else (vsc t).toNat + 8 * acrtWords s (vsc t).toNat ≤ Claims.fld (curActor s).rgnlim 6 13 * 64)
    (hp : ∀ i < 8 * acrtWords s (vsc t).toNat, Claims.spadBad s s.issue.pk ((vsc t).toNat + i) = false) :
    exec (.acrt m) s = .next (acrtDone s (spadWords (cleared s 12) s.issue.pk (vsc t).toNat (acrtWords s (vsc t).toNat))) := by
  have hwords : acrtWords (cleared s 12) (vsc t).toNat = acrtWords s (vsc t).toNat := by simp only [acrtWords, spadNum_cleared, cleared_issue]
  have hallows : Claims.LsAllows (cleared s 12) (vsc t).toNat 64 := by
    rw [Claims.LsAllows, curActorIx_cleared, curActor_cleared]
    exact hr
  have hbad : ∀ a, Claims.spadBad (cleared s 12) s.issue.pk a = Claims.spadBad s s.issue.pk a := fun a => by
    rw [Claims.spadBad, getPier_cleared s 12 Pier.spadPoison fun _ _ => rfl, Claims.spadBad]
  refine congrArg Host.Outcome.next (runTrigger_ok h ((checked_clean ht).trans ((acrtBody_ok ho hallows ?_ ?_).trans ?_)) ha)
  · rw [hwords]
    exact inRegion_record hallows (by rw [curActorIx_cleared, curActor_cleared]; exact hn)
  · intro i hi
    rw [hwords] at hi
    exact (hbad _).trans (hp i hi)
  · rw [hwords, pendResult_acrt]
    rfl

theorem acrt_unaligned {s : State} {m : Mv} {t : Value} (h : Claims.Fires s m t) (ht : t.poison = false) (ha : acqPending s = false)
    (ho : (vsc t).toNat % 64 ≠ 0) : exec (.acrt m) s = .next (raise s 12 0x07 (moveWord s t) (vsc t)) :=
  congrArg Host.Outcome.next (runTrigger_fault h ((checked_clean ht).trans (if_pos ho)) ha)

/-- What ACRT does when it issues. -/
theorem acrt_issues {s : State} {m : Mv} {t : Value} (h : Claims.Fires s m t) (ht : t.poison = false) (ha : acqPending s = false)
    (ho : (vsc t).toNat % 64 = 0) (hr : Claims.LsAllows s (vsc t).toNat 64)
    (hn : if curActorIx s = 63 then (vsc t).toNat + 8 * acrtWords s (vsc t).toNat ≤ 0x40000
      else (vsc t).toNat + 8 * acrtWords s (vsc t).toNat ≤ Claims.fld (curActor s).rgnlim 6 13 * 64)
    (hp : ∀ i < 8 * acrtWords s (vsc t).toNat, Claims.spadBad s s.issue.pk ((vsc t).toNat + i) = false) :
    ∃ s' w due, exec (.acrt m) s = .next s' ∧ s.cycle + 2 ≤ due ∧ (creationsOf (curPier s) = [] → due ≤ s.cycle + 64) ∧
      (∀ d q k tok, (d, Instr.resultPortWrite q k 12 tok) ∈ s.cal → tok ∈ creationsOf (curPier s) → d ≤ due) ∧
      (due, Instr.resultPortWrite s.issue.pk s.issue.strand 12 s.tok) ∈ s'.cal ∧ resPort (curStrand s') 0x0B0 = .pending s.tok ∧
      (∃ p ∈ (curStrand s').pend, p.tok = s.tok ∧ p.unit = 12 ∧ p.create = some w) ∧ w.length = acrtWords s (vsc t).toNat ∧
      (∀ i < acrtWords s (vsc t).toNat, (w.getD i 0).toNat = Claims.spadNum s s.issue.pk ((vsc t).toNat + 8 * i) 8) ∧
      Claims.SameMemory s s' ∧ Claims.RunFrame s s' 12 := by
  let w := spadWords (cleared s 12) s.issue.pk (vsc t).toNat (acrtWords s (vsc t).toNat)
  have hcur : curStrand (acrtDone s w) = acrtStrand s w (curStrand s) := curStrand_adjCur { tick1 s with tok := s.tok + 1 } _
  refine ⟨_, w, s.cycle + acrtLat (cleared s 12), acrt_waits h ht ha ho hr hn hp, ?_, fun hc => ?_, fun d q k tok hd htok => ?_,
    List.mem_append_right _ (List.mem_singleton_self _), ?_,
    ⟨{ tok := s.tok, unit := 12, r := none, h := none, create := some w, seed := false, sample := none }, ?_, rfl, rfl, rfl⟩, ?_, fun i hi => ?_, (frame_acrtDone s w).memory,
    runFrame_of_frame (frame_acrtDone s w) (by decide)⟩
  · rw [acrtLat]
    omega
  · have hnone : creationsOf (curPier (cleared s 12)) = [] :=
      List.eq_nil_iff_forall_not_mem.mpr fun x hx => by rw [mem_creationsOf_cleared, hc] at hx; cases hx
    have hlast : lastCreation (cleared s 12) (cleared s 12).issue.pk = 0 := lastCreation_none hnone
    rw [acrtLat, hlast]
    omega
  · have hlast : d ≤ lastCreation (cleared s 12) (cleared s 12).issue.pk := le_lastCreation hd ((mem_creationsOf_cleared ..).mpr htok)
    rw [acrtLat, cleared_cycle]
    omega
  · rw [hcur]
    exact fget_fset_same ..
  · rw [hcur]
    exact List.mem_append_right _ (List.mem_singleton_self _)
  · simp [w, spadWords]
  · have hw := spadWords_getD (cleared s 12) s.issue.pk (o := (vsc t).toNat) (by omega) hi
    rw [lgetD, ← List.getD_eq_getElem?_getD] at hw
    rw [hw, spadNum_cleared, BitVec.toNat_ofNat]
    exact Nat.mod_eq_of_lt (littleEndian_lt ..)

/-! The creation (R55, R276). -/

theorem lgetD_eq_getD {α : Type} (l : List α) (i : Nat) (d : α) : lgetD l i d = l.getD i d := List.getD_eq_getElem?_getD.symm

theorem graphOf_iff (s : State) (job : BitVec 12) (g : Nat) :
    graphOf s job g = true ↔ ∃ e ∈ (getJob s job.toNat).img.graphs, e.graph.toNat = g := by simp [graphOf]

theorem entries_iff (l : List Word) {k : Nat} (h : l.length = 8 + k) :
    (((l.drop 8).take k).all fun e => bits e 0 30 == 0) = true ↔ ∀ i < k, bits (l.getD (8 + i) 0) 0 30 = 0 := by
  have hget : ∀ i < k, ((l.drop 8).take k)[i]? = some (l.getD (8 + i) 0) := fun i hi => by
    rw [List.getElem?_take_of_lt hi, List.getElem?_drop, List.getD_eq_getElem?_getD, List.getElem?_eq_getElem (by omega)]
    rfl
  rw [List.all_eq_true]
  constructor
  · exact fun ha i hi => by simpa using ha _ (List.mem_of_getElem? (hget i hi))
  · intro ha e he
    obtain ⟨i, hi⟩ := List.mem_iff_getElem?.mp he
    have hk : i < k := by
      obtain ⟨hlt, -⟩ := List.getElem?_eq_some_iff.mp hi
      rw [List.length_take] at hlt
      omega
    rw [hget i hk] at hi
    have := ha i hk
    rw [Option.some_inj.mp hi] at this
    simpa using this

theorem recordOk_iff (s : State) (job : BitVec 12) (l : List Word) (hl : l.length = 8 + (l.getD 7 0).toNat ∨ 32 < (l.getD 7 0).toNat) :
    recordOk s job l = true ↔ Claims.RecordFits s job fun i => l.getD i 0 := by
  simp only [recordOk, lgetD_eq_getD, Bool.and_eq_true, decide_eq_true_eq, Bool.or_eq_true, bne_iff_ne, graphOf_iff]
  constructor
  · rintro ⟨⟨⟨⟨⟨⟨⟨⟨h0, h0'⟩, hr⟩, h3⟩, h4⟩, h5, h6⟩, hg⟩, hk⟩, he⟩
    refine ⟨⟨h0, ?_⟩, hr, h3, h4, h5, ⟨h6, hg⟩, hk, ?_⟩
    · rwa [getLsbD_eq_bitAt]
    · exact (entries_iff l (hl.resolve_right (by omega))).mp he
  · rintro ⟨⟨h0, h0'⟩, hr, h3, h4, h5, ⟨h6, hg⟩, hk, he⟩
    rw [getLsbD_eq_bitAt] at h0'
    exact ⟨⟨⟨⟨⟨⟨⟨⟨h0, h0'⟩, hr⟩, h3⟩, h4⟩, h5, h6⟩, hg⟩, hk⟩, (entries_iff l (hl.resolve_right (by omega))).mpr he⟩

theorem recordIndex_some_iff {s : State} {job : BitVec 12} {w : Nat → Word} (h : Claims.RecordFits s job w) (p : Pier) (i : Nat) :
    recordIndex p (w 0) = some i ↔ Claims.AsksFor p (w 0) i := by
  obtain ⟨h0, h0'⟩ := h.index
  rw [Claims.AsksFor, recordIndex]
  by_cases hb : (w 0).getLsbD 6 = true
  · rw [if_pos (by rwa [← getLsbD_eq_bitAt]), if_pos hb, List.find?_range_eq_some]
    simp only [beq_iff_eq, List.mem_range, Bool.not_eq_true', beq_eq_false_iff_ne, ne_eq]
    exact ⟨fun ⟨hf, hi, hj⟩ => ⟨hi, hf, hj⟩, fun ⟨hi, hf, hj⟩ => ⟨hf, hi, hj⟩⟩
  · have hne : bits (w 0) 0 6 ≠ 63 := h0'.resolve_left hb
    have hlt : bits (w 0) 0 6 < 2 ^ 6 := Nat.mod_lt _ (by decide)
    rw [if_neg (by rwa [← getLsbD_eq_bitAt]), if_neg hb, Option.ite_none_right_eq_some, beq_iff_eq, Option.some_inj]
    constructor
    · rintro ⟨hf, rfl⟩
      exact ⟨by omega, hf, rfl⟩
    · rintro ⟨-, hf, rfl⟩
      exact ⟨hf, rfl⟩

/-- The state behind a landed creation that gives `r`; `t` is the state with the actor made or not. -/
def createdLand (t : State) (pk st tok : Nat) (r : Int) : State :=
  adjStrand t pk st fun y =>
    landResults { y with pend := y.pend.map fun q =>
      if q.tok = tok then { q with r := some (Value.ofWord (wordOfInt r)), create := none } else q } tok

section
variable {s : State} {pk st tok : Nat} {l : List Word} {p : Pending} (ht : p.tok = tok) (hu : p.unit = 12) (hc : p.create = some l)
  (hh : p.h = none) (hpend : (getStrand s pk st).pend = [p])
include ht hu hpend

include hc in
theorem exec_creation : exec (.resultPortWrite pk st 12 tok) s =
    .next (createdLand (createActor s pk (getStrand s pk st).lp.toNat l).2 pk st tok (createActor s pk (getStrand s pk st).lp.toNat l).1) := by
  have hhome : pendHome s pk st tok = (pk, st) := if_pos (by simp [hpend, ht])
  have hfind : (getStrand s pk st).pend.find? (fun q => q.tok == tok && q.unit == 12) = some p := by rw [hpend]; simp [ht, hu]
  rw [exec_resultPortWrite, execResultPortWrite, hhome]
  simp only [hfind, hc]
  rfl

include hh in
/-- What lands in sy.r, where the creation has left the strand as it was. -/
theorem resPort_createdLand (hr : resPort (getStrand s pk st) 0x0B0 = .pending tok) {t : State} (hst : getStrand t pk st = getStrand s pk st)
    (r : Int) : resPort (getStrand (createdLand t pk st tok r) pk st) 0x0B0 = .full (Value.ofWord (BitVec.ofInt 64 r)) := by
  rw [createdLand, getStrand_adjStrand_same, hst, landResults]
  simp only [hpend, List.map_cons, List.map_nil, ht, if_true, List.find?_cons, beq_self_eq_true, hu, hh]
  exact resPort_landPort_same _ hr

end

section
variable (t : State) (pk st tok : Nat) (r : Int)

theorem sameMemory_createdLand {s : State} (h : Claims.SameMemory s t) : Claims.SameMemory s (createdLand t pk st tok r) :=
  sameMemory_trans h (sameMemory_of (by simp [createdLand]) (by simp [createdLand]))

theorem getPier_createdLand {α : Type} (g : Pier → α) (hg : ∀ p l, g { p with strands := l } = g p) :
    g (getPier (createdLand t pk st tok r) pk) = g (getPier t pk) := by
  rw [createdLand, adjStrand, setStrand, getPier_adjPier_same, hg]

end

/-! Free handler entries (R37, R276). -/

theorem mem_freeHandlers {p : Pier} {n : Nat} : n ∈ freeHandlers p ↔ n < 128 ∧ bitAt (fget p.handlers n 0) 63 = false := by
  simp [freeHandlers]

theorem nodup_freeHandlers (p : Pier) : (freeHandlers p).Nodup := List.nodup_range.filter _

/-- Entries put at distinct keys. -/
theorem fget_foldl_fset {α β : Type} (f : β → α) (d : α) (l : List (Nat × β)) (h : (l.map (·.1)).Nodup) (m : FMap α) :
    (∀ e ∈ l, fget (l.foldl (fun h e => fset h e.1 (f e.2)) m) e.1 d = f e.2) ∧
      ∀ n, n ∉ l.map (·.1) → fget (l.foldl (fun h e => fset h e.1 (f e.2)) m) n d = fget m n d := by
  induction l generalizing m with
  | nil => exact ⟨fun e he => (by cases he), fun n _ => rfl⟩
  | cons b l ih =>
    rw [List.map_cons, List.nodup_cons] at h
    obtain ⟨hin, hout⟩ := ih h.2 (fset m b.1 (f b.2))
    refine ⟨fun e he => ?_, fun n hn => ?_⟩
    · obtain rfl | he := List.mem_cons.mp he
      · rw [List.foldl_cons, hout _ h.1, fget_fset_same]
      · exact hin e he
    · rw [List.map_cons, List.mem_cons, not_or] at hn
      rw [List.foldl_cons, hout n hn.2, fget_fset_other _ _ _ _ _ hn.1]

/-- The words of a record's entries. -/
def recordEntries (l : List Word) : List Word := (l.drop 8).take (l.getD 7 0).toNat

theorem map_fst_zip_take {α β : Type} (l : List α) (m : List β) : (l.zip m).map (·.1) = l.take m.length := by
  induction l generalizing m with
  | nil => simp
  | cons a l ih =>
    cases m with
    | nil => rfl
    | cons b m => simp [ih]

section
variable {p : Pier} {a : Nat} {l : List Word}

theorem handlers_putHandlers_in {j n : Nat} (hj : (freeHandlers p)[j]? = some n) (hl : j < l.length) :
    fget (putHandlers p a l).handlers n 0 = setBits (l.getD j 0) 57 6 a := by
  have hnodup : (((freeHandlers p).zip l).map (·.1)).Nodup := by
    rw [map_fst_zip_take]
    exact (nodup_freeHandlers p).sublist (List.take_sublist ..)
  have hmem : (n, l.getD j 0) ∈ (freeHandlers p).zip l := by
    refine List.mem_of_getElem? (i := j) ?_
    rw [List.getElem?_zip_eq_some]
    exact ⟨hj, by rw [List.getD_eq_getElem?_getD, List.getElem?_eq_getElem hl]; rfl⟩
  exact (fget_foldl_fset (fun w => setBits w 57 6 a) 0 _ hnodup p.handlers).1 _ hmem

theorem handlers_putHandlers_out {n : Nat} (hn : n ∉ (freeHandlers p).take l.length) :
    fget (putHandlers p a l).handlers n 0 = fget p.handlers n 0 := by
  have hnodup : (((freeHandlers p).zip l).map (·.1)).Nodup := by
    rw [map_fst_zip_take]
    exact (nodup_freeHandlers p).sublist (List.take_sublist ..)
  exact (fget_foldl_fset (fun w => setBits w 57 6 a) 0 _ hnodup p.handlers).2 n (by rwa [map_fst_zip_take])

end

/-! The whole of it (R55, R276). -/

/-- The pier with the actor that a record makes, and its entries. -/
def actorMade (p : Pier) (lp i : Nat) (l : List Word) : Pier :=
  { putHandlers p i (recordEntries l) with actors := fset p.actors i (recordActor lp l) }

section
variable {s : State} {pk lp : Nat} {l : List Word} (hl : l.length = 8 + (l.getD 7 0).toNat ∨ 32 < (l.getD 7 0).toNat)
include hl

theorem createActor_unfit (h : ¬Claims.RecordFits s (jobOf s pk) fun i => l.getD i 0) : createActor s pk lp l = (-3, s) := by
  rw [createActor, if_pos (Bool.eq_false_iff.mpr fun hr => h ((recordOk_iff s _ l hl).mp hr))]

variable (h : Claims.RecordFits s (jobOf s pk) fun i => l.getD i 0)
include h

theorem createActor_noIndex (hi : ∀ i, ¬Claims.AsksFor (getPier s pk) (l.getD 0 0) i) : createActor s pk lp l = (-1, s) := by
  have hnone : recordIndex (getPier s pk) (l.getD 0 0) = none :=
    Option.eq_none_iff_forall_ne_some.mpr fun i hs => hi i ((recordIndex_some_iff h _ i).mp hs)
  simp only [createActor, (recordOk_iff s _ l hl).mpr h, lgetD_eq_getD, hnone]
  rfl

theorem createActor_short {i : Nat} (hi : Claims.AsksFor (getPier s pk) (l.getD 0 0) i)
    (hf : (freeHandlers (getPier s pk)).length < (l.getD 7 0).toNat) : createActor s pk lp l = (-2, s) := by
  simp only [createActor, (recordOk_iff s _ l hl).mpr h, lgetD_eq_getD, (recordIndex_some_iff h _ i).mpr hi, if_pos hf]
  rfl

theorem createActor_makes {i : Nat} (hi : Claims.AsksFor (getPier s pk) (l.getD 0 0) i)
    (hf : (l.getD 7 0).toNat ≤ (freeHandlers (getPier s pk)).length) :
    createActor s pk lp l = ((i : Int), setPier s pk (actorMade (getPier s pk) lp i l)) := by
  simp only [createActor, (recordOk_iff s _ l hl).mpr h, lgetD_eq_getD, (recordIndex_some_iff h _ i).mpr hi, if_neg (Nat.not_lt.mpr hf)]
  rfl

end

theorem recordActor_eq (lp : BitVec 10) (l : List Word) : recordActor lp.toNat l = Claims.actorOf lp fun i => l.getD i 0 := by
  simp [recordActor, Claims.actorOf, lgetD_eq_getD]

theorem length_recordEntries {l : List Word} (h : l.length = 8 + (l.getD 7 0).toNat) : (recordEntries l).length = (l.getD 7 0).toNat := by
  rw [recordEntries, List.length_take, List.length_drop]
  omega

theorem recordEntries_getD {l : List Word} {j : Nat} (hj : j < (l.getD 7 0).toNat) : (recordEntries l).getD j 0 = l.getD (8 + j) 0 := by
  rw [recordEntries, List.getD_eq_getElem?_getD, List.getElem?_take_of_lt hj, List.getElem?_drop, ← List.getD_eq_getElem?_getD]

theorem actorsCreated : Claims.ActorsCreated := by
  refine ⟨fun s m t h ht ha => ⟨acrt_unaligned h ht ha, acrt_issues h ht ha⟩, ?_⟩
  intro s pk st tok l p htok hu hc hh hpend hport w q hl gives same
  have hland : ∀ {r : Int} {t : State}, createActor s pk (getStrand s pk st).lp.toNat l = (r, t) → getStrand t pk st = getStrand s pk st →
      Claims.SameMemory s t → gives r (createdLand t pk st tok r) := fun {r t} hcr hst hm =>
    ⟨by rw [exec_creation htok hu hc hpend, hcr], resPort_createdLand htok hu hh hpend hport hst r, sameMemory_createdLand _ _ _ _ _ hm⟩
  have hsame : ∀ r, same (createdLand s pk st tok r) := fun r =>
    ⟨getPier_createdLand s pk st tok r Pier.actors fun _ _ => rfl, getPier_createdLand s pk st tok r Pier.handlers fun _ _ => rfl⟩
  refine ⟨fun hf => ⟨_, hland (createActor_unfit hl hf) rfl (sameMemory_refl s), hsame _⟩,
    fun hf hi => ⟨_, hland (createActor_noIndex hl hf hi) rfl (sameMemory_refl s), hsame _⟩,
    fun i hf hi hn => ⟨_, hland (createActor_short hl hf hi hn) rfl (sameMemory_refl s), hsame _⟩, fun i hf hi hn => ?_⟩
  let p' := actorMade q (getStrand s pk st).lp.toNat i l
  have hp : getPier (setPier s pk p') pk = p' := getPier_setPier_same ..
  have hlen : (recordEntries l).length = (w 7).toNat := length_recordEntries (hl.resolve_right (Nat.not_lt.mpr hf.count))
  have hhand : ∀ r, (getPier (createdLand (setPier s pk p') pk st tok r) pk).handlers = p'.handlers := fun r =>
    (getPier_createdLand _ pk st tok r Pier.handlers fun _ _ => rfl).trans (congrArg Pier.handlers hp)
  have hact : ∀ r j, getActor (createdLand (setPier s pk p') pk st tok r) pk j = fget p'.actors j {} := fun r j =>
    (getPier_createdLand _ pk st tok r (fun p => pierActor p j) fun _ _ => rfl).trans (congrArg (fun p => pierActor p j) hp)
  refine ⟨_, hland (createActor_makes hl hf hi hn) ?_ (sameMemory_of (memories_setPier _ _ _ rfl) (codes_setPier _ _ _ rfl)), ?_, fun j hj => ?_,
    fun j n hj hfree => ?_, fun n hfree => ?_⟩
  · rw [getStrand, hp]
    rfl
  · rw [hact, ← recordActor_eq]
    exact fget_fset_same ..
  · rw [hact]
    exact fget_fset_other _ _ _ _ _ hj
  · rw [hhand]
    exact (handlers_putHandlers_in hfree (by rwa [hlen])).trans (by rw [recordEntries_getD hj])
  · rw [hhand]
    exact handlers_putHandlers_out (by rwa [hlen])

/-- Settles O39. -/
theorem actorsAndJobTriggers : Obligations.ActorsAndJobTriggers := ⟨actorsCreated, completionAndCancelTriggers⟩

end Sys2Proof.Machine
end

section
/-!
Sluices: what an update of one leaves alone, its check and its firing (R57 to R63), and the operations of the run in hand on them.
-/

namespace Sys2Proof.Machine

/-! An update of sluices. -/

/-- A pier without its sluices. -/
def Pier.noSluices (p : Pier) : Pier := { p with sluices := [] }

/-- The second state is the first after some updates of sluices. -/
structure SetsSluices (s t : State) : Prop where
  piers : ∀ pk, (getPier t pk).noSluices = (getPier s pk).noSluices
  rest : t = { s with piers := t.piers }

theorem SetsSluices.refl (s : State) : SetsSluices s s := ⟨fun _ => rfl, rfl⟩

theorem SetsSluices.trans {s t u : State} (h : SetsSluices s t) (k : SetsSluices t u) : SetsSluices s u :=
  ⟨fun pk => (k.piers pk).trans (h.piers pk), by rw [k.rest, h.rest]⟩

theorem setsSluices_setSluice (s : State) (pk n : Nat) (x : Sluice) : SetsSluices s (setSluice s pk n x) := by
  refine ⟨fun k => ?_, rfl⟩
  by_cases hk : k = pk
  · subst hk
    rw [setSluice, getPier_adjPier_same]
    rfl
  · rw [setSluice, getPier_adjPier_other _ _ _ _ hk]

section
variable {s t : State} (h : SetsSluices s t)
include h

theorem SetsSluices.field {α : Type} (g : Pier → α) (hg : ∀ p, g p.noSluices = g p) (pk : Nat) : g (getPier t pk) = g (getPier s pk) := by
  rw [← hg, h.piers, hg]
theorem SetsSluices.issue : t.issue = s.issue := by rw [h.rest]
theorem SetsSluices.cycle : t.cycle = s.cycle := by rw [h.rest]
theorem SetsSluices.getStrand (pk st : Nat) : getStrand t pk st = getStrand s pk st := h.field (fun p => pierStrand p st) (fun _ => rfl) pk
theorem SetsSluices.curStrand : curStrand t = curStrand s := by
  rw [Machine.curStrand, h.issue, h.getStrand]
  rfl
theorem SetsSluices.codes : codes t = codes s := funext fun pk => h.field Pier.code (fun _ => rfl) pk
theorem SetsSluices.memories : memories t = memories s := by
  have hs : (Machine.memories t).spad = (Machine.memories s).spad := funext fun pk => h.field Pier.spad (fun _ => rfl) pk
  have hm : (Machine.memories t).hbm = (Machine.memories s).hbm := by rw [h.rest]; rfl
  have hx : (Machine.memories t).slice = (Machine.memories s).slice := by rw [h.rest]; rfl
  cases ht : Machine.memories t
  cases hs' : Machine.memories s
  simp_all

end

theorem getSluice_setSluice_other (s : State) (pk n : Nat) (x : Sluice) {k j : Nat} (h : ¬(k = pk ∧ j = n)) :
    getSluice (setSluice s pk n x) k j = getSluice s k j := by
  by_cases hk : k = pk
  · subst hk
    rw [getSluice, setSluice, getPier_adjPier_same]
    exact fget_fset_other _ _ _ _ _ fun hj => h ⟨rfl, hj⟩
  · rw [getSluice, setSluice, getPier_adjPier_other _ _ _ _ hk]
    rfl

theorem setSluice_setSluice (s : State) (pk n : Nat) (x y : Sluice) : setSluice (setSluice s pk n x) pk n y = setSluice s pk n y := by
  simp [setSluice, adjPier, setPier, getPier]

/-! Waits (R62, R346). -/

theorem wait_of_noWaits {s : State} {pk : Nat} (h : Claims.NoWaits s pk) (st : Nat) : (getStrand s pk st).wait = .none := by
  by_cases hx : getStrand s pk st = {}
  · rw [hx]
  · exact h _ (fget_mem rfl hx)

/-- Where no strand waits an update of a sluice wakes none. -/
theorem slSettle_noWaits {s : State} {pk n : Nat} (h : ∀ st, (getStrand s pk st).wait = .none) : slSettle s pk n = s := by
  have hr : ∀ st, sarvRetry s pk n st = s := fun st => by simp only [sarvRetry, h st]
  rw [slSettle, sarvWake]
  induction (List.range 64).map (· % 8) with
  | nil => rfl
  | cons st l ih => rw [List.foldl_cons, hr st, ih]

/-! The check behind an update and the firing (R59). -/

section
variable {s : State} {pk n : Nat} {c : Cause}

theorem slCheck_rest (h : ¬(slMode (getSluice s pk n) = 1 ∧ (getSluice s pk n).armed = true ∧
    Claims.reached (getSluice s pk n).count (getSluice s pk n).target)) :
    slCheck s pk n c = setSluice s pk n { getSluice s pk n with again := false } := if_neg h

variable (hm : slMode (getSluice s pk n) = 1) (ha : (getSluice s pk n).armed = true)
  (hr : Claims.reached (getSluice s pk n).count (getSluice s pk n).target)

include hm ha hr in
theorem slCheck_again (hf : (getSluice s pk n).firedAt = some s.cycle) :
    slCheck s pk n c = setSluice s pk n { getSluice s pk n with again := true } := (if_pos ⟨hm, ha, hr⟩).trans (if_pos hf)

include hm ha hr in
theorem slCheck_fires (hf : (getSluice s pk n).firedAt ≠ some s.cycle) : slCheck s pk n c = slFire s pk n c :=
  (if_pos ⟨hm, ha, hr⟩).trans (if_neg hf)

/-- A sluice below the service sluices has no link entry, so that its firing is its action. -/
theorem slFire_job (hn : n < 496) : slFire s pk n c = slAction (setSluice s pk n (Claims.fired (getSluice s pk n) s.cycle)) pk n
    (getSluice s pk n).action ((getSluice s pk n).phase + 1) (getSluice s pk n).count false c := by
  have hl : linkOf (getPier s pk) n = 0 := if_neg (by omega)
  have hb : ∀ i, bitAt 0 i = false := fun i => by simp [bitAt]
  simp only [slFire, hl, hb, Bool.false_and, Bool.false_eq_true, if_false]
  rfl

theorem slAction_plain {action : Word} (h : action.getLsbD 60 = false ∧ action.getLsbD 61 = false) (phase : BitVec 2) (count : BitVec 32)
    (cancelled : Bool) : slAction s pk n action phase count cancelled c = s := by
  rw [getLsbD_eq_bitAt, getLsbD_eq_bitAt] at h
  simp [slAction, h]

theorem slFire_plain (hn : n < 496) (hp : Claims.PlainAction (getSluice s pk n)) :
    slFire s pk n c = setSluice s pk n (Claims.fired (getSluice s pk n) s.cycle) := by
  rw [slFire_job hn, slAction_plain hp]

end

/-! A local operation of the run in hand (R341, R342). -/

theorem slNo_eq (a : Value) : Claims.slNo a = slIx a := by simp [Claims.slNo, Claims.fld, slIx]

theorem slMode_eq (x : Sluice) : Claims.fld x.action 62 2 = slMode x := rfl

theorem sluiceOnly_of {s t : State} {n : Nat} (h : SetsSluices (cleared s 10) t)
    (ho : ∀ pk k, ¬(pk = s.issue.pk ∧ k = n) → getSluice t pk k = getSluice s pk k) : Claims.SluiceOnly s t n where
  others := ho
  regs := by rw [h.curStrand, curStrand_cleared]; exact sameRegs_clearUnit ..
  ports i hi := by rw [h.curStrand, curStrand_cleared]; exact resPort_clear_other _ _ _ hi
  strands pk st hk := by rw [h.getStrand, getStrand_cleared_other _ _ hk]
  actors pk := by rw [h.field Pier.actors fun _ => rfl, actors_cleared]
  messages pk := ⟨by rw [h.field Pier.inbox fun _ => rfl, inbox_cleared], by rw [h.field Pier.outbox fun _ => rfl, outbox_cleared]⟩
  memory := sameMemory_of (h.memories.trans (memories_cleared s 10)) (h.codes.trans (codes_cleared s 10))

/-- One sluice of the pier written. -/
theorem sluiceOnly_setSluice (s : State) (n : Nat) (x : Sluice) : Claims.SluiceOnly s (setSluice (cleared s 10) s.issue.pk n x) n :=
  sluiceOnly_of (setsSluices_setSluice ..) fun pk k hk => by rw [getSluice_setSluice_other _ _ _ _ hk, getSluice_cleared]

section
variable {s : State} {m : Mv} {t a : Value} (h : Claims.Fires s m t) (hp : Claims.Port s .slA a) (ht : t.poison = false)
  (ha : a.poison = false) {allowed : Sluice → Bool} {hd : State → Value → Value → Value → Bool} {k : State → Value → Value → Trig}

theorem slChecked_ok {s : State} {n : Nat} {k : Trig} (hal : Claims.SlAllowed s n) (hm : allowed (getSluice s s.issue.pk n) = true) :
    slChecked s n allowed k = k := by
  rw [slChecked, if_neg, if_neg (by simp [hm])]
  rintro ⟨hn, hs⟩
  obtain hal | hal := hal
  · omega
  · rw [hal] at hs; cases hs

include hp ht ha in
theorem checked_sl (hal : Claims.SlAllowed s (slIx a)) (hm : allowed (getSluice s s.issue.pk (slIx a)) = true) :
    checked s needSl t (fun s t a _ => slChecked s (slIx a) allowed (k s t a)) = k (cleared s 10) t a := by
  refine (checked_portA hp ht ha).trans (slChecked_ok ?_ ?_)
  · rwa [Claims.SlAllowed, curService_cleared]
  · rwa [cleared_issue, getSluice_cleared]

include h hp ht ha

theorem slTrigger_ok (hal : Claims.SlAllowed s (slIx a)) (hm : allowed (getSluice s s.issue.pk (slIx a)) = true)
    (hh : hd s t a Value.zero = false) {s' : State} (hk : k (cleared s 10) t a = .ok s') :
    runTrigger s m needSl hd (fun s t a _ => slChecked s (slIx a) allowed (k s t a)) = s' :=
  runTrigger_ok h ((checked_sl hp ht ha hal hm).trans hk) ((congrArg (fun v => hd s t v Value.zero) (needed_port hp)).trans hh)

theorem slTrigger_held (hal : Claims.SlAllowed s (slIx a)) (hm : allowed (getSluice s s.issue.pk (slIx a)) = true)
    (hh : hd s t a Value.zero = true) {s' : State} (hk : k (cleared s 10) t a = .ok s') :
    runTrigger s m needSl hd (fun s t a _ => slChecked s (slIx a) allowed (k s t a)) = markHeld s :=
  runTrigger_held h ((checked_sl hp ht ha hal hm).trans hk) ((congrArg (fun v => hd s t v Value.zero) (needed_port hp)).trans hh)

theorem slTrigger_fault (hal : Claims.SlAllowed s (slIx a)) (hm : allowed (getSluice s s.issue.pk (slIx a)) = true)
    (hh : hd s t a Value.zero = false) {code : Nat} {w3 : Word} (hk : k (cleared s 10) t a = .fault code w3) :
    runTrigger s m needSl hd (fun s t a _ => slChecked s (slIx a) allowed (k s t a)) = raise s 10 code (moveWord s t) w3 :=
  runTrigger_fault h ((checked_sl hp ht ha hal hm).trans hk) ((congrArg (fun v => hd s t v Value.zero) (needed_port hp)).trans hh)

/-- A service sluice is not for job code (R342). -/
theorem slTrigger_service (hal : ¬Claims.SlAllowed s (slIx a)) (hh : hd s t a Value.zero = false) :
    runTrigger s m needSl hd (fun s t a _ => slChecked s (slIx a) allowed (k s t a)) =
      raise s 10 0x0D (moveWord s t) (BitVec.ofNat 64 (slIx a)) := by
  refine runTrigger_fault h ((checked_portA hp ht ha).trans (if_pos ?_)) ((congrArg (fun v => hd s t v Value.zero) (needed_port hp)).trans hh)
  rw [Claims.SlAllowed, not_or] at hal
  exact ⟨Nat.le_of_not_lt hal.1, by rw [curService_cleared]; exact Bool.eq_false_iff.mpr hal.2⟩

/-- Nor is a sluice in a mode that does not take the operation. -/
theorem slTrigger_mode (hal : Claims.SlAllowed s (slIx a)) (hm : allowed (getSluice s s.issue.pk (slIx a)) = false)
    (hh : hd s t a Value.zero = false) :
    runTrigger s m needSl hd (fun s t a _ => slChecked s (slIx a) allowed (k s t a)) =
      raise s 10 0x10 (moveWord s t) (BitVec.ofNat 64 (slIx a)) := by
  refine runTrigger_fault h ((checked_portA hp ht ha).trans ?_) ((congrArg (fun v => hd s t v Value.zero) (needed_port hp)).trans hh)
  rw [slChecked, if_neg, if_pos]
  · rwa [cleared_issue, getSluice_cleared]
  · rintro ⟨hn, hs⟩
    rw [curService_cleared] at hs
    obtain hal | hal := hal
    · omega
    · rw [hal] at hs; cases hs

end

/-! What an operation of the run covers (R63, R169). -/

/-- An entry of a map at another key is one of its update. -/
theorem mem_fset_other {α : Type} {m : FMap α} {k : Nat} {v : α} {e : Nat × α} (h : e ∈ m) (hk : e.1 ≠ k) : e ∈ fset m k v := by
  induction m with
  | nil => cases h
  | cons p m ih =>
    rw [fset]
    split
    · exact List.mem_cons_of_mem _ h
    · split
      · rename_i hp
        obtain rfl | h := List.mem_cons.mp h
        · exact absurd hp hk
        · exact List.mem_cons_of_mem _ h
      · obtain rfl | h := List.mem_cons.mp h
        · exact List.mem_cons_self ..
        · exact List.mem_cons_of_mem _ (ih h)

theorem strands_cleared (s : State) (u : Nat) :
    (curPier (cleared s u)).strands = fset (curPier s).strands s.issue.strand (clearUnit (curStrand s) u) := by
  rw [curPier, cleared_issue, cleared, adjCur, adjStrand, setStrand, getPier_adjPier_same]
  rfl

theorem owedMeets_cleared (s : State) (u : Nat) : owedMeets (cleared s u) = owedMeets s := by
  rw [Bool.eq_iff_iff, owedMeets, owedMeets, List.any_eq_true, List.any_eq_true, strands_cleared, cleared_issue]
  constructor
  · rintro ⟨e, he, hb⟩
    obtain rfl | he := mem_fset _ _ _ _ he
    · simp at hb
    · exact ⟨e, he, hb⟩
  · rintro ⟨e, he, hb⟩
    have hk : e.1 ≠ s.issue.strand := by
      rw [Bool.and_eq_true, bne_iff_ne] at hb
      exact hb.1
    exact ⟨e, mem_fset_other he hk, hb⟩

theorem coverHere_cleared_now {s : State} (hg : gmHereIn s .pier = false) (hm : owedMeets s = false) (o : Owed) (now : State) :
    coverHere (cleared s 10) o now = now := by
  rw [coverHere, gmHereIn_cleared, owedMeets_cleared, hg, hm]
  rfl

theorem coverHere_cleared_owed {s : State} (h : gmHereIn s .pier = true ∨ owedMeets s = true) (o : Owed) (now : State) :
    coverHere (cleared s 10) o now = adjCur s fun x => { clearUnit x 10 with owed := x.owed ++ [o] } := by
  rw [coverHere, gmHereIn_cleared, owedMeets_cleared, if_pos (by simpa using h), adjCur_cleared]
  rfl

theorem gmHereIn_nothing {s : State} (h : gmHere s = []) (sc : Scope) : gmHereIn s sc = false := by
  simp [gmHereIn, h]

theorem owedMeets_alone {s : State} (h : ∀ e ∈ (curPier s).strands, e.1 ≠ s.issue.strand → e.2.owed = []) : owedMeets s = false := by
  rw [owedMeets, List.any_eq_false]
  intro e he hb
  rw [Bool.and_eq_true, bne_iff_ne] at hb
  rw [h e he hb.1] at hb
  simp at hb

theorem owedMeets_another {s : State} (h : Claims.AnotherMade s) : owedMeets s = true := by
  obtain ⟨e, he, hk, hinf, o, l, ho, hst⟩ := h
  rw [owedMeets, List.any_eq_true]
  refine ⟨e, he, ?_⟩
  rw [Bool.and_eq_true, bne_iff_ne, ho]
  refine ⟨hk, ?_⟩
  have hready : owedReady s.issue.pk e.2 o.op = true := by
    have hall : ∀ (f : Inflight → Bool), (e.2.inf.all fun q => match q.2 with | some i => f i | none => true) = true := fun f => by
      rw [List.all_eq_true]
      intro q hq
      rw [hinf q hq]
    unfold owedReady
    split
    · exact hall _
    · exact hall _
  simp [hready]

theorem slHeld_covered {s : State} (h : ∀ e ∈ gmEntries s, inScope s .pier e = false) (t a b : Value) : slHeld s t a b = false := by
  rw [slHeld, List.any_eq_false]
  intro e he
  rw [h e he]
  decide

end Sys2Proof.Machine
end

section
/-!
SARM, SSET and SADD (O31).
-/

namespace Sys2Proof.Machine

/-! The action word (R5, R58). -/

theorem getLsbD_setBits_zero (w : Word) (lo n : Nat) {i : Nat} (hi : i < 64) :
    (setBits w lo n 0).getLsbD i = (w.getLsbD i && !decide (lo ≤ i ∧ i < lo + n)) := by
  have hlt : w.toNat % 2 ^ lo < 2 ^ (lo + n) :=
    Nat.lt_of_lt_of_le (Nat.mod_lt _ (Nat.two_pow_pos lo)) (Nat.pow_le_pow_right (by decide) (Nat.le_add_right ..))
  have hv : setBits w lo n 0 = BitVec.ofNat 64 (2 ^ (lo + n) * (w.toNat / 2 ^ (lo + n)) + w.toNat % 2 ^ lo) := by
    rw [setBits]
    congr 1
    rw [Nat.zero_mod, Nat.zero_mul, Nat.add_zero, Nat.add_comm, Nat.mul_comm]
  rw [hv, BitVec.getLsbD_ofNat, decide_eq_true hi, Bool.true_and, Nat.testBit_two_pow_mul_add _ hlt, Nat.testBit_mod_two_pow,
    Nat.testBit_div_two_pow, BitVec.getLsbD]
  split
  · by_cases hl : i < lo
    · simp [hl, show ¬lo ≤ i by omega]
    · simp [show lo ≤ i by omega, *]
  · rename_i hge
    rw [Nat.sub_add_cancel (by omega)]
    simp [show ¬(lo ≤ i ∧ i < lo + n) by omega]

/-- A field of a word cleared is the word without the field's bits. -/
theorem setBits_zero (w m : Word) {lo n : Nat} (hm : ∀ i < 64, m.getLsbD i = decide (lo ≤ i ∧ i < lo + n)) :
    setBits w lo n 0 = w &&& ~~~m := by
  refine BitVec.eq_of_getLsbD_eq fun i hi => ?_
  rw [getLsbD_setBits_zero w lo n hi, BitVec.getLsbD_and, BitVec.getLsbD_not, hm i hi, decide_eq_true hi, Bool.true_and]

theorem sarmWord_eq (t : Word) : sarmWord t = Claims.armed t := by
  have h1 : setBits t 41 6 0 = t &&& ~~~0x00007E0000000000 := setBits_zero t _ (by decide)
  have h2 : setBits (setBits t 39 8 0) 0 26 0 = t &&& ~~~0x00007F8003FFFFFF := by
    rw [setBits_zero t 0x00007F8000000000 (by decide), setBits_zero _ 0x3FFFFFF (by decide), BitVec.and_assoc]
    rfl
  have h3 : setBits (setBits t 42 5 0) 0 26 0 = t &&& ~~~0x00007C0003FFFFFF := by
    rw [setBits_zero t 0x00007C0000000000 (by decide), setBits_zero _ 0x3FFFFFF (by decide), BitVec.and_assoc]
    rfl
  simp only [sarmWord, Claims.armed, h1, h2, h3]
  rfl

/-! SARM (R343). -/

theorem sarmFault_none {s : State} {pk n : Nat} {t : Word} (h : bits t 62 2 ≠ 2) : sarmFault s pk n t = none := if_pos h

theorem sarmFault_home {s : State} {pk n : Nat} {t : Word} (h1 : 1 ≤ bits t 32 7) (h2 : bits t 32 7 ≤ 64) (h3 : bits t 26 6 < bits t 32 7)
    (h4 : leadsUsed (getPier s pk) - (getSluice s pk n).leads.length + bits t 32 7 ≤ 4096) : sarmFault s pk n t = none := by
  unfold sarmFault
  simp only
  rw [if_neg (show ¬(bits t 32 7 = 0 ∨ 64 < bits t 32 7 ∨ bits t 32 7 ≤ bits t 26 6) by omega), if_neg (Nat.not_lt.mpr h4), ite_self]

/-- The sluice that SARM leaves in its mode. -/
theorem sarmSluice_mode (x : Sluice) (t : Word) :
    (bits t 62 2 = 0 → sarmSluice x t = { x with action := Claims.armed t, armed := false, leads := [] }) ∧
    (bits t 62 2 = 1 → sarmSluice x t = { x with action := Claims.armed t, armed := true, leads := [] }) ∧
    (bits t 62 2 = 2 → sarmSluice x t = { x with action := Claims.armed t, leads := List.replicate (bits t 32 7) 0 }) ∧
    (bits t 62 2 = 3 → sarmSluice x t = { x with action := Claims.armed t, leads := [] }) := by
  rw [← sarmWord_eq, sarmSluice]
  refine ⟨fun h => ?_, fun h => ?_, fun h => ?_, fun h => ?_⟩
  all_goals
    rw [h]
    rfl

theorem bits_eq_extract (w : Word) (lo n : Nat) : bits w lo n = (w.extractLsb' lo n).toNat := by
  rw [BitVec.extractLsb'_toNat, Nat.shiftRight_eq_div_pow, bits]

theorem bits_and_not (t m : Word) {lo n : Nat} (hm : ∀ i < n, m.getLsbD (lo + i) = false) : bits (t &&& ~~~m) lo n = bits t lo n := by
  rw [bits_eq_extract, bits_eq_extract]
  refine congrArg BitVec.toNat (BitVec.eq_of_getLsbD_eq fun i hi => ?_)
  rw [BitVec.getLsbD_extractLsb', BitVec.getLsbD_extractLsb', BitVec.getLsbD_and, BitVec.getLsbD_not, hm i hi]
  by_cases h : lo + i < 64
  · simp [h]
  · simp [BitVec.getLsbD_of_ge t _ (Nat.le_of_not_lt h)]

theorem mode_armed (t : Word) : bits (Claims.armed t) 62 2 = bits t 62 2 := by
  unfold Claims.armed
  split
  · rfl
  · exact bits_and_not t _ (by decide)
  · exact bits_and_not t _ (by decide)
  · exact bits_and_not t _ (by decide)

section
variable {s : State} {m : Mv} {t a : Value} (h : Claims.Fires s m t) (hp : Claims.Port s .slA a) (ht : t.poison = false)
  (ha : a.poison = false) (hal : Claims.SlAllowed s (slIx a)) (hw : Claims.NoWaits s s.issue.pk) (hc : Claims.NothingCovered s)

include hw in
/-- No strand of the pier waits once a sluice is written. -/
theorem noWaits_sets {t : State} (hs : SetsSluices (cleared s 10) t) (st : Nat) : (getStrand t s.issue.pk st).wait = .none := by
  rw [hs.getStrand]
  by_cases hst : st = s.issue.strand
  · subst hst
    exact (congrArg Strand.wait (curStrand_cleared s 10)).trans (wait_of_noWaits hw _)
  · rw [getStrand_cleared_other s 10 fun hk => hst hk.2]
    exact wait_of_noWaits hw _

include hw in
theorem settle_sets {t : State} (hs : SetsSluices (cleared s 10) t) (n : Nat) : slSettle t s.issue.pk n = t := slSettle_noWaits (noWaits_sets hw hs)

include hc in
theorem covered_now (o : Owed) (now : State) : coverHere (cleared s 10) o now = now :=
  coverHere_cleared_now (gmHereIn_nothing hc.here .pier) (owedMeets_alone hc.alone) o now

include hw in
/-- What an update and its check leave of the sluice (R59): at rest; fired and checked in this cycle already; firing. -/
theorem check_sluice (n : Nat) (y : Sluice) (c : Cause) :
    let t := slSettle (slCheck (setSluice (cleared s 10) s.issue.pk n y) s.issue.pk n c) s.issue.pk n
    (¬(slMode y = 1 ∧ y.armed = true ∧ Claims.reached y.count y.target) → t = setSluice (cleared s 10) s.issue.pk n { y with again := false }) ∧
    (slMode y = 1 → y.armed = true → Claims.reached y.count y.target → y.firedAt = some s.cycle →
      t = setSluice (cleared s 10) s.issue.pk n { y with again := true }) ∧
    (slMode y = 1 → y.armed = true → Claims.reached y.count y.target → y.firedAt ≠ some s.cycle → Claims.PlainAction y → n < 496 →
      t = setSluice (cleared s 10) s.issue.pk n (Claims.fired y s.cycle)) := by
  intro t
  have hget : getSluice (setSluice (cleared s 10) s.issue.pk n y) s.issue.pk n = y := getSluice_setSluice_same ..
  have hset : ∀ z, slSettle (setSluice (setSluice (cleared s 10) s.issue.pk n y) s.issue.pk n z) s.issue.pk n =
      setSluice (cleared s 10) s.issue.pk n z := fun z => by
    rw [setSluice_setSluice, settle_sets hw (setsSluices_setSluice ..)]
  refine ⟨fun hr => ?_, fun hm harm hr hf => ?_, fun hm harm hr hf hpl hn => ?_⟩
  · have hch := slCheck_rest (s := setSluice (cleared s 10) s.issue.pk n y) (pk := s.issue.pk) (n := n) (c := c) (by rwa [hget])
    rw [hget] at hch
    exact (congrArg (fun t => slSettle t s.issue.pk n) hch).trans (hset _)
  · have hch := slCheck_again (s := setSluice (cleared s 10) s.issue.pk n y) (pk := s.issue.pk) (n := n) (c := c) (by rwa [hget]) (by rwa [hget])
      (by rwa [hget]) (by rwa [hget])
    rw [hget] at hch
    exact (congrArg (fun t => slSettle t s.issue.pk n) hch).trans (hset _)
  · have hch := slCheck_fires (s := setSluice (cleared s 10) s.issue.pk n y) (pk := s.issue.pk) (n := n) (c := c) (by rwa [hget]) (by rwa [hget])
      (by rwa [hget]) (by rwa [hget])
    rw [slFire_plain hn (by rwa [hget]), hget] at hch
    exact (congrArg (fun t => slSettle t s.issue.pk n) hch).trans (hset _)

include h hp ht ha hal hc

/-- SARM where no check fails. -/
theorem sarm_makes (hm : sarmAllowed (getSluice s s.issue.pk (slIx a)) = true) (hf : sarmFault s s.issue.pk (slIx a) (vsc t) = none) :
    exec (.sarm m) s = .next (sarmSet (cleared s 10) s.issue.pk (slIx a) (vsc t) (causeHere (cleared s 10))) := by
  have hf' : sarmFault (cleared s 10) s.issue.pk (slIx a) (vsc t) = none := by
    rw [sarmFault, getSluice_cleared, getPier_cleared s 10 leadsUsed fun _ _ => rfl]
    exact hf
  have hdo : sarmDo (cleared s 10) (slIx a) t = .ok (sarmSet (cleared s 10) s.issue.pk (slIx a) (vsc t) (causeHere (cleared s 10))) := by
    rw [sarmDo, cleared_issue, hf']
    exact congrArg Trig.ok (covered_now hc _ _)
  exact congrArg Host.Outcome.next (slTrigger_ok h hp ht ha hal hm (slHeld_covered hc.earlier ..) hdo)

theorem sset_makes : exec (.sset m) s =
    .next (ssetAt (cleared s 10) s.issue.pk (slIx a) (vsc a) (vsc t) (causeHere (cleared s 10))) :=
  congrArg Host.Outcome.next (slTrigger_ok (allowed := fun _ => true) h hp ht ha hal rfl (slHeld_covered hc.earlier ..)
    (congrArg Trig.ok (covered_now hc _ _)))

theorem sadd_makes (hm : slMode (getSluice s s.issue.pk (slIx a)) = 1) : exec (.sadd m) s =
    .next (saddAt (cleared s 10) s.issue.pk (slIx a) ((vsc t).extractLsb' 0 32) (causeHere (cleared s 10))) :=
  congrArg Host.Outcome.next (slTrigger_ok (allowed := fun x => slMode x == 1) h hp ht ha hal (by simp [hm]) (slHeld_covered hc.earlier ..)
    (congrArg Trig.ok (covered_now hc _ _)))

end

theorem sluiceArmAndSet : Claims.SluiceArmAndSet := by
  intro s m t a h hp ht ha n x T w hal hw hc gives fires
  have hn : n = slIx a := slNo_eq a
  rw [hn] at hal
  have hset : ∀ {i : Instr} {y : Sluice}, exec i s = .next (setSluice (cleared s 10) s.issue.pk n y) → gives i y := fun he =>
    ⟨_, he, sluiceOnly_setSluice .., getSluice_setSluice_same ..⟩
  have hx : getSluice (cleared s 10) s.issue.pk n = x := getSluice_cleared ..
  obtain ⟨h0, h1, h2, h3⟩ := sarmSluice_mode x T
  refine ⟨fun hm => ?_, ?_⟩
  · have hallow : sarmAllowed (getSluice s s.issue.pk (slIx a)) = true := by
      rw [← hn, sarmAllowed]
      by_cases hm2 : slMode x = 2
      · have hl : (x.leads.any (· != 0)) = false := by
          rw [List.any_eq_false]
          intro l hlm
          rw [hm hm2 l hlm]
          decide
        simp [x, hl]
      · simp [x, hm2]
    have hmake : sarmFault s s.issue.pk (slIx a) T = none → exec (.sarm m) s = .next (slSettle
        (if bits T 62 2 = 1 then slCheck (setSluice (cleared s 10) s.issue.pk n (sarmSluice x T)) s.issue.pk n (causeHere (cleared s 10))
          else setSluice (cleared s 10) s.issue.pk n (sarmSluice x T)) s.issue.pk n) := fun hf => by
      rw [sarm_makes h hp ht ha hal hc hallow hf, ← hn, sarmSet, hx]
    have hrest : ∀ y, sarmFault s s.issue.pk (slIx a) T = none → bits T 62 2 ≠ 1 → sarmSluice x T = y → gives (.sarm m) y := fun y hf h1 hy => by
      refine hset ?_
      rw [hmake hf, if_neg h1, hy, settle_sets hw (setsSluices_setSluice ..)]
    refine ⟨fun hT => ?_, fun hT => ⟨fun hr => ?_, fun hf => ?_⟩, fun hT hc1 hc2 hc3 hc4 => ?_, fun hT => ?_⟩
    · exact hrest _ (sarmFault_none (by rw [← fld_eq_bits, hT]; decide)) (by rw [← fld_eq_bits, hT]; decide) (h0 hT)
    · obtain ⟨hq, -, -⟩ := check_sluice hw n { x with action := w, armed := true, leads := [] } (causeHere (cleared s 10))
      refine hset ?_
      rw [hmake (sarmFault_none (by rw [← fld_eq_bits, hT]; decide)), if_pos (show bits T 62 2 = 1 from hT), h1 hT]
      exact congrArg Host.Outcome.next (hq fun hh => hr hh.2.2)
    · obtain ⟨-, -, hq⟩ := check_sluice hw n { x with action := w, armed := true, leads := [] } (causeHere (cleared s 10))
      obtain ⟨hr, hfa, hpl, hlt⟩ := hf
      refine hset ?_
      rw [hmake (sarmFault_none (by rw [← fld_eq_bits, hT]; decide)), if_pos (show bits T 62 2 = 1 from hT), h1 hT]
      exact congrArg Host.Outcome.next (hq ((mode_armed T).trans hT) rfl hr hfa hpl hlt)
    · exact hrest _ (sarmFault_home hc1 hc2 hc3 (by rw [← hn]; exact hc4)) (by rw [← fld_eq_bits, hT]; decide) (h2 hT)
    · exact hrest _ (sarmFault_none (by rw [← fld_eq_bits, hT]; decide)) (by rw [← fld_eq_bits, hT]; decide) (h3 hT)
  · intro y
    have hmake : exec (.sset m) s = .next (slSettle (slCheck (setSluice (cleared s 10) s.issue.pk n y) s.issue.pk n (causeHere (cleared s 10)))
        s.issue.pk n) := by
      rw [sset_makes h hp ht ha hal hc, ← hn, ssetAt, slUpdate, hx]
      simp only [← getLsbD_eq_bitAt]
      rfl
    obtain ⟨hq, -, hfire⟩ := check_sluice hw n y (causeHere (cleared s 10))
    refine ⟨fun hr => hset (hmake.trans (congrArg _ (hq fun hh => ?_))), fun hm hf => hset (hmake.trans (congrArg _ ?_))⟩
    · exact hr.elim (fun h1 => h1 hh.1) fun h1 => h1 hh.2.2
    · obtain ⟨hr, hfa, hpl, hlt⟩ := hf
      exact hfire hm rfl hr hfa hpl hlt

theorem sluiceAddAndFire : Claims.SluiceAddAndFire := by
  intro s m t a h hp ht ha n x c hal hw hc hm
  have hn : n = slIx a := slNo_eq a
  rw [hn] at hal
  have hx : getSluice (cleared s 10) s.issue.pk n = x := getSluice_cleared ..
  have hmake : exec (.sadd m) s = .next (slSettle (slCheck (setSluice (cleared s 10) s.issue.pk n { x with count := c }) s.issue.pk n
      (causeHere (cleared s 10))) s.issue.pk n) := by
    rw [sadd_makes h hp ht ha hal hc (by rw [← hn]; exact hm), ← hn, saddAt, slAdd, slUpdate, hx]
  obtain ⟨hrest, hagain, hfire⟩ := check_sluice hw n { x with count := c } (causeHere (cleared s 10))
  refine ⟨_, hmake, fun hr => ?_, fun harm hr hf => ?_, fun harm hr hf hpl hlt => ?_⟩
  · rw [hrest fun hh => hr hh.2]
    exact ⟨sluiceOnly_setSluice .., getSluice_setSluice_same ..⟩
  · rw [hagain hm harm hr hf]
    exact ⟨sluiceOnly_setSluice .., getSluice_setSluice_same ..⟩
  · rw [hfire hm harm hr hf hpl hlt]
    exact ⟨sluiceOnly_setSluice .., getSluice_setSluice_same ..⟩

/-! What holds them and what they owe (R152, R169). -/

theorem slHeld_waits {s : State} (h : ∃ e ∈ gmEntries s, inScope s .pier e = true) (t a b : Value) : slHeld s t a b = true := by
  rw [slHeld, List.any_eq_true]
  exact h

/-- The three local operations on a counter, with an action word of counter mode: one that waits in the bundle, or is made now. -/
theorem local_sluices {m : Mv} {s : State} {t a : Value} (hmode : slMode (getSluice s s.issue.pk (slIx a)) = 1) (hT : bits (vsc t) 62 2 = 1)
    {i : Instr} {o : OwedOp}
    (hi : (i, o) ∈ [(Instr.sadd m, OwedOp.sadd (slIx a) ((vsc t).extractLsb' 0 32)), (.sset m, .sset (slIx a) (vsc a) (vsc t)),
      (.sarm m, .sarm (slIx a) (vsc t))]) :
    ∃ (allowed : Sluice → Bool) (k : State → Value → Value → Trig) (now : State), allowed (getSluice s s.issue.pk (slIx a)) = true ∧
      exec i s = .next (runTrigger s m needSl slHeld fun s t a _ => slChecked s (slIx a) allowed (k s t a)) ∧
      k (cleared s 10) t a = .ok (coverHere (cleared s 10) { op := o, bundle := s.issue.addr, move := moveWord s t, slot := s.issue.slot } now) := by
  have hf : sarmFault (cleared s 10) s.issue.pk (slIx a) (vsc t) = none := sarmFault_none (by rw [hT]; decide)
  simp only [List.mem_cons, List.not_mem_nil, or_false] at hi
  obtain ⟨rfl, rfl⟩ | ⟨rfl, rfl⟩ | ⟨rfl, rfl⟩ := hi
  · exact ⟨fun x => slMode x == 1, fun s t a => .ok (saddDo s (slIx a) t), _, by simp [hmode], rfl, rfl⟩
  · exact ⟨fun _ => true, fun s t a => .ok (ssetDo s (slIx a) (vsc a) t), _, rfl, rfl, rfl⟩
  · refine ⟨sarmAllowed, fun s t a => sarmDo s (slIx a) t,
      sarmSet (cleared s 10) s.issue.pk (slIx a) (vsc t) (causeHere (cleared s 10)), by simp [sarmAllowed, hmode], rfl, ?_⟩
    show sarmDo (cleared s 10) (slIx a) t = _
    rw [sarmDo, cleared_issue, hf]
    rfl

theorem localSluiceReleases : Claims.LocalSluiceReleases := by
  intro s m t a h hp ht ha n x hal hmode hT
  have hn : n = slIx a := slNo_eq a
  rw [hn] at hal
  have hmode' : slMode (getSluice s s.issue.pk (slIx a)) = 1 := by rw [← hn]; exact hmode
  refine ⟨fun hcov i hi => ?_, fun hcov hmeet i o hi => ?_⟩
  · have hio : ∃ o, (i, o) ∈ [(Instr.sadd m, OwedOp.sadd (slIx a) ((vsc t).extractLsb' 0 32)), (.sset m, .sset (slIx a) (vsc a) (vsc t)),
        (.sarm m, .sarm (slIx a) (vsc t))] := by
      simp only [List.mem_cons, List.not_mem_nil, or_false] at hi
      obtain rfl | rfl | rfl := hi
      · exact ⟨_, List.mem_cons_self ..⟩
      · exact ⟨_, List.mem_cons_of_mem _ (List.mem_cons_self ..)⟩
      · exact ⟨_, List.mem_cons_of_mem _ (List.mem_cons_of_mem _ (List.mem_cons_self ..))⟩
    obtain ⟨o, hio⟩ := hio
    obtain ⟨allowed, k, now, hallow, he, hk⟩ := local_sluices hmode' hT hio
    rw [he, slTrigger_held h hp ht ha hal hallow (slHeld_waits hcov ..) hk]
  · rw [hn] at hi
    obtain ⟨allowed, k, now, hallow, he, hk⟩ := local_sluices hmode' hT hi
    refine ⟨_, he.trans (congrArg _ (slTrigger_ok h hp ht ha hal hallow (slHeld_covered hcov ..) hk)), ?_, ?_⟩
    · rw [coverHere_cleared_owed (hmeet.imp_right owedMeets_another)]
      exact frame_of_strand rfl (sameRegs_update ..) (fun i hi => resPort_clear_other (curStrand s) 10 i hi) ⟨rfl, rfl, rfl, rfl, rfl, rfl⟩
    · rw [coverHere_cleared_owed (hmeet.imp_right owedMeets_another), curStrand_adjCur]

/-! The check of the cycle after a firing (R59). -/

theorem sluiceAtRest : Claims.SluiceAtRest := by
  intro s pk n h
  rw [exec_sluiceRecheck, execSluiceRecheck, if_neg (by simp [h])]
  rfl

theorem sluiceChecksAgain : Claims.SluiceChecksAgain := by
  intro s pk n x hw hx
  have hmake : exec (.sluiceRecheck pk n) s = .next (slSettle (slCheck s pk n) pk n) := by
    rw [exec_sluiceRecheck, execSluiceRecheck, if_pos hx]
    rfl
  have hsettle : ∀ y, slSettle (setSluice s pk n y) pk n = setSluice s pk n y := fun y =>
    slSettle_noWaits fun st => by rw [(setsSluices_setSluice s pk n y).getStrand]; exact wait_of_noWaits hw st
  have hmem : ∀ y, Claims.SameMemory s (setSluice s pk n y) := fun y =>
    sameMemory_of (setsSluices_setSluice s pk n y).memories (setsSluices_setSluice s pk n y).codes
  refine ⟨_, hmake, fun hr => ?_, fun hm harm hr hf hpl hlt => ?_⟩
  · rw [slCheck_rest hr, hsettle]
    exact ⟨getSluice_setSluice_same .., hmem _⟩
  · rw [slCheck_fires hm harm hr hf, slFire_plain hlt hpl, hsettle]
    exact ⟨getSluice_setSluice_same .., hmem _⟩

/-- Settles O31: an operation on a sluice is an update of it and its check, or is owed. -/
theorem counterSluices : Obligations.CounterSluices :=
  ⟨sluiceArmAndSet, sluiceAddAndFire, localSluiceReleases, sluiceChecksAgain, sluiceAtRest⟩

end Sys2Proof.Machine
end

section
/-!
What sends leave in the calendar, and updates of sluices with the sends they make.
-/

namespace Sys2Proof.Machine

/-! A send takes nothing out of the calendar. -/

theorem cal_launch (s : State) (lat : Nat) (i : Instr) : s.cal ⊆ (launch s lat i).cal := (schedules_launch s lat i).cal

theorem cal_launchOn (s : State) (pk key lat : Nat) (i : Instr) : s.cal ⊆ (launchOn s pk key lat i).cal := List.subset_append_left ..

theorem cal_answer (s : State) (m : Nat) (pl : Place) (e : AckTo) (st : BitVec 3) : s.cal ⊆ (answer s m pl e st).cal := by
  unfold answer
  split
  · exact List.Subset.refl _
  · exact cal_launch ..

theorem cal_launchCopy (s : State) (c : MCopy) (i : Nat) : s.cal ⊆ (launchCopy s c i).cal := by
  unfold launchCopy
  simp only
  split
  · exact cal_launchOn ..
  · exact cal_launch ..

theorem cal_launchAll (c : MCopy) (l : List Nat) (s : State) : s.cal ⊆ (l.foldl (fun s i => launchCopy s c i) s).cal := by
  induction l generalizing s with
  | nil => exact List.Subset.refl _
  | cons i l ih => exact List.Subset.trans (cal_launchCopy s c i) (ih _)

theorem cal_startCopies (s : State) (pk gr e : Nat) (g : Msg) (x : Group) : s.cal ⊆ (startCopies s pk gr e g x).cal := by
  unfold startCopies
  simp only
  have h : ∀ c l, s.cal ⊆ (List.foldl (fun s i => launchCopy s c i)
      (adjMod { s with tok := s.tok + 1 } (pkMod pk) fun y => { y with copies := y.copies ++ [c] }) l).cal := fun c l =>
    cal_launchAll c l (adjMod { s with tok := s.tok + 1 } (pkMod pk) fun y => { y with copies := y.copies ++ [c] })
  split
  · exact List.Subset.trans (h _ _) (cal_launch ..)
  · exact h _ _

theorem cal_sendEntry (s : State) (pk : Nat) (e : OutEntry) : s.cal ⊆ (sendEntry s pk e).cal := by
  unfold sendEntry
  simp only
  split
  · split
    · exact cal_launchOn ..
    · exact cal_answer ..
  · split
    · exact cal_launchOn ..
    · exact cal_answer ..
  · exact cal_launchOn ..
  · split
    · exact cal_startCopies ..
    · exact cal_answer ..
  · exact cal_launchOn ..

theorem cal_pumpList (pk : Nat) (l : List OutEntry) (s : State) (done : List OutEntry) : s.cal ⊆ (pumpList s pk done l).cal := by
  induction l generalizing s done with
  | nil => exact List.Subset.refl _
  | cons e l ih =>
    unfold pumpList
    split
    · refine List.Subset.trans ?_ (ih _ _)
      exact cal_sendEntry (adjPier s pk _) pk e
    · exact ih _ _

theorem cal_pumpOutbox (s : State) (pk : Nat) : s.cal ⊆ (pumpOutbox s pk).cal := by
  unfold pumpOutbox
  split
  · exact cal_pumpList ..
  · exact List.Subset.refl _

theorem cal_enqueue (s : State) (pk : Nat) (key : StreamKey) (body : OutBody) (actor : Nat) (runid : BitVec 32) (bundle : BitVec 12)
    (strand : Nat) (move w3 : Word) (unit : BitVec 5) (slot : BitVec 2) (after : List Nat) :
    s.cal ⊆ (enqueue s pk key body actor runid bundle strand move w3 unit slot after).cal :=
  cal_pumpOutbox (adjPier { s with tok := s.tok + 1 } pk _) pk

/-! An outbox keeps the bodies of its entries. -/

/-- What the entries of an outbox carry is still carried by the second's. -/
def KeepsBodies (a b : List OutEntry) : Prop := ∀ e ∈ a, ∃ x ∈ b, x.body = e.body ∧ x.tok = e.tok

theorem KeepsBodies.trans {a b c : List OutEntry} (h : KeepsBodies a b) (k : KeepsBodies b c) : KeepsBodies a c := fun e he => by
  obtain ⟨x, hx, hb, ht⟩ := h e he
  obtain ⟨y, hy, hb', ht'⟩ := k x hx
  exact ⟨y, hy, hb'.trans hb, ht'.trans ht⟩

theorem keepsBodies_of_subset {a b : List OutEntry} (h : a ⊆ b) : KeepsBodies a b := fun e he => ⟨e, h he, rfl, rfl⟩

theorem keepsBodies_of_same {a b : List OutEntry} (h : SameEntries a b) : KeepsBodies a b := fun e he => by
  obtain ⟨x, hx, hb, ht, -⟩ := h.mem he
  exact ⟨x, hx, hb, ht⟩

/-! Updates of sluices, and sends. -/

/-- A pier without its sluices, its outbox and what the outbox has sent. -/
def Pier.noSluiceSend (p : Pier) : Pier := { p with sluices := [], outbox := [], pathLast := [] }

/-- The second state is the first after some updates of sluices and some sends. -/
structure SluiceSends (s t : State) : Prop where
  piers : ∀ pk, (getPier t pk).noSluiceSend = (getPier s pk).noSluiceSend
  mods : ∀ m, (getMod t m).noCopies = (getMod s m).noCopies
  cal : s.cal ⊆ t.cal
  bodies : ∀ pk, KeepsBodies (getPier s pk).outbox (getPier t pk).outbox
  rest : t.cycle = s.cycle ∧ t.agenda = s.agenda ∧ t.issue = s.issue ∧ t.torus = s.torus ∧ t.sites = s.sites ∧ t.jobs = s.jobs ∧
    t.walks = s.walks

theorem SluiceSends.refl (s : State) : SluiceSends s s :=
  ⟨fun _ => rfl, fun _ => rfl, List.Subset.refl _, fun _ => keepsBodies_of_subset (List.Subset.refl _), rfl, rfl, rfl, rfl, rfl, rfl, rfl⟩

theorem SluiceSends.trans {s t u : State} (h : SluiceSends s t) (k : SluiceSends t u) : SluiceSends s u := by
  obtain ⟨h1, h2, h3, h4, h5, h6, h7⟩ := h.rest
  obtain ⟨k1, k2, k3, k4, k5, k6, k7⟩ := k.rest
  exact ⟨fun pk => (k.piers pk).trans (h.piers pk), fun m => (k.mods m).trans (h.mods m), List.Subset.trans h.cal k.cal,
    fun pk => (h.bodies pk).trans (k.bodies pk), k1.trans h1, k2.trans h2, k3.trans h3, k4.trans h4, k5.trans h5, k6.trans h6, k7.trans h7⟩

theorem SetsSluices.sends {s t : State} (h : SetsSluices s t) : SluiceSends s t where
  piers pk := h.field Pier.noSluiceSend (fun _ => rfl) pk
  mods m := by rw [h.rest]; rfl
  cal := by rw [h.rest]; exact List.Subset.refl _
  bodies pk := by
    rw [h.field Pier.outbox fun _ => rfl]
    exact keepsBodies_of_subset (List.Subset.refl _)
  rest := by rw [h.rest]; exact ⟨rfl, rfl, rfl, rfl, rfl, rfl, rfl⟩

theorem SendsOnly.sluiceSends {s t : State} (h : SendsOnly s t) (hc : s.cal ⊆ t.cal)
    (hb : ∀ pk, KeepsBodies (getPier s pk).outbox (getPier t pk).outbox) : SluiceSends s t :=
  ⟨fun pk => (congrArg (fun p => { p with sluices := [] }) (h.piers pk) :), h.mods, hc, hb, h.rest⟩

theorem sluiceSends_enqueue (s : State) (pk : Nat) (key : StreamKey) (body : OutBody) (actor : Nat) (runid : BitVec 32) (bundle : BitVec 12)
    (strand : Nat) (move w3 : Word) (unit : BitVec 5) (slot : BitVec 2) (after : List Nat) :
    SluiceSends s (enqueue s pk key body actor runid bundle strand move w3 unit slot after) := by
  refine (sendsOnly_enqueue ..).sluiceSends (cal_enqueue ..) fun k => ?_
  by_cases hk : k = pk
  · subst hk
    exact (keepsBodies_of_subset (List.subset_append_left ..)).trans (keepsBodies_of_same (enqueue_outbox ..))
  · refine keepsBodies_of_same (Eq.trans ?_ (pumpOutbox_outbox ..))
    rw [getPier_adjPier_other _ _ _ _ hk]
    rfl

theorem sluiceSends_answer (s : State) (m : Nat) (pl : Place) (e : AckTo) (st : BitVec 3) : SluiceSends s (answer s m pl e st) :=
  (sendsOnly_answer ..).sluiceSends (cal_answer ..) fun pk => by
    rw [answer_outbox]
    exact keepsBodies_of_subset (List.Subset.refl _)

section
variable {s t : State} (h : SluiceSends s t)
include h

theorem SluiceSends.field {α : Type} (g : Pier → α) (hg : ∀ p, g p.noSluiceSend = g p) (pk : Nat) : g (getPier t pk) = g (getPier s pk) := by
  rw [← hg, h.piers, hg]
theorem SluiceSends.cycle : t.cycle = s.cycle := h.rest.1
theorem SluiceSends.issue : t.issue = s.issue := h.rest.2.2.1
theorem SluiceSends.getStrand (pk st : Nat) : getStrand t pk st = getStrand s pk st := h.field (fun p => pierStrand p st) (fun _ => rfl) pk
theorem SluiceSends.getActor (pk a : Nat) : getActor t pk a = getActor s pk a := h.field (fun p => pierActor p a) (fun _ => rfl) pk
theorem SluiceSends.curStrand : curStrand t = curStrand s := by
  rw [Machine.curStrand, h.issue, h.getStrand]
  rfl
theorem SluiceSends.parts (m : Nat) : (getMod t m).parts = (getMod s m).parts := (congrArg Module.parts (h.mods m) :)
theorem SluiceSends.jobOf (pk : Nat) : jobOf t pk = jobOf s pk := by rw [Machine.jobOf, getPart, h.parts]; rfl
theorem SluiceSends.codes : codes t = codes s := funext fun pk => h.field Pier.code (fun _ => rfl) pk
theorem SluiceSends.memories : memories t = memories s := by
  have hspad : ∀ pk, (getPier t pk).spad = (getPier s pk).spad := h.field Pier.spad fun _ => rfl
  have hhbm : ∀ m, (getMod t m).hbm = (getMod s m).hbm := fun m => (congrArg Module.hbm (h.mods m) :)
  have hsite : ∀ k, getSite t k = getSite s k := fun k => by simp [Machine.getSite, h.rest.2.2.2.2.1]
  simp only [Machine.memories, hspad, hhbm, hsite]
theorem SluiceSends.sameMemory : Claims.SameMemory s t := sameMemory_of h.memories h.codes

end

theorem sluiceSends_setSluice (s : State) (pk n : Nat) (x : Sluice) : SluiceSends s (setSluice s pk n x) := (setsSluices_setSluice ..).sends

theorem getSluice_enqueue (s : State) (pk : Nat) (key : StreamKey) (body : OutBody) (actor : Nat) (runid : BitVec 32) (bundle : BitVec 12)
    (strand : Nat) (move w3 : Word) (unit : BitVec 5) (slot : BitVec 2) (after : List Nat) (k n : Nat) :
    getSluice (enqueue s pk key body actor runid bundle strand move w3 unit slot after) k n = getSluice s k n := (sendsOnly_enqueue ..).getSluice k n

/-- What is put into an outbox is carried by it. -/
theorem enqueue_carries (s : State) (pk : Nat) (key : StreamKey) (body : OutBody) (actor : Nat) (runid : BitVec 32) (bundle : BitVec 12)
    (strand : Nat) (move w3 : Word) (unit : BitVec 5) (slot : BitVec 2) (after : List Nat) :
    ∃ e ∈ (getPier (enqueue s pk key body actor runid bundle strand move w3 unit slot after) pk).outbox, e.body = body ∧ e.tok = s.tok := by
  obtain ⟨e, he, hb, ht, -⟩ := (enqueue_outbox s pk key body actor runid bundle strand move w3 unit slot after).mem
    (List.mem_append_right _ (List.mem_singleton_self _))
  exact ⟨e, he, hb, ht⟩

theorem enqueue_length (s : State) (pk : Nat) (key : StreamKey) (body : OutBody) (actor : Nat) (runid : BitVec 32) (bundle : BitVec 12)
    (strand : Nat) (move w3 : Word) (unit : BitVec 5) (slot : BitVec 2) (after : List Nat) :
    (getPier (enqueue s pk key body actor runid bundle strand move w3 unit slot after) pk).outbox.length = (getPier s pk).outbox.length + 1 := by
  rw [← (enqueue_outbox s pk key body actor runid bundle strand move w3 unit slot after).length, List.length_append]
  rfl

/-! Notices of a home (R61). -/

/-- The notice of member `j` of a home. -/
def noticeOf (s : State) (pk n j : Nat) : SlAdd :=
  { mod := pkMod pk, pier := pkLp (fget (getSluice s pk n).memberPk j pk), job := jobOf s pk, sl := BitVec.ofNat 9 n, form := 2,
    member := BitVec.ofNat 6 j, add := 0, cancelled := false, frm := .nobody }

/-- A notice entered: it is owed once less. -/
def noticed (s : State) (pk n j : Nat) : State :=
  let x := getSluice s pk n
  enqueue (setSluice s pk n { x with owed := fset x.owed j (fget x.owed j 0 - 1) }) pk (.toPier 63 (pkMod pk) (pkLp (fget x.memberPk j pk)))
    (.add (noticeOf s pk n j)) 63 0 0 0 x.action (BitVec.ofNat 64 n) 10

theorem enterNotices_cons (s : State) (pk n j : Nat) (l : List Nat) : enterNotices s pk n (j :: l) =
    if fget (getSluice s pk n).owed j 0 = 0 ∨ outFull (getPier s pk) = true then enterNotices s pk n l
    else enterNotices (noticed s pk n j) pk n l := rfl

theorem sluiceSends_noticed (s : State) (pk n j : Nat) : SluiceSends s (noticed s pk n j) :=
  (sluiceSends_setSluice ..).trans (sluiceSends_enqueue ..)

theorem getSluice_noticed (s : State) (pk n j : Nat) : getSluice (noticed s pk n j) pk n =
    { getSluice s pk n with owed := fset (getSluice s pk n).owed j (fget (getSluice s pk n).owed j 0 - 1) } :=
  (getSluice_enqueue ..).trans (getSluice_setSluice_same ..)

theorem getSluice_noticed_other (s : State) (pk n j : Nat) {k i : Nat} (h : ¬(k = pk ∧ i = n)) :
    getSluice (noticed s pk n j) k i = getSluice s k i := (getSluice_enqueue ..).trans (getSluice_setSluice_other _ _ _ _ h)

/-- Notices change what a home owes alone. -/
theorem enterNotices_frame (pk n : Nat) (l : List Nat) (s : State) : SluiceSends s (enterNotices s pk n l) ∧
    (∃ o, getSluice (enterNotices s pk n l) pk n = { getSluice s pk n with owed := o }) ∧
    ∀ k i, ¬(k = pk ∧ i = n) → getSluice (enterNotices s pk n l) k i = getSluice s k i := by
  induction l generalizing s with
  | nil => exact ⟨.refl s, ⟨_, rfl⟩, fun _ _ _ => rfl⟩
  | cons j l ih =>
    rw [enterNotices_cons]
    split
    · exact ih s
    · obtain ⟨hs, ⟨o, ho⟩, hk⟩ := ih (noticed s pk n j)
      refine ⟨(sluiceSends_noticed s pk n j).trans hs, ⟨o, ?_⟩, fun k i h => (hk k i h).trans (getSluice_noticed_other s pk n j h)⟩
      rw [ho, getSluice_noticed]

/-- With room for all of them every notice that is owed enters the outbox. -/
theorem enterNotices_enters (pk n : Nat) (l : List Nat) (s : State) (hl : l.Nodup) (hroom : (getPier s pk).outbox.length + l.length ≤ 64)
    {j : Nat} (hj : j ∈ l) (ho : fget (getSluice s pk n).owed j 0 ≠ 0) :
    ∃ e ∈ (getPier (enterNotices s pk n l) pk).outbox, e.body = .add (noticeOf s pk n j) := by
  induction l generalizing s with
  | nil => cases hj
  | cons i l ih =>
    rw [List.nodup_cons] at hl
    rw [List.length_cons] at hroom
    have hfull : outFull (getPier s pk) = false := by
      rw [outFull, decide_eq_false_iff_not]
      omega
    rw [enterNotices_cons, hfull]
    obtain rfl | hj := List.mem_cons.mp hj
    · rw [if_neg (by simp [ho])]
      obtain ⟨e, he, hb, -⟩ := enqueue_carries (setSluice s pk n { getSluice s pk n with
        owed := fset (getSluice s pk n).owed j (fget (getSluice s pk n).owed j 0 - 1) }) pk
        (.toPier 63 (pkMod pk) (pkLp (fget (getSluice s pk n).memberPk j pk))) (.add (noticeOf s pk n j)) 63 0 0 0 (getSluice s pk n).action
        (BitVec.ofNat 64 n) 10 0 []
      obtain ⟨x, hx, hxb, -⟩ := (enterNotices_frame pk n l (noticed s pk n j)).1.bodies pk e he
      exact ⟨x, hx, hxb.trans hb⟩
    · split
      · exact ih s hl.2 (by omega) hj ho
      · have hlen : (getPier (noticed s pk n i) pk).outbox.length = (getPier s pk).outbox.length + 1 := by
          rw [noticed, enqueue_length, (setsSluices_setSluice ..).field Pier.outbox fun _ => rfl]
        have hne : j ≠ i := fun h => hl.1 (h ▸ hj)
        obtain ⟨e, he, hb⟩ := ih (noticed s pk n i) hl.2 (by rw [hlen]; omega) hj (by
          rw [getSluice_noticed]
          exact (fget_fset_other _ _ _ _ _ hne).symm ▸ ho)
        refine ⟨e, he, hb.trans (congrArg OutBody.add ?_)⟩
        rw [noticeOf, noticeOf, getSluice_noticed, (sluiceSends_noticed s pk n i).jobOf]

/-! An arrive at the home (R61). -/

/-- A notice owed to each member but the home's own. -/
def owedOnce (me : Nat) (o : FMap Nat) (l : List Nat) : FMap Nat := l.foldl (fun o j => if j = me then o else fset o j (fget o j 0 + 1)) o

theorem le_owedOnce (me j : Nat) (l : List Nat) (o : FMap Nat) : fget o j 0 ≤ fget (owedOnce me o l) j 0 := by
  induction l generalizing o with
  | nil => exact Nat.le_refl _
  | cons i l ih =>
    refine Nat.le_trans ?_ (ih _)
    by_cases hi : i = me
    · simp [hi]
    · by_cases hj : j = i
      · subst hj
        simp [hi]
      · simp [hi, fget_fset_other _ _ _ _ _ hj]

theorem owedOnce_pos {me j : Nat} {l : List Nat} (hj : j ∈ l) (hne : j ≠ me) (o : FMap Nat) : fget (owedOnce me o l) j 0 ≠ 0 := by
  induction l generalizing o with
  | nil => cases hj
  | cons i l ih =>
    obtain rfl | hj := List.mem_cons.mp hj
    · have hle := le_owedOnce me j l (fset o j (fget o j 0 + 1))
      rw [fget_fset_same] at hle
      have hcons : owedOnce me o (j :: l) = owedOnce me (fset o j (fget o j 0 + 1)) l := congrArg (fun o => owedOnce me o l) (if_neg hne)
      rw [hcons]
      omega
    · exact ih hj _

/-- A home after an arrive, before its check. -/
def homeArrived (x : Sluice) (member frm : Nat) : Sluice :=
  { x with leads := x.leads.set member ((x.leads.getD member 0 + 1) % 4), memberPk := fset x.memberPk member frm }

/-- A home after a phase, with its notices owed. -/
def homeClosed (x : Sluice) : Sluice :=
  { x with leads := x.leads.map (· - 1), phase := x.phase + 1, owed := owedOnce (bits x.action 26 6) x.owed (List.range x.leads.length) }

section
variable {s : State} {pk n member frm : Nat} {c : Cause}

theorem homeArrive_eq : homeArrive s pk n member frm c = homeCheck (setSluice s pk n (homeArrived (getSluice s pk n) member frm)) pk n c := by
  rw [homeArrive, homeArrived, lset, lgetD_eq_getD]

theorem homeCheck_open {s : State} (h : 0 ∈ (getSluice s pk n).leads) : homeCheck s pk n c = s := by
  have hall : ((getSluice s pk n).leads.all fun l => decide (1 ≤ l)) ≠ true := by
    rw [ne_eq, List.all_eq_true]
    exact fun ha => absurd (ha 0 h) (by decide)
  rw [homeCheck]
  exact if_neg fun hh => hall hh.2

theorem homeCheck_closes {s : State} (h : 0 ∉ (getSluice s pk n).leads) (hne : (getSluice s pk n).leads ≠ [])
    (hp : Claims.PlainAction (getSluice s pk n)) :
    homeCheck s pk n c = enterNotices (setSluice s pk n (homeClosed (getSluice s pk n))) pk n (List.range (getSluice s pk n).leads.length) := by
  have hall : ((getSluice s pk n).leads.all fun l => decide (1 ≤ l)) = true := by
    rw [List.all_eq_true]
    exact fun l hl => decide_eq_true (Nat.pos_of_ne_zero fun h0 => h (h0 ▸ hl))
  rw [homeCheck]
  refine (if_pos ⟨hne, hall⟩).trans ?_
  exact congrArg (fun s => enterNotices s pk n _) (slAction_plain hp _ _ _)

variable (hp : Claims.PlainAction (getSluice s pk n))
include hp

/-- An arrive changes the home's sluice and sends its notices. -/
theorem homeArrive_frame (hm : member < (getSluice s pk n).leads.length) :
    let x := getSluice s pk n
    let l := x.leads.set member ((x.leads.getD member 0 + 1) % 4)
    let t := homeArrive s pk n member frm c
    SluiceSends s t ∧ (getSluice t pk n).count = x.count ∧
      (0 ∈ l → (getSluice t pk n).leads = l ∧ (getSluice t pk n).phase = x.phase) ∧
      (0 ∉ l → (getSluice t pk n).leads = l.map (· - 1) ∧ (getSluice t pk n).phase = x.phase + 1) ∧
      ∀ k i, ¬(k = pk ∧ i = n) → getSluice t k i = getSluice s k i := by
  intro x l t
  have hget : getSluice (setSluice s pk n (homeArrived x member frm)) pk n = homeArrived x member frm := getSluice_setSluice_same ..
  by_cases h0 : 0 ∈ l
  · have ht : t = setSluice s pk n (homeArrived x member frm) := homeArrive_eq.trans (homeCheck_open (by rw [hget]; exact h0))
    rw [ht, hget]
    exact ⟨sluiceSends_setSluice .., rfl, fun _ => ⟨rfl, rfl⟩, fun h => absurd h0 h, fun k i h => getSluice_setSluice_other _ _ _ _ h⟩
  · have hne : l ≠ [] := List.ne_nil_of_length_pos (by rw [List.length_set]; exact Nat.lt_of_le_of_lt (Nat.zero_le _) hm)
    have hclose := homeCheck_closes (s := setSluice s pk n (homeArrived x member frm)) (pk := pk) (n := n) (c := c) (by rw [hget]; exact h0)
      (by rw [hget]; exact hne) (by rw [hget]; exact hp)
    rw [hget, setSluice_setSluice] at hclose
    have ht : t = _ := homeArrive_eq.trans hclose
    obtain ⟨hs, ⟨o, ho⟩, hk⟩ := enterNotices_frame pk n (List.range (homeArrived x member frm).leads.length)
      (setSluice s pk n (homeClosed (homeArrived x member frm)))
    rw [getSluice_setSluice_same] at ho
    rw [ht, ho]
    exact ⟨(sluiceSends_setSluice ..).trans hs, rfl, fun h => absurd h h0, fun _ => ⟨rfl, rfl⟩,
      fun k i h => (hk k i h).trans (getSluice_setSluice_other _ _ _ _ h)⟩

/-- The last arrive of a phase sends a notice to every other member, with room for all. -/
theorem homeArrive_notices (hm : member < (getSluice s pk n).leads.length)
    (h0 : 0 ∉ (getSluice s pk n).leads.set member (((getSluice s pk n).leads.getD member 0 + 1) % 4))
    (hroom : (getPier s pk).outbox.length + (getSluice s pk n).leads.length ≤ 64) {j : Nat} (hj : j < (getSluice s pk n).leads.length)
    (hne : j ≠ bits (getSluice s pk n).action 26 6) :
    ∃ e ∈ (getPier (homeArrive s pk n member frm c) pk).outbox, e.body =
      .add { mod := pkMod pk, pier := pkLp (if j = member then frm else fget (getSluice s pk n).memberPk j pk), job := jobOf s pk,
             sl := BitVec.ofNat 9 n, form := 2, member := BitVec.ofNat 6 j, add := 0, cancelled := false, frm := .nobody } := by
  have hget : getSluice (setSluice s pk n (homeArrived (getSluice s pk n) member frm)) pk n = homeArrived (getSluice s pk n) member frm :=
    getSluice_setSluice_same ..
  have hlen : (homeArrived (getSluice s pk n) member frm).leads.length = (getSluice s pk n).leads.length := List.length_set ..
  have hclose := homeCheck_closes (s := setSluice s pk n (homeArrived (getSluice s pk n) member frm)) (pk := pk) (n := n) (c := c)
    (by rw [hget]; exact h0) (by rw [hget]; exact List.ne_nil_of_length_pos (by rw [hlen]; omega)) (by rw [hget]; exact hp)
  rw [hget, setSluice_setSluice, hlen] at hclose
  rw [homeArrive_eq, hclose]
  obtain ⟨e, he, hb⟩ := enterNotices_enters pk n (List.range (getSluice s pk n).leads.length)
    (setSluice s pk n (homeClosed (homeArrived (getSluice s pk n) member frm))) List.nodup_range
    (by rw [(setsSluices_setSluice ..).field Pier.outbox fun _ => rfl, List.length_range]; exact hroom) (List.mem_range.mpr hj)
    (by rw [getSluice_setSluice_same]; exact owedOnce_pos (by rw [hlen]; exact List.mem_range.mpr hj) hne _)
  refine ⟨e, he, hb.trans (congrArg OutBody.add ?_)⟩
  rw [noticeOf, getSluice_setSluice_same, (sluiceSends_setSluice ..).jobOf]
  have hpk : fget (homeClosed (homeArrived (getSluice s pk n) member frm)).memberPk j pk =
      if j = member then frm else fget (getSluice s pk n).memberPk j pk := by
    split
    · rename_i hjm
      subst hjm
      exact fget_fset_same ..
    · rename_i hjm
      exact fget_fset_other _ _ _ _ _ hjm
  rw [hpk]

end

end Sys2Proof.Machine
end

section
/-!
SARV, SWAIT, SWAIT.ph and SGET, and the faults of sl (O33).
-/

namespace Sys2Proof.Machine

/-! A result on its way (R79). -/

/-- A strand whose unit awaits a result. -/
def awaiting (tok u : Nat) (r : Value) (x : Strand) : Strand := { x with
  res := fset (x.res.filter fun e => !(e.1 / 4 == 0x20 + u)) (0x80 + 4 * u) (.pending tok),
  pend := x.pend ++ [{ tok, unit := u, r := some r, h := none, create := none, seed := false, sample := none }] }

section
variable (s : State) (u lat : Nat) (r : Value)

theorem getPier_later {α : Type} (g : Pier → α) (hg : ∀ p l, g { p with strands := l } = g p) (pk : Nat) :
    g (getPier (Claims.later s u lat r none) pk) = g (getPier s pk) :=
  getPier_adjCur g hg { s with tok := s.tok + 1 } (awaiting s.tok u r) pk

theorem getSluice_later (pk n : Nat) : getSluice (Claims.later s u lat r none) pk n = getSluice s pk n :=
  getPier_later s u lat r (fun p => pierSluice p n) (fun _ _ => rfl) pk

theorem getActor_later (pk n : Nat) : getActor (Claims.later s u lat r none) pk n = getActor s pk n :=
  getPier_later s u lat r (fun p => pierActor p n) (fun _ _ => rfl) pk

theorem memories_later : memories (Claims.later s u lat r none) = memories s := by
  rw [Claims.later, memories_schedule, memories_adjCur]
  rfl

theorem codes_later : codes (Claims.later s u lat r none) = codes s := by
  rw [Claims.later, codes_schedule, codes_adjCur]
  rfl

theorem curStrand_later : curStrand (Claims.later s u lat r none) = awaiting s.tok u r (curStrand s) :=
  curStrand_adjCur { s with tok := s.tok + 1 } (awaiting s.tok u r)

theorem wait_later (pk st : Nat) : (getStrand (Claims.later s u lat r none) pk st).wait = (getStrand s pk st).wait := by
  by_cases h : pk = s.issue.pk ∧ st = s.issue.strand
  · obtain ⟨rfl, rfl⟩ := h
    exact (congrArg Strand.wait (curStrand_later s u lat r) :)
  · exact congrArg Strand.wait (getStrand_adjCur_other { s with tok := s.tok + 1 } (awaiting s.tok u r) pk st h)

end

/-! SARV (R346). -/

/-- The state after a SARV that arrives has made its result. -/
def arriving (s : State) (x : Sluice) : State := Claims.later s 10 2 (Value.ofWord (sarvPhase x)) none

/-- The result of an arrive is under way. -/
theorem arriving_result {s t : State} {x : Sluice} (h : SluiceSends (arriving s x) t) :
    (∃ p ∈ (curStrand t).pend, p.tok = s.tok ∧ p.unit = 10 ∧
      p.r = some (Value.ofWord (BitVec.ofNat 64 ((x.phase.toNat + slLead x + 1) % 4)))) ∧
    (s.cycle + 2, Instr.resultPortWrite s.issue.pk s.issue.strand 10 s.tok) ∈ t.cal := by
  refine ⟨?_, h.cal (List.mem_append_right _ (List.mem_singleton_self _))⟩
  rw [h.curStrand, arriving, curStrand_later]
  exact ⟨_, List.mem_append_right _ (List.mem_singleton_self _), rfl, rfl, rfl⟩

theorem arriving_sameMemory {s t : State} {x : Sluice} (h : SluiceSends (arriving s x) t) : Claims.SameMemory s t :=
  sameMemory_of (h.memories.trans (memories_later ..)) (h.codes.trans (codes_later ..))

theorem arriving_settles {s t : State} {x : Sluice} (hw : Claims.NoWaits s s.issue.pk) (h : SluiceSends (arriving s x) t) (n : Nat) :
    slSettle t s.issue.pk n = t :=
  slSettle_noWaits fun st => by rw [h.getStrand, arriving, wait_later]; exact wait_of_noWaits hw st

/-- The strand of a SARV that blocks. -/
def blocking (s : State) (n : Nat) (move : Word) (x : Strand) : Strand := { x with
  res := fset (clearUnit x 10).res (portIx 10 0) (.pending s.tok),
  pend := x.pend ++ [{ tok := s.tok, unit := 10, r := none, h := none, create := none, seed := false, sample := none }],
  wait := .sarv n s.issue.addr move s.issue.slot }

theorem sarvHeld_not {s : State} {a : Value} (hg : gmEntries s = [])
    (h : slMode (getSluice s s.issue.pk (slIx a)) ≠ 3 ∨ slLead (getSluice s s.issue.pk (slIx a)) = 3 ∨ (curPier s).outbox.length < 64)
    (t b : Value) : sarvHeld s t a b = false := by
  have hout : (curPier s).outbox.length < 64 → outShut s = false := fun ho => by
    have hf : outFull (curPier s) = false := decide_eq_false (Nat.not_le_of_lt ho)
    rw [outShut, hf, Bool.false_and]
  simp only [sarvHeld, gmAwaiting, hg, List.any_nil, Bool.false_or]
  obtain h | h | h := h
  · simp [h]
  · simp [h]
  · simp [hout h]

section
variable {s : State} {m : Mv} {t a : Value} (h : Claims.Fires s m t) (hp : Claims.Port s .slA a) (ht : t.poison = false)
  (ha : a.poison = false) (hal : Claims.SlAllowed s (slIx a)) (hm : 2 ≤ slMode (getSluice s s.issue.pk (slIx a)))
  (hh : sarvHeld s t a Value.zero = false)
include h hp ht ha hal hm hh

/-- A SARV that is not held, in a barrier mode. -/
theorem sarv_makes : exec (.sarv m) s = .next (sarvDo (cleared s 10) (slIx a) t) :=
  congrArg Host.Outcome.next (slTrigger_ok (allowed := fun x => decide (2 ≤ slMode x)) h hp ht ha hal (decide_eq_true hm) hh rfl)

theorem sarv_arrives (hl : slLead (getSluice s s.issue.pk (slIx a)) < 3) (hg : gmHere s = []) :
    exec (.sarv m) s = .next (slSettle (sarvArrive (arriving s (getSluice s s.issue.pk (slIx a))) s.issue.pk s.issue.strand (slIx a) s.issue.addr
      (moveWord s t) s.issue.slot) s.issue.pk (slIx a)) := by
  rw [sarv_makes h hp ht ha hal hm hh, sarvDo]
  simp only [cleared_issue, getSluice_cleared, gmHereIn_cleared]
  rw [if_neg (not_or.mpr ⟨Nat.ne_of_lt hl, by rw [gmHereIn_nothing hg]; decide⟩), pendResult_cleared]
  rfl

theorem sarv_blocks (hb : slLead (getSluice s s.issue.pk (slIx a)) = 3 ∨
      gmHereIn s (sarvScope s (getSluice s s.issue.pk (slIx a))) = true) :
    exec (.sarv m) s = .next (adjCur { s with tok := s.tok + 1 } (blocking s (slIx a) (moveWord s t))) := by
  rw [sarv_makes h hp ht ha hal hm hh, sarvDo]
  have hscope : sarvScope (cleared s 10) (getSluice s s.issue.pk (slIx a)) = sarvScope s (getSluice s s.issue.pk (slIx a)) := by
    rw [sarvScope, curLp_cleared, sarvScope]
  simp only [cleared_issue, getSluice_cleared, gmHereIn_cleared, hscope]
  rw [if_pos hb]
  exact congrArg Host.Outcome.next (adjCur_adjCur { s with tok := s.tok + 1 } (fun x => clearUnit x 10) fun y =>
    { pendPort y (portIx 10 0) s.tok true with
      pend := y.pend ++ [{ tok := s.tok, unit := 10, r := none, h := none, create := none, seed := false, sample := none }],
      wait := .sarv (slIx a) s.issue.addr (moveWord s t) s.issue.slot })

end

/-- A member's arrive: counted, and on its way to the home. -/
theorem sarvArrive_member {s : State} {n : Nat} {x : Sluice} (hx : getSluice s s.issue.pk n = x) (hm : slMode x = 3) (move : Word) :
    ∃ t, sarvArrive (arriving s x) s.issue.pk s.issue.strand n s.issue.addr move s.issue.slot = t ∧ SluiceSends (arriving s x) t ∧
      (getSluice t s.issue.pk n).count = x.count + 1 ∧
      ∃ e ∈ (getPier t s.issue.pk).outbox, e.body =
        .add { mod := pkMod s.issue.pk, pier := bits x.action 32 10, job := jobOf s s.issue.pk, sl := BitVec.ofNat 9 n,
               form := 1, member := BitVec.ofNat 6 (bits x.action 26 6), add := 0, cancelled := false, frm := .nobody,
               graph := some (curActor s).graph } := by
  refine ⟨_, rfl, ?_⟩
  have hget : getSluice (arriving s x) s.issue.pk n = x := (getSluice_later ..).trans hx
  have hset : SluiceSends (arriving s x) (setSluice (arriving s x) s.issue.pk n { x with count := x.count + 1 }) := sluiceSends_setSluice ..
  have hgraph : (getActor (arriving s x) s.issue.pk (getStrand (arriving s x) s.issue.pk s.issue.strand).actor.toNat).graph =
      (curActor s).graph := by
    have hstrand : (getStrand (arriving s x) s.issue.pk s.issue.strand).actor = (curStrand s).actor :=
      (congrArg Strand.actor (curStrand_later s 10 2 (Value.ofWord (sarvPhase x))) :)
    rw [hstrand, arriving, getActor_later]
    rfl
  have hjob : jobOf (arriving s x) s.issue.pk = jobOf s s.issue.pk := rfl
  simp only [sarvArrive, hget]
  rw [if_neg (by rw [hm]; decide), hgraph, hjob]
  refine ⟨hset.trans (sluiceSends_enqueue ..), ?_, ?_⟩
  · rw [getSluice_enqueue, getSluice_setSluice_same]
  · obtain ⟨e, he, hb, -⟩ := enqueue_carries (setSluice (arriving s x) s.issue.pk n { x with count := x.count + 1 }) s.issue.pk
      (.toPier (getStrand (arriving s x) s.issue.pk s.issue.strand).actor.toNat
        (pkMod s.issue.pk) (bits x.action 32 10))
      (.add { mod := pkMod s.issue.pk, pier := bits x.action 32 10, job := jobOf s s.issue.pk, sl := BitVec.ofNat 9 n,
              form := 1, member := BitVec.ofNat 6 (bits x.action 26 6), add := 0, cancelled := false, frm := .nobody,
              graph := some (curActor s).graph })
      (getStrand (arriving s x) s.issue.pk s.issue.strand).actor.toNat
      (getStrand (arriving s x) s.issue.pk s.issue.strand).runid s.issue.addr
      s.issue.strand move (BitVec.ofNat 64 n) 10 s.issue.slot []
    exact ⟨e, he, hb⟩

/-- An arrive at the home itself. -/
theorem sarvArrive_home {s : State} {n : Nat} {x : Sluice} (hx : getSluice s s.issue.pk n = x) (hm : slMode x = 2)
    (hme : bits x.action 26 6 < x.leads.length) (hpl : Claims.PlainAction x) (move : Word) :
    ∃ t, sarvArrive (arriving s x) s.issue.pk s.issue.strand n s.issue.addr move s.issue.slot = t ∧ SluiceSends (arriving s x) t ∧
      (getSluice t s.issue.pk n).count = x.count + 1 ∧
      let l := x.leads.set (bits x.action 26 6) ((x.leads.getD (bits x.action 26 6) 0 + 1) % 4)
      (0 ∈ l → (getSluice t s.issue.pk n).leads = l ∧ (getSluice t s.issue.pk n).phase = x.phase) ∧
      (0 ∉ l → (getSluice t s.issue.pk n).leads = l.map (· - 1) ∧ (getSluice t s.issue.pk n).phase = x.phase + 1) := by
  refine ⟨_, rfl, ?_⟩
  have hget : getSluice (arriving s x) s.issue.pk n = x := (getSluice_later ..).trans hx
  have hcount : getSluice (setSluice (arriving s x) s.issue.pk n { x with count := x.count + 1 }) s.issue.pk n = { x with count := x.count + 1 } :=
    getSluice_setSluice_same ..
  simp only [sarvArrive, hget]
  rw [if_pos hm]
  obtain ⟨hs, hc, hopen, hclose, -⟩ := homeArrive_frame (s := setSluice (arriving s x) s.issue.pk n { x with count := x.count + 1 })
    (pk := s.issue.pk) (n := n) (member := bits x.action 26 6) (frm := s.issue.pk)
    (c := { strand := s.issue.strand, runid := (getStrand (arriving s x) s.issue.pk s.issue.strand).runid, bundle := s.issue.addr }) (by rw [hcount]; exact hpl) (by rw [hcount]; exact hme)
  rw [hcount] at hc hopen hclose
  exact ⟨(sluiceSends_setSluice ..).trans hs, hc, hopen, hclose⟩

theorem sarvBarrierArrive : Claims.BarrierArrive := by
  intro s m t a h hp ht ha n x lead me result hal hg hw
  have hn : n = slIx a := slNo_eq a
  rw [hn] at hal
  have hx : x = getSluice s s.issue.pk (slIx a) := by rw [← hn]
  refine ⟨fun hm ho hl hh => ?_, fun hm hl hh hme hpl => ?_, fun hm hb => ?_⟩
  · obtain ⟨s', hs', hsend, hcount, hout⟩ := sarvArrive_member hx.symm hm (moveWord s t)
    have hmake := sarv_arrives h hp ht ha hal (by rw [← hx]; exact Nat.le_of_lt (Nat.lt_of_lt_of_eq (by decide) hm.symm))
      (sarvHeld_not hg (.inr (.inr ho)) ..) (by rw [← hx]; exact hl) hh
    rw [← hx, hs', arriving_settles hw hsend] at hmake
    refine ⟨s', hmake, ?_, arriving_sameMemory hsend, arriving_result hsend, ?_⟩
    · rw [hn]; exact hcount
    · rw [curPier, hsend.issue, hn]
      exact hout
  · obtain ⟨s', hs', hsend, hcount, hleads⟩ := sarvArrive_home hx.symm hm hme hpl (moveWord s t)
    have hmake := sarv_arrives h hp ht ha hal (by rw [← hx]; exact Nat.le_of_eq hm.symm)
      (sarvHeld_not hg (.inl (by rw [← hx]; exact fun h3 => absurd (h3.symm.trans hm) (by decide))) ..) (by rw [← hx]; exact hl) hh
    rw [← hx, hs', arriving_settles hw hsend] at hmake
    refine ⟨s', hmake, ?_, arriving_sameMemory hsend, arriving_result hsend, ?_⟩
    · rw [hn]; exact hcount
    · rw [hn]; exact hleads
  · have hm2 : 2 ≤ slMode x := hm.elim (fun h2 => Nat.le_of_eq h2.symm) fun h3 => Nat.le_of_lt (Nat.lt_of_lt_of_eq (by decide) h3.symm)
    have hheld : sarvHeld s t a Value.zero = false := sarvHeld_not hg (.inr (hb.imp (by rw [← hx]; exact fun hl => hl) fun hh => hh.2)) ..
    have hmake := sarv_blocks h hp ht ha hal (by rw [← hx]; exact hm2) hheld (by rw [← hx]; exact hb.imp_right fun hh => hh.1)
    refine ⟨_, hmake, fun pk k => ?_, ?_, ?_, ?_⟩
    · exact getPier_adjCur (fun p => pierSluice p k) (fun _ _ => rfl) { s with tok := s.tok + 1 } _ pk
    · rw [curStrand_adjCur, hn]
      exact ⟨_, _, _, rfl⟩
    · rw [curStrand_adjCur]
      exact fget_fset_same ..
    · exact sameMemory_of (memories_adjCur ..) (codes_adjCur ..)

/-! Waits and samples (R62, R347, R348). -/

/-- Without a hold a local operation that passes its checks is made. -/
theorem frame_startWait (s : State) (w : Wait) : Claims.Frame s (startWait (cleared s 10) w) 10 ∧
    (curStrand (startWait (cleared s 10) w)).wait = w := by
  rw [startWait, adjCur_cleared]
  refine ⟨frame_of_strand rfl (sameRegs_update ..) (fun i hi => resPort_clear_other (curStrand s) 10 i hi) ⟨rfl, rfl, rfl, rfl, rfl, rfl⟩, ?_⟩
  rw [curStrand_adjCur]

/-- The strand of a SGET: its port waits, and its item is to be sampled. -/
def sampling (s : State) (n item : Nat) (x : Strand) : Strand :=
  { x with
    res := fset (clearUnit x 10).res (portIx 10 0) (.pending s.tok),
    pend := x.pend ++ [{ tok := s.tok, unit := 10, r := none, h := none, create := none, seed := false, sample := some (n, item) }] }

theorem waitOver_sluice (x : Sluice) (n : Nat) (c : BitVec 32) : waitOver x (.sluice n c) = true ↔ Claims.reached x.count c := by
  rw [waitOver, decide_eq_true_iff, Claims.reached]

/-- The waits of a pier at the end of a cycle. -/
theorem endWaits_over (p : Pier) {e : Nat × Strand} (he : e ∈ p.strands) {n : Nat} (hn : waitSluice e.2.wait = some n) :
    (e.1, if waitOver (pierSluice p n) e.2.wait = true then { e.2 with wait := .none } else e.2) ∈ (endWaits p).strands := by
  refine List.mem_map.mpr ⟨e, he, ?_⟩
  simp only [hn]
  split <;> rfl

theorem endWaits_none (p : Pier) {e : Nat × Strand} (he : e ∈ p.strands) (hn : e.2.wait = .none) : e ∈ (endWaits p).strands :=
  List.mem_map.mpr ⟨e, he, by simp only [hn, waitSluice]⟩

theorem endWaits_strand (p : Pier) {e : Nat × Strand} (he : e ∈ p.strands) : ∃ y, (e.1, y) ∈ (endWaits p).strands ∧ y = { e.2 with wait := y.wait } ∧
      match e.2.wait with
      | .sluice k c => (Claims.reached (pierSluice p k).count c → y.wait = .none) ∧
        (¬Claims.reached (pierSluice p k).count c → y.wait = e.2.wait)
      | .phase k ph => y.wait = if (pierSluice p k).phase = ph then .none else e.2.wait
      | w => y.wait = w := by
  cases hw : e.2.wait with
  | none => exact ⟨_, endWaits_none p he hw, rfl, hw⟩
  | sluice k c =>
    have hmem := endWaits_over p he (n := k) (by rw [hw]; rfl)
    rw [hw] at hmem
    by_cases hr : Claims.reached (pierSluice p k).count c
    · rw [if_pos ((waitOver_sluice ..).mpr hr)] at hmem
      exact ⟨_, hmem, rfl, fun _ => rfl, fun h => absurd hr h⟩
    · rw [if_neg fun h => hr ((waitOver_sluice ..).mp h)] at hmem
      exact ⟨_, hmem, rfl, fun h => absurd h hr, fun _ => hw⟩
  | phase k ph =>
    have hmem := endWaits_over p he (n := k) (by rw [hw]; rfl)
    rw [hw] at hmem
    by_cases hr : (pierSluice p k).phase = ph
    · rw [if_pos (show waitOver (pierSluice p k) (.phase k ph) = true from beq_iff_eq.mpr hr)] at hmem
      exact ⟨_, hmem, rfl, (if_pos hr).symm⟩
    · rw [if_neg (show ¬waitOver (pierSluice p k) (.phase k ph) = true from fun h => hr (beq_iff_eq.mp h))] at hmem
      exact ⟨_, hmem, rfl, hw.trans (if_neg hr).symm⟩
  | sarv k b w i =>
    have hmem := endWaits_over p he (n := k) (by rw [hw]; rfl)
    rw [hw] at hmem
    exact ⟨_, hmem, rfl, hw⟩

theorem sluiceWaitsAndReads : Claims.SluiceWaitsAndReads := by
  intro s m t a h hp ht ha n x hal
  have hn : n = slIx a := slNo_eq a
  rw [hn] at hal
  refine ⟨fun hm => ?_, ?_, fun p e he => endWaits_strand p he, ?_⟩
  · have hmode : slMode (getSluice s s.issue.pk (slIx a)) ≠ 0 := by rw [← hn]; exact hm
    refine ⟨_, congrArg Host.Outcome.next (slTrigger_ok (allowed := fun x => slMode x != 0) h hp ht ha hal (bne_iff_ne.mpr hmode) rfl rfl), ?_⟩
    rw [hn]
    exact frame_startWait ..
  · refine ⟨_, congrArg Host.Outcome.next (slTrigger_ok (allowed := fun _ => true) h hp ht ha hal rfl rfl rfl), ?_⟩
    rw [hn]
    exact frame_startWait ..
  · have hmake : exec (.sget m) s = .next (schedule (adjCur { s with tok := s.tok + 1 } (sampling s n ((vsc t).toNat % 4))) (s.cycle + 2)
        (.resultPortWrite s.issue.pk s.issue.strand 10 s.tok)) := by
      refine congrArg Host.Outcome.next ((slTrigger_ok (allowed := fun _ => true) h hp ht ha hal rfl rfl rfl).trans ?_)
      rw [hn]
      exact congrArg (fun x => schedule x (s.cycle + 2) (.resultPortWrite s.issue.pk s.issue.strand 10 s.tok))
        (adjCur_adjCur { s with tok := s.tok + 1 } (fun x => clearUnit x 10) fun y => { pendPort y (portIx 10 0) s.tok true with
          pend := y.pend ++ [{ tok := s.tok, unit := 10, r := none, h := none, create := none, seed := false,
                               sample := some (slIx a, (vsc t).toNat % 4) }] })
    have hcur : curStrand (schedule (adjCur { s with tok := s.tok + 1 } (sampling s n ((vsc t).toNat % 4))) (s.cycle + 2)
        (.resultPortWrite s.issue.pk s.issue.strand 10 s.tok)) = sampling s n ((vsc t).toNat % 4) (curStrand s) :=
      curStrand_adjCur { s with tok := s.tok + 1 } _
    refine ⟨_, hmake, ?_, ?_, ?_, List.mem_append_right _ (List.mem_singleton_self _)⟩
    · exact frame_of_strand (f := sampling s n ((vsc t).toNat % 4)) rfl (sameRegs_update ..)
        (fun i hi => (fget_fset_other _ _ _ _ _ fun hh => hi (by rw [hh]; rfl)).trans (resPort_clear_other (curStrand s) 10 i hi))
        ⟨rfl, rfl, rfl, rfl, rfl, rfl⟩
    · rw [hcur]
      exact fget_fset_same ..
    · rw [hcur]
      refine ⟨_, List.mem_append_right _ (List.mem_singleton_self _), rfl, rfl, ?_⟩
      simp [Claims.fld]

/-! The faults (R342, R343). -/

theorem sarmFault_cleared (s : State) (n : Nat) (t : Word) : sarmFault (cleared s 10) s.issue.pk n t = sarmFault s s.issue.pk n t := by
  rw [sarmFault, getSluice_cleared, getPier_cleared s 10 leadsUsed fun _ _ => rfl]
  rfl

theorem sluiceFaults : Claims.SluiceFaults := by
  intro s m t a h hp ht ha n x hg ho
  have hn : n = slIx a := slNo_eq a
  have hheld : slHeld s t a Value.zero = false := slHeld_covered (by rw [hg]; exact fun _ he => absurd he List.not_mem_nil) ..
  have hsarv : sarvHeld s t a Value.zero = false := sarvHeld_not hg (.inr (.inr ho)) ..
  have hx : x = getSluice s s.issue.pk (slIx a) := by rw [← hn]
  rw [hn]
  refine ⟨fun hal i hi => ?_, fun hal => ⟨fun hm => ?_, fun hm => ?_, fun hm => ?_, fun hm hl => ?_, ?_⟩⟩
  · simp only [List.mem_cons, List.not_mem_nil, or_false] at hi
    obtain rfl | rfl | rfl | rfl | rfl | rfl | rfl := hi
    · exact congrArg Host.Outcome.next (slTrigger_service h hp ht ha hal hheld)
    · exact congrArg Host.Outcome.next (slTrigger_service h hp ht ha hal hheld)
    · exact congrArg Host.Outcome.next (slTrigger_service h hp ht ha hal hheld)
    · exact congrArg Host.Outcome.next (slTrigger_service h hp ht ha hal hsarv)
    · exact congrArg Host.Outcome.next (slTrigger_service h hp ht ha hal rfl)
    · exact congrArg Host.Outcome.next (slTrigger_service h hp ht ha hal rfl)
    · exact congrArg Host.Outcome.next (slTrigger_service h hp ht ha hal rfl)
  · rw [hx] at hm
    exact congrArg Host.Outcome.next (slTrigger_mode (allowed := fun x => slMode x == 1) h hp ht ha hal (beq_eq_false_iff_ne.mpr hm) hheld)
  · rw [hx] at hm
    exact congrArg Host.Outcome.next (slTrigger_mode (allowed := fun x => decide (2 ≤ slMode x)) h hp ht ha hal
      (decide_eq_false (Nat.not_le_of_lt hm)) hsarv)
  · rw [hx] at hm
    exact congrArg Host.Outcome.next (slTrigger_mode (allowed := fun x => slMode x != 0) h hp ht ha hal (bne_eq_false_iff_eq.mpr hm) rfl)
  · rw [hx] at hm hl
    have hany : ((getSluice s s.issue.pk (slIx a)).leads.any (· != 0)) = true := by
      obtain ⟨l, hmem, hne⟩ := hl
      exact List.any_eq_true.mpr ⟨l, hmem, bne_iff_ne.mpr hne⟩
    have hmode : (slMode (getSluice s s.issue.pk (slIx a)) == 2) = true := beq_iff_eq.mpr hm
    exact congrArg Host.Outcome.next (slTrigger_mode (allowed := sarmAllowed) h hp ht ha hal (by rw [sarmAllowed, hany, hmode]; rfl) hheld)
  · intro cnt bad hl hT
    have hallow : sarmAllowed (getSluice s s.issue.pk (slIx a)) = true := by
      have hany : ((getSluice s s.issue.pk (slIx a)).leads.any (· != 0)) = false := by
        rw [List.any_eq_false, ← hx]
        intro l hmem
        rw [hl l hmem]
        decide
      rw [sarmAllowed, hany, Bool.and_false]
      rfl
    have hfault : ∀ {code : Nat} {w3 : Word}, sarmFault s s.issue.pk (slIx a) (vsc t) = some (code, w3) →
        exec (.sarm m) s = .next (raise s 10 code (moveWord s t) w3) := fun hf => by
      refine congrArg Host.Outcome.next (slTrigger_fault h hp ht ha hal hallow hheld ?_)
      show sarmDo (cleared s 10) (slIx a) t = _
      rw [sarmDo, cleared_issue, sarmFault_cleared, hf]
    have hT' : ¬bits (vsc t) 62 2 ≠ 2 := not_not_intro hT
    exact ⟨fun hb => hfault ((if_neg hT').trans (if_pos hb)),
      fun hb hu => hfault ((if_neg hT').trans ((if_neg hb).trans (if_pos (by rw [← hx]; exact hu))))⟩

/-- Settles O33: an arrive is an update of its sluice and a send, or blocks; a wait stands on the strand and a sample on its result. -/
theorem barriersAndWaits : Obligations.BarriersAndWaits := ⟨sarvBarrierArrive, sluiceWaitsAndReads, sluiceFaults⟩

end Sys2Proof.Machine
end

section
/-!
Messages of a pier's device (R46), and the releases of a pier (R60).
-/

namespace Sys2Proof.Machine

/-! What a device message leaves. -/

/-- A pier without its outbox, what the outbox has sent, and its actors. -/
def Pier.noDevice (p : Pier) : Pier := { p with outbox := [], pathLast := [], actors := [] }

/-- The second state is the first after some sends of a pier, which count as messages of its actors. -/
structure DeviceSends (s t : State) : Prop where
  piers : ∀ pk, (getPier t pk).noDevice = (getPier s pk).noDevice
  actors : ∀ pk n, getActor t pk n = { getActor s pk n with seq := (getActor t pk n).seq }
  mods : ∀ m, (getMod t m).noCopies = (getMod s m).noCopies
  cal : s.cal ⊆ t.cal
  bodies : ∀ pk, KeepsBodies (getPier s pk).outbox (getPier t pk).outbox
  rest : t.cycle = s.cycle ∧ t.agenda = s.agenda ∧ t.issue = s.issue ∧ t.torus = s.torus ∧ t.sites = s.sites ∧ t.jobs = s.jobs ∧
    t.walks = s.walks

theorem DeviceSends.refl (s : State) : DeviceSends s s :=
  ⟨fun _ => rfl, fun _ _ => rfl, fun _ => rfl, List.Subset.refl _, fun _ => keepsBodies_of_subset (List.Subset.refl _), rfl, rfl, rfl, rfl, rfl, rfl, rfl⟩

theorem DeviceSends.trans {s t u : State} (h : DeviceSends s t) (k : DeviceSends t u) : DeviceSends s u := by
  obtain ⟨h1, h2, h3, h4, h5, h6, h7⟩ := h.rest
  obtain ⟨k1, k2, k3, k4, k5, k6, k7⟩ := k.rest
  exact ⟨fun pk => (k.piers pk).trans (h.piers pk), fun pk n => by rw [k.actors pk n, h.actors pk n], fun m => (k.mods m).trans (h.mods m),
    List.Subset.trans h.cal k.cal, fun pk => (h.bodies pk).trans (k.bodies pk), k1.trans h1, k2.trans h2, k3.trans h3, k4.trans h4,
    k5.trans h5, k6.trans h6, k7.trans h7⟩

section
variable {s t : State} (h : DeviceSends s t)
include h

theorem DeviceSends.field {α : Type} (g : Pier → α) (hg : ∀ p, g p.noDevice = g p) (pk : Nat) : g (getPier t pk) = g (getPier s pk) := by
  rw [← hg, h.piers, hg]
theorem DeviceSends.cycle : t.cycle = s.cycle := h.rest.1
theorem DeviceSends.agenda : t.agenda = s.agenda := h.rest.2.1
theorem DeviceSends.issue : t.issue = s.issue := h.rest.2.2.1
theorem DeviceSends.getStrand (pk st : Nat) : getStrand t pk st = getStrand s pk st := h.field (fun p => pierStrand p st) (fun _ => rfl) pk
theorem DeviceSends.getSluice (pk n : Nat) : getSluice t pk n = getSluice s pk n := h.field (fun p => pierSluice p n) (fun _ => rfl) pk
theorem DeviceSends.parts (m : Nat) : (getMod t m).parts = (getMod s m).parts := (congrArg Module.parts (h.mods m) :)
theorem DeviceSends.jobOf (pk : Nat) : jobOf t pk = jobOf s pk := by rw [Machine.jobOf, getPart, h.parts]; rfl
theorem DeviceSends.codes : codes t = codes s := funext fun pk => h.field Pier.code (fun _ => rfl) pk
theorem DeviceSends.memories : memories t = memories s := by
  have hspad : ∀ pk, (getPier t pk).spad = (getPier s pk).spad := h.field Pier.spad fun _ => rfl
  have hhbm : ∀ m, (getMod t m).hbm = (getMod s m).hbm := fun m => (congrArg Module.hbm (h.mods m) :)
  have hsite : ∀ k, getSite t k = getSite s k := fun k => by simp [Machine.getSite, h.rest.2.2.2.2.1]
  simp only [Machine.memories, hspad, hhbm, hsite]
theorem DeviceSends.sameMemory : Claims.SameMemory s t := sameMemory_of h.memories h.codes

end

theorem deviceSends_of_sends {s t : State} (h : SendsOnly s t) (k : SluiceSends s t) : DeviceSends s t where
  piers pk := (congrArg (fun p => { p with actors := [] }) (h.piers pk) :)
  actors pk n := by rw [h.getActor]
  mods := h.mods
  cal := k.cal
  bodies := k.bodies
  rest := h.rest

theorem deviceSends_enqueue (s : State) (pk : Nat) (key : StreamKey) (body : OutBody) (actor : Nat) (runid : BitVec 32) (bundle : BitVec 12)
    (strand : Nat) (move w3 : Word) (unit : BitVec 5) (slot : BitVec 2) (after : List Nat) :
    DeviceSends s (enqueue s pk key body actor runid bundle strand move w3 unit slot after) :=
  deviceSends_of_sends (sendsOnly_enqueue ..) (sluiceSends_enqueue ..)

theorem deviceSends_answer (s : State) (m : Nat) (pl : Place) (e : AckTo) (st : BitVec 3) : DeviceSends s (answer s m pl e st) :=
  deviceSends_of_sends (sendsOnly_answer ..) (sluiceSends_answer ..)

theorem deviceSends_seq (s : State) (pk n : Nat) : DeviceSends s (adjActor s pk n fun a => { a with seq := a.seq + 1 }) where
  piers k := by
    by_cases hk : k = pk
    · subst hk
      rw [adjActor, getPier_adjPier_same]
      rfl
    · rw [adjActor, getPier_adjPier_other _ _ _ _ hk]
  actors k i := by
    by_cases hk : k = pk ∧ i = n
    · obtain ⟨rfl, rfl⟩ := hk
      rw [getActor_adjActor_same]
    · rw [getActor_adjActor_other _ _ _ _ _ _ hk]
  mods _ := rfl
  cal := List.Subset.refl _
  bodies k := by
    rw [outbox_adjActor]
    exact keepsBodies_of_subset (List.Subset.refl _)
  rest := ⟨rfl, rfl, rfl, rfl, rfl, rfl, rfl⟩

theorem deviceSends_sendDevice (s : State) (pk lp : Nat) (dst : BitVec 28) (cls prio kind : Nat) (graph : BitVec 12) (words : Nat)
    (pay : List Word) (flags : BitVec 3) (actor : Nat) (move w3 : Word) (unit : BitVec 5) :
    DeviceSends s (sendDevice s pk lp dst cls prio kind graph words pay flags actor move w3 unit) :=
  (deviceSends_seq ..).trans (deviceSends_enqueue ..)

/-- A device message stands in the outbox. -/
theorem sendDevice_carries (s : State) (pk lp : Nat) (dst : BitVec 28) (cls prio kind : Nat) (graph : BitVec 12) (words : Nat)
    (pay : List Word) (flags : BitVec 3) (actor : Nat) (move w3 : Word) (unit : BitVec 5) :
    Claims.InOutbox (sendDevice s pk lp dst cls prio kind graph words pay flags actor move w3 unit) pk
      (deviceMsg s pk lp dst cls prio kind graph words pay flags) := by
  obtain ⟨e, he, hb, -⟩ := enqueue_carries (adjActor s pk 63 fun a => { a with seq := a.seq + 1 }) pk (.toActor 63 dst)
    (.msg (deviceMsg s pk lp dst cls prio kind graph words pay flags)) actor 0 0 0 move w3 unit 0 []
  exact ⟨e, he, hb⟩

theorem DeviceSends.inOutbox {s t : State} (h : DeviceSends s t) {pk : Nat} {g : Msg} (hg : Claims.InOutbox s pk g) : Claims.InOutbox t pk g := by
  obtain ⟨e, he, hb⟩ := hg
  obtain ⟨x, hx, hxb, -⟩ := h.bodies pk e he
  exact ⟨x, hx, hxb.trans hb⟩

/-! Parts of an address (R32). -/

theorem toNat_addrWord (m lp a : Nat) : (addrWord m lp a).toNat = m % 4096 * 65536 + lp % 1024 * 64 + a % 64 := by
  simp only [addrWord, BitVec.toNat_append, BitVec.toNat_ofNat]
  rw [← Nat.shiftLeft_add_eq_or_of_lt (by omega), ← Nat.shiftLeft_add_eq_or_of_lt (by omega)]
  simp only [Nat.shiftLeft_eq]
  omega

theorem awMod_addrWord (m lp a : Nat) : awMod (addrWord m lp a) = m % 4096 := by
  rw [awMod, toNat_addrWord]
  omega

theorem awPier_addrWord (m lp a : Nat) : awPier (addrWord m lp a) = lp % 1024 := by
  rw [awPier, toNat_addrWord]
  omega

theorem awActor_addrWord (m lp a : Nat) : awActor (addrWord m lp a) = a % 64 := by
  rw [awActor, toNat_addrWord]
  omega

theorem ofNat_mod (w n k : Nat) (h : k = 2 ^ w) : BitVec.ofNat w (n % k) = BitVec.ofNat w n := by
  subst h
  exact BitVec.eq_of_toNat_eq (by simp)

/-- The module of the address in a word, and its pier. -/
theorem awMod_word (w : Word) : awMod (w.extractLsb' 0 28) = Claims.fld w 16 12 := by
  rw [awMod, Claims.fld, BitVec.extractLsb'_toNat, Nat.shiftRight_zero]
  omega

theorem awPier_word (w : Word) : awPier (w.extractLsb' 0 28) = Claims.fld w 6 10 := by
  rw [awPier, Claims.fld, BitVec.extractLsb'_toNat, Nat.shiftRight_zero]
  omega

/-! A release (R60). -/

/-- An entry of a matrix queue that a release of an actor with a key would release. -/
def unreleased (actor : Nat) (key : Option (BitVec 9)) (e : MEntry) : Bool :=
  !e.released && e.actor.toNat == actor && (match key with | none => true | some k => BitVec.extractLsb' 10 9 e.t == k)

theorem unreleased_iff (actor : Nat) (key : Option (BitVec 9)) (e : MEntry) : unreleased actor key e = true ↔
    e.released = false ∧ e.actor.toNat = actor ∧ ∀ k, key = some k → e.t.extractLsb' 10 9 = k := by
  cases key with
  | none => simp [unreleased]
  | some k => simp [unreleased, and_assoc]

/-- An entry released. -/
def setReleased (e f : MEntry) (cycle : Nat) : MEntry := if f.tok = e.tok then { f with released := true, at_ := cycle } else f

theorem mqRelease_eq (p : Pier) (cycle actor : Nat) (key : Option (BitVec 9)) : mqRelease p cycle actor key =
    match p.mq.find? (unreleased actor key) with
    | some e => ({ p with mq := p.mq.map fun f => setReleased e f cycle }, false)
    | none => if p.credits.length < 16 then ({ p with credits := p.credits ++ [⟨actor, key⟩] }, false) else (p, true) := rfl

section
variable {s : State} {pk n : Nat} {action : Word} {key : Option (BitVec 9)} {c : Cause}

/-- The report of a release that is discarded. -/
def releaseLost (s : State) (pk n actor : Nat) (c : Cause) : Deferred :=
  { pk, lp := actorLp s pk actor, actor, strand := c.strand, runid := c.runid, bundle := c.bundle, code := 0x10, unit := 0, slot := 0,
    w2 := 0, w3 := BitVec.ofNat 64 n, w5 := liveW5 s pk c.strand c.runid, notResident := false }

theorem slRelease_hits {e : MEntry} (hf : (getPier s pk).mq.find? (unreleased (bits action 54 6) key) = some e) : slRelease s pk n action key c =
    setPier s pk { getPier s pk with mq := (getPier s pk).mq.map fun f => setReleased e f s.cycle } := by
  simp [slRelease, mqRelease_eq, hf]

theorem slRelease_credits (hf : (getPier s pk).mq.find? (unreleased (bits action 54 6) key) = none) (hc : (getPier s pk).credits.length < 16) :
    slRelease s pk n action key c =
      setPier s pk { getPier s pk with credits := (getPier s pk).credits ++ [⟨bits action 54 6, key⟩] } := by
  simp [slRelease, mqRelease_eq, hf, hc]

theorem slRelease_full (hf : (getPier s pk).mq.find? (unreleased (bits action 54 6) key) = none) (hc : ¬(getPier s pk).credits.length < 16) :
    slRelease s pk n action key c = nowDo s (.deferredFaultReport (releaseLost s pk n (bits action 54 6) c)) := by
  simp only [slRelease, mqRelease_eq, hf, if_neg hc]
  rfl

end

theorem setPier_field {α : Type} (g : Pier → α) {s : State} {pk : Nat} {p : Pier} (hp : g p = g (getPier s pk)) (k : Nat) :
    g (getPier (setPier s pk p) k) = g (getPier s k) := by
  by_cases hk : k = pk
  · subst hk
    rw [getPier_setPier_same, hp]
  · rw [getPier_setPier_other _ _ _ _ hk]

/-- A release changes the queue and the credits of its pier alone. -/
theorem slRelease_field {α : Type} (g : Pier → α) (hg : ∀ p mq credits, g { p with mq, credits } = g p) (s : State) (pk n : Nat)
    (action : Word) (key : Option (BitVec 9)) (c : Cause) (k : Nat) :
    g (getPier (slRelease s pk n action key c) k) = g (getPier s k) := by
  cases hf : (getPier s pk).mq.find? (unreleased (bits action 54 6) key) with
  | some e =>
    rw [slRelease_hits hf]
    exact setPier_field g (hg (getPier s pk) _ (getPier s pk).credits) k
  | none =>
    by_cases hc : (getPier s pk).credits.length < 16
    · rw [slRelease_credits hf hc]
      exact setPier_field g (hg (getPier s pk) (getPier s pk).mq _) k
    · rw [slRelease_full hf hc]
      rfl

theorem codes_slRelease (s : State) (pk n : Nat) (action : Word) (key : Option (BitVec 9)) (c : Cause) :
    codes (slRelease s pk n action key c) = codes s := funext fun k => slRelease_field Pier.code (fun _ _ _ => rfl) s pk n action key c k

theorem getSluice_slRelease (s : State) (pk n : Nat) (action : Word) (key : Option (BitVec 9)) (c : Cause) (k i : Nat) :
    getSluice (slRelease s pk n action key c) k i = getSluice s k i := slRelease_field (fun p => pierSluice p i) (fun _ _ _ => rfl) ..

theorem getStrand_slRelease (s : State) (pk n : Nat) (action : Word) (key : Option (BitVec 9)) (c : Cause) (k i : Nat) :
    getStrand (slRelease s pk n action key c) k i = getStrand s k i := slRelease_field (fun p => pierStrand p i) (fun _ _ _ => rfl) ..

/-- What a release at a pier does. -/
theorem released_slRelease (s : State) (pk n : Nat) (action : Word) (key : Option (BitVec 9)) (c : Cause) :
    Claims.Released s (slRelease s pk n action key c) pk n (bits action 54 6) key c.bundle := by
  have hiff := unreleased_iff (bits action 54 6) key
  refine ⟨fun before e behind hmq he hbefore htok => ?_, fun hnone => ?_⟩
  · have hfind : (getPier s pk).mq.find? (unreleased (bits action 54 6) key) = some e :=
      List.find?_eq_some_iff_append.mpr ⟨(hiff e).mpr he, before, behind, hmq, fun f hf => by
        rw [Bool.not_eq_true']
        exact Bool.eq_false_iff.mpr fun h => hbefore f hf ((hiff f).mp h)⟩
    have hkeep : ∀ l : List MEntry, (∀ f ∈ l, f.tok ≠ e.tok) → l.map (fun f => setReleased e f s.cycle) = l := fun l hl =>
      (List.map_congr_left fun f hf => if_neg (hl f hf)).trans (List.map_id' l)
    rw [slRelease_hits hfind, getPier_setPier_same]
    refine ⟨?_, rfl⟩
    rw [hmq, List.map_append, List.map_cons, hkeep before fun f hf => htok f (List.mem_append_left _ hf),
      hkeep behind fun f hf => htok f (List.mem_append_right _ hf), setReleased, if_pos rfl]
  · have hfind : (getPier s pk).mq.find? (unreleased (bits action 54 6) key) = none :=
      List.find?_eq_none.mpr fun e he h => hnone e he ((hiff e).mp h)
    by_cases hc : (getPier s pk).credits.length < 16
    · rw [slRelease_credits hfind hc, getPier_setPier_same]
      exact ⟨rfl, fun _ => rfl, fun h => absurd hc (Nat.not_lt_of_le h)⟩
    · rw [slRelease_full hfind hc]
      exact ⟨rfl, fun h => absurd h hc, fun _ => ⟨rfl, _, List.mem_append_right _ (List.mem_singleton_self _), rfl, rfl, rfl, rfl, rfl⟩⟩

/-- A release is one of any states with the same queue and credits before and behind it. -/
theorem released_congr {s s' t t' : State} {pk n actor : Nat} {key : Option (BitVec 9)} {b : BitVec 12} (h : Claims.Released s t pk n actor key b)
    (hs : (getPier s' pk).mq = (getPier s pk).mq ∧ (getPier s' pk).credits = (getPier s pk).credits) (hc : s'.cycle = s.cycle)
    (ht : (getPier t' pk).mq = (getPier t pk).mq ∧ (getPier t' pk).credits = (getPier t pk).credits) (ha : t.agenda ⊆ t'.agenda) :
    Claims.Released s' t' pk n actor key b := by
  obtain ⟨hsm, hsc⟩ := hs
  obtain ⟨htm, htc⟩ := ht
  unfold Claims.Released at h ⊢
  simp only [hsm, hsc, htm, htc, hc]
  refine ⟨h.1, fun hn => ?_⟩
  obtain ⟨h1, h2, h3⟩ := h.2 hn
  refine ⟨h1, h2, fun hl => ?_⟩
  obtain ⟨h4, d, hd, hrest⟩ := h3 hl
  exact ⟨h4, d, ha hd, hrest⟩

end Sys2Proof.Machine
end

section
/-!
Posts, releases, adds and arrivals at sluices (O32).
-/

namespace Sys2Proof.Machine

/-! A firing of the run in hand (R59, R60). -/

section
variable {s : State} {m : Mv} {t a : Value} (h : Claims.Fires s m t) (hp : Claims.Port s .slA a) (ht : t.poison = false)
  (ha : a.poison = false) (hn : slIx a < 496) (hw : Claims.NoWaits s s.issue.pk) (hc : Claims.NothingCovered s)

/-- The sluice as a firing leaves it, before its action. -/
def afterFiring (s : State) (n : Nat) (c : BitVec 32) : State :=
  setSluice (cleared s 10) s.issue.pk n (Claims.fired { getSluice s s.issue.pk n with count := c } s.cycle)

theorem setsSluices_afterFiring (s : State) (n : Nat) (c : BitVec 32) : SetsSluices (cleared s 10) (afterFiring s n c) := setsSluices_setSluice ..

include h hp ht ha hn hc

/-- An add that reaches the target of an armed counter is the firing, its action, and what waits on the sluice. -/
theorem sadd_fires (hm : slMode (getSluice s s.issue.pk (slIx a)) = 1) (harm : (getSluice s s.issue.pk (slIx a)).armed = true)
    (hr : Claims.reached ((getSluice s s.issue.pk (slIx a)).count + (vsc t).extractLsb' 0 32) (getSluice s s.issue.pk (slIx a)).target)
    (hf : (getSluice s s.issue.pk (slIx a)).firedAt ≠ some s.cycle) :
    exec (.sadd m) s = .next (slSettle (slAction (afterFiring s (slIx a) ((getSluice s s.issue.pk (slIx a)).count + (vsc t).extractLsb' 0 32))
      s.issue.pk (slIx a) (getSluice s s.issue.pk (slIx a)).action ((getSluice s s.issue.pk (slIx a)).phase + 1)
      ((getSluice s s.issue.pk (slIx a)).count + (vsc t).extractLsb' 0 32) false (causeHere (cleared s 10))) s.issue.pk (slIx a)) := by
  have hx : getSluice (cleared s 10) s.issue.pk (slIx a) = getSluice s s.issue.pk (slIx a) := getSluice_cleared ..
  have hget := getSluice_setSluice_same (cleared s 10) s.issue.pk (slIx a)
    { getSluice s s.issue.pk (slIx a) with count := (getSluice s s.issue.pk (slIx a)).count + (vsc t).extractLsb' 0 32 }
  rw [sadd_makes h hp ht ha (.inl hn) hc hm, saddAt, slAdd, slUpdate, hx,
    slCheck_fires (by rw [hget]; exact hm) (by rw [hget]; exact harm) (by rw [hget]; exact hr) (by rw [hget]; exact hf), slFire_job hn,
    hget, setSluice_setSluice]
  rfl

end

theorem sluice_afterFiring (s : State) (n : Nat) (c : BitVec 32) :
    getSluice (afterFiring s n c) s.issue.pk n = Claims.fired { getSluice s s.issue.pk n with count := c } s.cycle := getSluice_setSluice_same ..

/-! A post (R60). -/

/-- The message of a post of a sluice. -/
def postMsg (s : State) (pk n : Nat) (action : Word) (phase : BitVec 2) (count : BitVec 32) : Msg :=
  deviceMsg s pk (actorLp s pk (bits action 54 6)) (addrWord (pkMod pk) (actorLp s pk (bits action 54 6)) (bits action 54 6)) (bits action 49 5)
    (bits action 47 2) 0 (getActor s pk (bits action 54 6)).graph 2
    [BitVec.ofNat 64 (n + phase.toNat * 2 ^ 16 + b2n false * 2 ^ 31), BitVec.ofNat 64 count.toNat] 0

theorem slPost_sends (s : State) (pk n : Nat) (action : Word) (phase : BitVec 2) (count : BitVec 32) :
    DeviceSends s (slPost s pk n action phase count false) ∧
      Claims.InOutbox (slPost s pk n action phase count false) pk (postMsg s pk n action phase count) :=
  ⟨deviceSends_sendDevice .., sendDevice_carries ..⟩

theorem slAction_post {s : State} {pk n : Nat} {action : Word} (hpost : action.getLsbD 60 = true) (hrel : action.getLsbD 61 = false)
    (phase : BitVec 2) (count : BitVec 32) (c : Cause) :
    slAction s pk n action phase count false c = slPost s pk n action phase count false := by
  rw [getLsbD_eq_bitAt] at hpost hrel
  simp [slAction, hpost, hrel]

theorem slAction_release {s : State} {pk n : Nat} {action : Word} (hpost : action.getLsbD 60 = false) (hrel : action.getLsbD 61 = true)
    (phase : BitVec 2) (count : BitVec 32) (c : Cause) : slAction s pk n action phase count false c =
      slRelease s pk n action (if bits action 62 2 = 1 then some (action.extractLsb' 32 9) else none) c := by
  rw [getLsbD_eq_bitAt] at hpost hrel
  simp [slAction, hpost, hrel]

theorem dact_postMsg (s : State) (pk n : Nat) (action : Word) (phase : BitVec 2) (count : BitVec 32) :
    (postMsg s pk n action phase count).dact = action.extractLsb' 54 6 := by
  show BitVec.ofNat 6 (awActor (addrWord _ _ _)) = _
  rw [awActor_addrWord, ofNat_mod 6 _ 64 rfl, ofNat_bits]

theorem dpier_postMsg (s : State) (pk n : Nat) (action : Word) (phase : BitVec 2) (count : BitVec 32) :
    (postMsg s pk n action phase count).dpier =
      if bits action 54 6 = 63 ∨ (getActor s pk (bits action 54 6)).st = .free then BitVec.ofNat 10 (pkLp pk)
      else (getActor s pk (bits action 54 6)).lp := by
  show BitVec.ofNat 10 (awPier (addrWord _ _ _)) = _
  rw [awPier_addrWord, ofNat_mod 10 _ 1024 rfl, actorLp]
  split
  · rfl
  · rw [BitVec.ofNat_toNat, BitVec.setWidth_eq]

theorem pay_postMsg (s : State) (pk n : Nat) (action : Word) (phase : BitVec 2) (count : BitVec 32) :
    (postMsg s pk n action phase count).pay = [BitVec.ofNat 64 (n + phase.toNat * 2 ^ 16), count.setWidth 64] := by
  simp [postMsg, deviceMsg, b2n]

theorem firingPosts : Claims.FiringPosts := by
  intro s m t a h hp ht ha n x c d hlt hw hc hm harm hr hf hpost hrel
  have hn : n = slIx a := slNo_eq a
  have hx : x = getSluice s s.issue.pk (slIx a) := by rw [← hn]
  rw [hn] at hlt
  have hcount : c = (getSluice s s.issue.pk (slIx a)).count + (vsc t).extractLsb' 0 32 := by rw [← hx]
  rw [hcount] at hr
  rw [hx] at hm harm hr hf hpost hrel
  have hmake := sadd_fires h hp ht ha hlt hc hm harm hr hf
  rw [slAction_post hpost hrel, ← hx] at hmake
  obtain ⟨hsend, hout⟩ := slPost_sends (afterFiring s (slIx a) (x.count + (vsc t).extractLsb' 0 32)) s.issue.pk (slIx a) x.action (x.phase + 1)
    (x.count + (vsc t).extractLsb' 0 32)
  have hact : getActor (afterFiring s (slIx a) (x.count + (vsc t).extractLsb' 0 32)) s.issue.pk (bits x.action 54 6) =
      getActor s s.issue.pk (bits x.action 54 6) :=
    ((setsSluices_afterFiring ..).field (fun p => pierActor p (bits x.action 54 6)) (fun _ => rfl) _).trans (getActor_cleared ..)
  rw [slSettle_noWaits fun st => by rw [hsend.getStrand]; exact noWaits_sets hw (setsSluices_afterFiring ..) st] at hmake
  refine ⟨_, _, hmake, hout, ?_, ofNat_bits .., ofNat_bits .., rfl, rfl, rfl, dact_postMsg .., ?_, ?_⟩
  · rw [hsend.getSluice, hn, sluice_afterFiring, ← hx]
  · rw [dpier_postMsg, hact]
    rfl
  · rw [pay_postMsg, hn]

theorem firingReleases : Claims.FiringReleases := by
  intro s m t a h hp ht ha n x c hlt hw hc hm harm hr hf hpost hrel
  have hn : n = slIx a := slNo_eq a
  have hx : x = getSluice s s.issue.pk (slIx a) := by rw [← hn]
  rw [hn] at hlt
  have hcount : c = (getSluice s s.issue.pk (slIx a)).count + (vsc t).extractLsb' 0 32 := by rw [← hx]
  rw [hcount] at hr
  rw [hx] at hm harm hr hf hpost hrel
  have hmake := sadd_fires h hp ht ha hlt hc hm harm hr hf
  rw [slAction_release hpost hrel, if_pos (show bits (getSluice s s.issue.pk (slIx a)).action 62 2 = 1 from hm), ← hx] at hmake
  rw [slSettle_noWaits fun st => by rw [getStrand_slRelease]; exact noWaits_sets hw (setsSluices_afterFiring ..) st] at hmake
  have hset := setsSluices_afterFiring s (slIx a) (x.count + (vsc t).extractLsb' 0 32)
  refine ⟨_, hmake, ?_, ?_⟩
  · rw [getSluice_slRelease, hn, sluice_afterFiring, ← hx]
  · rw [hn]
    refine released_congr (released_slRelease ..) ⟨?_, ?_⟩ ?_ ⟨rfl, rfl⟩ (List.Subset.refl _)
    · exact ((hset.field Pier.mq (fun _ => rfl) _).trans (mq_cleared ..)).symm
    · exact ((hset.field Pier.credits (fun _ => rfl) _).trans (credits_cleared ..)).symm
    · exact hset.cycle.symm

/-! SRADD (R345). -/

/-- An entry of the run in hand behind its unit's ports. -/
theorem enqueueCur_sends (s : State) (u : Nat) (key : StreamKey) (body : OutBody) (w2 w3 : Word) (unit : Nat) :
    SendsOnly (cleared s u) (enqueueCur (cleared s u) key body w2 w3 unit) ∧
    curStrand (enqueueCur (cleared s u) key body w2 w3 unit) = clearUnit (curStrand s) u ∧
    ∃ e ∈ (curPier (enqueueCur (cleared s u) key body w2 w3 unit)).outbox, e.tok = s.tok ∧ e.body = body := by
  have hs : SendsOnly (cleared s u) (enqueueCur (cleared s u) key body w2 w3 unit) := sendsOnly_enqueue ..
  obtain ⟨e, he, hb, htok⟩ := enqueue_carries (cleared s u) s.issue.pk key body (curStrand (cleared s u)).actor.toNat
    (curStrand (cleared s u)).runid s.issue.addr s.issue.strand w2 w3 (BitVec.ofNat 5 unit) s.issue.slot (gmHere (cleared s u))
  have hi : (enqueueCur (cleared s u) key body w2 w3 unit).issue = s.issue := hs.rest.2.2.1
  refine ⟨hs, ?_, e, ?_, htok, hb⟩
  · rw [curStrand, hi, hs.getStrand, ← curStrand_cleared, curStrand, cleared_issue]
  · rw [curPier, hi]
    exact he

theorem remoteSluiceAdd : Claims.RemoteSluiceAdd := by
  intro s m t a b h hp hq ht ha hb hready n
  have hn : n = slIx b := slNo_eq b
  have hheld : ∀ v w, sendHeld s t v w = false := fun v w => sendHeld_ready hready t v w
  refine ⟨fun hal => ?_, fun hal => ?_⟩
  · have hok : ¬(496 ≤ slIx b ∧ curService (cleared s 10) = false) := by
      rintro ⟨hge, hs⟩
      rw [curService_cleared] at hs
      obtain hal | hal := hal
      · omega
      · rw [hal] at hs; cases hs
    refine ⟨_, congrArg Host.Outcome.next (runTrigger_ok h ((checked_portsAB hp hq ht ha hb).trans (if_neg hok)) (hheld _ _)), ?_⟩
    obtain ⟨hs, hcur, e, he, htok, hbody⟩ := enqueueCur_sends s 10
      (.toPier (curActorIx (cleared s 10)) (awMod ((vsc a).extractLsb' 0 28)) (awPier ((vsc a).extractLsb' 0 28)))
      (.add
        { mod := awMod ((vsc a).extractLsb' 0 28), pier := awPier ((vsc a).extractLsb' 0 28),
          job := jobOf (cleared s 10) s.issue.pk, sl := BitVec.ofNat 9 (slIx b), form := 0, member := 0, add := (vsc t).extractLsb' 0 32,
          cancelled := false, frm := .nobody, graph := some (curActor (cleared s 10)).graph }) (moveWord (cleared s 10) t) (vsc a) 10
    refine ⟨sameMemory_of (hs.memories.trans (memories_cleared ..)) (hs.codes.trans (codes_cleared ..)), ?_,
      fun pk k => (hs.getSluice pk k).trans (getSluice_cleared ..), e, he, htok, ?_⟩
    · have hregs := sameRegs_clearUnit (curStrand s) 10
      rw [← hcur] at hregs
      exact hregs
    · rw [hbody, awMod_word, awPier_word, curActor_cleared, hn]
      rfl
  · refine congrArg Host.Outcome.next (runTrigger_fault h ((checked_portsAB hp hq ht ha hb).trans (if_pos ?_)) (hheld _ _)) |>.trans ?_
    · rw [Claims.SlAllowed, not_or] at hal
      exact ⟨Nat.le_of_not_lt (by rw [← hn]; exact hal.1), by rw [curService_cleared]; exact Bool.eq_false_iff.mpr hal.2⟩
    · rw [hn]

/-! Arrivals (R244). -/

/-- An answer to an outbox is under way. -/
theorem acked_answer (s : State) (m : Nat) (pl : Place) (src tok : Nat) (st : BitVec 3) :
    Claims.Acked (answer s m pl (.outbox src tok) st) (.outbox src tok) st := by
  rw [answer, ackPlace]
  simp only
  rw [launch]
  split
  · exact ⟨_, List.mem_append_right _ (List.mem_singleton_self _)⟩
  · exact ⟨_, List.mem_append_right _ (List.mem_singleton_self _)⟩

/-- An arrival that is not taken is answered at once. -/
theorem arrival_refused {s : State} {a : SlAdd} {src tok : Nat} (hfrm : a.frm = .outbox src tok) {st : BitVec 3} (h : slTarget s a = .error st)
    {i : Instr} (hi : i ∈ Claims.arrivals a) : ∃ s', exec i s = .next s' ∧ Claims.Acked s' a.frm st ∧
      (∀ k n, getSluice s' k n = getSluice s k n) ∧ Claims.SameMemory s s' := by
  refine ⟨answer s a.mod (slPlace s a) a.frm st, ?_, hfrm ▸ acked_answer .., (sendsOnly_answer ..).getSluice, (sendsOnly_answer ..).sameMemory⟩
  simp only [Claims.arrivals, List.mem_cons, List.not_mem_nil, or_false] at hi
  obtain rfl | rfl | rfl := hi
  · refine congrArg Host.Outcome.next ?_
    rw [addArrive, h]
  · refine congrArg Host.Outcome.next ?_
    rw [barrierArrive, h]
  · refine congrArg Host.Outcome.next ?_
    rw [noticeArrive, h]

theorem sluiceArrivalsRefused : Claims.SluiceArrivalsRefused := by
  intro s a src tok hfrm answered
  refine ⟨fun hpk i hi => arrival_refused hfrm (by rw [slTarget, hpk]) hi, fun pk hpk => ⟨fun hl i hi => ?_, fun hl hc i hi => ?_,
    fun hl hc hr i hi => ?_⟩⟩
  · exact arrival_refused hfrm (by simp only [slTarget, hpk, hl, if_true]) hi
  · exact arrival_refused hfrm (by simp only [slTarget, hpk, hl, List.any_eq_true.mpr hc, if_true, Bool.false_eq_true, if_false]) hi
  · have hany : (getPier s pk).cancels.any (fun c => addBelongs s c a) = false := List.any_eq_false.mpr fun c hcm => by simp [hc c hcm]
    exact arrival_refused hfrm (by simp only [slTarget, hpk, hl, hany, Bool.false_eq_true, if_false, if_pos hr]) hi

section
variable {s : State} {a : SlAdd} {pk src tok : Nat} (h : Claims.Arrives s a pk src tok)
include h

theorem slTarget_ok : slTarget s a = .ok pk := by
  have hany : (getPier s pk).cancels.any (fun c => addBelongs s c a) = false := List.any_eq_false.mpr fun c hcm => by simp [h.live c hcm]
  simp [slTarget, h.pier, h.up.1, h.up.2, hany, h.resident]

theorem acked_of_frm {t : State} {st : BitVec 3} : Claims.Acked (answer t a.mod (slPlace s a) a.frm st) a.frm st := h.frm ▸ acked_answer ..

/-- An arrival that is misuse changes no sluice. -/
theorem arrival_misuse {i : Instr} (hi : exec i s = .next (answer s a.mod (slPlace s a) a.frm 5)) :
    ∃ s', exec i s = .next s' ∧ (∀ k j, getSluice s' k j = getSluice s k j) ∧ Claims.Acked s' a.frm 5 :=
  ⟨_, hi, (sendsOnly_answer ..).getSluice, acked_of_frm h⟩

/-- An add of form 0 at a counter. -/
theorem addArrive_takes (hf : a.form = 0) {t : State}
    (ht : slAddAt (markCancelled s pk a.sl.toNat a.cancelled) pk a.sl.toNat a.add (causeOf s a.frm) = some t) :
    exec (.sluiceAddArrival a) s = .next (answer t a.mod (slPlace s a) a.frm 0) := by
  refine congrArg Host.Outcome.next ?_
  simp only [addArrive, slTarget_ok h]
  rw [if_neg (not_not_intro hf), ht]

theorem addArrive_misuse (hf : a.form ≠ 0 ∨ slAddAt (markCancelled s pk a.sl.toNat a.cancelled) pk a.sl.toNat a.add (causeOf s a.frm) = none) :
    exec (.sluiceAddArrival a) s = .next (answer s a.mod (slPlace s a) a.frm 5) := by
  refine congrArg Host.Outcome.next ?_
  simp only [addArrive, slTarget_ok h]
  by_cases h0 : a.form = 0
  · rw [if_neg (not_not_intro h0), hf.resolve_left (not_not_intro h0)]
  · rw [if_pos h0]

theorem barrierArrive_home (hm : slMode (getSluice s pk a.sl.toNat) = 2) (hl : a.member.toNat < (getSluice s pk a.sl.toNat).leads.length) :
    exec (.barrierArriveArrival a) s = .next (answer (slSettle (homeArrive s pk a.sl.toNat a.member.toNat src (causeOf s a.frm)) pk a.sl.toNat)
      a.mod (slPlace s a) a.frm 0) := by
  refine congrArg Host.Outcome.next ?_
  simp only [barrierArrive, slTarget_ok h]
  rw [if_pos ⟨hm, hl⟩, h.frm]
  rfl

theorem barrierArrive_misuse (hm : slMode (getSluice s pk a.sl.toNat) ≠ 2 ∨ (getSluice s pk a.sl.toNat).leads.length ≤ a.member.toNat) :
    exec (.barrierArriveArrival a) s = .next (answer s a.mod (slPlace s a) a.frm 5) := by
  refine congrArg Host.Outcome.next ?_
  simp only [barrierArrive, slTarget_ok h]
  exact if_neg fun hh => hm.elim (fun h1 => h1 hh.1) fun h1 => absurd hh.2 (Nat.not_lt_of_le h1)

/-- A notice at a member moves its phase on and performs its action. -/
theorem noticeArrive_member (hm : slMode (getSluice s pk a.sl.toNat) = 3) : exec (.phaseNoticeArrival a) s = .next (answer (slSettle (slAction
      (setSluice s pk a.sl.toNat { getSluice s pk a.sl.toNat with phase := (getSluice s pk a.sl.toNat).phase + 1 }) pk a.sl.toNat
      (getSluice s pk a.sl.toNat).action ((getSluice s pk a.sl.toNat).phase + 1) (getSluice s pk a.sl.toNat).count false (causeOf s a.frm))
      pk a.sl.toNat) a.mod (slPlace s a) a.frm 0) := by
  refine congrArg Host.Outcome.next ?_
  simp only [noticeArrive, slTarget_ok h]
  exact if_pos hm

theorem noticeArrive_misuse (hm : slMode (getSluice s pk a.sl.toNat) ≠ 3) :
    exec (.phaseNoticeArrival a) s = .next (answer s a.mod (slPlace s a) a.frm 5) := by
  refine congrArg Host.Outcome.next ?_
  simp only [noticeArrive, slTarget_ok h]
  exact if_neg hm

end

/-- An add to a counter that nothing waits on and that is not armed only counts. -/
theorem slAddAt_quiet {s : State} {pk n : Nat} (hm : slMode (getSluice s pk n) = 1) (harm : (getSluice s pk n).armed = false)
    (hw : ∀ st, (getStrand s pk st).wait = .none) (v : BitVec 32) (c : Cause) :
    slAddAt s pk n v c = some (setSluice s pk n { getSluice s pk n with count := (getSluice s pk n).count + v, again := false }) := by
  have hget := getSluice_setSluice_same s pk n { getSluice s pk n with count := (getSluice s pk n).count + v }
  rw [slAddAt, if_pos hm, slAdd, slUpdate, slCheck_rest (by rw [hget]; exact fun hh => absurd (hh.2.1.symm.trans harm) (by decide)), hget,
    setSluice_setSluice]
  exact congrArg some (slSettle_noWaits fun st => by rw [(setsSluices_setSluice ..).getStrand]; exact hw st)

theorem markCancelled_not (s : State) (pk n : Nat) : markCancelled s pk n false = s := by
  simp [markCancelled]

/-- The mark of a cancelled level on the link entry of a service sluice changes the pier's scratchpad alone. -/
theorem markCancelled_field {α : Type} (g : Pier → α) (hg : ∀ p spad, g { p with spad } = g p) (s : State) (pk n : Nat) (c : Bool) (k : Nat) :
    g (getPier (markCancelled s pk n c) k) = g (getPier s k) := by
  unfold markCancelled
  simp only
  split
  · by_cases hk : k = pk
    · subst hk
      rw [setLink, getPier_adjPier_same, hg]
    · rw [setLink, getPier_adjPier_other _ _ _ _ hk]
  · rfl

theorem mword_mwrite (f : FMap Byte) (a : Nat) (w : Word) : mword (mwrite f a 8 w.toNat) a = w := by
  rw [mword, mread_mwrite_same, Nat.mod_eq_of_lt (show w.toNat < 256 ^ 8 from w.isLt), BitVec.ofNat_toNat, BitVec.setWidth_eq]

theorem setBits_one (w : Word) (i : Nat) : setBits w i 1 1 = w ||| BitVec.ofNat 64 (2 ^ i) := by
  refine BitVec.eq_of_getLsbD_eq fun j hj => ?_
  have hlt : w.toNat % 2 ^ i < 2 ^ i := Nat.mod_lt _ (Nat.two_pow_pos i)
  have hv : setBits w i 1 1 = BitVec.ofNat 64 (2 ^ i * (2 * (w.toNat / 2 ^ (i + 1)) + 1) + w.toNat % 2 ^ i) := by
    rw [setBits]
    congr 1
    rw [Nat.pow_succ]
    ring
  have hodd : ∀ k, (2 * (w.toNat / 2 ^ (i + 1)) + 1).testBit k = if k = 0 then true else (w.toNat / 2 ^ (i + 1)).testBit (k - 1) := fun k => by
    cases k with
    | zero => simp
    | succ k => rw [Nat.testBit_succ, show (2 * (w.toNat / 2 ^ (i + 1)) + 1) / 2 = w.toNat / 2 ^ (i + 1) by omega]; simp
  rw [hv, BitVec.getLsbD_ofNat, decide_eq_true hj, Bool.true_and, Nat.testBit_two_pow_mul_add _ hlt, BitVec.getLsbD_or, BitVec.getLsbD_ofNat,
    decide_eq_true hj, Bool.true_and, Nat.testBit_two_pow, BitVec.getLsbD, Nat.testBit_mod_two_pow, hodd]
  by_cases hji : j < i
  · simp [hji, show i ≠ j by omega]
  · by_cases heq : i = j
    · subst heq
      simp
    · rw [if_neg hji, if_neg (by omega), Nat.testBit_div_two_pow, show j - i - 1 + (i + 1) = j by omega]
      simp [heq]

/-- The link entry of a service sluice behind a mark. -/
theorem mword_markCancelled (s : State) (pk n : Nat) (hn : 496 ≤ n) :
    mword (getPier (markCancelled s pk n true) pk).spad (0x3FF00 + 8 * (n - 496)) =
      if (mword (getPier s pk).spad (0x3FF00 + 8 * (n - 496))).getLsbD 63 then mword (getPier s pk).spad (0x3FF00 + 8 * (n - 496)) ||| 2 ^ 60
      else mword (getPier s pk).spad (0x3FF00 + 8 * (n - 496)) := by
  have hl : linkOf (getPier s pk) n = mword (getPier s pk).spad (0x3FF00 + 8 * (n - 496)) := if_pos hn
  simp only [markCancelled, hl, getLsbD_eq_bitAt]
  by_cases hb : bitAt (mword (getPier s pk).spad (0x3FF00 + 8 * (n - 496))) 63 = true
  · have hbit : (2 ^ 60 : Word) = BitVec.ofNat 64 (2 ^ 60) := by
      norm_num
      rfl
    rw [if_pos ⟨trivial, hb⟩, if_pos hb, setLink, getPier_adjPier_same, hbit, ← setBits_one _ 60]
    exact mword_mwrite ..
  · rw [if_neg fun hh => hb hh.2, if_neg hb]

theorem sluiceArrivals : Claims.SluiceArrivals := by
  intro s a pk src tok h n x me misuse
  have hwait : Claims.NoWaits s pk → ∀ st, (getStrand s pk st).wait = .none := fun hw st => wait_of_noWaits hw st
  refine ⟨fun hf hc hq => ?_, fun hf hc hq hn => ?_, fun hf hc => ?_, fun hm hc => ?_, fun hm hl hw hpl => ?_, fun hm => ?_,
    fun hm hw hpost => ?_, fun hm hw hpost hrel => ?_, fun hm => ?_⟩
  · obtain ⟨hmode, harm, hw⟩ := hq
    have hadd := slAddAt_quiet (n := n) hmode harm (hwait hw) a.add (causeOf s a.frm)
    have hset : SetsSluices s (setSluice s pk n { x with count := x.count + a.add, again := false }) := setsSluices_setSluice ..
    refine ⟨_, addArrive_takes h hf (by rw [hc, markCancelled_not]; exact hadd), ?_, acked_of_frm h, fun k hk => ?_, ?_⟩
    · rw [(sendsOnly_answer ..).getSluice, getSluice_setSluice_same]
    · rw [(sendsOnly_answer ..).getSluice, getSluice_setSluice_other _ _ _ _ fun hh => hk hh.2]
    · exact sameMemory_of ((sendsOnly_answer ..).memories.trans hset.memories) ((sendsOnly_answer ..).codes.trans hset.codes)
  · intro link
    obtain ⟨hmode, harm, hw⟩ := hq
    have hget : getSluice (markCancelled s pk n true) pk n = x := markCancelled_field (fun p => pierSluice p n) (fun _ _ => rfl) ..
    have hadd := slAddAt_quiet (s := markCancelled s pk n true) (pk := pk) (n := n) (by rw [hget]; exact hmode) (by rw [hget]; exact harm)
      (fun st => by
        rw [show getStrand (markCancelled s pk n true) pk st = getStrand s pk st from
          markCancelled_field (fun p => pierStrand p st) (fun _ _ => rfl) ..]
        exact hwait hw st) a.add (causeOf s a.frm)
    refine ⟨_, addArrive_takes h hf (by rw [hc]; exact hadd), ?_, acked_of_frm h, ?_⟩
    · rw [(sendsOnly_answer ..).getSluice, getSluice_setSluice_same, hget]
    · rw [(sendsOnly_answer ..).spad, (setsSluices_setSluice ..).field Pier.spad fun _ => rfl]
      exact mword_markCancelled s pk n hn
  · exact arrival_misuse h (addArrive_misuse h (.inl (by rw [hf]; decide)))
  · exact arrival_misuse h (addArrive_misuse h (.inr (by rw [hc, markCancelled_not]; exact if_neg hm)))
  · obtain ⟨hs, -, hopen, hclose, -⟩ := homeArrive_frame (s := s) (pk := pk) (n := n) (member := a.member.toNat) (frm := src)
      (c := causeOf s a.frm) hpl hl
    have hmake := barrierArrive_home h hm hl
    rw [slSettle_noWaits fun st => by rw [hs.getStrand]; exact hwait hw st] at hmake
    refine ⟨_, hmake, acked_of_frm h, ?_⟩
    simp only [(sendsOnly_answer ..).getSluice, answer_outbox]
    refine ⟨hopen, fun h0 => ?_⟩
    obtain ⟨hleads, hphase⟩ := hclose h0
    exact ⟨hleads, hphase, fun hroom _ j hj hne => homeArrive_notices hpl hl h0 hroom hj hne⟩
  · exact arrival_misuse h (barrierArrive_misuse h hm)
  · have hmake := noticeArrive_member h hm
    have hset : SetsSluices s (setSluice s pk n { x with phase := x.phase + 1 }) := setsSluices_setSluice ..
    cases hrel : x.action.getLsbD 61 with
    | false =>
      rw [slAction_plain ⟨hpost, hrel⟩, slSettle_noWaits fun st => by rw [hset.getStrand]; exact hwait hw st] at hmake
      refine ⟨_, hmake, ?_, acked_of_frm h, fun h61 => absurd h61 (by decide)⟩
      rw [(sendsOnly_answer ..).getSluice, getSluice_setSluice_same]
    | true =>
      rw [slAction_release hpost hrel, slSettle_noWaits fun st => by rw [getStrand_slRelease, hset.getStrand]; exact hwait hw st,
        if_neg (show ¬bits x.action 62 2 = 1 from fun h1 => absurd (h1.symm.trans hm) (by decide))] at hmake
      refine ⟨_, hmake, ?_, acked_of_frm h, fun _ => ⟨(causeOf s a.frm).bundle, ?_⟩⟩
      · rw [(sendsOnly_answer ..).getSluice, getSluice_slRelease, getSluice_setSluice_same]
      · have hrelease := released_slRelease (setSluice s pk n { x with phase := x.phase + 1 }) pk n x.action none (causeOf s a.frm)
        refine released_congr hrelease ⟨?_, ?_⟩ ?_ ⟨?_, ?_⟩ ?_
        · exact (hset.field Pier.mq (fun _ => rfl) _).symm
        · exact (hset.field Pier.credits (fun _ => rfl) _).symm
        · exact hset.cycle.symm
        · exact (deviceSends_answer ..).field Pier.mq (fun _ => rfl) _
        · exact (deviceSends_answer ..).field Pier.credits (fun _ => rfl) _
        · rw [(deviceSends_answer ..).agenda]
          exact List.Subset.refl _
  · have hmake := noticeArrive_member h hm
    have hset : SetsSluices s (setSluice s pk n { x with phase := x.phase + 1 }) := setsSluices_setSluice ..
    rw [slAction_post hpost hrel] at hmake
    obtain ⟨hsend, hout⟩ := slPost_sends (setSluice s pk n { x with phase := x.phase + 1 }) pk n x.action (x.phase + 1) x.count
    rw [slSettle_noWaits fun st => by rw [hsend.getStrand, hset.getStrand]; exact hwait hw st] at hmake
    refine ⟨_, _, hmake, ?_, acked_of_frm h, (deviceSends_answer ..).inOutbox hout, ofNat_bits .., dact_postMsg .., rfl, rfl⟩
    rw [(sendsOnly_answer ..).getSluice, hsend.getSluice, getSluice_setSluice_same]
  · exact arrival_misuse h (noticeArrive_misuse h hm)

/-- Settles O32: a post is a message of the device, a release is one of the queue, an arrival updates one sluice and is answered. -/
theorem sluiceTraffic : Obligations.SluiceTraffic :=
  ⟨firingPosts, firingReleases, stagedEntryTakesCredit, remoteSluiceAdd, sluiceArrivalsRefused, sluiceArrivals⟩

end Sys2Proof.Machine
end

section
/-!
The handler table, what arrives at a pier, and the rows of R43.
-/

namespace Sys2Proof.Machine

/-! The handler entry of an actor and a class (R37, R38). -/

/-- An entry of the table that binds an actor and a class. -/
def binding (a cls : Nat) (h : Word) : Option Word := if bitAt h 63 && bits h 57 6 == a && bits h 52 5 == cls then some h else none

theorem binding_iff (a cls : Nat) (h w : Word) : binding a cls h = some w ↔ h = w ∧ Claims.Binds.matches_ a cls h := by
  rw [binding, Claims.Binds.matches_, getLsbD_eq_bitAt, fld_eq_bits, fld_eq_bits]
  split
  · rename_i hb
    simp only [Bool.and_eq_true, beq_iff_eq] at hb
    obtain ⟨⟨h63, ha⟩, hc⟩ := hb
    simp [h63, ha, hc]
  · rename_i hb
    simp only [Bool.and_eq_true, beq_iff_eq] at hb
    simp only [reduceCtorEq, false_iff]
    exact fun hh => hb ⟨⟨hh.2.1, hh.2.2.1⟩, hh.2.2.2⟩

theorem binding_none (a cls : Nat) (h : Word) : binding a cls h = none ↔ ¬Claims.Binds.matches_ a cls h := by
  rw [Option.eq_none_iff_forall_not_mem]
  exact ⟨fun hn hm => hn h ((binding_iff a cls h h).mpr ⟨rfl, hm⟩), fun hn w hw => hn ((binding_iff a cls h w).mp hw).2⟩

theorem findHandler_eq (p : Pier) (a cls : Nat) : findHandler p a cls = (List.range 128).findSome? fun i => binding a cls (fget p.handlers i 0) := rfl

theorem findHandler_binds {p : Pier} {a cls : Nat} {h : Word} (hb : Claims.Binds p a cls h) : findHandler p a cls = some h := by
  obtain ⟨n, hn, hw, hm, hlow⟩ := hb
  have hsplit : List.range 128 = List.range n ++ n :: (List.range (127 - n)).map fun i => n + (i + 1) := by
    conv_lhs => rw [show 128 = n + (127 - n + 1) by omega, List.range_add, List.range_succ_eq_map]
    simp [Function.comp_def]
  have hnone : (List.range n).findSome? (fun i => binding a cls (fget p.handlers i 0)) = none :=
    List.findSome?_eq_none_iff.mpr fun k hk => (binding_none ..).mpr (hlow k (List.mem_range.mp hk))
  rw [findHandler_eq, hsplit, List.findSome?_append, hnone, Option.none_or, List.findSome?_cons, hw, (binding_iff ..).mpr ⟨rfl, hm⟩]

theorem findHandler_unbound {p : Pier} {a cls : Nat} (hu : Claims.Unbound p a cls) : findHandler p a cls = none :=
  (findHandler_eq ..).trans (List.findSome?_eq_none_iff.mpr fun k hk => (binding_none ..).mpr (hu k (List.mem_range.mp hk)))

/-! A message as its pier takes it (R40). -/

theorem flags_low (f : BitVec 3) : (f.toNat % 2 == 1) = f.getLsbD 0 := by revert f; decide
theorem flags_keep (f : BitVec 3) : BitVec.ofNat 3 (f.toNat / 2 * 2) = f &&& 6 := by revert f; decide
theorem flags_host (f : BitVec 3) : f.toNat / 4 = 1 ↔ f.getLsbD 2 = true := by revert f; decide

/-- The flags that a message keeps. -/
def keptFlags (g : Msg) : BitVec 3 := if Claims.urgent g then g.flags else g.flags &&& 6

theorem urgent_iff (g : Msg) : Claims.urgent g = true ↔ g.flags.toNat % 2 = 1 ∧ g.sact = 63 ∧ g.cls = 30 := by
  rw [Claims.urgent, Bool.and_eq_true, Bool.and_eq_true, beq_iff_eq, beq_iff_eq, ← flags_low, beq_iff_eq, and_assoc]

theorem keptFlags_low (g : Msg) : ((keptFlags g).toNat % 2 == 1) = Claims.urgent g := by
  have hmask : ∀ f : BitVec 3, (f &&& 6).getLsbD 0 = false := by decide
  rw [flags_low, keptFlags]
  cases hu : Claims.urgent g with
  | true =>
    rw [if_pos rfl, ← flags_low, beq_iff_eq]
    exact ((urgent_iff g).mp hu).1
  | false =>
    rw [if_neg (by decide)]
    exact hmask _

theorem arrivedMsg_eq (p : Pier) (g : Msg) (device : Bool) : arrivedMsg p g device = { g with
    flags := keptFlags g,
    prio := if (device && g.sact == 63 && ((g.cls == 30 && g.kind != 1) || g.kind == 5)) = true
      then BitVec.ofNat 2 (defaultPrio p g.dact.toNat g.cls.toNat) else g.prio } := by
  have hf : (if g.flags.toNat % 2 = 1 ∧ g.sact = 63 ∧ g.cls = 30 then g.flags else BitVec.ofNat 3 (g.flags.toNat / 2 * 2)) = keptFlags g := by
    rw [keptFlags, flags_keep]
    exact if_congr (urgent_iff g).symm rfl rfl
  rw [← hf]
  rfl

theorem defaultPrio_binds {p : Pier} {a cls : Nat} {w : Word} (h : Claims.Binds p a cls w) :
    BitVec.ofNat 2 (defaultPrio p a cls) = w.extractLsb' 38 2 := by
  rw [defaultPrio, findHandler_binds h]
  exact ofNat_bits w 38 2

theorem defaultPrio_unbound {p : Pier} {a cls : Nat} (h : Claims.Unbound p a cls) : BitVec.ofNat 2 (defaultPrio p a cls) = 3 := by
  rw [defaultPrio, findHandler_unbound h]
  rfl

/-- A message from an outbox entry is taken as R40 says. -/
theorem arrivedMsg_taken {p : Pier} {e : OutEntry} {g h : Msg} (ht : Claims.Taken p e g h) : arrivedMsg p g (e.unit != 10) = h := by
  obtain ⟨prio, rfl, hprio⟩ := ht
  have hown : ((e.unit != 10) && g.sact == 63 && ((g.cls == 30 && g.kind != 1) || g.kind == 5)) = true ↔
      (g.sact = 63 ∧ ((g.cls = 30 ∧ g.kind ≠ 1) ∨ g.kind = 5) ∧ e.unit ≠ 10) := by
    simp only [Bool.and_eq_true, Bool.or_eq_true, beq_iff_eq, bne_iff_ne]
    exact ⟨fun ⟨⟨h1, h2⟩, h3⟩ => ⟨h2, h3, h1⟩, fun ⟨h1, h2, h3⟩ => ⟨⟨h3, h1⟩, h2⟩⟩
  have hp : (if ((e.unit != 10) && g.sact == 63 && ((g.cls == 30 && g.kind != 1) || g.kind == 5)) = true
      then BitVec.ofNat 2 (defaultPrio p g.dact.toNat g.cls.toNat) else g.prio) = prio := by
    split at hprio
    · rename_i hc
      rw [if_pos (hown.mpr hc)]
      obtain ⟨w, hw, rfl⟩ | ⟨hu, rfl⟩ := hprio
      · exact defaultPrio_binds hw
      · exact defaultPrio_unbound hu
    · rename_i hc
      rw [if_neg fun hh => hc (hown.mp hh), hprio]
  rw [arrivedMsg_eq, hp]
  rfl

/-! The rows of R43. -/

theorem jobSlots_eq (p : Pier) : jobSlots p = Claims.used p := rfl
theorem reserveSlots_eq (p : Pier) : reserveSlots p = Claims.usedReserve p := rfl
theorem occupancy_eq (p : Pier) (a : Nat) : occupancy p a = Claims.held p a := rfl

theorem freeSlot_room {p : Pier} (h : Claims.used p < 496 ∨ Claims.usedReserve p < 16) :
    freeSlot p true = some (decide (496 ≤ Claims.used p)) := by
  rw [freeSlot, jobSlots_eq]
  by_cases hu : Claims.used p < 496
  · rw [if_pos hu, decide_eq_false (Nat.not_le_of_lt hu)]
  · rw [if_neg hu, decide_eq_true (Nat.le_of_not_lt hu), Bool.true_and, reserveSlots_eq, decide_eq_true (h.resolve_left hu)]
    rfl

theorem freeSlot_full {p : Pier} (h : ¬(Claims.used p < 496 ∨ Claims.usedReserve p < 16)) : freeSlot p true = none := by
  rw [not_or] at h
  rw [freeSlot, jobSlots_eq, if_neg h.1, Bool.true_and, reserveSlots_eq, decide_eq_false h.2]
  rfl

/-- An actor that takes no message (R43). -/
def Gone (s : State) (pk d : Nat) : Prop := d ≠ 63 ∧ ((getActor s pk d).st = .free ∨ (getActor s pk d).retiring = true)

theorem actorGone_iff (s : State) (pk d : Nat) : actorGone (getPier s pk) d = true ↔ Gone s pk d := by
  rw [actorGone, Gone, Bool.and_eq_true, bne_iff_ne, Bool.or_eq_true, beq_iff_eq]
  rfl

/-- A message finds a slot below its actor's weir, or as an exempt one (R42). -/
def Fits (p : Pier) (d weir : Nat) (g : Msg) : Prop :=
  (Claims.isExempt g = true ∧ (Claims.used p < 496 ∨ Claims.usedReserve p < 16)) ∨ (Claims.held p d < weir ∧ Claims.used p < 496)

section
variable {s : State} {pk d : Nat} {g : Msg} {urgent here : Bool}

theorem admitRow_gone (h : Gone s pk d) : admitRow (getPier s pk) d g urgent here = .noActor := if_pos ((actorGone_iff ..).mpr h)

variable (hg : ¬Gone s pk d)
include hg

theorem admitRow_out (h : here = false ∨ (getActor s pk d).st = .evicted) :
    admitRow (getPier s pk) d g urgent here = admitSpill (getActor s pk d) :=
  (if_neg fun hh => hg ((actorGone_iff ..).mp hh)).trans (if_pos h)

variable (ho : ¬(here = false ∨ (getActor s pk d).st = .evicted))
include ho

theorem admitRow_urgent (hroom : Claims.used (getPier s pk) < 496 ∨ Claims.usedReserve (getPier s pk) < 16) :
    admitRow (getPier s pk) d g true here = .slot (decide (496 ≤ Claims.used (getPier s pk))) := by
  refine (if_neg fun hh => hg ((actorGone_iff ..).mp hh)).trans ((if_neg ho).trans ((if_pos rfl).trans ?_))
  rw [freeSlot_room hroom]

theorem admitRow_urgent_full (hroom : ¬(Claims.used (getPier s pk) < 496 ∨ Claims.usedReserve (getPier s pk) < 16)) :
    admitRow (getPier s pk) d g true here = .retry := by
  refine (if_neg fun hh => hg ((actorGone_iff ..).mp hh)).trans ((if_neg ho).trans ((if_pos rfl).trans ?_))
  rw [freeSlot_full hroom]

theorem admitRow_fits (hs : ¬Claims.spills (getActor s pk d)) (hf : Fits (getPier s pk) d (getActor s pk d).weir.toNat g) :
    admitRow (getPier s pk) d g false here = .slot (decide (496 ≤ Claims.used (getPier s pk))) := by
  refine (if_neg fun hh => hg ((actorGone_iff ..).mp hh)).trans ((if_neg ho).trans ((if_neg (by decide)).trans
    ((if_neg fun hh => hs ((spilling_iff _).mp hh)).trans ?_)))
  by_cases hex : Claims.isExempt g = true ∧ (Claims.used (getPier s pk) < 496 ∨ Claims.usedReserve (getPier s pk) < 16)
  · rw [if_pos (show exempt g = true from hex.1), freeSlot_room hex.2]
  · obtain ⟨hw, hu⟩ := hf.resolve_left hex
    have hne : ¬exempt g = true := fun he => hex ⟨he, .inl hu⟩
    simp only [if_neg hne]
    have hroom : (decide (Claims.held (getPier s pk) d < (pierActor (getPier s pk) d).weir.toNat) &&
        decide (Claims.used (getPier s pk) < 496)) = true := by
      rw [Bool.and_eq_true, decide_eq_true_iff, decide_eq_true_iff]
      exact ⟨hw, hu⟩
    rw [decide_eq_false (Nat.not_le_of_lt hu)]
    exact if_pos hroom

theorem admitRow_full (hn : Claims.spills (getActor s pk d) ∨ ¬Fits (getPier s pk) d (getActor s pk d).weir.toNat g) :
    admitRow (getPier s pk) d g false here = admitSpill (getActor s pk d) := by
  refine (if_neg fun hh => hg ((actorGone_iff ..).mp hh)).trans ((if_neg ho).trans ((if_neg (by decide)).trans ?_))
  by_cases hs : Claims.spills (getActor s pk d)
  · exact if_pos ((spilling_iff _).mpr hs)
  · refine (if_neg fun hh => hs ((spilling_iff _).mp hh)).trans ?_
    have hf := hn.resolve_left hs
    rw [Fits, not_or] at hf
    have hslot : (if exempt g = true then freeSlot (getPier s pk) true else none) = none := by
      split
      · rename_i he
        exact freeSlot_full fun hr => hf.1 ⟨he, hr⟩
      · rfl
    simp only [hslot]
    refine if_neg fun hroom => hf.2 ?_
    rw [Bool.and_eq_true] at hroom
    exact ⟨of_decide_eq_true hroom.1, of_decide_eq_true hroom.2⟩

end

/-! A message at its pier. -/

/-- A spillway that takes the message (R34, R43). -/
theorem admitSpill_fits {s : State} {pk d : Nat} (h : Claims.spillFits s pk d) : admitSpill (getActor s pk d) = .spill ∧ spillLeaf s pk d = true := by
  obtain ⟨hon, hlen, hleaf⟩ := h
  refine ⟨if_pos ?_, hleaf⟩
  rw [spillRoom, Bool.and_eq_true, decide_eq_true_iff]
  exact ⟨by rw [← getLsbD_eq_bitAt]; exact hon, hlen⟩

/-- One that does not leaves the message with its sender. -/
theorem admitSpill_unfit {s : State} {pk d : Nat} (h : ¬Claims.spillFits s pk d) :
    admitSpill (getActor s pk d) = .retry ∨ (admitSpill (getActor s pk d) = .spill ∧ spillLeaf s pk d = false) := by
  by_cases hr : spillRoom (getActor s pk d) = true
  · refine .inr ⟨if_pos hr, Bool.eq_false_iff.mpr fun hl => h ?_⟩
    rw [spillRoom, Bool.and_eq_true, decide_eq_true_iff, ← getLsbD_eq_bitAt] at hr
    exact ⟨hr.1, hr.2, hl⟩
  · exact .inl (if_neg hr)

/-- The row of R43 carried out for a message, with the status of the answer. -/
def admitted (s : State) (pk : Nat) (h : Msg) : Admit → State × BitVec 3
  | .noActor => (s, 2)
  | .retry => (s, 1)
  | .slot r => (setPier s pk (putSlot (getPier s pk) h r s.cycle s.cycle), 0)
  | .spill => if spillLeaf s pk h.dact.toNat then (spillPut s pk h.dact.toNat h s.cycle, 0) else (s, 1)

section
variable {s : State} {pk : Nat} {g h : Msg} {device : Bool} (hh : arrivedMsg (getPier s pk) g device = h)
  (hl : (getPier s pk).lost = false) (hf : (getPier s pk).fenced = false)
include hh hl hf

/-- What is done with a message that no row of the pier itself refuses. -/
theorem admitOne_row (hc : (getPier s pk).cancels = []) : admitOne s pk g device =
    admitted s pk h (admitRow (getPier s pk) h.dact.toNat h (h.flags.toNat % 2 == 1) (residentOpen s pk)) := by
  simp only [admitOne, hh, hl, hf, hc, List.any_nil, Bool.false_eq_true, if_false]
  rfl

theorem admitOne_cancelled (hc : ∃ c ∈ (getPier s pk).cancels, msgBelongs s c h = true) : admitOne s pk g device = (s, 0) := by
  simp only [admitOne, hh, hl, hf, List.any_eq_true.mpr hc, Bool.false_eq_true, if_false, if_true]

end

theorem admitOne_lost {s : State} {pk : Nat} (hl : (getPier s pk).lost = true) (g : Msg) (device : Bool) : admitOne s pk g device = (s, 2) := by
  simp only [admitOne, hl, if_true]

theorem admitOne_fenced {s : State} {pk : Nat} (hl : (getPier s pk).lost = false) (hf : (getPier s pk).fenced = true) (g : Msg) (device : Bool) :
    admitOne s pk g device = (s, 1) := by
  simp only [admitOne, hl, hf, Bool.false_eq_true, if_false, if_true]

/-! Writes by virtual address change modules alone. -/

/-- The second state is the first with other modules. -/
def ModsOnly (s t : State) : Prop := t = { s with mods := t.mods }

theorem ModsOnly.refl (s : State) : ModsOnly s s := rfl
theorem ModsOnly.trans {s t u : State} (h : ModsOnly s t) (k : ModsOnly t u) : ModsOnly s u := by
  rw [ModsOnly] at h k ⊢
  rw [k, h]

theorem ModsOnly.getPier {s t : State} (h : ModsOnly s t) (pk : Nat) : getPier t pk = getPier s pk := by
  rw [h]
  rfl
theorem ModsOnly.getSite {s t : State} (h : ModsOnly s t) (k : Nat) : getSite t k = getSite s k := by
  rw [h]
  rfl
theorem ModsOnly.codes {s t : State} (h : ModsOnly s t) : codes t = codes s := by
  rw [h]
  rfl

theorem modsOnly_adjMod (s : State) (m : Nat) (f : Module → Module) : ModsOnly s (adjMod s m f) := rfl

theorem modsOnly_endLease (s : State) (m loc : Nat) : ModsOnly s (endLease s m loc) := by
  unfold endLease
  split
  · exact modsOnly_adjMod ..
  · exact .refl s

theorem modsOnly_vaPoke (s : State) (from_ : Nat) (root va : Word) (b : Byte) (poison : Bool) : ModsOnly s (vaPoke s from_ root va b poison) := by
  unfold vaPoke
  split
  · simp only
    split
    · exact .refl s
    · exact (modsOnly_endLease ..).trans (modsOnly_adjMod ..)
  · exact .refl s

theorem modsOnly_vaWrite (from_ : Nat) (root : Word) (l : List Byte) (s : State) (va : Word) : ModsOnly s (vaWrite s from_ root va l) := by
  induction l generalizing s va with
  | nil => exact .refl s
  | cons b l ih => exact (modsOnly_vaPoke ..).trans (ih ..)

theorem modsOnly_vaClear (from_ : Nat) (root : Word) (n : Nat) (s : State) (va : Word) : ModsOnly s (vaClear s from_ root va n) := by
  induction n generalizing s va with
  | zero => exact .refl s
  | succ n ih =>
    refine ModsOnly.trans ?_ (ih ..)
    split
    · split
      · exact modsOnly_adjMod ..
      · exact .refl s
    · exact .refl s

theorem modsOnly_sendEvent (s : State) (m code : Nat) (job : BitVec 12) (data : List Byte) : ModsOnly s (sendEvent s m code job data) := rfl

/-- The state of a spillway's memory once a message is written to it. -/
def spillWritten (s : State) (pk d : Nat) (g : Msg) : State :=
  let va := spillAddr (getActor s pk d)
  let root := (getPier s pk).xlroot
  let s1 := vaClear (vaWrite s (pkMod pk) root va (msgBytes g)) (pkMod pk) root va 64
  if g.poison = 0 then s1 else vaPoke s1 (pkMod pk) root va (lgetD (msgBytes g) 0 0) true

theorem spillPut_eq (s : State) (pk d : Nat) (g : Msg) (admitted : Nat) : spillPut s pk d g admitted =
    adjActor (spillWritten s pk d g) pk d fun a => { a with spilled := a.spilled ++ [(g, admitted)], ringTail := a.ringTail + 1 } := rfl

theorem modsOnly_spillWritten (s : State) (pk d : Nat) (g : Msg) : ModsOnly s (spillWritten s pk d g) := by
  have h : ModsOnly s (vaClear (vaWrite s (pkMod pk) (getPier s pk).xlroot (spillAddr (getActor s pk d)) (msgBytes g)) (pkMod pk)
      (getPier s pk).xlroot (spillAddr (getActor s pk d)) 64) := (modsOnly_vaWrite ..).trans (modsOnly_vaClear ..)
  unfold spillWritten
  simp only
  split
  · exact h
  · exact h.trans (modsOnly_vaPoke ..)

theorem hbm_spillWritten {s : State} {pk d : Nat} {g : Msg} (hg : g.poison = 0) (m : Nat) : (getMod (spillWritten s pk d g) m).hbm =
    (getMod (vaWrite s (pkMod pk) (getPier s pk).xlroot (spillAddr (getActor s pk d)) (msgBytes g)) m).hbm := by
  have h : memories (spillWritten s pk d g) = memories (vaWrite s (pkMod pk) (getPier s pk).xlroot (spillAddr (getActor s pk d)) (msgBytes g)) := by
    rw [spillWritten]
    simp only [if_pos hg, memories_vaClear]
  exact congrArg (fun x => x.hbm m) h

theorem getActor_spillPut (s : State) (pk d : Nat) (g : Msg) (admitted : Nat) : getActor (spillPut s pk d g admitted) pk d =
    { getActor s pk d with
      spilled := (getActor s pk d).spilled ++ [(g, admitted)], ringTail := (getActor s pk d).ringTail + 1 } := by
  rw [spillPut_eq, getActor_adjActor_same, getActor, (modsOnly_spillWritten ..).getPier]
  rfl

/-- An answer changes no pier and no site. -/
theorem piers_answer (s : State) (m : Nat) (pl : Place) (e : AckTo) (st : BitVec 3) : (answer s m pl e st).piers = s.piers := by
  unfold answer
  split
  · rfl
  · unfold launch
    split <;> rfl

theorem getPier_answer (s : State) (m : Nat) (pl : Place) (e : AckTo) (st : BitVec 3) (k : Nat) : getPier (answer s m pl e st) k = getPier s k := by
  rw [getPier, piers_answer]
  rfl

theorem getActor_answer (s : State) (m : Nat) (pl : Place) (e : AckTo) (st : BitVec 3) (k n : Nat) :
    getActor (answer s m pl e st) k n = getActor s k n := by
  rw [getActor, getPier_answer]
  rfl

end Sys2Proof.Machine
end

section
/-!
What a pier does with a message that arrives (O40).
-/

namespace Sys2Proof.Machine

/-! One actor's inbox or spillway. -/

theorem admitsOnly_slot (s : State) (pk d : Nat) (h : Msg) (r : Bool) (m : Nat) (pl : Place) (e : AckTo) (st : BitVec 3) :
    Claims.AdmitsOnly s (answer (setPier s pk (putSlot (getPier s pk) h r s.cycle s.cycle)) m pl e st) pk d := by
  have hsame : ∀ {α : Type} (f : Pier → α), (∀ p inbox, f { p with inbox } = f p) → ∀ k,
      f (getPier (answer (setPier s pk (putSlot (getPier s pk) h r s.cycle s.cycle)) m pl e st) k) = f (getPier s k) := fun f hf k => by
    rw [getPier_answer]
    exact setPier_field f (hf ..) k
  have hactor : ∀ n, getActor (answer (setPier s pk (putSlot (getPier s pk) h r s.cycle s.cycle)) m pl e st) pk n = getActor s pk n := fun n =>
    hsame (fun p => pierActor p n) (fun _ _ => rfl) pk
  exact
    { slices := fun k b => by rw [(sendsOnly_answer ..).getSite]; rfl
      spads := fun k b => by rw [hsame Pier.spad fun _ _ => rfl]
      codes := fun k b => by rw [hsame Pier.code fun _ _ => rfl]
      piers := fun k hk => by rw [getPier_answer, getPier_setPier_other _ _ _ _ hk]
      strands := hsame Pier.strands (fun _ _ => rfl) pk
      actors := fun n _ => hactor n
      state := by rw [hactor]
      sluices := hsame Pier.sluices (fun _ _ => rfl) pk
      outbox := hsame Pier.outbox (fun _ _ => rfl) pk }

theorem getPier_spillPut {α : Type} (f : Pier → α) (hf : ∀ p actors, f { p with actors } = f p) (s : State) (pk d : Nat) (g : Msg)
    (admitted k : Nat) : f (getPier (spillPut s pk d g admitted) k) = f (getPier s k) := by
  rw [spillPut_eq]
  by_cases hk : k = pk
  · subst hk
    rw [adjActor, getPier_adjPier_same, hf, (modsOnly_spillWritten ..).getPier]
  · rw [adjActor, getPier_adjPier_other _ _ _ _ hk, (modsOnly_spillWritten ..).getPier]

theorem admitsOnly_spill (s : State) (pk d : Nat) (h : Msg) (admitted m : Nat) (pl : Place) (e : AckTo) (st : BitVec 3) :
    Claims.AdmitsOnly s (answer (spillPut s pk d h admitted) m pl e st) pk d := by
  have hsame : ∀ {α : Type} (f : Pier → α), (∀ p actors, f { p with actors } = f p) → ∀ k,
      f (getPier (answer (spillPut s pk d h admitted) m pl e st) k) = f (getPier s k) := fun f hf k => by
    rw [getPier_answer]
    exact getPier_spillPut f hf ..
  exact
    { slices := fun k b => by
        rw [(sendsOnly_answer ..).getSite, spillPut_eq]
        exact congrArg (fun x : Site => mget x.slice b) ((modsOnly_spillWritten s pk d h).getSite k)
      spads := fun k b => by rw [hsame Pier.spad fun _ _ => rfl]
      codes := fun k b => by rw [hsame Pier.code fun _ _ => rfl]
      piers := fun k hk => by
        rw [getPier_answer, spillPut_eq, adjActor, getPier_adjPier_other _ _ _ _ hk, (modsOnly_spillWritten ..).getPier]
      strands := hsame Pier.strands (fun _ _ => rfl) pk
      actors := fun n hn => by
        rw [getActor_answer, spillPut_eq, getActor_adjActor_other _ _ _ _ _ _ fun hh => hn hh.2, getActor, (modsOnly_spillWritten ..).getPier]
        rfl
      state := by rw [getActor_answer, getActor_spillPut]
      sluices := hsame Pier.sluices (fun _ _ => rfl) pk
      outbox := hsame Pier.outbox (fun _ _ => rfl) pk }

/-! A message from an outbox at its pier. -/

/-- The entry that a message comes from says whether the device sends it in its own name. -/
theorem ownMessage_entry {s : State} {src tok : Nat} {e : OutEntry} (h : (getPier s src).outbox.find? (fun x => x.tok == tok) = some e) :
    ownMessage s (.outbox src tok) = (e.unit != 10) := by
  have hany : ((getPier s src).outbox.any fun x => x.tok == tok) = true :=
    List.any_eq_true.mpr ⟨e, List.mem_of_find?_eq_some h, List.find?_some (p := fun x : OutEntry => x.tok == tok) h⟩
  have hhome : entryHome s src tok = src := if_pos hany
  simp only [ownMessage, hhome, h]

/-- What is not for the host goes on to its pier. -/
theorem messageAdmission_pier {s : State} {g : Msg} {src tok : Nat} (hhost : g.flags.getLsbD 2 = true → g.sact ≠ 63) :
    exec (.messageAdmission g (.outbox src tok)) s = .next (match pkOfAddr s g.dmod.toNat g.dpier.toNat g.job with
      | none => answer s g.dmod.toNat (destPlace s g.dmod.toNat g.dpier.toNat g.job) (.outbox src tok) 2
      | some pk => answer (admitOne s pk g (ownMessage s (.outbox src tok))).1 g.dmod.toNat (destPlace s g.dmod.toNat g.dpier.toNat g.job)
          (.outbox src tok) (admitOne s pk g (ownMessage s (.outbox src tok))).2) :=
  congrArg Host.Outcome.next (if_neg fun hh => hhost ((flags_host _).mp hh.2.1) hh.2.2)

section
variable {s : State} {g h : Msg} {pk src tok : Nat}

/-- The answer to a message of an outbox. -/
def admittedAnswer (s : State) (g : Msg) (src tok : Nat) (r : State × BitVec 3) : State :=
  answer r.1 g.dmod.toNat (destPlace s g.dmod.toNat g.dpier.toNat g.job) (.outbox src tok) r.2

/-- A message of a job that is being cancelled as a whole belongs to it (R67, R304). -/
theorem msgBelongs_job {c : CancelMark} (hjob : g.job.toNat = c.job) (hlevel : c.level = 2)
    (hk : ¬(g.kind = 5 ∧ Claims.fld (payWord g 0) 0 16 = 0x16)) : msgBelongs s c g = true := by
  have hrec : (g.kind == 5 && bits (payWord g 0) 0 16 == 0x16) = false := by
    rw [Bool.and_eq_false_iff, beq_eq_false_iff_ne, beq_eq_false_iff_ne, ← not_and_or]
    exact hk
  rw [msgBelongs, hrec, hjob, hlevel, beq_self_eq_true]
  rfl

theorem messageAdmission_takes (hhost : g.flags.getLsbD 2 = true → g.sact ≠ 63) (hpk : pkOfAddr s g.dmod.toNat g.dpier.toNat g.job = some pk) :
    exec (.messageAdmission g (.outbox src tok)) s =
      .next (admittedAnswer s g src tok (admitOne s pk g (ownMessage s (.outbox src tok)))) := by
  rw [messageAdmission_pier hhost, hpk]
  rfl

/-- A message that no pier and no row of its pier refuses at once. -/
theorem messageAdmission_row {e : OutEntry} {frm : AckTo} (ht : Claims.Taken (getPier s pk) e g h) (ha : Claims.MsgArrives s g e frm pk src tok) :
    exec (.messageAdmission g (.outbox src tok)) s = .next (admittedAnswer s g src tok
      (admitted s pk h (admitRow (getPier s pk) g.dact.toNat h (Claims.urgent g) (residentOpen s pk)))) := by
  have hmsg := arrivedMsg_taken ht
  have hlow : (h.flags.toNat % 2 == 1) = Claims.urgent g := by
    rw [← hmsg, arrivedMsg_eq]
    exact keptFlags_low g
  have hdact : h.dact = g.dact := by rw [← hmsg, arrivedMsg_eq]
  rw [messageAdmission_takes ha.host ha.pier, ownMessage_entry ha.entry, admitOne_row hmsg ha.up.1 ha.up.2 ha.cancels, hlow, hdact]

end

/-- Settles O40: the message goes through the rows of R43 in their order, and its answer is on its way. -/
theorem messagesAdmitted : Obligations.MessagesAdmitted := by
  intro s g h e frm pk src tok htaken p d a gone out answers slot spill refuse room fits
  have hmsg := arrivedMsg_taken htaken
  have hdact : h.dact = g.dact := by rw [← hmsg, arrivedMsg_eq]
  have hlow : (h.flags.toNat % 2 == 1) = Claims.urgent g := by
    rw [← hmsg, arrivedMsg_eq]
    exact keptFlags_low g
  have hexempt : Claims.isExempt h = Claims.isExempt g := by
    rw [← hmsg, arrivedMsg_eq]
    rfl
  refine ⟨fun ha => ?_, fun hfrm hhost => ?_, fun hfrm hbit hsact => ?_⟩
  · obtain rfl := ha.frm_
    have hrow := messageAdmission_row htaken ha
    have hrefuse : ∀ st, admitted s pk h (admitRow (getPier s pk) g.dact.toNat h (Claims.urgent g) (residentOpen s pk)) = (s, st) → refuse st :=
      fun st hs => ⟨admittedAnswer s g src tok (s, st), ⟨hrow.trans (by rw [hs]), acked_answer ..⟩, fun k => getPier_answer ..⟩
    have hslot : ∀ r, admitRow (getPier s pk) g.dact.toNat h (Claims.urgent g) (residentOpen s pk) = .slot r → slot r := fun r hs => by
      refine ⟨admittedAnswer s g src tok (setPier s pk (putSlot (getPier s pk) h r s.cycle s.cycle), 0),
        ⟨hrow.trans (by rw [hs]; rfl), acked_answer ..⟩, admitsOnly_slot .., ?_, ?_, ?_⟩
      · rw [admittedAnswer, getActor_answer]
        exact congrArg Actor.spilled (setPier_field (p := putSlot (getPier s pk) h r s.cycle s.cycle) (fun p => pierActor p d) rfl pk)
      · exact sameMemory_trans (sameMemory_of (memories_setPier _ _ (putSlot (getPier s pk) h r s.cycle s.cycle) rfl) (codes_setPier _ _ _ rfl)) (sendsOnly_answer ..).sameMemory
      · rw [admittedAnswer, getPier_answer]
        refine (congrArg Pier.inbox (getPier_setPier_same ..)).trans ?_
        rw [putSlot, hlow]
    have hspill : admitRow (getPier s pk) g.dact.toNat h (Claims.urgent g) (residentOpen s pk) = admitSpill (getActor s pk d) →
        (Claims.spillFits s pk d → spill) ∧ (¬Claims.spillFits s pk d → refuse 1) := fun hs => by
      refine ⟨fun hfit => ?_, fun hunfit => hrefuse 1 ?_⟩
      · obtain ⟨hput, hleaf⟩ := admitSpill_fits hfit
        have hdo : admitted s pk h (admitRow (getPier s pk) g.dact.toNat h (Claims.urgent g) (residentOpen s pk)) =
            (spillPut s pk d h s.cycle, 0) := by
          rw [hs, hput, admitted, hdact]
          exact if_pos hleaf
        refine ⟨admittedAnswer s g src tok (spillPut s pk d h s.cycle, 0), ⟨hrow.trans (by rw [hdo]), acked_answer ..⟩, admitsOnly_spill .., ?_, ?_, ?_, fun hp m b => ?_⟩
        · rw [admittedAnswer, getPier_answer]
          exact getPier_spillPut Pier.inbox (fun _ _ => rfl) ..
        · rw [admittedAnswer, getActor_answer, getActor_spillPut]
        · rw [admittedAnswer, getActor_answer, getActor_spillPut]
        · rw [admittedAnswer, (sendsOnly_answer ..).hbm]
          exact congrArg (fun x => mget x b) (hbm_spillWritten hp m)
      · obtain hr | ⟨hr, hl⟩ := admitSpill_unfit hunfit
        · rw [hs, hr]
          rfl
        · rw [hs, hr, admitted, hdact]
          exact if_neg (by rw [hl]; decide)
    refine ⟨fun hgone => ?_, fun hgone hout hu hroom => ?_, fun hgone hout hu hroom => ?_, fun hgone hout hu hs hfit => ?_,
      fun hgone hc => ?_, fun hgone hc => ?_⟩
    · refine hrefuse 2 ?_
      rw [admitRow_gone (s := s) hgone]
      rfl
    · refine hslot _ ?_
      rw [hu]
      exact admitRow_urgent (s := s) hgone hout hroom
    · refine hrefuse 1 ?_
      rw [hu, admitRow_urgent_full (s := s) hgone hout hroom]
      rfl
    · refine hslot _ ?_
      rw [hu]
      exact admitRow_fits (s := s) hgone hout hs (by rw [Fits, hexempt]; exact hfit)
    · refine (hspill ?_).1
      by_cases hout : out
      · exact admitRow_out (s := s) hgone hout
      · obtain ⟨hu, hs⟩ := hc.resolve_left hout
        rw [hu]
        exact admitRow_full (s := s) hgone hout (hs.imp_right fun hn => by rw [Fits, hexempt]; exact hn)
    · refine (hspill ?_).2
      by_cases hout : out
      · exact admitRow_out (s := s) hgone hout
      · obtain ⟨hu, hs⟩ := hc.resolve_left hout
        rw [hu]
        exact admitRow_full (s := s) hgone hout (hs.imp_right fun hn => by rw [Fits, hexempt]; exact hn)
  · obtain rfl := hfrm
    have hrefuse : ∀ st, pkOfAddr s g.dmod.toNat g.dpier.toNat g.job = some pk →
        admitOne s pk g (ownMessage s (.outbox src tok)) = (s, st) → refuse st := fun st hpk hs =>
      ⟨admittedAnswer s g src tok (s, st), ⟨(messageAdmission_takes hhost hpk).trans (by rw [hs]), acked_answer ..⟩, fun k => getPier_answer ..⟩
    refine ⟨fun hpk => ?_, fun hpk hl => hrefuse 2 hpk (admitOne_lost hl ..), fun hpk hl hf => hrefuse 1 hpk (admitOne_fenced hl hf ..),
      fun hpk hl hf hkind hc => hrefuse 0 hpk (admitOne_cancelled rfl hl hf ?_)⟩
    · exact ⟨_, ⟨by rw [messageAdmission_pier hhost, hpk], acked_answer ..⟩, fun k => getPier_answer ..⟩
    · obtain ⟨c, hcm, hjob, hlevel⟩ := hc
      exact ⟨c, hcm, msgBelongs_job hjob.symm hlevel hkind⟩
  · obtain rfl := hfrm
    have hsend : exec (.messageAdmission g (.outbox src tok)) s =
        .next (answer (sendEvent s g.dmod.toNat 6 g.job (msgBytes g)) g.dmod.toNat .die (.outbox src tok) 0) :=
      congrArg Host.Outcome.next (if_pos ⟨rfl, (flags_host _).mpr hbit, hsact⟩)
    refine ⟨_, ⟨hsend, acked_answer ..⟩, ?_, fun k => getPier_answer ..⟩
    exact (sendsOnly_answer ..).keepsMods.hostEvent (hostEvent_sendEvent ..)

end Sys2Proof.Machine
end

section
/-!
Fault records (R206 to R210).
-/

namespace Sys2Proof.Machine

/-! A record of a pier's device. -/

theorem msgDst_deviceMsg (s : State) (pk lp : Nat) (dst : BitVec 28) (cls prio kind : Nat) (graph : BitVec 12) (words : Nat)
    (pay : List Word) (flags : BitVec 3) : msgDst (deviceMsg s pk lp dst cls prio kind graph words pay flags) = dst := msgDst_parts dst

/-- Word w0 as the record of an actor's fault carries it: marked where it goes to the pier's own service actor (R210). -/
def recordW0 (s : State) (pk lp a : Nat) (w0 : Word) : Word := if (Claims.faultDst s pk lp a).2 then setBits w0 26 1 1 else w0

theorem sendRecord_eq (s : State) (pk lp a : Nat) (w0 w1 w2 w3 w4 w5 : Word) : sendRecord s pk lp a w0 w1 w2 w3 w4 w5 =
    sendDevice s pk lp (Claims.faultDst s pk lp a).1 31 3 5 (getActor s pk a).graph 6 [recordW0 s pk lp a w0, w1, w2, w3, w4, w5] 0 a w2 w3 0 := by
  rw [sendRecord, recordW0, Claims.faultDst]
  simp only [getLsbD_eq_bitAt]
  by_cases hr : bitAt (getActor s pk a).fault 28 = true ∧ (getActor s pk a).fault.extractLsb' 0 28 ≠ addrWord (pkMod pk) lp a
  · rw [if_pos hr]
    simp [hr.1, hr.2]
  · rw [if_neg hr]
    have hredir : (!(bitAt (getActor s pk a).fault 28) || (getActor s pk a).fault.extractLsb' 0 28 == addrWord (pkMod pk) lp a) = true := by
      rw [Bool.or_eq_true, Bool.not_eq_true', beq_iff_eq]
      by_cases hb : bitAt (getActor s pk a).fault 28 = true
      · exact .inr (not_not.mp fun hne => hr ⟨hb, hne⟩)
      · exact .inl (Bool.eq_false_iff.mpr hb)
    simp [hredir]

theorem deviceSends_sendRecord (s : State) (pk lp a : Nat) (w0 w1 w2 w3 w4 w5 : Word) :
    DeviceSends s (sendRecord s pk lp a w0 w1 w2 w3 w4 w5) := by
  rw [sendRecord_eq]
  exact deviceSends_sendDevice ..

/-- A record that is sent stands in the outbox of its pier. -/
theorem sendRecord_carries (s : State) (pk lp a : Nat) (w0 w1 w2 w3 w4 w5 : Word) :
    ∃ g, Claims.InOutbox (sendRecord s pk lp a w0 w1 w2 w3 w4 w5) pk g ∧
      Claims.IsRecord s pk lp (Claims.faultDst s pk lp a).1 g [recordW0 s pk lp a w0, w1, w2, w3, w4, w5] := by
  rw [sendRecord_eq]
  exact ⟨_, sendDevice_carries .., rfl, rfl, rfl, rfl, rfl, rfl, rfl, rfl, msgDst_deviceMsg .., rfl, rfl⟩

/-! The words of a record (R207, R208). -/

/-- The number that word w0 is. -/
def w0Num (code unit slot n d f r b : Nat) : Nat :=
  code % 65536 + unit % 32 * 2 ^ 16 + slot % 4 * 2 ^ 21 + n * 2 ^ 23 + d * 2 ^ 24 + f * 2 ^ 25 + r * 2 ^ 26 + b * 2 ^ 27

theorem faultW0_eq (code unit slot : Nat) (n d f r b : Bool) :
    faultW0 code unit slot n d f r b = BitVec.ofNat 64 (w0Num code unit slot (b2n n) (b2n d) (b2n f) (b2n r) (b2n b)) := rfl

theorem setBits_ofNat {n lo w v : Nat} (h : n < 2 ^ 64) : setBits (BitVec.ofNat 64 n) lo w v =
    BitVec.ofNat 64 (n % 2 ^ lo + v % 2 ^ w * 2 ^ lo + n / 2 ^ (lo + w) * 2 ^ (lo + w)) := by
  rw [setBits, BitVec.toNat_ofNat, Nat.mod_eq_of_lt h]

/-- The redirected flag set in word w0. -/
theorem setBits_faultW0 (code unit slot : Nat) (n d f b : Bool) :
    setBits (faultW0 code unit slot n d f false b) 26 1 1 = faultW0 code unit slot n d f true b := by
  have hn := b2n_le n
  have hd := b2n_le d
  have hf := b2n_le f
  have hb := b2n_le b
  have ht : b2n true = 1 := rfl
  have h0 : b2n false = 0 := rfl
  rw [faultW0_eq, faultW0_eq, ht, h0, setBits_ofNat (by rw [w0Num]; omega)]
  congr 1
  simp only [w0Num]
  omega

theorem recordW0_faultW0 (s : State) (pk lp a code unit slot : Nat) (n d f b : Bool) :
    recordW0 s pk lp a (faultW0 code unit slot n d f false b) = faultW0 code unit slot n d f (Claims.faultDst s pk lp a).2 b := by
  rw [recordW0]
  cases (Claims.faultDst s pk lp a).2 with
  | true => exact setBits_faultW0 ..
  | false => rfl

theorem fld_faultW0 (code unit slot : Nat) (n d f r b : Bool) :
    Claims.fld (faultW0 code unit slot n d f r b) 0 16 = code % 65536 ∧ Claims.fld (faultW0 code unit slot n d f r b) 16 5 = unit % 32 ∧
    Claims.fld (faultW0 code unit slot n d f r b) 21 2 = slot % 4 ∧ Claims.fld (faultW0 code unit slot n d f r b) 28 36 = 0 := by
  have hn := b2n_le n
  have hd := b2n_le d
  have hf := b2n_le f
  have hr := b2n_le r
  have hb := b2n_le b
  simp only [faultW0_eq, fld_ofNat _ _ _ (show 0 + 16 ≤ 64 by decide), fld_ofNat _ _ _ (show 16 + 5 ≤ 64 by decide),
    fld_ofNat _ _ _ (show 21 + 2 ≤ 64 by decide), fld_ofNat _ _ _ (show 28 + 36 ≤ 64 by decide), w0Num]
  omega

theorem getLsbD_ofNat_bit {n i v : Nat} (h : i < 64) (b : Bool) (hv : n / 2 ^ i % 2 = v) (hb : v = b2n b) : (BitVec.ofNat 64 n).getLsbD i = b := by
  have hf := fld_ofNat n i 1 (by omega)
  rw [Nat.pow_one, hv, hb] at hf
  rw [← fld_bit, hf, decide_b2n]

theorem flags_faultW0 (code unit slot : Nat) (n d f r b : Bool) :
    (faultW0 code unit slot n d f r b).getLsbD 23 = n ∧ (faultW0 code unit slot n d f r b).getLsbD 24 = d ∧
    (faultW0 code unit slot n d f r b).getLsbD 25 = f ∧ (faultW0 code unit slot n d f r b).getLsbD 26 = r ∧
    (faultW0 code unit slot n d f r b).getLsbD 27 = b := by
  have hn := b2n_le n
  have hd := b2n_le d
  have hf := b2n_le f
  have hr := b2n_le r
  have hb := b2n_le b
  rw [faultW0_eq]
  refine ⟨getLsbD_ofNat_bit (by decide) _ ?_ rfl, getLsbD_ofNat_bit (by decide) _ ?_ rfl, getLsbD_ofNat_bit (by decide) _ ?_ rfl,
    getLsbD_ofNat_bit (by decide) _ ?_ rfl, getLsbD_ofNat_bit (by decide) _ ?_ rfl⟩
  all_goals
    rw [w0Num]
    omega

theorem faultW1_eq (bundle : BitVec 12) (runid : BitVec 32) : faultW1 bundle runid = (0 : BitVec 20) ++ bundle ++ runid := by
  refine BitVec.eq_of_toNat_eq ?_
  have hb := bundle.isLt
  have hr := runid.isLt
  simp only [faultW1, BitVec.toNat_append, BitVec.toNat_ofNat]
  rw [← Nat.shiftLeft_add_eq_or_of_lt hr]
  simp [Nat.shiftLeft_eq]
  omega

theorem fld_faultW4 (s : State) (pk lp actor strand : Nat) :
    Claims.fld (faultW4 s pk lp actor strand) 30 12 = pkMod pk % 4096 ∧ Claims.fld (faultW4 s pk lp actor strand) 24 6 = actor % 64 ∧
    Claims.fld (faultW4 s pk lp actor strand) 21 3 = strand % 8 ∧ Claims.fld (faultW4 s pk lp actor strand) 0 10 = lp % 1024 ∧
    Claims.fld (faultW4 s pk lp actor strand) 42 22 = 0 := by
  simp only [faultW4, fld_ofNat _ _ _ (show 30 + 12 ≤ 64 by decide), fld_ofNat _ _ _ (show 24 + 6 ≤ 64 by decide),
    fld_ofNat _ _ _ (show 21 + 3 ≤ 64 by decide), fld_ofNat _ _ _ (show 0 + 10 ≤ 64 by decide), fld_ofNat _ _ _ (show 42 + 22 ≤ 64 by decide)]
  omega

/-- The words of a record of the device. -/
theorem recordWords_of (s : State) {pk lp actor strand : Nat} (code : BitVec 16) (unit : BitVec 5) (slot : BitVec 2) (n d f r b : Bool)
    (bundle : BitVec 12) (runid : BitVec 32) (ha : actor < 64) (hst : strand < 8) (hlp : lp < 1024) :
    Claims.RecordWords code unit slot n d f r b bundle runid (pkMod pk) actor strand lp
      (faultW0 code.toNat unit.toNat slot.toNat n d f r b) (faultW1 bundle runid) (faultW4 s pk lp actor strand) := by
  obtain ⟨hc, hu, hs, hh⟩ := fld_faultW0 code.toNat unit.toNat slot.toNat n d f r b
  obtain ⟨hm, ha', hst', hlp', h0⟩ := fld_faultW4 s pk lp actor strand
  exact
    { code_ := hc.trans (Nat.mod_eq_of_lt code.isLt)
      unit_ := hu.trans (Nat.mod_eq_of_lt unit.isLt)
      slot_ := hs.trans (Nat.mod_eq_of_lt slot.isLt)
      flags := flags_faultW0 ..
      high := hh
      run := faultW1_eq ..
      place := ⟨hm, ha'.trans (Nat.mod_eq_of_lt ha), hst'.trans (Nat.mod_eq_of_lt hst), hlp'.trans (Nat.mod_eq_of_lt hlp), h0⟩ }

/-! Flits take time. -/

theorem meshLatency_pos (a b : Place) : 0 < meshLatency a b := by
  unfold meshLatency
  split
  · rename_i x y x' y' _ _
    split
    · decide
    · rename_i hne
      have hd : 0 < dist x x' + dist y y' := by
        simp only [dist]
        omega
      omega
  · decide
  · omega
  · omega

theorem latency_pos (s : State) (m : Nat) (a : Place) (m' : Nat) (b : Place) : 0 < latency s m a m' b := by
  unfold latency
  split
  · exact meshLatency_pos a b
  · simp only
    omega

end Sys2Proof.Machine
end

section
/-!
Returns from a spillway, and the answers to outbox entries (O41).
-/

namespace Sys2Proof.Machine

/-! Slots of an inbox (R44, R181). -/

section
variable {l r : List Slot} {x y : Slot}

theorem dropSlot_append (hl : x ∉ l) : dropSlot (l ++ x :: r) x = l ++ r := by
  induction l with
  | nil => exact if_pos rfl
  | cons z l ih =>
    rw [List.mem_cons, not_or] at hl
    rw [List.cons_append, dropSlot, if_neg fun h => hl.1 h.symm, ih hl.2]
    rfl

theorem replaceSlot_append (hl : x ∉ l) : replaceSlot (l ++ x :: r) x y = l ++ y :: r := by
  induction l with
  | nil => exact if_pos rfl
  | cons z l ih =>
    rw [List.mem_cons, not_or] at hl
    rw [List.cons_append, replaceSlot, if_neg fun h => hl.1 h.symm, ih hl.2]
    rfl

end

theorem returning_iff (d : Nat) (x : Slot) : (x.back && x.msg.dact.toNat == d) = true ↔ Claims.returning d x := by
  rw [Bool.and_eq_true, beq_iff_eq]
  rfl

theorem slotReturns_none {l : List Slot} {d : Nat} (h : ∀ x ∈ l, ¬Claims.returning d x) (cycle : Nat) : slotReturns l d cycle = l := by
  have hf : l.find? (fun x => x.back && x.msg.dact.toNat == d) = none := List.find?_eq_none.mpr fun x hx hr => h x hx ((returning_iff d x).mp hr)
  rw [slotReturns, hf]

theorem slotReturns_first {l r : List Slot} {d : Nat} {x : Slot} (hx : Claims.returning d x) (h : ∀ y ∈ l, ¬Claims.returning d y) (cycle : Nat) :
    slotReturns (l ++ x :: r) d cycle =
      if x.urgent then { x with back := false, since := cycle } :: (l ++ r) else l ++ { x with back := false, since := cycle } :: r := by
  have hf : (l ++ x :: r).find? (fun x => x.back && x.msg.dact.toNat == d) = some x :=
    List.find?_eq_some_iff_append.mpr ⟨(returning_iff d x).mpr hx, l, r, rfl, fun y hy => by
      rw [Bool.not_eq_true']
      exact Bool.eq_false_iff.mpr fun hr => h y hy ((returning_iff d y).mp hr)⟩
  have hnot : x ∉ l := fun hm => h x hm hx
  rw [slotReturns, hf]
  simp only [dropSlot_append hnot, replaceSlot_append hnot]

/-! A message that returns (R44). -/

/-- The state once the oldest message on its way back has joined its queue. -/
def returned (s : State) (pk d : Nat) : State :=
  adjActor (adjPier s pk fun p => { p with inbox := slotReturns p.inbox d s.cycle }) pk d fun a => { a with transit := a.transit - 1 }

theorem spillwayReturn_eq (s : State) (pk d : Nat) : exec (.spillwayReturn pk d) s =
    .next (if mayDrain (returned s pk d) pk d then drainSpill (returned s pk d) pk d 16 else returned s pk d) := rfl

theorem inbox_returned (s : State) (pk d : Nat) : (getPier (returned s pk d) pk).inbox = slotReturns (getPier s pk).inbox d s.cycle := by
  rw [returned, adjActor, getPier_adjPier_same, getPier_adjPier_same]

theorem getActor_returned (s : State) (pk d : Nat) :
    getActor (returned s pk d) pk d = { getActor s pk d with transit := (getActor s pk d).transit - 1 } := by
  rw [returned, getActor_adjActor_same, getActor, getPier_adjPier_same]
  rfl

theorem getPier_returned {α : Type} (f : Pier → α) (hf : ∀ p inbox actors, f { p with inbox, actors } = f p) (s : State) (pk d k : Nat) :
    f (getPier (returned s pk d) k) = f (getPier s k) := by
  by_cases hk : k = pk
  · subst hk
    rw [returned, adjActor, getPier_adjPier_same, getPier_adjPier_same]
    exact hf (getPier s k) (slotReturns (getPier s k).inbox d s.cycle) _
  · rw [returned, adjActor, getPier_adjPier_other _ _ _ _ hk, getPier_adjPier_other _ _ _ _ hk]

theorem sameMemory_returned (s : State) (pk d : Nat) : Claims.SameMemory s (returned s pk d) := by
  refine ⟨fun _ _ => rfl, fun _ _ => rfl, fun k a => ?_, fun k a => ?_⟩
  · rw [getPier_returned Pier.spad fun _ _ _ => rfl]
  · rw [getPier_returned Pier.code fun _ _ _ => rfl]

theorem residentOpen_of {s t : State} {pk : Nat} (hl : pierLoc t pk = pierLoc s pk) (hh : (getPier t pk).halting = (getPier s pk).halting) :
    residentOpen t pk = residentOpen s pk := by rw [residentOpen, hl, hh, residentOpen]

/-- The cycle in which the next message of a spillway will have returned. -/
def drainDue (s : State) (pk d : Nat) : Nat := max (s.cycle + 1 + Config.spillTime s.fresh) (lastSince (getPier s pk) d)

/-- The slot that the next message of a spillway gets. -/
def drainSlot (s : State) (pk d : Nat) (g : Msg) (t : Nat) (r : Bool) : Slot :=
  { msg := g, admitted := t, since := drainDue s pk d, reserve := r, urgent := g.flags.toNat % 2 == 1, back := true }

/-- The pier once the next message of a spillway has a slot. -/
def drainPier (s : State) (pk d : Nat) (g : Msg) (t : Nat) (l : List (Msg × Nat)) (r : Bool) : Pier :=
  let p := getPier s pk
  { p with
    inbox := p.inbox ++ [drainSlot s pk d g t r],
    actors := fset p.actors d { pierActor p d with spilled := l, transit := (pierActor p d).transit + 1 } }

/-- The state once the next message of a spillway has a slot. -/
def drainOne (s : State) (pk d : Nat) (g : Msg) (t : Nat) (l : List (Msg × Nat)) (r : Bool) : State :=
  schedule (setPier (tick1 (vaTouch s (pkMod pk) (getPier s pk).xlroot (spillHead (pierActor (getPier s pk) d)) 64)) pk
    (drainPier s pk d g t l r)) (drainDue s pk d) (.spillwayReturn pk d)

theorem drainSpill_empty {s : State} {pk d : Nat} (h : (getActor s pk d).spilled = []) (n : Nat) : drainSpill s pk d n = s := by
  cases n with
  | zero => rfl
  | succ n => simp only [drainSpill, show (pierActor (getPier s pk) d).spilled = [] from h]

theorem drainSpill_step {s : State} {pk d : Nat} {g : Msg} {t : Nat} {l : List (Msg × Nat)} {r : Bool}
    (h : (getActor s pk d).spilled = (g, t) :: l) (hr : spillLeaves (getPier s pk) d = some r) (n : Nat) :
    drainSpill s pk d (n + 1) = drainSpill (drainOne s pk d g t l r) pk d n := by
  simp only [drainSpill, show (pierActor (getPier s pk) d).spilled = (g, t) :: l from h, hr]
  rfl

theorem getPier_drainOne (s : State) (pk d : Nat) (g : Msg) (t : Nat) (l : List (Msg × Nat)) (r : Bool) :
    getPier (drainOne s pk d g t l r) pk = drainPier s pk d g t l r := getPier_setPier_same ..

theorem getActor_drainOne (s : State) (pk d : Nat) (g : Msg) (t : Nat) (l : List (Msg × Nat)) (r : Bool) :
    getActor (drainOne s pk d g t l r) pk d = { getActor s pk d with spilled := l, transit := (getActor s pk d).transit + 1 } := by
  rw [getActor, getPier_drainOne]
  exact fget_fset_same ..

theorem modsOnly_vaTouch (s : State) (m : Nat) (root va : Word) (n : Nat) : ModsOnly s (vaTouch s m root va n) := by
  unfold vaTouch
  generalize List.range ((va.toNat % 64 + n + 63) / 64) = l
  induction l generalizing s with
  | nil => exact .refl s
  | cons i l ih =>
    refine ModsOnly.trans ?_ (ih _)
    simp only
    split
    · exact modsOnly_endLease ..
    · exact .refl s

theorem sameMemory_drainOne (s : State) (pk d : Nat) (g : Msg) (t : Nat) (l : List (Msg × Nat)) (r : Bool) :
    Claims.SameMemory s (drainOne s pk d g t l r) := by
  have htouch := modsOnly_vaTouch s (pkMod pk) (getPier s pk).xlroot (spillHead (pierActor (getPier s pk) d)) 64
  refine sameMemory_of ?_ ?_
  · rw [drainOne, memories_schedule, memories_setPier _ _ _ (by rw [memories_tick1, memories_vaTouch]; rfl), memories_tick1, memories_vaTouch]
  · rw [drainOne, codes_schedule, codes_setPier _ _ _ (by rw [codes_tick1, htouch.codes]; rfl), codes_tick1, htouch.codes]

theorem spillwayReturns : Claims.SpillwayReturns := by
  intro s pk d p a back
  have hret := getActor_returned s pk d
  refine ⟨fun hs => ?_, fun g t hs hnone hres hst h1 h16 hused hfit => ?_⟩
  · have hmake : exec (.spillwayReturn pk d) s = .next (returned s pk d) := by
      rw [spillwayReturn_eq, if_neg]
      rw [mayDrain, hret, show (getActor s pk d).spilled = [] from hs]
      simp
    exact ⟨_, hmake, hret, fun h => (inbox_returned ..).trans (slotReturns_none h _),
      fun l x r hl hx hy => (inbox_returned ..).trans ((congrArg (fun i => slotReturns i d s.cycle) hl).trans (slotReturns_first hx hy _)),
      sameMemory_returned ..⟩
  · have hinbox : (getPier (returned s pk d) pk).inbox = p.inbox := (inbox_returned ..).trans (slotReturns_none hnone _)
    have hspill : (getActor (returned s pk d) pk d).spilled = [(g, t)] := (congrArg Actor.spilled hret).trans hs
    have hused' : Claims.used (getPier (returned s pk d) pk) < 496 := by
      rw [Claims.used, hinbox]
      exact hused
    have hheld : Claims.held (getPier (returned s pk d) pk) d = Claims.held p d := by rw [Claims.held, hinbox, Claims.held]
    have hleaves : spillLeaves (getPier (returned s pk d) pk) d = some false := by
      have hweir : (pierActor (getPier (returned s pk d) pk) d).weir = a.weir := (congrArg Actor.weir hret :)
      have htransit : (pierActor (getPier (returned s pk d) pk) d).transit = a.transit - 1 := (congrArg Actor.transit hret :)
      rw [spillLeaves, show (pierActor (getPier (returned s pk d) pk) d).spilled = [(g, t)] from hspill]
      simp only [htransit, if_neg (show ¬16 ≤ a.transit - 1 by omega)]
      split
      · rw [freeSlot_room (.inl hused'), decide_eq_false (Nat.not_le_of_lt hused')]
      · rename_i hne
        have hw : occupancy (getPier (returned s pk d) pk) d < (pierActor (getPier (returned s pk d) pk) d).weir.toNat := by
          rw [occupancy_eq, hheld, hweir]
          exact hfit.resolve_left hne
        exact if_pos (by rw [Bool.and_eq_true]; exact ⟨decide_eq_true hw, decide_eq_true hused'⟩)
    have hmay : mayDrain (returned s pk d) pk d = true := by
      have hopen : residentOpen (returned s pk d) pk = true :=
        (residentOpen_of (s := s) (t := returned s pk d) rfl (getPier_returned Pier.halting (fun _ _ _ => rfl) ..)).trans hres
      rw [mayDrain, hopen, hspill, hret]
      simpa using hst
    have hmake : exec (.spillwayReturn pk d) s = .next (drainOne (returned s pk d) pk d g t [] false) := by
      rw [spillwayReturn_eq, if_pos hmay, drainSpill_step hspill hleaves, drainSpill_empty (by rw [getActor_drainOne])]
    refine ⟨_, drainDue (returned s pk d) pk d, hmake, ?_, List.mem_append_right _ (List.mem_singleton_self _), ?_, ?_, ?_, fun x hx hxd => ?_,
      sameMemory_trans (sameMemory_returned ..) (sameMemory_drainOne ..)⟩
    · exact Nat.lt_of_lt_of_le (by show s.cycle < s.cycle + 1 + _; omega) (Nat.le_max_left ..)
    · rw [getActor_drainOne]
    · rw [getActor_drainOne, hret]
      exact Nat.sub_add_cancel h1
    · rw [getPier_drainOne, drainPier, hinbox, drainSlot, flags_low]
    · refine Nat.le_trans (le_maxList ?_) (Nat.le_max_right ..)
      exact List.mem_map.mpr ⟨x, List.mem_filter.mpr ⟨by rw [hinbox]; exact hx, beq_iff_eq.mpr hxd⟩, rfl⟩

/-! Answers to an outbox of one entry (R45, R47). -/

/-- The state once the one entry of an outbox is taken out. -/
def freed (s : State) (pk : Nat) (e : OutEntry) : State :=
  adjPier s pk fun p => { p with outbox := p.outbox.filter fun x => !(x.tok == e.tok) }

section
variable {s : State} {pk : Nat} {e : OutEntry} (h : (getPier s pk).outbox = [e])
include h

theorem outbox_freed : (getPier (freed s pk e) pk).outbox = [] := by
  rw [freed, getPier_adjPier_same]
  simp [h]

theorem freeEntryOf_one : freeEntryOf s pk e.tok = freed s pk e := by
  show pumpOutbox (freed s pk e) pk = _
  rw [pumpOutbox, outbox_freed h]
  split <;> rfl

theorem entryAnswered_one (st : BitVec 3) : exec (.acknowledgement (.outbox pk e.tok) st) s = .next (match st.toNat with
    | 0 => freed s pk e
    | 1 => retryEntry s pk e.tok
    | 5 => misusedEntry (freed s pk e) pk e
    | _ => noSuchActor (freed s pk e) pk e) := by
  have hhome : entryHome s pk e.tok = pk := if_pos (by simp [h])
  have hfind : (getPier s pk).outbox.find? (fun x => x.tok == e.tok) = some e := by simp [h]
  rw [exec_acknowledgement, execAcknowledgement]
  simp only [entryAnswered, hhome, hfind, freeEntryOf_one h]
  rfl

end

theorem sameMemory_adjOutbox (s : State) (pk : Nat) (f : List OutEntry → List OutEntry) :
    Claims.SameMemory s (adjPier s pk fun p => { p with outbox := f p.outbox }) :=
  sameMemory_of (memories_adjPier _ _ _ fun _ => rfl) (codes_adjPier _ _ _ fun _ => rfl)

/-- An entry that is kept for a resend (R45). -/
def retried (e f : OutEntry) : OutEntry := if f.tok = e.tok then { f with sent := false, retry := true, refused := true } else f

theorem retryEntry_one {s : State} {pk : Nat} {e : OutEntry} (h : (getPier s pk).outbox = [e]) :
    (getPier (retryEntry s pk e.tok) pk).outbox = [{ e with sent := false, retry := true, refused := true }] ∧
    Claims.SameMemory s (retryEntry s pk e.tok) := by
  have hbox : (getPier (adjPier s pk fun p => { p with outbox := p.outbox.map (retried e) }) pk).outbox =
      [{ e with sent := false, retry := true, refused := true }] := by
    rw [getPier_adjPier_same]
    simp [h, retried]
  exact ⟨hbox, sameMemory_trans (sameMemory_adjOutbox s pk fun l => l.map (retried e)) (sameMemory_of (memories_schedule ..) (codes_schedule ..))⟩

theorem getActor_freed (s : State) (pk : Nat) (e : OutEntry) (k n : Nat) : getActor (freed s pk e) k n = getActor s k n := by
  by_cases hk : k = pk
  · subst hk
    rw [freed, getActor, getPier_adjPier_same]
    rfl
  · rw [freed, getActor, getPier_adjPier_other _ _ _ _ hk]
    rfl

theorem sameMemory_freed (s : State) (pk : Nat) (e : OutEntry) : Claims.SameMemory s (freed s pk e) :=
  sameMemory_adjOutbox s pk fun l => l.filter fun x => !(x.tok == e.tok)

/-- The report of what became of an entry. -/
theorem entryRecord_reports {s : State} {pk : Nat} {e : OutEntry} (h : (getPier s pk).outbox = [e]) (f : OutEntry) (code : Nat) (w3 : Word) :
    (getPier (entryRecord (freed s pk e) pk f code w3) pk).outbox = [] ∧
    (∃ d, Work.ev (.deferredFaultReport d) ∈ (entryRecord (freed s pk e) pk f code w3).agenda ∧ d.pk = pk ∧ d.code = BitVec.ofNat 16 code ∧
      d.w3 = w3 ∧ d.actor = f.actor ∧ d.bundle = f.bundle ∧ d.runid = f.runid ∧ d.w2 = f.move ∧ d.lp = actorLp s pk f.actor ∧
      d.notResident = false) ∧ Claims.SameMemory s (entryRecord (freed s pk e) pk f code w3) := by
  have hlp : actorLp (freed s pk e) pk f.actor = actorLp s pk f.actor := by rw [actorLp, getActor_freed, actorLp]
  exact ⟨outbox_freed h, ⟨_, List.mem_append_right _ (List.mem_singleton_self _), rfl, rfl, rfl, rfl, rfl, rfl, rfl, hlp, rfl⟩,
    sameMemory_trans (sameMemory_freed s pk e) (sameMemory_of (memories_nowDo ..) (codes_nowDo ..))⟩

theorem toNat_destination (m p : Nat) : (addrWord m p 0).toNat = m % 4096 * 2 ^ 16 + p % 1024 * 2 ^ 6 := by
  rw [toNat_addrWord]
  omega

/-- A record that goes on to the service actor (R210). -/
def redirected (pk : Nat) (g : Msg) : Msg :=
  let dst := addrWord (pkMod pk) (bits (payWord g 4) 0 10) 63
  { g with dmod := BitVec.ofNat 12 (awMod dst), dpier := BitVec.ofNat 10 (awPier dst), dact := 63,
           pay := setBits (payWord g 0) 26 1 1 :: g.pay.drop 1 }

theorem payWord_redirected (pk : Nat) (g : Msg) {i : Nat} (hi : 1 ≤ i) : payWord (redirected pk g) i = payWord g i := by
  obtain ⟨j, rfl⟩ := Nat.exists_eq_add_of_le' hi
  simp [payWord, redirected, lgetD_eq_getD, List.getD_eq_getElem?_getD]

theorem payWord_redirected_zero (pk : Nat) {g : Msg} (h : 0 < g.words.toNat) : Claims.fld (payWord (redirected pk g) 0) 26 1 = 1 := by
  have h0 : payWord (redirected pk g) 0 = setBits (payWord g 0) 26 1 1 := if_pos h
  have hbit := fld_bit (setBits (payWord g 0) 26 1 1) 26
  rw [setBits_one, BitVec.getLsbD_or] at hbit
  rw [h0, setBits_one]
  have : (BitVec.ofNat 64 (2 ^ 26)).getLsbD 26 = true := by decide
  rw [this, Bool.or_true] at hbit
  exact of_decide_eq_true hbit

/-! A resend (R45). -/

theorem outboxResend_one {s : State} {pk : Nat} {e : OutEntry} {g : Msg} (h : (getPier s pk).outbox = [e]) (hb : e.body = .msg g)
    (hs : e.sent = false) (ha : e.after = []) (hr : residentOpen s pk = true) (hreach : reachable s (pkMod pk) g.dmod.toNat = true) :
    ∃ s', exec (.outboxResend (.outbox pk e.tok)) s = .next s' ∧ (getPier s' pk).outbox = [{ e with retry := false, sent := true }] ∧
      Claims.Coming s s' (.messageAdmission g (.outbox pk e.tok)) ∧ Claims.SameMemory s s' := by
  let s1 := adjPier s pk fun p => { p with outbox := p.outbox.map fun f => if f.tok = e.tok then { f with retry := false } else f }
  let s2 := adjPier s1 pk fun p => { p with outbox := p.outbox.map fun f => if f.tok = e.tok then { f with sent := true } else f }
  have h1 : (getPier s1 pk).outbox = [{ e with retry := false }] := by
    rw [getPier_adjPier_same]
    simp [h]
  have h2 : (getPier s2 pk).outbox = [{ e with retry := false, sent := true }] := by
    rw [getPier_adjPier_same]
    simp [h1]
  have hopen : residentOpen s1 pk = true := (residentOpen_of (s := s) (t := s1) rfl (by rw [getPier_adjPier_same])).trans hr
  have hleave : mayLeave s1 pk [] { e with retry := false } = true := by simp [mayLeave, hs, ha]
  have hreach2 : reachable s2 (pkMod pk) g.dmod.toNat = true := hreach
  have hsend : exec (.outboxResend (.outbox pk e.tok)) s = .next (launchOn s2 pk (g.dmod.toNat * 1024 + g.dpier.toNat)
      (latency s2 (pkMod pk) (placeOf s2 pk) g.dmod.toNat (destPlace s2 g.dmod.toNat g.dpier.toNat g.job))
      (.messageAdmission g (.outbox pk e.tok))) := by
    refine congrArg Host.Outcome.next ?_
    show pumpOutbox s1 pk = _
    rw [pumpOutbox, if_pos hopen, h1]
    simp only [List.take_succ_cons, List.take_nil, pumpList, if_pos hleave]
    simp only [sendEntry, hb]
    exact if_pos hreach2
  refine ⟨_, hsend, ?_, launchOn_coming s2 pk _ (latency_pos ..) _, ?_⟩
  · rw [launchOn_outbox, h2]
  · exact sameMemory_trans (sameMemory_trans
      (sameMemory_adjOutbox s pk fun l => l.map fun f => if f.tok = e.tok then { f with retry := false } else f)
      (sameMemory_adjOutbox s1 pk fun l => l.map fun f => if f.tok = e.tok then { f with sent := true } else f)) (sendsOnly_launchOn ..).sameMemory

/-! Deferred reports (R206 to R208). -/

theorem deferredFaultReport_sends {s : State} {d : Deferred} {pk : Nat} (hpk : d.pk = pk) (hlp : d.lp < 1024) (ha : d.actor < 64)
    (hst : d.strand < 8) (hc : carrierPk s (pkMod pk) (pkPart pk) d.lp = some pk) :
    ∃ s' g w0 w1 w4, exec (.deferredFaultReport d) s = .next s' ∧ Claims.InOutbox s' pk g ∧
      Claims.IsRecord s pk d.lp (Claims.faultDst s pk d.lp d.actor).1 g [w0, w1, d.w2, d.w3, w4, d.w5] ∧
      Claims.RecordWords d.code d.unit d.slot d.notResident true false (Claims.faultDst s pk d.lp d.actor).2 false
        d.bundle d.runid (pkMod pk) d.actor d.strand d.lp w0 w1 w4 ∧
      (∀ k, getStrand s' pk k = getStrand s pk k) ∧ Claims.SameMemory s s' := by
  let w0 := faultW0 d.code.toNat d.unit.toNat d.slot.toNat d.notResident true false false false
  have hsend : exec (.deferredFaultReport d) s = .next (sendRecord s pk d.lp d.actor w0 (faultW1 d.bundle d.runid) d.w2 d.w3
      (faultW4 s pk d.lp d.actor d.strand) d.w5) := by
    rw [exec_deferredFaultReport, execDeferredFaultReport, sendDeferred, hpk, hc]
    rfl
  obtain ⟨g, hg, hrec⟩ := sendRecord_carries s pk d.lp d.actor w0 (faultW1 d.bundle d.runid) d.w2 d.w3 (faultW4 s pk d.lp d.actor d.strand) d.w5
  have hframe := deviceSends_sendRecord s pk d.lp d.actor w0 (faultW1 d.bundle d.runid) d.w2 d.w3 (faultW4 s pk d.lp d.actor d.strand) d.w5
  rw [recordW0_faultW0] at hrec
  exact ⟨_, g, _, _, _, hsend, hg, hrec, recordWords_of s _ _ _ _ _ _ _ _ _ _ ha hst hlp, fun k => hframe.getStrand pk k, hframe.sameMemory⟩

theorem outboxAnswers : Claims.OutboxAnswers := by
  refine ⟨fun s pk e h => ?_, fun s d pk hpk hlp ha hst hc => deferredFaultReport_sends hpk hlp ha hst hc⟩
  intro backTo reports
  have hans := entryAnswered_one h
  have hreport : ∀ {code : Nat} {w3 : Word} {st : BitVec 3}, exec (.acknowledgement backTo st) s = .next (entryRecord (freed s pk e) pk e code w3) →
      reports (BitVec.ofNat 16 code) w3 st := fun {code w3 st} hs => by
    obtain ⟨hout, ⟨d, hd, h1, h2, h3, h4, h5, h6, h7, h8, h9⟩, hmem⟩ := entryRecord_reports h e code w3
    exact ⟨_, d, hs, hout, hd, h1, h2, h3, h4, h5, h6, h7, h8, h9, hmem⟩
  have hgone : ∀ {t : State}, noSuchActor (freed s pk e) pk e = t → exec (.acknowledgement backTo 2) s = .next t := fun ht =>
    (hans 2).trans (congrArg Host.Outcome.next ht)
  refine ⟨⟨_, hans 0, outbox_freed h, sameMemory_freed s pk e⟩, ⟨_, hans 1, List.mem_append_right _ (List.mem_singleton_self _), ?_, ?_⟩,
    fun g hb hk hu => hreport (hgone ?_), fun gr v hb => hreport (hgone ?_), fun gr v hb => hreport (hgone ?_), fun a hb hf ha => hreport (hgone ?_),
    fun a hb hfa => ?_, fun g hb hk hbit hw => ?_, fun a hb hf ha => hreport ((hans 5).trans (congrArg Host.Outcome.next ?_)),
    fun g hb _ hs ha hr hreach => outboxResend_one h hb hs ha hr hreach⟩
  · exact (retryEntry_one h).1
  · exact (retryEntry_one h).2
  · simp only [noSuchActor, hb]
    rw [if_neg hk, if_neg hu]
  · simp only [noSuchActor, hb]
  · simp only [noSuchActor, hb]
    rfl
  · simp only [noSuchActor, hb]
    rw [if_neg ha, if_pos hf]
  · have hto : ∃ f : OutEntry, f.actor = e.actor ∧ noSuchActor (freed s pk e) pk e =
        entryRecord (freed s pk e) pk f 0x15 (BitVec.ofNat 64 (a.mod % 4096 * 2 ^ 16 + a.pier % 1024 * 2 ^ 6)) := by
      simp only [noSuchActor, hb, toNat_destination]
      by_cases ha : e.actor = 63
      · exact ⟨{ e with move := 0 }, rfl, if_pos ha⟩
      · exact ⟨e, rfl, (if_neg ha).trans (by rw [if_neg (hfa.resolve_right ha)])⟩
    obtain ⟨f, hf, hto⟩ := hto
    obtain ⟨hout, ⟨d, hd, h1, h2, h3, h4, -⟩, hmem⟩ := entryRecord_reports h f 0x15
      (BitVec.ofNat 64 (a.mod % 4096 * 2 ^ 16 + a.pier % 1024 * 2 ^ 6))
    exact ⟨_, d, hgone hto, hout, hd, h1, h2, h4.trans hf, h3, hmem⟩
  · have hto : noSuchActor (freed s pk e) pk e = enqueue (freed s pk e) pk (.toActor 63 (addrWord (pkMod pk) (bits (payWord g 4) 0 10) 63))
        (.msg (redirected pk g)) e.actor e.runid e.bundle e.strand e.move e.w3 e.unit := by
      simp only [noSuchActor, hb]
      rw [if_pos hk, redirectRecord, ← getLsbD_eq_bitAt, hbit]
      rfl
    obtain ⟨x, hx, hxb, -⟩ := enqueue_carries (freed s pk e) pk (.toActor 63 (addrWord (pkMod pk) (bits (payWord g 4) 0 10) 63))
      (.msg (redirected pk g)) e.actor e.runid e.bundle e.strand e.move e.w3 e.unit 0 []
    refine ⟨_, redirected pk g, hgone hto, ⟨x, hx, hxb⟩, rfl, ?_, payWord_redirected_zero pk hw, fun i hi => payWord_redirected pk g hi,
      sameMemory_trans (sameMemory_freed s pk e) (sendsOnly_enqueue ..).sameMemory⟩
    show BitVec.ofNat 12 (awMod (addrWord _ _ _)) = _
    rw [awMod_addrWord, ofNat_mod 12 _ 4096 rfl]
  · show misusedEntry (freed s pk e) pk e = _
    simp only [misusedEntry, hb]
    rw [if_neg (by rw [hf]; decide), if_neg ha]

/-- Settles O41: a returning slot is the first one of its actor; an answer to the one entry of an outbox takes it out, keeps it, or reports it. -/
theorem spillwaysAndOutboxAnswers : Obligations.SpillwaysAndOutboxAnswers := ⟨spillwayReturns, outboxAnswers⟩

end Sys2Proof.Machine
end

section
/-!
Locks, retired actors, watchdogs and replays (O43), and a dispatch to the service actor (O42).
-/

namespace Sys2Proof.Machine

/-! The index of a retired actor (R56). -/

theorem awActor_word (w : Word) : awActor (w.extractLsb' 0 28) = Claims.fld w 0 6 := by
  rw [awActor, Claims.fld, BitVec.extractLsb'_toNat, Nat.shiftRight_zero]
  omega

theorem cmdTo_iff (s : State) (pk n : Nat) (c : StreamCmd) : cmdTo s pk n c = true ↔ Claims.delivers s pk n c := by
  have hk : ∀ v : BitVec 3, (c.kind.toNat == v.toNat) = true ↔ c.kind = v := fun v => by
    rw [beq_iff_eq, BitVec.toNat_inj]
  have hwrites : cmdWrites c = true ↔ c.kind = 1 ∨ c.kind = 3 := by
    rw [cmdWrites, Bool.or_eq_true]
    exact or_congr (hk 1) (hk 3)
  have h5 : (cmdKind c != 5) = true ↔ c.kind ≠ 5 := by
    rw [bne, Bool.not_eq_true']
    exact Bool.eq_false_iff.trans (not_congr (hk 5))
  rw [cmdTo, Bool.and_eq_true, Bool.and_eq_true, Bool.and_eq_true, Bool.not_eq_true', Bool.eq_false_iff, ne_eq, hwrites, h5, beq_iff_eq,
    beq_iff_eq, cmdActor, awActor_word, streamPier, cmdActor, awMod_word, awPier_word, not_or, Claims.delivers]
  simp only [and_assoc]

theorem streamTo_iff (s : State) (pk n : Nat) : streamTo s pk n = false ↔ ∀ m ∈ s.mods, ∀ x ∈ m.2.abuts,
    (∀ c ∈ x.2.ctxs, ∀ t, c.2 = some t → ¬Claims.delivers s pk n t.cmd) ∧ ∀ c ∈ x.2.savedCtxs, ¬Claims.delivers s pk n c.2.cmd := by
  have hctx : ∀ c : Nat × Option Stream, (match c.2 with | some t => cmdTo s pk n t.cmd | none => false) = true ↔
      ∃ t, c.2 = some t ∧ Claims.delivers s pk n t.cmd := fun c => by
    cases hc : c.2 with
    | none => simp
    | some t => simp [cmdTo_iff]
  rw [streamTo, List.any_eq_false]
  refine forall₂_congr fun m _ => ?_
  rw [Bool.not_eq_true, List.any_eq_false]
  refine forall₂_congr fun x _ => ?_
  rw [Bool.or_eq_true, not_or, Bool.not_eq_true, List.any_eq_false, Bool.not_eq_true, List.any_eq_false]
  refine and_congr (forall₂_congr fun c _ => ?_) (forall₂_congr fun c _ => not_congr (cmdTo_iff ..))
  refine (not_congr (hctx c)).trans ?_
  rw [not_exists]
  exact forall_congr' fun _ => not_and

theorem retireReady_iff (s : State) (pk n : Nat) : retireReady s pk n = true ↔ Claims.RetireDone s pk n := by
  have hmq : ((getPier s pk).mq.all (fun e => e.actor.toNat != n)) = true ↔ ∀ e ∈ (getPier s pk).mq, e.actor.toNat ≠ n := by
    simp
  rw [retireReady, Bool.and_eq_true, Bool.and_eq_true, Bool.and_eq_true, Bool.and_eq_true, Bool.not_eq_true', Bool.not_eq_true', beq_iff_eq,
    hmq, streamTo_iff]
  constructor
  · rintro ⟨⟨⟨⟨hret, hidle⟩, hlock⟩, hmatrix⟩, hstreams⟩
    exact ⟨⟨hret, hidle, hlock⟩, hmatrix, hstreams⟩
  · rintro ⟨⟨hret, hidle, hlock⟩, hmatrix, hstreams⟩
    exact ⟨⟨⟨⟨hret, hidle⟩, hlock⟩, hmatrix⟩, hstreams⟩

theorem retireComplete_frees {s : State} {pk n : Nat} (h : Claims.RetireDone s pk n) :
    ∃ s', exec (.actorRetireComplete pk n) s = .next s' ∧ (getActor s' pk n).st = .free ∧
      (∀ k, k ≠ n → getActor s' pk k = getActor s pk k) ∧ Claims.SameMemory s s' := by
  refine ⟨adjPier s pk fun p => { p with actors := fdel p.actors n }, congrArg Host.Outcome.next (if_pos ((retireReady_iff ..).mpr h)), ?_,
    fun k hk => ?_, sameMemory_of (memories_adjPier _ _ _ fun _ => rfl) (codes_adjPier _ _ _ fun _ => rfl)⟩
  · simp [getActor, pierActor, fget_fdel_same]
  · simp [getActor, pierActor, fget_fdel_other _ _ _ _ hk]

/-! The lock of an ended run (R172). -/

theorem lockReleases_iff (s : State) (pk n : Nat) : ((getActor s pk n).ending ∧ (getPier s pk).late.all (fun l => l.actor != n) = true) ↔
    ((getActor s pk n).ending = true ∧ ∀ l ∈ (getPier s pk).late, l.actor ≠ n) := by
  simp

theorem lockRelease_frees {s : State} {pk n : Nat} (h : (getActor s pk n).ending = true ∧ ∀ l ∈ (getPier s pk).late, l.actor ≠ n) :
    ∃ s', exec (.actorLockRelease pk n) s = .next s' ∧ getActor s' pk n = { getActor s pk n with ending := false } ∧
      (∀ k, k ≠ n → getActor s' pk k = getActor s pk k) ∧ Claims.SameMemory s s' :=
  ⟨adjActor s pk n fun a => { a with ending := false }, congrArg Host.Outcome.next (if_pos ((lockReleases_iff ..).mpr h)), getActor_adjActor_same ..,
    fun k hk => getActor_adjActor_other s pk n _ pk k fun h => hk h.2,
    sameMemory_of (memories_adjActor ..) (codes_adjActor ..)⟩

/-! A replay that diverges (R272). -/

theorem replayDivergence_tells {s : State} {pk : Nat} (hjob : (getMod s (pkMod pk)).veiv.rrJob = jobOf s pk)
    (hmode : (getMod s (pkMod pk)).veiv.rrMode = 2) (hfree : (getPier s pk).rrFree = false) :
    ∃ s', exec (.replayDivergence pk) s = .next s' ∧ (getPier s' pk).rrFree = true ∧
      Claims.HostEvent s' (pkMod pk) (jobOf s pk) 0x14 (Claims.bytes8 (BitVec.ofNat 64 (pkLp pk))) ∧ Claims.SameMemory s s' := by
  have hreplay : replaying s pk = true := by simp [replaying, traceMode, hjob, hmode, hfree]
  refine ⟨_, congrArg Host.Outcome.next (if_pos hreplay), ?_, ?_, ?_⟩
  · simp [sendEvent, sendFrame, adjHost]
  · rw [← wordBytes_eq]
    exact hostEvent_sendEvent ..
  · exact sameMemory_of (by simp [sendEvent, sendFrame, adjHost]) (by simp [sendEvent, sendFrame, adjHost])

/-- Settles O43: each step acts exactly where its condition holds, and the condition of the retirement is `RetireDone`. -/
theorem runsReleaseAndExpire : Obligations.RunsReleaseAndExpire := by
  intro s pk n a x idle done
  refine ⟨fun hending hidle => lockRelease_frees ⟨hending, hidle⟩, fun h => ?_, retireComplete_frees, fun h => ?_, fun hrun hexp hres => ?_,
    fun hexp => ?_, replayDivergence_tells⟩
  · exact congrArg Host.Outcome.next (if_neg fun hc => h ((lockReleases_iff ..).mp hc))
  · exact congrArg Host.Outcome.next (if_neg fun hc => h ((retireReady_iff ..).mp hc))
  · exact congrArg Host.Outcome.next (if_pos ⟨hrun, hexp, hres⟩)
  · exact congrArg Host.Outcome.next (if_neg fun ⟨_, hc, _⟩ => Nat.not_le.mpr hexp hc)

/-! A dispatch to the service actor (R185, R210). -/

theorem dispatch_service {s : State} {pk st : Nat} {x : Slot} (hres : residentOpen s pk = true) (hup : (getPier s pk).fenced = false)
    (hfree : freeStrand (getPier s pk) = some st) (hx : chooseService (getPier s pk) s.cycle = some x) :
    exec (.dispatch pk) s = .next (bindService s pk st x) := by
  show Host.Outcome.next (if residentOpen s pk = false ∨ (getPier s pk).fenced = true then s else _) = _
  rw [if_neg (by rw [hres, hup]; decide), hfree]
  show Host.Outcome.next (match chooseService (getPier s pk) s.cycle with | some x => bindService s pk st x | none => _) = _
  rw [hx]

/-- A message to the service actor of the kind of a command, of length 0, whose storage holds a word of create (R48). -/
def emptyCommand : Slot :=
  { msg := { dact := 63, cls := 1, sact := 2, job := 1, kind := 6, words := 0, pay := [1] }
    admitted := 50, since := 50, reserve := false, urgent := false }

/-- A resident pier whose one message is that command. -/
def emptyCommandWaits : State :=
  { State.reset with
    agenda := []
    cycle := 100
    mods := [(0, { present := true
                   parts := [(0, { job := 1, inUse := true, table := [(0, 0x80000000)], halfspans := 1, loc := [(0, .piers)] })] })]
    piers := [(0, { actors := [(63, { st := .idle })], inbox := [emptyCommand] })] }

theorem emptyCommandWaits_mayDispatch : Claims.MayDispatch emptyCommandWaits 0 0 :=
  { resident := by decide +kernel
    up := by decide +kernel
    free := by decide +kernel
    parked := by decide +kernel
    runs := by decide +kernel
    trace := by decide +kernel }

theorem emptyCommandWaits_dispatch :
    exec (.dispatch 0) emptyCommandWaits = .next (bindService emptyCommandWaits 0 0 emptyCommand) :=
  dispatch_service (by decide +kernel) (by decide +kernel) (by decide +kernel) (by decide +kernel)

/-- Refutes O42: of a command of length 0 the dispatcher reads the word 0 (R48), so it starts the step of a reserved command, where the
claim names the step of the word that the message's storage holds. -/
theorem not_dispatches : ¬Obligations.Dispatches := by
  intro h
  obtain ⟨-, -, hservice⟩ := h emptyCommandWaits 0 0 emptyCommand emptyCommandWaits_mayDispatch
    ⟨rfl, by decide +kernel⟩
  obtain ⟨s', i, due, hexec, -, -, -, -, -, -, -, -, hdue, hi⟩ := hservice (by decide +kernel) rfl (by decide +kernel) (by decide +kernel)
  rw [emptyCommandWaits_dispatch] at hexec
  cases hexec
  have hstarted : (due, i) ∈ [(100 + 2 + Config.serviceTime 0, Instr.reservedServiceCommand 0 emptyCommand.msg)] := hdue
  rw [List.mem_singleton, hi] at hstarted
  cases hstarted

end Sys2Proof.Machine
end

section
/-!
A cancel at a pier of a state whose module map is out of order (O45).
-/

namespace Sys2Proof.Machine

/-- A cancel of the whole of job 1 that waits for pier 0 alone. -/
def lastPierRun : CancelRun := { job := 1, level := 2, id := 0, piers := [0], markers := 0, start := 0 }

/-- Module 0 holds job 1, on the one pier 0, and runs that cancel; module 5 stands before it in the map of the modules. -/
def modulesOutOfOrder : State :=
  { State.reset with
    agenda := []
    mods := [ (5, {})
            , (0, { present := true
                    parts := [(0, { job := 1, inUse := true, table := [(0, 0x80000000)], halfspans := 1, loc := [(0, .piers)] })]
                    cancelRun := some lastPierRun }) ] }

/-- The markers that the cancel at module 0 waits for after a step. -/
def markersAt0 : Out → Option Nat
  | .next s => (getMod s 0).cancelRun.map CancelRun.markers
  | _ => none

/-- The discarding writes module 0 in front of module 5 and leaves its old entry behind, so that its pier counts twice. -/
theorem modulesOutOfOrder_markers : markersAt0 (exec (.cancelAtPier 0 1 2 0) modulesOutOfOrder) = some 2 := by decide +kernel

/-- Refutes O45: the statement bears on every state, one whose module map is not in rising order included. There the cancel at the last pier
sends two markers where the job has one pier. -/
theorem not_cancelsAndPhases : ¬Obligations.CancelsAndPhases := by
  rintro ⟨-, hcancel, -⟩
  obtain ⟨s', hexec, -, -, -, -, -, -, -, -, -, hrun⟩ :=
    hcancel modulesOutOfOrder 0 ⟨1, 2, 0⟩ (by decide +kernel) rfl List.nodup_nil fun _ _ => rfl
  obtain ⟨hone, -⟩ := hrun 0 lastPierRun (by decide) rfl rfl rfl rfl (by decide)
  have hpiers : piersOfJob modulesOutOfOrder (BitVec.ofNat 12 1) = [0] := by decide +kernel
  have htwo := hexec ▸ modulesOutOfOrder_markers
  rw [markersAt0, hone, hpiers] at htwo
  exact absurd htwo (by decide)

end Sys2Proof.Machine
end

section
/-!
The work of the service actor: what it leaves, its answers and the end of its run (R210, R212).
-/

namespace Sys2Proof.Machine

/-! What a pier sends changes no other pier. -/

/-- The second state is the first in every pier but one. -/
structure OwnPier (pk : Nat) (s t : State) : Prop where
  others : ∀ k, k ≠ pk → getPier t k = getPier s k

theorem OwnPier.refl (pk : Nat) (s : State) : OwnPier pk s s := ⟨fun _ _ => rfl⟩

theorem OwnPier.trans {pk : Nat} {s t u : State} (h : OwnPier pk s t) (h' : OwnPier pk t u) : OwnPier pk s u :=
  ⟨fun k hk => (h'.others k hk).trans (h.others k hk)⟩

theorem ownPier_of {pk : Nat} {s t : State} (h : t.piers = s.piers) : OwnPier pk s t := ⟨fun k _ => by
  rw [getPier, h]
  rfl⟩

theorem ownPier_adjPier (s : State) (pk : Nat) (f : Pier → Pier) : OwnPier pk s (adjPier s pk f) :=
  ⟨fun _ hk => getPier_adjPier_other _ _ _ _ hk⟩

theorem ownPier_launchOn (s : State) (pk key lat : Nat) (i : Instr) : OwnPier pk s (launchOn s pk key lat i) :=
  ⟨fun _ hk => by rw [launchOn, getPier_schedule, getPier_adjPier_other _ _ _ _ hk, getPier_tick1]⟩

theorem piers_launch (s : State) (lat : Nat) (i : Instr) : (launch s lat i).piers = s.piers := by
  unfold launch
  split <;> rfl

theorem ownPier_launchCopy (s : State) (c : MCopy) (i : Nat) : OwnPier c.pk s (launchCopy s c i) := by
  unfold launchCopy
  simp only
  split
  · exact ownPier_launchOn ..
  · exact ownPier_of (piers_launch ..)

theorem ownPier_launchAll (c : MCopy) (l : List Nat) (s : State) : OwnPier c.pk s (l.foldl (fun s i => launchCopy s c i) s) := by
  induction l generalizing s with
  | nil => exact .refl ..
  | cons i l ih => exact (ownPier_launchCopy s c i).trans (ih _)

theorem ownPier_startCopies (s : State) (pk gr e : Nat) (g : Msg) (x : Group) : OwnPier pk s (startCopies s pk gr e g x) := by
  unfold startCopies
  simp only
  have hall : ∀ (c : MCopy) (l : List Nat), c.pk = pk → OwnPier pk s (l.foldl (fun s i => launchCopy s c i)
      (adjMod { s with tok := s.tok + 1 } (pkMod pk) fun y => { y with copies := y.copies ++ [c] })) := by
    rintro c l rfl
    refine OwnPier.trans ?_ (ownPier_launchAll c l _)
    exact ownPier_of rfl
  split
  · exact (hall _ _ rfl).trans (ownPier_of (piers_launch ..))
  · exact hall _ _ rfl

theorem ownPier_answer (s : State) (pk m : Nat) (pl : Place) (e : AckTo) (st : BitVec 3) : OwnPier pk s (answer s m pl e st) :=
  ⟨fun _ _ => getPier_answer ..⟩

theorem ownPier_sendEntry (s : State) (pk : Nat) (e : OutEntry) : OwnPier pk s (sendEntry s pk e) := by
  unfold sendEntry
  simp only
  split
  · split
    · exact ownPier_launchOn ..
    · exact ownPier_answer ..
  · split
    · exact ownPier_launchOn ..
    · exact ownPier_answer ..
  · exact ownPier_launchOn ..
  · split
    · exact ownPier_startCopies ..
    · exact ownPier_answer ..
  · exact ownPier_launchOn ..

theorem ownPier_pumpList (pk : Nat) (l : List OutEntry) (s : State) (done : List OutEntry) : OwnPier pk s (pumpList s pk done l) := by
  induction l generalizing s done with
  | nil => exact .refl ..
  | cons e l ih =>
    unfold pumpList
    split
    · exact ((ownPier_adjPier s pk _).trans (ownPier_sendEntry ..)).trans (ih ..)
    · exact ih ..

theorem ownPier_pumpOutbox (s : State) (pk : Nat) : OwnPier pk s (pumpOutbox s pk) := by
  unfold pumpOutbox
  split
  · exact ownPier_pumpList ..
  · exact .refl ..

theorem ownPier_enqueue (s : State) (pk : Nat) (key : StreamKey) (body : OutBody) (actor : Nat) (runid : BitVec 32) (bundle : BitVec 12)
    (strand : Nat) (move w3 : Word) (unit : BitVec 5) (slot : BitVec 2) (after : List Nat) :
    OwnPier pk s (enqueue s pk key body actor runid bundle strand move w3 unit slot after) := by
  have htok : OwnPier pk s { s with tok := s.tok + 1 } := ownPier_of rfl
  exact (htok.trans (ownPier_adjPier _ pk _)).trans (ownPier_pumpOutbox _ pk)

/-! What changes nothing (R212). -/

theorem changesNothing_trans {s t u : State} {pk st : Nat} (h : Claims.ChangesNothing s t pk st) (k : Claims.ChangesNothing t u pk st) :
    Claims.ChangesNothing s u pk st := by
  obtain ⟨h1, h2, h3, h4⟩ := h.pier
  obtain ⟨k1, k2, k3, k4⟩ := k.pier
  exact
    { memory := sameMemory_trans h.memory k.memory
      runs := fun n hn => (k.runs n hn).trans (h.runs n hn)
      actors := fun n hn => (k.actors n hn).trans (h.actors n hn)
      pier := ⟨k1.trans h1, k2.trans h2, k3.trans h3, k4.trans h4⟩
      piers := fun n hn => (k.piers n hn).trans (h.piers n hn)
      abuts := fun m a => (k.abuts m a).trans (h.abuts m a) }

/-- Modules that keep their memory and abutments. -/
theorem changesNothing_mods {s t : State} (pk st : Nat) (h : ModsOnly s t) (hm : memories t = memories s)
    (ha : ∀ m a, getAbut t m a = getAbut s m a) : Claims.ChangesNothing s t pk st where
  memory := sameMemory_of hm h.codes
  runs n _ := by rw [getStrand, h.getPier, getStrand]
  actors n _ := by rw [getActor, h.getPier, getActor]
  pier := by
    rw [h.getPier]
    exact ⟨rfl, rfl, rfl, rfl⟩
  piers k _ := h.getPier k
  abuts := ha

theorem changesNothing_adjService (s : State) (pk st : Nat) (f : Actor → Actor) : Claims.ChangesNothing s (adjActor s pk 63 f) pk st where
  memory := sameMemory_of (memories_adjActor ..) (codes_adjActor ..)
  runs n _ := by
    rw [getStrand, adjActor, getPier_adjPier_same]
    rfl
  actors n hn := getActor_adjActor_other s pk 63 f pk n fun h => hn h.2
  pier := by
    rw [adjActor, getPier_adjPier_same]
    exact ⟨rfl, rfl, rfl, rfl⟩
  piers := (ownPier_adjPier s pk _).others
  abuts _ _ := rfl

theorem changesNothing_enqueue (s : State) (pk st : Nat) (key : StreamKey) (body : OutBody) (actor : Nat) (runid : BitVec 32)
    (bundle : BitVec 12) (strand : Nat) (move w3 : Word) (unit : BitVec 5) (slot : BitVec 2) (after : List Nat) :
    Claims.ChangesNothing s (enqueue s pk key body actor runid bundle strand move w3 unit slot after) pk st := by
  have h := sendsOnly_enqueue s pk key body actor runid bundle strand move w3 unit slot after
  exact
    { memory := h.sameMemory
      runs := fun n _ => h.getStrand pk n
      actors := fun n _ => h.getActor pk n
      pier := ⟨h.sluices pk, h.inbox pk, (congrArg Pier.handlers (h.piers pk) :), (congrArg Pier.claims (h.piers pk) :)⟩
      piers := (ownPier_enqueue ..).others
      abuts := fun m a => by
        have hm : (getMod _ m).abuts = (getMod s m).abuts := (congrArg Module.abuts (h.mods m) :)
        rw [getAbut, hm, getAbut] }

theorem changesNothing_reply (s : State) (pk st : Nat) (g : Msg) (result : Int) (who : Nat) :
    Claims.ChangesNothing s (serviceReply s pk g result who) pk st :=
  changesNothing_trans (changesNothing_adjService s pk st _) (changesNothing_enqueue ..)

/-- The strand of a service run freed. -/
def strandFreed (s : State) (pk st : Nat) : State :=
  adjPier s pk fun p => { p with strands := fset p.strands st { seed := (pierStrand p st).seed } }

theorem serviceEnd_eq (s : State) (pk st : Nat) : serviceEnd s pk st = adjActor (strandFreed s pk st) pk 63 fun a => { a with st := .idle } := rfl

theorem changesNothing_strandFreed (s : State) (pk st : Nat) : Claims.ChangesNothing s (strandFreed s pk st) pk st where
  memory := sameMemory_of (memories_adjPier _ _ _ fun _ => rfl) (codes_adjPier _ _ _ fun _ => rfl)
  runs n hn := by
    rw [getStrand, strandFreed, getPier_adjPier_same]
    exact fget_fset_other _ _ _ _ _ hn
  actors n _ := by
    rw [getActor, strandFreed, getPier_adjPier_same]
    rfl
  pier := by
    rw [strandFreed, getPier_adjPier_same]
    exact ⟨rfl, rfl, rfl, rfl⟩
  piers := (ownPier_adjPier s pk _).others
  abuts _ _ := rfl

theorem changesNothing_serviceEnd (s : State) (pk st : Nat) : Claims.ChangesNothing s (serviceEnd s pk st) pk st :=
  changesNothing_trans (changesNothing_strandFreed s pk st) (changesNothing_adjService ..)

/-! The end of a service run. -/

theorem serviceEnds (s : State) (pk st : Nat) : Claims.ServiceEnds (serviceEnd s pk st) pk st := by
  have hfreed : (getStrand (strandFreed s pk st) pk st).status = .free := by
    rw [getStrand, strandFreed, getPier_adjPier_same]
    simp [pierStrand]
  refine ⟨?_, ?_⟩
  · rw [serviceEnd_eq, adjActor, getStrand, getPier_adjPier_same]
    exact hfreed
  · rw [serviceEnd_eq, getActor_adjActor_same]

theorem outbox_serviceEnd (s : State) (pk st : Nat) : (getPier (serviceEnd s pk st) pk).outbox = (getPier s pk).outbox := by
  rw [serviceEnd_eq, outbox_adjActor, strandFreed, getPier_adjPier_same]

theorem inOutbox_serviceEnd {s : State} {pk : Nat} {g : Msg} (st : Nat) (h : Claims.InOutbox s pk g) :
    Claims.InOutbox (serviceEnd s pk st) pk g := by
  obtain ⟨e, he, hb⟩ := h
  exact ⟨e, (outbox_serviceEnd s pk st).symm ▸ he, hb⟩

/-! A reply of the service actor. -/

/-- The reply itself. -/
def replyMsg (s : State) (pk : Nat) (g : Msg) (result : Int) (who : Nat) : Msg :=
  { deviceMsg s pk (pkLp pk) (msgSrc g) g.cls.toNat g.prio.toNat 1 (getActor s pk 63).graph 2 [wordOfInt result, BitVec.ofNat 64 who]
      (g.flags &&& 4) with
    tag := g.tag }

theorem serviceReply_carries (s : State) (pk : Nat) (g : Msg) (result : Int) (who : Nat) :
    Claims.InOutbox (serviceReply s pk g result who) pk (replyMsg s pk g result who) := by
  obtain ⟨e, he, hb, -⟩ := enqueue_carries (adjActor s pk 63 fun a => { a with seq := a.seq + 1 }) pk (.toActor 63 (msgSrc g))
    (.msg (replyMsg s pk g result who)) 63 0 0 0 0 0 0 0 []
  exact ⟨e, he, hb⟩

theorem msgDst_replyMsg (s : State) (pk : Nat) (g : Msg) (result : Int) (who : Nat) : msgDst (replyMsg s pk g result who) = msgSrc g :=
  msgDst_parts (msgSrc g)

theorem deviceSends_reply (s : State) (pk : Nat) (g : Msg) (result : Int) (who : Nat) : DeviceSends s (serviceReply s pk g result who) :=
  (deviceSends_seq s pk 63).trans (deviceSends_enqueue ..)

/-- A run that ends with its reply, where the graph of the service actor is as it was. -/
theorem replied_serviceEnd {s t : State} {pk : Nat} (hg : (getActor t pk 63).graph = (getActor s pk 63).graph) (st : Nat) (g : Msg)
    (result : Int) (who : Nat) : Claims.Replied s (serviceEnd (serviceReply t pk g result who) pk st) pk g st result who where
  reply := ⟨replyMsg t pk g result who, inOutbox_serviceEnd st (serviceReply_carries ..), rfl, BitVec.ofNat_toNat .., BitVec.ofNat_toNat ..,
    rfl, rfl, msgDst_replyMsg .., rfl, rfl, hg, rfl⟩
  ended := serviceEnds ..

/-! The work of a service run where it is served. -/

section
variable {s t : State} {pk st : Nat} {g : Msg} (h : Claims.Serves s pk g st) {i : Instr} {f : State → Nat → State × Bool}
include h

theorem asService_serves : asService s pk g i f = if (f s pk).2 then serviceEnd (f s pk).1 pk st else (f s pk).1 := by
  obtain ⟨hres, hup⟩ := h.up
  have hopen : ¬(residentOpen s pk = false ∨ (getPier s pk).fenced = true) := by
    rw [hres, hup]
    decide
  simp only [asService, h.home, h.run, if_neg hopen]

theorem asService_ends (hf : f s pk = (t, true)) : asService s pk g i f = serviceEnd t pk st := by
  rw [asService_serves h, hf]
  rfl

theorem asService_stays (hf : f s pk = (t, false)) : asService s pk g i f = t := by
  rw [asService_serves h, hf]
  rfl

end

/-- A command with a result, that changes nothing. -/
theorem gives_of {s t : State} {pk st : Nat} {g : Msg} {i : Instr} {result : Int} {who : Nat}
    (hexec : exec i s = .next (serviceEnd (serviceReply t pk g result who) pk st))
    (hg : (getActor t pk 63).graph = (getActor s pk 63).graph) (ht : Claims.ChangesNothing s t pk st) :
    Claims.Gives s i pk g st result who :=
  ⟨_, hexec, replied_serviceEnd hg st g result who,
    changesNothing_trans (changesNothing_trans ht (changesNothing_reply ..)) (changesNothing_serviceEnd ..)⟩

end Sys2Proof.Machine
end

section
/-!
What a walk of the tables reads (R148, R149), and the merge of a dirty log (R156).
-/

namespace Sys2Proof.Machine

/-! Walks of two states that differ in nothing a walk reads. -/

/-- What a walk reads of a module. -/
def Module.tables (x : Module) : Bool × FMap Machine.Port × FMap Byte × FMap Bool := (x.present, x.ports, x.hbm, x.hbmPoison)

/-- Two states whose walks read the same. -/
structure WalksAlike (s t : State) : Prop where
  torus : t.torus = s.torus
  tables : ∀ m, (getMod t m).tables = (getMod s m).tables

section
variable {s t : State} (h : WalksAlike s t)
include h

theorem WalksAlike.present (m : Nat) : (getMod t m).present = (getMod s m).present := congrArg (·.1) (h.tables m)
theorem WalksAlike.ports (m : Nat) : (getMod t m).ports = (getMod s m).ports := congrArg (·.2.1) (h.tables m)
theorem WalksAlike.hbm (m : Nat) : (getMod t m).hbm = (getMod s m).hbm := congrArg (·.2.2.1) (h.tables m)
theorem WalksAlike.hbmPoison (m : Nat) : (getMod t m).hbmPoison = (getMod s m).hbmPoison := congrArg (·.2.2.2) (h.tables m)

theorem WalksAlike.reachable (a b : Nat) : reachable t a b = reachable s a b := by
  simp only [Machine.reachable, inTorus, routePorts, portShut, h.torus, h.present, h.ports]

theorem WalksAlike.hbmRead (m dom l n : Nat) : hbmRead t m dom l n = hbmRead s m dom l n := by
  rw [Machine.hbmRead, h.hbm, Machine.hbmRead]

theorem WalksAlike.walkEntry (from_ : Nat) (n : Node) (level : Nat) (va : Word) (need : BitVec 3) :
    walkEntry t from_ n level va need = walkEntry s from_ n level va need := by
  simp only [Machine.walkEntry, h.reachable, h.hbmRead, hbmPoisoned, h.hbmPoison]
  rfl

theorem WalksAlike.walkFrom (from_ : Nat) (va : Word) (need : BitVec 3) (l : Nat) (n : Node) :
    walkFrom t from_ va need l n = walkFrom s from_ va need l n := by
  induction l generalizing n with
  | zero => simp only [Machine.walkFrom, h.walkEntry]
  | succ l ih => simp only [Machine.walkFrom, h.walkEntry, ih]

theorem WalksAlike.walkAll (from_ : Nat) (root va : Word) (need : BitVec 3) : walkAll t from_ root va need = walkAll s from_ root va need := by
  simp only [Machine.walkAll, h.walkFrom]

theorem WalksAlike.mergeFrom (from_ : Nat) (va : Word) (l : Nat) (n : Node) : mergeFrom t from_ va l n = mergeFrom s from_ va l n := by
  induction l generalizing n with
  | zero => simp only [Machine.mergeFrom, h.walkEntry]
  | succ l ih => simp only [Machine.mergeFrom, h.walkEntry, h.hbmRead, ih]

theorem WalksAlike.mergeWaits {pk : Nat} (hp : getPier t pk = getPier s pk) : mergeWaits t pk = mergeWaits s pk := by
  simp only [Machine.mergeWaits, mergeHead, hp, h.mergeFrom]

end

theorem walksAlike_schedule (s : State) (due : Nat) (i : Instr) : WalksAlike s (schedule s due i) := ⟨rfl, fun _ => rfl⟩

theorem walksAlike_adjMod (s : State) (m : Nat) (f : Module → Module) (hf : ∀ x, (f x).tables = x.tables) : WalksAlike s (adjMod s m f) :=
  ⟨rfl, fun k => by
    by_cases hk : k = m
    · subst hk
      rw [getMod_adjMod_same, hf]
    · rw [getMod_adjMod_other _ _ _ _ hk]⟩

theorem walksAlike_adjAgent (s : State) (m sp : Nat) (f : Agent → Agent) : WalksAlike s (adjAgent s m sp f) :=
  walksAlike_adjMod s m _ fun _ => rfl

/-! Merges (R156). -/

/-- A merge leaves the agents. -/
theorem agents_endLease (s : State) (m loc k : Nat) : (getMod (endLease s m loc) k).agents = (getMod s k).agents := by
  unfold endLease
  split
  · by_cases hk : k = m
    · subst hk
      rw [getMod_adjMod_same]
    · rw [getMod_adjMod_other _ _ _ _ hk]
  · rfl

theorem agents_hbmOr (s : State) (m dom l bit k : Nat) : (getMod (hbmOr s m dom l bit) k).agents = (getMod s k).agents := by
  rw [← agents_endLease s m (dramLoc dom l) k, hbmOr]
  by_cases hk : k = m
  · subst hk
    rw [getMod_adjMod_same]
  · rw [getMod_adjMod_other _ _ _ _ hk]

theorem piers_hbmOr (s : State) (m dom l bit : Nat) : (hbmOr s m dom l bit).piers = s.piers := by
  show (endLease s m (dramLoc dom l)).piers = s.piers
  rw [modsOnly_endLease s m (dramLoc dom l)]

/-- The tables with the dirty bit of the oldest entry of a log. -/
def dirtyMarked (s : State) (pk : Nat) : State :=
  match mergeHead s pk with
  | .leaf n => hbmOr s n.mod n.dom n.loc 57
  | _ => s

theorem agents_dirtyMarked (s : State) (pk k : Nat) : (getMod (dirtyMarked s pk) k).agents = (getMod s k).agents := by
  unfold dirtyMarked
  split
  · exact agents_hbmOr ..
  · rfl

theorem getPier_dirtyMarked (s : State) (pk k : Nat) : getPier (dirtyMarked s pk) k = getPier s k := by
  unfold dirtyMarked
  split
  · rw [getPier, piers_hbmOr]
    rfl
  · rfl

theorem dlogMergeOne_some {s : State} {pk : Nat} (h : 0 < (getPier s pk).dlogCount) :
    (getPier (dlogMergeOne s pk) pk).dlogCount = (getPier s pk).dlogCount - 1 ∧
    ∀ k, (getMod (dlogMergeOne s pk) k).agents = (getMod s k).agents := by
  have hone : dlogMergeOne s pk = adjPier (dirtyMarked s pk) pk fun q =>
      { q with
        spad := mwrite q.spad (0x3F000 + 8 * (getPier s pk).dlogHead.toNat) 8
          ((mword (getPier s pk).spad (0x3F000 + 8 * (getPier s pk).dlogHead.toNat)).toNat % 2 ^ 63)
        dlogHead := q.dlogHead + 1, dlogCount := q.dlogCount - 1, mergeTries := 0 } := by
    rw [dlogMergeOne, if_neg (Nat.ne_of_gt h)]
    rfl
  rw [hone]
  refine ⟨?_, fun k => ?_⟩
  · rw [getPier_adjPier_same, getPier_dirtyMarked]
  · rw [getMod_adjPier, agents_dirtyMarked]

/-- A merge of some entries takes the first of them out, all or up to one that waits. -/
theorem dlogMerge_counts (pk n : Nat) (s : State) (hn : n ≤ (getPier s pk).dlogCount) :
    ∃ k, k ≤ n ∧ (getPier (dlogMerge s pk n) pk).dlogCount = (getPier s pk).dlogCount - k ∧
      (k < n → mergeWaits (dlogMerge s pk n) pk = true) ∧ ∀ m, (getMod (dlogMerge s pk n) m).agents = (getMod s m).agents := by
  induction n generalizing s with
  | zero => exact ⟨0, Nat.le_refl 0, rfl, fun h => absurd h (Nat.lt_irrefl 0), fun _ => rfl⟩
  | succ n ih =>
    by_cases hw : mergeWaits s pk = true
    · refine ⟨0, Nat.zero_le _, ?_⟩
      rw [dlogMerge, if_pos hw]
      split
      · exact ⟨rfl, fun _ => hw, fun _ => rfl⟩
      · exact ⟨rfl, fun _ => ((walksAlike_schedule ..).mergeWaits rfl).trans hw, fun _ => rfl⟩
    · obtain ⟨hcount, hagents⟩ := dlogMergeOne_some (s := s) (pk := pk) (by omega)
      obtain ⟨k, hk, hk1, hk2, hk3⟩ := ih (dlogMergeOne s pk) (by omega)
      refine ⟨k + 1, by omega, ?_⟩
      rw [dlogMerge, if_neg hw]
      exact ⟨by omega, fun hlt => hk2 (by omega), fun m => (hk3 m).trans (hagents m)⟩

end Sys2Proof.Machine
end

section
/-!
The work of the service actor (O49): records, harvests, phases and forwarding (R54, R55, R156, R210, R218).
-/

namespace Sys2Proof.Machine

/-! The record of a create command (R55). -/

theorem length_vaRead {s : State} {m : Nat} {root : Word} (n : Nat) (va : Word) (l : List (Byte × Bool)) (h : vaRead s m root va n = .ok l) :
    l.length = n := by
  induction n generalizing va l with
  | zero =>
    cases h
    rfl
  | succ n ih =>
    rw [vaRead] at h
    split at h
    · simp only at h
      split at h
      · cases h
      · split at h
        · cases h
        next r hr =>
          cases h
          rw [List.length_cons, ih _ _ hr]
    · cases h
    · cases h

theorem length_wordsOfBytes (n : Nat) (l : List (Byte × Bool)) (h : l.length = 8 * n) : (wordsOfBytes l).length = n := by
  induction n generalizing l with
  | zero =>
    rw [List.length_eq_zero_iff.mp h]
    rfl
  | succ n ih =>
    match l, h with
    | _ :: _ :: _ :: _ :: _ :: _ :: _ :: _ :: l, h =>
      simp only [List.length_cons] at h
      rw [wordsOfBytes, List.length_cons, ih l (by omega)]

/-- A record that is read holds as many words as it says, if it says no more than 32 entries. -/
theorem length_recordAt {s : State} {pk : Nat} {va : Word} {w : List Word} (h : recordAt s pk va = some w) :
    w.length = 8 + (w.getD 7 0).toNat ∨ 32 < (w.getD 7 0).toNat := by
  simp only [recordAt] at h
  split at h
  · cases h
  next l hl =>
    have h8 : (wordsOfBytes l).length = 8 := length_wordsOfBytes 8 l (length_vaRead 64 va l hl)
    split at h
    · cases h
    · split at h
      next hn =>
        cases h
        rw [← lgetD_eq_getD]
        omega
      · split at h
        · cases h
        next e he =>
          split at h
          · cases h
          · cases h
            have h7 : (wordsOfBytes l ++ wordsOfBytes e).getD 7 0 = lgetD (wordsOfBytes l) 7 0 := by
              rw [lgetD_eq_getD, List.getD_append _ _ _ _ (by omega)]
            left
            rw [h7, List.length_append, h8, length_wordsOfBytes _ e (length_vaRead _ _ e he)]

/-! What the read of a record leaves. -/

/-- The second state is the first with fewer leases. -/
structure EndsLeases (s t : State) : Prop where
  mods : ModsOnly s t
  rest : ∀ m, getMod t m = { getMod s m with leases := (getMod t m).leases }

theorem EndsLeases.refl (s : State) : EndsLeases s s := ⟨.refl s, fun _ => rfl⟩

theorem EndsLeases.trans {s t u : State} (h : EndsLeases s t) (k : EndsLeases t u) : EndsLeases s u :=
  ⟨h.mods.trans k.mods, fun m => by rw [k.rest m, h.rest m]⟩

theorem endsLeases_endLease (s : State) (m loc : Nat) : EndsLeases s (endLease s m loc) := by
  refine ⟨modsOnly_endLease .., fun k => ?_⟩
  unfold endLease
  split
  · by_cases hk : k = m
    · subst hk
      rw [getMod_adjMod_same]
    · rw [getMod_adjMod_other _ _ _ _ hk]
  · rfl

theorem endsLeases_vaTouch (s : State) (m : Nat) (root va : Word) (n : Nat) : EndsLeases s (vaTouch s m root va n) := by
  have hfold : ∀ (l : List Nat) (f : State → Nat → State), (∀ t i, EndsLeases t (f t i)) → ∀ t, EndsLeases t (l.foldl f t) := by
    intro l f hf
    induction l with
    | nil => exact fun t => .refl t
    | cons i l ih => exact fun t => (hf t i).trans (ih _)
  refine hfold _ _ (fun t i => ?_) s
  simp only
  split
  · exact endsLeases_endLease ..
  · exact .refl t

theorem changesNothing_refl (s : State) (pk st : Nat) : Claims.ChangesNothing s s pk st := changesNothing_mods pk st (.refl s) rfl fun _ _ => rfl

section
variable {s t : State} (h : EndsLeases s t)
include h

theorem EndsLeases.jobOf (pk : Nat) : jobOf t pk = jobOf s pk := by
  rw [Machine.jobOf, getPart, h.rest]
  rfl

theorem EndsLeases.getJob (j : Nat) : getJob t j = getJob s j := by
  rw [h.mods]
  rfl

theorem EndsLeases.getActor (pk n : Nat) : getActor t pk n = getActor s pk n := by
  rw [Machine.getActor, h.mods.getPier]
  rfl

theorem EndsLeases.recordFits (job : BitVec 12) (w : Nat → Word) : Claims.RecordFits t job w ↔ Claims.RecordFits s job w := by
  constructor
  · rintro ⟨h0, h1, h3, h4, h5, h6, h7, he⟩
    exact ⟨h0, h1, h3, h4, h5, by rwa [h.getJob] at h6, h7, he⟩
  · rintro ⟨h0, h1, h3, h4, h5, h6, h7, he⟩
    exact ⟨h0, h1, h3, h4, h5, by rwa [h.getJob], h7, he⟩

theorem EndsLeases.changesNothing (pk st : Nat) (hm : memories t = memories s) : Claims.ChangesNothing s t pk st :=
  changesNothing_mods pk st h.mods hm fun m a => by
    rw [getAbut, h.rest]
    rfl

end

/-! The create command (R54, R55, R276). -/

theorem noCreations_iff (s : State) (pk : Nat) : Claims.NoCreations s pk ↔ creationsOf (getPier s pk) = [] := by
  simp [Claims.NoCreations, creationsOf, List.flatMap_eq_nil_iff]

section
variable {s : State} {pk st : Nat} {g : Msg} (h : Claims.Serves s pk g st)
include h

theorem asMemory_ready {i : Instr} {va : Word} {need : BitVec 3} {n : Nat} {f : State × Bool}
    (hm : vaMoving s (pkMod pk) (getPier s pk).xlroot va need n = false) : asMemory s pk g i va need n f = f := by
  simp [asMemory, h.run, hm]

theorem create_waits (hc : ¬Claims.NoCreations s pk) :
    exec (.createActor pk g) s = .next (schedule s (max (s.cycle + 1) (lastCreation s pk)) (.createActor pk g)) :=
  congrArg Host.Outcome.next (asService_stays h (if_pos (mt (noCreations_iff s pk).mpr hc)))

theorem create_unaligned (hc : Claims.NoCreations s pk) (h64 : (payWord g 1).toNat % 64 ≠ 0) :
    exec (.createActor pk g) s = .next (serviceEnd (serviceReply s pk g (-4) 0) pk st) :=
  congrArg Host.Outcome.next (asService_ends h ((if_neg (not_not.mpr ((noCreations_iff s pk).mp hc))).trans (if_pos h64)))

theorem create_foreign (hc : Claims.NoCreations s pk) (h64 : (payWord g 1).toNat % 64 = 0) (hj : g.job ≠ jobOf s pk) :
    exec (.createActor pk g) s = .next (serviceEnd (serviceReply s pk g (-3) 0) pk st) :=
  congrArg Host.Outcome.next (asService_ends h
    ((if_neg (not_not.mpr ((noCreations_iff s pk).mp hc))).trans ((if_neg (not_not.mpr h64)).trans (if_pos hj))))

/-- The create command past its first checks. -/
theorem create_reads {t : State} (hc : Claims.NoCreations s pk)
    (hm : vaMoving s (pkMod pk) (getPier s pk).xlroot (payWord g 1) 4 (recordLen s pk (payWord g 1)) = false)
    (h64 : (payWord g 1).toNat % 64 = 0) (hj : g.job = jobOf s pk)
    (hf : (match recordAt s pk (payWord g 1) with
         | none => (serviceReply s pk g (-5) 0, true)
         | some w =>
           let r := createActor (vaTouch s (pkMod pk) (getPier s pk).xlroot (payWord g 1) (recordLen s pk (payWord g 1))) pk g.dpier.toNat w
           (serviceReply r.2 pk g r.1 r.1.toNat, true)) = (t, true)) :
    exec (.createActor pk g) s = .next (serviceEnd t pk st) :=
  congrArg Host.Outcome.next (asService_ends h
    ((if_neg (not_not.mpr ((noCreations_iff s pk).mp hc))).trans ((if_neg (not_not.mpr h64)).trans ((if_neg (not_not.mpr hj)).trans
      ((asMemory_ready h hm).trans hf)))))

end

/-- The state in which the record of a create command has been read. -/
def recordTouched (s : State) (pk : Nat) (g : Msg) : State :=
  vaTouch s (pkMod pk) (getPier s pk).xlroot (payWord g 1) (recordLen s pk (payWord g 1))

theorem endsLeases_recordTouched (s : State) (pk : Nat) (g : Msg) : EndsLeases s (recordTouched s pk g) := endsLeases_vaTouch ..

theorem getPier_recordTouched (s : State) (pk : Nat) (g : Msg) (k : Nat) : getPier (recordTouched s pk g) k = getPier s k :=
  (endsLeases_recordTouched s pk g).mods.getPier k

/-- A create command may go on to its record. -/
structure CreateReads (s : State) (pk : Nat) (g : Msg) : Prop where
  first : Claims.NoCreations s pk
  still : vaMoving s (pkMod pk) (getPier s pk).xlroot (payWord g 1) 4 (recordLen s pk (payWord g 1)) = false
  aligned : (payWord g 1).toNat % 64 = 0
  job : g.job = jobOf s pk

section
variable {s : State} {pk st : Nat} {g : Msg} (h : Claims.Serves s pk g st) (hr : CreateReads s pk g)
include h hr

theorem create_unread (hw : recordAt s pk (payWord g 1) = none) : Claims.Gives s (.createActor pk g) pk g st (-5) 0 :=
  gives_of (create_reads h hr.first hr.still hr.aligned hr.job (by rw [hw])) rfl (changesNothing_refl ..)

variable {w : List Word} (hw : recordAt s pk (payWord g 1) = some w)
include hw

theorem create_makes {i : Int} {u : State} (hc : createActor (recordTouched s pk g) pk g.dpier.toNat w = (i, u)) :
    exec (.createActor pk g) s = .next (serviceEnd (serviceReply u pk g i i.toNat) pk st) :=
  create_reads h hr.first hr.still hr.aligned hr.job (by
    rw [hw]
    show (let r := createActor (recordTouched s pk g) pk g.dpier.toNat w
      ((serviceReply r.2 pk g r.1 r.1.toNat, true) : State × Bool)) = _
    rw [hc])

/-- A create command whose record asks for what cannot be had. -/
theorem create_fails {i : Int} (hi : i.toNat = 0)
    (hc : createActor (recordTouched s pk g) pk g.dpier.toNat w = (i, recordTouched s pk g)) : Claims.Gives s (.createActor pk g) pk g st i 0 := by
  have hexec := create_makes h hr hw hc
  rw [hi] at hexec
  refine gives_of hexec ?_ ((endsLeases_recordTouched s pk g).changesNothing pk st (memories_vaTouch ..))
  rw [(endsLeases_recordTouched s pk g).getActor]

end

section
variable {s : State} {pk : Nat} {g : Msg} {w : List Word}

theorem recordFits_touched (h : Claims.RecordFits s (jobOf s pk) fun i => w.getD i 0) :
    Claims.RecordFits (recordTouched s pk g) (jobOf (recordTouched s pk g) pk) fun i => w.getD i 0 := by
  rw [(endsLeases_recordTouched s pk g).jobOf]
  exact ((endsLeases_recordTouched s pk g).recordFits ..).mpr h

end

/-- An actor that a create command makes. -/
theorem create_answered {s : State} {pk st : Nat} {g : Msg} {w : List Word} {i : Nat} (h : Claims.Serves s pk g st) (hr : CreateReads s pk g)
    (hw : recordAt s pk (payWord g 1) = some w) (hf : Claims.RecordFits s (jobOf s pk) fun i => w.getD i 0)
    (hi : Claims.AsksFor (getPier s pk) (w.getD 0 0) i) (hfree : (w.getD 7 0).toNat ≤ (freeHandlers (getPier s pk)).length) :
    ∃ s', exec (.createActor pk g) s = .next s' ∧ Claims.Replied s s' pk g st i i ∧
      getActor s' pk i = Claims.actorOf g.dpier (fun n => w.getD n 0) ∧ Claims.SameMemory s s' := by
  have htouched := endsLeases_recordTouched s pk g
  have hmade := createActor_makes (lp := g.dpier.toNat) (length_recordAt hw) (recordFits_touched (g := g) hf)
    (i := i) (by rwa [getPier_recordTouched]) (by rwa [getPier_recordTouched])
  have hne : i ≠ 63 := Nat.ne_of_lt hi.1
  generalize hu : setPier (recordTouched s pk g) pk (actorMade (getPier (recordTouched s pk g) pk) g.dpier.toNat i w) = u at hmade
  have hactor : ∀ n, getActor u pk n = fget (fset (getPier s pk).actors i (recordActor g.dpier.toNat w)) n {} := fun n => by
    rw [← hu, getActor, getPier_setPier_same, getPier_recordTouched]
    rfl
  have hservice : (getActor u pk 63).graph = (getActor s pk 63).graph := by
    rw [hactor, fget_fset_other _ _ _ _ _ hne.symm]
    rfl
  have hmem : Claims.SameMemory s u := by
    refine sameMemory_of ?_ ?_
    · have hm := memories_createActor (recordTouched s pk g) pk g.dpier.toNat w
      rw [hmade] at hm
      exact hm.trans (memories_vaTouch ..)
    · rw [← hu]
      exact (codes_setPier _ pk (actorMade _ _ _ _) rfl).trans htouched.mods.codes
  refine ⟨_, create_makes h hr hw hmade, replied_serviceEnd hservice st g i i, ?_, ?_⟩
  · rw [(changesNothing_serviceEnd ..).actors i hne, (changesNothing_reply u pk st ..).actors i hne, hactor, fget_fset_same, recordActor_eq]
  · exact sameMemory_trans hmem (sameMemory_trans (changesNothing_reply u pk st ..).memory (changesNothing_serviceEnd ..).memory)

/-! Harvests (R156). -/

theorem harvest_starts {s : State} {pk st : Nat} {g : Msg} (h : Claims.Serves s pk g st) (hj : g.job = jobOf s pk) :
    ∃ s', exec (.harvest pk g) s = .next s' ∧ Claims.ServiceEnds s' pk st ∧
      Claims.Coming s s' (.harvestComplete (pkMod pk) (spanOf s pk)) ∧ Claims.SameMemory s s' ∧
      (getAgent s' (pkMod pk) (spanOf s pk)).harvests =
        (getAgent s (pkMod pk) (spanOf s pk)).harvests ++ [(pk, g, dirtyPiers s (pkMod pk) (spanOf s pk))] := by
  refine ⟨_, congrArg Host.Outcome.next (asService_ends h (if_neg (not_not.mpr hj))), serviceEnds ..,
    ⟨_, ?_, List.mem_append_right _ (List.mem_singleton_self _)⟩, ?_, ?_⟩
  · omega
  · refine sameMemory_trans ?_ (changesNothing_serviceEnd ..).memory
    exact sameMemory_of (by simp) rfl
  · exact (congrArg Agent.harvests (getAgent_adjAgent_same s (pkMod pk) (spanOf s pk) fun x =>
      { x with harvests := x.harvests ++ [(pk, g, dirtyPiers s (pkMod pk) (spanOf s pk))] }) :)

/-- A harvest of one log that goes on. -/
theorem harvestLogs_one (s : State) (pk n : Nat) (h : n ≤ (getPier s pk).dlogCount) : harvestLogs s [(pk, n)] =
    (dlogMerge s pk n, if n - ((getPier s pk).dlogCount - (getPier (dlogMerge s pk n) pk).dlogCount) = 0 then []
      else [(pk, n - ((getPier s pk).dlogCount - (getPier (dlogMerge s pk n) pk).dlogCount))]) := by
  simp only [harvestLogs, Nat.min_eq_left h]

theorem harvest_goesOn {s : State} {pk sp n : Nat} {g : Msg} {l : List (Nat × Msg × FMap Nat)} (hhome : serviceHome s pk = pk)
    (hl : (getAgent s (pkMod pk) sp).harvests = (pk, g, [(pk, n)]) :: l) (hn : n ≤ (getPier s pk).dlogCount) :
    ∃ s' k, exec (.harvestComplete (pkMod pk) sp) s = .next s' ∧ k ≤ n ∧ (getPier s' pk).dlogCount = (getPier s pk).dlogCount - k ∧
      (k < n → mergeWaits s' pk = true ∧ (getAgent s' (pkMod pk) sp).harvests = (pk, g, [(pk, n - k)]) :: l ∧
        (s.cycle + 4096, Instr.harvestComplete (pkMod pk) sp) ∈ s'.cal) ∧
      (k = n → (getAgent s' (pkMod pk) sp).harvests = l ∧ ∃ r, Claims.InOutbox s' pk r ∧ r.kind = 1 ∧ msgDst r = msgSrc g ∧ r.tag = g.tag ∧
        r.cls = g.cls ∧ r.prio = g.prio ∧ r.pay = [0, 0]) := by
  obtain ⟨k, hk, hcount, hwaits, -⟩ := dlogMerge_counts pk n s hn
  have hlogs := harvestLogs_one s pk n hn
  have hleft : n - ((getPier s pk).dlogCount - ((getPier s pk).dlogCount - k)) = n - k := by omega
  rw [hcount, hleft] at hlogs
  let rest (l : List (Nat × Msg × FMap Nat)) : State := adjAgent (dlogMerge s pk n) (pkMod pk) sp fun x => { x with harvests := l }
  have hrest : ∀ l, (getAgent (rest l) (pkMod pk) sp).harvests = l := fun l => by rw [getAgent_adjAgent_same]
  have hexec : exec (.harvestComplete (pkMod pk) sp) s = .next (if (harvestLogs s [(pk, n)]).2 = [] then serviceReply (rest l) pk g 0 0
      else schedule (rest ((pk, g, (harvestLogs s [(pk, n)]).2) :: l)) (s.cycle + 4096) (.harvestComplete (pkMod pk) sp)) := by
    rw [exec_harvestComplete, execHarvestComplete, hl]
    simp only [hhome, hlogs]
    rfl
  rw [hlogs] at hexec
  by_cases hlt : k < n
  · have hpos : ¬n - k = 0 := by omega
    rw [if_neg hpos, if_neg (List.cons_ne_nil _ _)] at hexec
    refine ⟨_, k, hexec, hk, hcount, fun _ => ⟨?_, ?_, List.mem_append_right _ (List.mem_singleton_self _)⟩, fun he => absurd he (by omega)⟩
    · rw [(walksAlike_schedule ..).mergeWaits rfl, (walksAlike_adjAgent ..).mergeWaits rfl]
      exact hwaits hlt
    · exact hrest _
  · have hall : n - k = 0 := by omega
    rw [if_pos hall, if_pos rfl] at hexec
    have hsends := deviceSends_reply (rest l) pk g 0 0
    refine ⟨_, k, hexec, hk, ?_, fun hc => absurd hc hlt, fun _ => ⟨?_, _, serviceReply_carries .., rfl, msgDst_replyMsg .., rfl,
      BitVec.ofNat_toNat .., BitVec.ofNat_toNat .., rfl⟩⟩
    · rw [hsends.field Pier.dlogCount fun _ => rfl]
      exact hcount
    · have hagents : (getMod (serviceReply (rest l) pk g 0 0) (pkMod pk)).agents = (getMod (rest l) (pkMod pk)).agents :=
        (congrArg Module.agents (hsends.mods _) :)
      rw [getAgent, hagents]
      exact hrest l

end Sys2Proof.Machine
end

section
/-!
Phases, forwarding and the settlement of O49 (R210, R218, R399).
-/

namespace Sys2Proof.Machine

/-! The begin of a phase (R218). -/

/-- The home pier of the job of a pier. -/
def AtHome (s : State) (pk : Nat) : Prop :=
  let j := getJob s (jobOf s pk).toNat
  imagePk s { j.img with job := jobOf s pk } j.img.homeMod j.img.homePier = some pk

section
variable {s : State} {pk st : Nat} {g : Msg} (h : Claims.Serves s pk g st)
include h

/-- A phase begin from another pier than the home, or of a phase that the job has not. -/
theorem phase_out (hc : ¬AtHome s pk ∨ (getJob s (jobOf s pk).toNat).img.phases ≤ (payWord g 1).toNat) :
    Claims.Gives s (.phaseBegin pk g) pk g st (-4) 0 :=
  gives_of (congrArg Host.Outcome.next (asService_ends h (if_pos hc))) rfl (changesNothing_refl ..)

variable (hhome : AtHome s pk) (hn : (payWord g 1).toNat < (getJob s (jobOf s pk).toNat).img.phases)
include hhome hn

omit h in
theorem phase_in : ¬(¬AtHome s pk ∨ (getJob s (jobOf s pk).toNat).img.phases ≤ (payWord g 1).toNat) :=
  not_or.mpr ⟨not_not.mpr hhome, Nat.not_le.mpr hn⟩

theorem phase_foreign (hj : g.job ≠ jobOf s pk) : Claims.Gives s (.phaseBegin pk g) pk g st (-3) 0 :=
  gives_of (congrArg Host.Outcome.next (asService_ends h ((if_neg (phase_in hhome hn)).trans (if_pos hj)))) rfl (changesNothing_refl ..)

theorem phase_notInTurn (hj : g.job = jobOf s pk) (hc : (getJob s (jobOf s pk).toNat).inPhase = true ∨
      (getJob s (jobOf s pk).toNat).beginReq.isSome ∨ (payWord g 1).toNat ≠ (getJob s (jobOf s pk).toNat).nextPhase) :
    Claims.Gives s (.phaseBegin pk g) pk g st (-2) 0 :=
  gives_of (congrArg Host.Outcome.next (asService_ends h
    ((if_neg (phase_in hhome hn)).trans ((if_neg (not_not.mpr hj)).trans (if_pos hc))))) rfl (changesNothing_refl ..)

theorem phase_begins (hj : g.job = jobOf s pk) (hin : (getJob s (jobOf s pk).toNat).inPhase = false)
    (hreq : (getJob s (jobOf s pk).toNat).beginReq = none) (hnext : (payWord g 1).toNat = (getJob s (jobOf s pk).toNat).nextPhase) :
    ∃ s', exec (.phaseBegin pk g) s = .next s' ∧ Claims.ServiceEnds s' pk st ∧ (getJob s' (jobOf s pk).toNat).inPhase = true ∧
      (getJob s' (jobOf s pk).toNat).waitOpen = modsOfJob s (jobOf s pk) ∧
      ∀ k ∈ modsOfJob s (jobOf s pk), Claims.Coming s s' (.phaseOpen k (jobOf s pk).toNat (payWord g 1).toNat) := by
  have hturn : ¬((getJob s (jobOf s pk).toNat).inPhase = true ∨ (getJob s (jobOf s pk).toNat).beginReq.isSome ∨
      (payWord g 1).toNat ≠ (getJob s (jobOf s pk).toNat).nextPhase) := by
    rw [hin, hreq, hnext]
    simp
  let begun : State := adjJob s (jobOf s pk).toNat fun j => { j with inPhase := true, waitOpen := modsOfJob s (jobOf s pk), beginReq := some (pk, g) }
  let tell (t : State) (m : Nat) : State :=
    launch t (latency t (pkMod pk) (placeOf t pk) m .die) (.phaseOpen m (jobOf s pk).toNat (payWord g 1).toNat)
  have htell : ∀ t m, Schedules t (tell t m) := fun t m => schedules_launch ..
  have hjob : getJob ((modsOfJob s (jobOf s pk)).foldl tell begun) (jobOf s pk).toNat = getJob begun (jobOf s pk).toNat := by
    rw [(schedules_foldl htell _ begun).rest]
    rfl
  refine ⟨serviceEnd ((modsOfJob s (jobOf s pk)).foldl tell begun) pk st, congrArg Host.Outcome.next (asService_ends h
    ((if_neg (phase_in hhome hn)).trans ((if_neg (not_not.mpr hj)).trans (if_neg hturn)))), serviceEnds .., ?_, ?_, fun k hk => ?_⟩
  · show (getJob ((modsOfJob s (jobOf s pk)).foldl tell begun) _).inPhase = true
    rw [hjob, getJob_adjJob_same]
  · show (getJob ((modsOfJob s (jobOf s pk)).foldl tell begun) _).waitOpen = _
    rw [hjob, getJob_adjJob_same]
  · exact coming_foldl htell hk (s := begun) fun t _ => launch_coming t (latency_pos ..) _

end

/-! Forwarding to the host (R210, R399). -/

theorem changesNothing_sendFrame (s : State) (pk st m type : Nat) (job : BitVec 12) (flags : Nat) (addr operand : Word) (data : List Byte) :
    Claims.ChangesNothing s (sendFrame s m type job flags addr operand data) pk st :=
  changesNothing_mods pk st rfl (by simp) fun k a => by
    rw [sendFrame, adjHost, getAbut]
    by_cases hk : k = m
    · subst hk
      rw [getMod_adjMod_same]
      rfl
    · rw [getMod_adjMod_other _ _ _ _ hk]
      rfl

section
variable {s : State} {pk st : Nat} {g : Msg} (h : Claims.Serves s pk g st)
include h

theorem forward_event : ∃ s', exec (.serviceForwardToHost pk g) s = .next s' ∧ Claims.ServiceEnds s' pk st ∧
    Claims.HostEvent s' (pkMod pk) g.job 6 (msgBytes g) ∧ Claims.ChangesNothing s s' pk st ∧ (getPier s' pk).outbox = (getPier s pk).outbox :=
  ⟨serviceEnd (sendEvent s (pkMod pk) 6 g.job (msgBytes g)) pk st, congrArg Host.Outcome.next (asService_ends h rfl), serviceEnds ..,
    hostEvent_sendEvent .., changesNothing_trans (changesNothing_sendFrame ..) (changesNothing_serviceEnd ..), outbox_serviceEnd ..⟩

/-- A fault record that the service actor keeps to itself. -/
theorem record_kept (hc : Claims.fld (Claims.word g 4) 24 6 = 63) (hx : Claims.fld (Claims.word g 0) 0 16 ≠ 0x10) :
    ∃ s', exec (.faultRecordForward pk g) s = .next s' ∧ Claims.ServiceEnds s' pk st ∧ Claims.ChangesNothing s s' pk st ∧
      (getPier s' pk).outbox = (getPier s pk).outbox :=
  ⟨serviceEnd s pk st, congrArg Host.Outcome.next (asService_ends h (congrArg (·, true) (if_pos ⟨hc, hx⟩))), serviceEnds ..,
    changesNothing_serviceEnd .., outbox_serviceEnd ..⟩

/-- A fault record that leaves for the host. -/
theorem record_forwarded (hc : Claims.fld (Claims.word g 4) 24 6 ≠ 63 ∨ Claims.fld (Claims.word g 0) 0 16 = 0x10) :
    ∃ s', exec (.faultRecordForward pk g) s = .next s' ∧ Claims.ServiceEnds s' pk st ∧ Claims.ChangesNothing s s' pk st ∧
      (getPier s' pk).outbox = (getPier s pk).outbox ∧
      ∃ f ∈ (getMod s' (pkMod pk)).host.unacked, f.type = 6 ∧ f.job = g.job ∧ f.operand = 0 ∧ f.data = msgBytes g := by
  have hno : ¬(Claims.fld (Claims.word g 4) 24 6 = 63 ∧ Claims.fld (Claims.word g 0) 0 16 ≠ 0x10) := fun ⟨h63, h10⟩ =>
    hc.elim (fun hne => hne h63) h10
  refine ⟨serviceEnd (sendFrame s (pkMod pk) 6 g.job 0 0 0 (msgBytes g)) pk st,
    congrArg Host.Outcome.next (asService_ends h (congrArg (·, true) (if_neg hno))), serviceEnds ..,
    changesNothing_trans (changesNothing_sendFrame ..) (changesNothing_serviceEnd ..), outbox_serviceEnd .., ?_⟩
  show ∃ f ∈ (getMod (sendFrame s (pkMod pk) 6 g.job 0 0 0 (msgBytes g)) (pkMod pk)).host.unacked, _
  simp only [sendFrame, adjHost, getMod_adjMod_same]
  exact ⟨_, List.mem_append_right _ (List.mem_singleton_self _), rfl, rfl, rfl, rfl⟩

end

/-- Settles O49: a service run ends with its reply, and each command's branch leaves what `ChangesNothing` names; a create command reads its
record through `createActor`, a harvest counts its merges through `dlogMerge_counts`. -/
theorem serviceActorWork : Obligations.ServiceActorWork := by
  intro s pk st g h m p1 job j ready home
  have hreads : ready → p1.toNat % 64 = 0 → g.job = job → CreateReads s pk g := fun ⟨hc, hm⟩ h64 hj => ⟨hc, hm, h64, hj⟩
  refine ⟨gives_of (congrArg Host.Outcome.next (asService_ends h rfl)) rfl (changesNothing_refl ..), fun hc => ?_,
    fun hc h64 => gives_of (create_unaligned h hc h64) rfl (changesNothing_refl ..),
    fun hc h64 hj => gives_of (create_foreign h hc h64 hj) rfl (changesNothing_refl ..),
    fun hr h64 hj hw => create_unread h (hreads hr h64 hj) hw, fun w hr h64 hj hw => ?_,
    fun hj => gives_of (congrArg Host.Outcome.next (asService_ends h (if_pos hj))) rfl (changesNothing_refl ..), harvest_starts h,
    fun sp n l hl hn _ => ?_, phase_out h, phase_foreign h, phase_notInTurn h, phase_begins h, forward_event h, record_kept h, record_forwarded h⟩
  · refine ⟨_, max (s.cycle + 1) (lastCreation s pk), create_waits h hc, by omega, List.mem_append_right _ (List.mem_singleton_self _),
      fun _ => rfl, sameMemory_of (memories_schedule ..) (codes_schedule ..)⟩
  · intro f
    have hf : f = fun i => w.getD i 0 := funext fun i => lgetD_eq_getD ..
    have hlen := length_recordAt hw
    have hread := hreads hr h64 hj
    clear_value f
    subst hf
    refine ⟨fun hno => ?_, fun hfit hnone => ?_, fun i hfit hi hshort => ?_, fun i hfit hi hfree => create_answered h hread hw hfit hi hfree⟩
    · refine create_fails h hread hw rfl (createActor_unfit hlen fun hfit => hno ?_)
      rw [(endsLeases_recordTouched s pk g).jobOf] at hfit
      exact ((endsLeases_recordTouched s pk g).recordFits ..).mp hfit
    · exact create_fails h hread hw rfl (createActor_noIndex hlen (recordFits_touched hfit) fun i => by
        rw [getPier_recordTouched]
        exact hnone i)
    · exact create_fails h hread hw rfl (createActor_short hlen (recordFits_touched hfit) (i := i) (by rwa [getPier_recordTouched])
        (by rwa [getPier_recordTouched]))
  · exact harvest_goesOn h.home hl hn

end Sys2Proof.Machine
end

section
/-!
Copies of a multicast message (R237, R251, R318).
-/

namespace Sys2Proof.Machine

/-! Writes by virtual address in states whose walks read the same. -/

theorem WalksAlike.trans {s t u : State} (h : WalksAlike s t) (k : WalksAlike t u) : WalksAlike s u :=
  ⟨k.torus.trans h.torus, fun m => (k.tables m).trans (h.tables m)⟩

theorem WalksAlike.symm {s t : State} (h : WalksAlike s t) : WalksAlike t s := ⟨h.torus.symm, fun m => (h.tables m).symm⟩

theorem walksAlike_endLease (s : State) (m loc : Nat) : WalksAlike s (endLease s m loc) := by
  unfold endLease
  split
  · exact walksAlike_adjMod s m _ fun _ => rfl
  · exact ⟨rfl, fun _ => rfl⟩

theorem WalksAlike.adjMod {s t : State} (h : WalksAlike s t) (m : Nat) {f : Module → Module}
    (hf : ∀ x y : Module, x.tables = y.tables → (f x).tables = (f y).tables) : WalksAlike (adjMod s m f) (adjMod t m f) :=
  ⟨h.torus, fun k => by
    by_cases hk : k = m
    · subst hk
      rw [getMod_adjMod_same, getMod_adjMod_same]
      exact hf _ _ (h.tables k)
    · rw [getMod_adjMod_other _ _ _ _ hk, getMod_adjMod_other _ _ _ _ hk]
      exact h.tables k⟩

theorem WalksAlike.hbmWrite {s t : State} (h : WalksAlike s t) (m dom l n v : Nat) (poison : Bool) :
    WalksAlike (hbmWrite s m dom l n v poison) (hbmWrite t m dom l n v poison) := by
  refine WalksAlike.adjMod (((walksAlike_endLease s m _).symm.trans h).trans (walksAlike_endLease t m _)) m fun x y hxy => ?_
  obtain ⟨hp, hports, hhbm, hpoison⟩ : x.present = y.present ∧ x.ports = y.ports ∧ x.hbm = y.hbm ∧ x.hbmPoison = y.hbmPoison := by
    simpa [Module.tables] using hxy
  simp only [Module.tables, hp, hports, hhbm, hpoison]

theorem WalksAlike.vaPoke {s t : State} (h : WalksAlike s t) (from_ : Nat) (root va : Word) (b : Byte) (poison : Bool) :
    WalksAlike (vaPoke s from_ root va b poison) (vaPoke t from_ root va b poison) := by
  unfold Machine.vaPoke
  rw [h.walkAll]
  split
  · simp only
    split
    · exact h
    · exact h.hbmWrite ..
  · exact h

theorem WalksAlike.vaWrite (from_ : Nat) (root : Word) (l : List Byte) {s t : State} (h : WalksAlike s t) (va : Word) :
    WalksAlike (vaWrite s from_ root va l) (vaWrite t from_ root va l) := by
  induction l generalizing s t va with
  | nil => exact h
  | cons b l ih => exact ih (h.vaPoke ..) _

theorem WalksAlike.hostWalk {s t : State} (h : WalksAlike s t) (m : Nat) (root : Word) (need : BitVec 3) (l : List Word) :
    hostWalk t m root need l = hostWalk s m root need l := by
  simp only [Machine.hostWalk, h.walkAll, h.reachable]

/-! States that differ in the copies under way. -/

/-- A state with other copies of multicast messages. -/
def withCopies (s : State) (m : Nat) (f : List MCopy → List MCopy) : State := adjMod s m fun x => { x with copies := f x.copies }

section
variable (s : State) (m : Nat) (f : List MCopy → List MCopy)

theorem sendsOnly_withCopies : SendsOnly s (withCopies s m f) := sendsOnly_adjMod s m _ fun _ => rfl

theorem walksAlike_withCopies : WalksAlike s (withCopies s m f) := walksAlike_adjMod s m _ fun _ => rfl

theorem getPier_withCopies (k : Nat) : getPier (withCopies s m f) k = getPier s k := getPier_adjMod ..

theorem copies_withCopies : (getMod (withCopies s m f) m).copies = f (getMod s m).copies := by rw [withCopies, getMod_adjMod_same]

theorem residentOpen_withCopies (pk : Nat) : residentOpen (withCopies s m f) pk = residentOpen s pk :=
  residentOpen_of (by
    have hp := (sendsOnly_withCopies s m f).parts
    simp only [pierLoc, siteOf, entryOf, getPart, hp]) rfl

theorem spillLeaf_withCopies (pk d : Nat) : spillLeaf (withCopies s m f) pk d = spillLeaf s pk d := by
  rw [spillLeaf, (walksAlike_withCopies s m f).hostWalk]
  rfl

end

/-! A copy at its member (R318). -/

section
variable {s : State} {m tok i pk : Nat} {c : MCopy} {a : BitVec 28} (h : Claims.CopyArrives s m tok i c a pk)
include h

theorem findCopy_arrives : findCopy s m tok = some c := by
  rw [findCopy, h.copy, ← h.tok_]
  simp

theorem member_arrives : lgetD (fget (getMod s m).groups c.group {}).members i 0 = a := by
  rw [lgetD, h.member]
  rfl

theorem copyMsg_arrives : copyMsg s m c i = Claims.copyOf c a := by
  have hmod : BitVec.ofNat 12 (awMod a) = a.extractLsb' 16 12 := BitVec.eq_of_toNat_eq (by
    rw [BitVec.toNat_ofNat, BitVec.extractLsb'_toNat, awMod, Nat.shiftRight_eq_div_pow])
  have hpier : BitVec.ofNat 10 (awPier a) = a.extractLsb' 6 10 := BitVec.eq_of_toNat_eq (by
    rw [BitVec.toNat_ofNat, BitVec.extractLsb'_toNat, awPier, Nat.shiftRight_eq_div_pow]
    omega)
  have hact : BitVec.ofNat 6 (awActor a) = a.extractLsb' 0 6 := BitVec.eq_of_toNat_eq (by
    rw [BitVec.toNat_ofNat, BitVec.extractLsb'_toNat, awActor, Nat.shiftRight_zero]
    omega)
  rw [copyMsg, member_arrives h, Claims.copyOf, hmod, hpier, hact]

theorem msgDst_copy : msgDst (copyMsg s m c i) = a := by
  have hdst := msgDst_parts (lgetD (fget (getMod s m).groups c.group {}).members i 0)
  rw [member_arrives h] at hdst
  rw [copyMsg, member_arrives h]
  exact hdst

/-- The message as the member takes it: it is no urgent notice, and no notice of the device. -/
def takenCopy (c : MCopy) (a : BitVec 28) : Msg := { Claims.copyOf c a with flags := c.msg.flags &&& 6 }

theorem arrivedMsg_copy (p : Pier) : arrivedMsg p (Claims.copyOf c a) true = takenCopy c a := by
  have hurgent : Claims.urgent (Claims.copyOf c a) = false := Bool.eq_false_iff.mpr fun hu =>
    h.plain ⟨((urgent_iff _).mp hu).2.1, ((urgent_iff _).mp hu).2.2⟩
  have hown : (true && (Claims.copyOf c a).sact == 63 && (((Claims.copyOf c a).cls == 30 && (Claims.copyOf c a).kind != 1) ||
      (Claims.copyOf c a).kind == 5)) = false := by
    by_cases h63 : c.msg.sact = 63
    · have h30 : ((Claims.copyOf c a).cls == 30) = false := beq_eq_false_iff_ne.mpr fun h30 => h.plain ⟨h63, h30⟩
      rw [h30]
      exact Bool.and_false _
    · have hne : ((Claims.copyOf c a).sact == 63) = false := beq_eq_false_iff_ne.mpr h63
      rw [hne]
      rfl
  rw [arrivedMsg_eq, hown, keptFlags, hurgent]
  rfl

/-- The copies where one of a message is on its way again. -/
def onWayAgain (tok i : Nat) (l : List MCopy) : List MCopy :=
  l.map fun d => if d.tok = tok then { d with refused := d.refused.filter (· != i) } else d

omit h in
theorem copySent_eq : copySent s m tok i = withCopies s m (onWayAgain tok i) := rfl

/-- A copy under way to a member is admitted or goes to its spillway, and is answered. -/
theorem multicastCopy_arrives (hmine : c.left.contains i = true ∨ c.unicast.contains i = true) :
    exec (.multicastCopy m tok i) s = .next (
      let r := if c.unicast.contains i then spillOnly (copySent s m tok i) pk (Claims.copyOf c a)
        else admitOne (copySent s m tok i) pk (Claims.copyOf c a) true
      answer r.1 (Claims.copyOf c a).dmod.toNat (destPlace s (Claims.copyOf c a).dmod.toNat (Claims.copyOf c a).dpier.toNat c.msg.job)
        (.copy m tok i) r.2) := by
  have hmod : (Claims.copyOf c a).dmod.toNat = Claims.fld (a.setWidth 64) 16 12 := by
    simp [Claims.copyOf, Claims.fld, BitVec.extractLsb'_toNat, Nat.shiftRight_eq_div_pow]
    omega
  have hpier : (Claims.copyOf c a).dpier.toNat = Claims.fld (a.setWidth 64) 6 10 := by
    simp [Claims.copyOf, Claims.fld, BitVec.extractLsb'_toNat, Nat.shiftRight_eq_div_pow]
    omega
  have hunder : ¬(c.left.contains i = false ∧ c.unicast.contains i = false) := fun ⟨hl, hu⟩ => by
    rw [hl, hu] at hmine
    exact hmine.elim Bool.false_ne_true Bool.false_ne_true
  have hreach : ¬reachable s m (Claims.copyOf c a).dmod.toNat = false := by
    rw [hmod, h.reach]
    decide
  have hpk : pkOfAddr s (Claims.copyOf c a).dmod.toNat (Claims.copyOf c a).dpier.toNat (Claims.copyOf c a).job = some pk := by
    rw [hmod, hpier]
    exact h.pier
  rw [exec_multicastCopy, execMulticastCopy, findCopy_arrives h]
  simp only [if_neg hunder, copyMsg_arrives h, if_neg hreach, hpk]
  rfl

end

theorem acked_copy (s : State) (m' : Nat) (pl : Place) (m tok i : Nat) (st : BitVec 3) :
    Claims.Acked (answer s m' pl (.copy m tok i) st) (.copy m tok i) st := by
  obtain ⟨due, -, hmem⟩ := launch_coming s (latency_pos s m' pl m .die) (.acknowledgement (.copy m tok i) st)
  exact ⟨due, hmem⟩

section
variable {s : State} {m tok i pk : Nat} {c : MCopy} {a : BitVec 28} (h : Claims.CopyArrives s m tok i c a pk)
  (hexists : ¬Gone s pk (Claims.copyOf c a).dact.toNat)
include h hexists

/-- A copy that finds a slot. -/
theorem copy_admitted (hl : c.left.contains i = true) (hu : c.unicast.contains i = false)
    (hst : (getActor s pk (Claims.copyOf c a).dact.toNat).st ≠ .evicted) (hres : residentOpen s pk = true)
    (hs : ¬Claims.spills (getActor s pk (Claims.copyOf c a).dact.toNat)) (hused : Claims.used (getPier s pk) < 496)
    (hroom : Claims.isExempt (Claims.copyOf c a) = true ∨
      Claims.held (getPier s pk) (Claims.copyOf c a).dact.toNat < (getActor s pk (Claims.copyOf c a).dact.toNat).weir.toNat) :
    ∃ s', exec (.multicastCopy m tok i) s = .next s' ∧ Claims.Acked s' (.copy m tok i) 0 ∧ (getPier s' pk).inbox = (getPier s pk).inbox ++
      [{ msg := takenCopy c a, admitted := s.cycle, since := s.cycle, reserve := false, urgent := false }] ∧
      Claims.SameMemory s s' := by
  have hfits : Fits (getPier s pk) (Claims.copyOf c a).dact.toNat (getActor s pk (Claims.copyOf c a).dact.toNat).weir.toNat (takenCopy c a) :=
    hroom.elim (fun he => .inl ⟨he, .inl hused⟩) fun hw => .inr ⟨hw, hused⟩
  have hlow : ((takenCopy c a).flags.toNat % 2 == 1) = false := by
    rw [flags_low, takenCopy]
    simp
  have hrow : admitRow (getPier s pk) (Claims.copyOf c a).dact.toNat (takenCopy c a) ((takenCopy c a).flags.toNat % 2 == 1)
      (residentOpen (copySent s m tok i) pk) = .slot false := by
    rw [hlow, copySent_eq, residentOpen_withCopies, hres, admitRow_fits hexists (not_or.mpr ⟨by decide, hst⟩) hs hfits,
      decide_eq_false (Nat.not_le_of_lt hused)]
  have hadmit : admitOne (copySent s m tok i) pk (Claims.copyOf c a) true =
      (setPier (copySent s m tok i) pk (putSlot (getPier s pk) (takenCopy c a) false s.cycle s.cycle), 0) :=
    (admitOne_row (s := copySent s m tok i) (arrivedMsg_copy h (getPier s pk)) h.up.1 h.up.2.1 h.up.2.2).trans
      (congrArg (admitted (copySent s m tok i) pk (takenCopy c a)) hrow)
  have hexec := multicastCopy_arrives h (.inl hl)
  rw [hu, if_neg (by decide), hadmit] at hexec
  refine ⟨_, hexec, acked_copy .., ?_, ?_⟩
  · rw [getPier_answer, getPier_setPier_same, putSlot, hlow]
    rfl
  · refine sameMemory_trans ?_ (sendsOnly_answer ..).sameMemory
    exact sameMemory_trans (sendsOnly_withCopies s m (onWayAgain tok i)).sameMemory
      (sameMemory_of (memories_setPier _ _ (putSlot (getPier s pk) (takenCopy c a) false s.cycle s.cycle) rfl) (codes_setPier _ _ _ rfl))

/-- A copy of a detached branch at a pier that takes messages. -/
theorem spillOnly_copy : spillOnly (copySent s m tok i) pk (Claims.copyOf c a) =
    if spillRoom (getActor s pk (Claims.copyOf c a).dact.toNat) = false then (copySent s m tok i, 0)
    else if spillLeaf (copySent s m tok i) pk (Claims.copyOf c a).dact.toNat then
      (spillPut (copySent s m tok i) pk (Claims.copyOf c a).dact.toNat (takenCopy c a) s.cycle, 0)
    else (copySent s m tok i, 1) := by
  have hgone : actorGone (getPier s pk) (Claims.copyOf c a).dact.toNat = false := Bool.eq_false_iff.mpr fun hg => hexists ((actorGone_iff ..).mp hg)
  have hmsg := arrivedMsg_copy h (getPier s pk)
  rw [spillOnly, copySent_eq, getPier_withCopies, hmsg]
  simp only [h.up.1, h.up.2.1, h.up.2.2, takenCopy, hgone, List.any_nil, Bool.false_eq_true, or_self, false_or, if_false]
  rfl

/-- One that goes to its member's spillway. -/
theorem copy_spilled (hu : c.unicast.contains i = true) (hfit : Claims.spillFits s pk (Claims.copyOf c a).dact.toNat) :
    ∃ s', exec (.multicastCopy m tok i) s = .next s' ∧ Claims.Acked s' (.copy m tok i) 0 ∧ (getPier s' pk).inbox = (getPier s pk).inbox ∧
      (getActor s' pk (Claims.copyOf c a).dact.toNat).spilled =
        (getActor s pk (Claims.copyOf c a).dact.toNat).spilled ++ [(takenCopy c a, s.cycle)] ∧
      ((takenCopy c a).poison = 0 → ∀ k b, mget (getMod s' k).hbm b = mget (getMod (vaWrite s (pkMod pk) (getPier s pk).xlroot
        (spillAddr (getActor s pk (Claims.copyOf c a).dact.toNat)) (msgBytes (takenCopy c a))) k).hbm b) := by
  obtain ⟨hspill, hleaf⟩ := admitSpill_fits hfit
  have hroom : ¬spillRoom (getActor s pk (Claims.copyOf c a).dact.toNat) = false := fun hf => by
    rw [admitSpill, hf] at hspill
    cases hspill
  have hleaf' : spillLeaf (copySent s m tok i) pk (Claims.copyOf c a).dact.toNat = true :=
    (spillLeaf_withCopies s m (onWayAgain tok i) ..).trans hleaf
  have hexec := multicastCopy_arrives h (.inr hu)
  rw [hu, if_pos rfl, spillOnly_copy h hexists, if_neg hroom, if_pos hleaf'] at hexec
  refine ⟨_, hexec, acked_copy .., ?_, ?_, fun hp k b => ?_⟩
  · rw [getPier_answer, getPier_spillPut Pier.inbox fun _ _ => rfl]
    rfl
  · rw [getActor_answer, getActor_spillPut]
    rfl
  · rw [(sendsOnly_answer ..).hbm, spillPut_eq]
    refine congrArg (fun x : FMap Byte => mget x b) ((hbm_spillWritten (s := copySent s m tok i) hp k).trans ?_)
    exact ((walksAlike_withCopies s m (onWayAgain tok i)).vaWrite ..).hbm k

/-- One whose member's spillway is disabled or full is discarded. -/
theorem copy_discarded (hu : c.unicast.contains i = true) (hno : ¬((getActor s pk (Claims.copyOf c a).dact.toNat).spill.getLsbD 4 = true ∧
      (getActor s pk (Claims.copyOf c a).dact.toNat).spilled.length <
        2 ^ (Claims.fld (getActor s pk (Claims.copyOf c a).dact.toNat).spill 0 4 + 10))) :
    ∃ s', exec (.multicastCopy m tok i) s = .next s' ∧ Claims.Acked s' (.copy m tok i) 0 ∧ (∀ k, getPier s' k = getPier s k) ∧
      Claims.SameMemory s s' := by
  have hroom : spillRoom (getActor s pk (Claims.copyOf c a).dact.toNat) = false := Bool.eq_false_iff.mpr fun hr => hno (by
    rw [spillRoom, Bool.and_eq_true, decide_eq_true_iff, ← getLsbD_eq_bitAt] at hr
    exact hr)
  have hexec := multicastCopy_arrives h (.inr hu)
  rw [hu, if_pos rfl, spillOnly_copy h hexists, if_pos hroom] at hexec
  exact ⟨_, hexec, acked_copy .., fun k => getPier_answer ..,
    sameMemory_trans (sendsOnly_withCopies s m (onWayAgain tok i)).sameMemory (sendsOnly_answer ..).sameMemory⟩

end

end Sys2Proof.Machine
end

section
/-!
Answers to the copies of a multicast message, and laggards (R47, R237, R318).
-/

namespace Sys2Proof.Machine

/-! The copies that are left. -/

/-- The copies under way with a message written; one with no copy left is gone. -/
def copyPut (d : MCopy) (l : List MCopy) : List MCopy :=
  if d.left = [] ∧ d.unicast = [] then l.filter fun y => !(y.tok == d.tok) else l.map fun y => if y.tok = d.tok then d else y

theorem putCopy_eq (s : State) (m : Nat) (d : MCopy) : putCopy s m d = withCopies s m (copyPut d) := rfl

theorem copyPut_one {c d : MCopy} (ht : d.tok = c.tok) : copyPut d [c] = if d.left = [] ∧ d.unicast = [] then [] else [d] := by
  unfold copyPut
  split
  · simp [ht]
  · simp [ht]

theorem sendsOnly_branchNext (s : State) (m g i : Nat) : SendsOnly s (branchNext s m g i) := by
  unfold branchNext
  split
  next c _ =>
    simp only
    split
    · let d : MCopy := { c with waiting := c.waiting.filter (· != i) }
      exact (sendsOnly_withCopies s m (copyPut d)).trans (sendsOnly_launchCopy (withCopies s m (copyPut d)) d i)
    · exact .refl s
  · exact .refl s

/-- A message whose copy for a member is done with. -/
def copyLess (c : MCopy) (i : Nat) : MCopy :=
  { c with left := c.left.filter (· != i), refused := c.refused.filter (· != i), unicast := c.unicast.filter (· != i) }

/-- The state in which the sender's entry is freed, where no copy is left. -/
def entryFreed (s : State) (c : MCopy) (left : List Nat) : State :=
  if c.left ≠ [] ∧ left = [] then nowDo s (.acknowledgement (.outbox c.pk c.entry) 0) else s

theorem copyDone_eq (s : State) (m : Nat) (c : MCopy) (i : Nat) :
    copyDone s m c i = branchNext (entryFreed (withCopies s m (copyPut (copyLess c i))) c (copyLess c i).left) m c.group i := rfl

theorem agenda_entryFreed (s : State) (c : MCopy) (left : List Nat) : s.agenda ⊆ (entryFreed s c left).agenda := by
  unfold entryFreed
  split
  · exact List.subset_append_left ..
  · exact List.Subset.refl _

theorem sameMemory_entryFreed (s : State) (c : MCopy) (left : List Nat) : Claims.SameMemory s (entryFreed s c left) := by
  unfold entryFreed
  split
  · exact sameMemory_of (memories_nowDo ..) (codes_nowDo ..)
  · exact sameMemory_refl s

theorem agenda_copyDone (s : State) (m : Nat) (c : MCopy) (i : Nat) : s.agenda ⊆ (copyDone s m c i).agenda := by
  obtain ⟨-, hagenda, -⟩ := (sendsOnly_branchNext (entryFreed (withCopies s m (copyPut (copyLess c i))) c (copyLess c i).left) m c.group i).rest
  rw [copyDone_eq, hagenda]
  exact agenda_entryFreed (withCopies s m (copyPut (copyLess c i))) c (copyLess c i).left

theorem sameMemory_copyDone (s : State) (m : Nat) (c : MCopy) (i : Nat) : Claims.SameMemory s (copyDone s m c i) :=
  sameMemory_trans (sendsOnly_withCopies s m (copyPut (copyLess c i))).sameMemory
    (sameMemory_trans (sameMemory_entryFreed ..) (sendsOnly_branchNext ..).sameMemory)

/-! Answers (R45, R47, R318). -/

section
variable {s : State} {m tok i pk : Nat} {c : MCopy} {a : BitVec 28} (h : Claims.CopyArrives s m tok i c a pk)
include h

theorem copyAnswered_mine (hmine : c.left.contains i = true ∨ c.unicast.contains i = true) (st : BitVec 3) :
    exec (.acknowledgement (.copy m tok i) st) s = .next (match st.toNat with
      | 0 => copyDone s m c i
      | 1 =>
        let d := if c.left.contains i then { c with refused := c.refused ++ [i] } else c
        schedule (putCopy s m d) (s.cycle + 512) (.multicastCopy m tok i)
      | _ =>
        let s1 :=
          match c.src with
          | some e => entryRecord s c.pk e 0x15 (BitVec.ofNat 64 (msgDst (copyMsg s m c i)).toNat)
          | none => s
        copyDone s1 m c i) := by
  have hunder : ¬(c.left.contains i = false ∧ c.unicast.contains i = false) := fun ⟨hl, hu⟩ => by
    rw [hl, hu] at hmine
    exact hmine.elim Bool.false_ne_true Bool.false_ne_true
  show Host.Outcome.next (copyAnswered s m tok i st) = _
  rw [copyAnswered, findCopy_arrives h]
  exact congrArg Host.Outcome.next (if_neg hunder)

theorem copy_refused (hl : c.left.contains i = true) :
    ∃ s', exec (.acknowledgement (.copy m tok i) 1) s = .next s' ∧ (s.cycle + 512, Instr.multicastCopy m tok i) ∈ s'.cal ∧
      (getMod s' m).copies = [{ c with refused := c.refused ++ [i] }] ∧ Claims.SameMemory s s' := by
  let d : MCopy := { c with refused := c.refused ++ [i] }
  have hexec : exec (.acknowledgement (.copy m tok i) 1) s =
      .next (schedule (withCopies s m (copyPut d)) (s.cycle + 512) (.multicastCopy m tok i)) :=
    (copyAnswered_mine h (.inl hl) 1).trans (by
      rw [hl]
      rfl)
  have hleft : ¬(d.left = [] ∧ d.unicast = []) := fun ⟨hnil, _⟩ => by
    rw [show c.left = [] from hnil] at hl
    cases hl
  refine ⟨_, hexec, List.mem_append_right _ (List.mem_singleton_self _), ?_, ?_⟩
  · rw [getMod_schedule, copies_withCopies, h.copy, copyPut_one (c := c) (d := d) rfl, if_neg hleft]
  · exact sameMemory_trans (sendsOnly_withCopies s m (copyPut d)).sameMemory (sameMemory_of (memories_schedule ..) (codes_schedule ..))

/-- A copy for no such actor is told to its sender. -/
theorem copy_reported (hmine : c.left.contains i = true ∨ c.unicast.contains i = true) {e : OutEntry} (he : c.src = some e) :
    ∃ s' r, exec (.acknowledgement (.copy m tok i) 2) s = .next s' ∧ Work.ev (.deferredFaultReport r) ∈ s'.agenda ∧ r.pk = c.pk ∧ r.code = 0x15 ∧
      r.actor = e.actor ∧ r.bundle = e.bundle ∧ r.runid = e.runid ∧ r.w2 = e.move ∧
      r.w3 = BitVec.ofNat 64 (msgDst (Claims.copyOf c a)).toNat ∧ Claims.SameMemory s s' := by
  have hexec : exec (.acknowledgement (.copy m tok i) 2) s =
      .next (copyDone (entryRecord s c.pk e 0x15 (BitVec.ofNat 64 (msgDst (Claims.copyOf c a)).toNat)) m c i) :=
    (copyAnswered_mine h hmine 2).trans (by
      rw [he, copyMsg_arrives h]
      rfl)
  exact ⟨_, _, hexec, agenda_copyDone _ _ _ _ (List.mem_append_right _ (List.mem_singleton_self _)), rfl, rfl, rfl, rfl, rfl, rfl, rfl,
    sameMemory_trans (sameMemory_of (memories_nowDo ..) (codes_nowDo ..)) (sameMemory_copyDone ..)⟩

/-- The last copy that is accepted frees the sender's entry. -/
theorem copy_last (hl : c.left = [i]) (hu : c.unicast = []) :
    ∃ s', exec (.acknowledgement (.copy m tok i) 0) s = .next s' ∧ (getMod s' m).copies = [] ∧
      Work.ev (.acknowledgement (.outbox c.pk c.entry) 0) ∈ s'.agenda ∧ Claims.SameMemory s s' := by
  have hnone : (copyLess c i).left = [] ∧ (copyLess c i).unicast = [] := by simp [copyLess, hl, hu]
  let t := nowDo (withCopies s m (copyPut (copyLess c i))) (.acknowledgement (.outbox c.pk c.entry) 0)
  have hcopies : (getMod t m).copies = [] := by
    rw [getMod_nowDo, copies_withCopies, h.copy, copyPut_one (c := c) (d := copyLess c i) rfl, if_pos hnone]
  have hdone : copyDone s m c i = t := by
    have hfreed : entryFreed (withCopies s m (copyPut (copyLess c i))) c (copyLess c i).left = t :=
      if_pos ⟨by rw [hl]; exact List.cons_ne_nil _ _, hnone.1⟩
    rw [copyDone_eq, hfreed, branchNext, hcopies]
    rfl
  refine ⟨copyDone s m c i, copyAnswered_mine h (.inl (by rw [hl]; simp)) 0, ?_, ?_, sameMemory_copyDone ..⟩
  · rw [hdone, hcopies]
  · rw [hdone]
    exact List.mem_append_right _ (List.mem_singleton_self _)

end

end Sys2Proof.Machine
end

section
/-!
Laggards (R237).
-/

namespace Sys2Proof.Machine

/-- A message whose copy for a member goes to the member's spillway (R237). -/
def copyUnicast (c : MCopy) (i : Nat) : MCopy :=
  { c with
    left := c.left.filter (· != i)
    refused := c.refused.filter (· != i)
    waiting := c.waiting.filter (· != i)
    unicast := c.unicast ++ [i] }

/-- Whether a copy is on its way, neither refused nor held back. -/
def copyFlies (c : MCopy) (i : Nat) : Bool := !c.refused.contains i && !c.waiting.contains i

/-- The state without the steps that would have sent a copy of its branch. -/
def copyGrounded (s : State) (m i : Nat) (c : MCopy) : State :=
  { s with cal := if copyFlies c i then s.cal else s.cal.filter fun e => e.2 != .multicastCopy m c.tok i }

/-- The state in which one copy has left its branch. -/
def copyDetached (s : State) (m i : Nat) (c : MCopy) : State :=
  let t := withCopies (copyGrounded s m i c) m (copyPut (copyUnicast c i))
  if copyFlies c i then t else launchCopy t (copyUnicast c i) i

theorem detachCopies_one (s : State) (m i : Nat) (c : MCopy) : detachCopies s m i [c] =
    if (copyUnicast c i).left = [] then nowDo (copyDetached s m i c) (.acknowledgement (.outbox c.pk c.entry) 0) else copyDetached s m i c := rfl

theorem sendsOnly_copyDetached (s : State) (m i : Nat) (c : MCopy) : SendsOnly s (copyDetached s m i c) := by
  have hground : SendsOnly s (withCopies (copyGrounded s m i c) m (copyPut (copyUnicast c i))) :=
    SendsOnly.trans (t := copyGrounded s m i c) ⟨fun _ => rfl, fun _ => rfl, rfl, rfl, rfl, rfl, rfl, rfl, rfl⟩ (sendsOnly_withCopies ..)
  unfold copyDetached
  simp only
  split
  · exact hground
  · exact hground.trans (sendsOnly_launchCopy ..)

/-- A refused copy is on its way to the spillway. -/
theorem copyDetached_coming {s : State} {m i : Nat} {c : MCopy} (hm : pkMod c.pk = m) (hr : c.refused.contains i = true) :
    Claims.Coming s (copyDetached s m i c) (.multicastCopy m c.tok i) := by
  have hflies : ¬copyFlies c i = true := by
    rw [copyFlies, hr]
    exact Bool.false_ne_true
  have hunicast : (copyUnicast c i).unicast.contains i = true := by simp [copyUnicast]
  subst hm
  rw [copyDetached, if_neg hflies, launchCopy, if_pos hunicast]
  exact launchOn_coming (withCopies (copyGrounded s (pkMod c.pk) i c) (pkMod c.pk) (copyPut (copyUnicast c i))) _ _ (latency_pos ..) _

/-- What a detachment leaves behind the copy that it sends elsewhere. -/
theorem detachCopies_leaves (s : State) (m i : Nat) (c : MCopy) : (detachCopies s m i [c]).cycle = s.cycle ∧
    (detachCopies s m i [c]).cal = (copyDetached s m i c).cal ∧ (getMod (detachCopies s m i [c]) m).groups = (getMod s m).groups ∧
    Claims.SameMemory s (detachCopies s m i [c]) ∧
    (c.left = [i] → Work.ev (.acknowledgement (.outbox c.pk c.entry) 0) ∈ (detachCopies s m i [c]).agenda) := by
  have hsends := sendsOnly_copyDetached s m i c
  have hgroups : (getMod (copyDetached s m i c) m).groups = (getMod s m).groups := (congrArg Module.groups (hsends.mods m) :)
  rw [detachCopies_one]
  split
  · exact ⟨hsends.rest.1, rfl, hgroups, sameMemory_trans hsends.sameMemory (sameMemory_of (memories_nowDo ..) (codes_nowDo ..)),
      fun _ => List.mem_append_right _ (List.mem_singleton_self _)⟩
  next hne => exact ⟨hsends.rest.1, rfl, hgroups, hsends.sameMemory, fun hl => absurd (by simp [copyUnicast, hl]) hne⟩

/-- The state in which a branch of a group is marked as detached. -/
def branchDetached (s : State) (m g i : Nat) : State :=
  adjMod s m fun x => { x with groups := fadj x.groups g {} fun y => { y with detached := y.detached ++ [i], lag := fdel y.lag i } }

/-- The count of the branch of a copy against its limit. -/
theorem lagging_iff {s : State} {m i : Nat} {c : MCopy} (hm : pkMod c.pk = m) : lagging s c i = true ↔ c.left.contains i = true ∧
    max 4096 (getPier s c.pk).laglim.toNat ≤ fget (fget (getMod s m).groups c.group {}).lag i 0 := by
  rw [lagging, Bool.and_eq_true, decide_eq_true_iff, hm]
  rfl

section
variable {s : State} {m tok i pk : Nat} {c : MCopy} {a : BitVec 28} (h : Claims.CopyArrives s m tok i c a pk) (hm : pkMod c.pk = m)
include h hm

theorem laggard_stays (hlag : fget (fget (getMod s m).groups c.group {}).lag i 0 < max 4096 (getPier s c.pk).laglim.toNat) :
    exec (.laggardDetach m tok i) s = .next s := by
  have hno : lagging s c i = false := Bool.eq_false_iff.mpr fun hl => Nat.not_le.mpr hlag ((lagging_iff hm).mp hl).2
  show Host.Outcome.next (match findCopy s m tok with | none => s | some c => if lagging s c i = false then s else _) = _
  rw [findCopy_arrives h]
  exact congrArg Host.Outcome.next (if_pos hno)

/-- A branch that has reached the limit is detached. -/
theorem laggard_detached (hl : c.left.contains i = true)
    (hlag : max 4096 (getPier s c.pk).laglim.toNat ≤ fget (fget (getMod s m).groups c.group {}).lag i 0) :
    ∃ s' n, exec (.laggardDetach m tok i) s = .next s' ∧ i ∈ (fget (getMod s' m).groups c.group {}).detached ∧
      (c.refused.contains i = true → Claims.Coming s s' (.multicastCopy m tok i)) ∧
      (c.left = [i] → Work.ev (.acknowledgement (.outbox c.pk c.entry) 0) ∈ s'.agenda) ∧
      Claims.InOutbox s' c.pk n ∧ n.cls = 30 ∧ msgDst n = a ∧ n.pay = [2, BitVec.ofNat 64 c.group, c.msg.seq.setWidth 64] ∧
      Claims.SameMemory s s' := by
  have hlags : ¬lagging s c i = false := by
    rw [(lagging_iff hm).mpr ⟨hl, hlag⟩]
    decide
  let t := branchDetached s m c.group i
  have hcopies : (getMod t m).copies = [c] := by
    rw [← h.copy]
    show (getMod (adjMod s m _) m).copies = _
    rw [getMod_adjMod_same]
  have hmine : (getMod t m).copies.filter (fun d => d.group == c.group && d.left.contains i) = [c] := by
    rw [hcopies]
    simpa using hl
  let u := detachCopies t m i [c]
  obtain ⟨hcycle, hcal, hgroups, hmem, hfreed⟩ := detachCopies_leaves t m i c
  let v := sendDevice u c.pk (pkLp c.pk) a 30 3 0 (graphAt s a c.msg.job) 3 [2, BitVec.ofNat 64 c.group, BitVec.ofNat 64 c.msg.seq.toNat] 0 63 0 0 0
  have hsends : DeviceSends u v := deviceSends_sendDevice ..
  have hexec : exec (.laggardDetach m tok i) s = .next v := by
    show Host.Outcome.next (match findCopy s m tok with
      | none => s
      | some c =>
        if lagging s c i = false then s
        else
          let s2 := detachCopies (branchDetached s m c.group i) m i
            ((getMod (branchDetached s m c.group i) m).copies.filter fun d => d.group == c.group && d.left.contains i)
          sendDevice s2 c.pk (pkLp c.pk) (msgDst (copyMsg s m c i)) 30 3 0 (graphAt s (msgDst (copyMsg s m c i)) (copyMsg s m c i).job) 3
            [2, BitVec.ofNat 64 c.group, BitVec.ofNat 64 c.msg.seq.toNat] 0 63 0 0 0) = _
    rw [findCopy_arrives h]
    simp only [if_neg hlags, msgDst_copy h]
    rw [hmine]
    rfl
  have hvgroups : (getMod v m).groups = (getMod t m).groups := (congrArg Module.groups (hsends.mods m) :).trans hgroups
  refine ⟨v, _, hexec, ?_, fun hr => ?_, fun hone => ?_, sendDevice_carries .., rfl, msgDst_deviceMsg .., ?_, ?_⟩
  · rw [hvgroups]
    show i ∈ (fget (getMod (adjMod s m _) m).groups c.group {}).detached
    rw [getMod_adjMod_same, fadj, fget_fset_same]
    exact List.mem_append_right _ (List.mem_singleton_self _)
  · obtain ⟨due, hdue, hin⟩ := copyDetached_coming (s := t) hm hr
    rw [h.tok_, ← hcal] at hin
    exact ⟨due, hdue, hsends.cal hin⟩
  · rw [hsends.agenda]
    exact hfreed hone
  · rw [← BitVec.ofNat_toNat]
    rfl
  · have hmark : Claims.SameMemory s t := sameMemory_of (memories_adjMod _ _ _ fun _ => rfl) (codes_adjMod ..)
    exact sameMemory_trans hmark (sameMemory_trans hmem hsends.sameMemory)

end

/-- The copies of a multicast message, their answers and the detachment of their branches. -/
theorem multicastCopiesArrive : Claims.MulticastCopiesArrive := by
  intro s m tok i c a pk h g d x p h' exists_ back limit lag
  have hhere : exists_ → ¬Gone s pk d := by
    rintro (h63 | ⟨hst, hret⟩) ⟨hne, hgone⟩
    · exact hne h63
    · exact hgone.elim hst fun hr => Bool.false_ne_true (hret.symm.trans hr)
  exact ⟨fun hl hu he hst hres hs hused hroom => copy_admitted h (hhere he) hl hu hst hres hs hused hroom,
    fun hu he hfit => copy_spilled h (hhere he) hu hfit, fun hu he hno => copy_discarded h (hhere he) hu hno, copy_refused h,
    fun hmine e he => copy_reported h hmine he, copy_last h, fun hl hm hlag => laggard_detached h hm hl hlag,
    fun hm hlag => laggard_stays h hm hlag⟩

end Sys2Proof.Machine
end

section
/-!
The tree of a reduction (R122): its levels from the leaves up, and from the root down.
-/

namespace Sys2Proof.Machine

/-- The nodes of the lowest level of a tree. -/
def treePairs (f : Nat → Nat → Nat) (g : Nat → Option Nat) (j : Nat) : Option Nat := Claims.node f (g (2 * j)) (g (2 * j + 1))

/-- The leaves in a list. -/
def leafAt (l : List (Option Nat)) (j : Nat) : Option Nat := (l[j]?).join

theorem node_none (f : Nat → Nat → Nat) (x : Option Nat) : Claims.node f x none = x := by
  cases x with
  | none => rfl
  | some a => rfl

theorem leafAt_treeLevel (f : Nat → Nat → Nat) (l : List (Option Nat)) (j : Nat) : leafAt (treeLevel f l) j = treePairs f (leafAt l) j := by
  induction l using treeLevel.induct generalizing j with
  | case1 => rfl
  | case2 a =>
    cases j with
    | zero => exact (node_none f a).symm
    | succ j => rfl
  | case3 a b l ih =>
    cases j with
    | zero =>
      cases a with
      | none => rfl
      | some x => cases b with
        | none => rfl
        | some y => rfl
    | succ j => exact ih j

/-- A tree is that of its lowest level's nodes. -/
theorem tree_succ (f : Nat → Nat → Nat) (k : Nat) (g : Nat → Option Nat) : Claims.tree f (k + 1) g = Claims.tree f k (treePairs f g) := by
  induction k generalizing g with
  | zero => rfl
  | succ k ih =>
    have hshift : treePairs f (fun j => g (j + 2 ^ (k + 1))) = fun j => treePairs f g (j + 2 ^ k) := funext fun j => by
      have heven : 2 * j + 2 ^ (k + 1) = 2 * (j + 2 ^ k) := by rw [Nat.pow_succ]; omega
      have hodd : 2 * j + 1 + 2 ^ (k + 1) = 2 * (j + 2 ^ k) + 1 := by rw [Nat.pow_succ]; omega
      simp only [treePairs, heven, hodd]
    rw [Claims.tree, ih, ih, hshift]
    rfl

theorem treeRoot_eq_tree (f : Nat → Nat → Nat) (k : Nat) (l : List (Option Nat)) : treeRoot f k l = Claims.tree f k (leafAt l) := by
  induction k generalizing l with
  | zero =>
    rw [treeRoot, List.head?_eq_getElem?]
    rfl
  | succ k ih =>
    have hlevel : leafAt (treeLevel f l) = treePairs f (leafAt l) := funext (leafAt_treeLevel f l)
    rw [treeRoot, ih, hlevel, tree_succ]

theorem tree_absent (f : Nat → Nat → Nat) (k : Nat) (g : Nat → Option Nat) (h : ∀ j, g j = none) : Claims.tree f k g = none := by
  induction k generalizing g with
  | zero => exact h 0
  | succ k ih => rw [Claims.tree, ih g h, ih _ fun j => h _, node_none]

/-- Levels above the last leaf pass it on. -/
theorem tree_tall (f : Nat → Nat → Nat) (k d : Nat) (g : Nat → Option Nat) (h : ∀ j, 2 ^ k ≤ j → g j = none) :
    Claims.tree f (k + d) g = Claims.tree f k g := by
  induction d with
  | zero => rfl
  | succ d ih =>
    have habsent : Claims.tree f (k + d) (fun j => g (j + 2 ^ (k + d))) = none := tree_absent _ _ _ fun j =>
      h _ (Nat.le_trans (Nat.pow_le_pow_right (by decide) (Nat.le_add_right k d)) (Nat.le_add_left ..))
    rw [Nat.add_succ, Claims.tree, habsent, node_none, ih]

/-! The elements of a result. -/

/-- The operation of a sum, a maximum or a minimum as the claim writes it. -/
theorem redOp_eq {op : Nat} (h1 : 1 ≤ op) (h3 : op ≤ 3) : redOp op = if op = 1 then addF32 else minMaxBits fmtFp32 (op == 2) := by
  obtain rfl | rfl | rfl : op = 1 ∨ op = 2 ∨ op = 3 := by omega
  · rfl
  · rfl
  · rfl

theorem redPart_eq (g : Option Msg) (e : Nat) : Claims.redPart g e = g.bind (redElem e) := by
  cases g with
  | none => rfl
  | some x => simp only [Claims.redPart, redElem, Option.bind_some, lgetD_eq_getD, fld_eq_bits]

theorem leafAt_contributions (got : FMap (Option Msg)) (n e : Nat) :
    leafAt ((contributions got n).map fun g => g.bind (redElem e)) = fun j => if j < n then Claims.redPart (fget got j none) e else none :=
  funext fun j => by
    rw [leafAt, contributions, List.getElem?_map, List.getElem?_map]
    by_cases hj : j < n
    · rw [if_pos hj, List.getElem?_range hj, redPart_eq]
      rfl
    · rw [if_neg hj, List.getElem?_eq_none (by rw [List.length_range]; omega)]
      rfl

theorem redResult_eq {op n : Nat} (h1 : 1 ≤ op) (h3 : op ≤ 3) (hn : n ≤ 16) (got : FMap (Option Msg)) (e : Nat) :
    redResult op (contributions got n) e = Claims.redOf op got n e := by
  have htall := tree_tall (redOp op) 4 12 (fun j => if j < n then Claims.redPart (fget got j none) e else none) fun j hj =>
    if_neg (Nat.not_lt.mpr (Nat.le_trans hn hj))
  have hroot := treeRoot_eq_tree (redOp op) 16 ((contributions got n).map fun g => g.bind (redElem e))
  rw [leafAt_contributions, htall, redOp_eq h1 h3] at hroot
  rw [redResult, redOp_eq h1 h3, hroot]
  rfl

end Sys2Proof.Machine
end

section
/-!
Rounds of a reduction and the settlement of O44 (R122, R250, R252).
-/

namespace Sys2Proof.Machine

/-! A round. -/

section
variable (s : State) (m g : Nat) (x : Round)

@[simp] theorem getRound_setRound : getRound (setRound s m g x) m g = x := by simp [getRound, setRound]

theorem sameMemory_setRound : Claims.SameMemory s (setRound s m g x) := sameMemory_of (memories_setRound ..) (codes_adjMod ..)

theorem parts_setRound (k : Nat) : (getMod (setRound s m g x) k).parts = (getMod s k).parts := by
  by_cases hk : k = m
  · subst hk
    rw [setRound, getMod_adjMod_same]
  · rw [setRound, getMod_adjMod_other _ _ _ _ hk]

end

/-- What is sent changes no round. -/
theorem DeviceSends.getRound {s t : State} (h : DeviceSends s t) (m g : Nat) : getRound t m g = getRound s m g := by
  have hr : (getMod t m).rounds = (getMod s m).rounds := (congrArg Module.rounds (h.mods m) :)
  rw [Machine.getRound, hr]
  rfl

theorem pkOfAddr_parts {s t : State} (h : ∀ m, (getMod t m).parts = (getMod s m).parts) (m lp : Nat) (j : BitVec 12) :
    pkOfAddr t m lp j = pkOfAddr s m lp j := by
  simp only [pkOfAddr, partOfJob, getPart, carrierPk, entryOf, h]
  rfl

theorem roundFull_iff (got : FMap (Option Msg)) (n : Nat) : roundFull got n = true ↔ ∀ j < n, fget got j none ≠ none := by
  simp [roundFull, Option.isSome_iff_ne_none]

/-- A round that waits for a member stays open. -/
theorem closeRound_waits {s : State} {hdr : Word} {m g n : Nat} (k : Nat) (h : ∃ j < n, fget (getRound s m g).got j none = none) :
    closeRound s hdr m g n k = s := by
  cases k with
  | zero => rfl
  | succ k =>
    obtain ⟨j, hj, hnone⟩ := h
    have hopen : roundFull (getRound s m g).got n = false := Bool.eq_false_iff.mpr fun hf => (roundFull_iff ..).mp hf j hj hnone
    rw [closeRound]
    simp only [hopen, Bool.false_and, Bool.false_eq_true, if_false]

/-- The round behind one that is full. -/
def nextRound (r : Round) : Round := { number := r.number + 1, got := r.later, later := [], merged := mergedLess r.merged }

/-- A full round gives its result. -/
theorem closeRound_full {s : State} {hdr : Word} {m g n : Nat} (k : Nat) (hgot : ∀ j < n, fget (getRound s m g).got j none ≠ none)
    (hmerged : ∀ j < n, 0 < fget (getRound s m g).merged j 0) :
    closeRound s hdr m g n (k + 1) =
      closeRound (setRound (sendResult s hdr (getRound s m g) n) m g (nextRound (getRound s m g))) hdr m g n k := by
  have hfull := (roundFull_iff ..).mpr hgot
  have hall : ((List.range n).all fun i => decide (0 < fget (getRound s m g).merged i 0)) = true := by simpa using hmerged
  rw [closeRound]
  simp only [hfull, hall, Bool.and_self, if_true]
  rfl

/-! The result of a round (R252). -/

/-- The result as it leaves. -/
def resultMsg (s : State) (pk : Nat) (hdr : Word) (r : Round) (n : Nat) : Msg :=
  let root : BitVec 28 := hdr.extractLsb' 0 28
  let pay := redPay (bits hdr 60 3) (bits hdr 57 3) (contributions r.got n)
  { deviceMsg s pk (awPier root) root (bits hdr 52 5) (bits hdr 50 2) 7 (getActor s pk (awActor root)).graph pay.1.length pay.1 0 with
    seq := BitVec.ofNat 16 r.number
    poison := pay.2 }

theorem sendResult_eq {s : State} {hdr : Word} {r : Round} {n pk : Nat}
    (h : pkOfAddr s (Claims.fld hdr 16 12) (Claims.fld hdr 6 10) (hdr.extractLsb' 38 12) = some pk) :
    sendResult s hdr r n = enqueue s pk (.toActor 63 (hdr.extractLsb' 0 28)) (.msg (resultMsg s pk hdr r n)) 63 0 0 0 0 0 0 := by
  rw [← awMod_word, ← awPier_word] at h
  rw [sendResult]
  simp only [h]
  rfl

theorem foldl_max_le {l : List Nat} {a b : Nat} (ha : a ≤ b) (h : ∀ x ∈ l, x ≤ b) : l.foldl max a ≤ b := by
  induction l generalizing a with
  | nil => exact ha
  | cons x l ih => exact ih (Nat.max_le.mpr ⟨ha, h x (List.mem_cons_self ..)⟩) fun y hy => h y (List.mem_cons_of_mem _ hy)

theorem redWords_le (l : List (Option Msg)) : redWords l ≤ 6 := by
  refine foldl_max_le (Nat.zero_le _) fun x hx => ?_
  obtain ⟨g, -, rfl⟩ := List.mem_map.mp hx
  cases g with
  | none => exact Nat.zero_le _
  | some g => exact Nat.min_le_left ..

theorem le_redWords {got : FMap (Option Msg)} {n j : Nat} {h : Msg} (hj : j < n) (hg : fget got j none = some h) :
    min 6 h.words.toNat ≤ redWords (contributions got n) := by
  refine le_maxList (List.mem_map.mpr ⟨some h, ?_, rfl⟩)
  rw [contributions, ← hg]
  exact List.mem_map.mpr ⟨j, List.mem_range.mpr hj, rfl⟩

/-- The payload of a sum, a maximum or a minimum. -/
theorem redPay_sum {op k : Nat} (h : op ≤ 3) (l : List (Option Msg)) : (redPay op k l).1 =
    (List.range (redWords l)).map fun i => BitVec.ofNat 64 (redResult op l (2 * i) + redResult op l (2 * i + 1) * 2 ^ 32) := by
  rw [redPay]
  exact congrArg Prod.fst (if_neg (show ¬op = 4 by omega))

section
variable {s : State} {pk : Nat} {hdr : Word} {r : Round} {n op : Nat} (hop : Claims.fld hdr 60 3 = op) (h1 : 1 ≤ op) (h3 : op ≤ 3)
include hop h3

theorem words_resultMsg : (resultMsg s pk hdr r n).words.toNat = redWords (contributions r.got n) := by
  have hle := redWords_le (contributions r.got n)
  have hpay := redPay_sum (k := bits hdr 57 3) h3 (contributions r.got n)
  rw [← hop, fld_eq_bits] at hpay
  show (BitVec.ofNat 3 (redPay (bits hdr 60 3) (bits hdr 57 3) (contributions r.got n)).1.length).toNat = _
  rw [hpay, List.length_map, List.length_range, BitVec.toNat_ofNat]
  omega

include h1 in
theorem pay_resultMsg (hn : n ≤ 16) {k : Nat} (hk : k < (resultMsg s pk hdr r n).words.toNat) : (resultMsg s pk hdr r n).pay.getD k 0 =
    BitVec.ofNat 64 (Claims.redOf op r.got n (2 * k) + Claims.redOf op r.got n (2 * k + 1) * 2 ^ 32) := by
  have hpay := redPay_sum (k := bits hdr 57 3) h3 (contributions r.got n)
  rw [words_resultMsg hop h3] at hk
  have hget : (resultMsg s pk hdr r n).pay = (redPay op (bits hdr 57 3) (contributions r.got n)).1 := by
    rw [← hop]
    rfl
  rw [hget, hpay, List.getD_eq_getElem?_getD, List.getElem?_map, List.getElem?_range hk, Option.map_some, Option.getD_some,
    redResult_eq h1 h3 hn, redResult_eq h1 h3 hn]

end

/-! A contribution at the first router (R252). -/

theorem indexIn_first {l : List (BitVec 28)} {a : BitVec 28} {i : Nat} (h : l[i]? = some a) (ho : ∀ j < i, l[j]? ≠ some a) :
    indexIn l a = some i := by
  have hi : i < l.length := (List.getElem?_eq_some_iff.mp h).1
  rw [indexIn, List.find?_range_eq_some]
  refine ⟨by rw [h]; exact beq_self_eq_true _, List.mem_range.mpr hi, fun j hj => ?_⟩
  simpa using ho j hj

section
variable {s : State} {g : Msg} {frm : AckTo} {gid i op : Nat} (h : Claims.Contributes s g frm gid i op)
include h

/-- The group that a contribution names. -/
theorem exec_contribution : exec (.reductionContribution g frm) s = .next (contribute s g frm gid) := by
  obtain ⟨pk, tok, e, rfl, hout, htok, b, hb⟩ := h.entry
  have hgid : redGroup s (.outbox pk tok) = some gid := by simp [redGroup, hout, htok, hb]
  show Host.Outcome.next (match redGroup s (.outbox pk tok) with
    | none => answer s g.smod.toNat .die (.outbox pk tok) 2
    | some gid => contribute s g (.outbox pk tok) gid) = _
  rw [hgid]

/-- The group of a contribution, and its round. -/
theorem contribute_eq : contribute s g frm gid =
    (let rm := Claims.fld (getGroup s g.smod.toNat gid).hdr 16 12
     let r := getRound s rm gid
     if (fget r.got i none).isNone then
       towardRoot (answer (setRound s rm gid { r with got := fset r.got i (some g) }) g.smod.toNat .die frm 0) g gid i
     else if (fget r.later i none).isNone then
       towardRoot (answer (setRound s rm gid { r with later := fset r.later i (some g) }) g.smod.toNat .die frm 0) g gid i
     else answer s g.smod.toNat .die frm 1) := by
  have hok : (bitAt (getGroup s g.smod.toNat gid).hdr 63 && bits (getGroup s g.smod.toNat gid).hdr 38 12 == g.job.toNat &&
      bits (getGroup s g.smod.toNat gid).hdr 60 3 != 0) = true := by
    rw [Bool.and_eq_true, Bool.and_eq_true, ← getLsbD_eq_bitAt, beq_iff_eq, bne_iff_ne]
    refine ⟨⟨h.valid, h.job⟩, fun h0 => h.op_.2 ?_⟩
    rw [← h.op_.1]
    exact h0
  have hidx : indexIn (getGroup s g.smod.toNat gid).members (msgSrc g) = some i := indexIn_first h.member h.once
  have hroot : ¬reachable s g.smod.toNat (bits (getGroup s g.smod.toNat gid).hdr 16 12) = false := by
    rw [show reachable s g.smod.toNat (bits (getGroup s g.smod.toNat gid).hdr 16 12) = true from h.root]
    decide
  rw [contribute]
  simp only [hok, hidx, if_neg hroot]
  rfl

theorem acked_contribution (t : State) (m : Nat) (pl : Place) (st : BitVec 3) : Claims.Acked (answer t m pl frm st) frm st := by
  obtain ⟨pk, tok, e, rfl, -⟩ := h.entry
  exact acked_answer ..

end

/-- The state in which a contribution stands in its round and is answered. -/
def roundEntered (s : State) (g : Msg) (frm : AckTo) (rm gid : Nat) (x : Round) : State :=
  answer (setRound s rm gid x) g.smod.toNat .die frm 0

section
variable (s : State) (g : Msg) (frm : AckTo) (rm gid : Nat) (x : Round)

theorem deviceSends_roundEntered : DeviceSends (setRound s rm gid x) (roundEntered s g frm rm gid x) := deviceSends_answer ..

theorem getRound_roundEntered : getRound (roundEntered s g frm rm gid x) rm gid = x := by
  rw [(deviceSends_roundEntered ..).getRound, getRound_setRound]

theorem sameMemory_roundEntered : Claims.SameMemory s (roundEntered s g frm rm gid x) :=
  sameMemory_trans (sameMemory_setRound ..) (deviceSends_roundEntered ..).sameMemory

theorem getGroup_roundEntered (m k : Nat) : getGroup (roundEntered s g frm rm gid x) m k = getGroup s m k := by
  have hgroups : (getMod (roundEntered s g frm rm gid x) m).groups = (getMod (setRound s rm gid x) m).groups :=
    (congrArg Module.groups ((deviceSends_roundEntered s g frm rm gid x).mods m) :)
  rw [getGroup, hgroups, setRound]
  by_cases hm : m = rm
  · subst hm
    rw [getMod_adjMod_same]
    rfl
  · rw [getMod_adjMod_other _ _ _ _ hm]
    rfl

theorem parts_roundEntered (m : Nat) : (getMod (roundEntered s g frm rm gid x) m).parts = (getMod s m).parts :=
  ((deviceSends_roundEntered ..).parts m).trans (parts_setRound ..)

end

/-- What a contribution finds its round as. -/
structure EntersRound (s : State) (g : Msg) (frm : AckTo) (rm gid : Nat) (x : Round) (s' : State) : Prop where
  step : exec (.reductionContribution g frm) s = .next s'
  round : getRound s' rm gid = x
  acked : Claims.Acked s' frm 0
  memory : Claims.SameMemory s s'

section
variable {s : State} {g : Msg} {frm : AckTo} {gid i op rm : Nat} {r : Round} (h : Claims.Contributes s g frm gid i op)
  (hrm : Claims.fld (getGroup s g.smod.toNat gid).hdr 16 12 = rm) (hr : getRound s rm gid = r)
include h hrm hr

theorem contribute_first (hg : fget r.got i none = none) :
    contribute s g frm gid = towardRoot (roundEntered s g frm rm gid { r with got := fset r.got i (some g) }) g gid i := by
  subst hrm hr
  rw [contribute_eq h]
  exact if_pos (by rw [hg]; rfl)

theorem contribute_later {x : Msg} (hg : fget r.got i none = some x) (hl : fget r.later i none = none) :
    contribute s g frm gid = towardRoot (roundEntered s g frm rm gid { r with later := fset r.later i (some g) }) g gid i := by
  subst hrm hr
  rw [contribute_eq h]
  exact (if_neg (by rw [hg]; exact Bool.false_ne_true)).trans (if_pos (by rw [hl]; rfl))

theorem contribute_refused {x y : Msg} (hg : fget r.got i none = some x) (hl : fget r.later i none = some y) :
    contribute s g frm gid = answer s g.smod.toNat .die frm 1 := by
  subst hrm hr
  rw [contribute_eq h]
  exact (if_neg (by rw [hg]; exact Bool.false_ne_true)).trans (if_neg (by rw [hl]; exact Bool.false_ne_true))

end

section
variable {s : State} {g : Msg} {frm : AckTo} {gid i op : Nat} (h : Claims.Contributes s g frm gid i op) {x : Round}
include h

/-- A contribution whose root is on this module merges at once. -/
theorem enters_here {rm : Nat} (hrm : Claims.fld (getGroup s g.smod.toNat gid).hdr 16 12 = rm) (hhere : rm = g.smod.toNat)
    (hstep : contribute s g frm gid = towardRoot (roundEntered s g frm rm gid x) g gid i)
    (hopen : ∃ j < (getGroup s g.smod.toNat gid).members.length, fget x.got j none = none) :
    ∃ s', EntersRound s g frm rm gid { x with merged := fadj x.merged i 0 (· + 1) } s' := by
  subst hhere
  let t := roundEntered s g frm g.smod.toNat gid x
  let y : Round := { x with merged := fadj x.merged i 0 (· + 1) }
  have hgroup : getGroup t g.smod.toNat gid = getGroup s g.smod.toNat gid := getGroup_roundEntered ..
  have hbits : bits (getGroup s g.smod.toNat gid).hdr 16 12 = g.smod.toNat := hrm
  have hmerge : towardRoot t g gid i = setRound t g.smod.toNat gid y := by
    rw [towardRoot]
    simp only [hgroup]
    rw [if_pos hbits, hbits, mergeAt, getRound_roundEntered]
    exact closeRound_waits 2 (by rwa [getRound_setRound])
  refine ⟨setRound t g.smod.toNat gid y, ?_, getRound_setRound .., ?_, sameMemory_trans (sameMemory_roundEntered ..) (sameMemory_setRound ..)⟩
  · rw [exec_contribution h, hstep, hmerge]
  · exact acked_contribution h (setRound s g.smod.toNat gid x) g.smod.toNat .die 0

/-- One whose root is on another module travels on. -/
theorem enters_away {rm : Nat} (hrm : Claims.fld (getGroup s g.smod.toNat gid).hdr 16 12 = rm) (haway : rm ≠ g.smod.toNat)
    (hstep : contribute s g frm gid = towardRoot (roundEntered s g frm rm gid x) g gid i) :
    ∃ s', EntersRound s g frm rm gid x s' ∧ Claims.Coming s s' (.reductionContribution { g with tag := BitVec.ofNat 16 gid } .nobody) := by
  let t := roundEntered s g frm rm gid x
  have hgroup : getGroup t g.smod.toNat gid = getGroup s g.smod.toNat gid := getGroup_roundEntered ..
  have hcycle : t.cycle = s.cycle := (deviceSends_roundEntered s g frm rm gid x).cycle
  have hlaunch : towardRoot t g gid i = launch t (latency t g.smod.toNat .die rm .die)
      (.reductionContribution { g with tag := BitVec.ofNat 16 gid } .nobody) := by
    rw [towardRoot]
    simp only [hgroup]
    rw [← fld_eq_bits, hrm, if_neg haway]
  have hsched := schedules_launch t (latency t g.smod.toNat .die rm .die) (.reductionContribution { g with tag := BitVec.ofNat 16 gid } .nobody)
  refine ⟨_, ⟨(exec_contribution h).trans (by rw [hstep, hlaunch]), ?_, ?_, ?_⟩, ?_⟩
  · rw [getRound, hsched.getMod]
    exact getRound_roundEntered ..
  · obtain ⟨due, hdue⟩ := acked_contribution h (setRound s rm gid x) g.smod.toNat .die 0
    exact ⟨due, hsched.cal _ hdue⟩
  · exact sameMemory_trans (sameMemory_roundEntered ..) (sendsOnly_launch ..).sameMemory
  · obtain ⟨due, hdue, hin⟩ := launch_coming t (latency_pos t g.smod.toNat .die rm .die)
      (.reductionContribution { g with tag := BitVec.ofNat 16 gid } .nobody)
    exact ⟨due, hcycle ▸ hdue, hin⟩

end

end Sys2Proof.Machine
end

section
/-!
The close of a reduction round and the settlement of O44 (R122, R252).
-/

namespace Sys2Proof.Machine

/-- The state behind the last contribution of a round, and the result. -/
def roundClosed (t : State) (root rm gid : Nat) (hdr : Word) (y : Round) (n : Nat) : State :=
  setRound (enqueue (setRound t rm gid y) root (.toActor 63 (hdr.extractLsb' 0 28))
    (.msg (resultMsg (setRound t rm gid y) root hdr y n)) 63 0 0 0 0 0 0) rm gid (nextRound y)

/-- The last contribution of a round closes it. -/
theorem mergeAt_closes {t : State} {hdr : Word} {root rm gid i n : Nat} {x y : Round} (hx : getRound t rm gid = x)
    (hy : y = { x with merged := fadj x.merged i 0 (· + 1) }) (hn : 0 < n) (hgot : ∀ j < n, fget y.got j none ≠ none)
    (hmerged : ∀ j < n, 0 < fget y.merged j 0) (hlater : y.later = [])
    (hroot : pkOfAddr t (Claims.fld hdr 16 12) (Claims.fld hdr 6 10) (hdr.extractLsb' 38 12) = some root) :
    mergeAt t hdr rm gid i n = roundClosed t root rm gid hdr y n := by
  have hstart : mergeAt t hdr rm gid i n = closeRound (setRound t rm gid y) hdr rm gid n 2 := by
    rw [mergeAt, hx, hy]
  have hround : getRound (setRound t rm gid y) rm gid = y := getRound_setRound ..
  have hroot' := (pkOfAddr_parts (parts_setRound t rm gid y) (Claims.fld hdr 16 12) (Claims.fld hdr 6 10) (hdr.extractLsb' 38 12)).trans hroot
  rw [hstart, closeRound_full 1 (by rwa [hround]) (by rwa [hround]), hround, sendResult_eq hroot']
  refine closeRound_waits 1 ⟨0, hn, ?_⟩
  rw [getRound_setRound, nextRound, hlater]
  rfl

section
variable (t : State) (root rm gid : Nat) (hdr : Word) (y : Round) (n : Nat)

theorem getRound_roundClosed : getRound (roundClosed t root rm gid hdr y n) rm gid = nextRound y := getRound_setRound ..

theorem cal_roundClosed : t.cal ⊆ (roundClosed t root rm gid hdr y n).cal :=
  (deviceSends_enqueue (setRound t rm gid y) root _ (.msg (resultMsg (setRound t rm gid y) root hdr y n)) 63 0 0 0 0 0 0 0 []).cal

theorem sameMemory_roundClosed : Claims.SameMemory t (roundClosed t root rm gid hdr y n) :=
  sameMemory_trans (sameMemory_setRound ..) (sameMemory_trans (deviceSends_enqueue ..).sameMemory (sameMemory_setRound ..))

theorem roundClosed_carries : Claims.InOutbox (roundClosed t root rm gid hdr y n) root (resultMsg (setRound t rm gid y) root hdr y n) := by
  obtain ⟨e, he, hb, -⟩ := enqueue_carries (setRound t rm gid y) root (.toActor 63 (hdr.extractLsb' 0 28))
    (.msg (resultMsg (setRound t rm gid y) root hdr y n)) 63 0 0 0 0 0 0 0 []
  exact ⟨e, he, hb⟩

end

/-- The contribution that closes a round, with its result (R252). -/
theorem enters_last {s : State} {g : Msg} {frm : AckTo} {gid i op rm root : Nat} {x y : Round} (h : Claims.Contributes s g frm gid i op)
    (hrm : Claims.fld (getGroup s g.smod.toNat gid).hdr 16 12 = rm) (hhere : rm = g.smod.toNat)
    (hstep : contribute s g frm gid = towardRoot (roundEntered s g frm rm gid x) g gid i)
    (hy : y = { x with merged := fadj x.merged i 0 (· + 1) })
    (hfull : ∀ j < (getGroup s g.smod.toNat gid).members.length, fget y.got j none ≠ none ∧ 0 < fget y.merged j 0) (hlater : y.later = [])
    (hroot : pkOfAddr s rm (Claims.fld (getGroup s g.smod.toNat gid).hdr 6 10) ((getGroup s g.smod.toNat gid).hdr.extractLsb' 38 12) = some root) :
    ∃ s', EntersRound s g frm rm gid (nextRound y) s' ∧ Claims.InOutbox s' root (resultMsg
      (setRound (roundEntered s g frm rm gid x) rm gid y) root (getGroup s g.smod.toNat gid).hdr y (getGroup s g.smod.toNat gid).members.length) := by
  subst hhere
  let t := roundEntered s g frm g.smod.toNat gid x
  have hgroup : getGroup t g.smod.toNat gid = getGroup s g.smod.toNat gid := getGroup_roundEntered ..
  have hbits : bits (getGroup s g.smod.toNat gid).hdr 16 12 = g.smod.toNat := hrm
  have hpos : 0 < (getGroup s g.smod.toNat gid).members.length := Nat.zero_lt_of_lt (List.getElem?_eq_some_iff.mp h.member).1
  have hclose : towardRoot t g gid i = roundClosed t root g.smod.toNat gid (getGroup s g.smod.toNat gid).hdr y
      (getGroup s g.smod.toNat gid).members.length := by
    rw [towardRoot]
    simp only [hgroup]
    rw [if_pos hbits, hbits]
    refine mergeAt_closes (getRound_roundEntered ..) hy hpos (fun j hj => (hfull j hj).1) (fun j hj => (hfull j hj).2) hlater ?_
    rw [hrm, pkOfAddr_parts (parts_roundEntered s g frm g.smod.toNat gid x)]
    exact hroot
  refine ⟨_, ⟨(exec_contribution h).trans (by rw [hstep, hclose]), getRound_roundClosed .., ?_, ?_⟩, roundClosed_carries ..⟩
  · obtain ⟨due, hdue⟩ := acked_contribution h (setRound s g.smod.toNat gid x) g.smod.toNat .die 0
    exact ⟨due, cal_roundClosed _ _ _ _ _ _ _ hdue⟩
  · exact sameMemory_trans (sameMemory_roundEntered ..) (sameMemory_roundClosed ..)

/-- The rounds of a reduction group. -/
theorem reductionRounds : Claims.ReductionRounds := by
  intro s g frm gid i op h group n rm r round does here on waits merged enters
  refine ⟨fun hg hw => ⟨fun hh => ?_, fun ha => ?_⟩, fun h' hg hl hw => ⟨fun hh => ?_, fun ha => ?_⟩, fun h' k hg hl => ?_,
    fun root hh h1 h3 hn hg hfull hl hroot => ?_⟩
  · obtain ⟨s', hs⟩ := enters_here h rfl hh (contribute_first h rfl rfl hg) hw
    exact ⟨s', ⟨hs.step, hs.acked, hs.memory⟩, hs.round⟩
  · obtain ⟨s', hs, hon⟩ := enters_away h rfl ha (contribute_first h rfl rfl hg)
    exact ⟨s', ⟨hs.step, hs.acked, hs.memory⟩, hs.round, hon⟩
  · obtain ⟨s', hs⟩ := enters_here h rfl hh (contribute_later h rfl rfl hg hl) hw
    exact ⟨s', ⟨hs.step, hs.acked, hs.memory⟩, hs.round⟩
  · obtain ⟨s', hs, hon⟩ := enters_away h rfl ha (contribute_later h rfl rfl hg hl)
    exact ⟨s', ⟨hs.step, hs.acked, hs.memory⟩, hs.round, hon⟩
  · have hrefused := contribute_refused h rfl rfl hg hl
    exact ⟨_, ⟨(exec_contribution h).trans (by rw [hrefused]), acked_contribution h .., (deviceSends_answer ..).sameMemory⟩,
      (deviceSends_answer s g.smod.toNat .die frm 1).getRound rm gid⟩
  · obtain ⟨s', hs, hout⟩ := enters_last h rfl hh (contribute_first h rfl rfl hg) rfl hfull hl hroot
    have hop : Claims.fld (getGroup s g.smod.toNat gid).hdr 60 3 = op := h.op_.1
    have hround : round s' = nextRound { r with got := enters, merged } := hs.round
    refine ⟨s', _, ⟨hs.step, hs.acked, hs.memory⟩, congrArg Round.number hround, (congrArg Round.got hround).trans hl,
      congrArg Round.later hround, hout, rfl, rfl, msgDst_parts _, ofNat_bits .., ofNat_bits .., rfl,
      fun j hj h' hj' => Nat.le_trans (le_redWords hj hj')
        (Nat.le_of_eq (words_resultMsg (r := { r with got := enters, merged }) (n := n) hop h3).symm),
      fun k hk => pay_resultMsg hop h1 h3 hn hk⟩

/-- Settles O44: the copies by the state of the one message under way, the rounds through `closeRound`, whose tree is that of R122. -/
theorem multicastAndReduction : Obligations.MulticastAndReduction := ⟨multicastCopiesArrive, reductionRounds⟩

end Sys2Proof.Machine
end
